-- ==== Sys2Proof/Word.lean ====
section
/-! DEFINITION. The word types of the Alasan (R3, R25, R27, R51) and nothing more: what a repair may mend stands under
Machine/. -/

namespace Sys2Proof

/-- A 64-bit register, address or memory word (R25). -/
abbrev Word := BitVec 64

/-- One byte of memory (R3). -/
abbrev Byte := BitVec 8

/-- A 512-bit vector register (R26). -/
abbrev VecReg := BitVec 512

/-- An accumulator tile of 1 KiB: byte b of R27 is bits 8b + 7 : 8b. -/
abbrev Tile := BitVec 8192

/-- A 96-bit instruction slot (R51). -/
abbrev SlotWord := BitVec 96

/-- A 64-byte fetch line: slot k is bits 96k + 95 : 96k, the line word bits 511:480 (R44). -/
abbrev Line := BitVec 512

end Sys2Proof
end

