-- ==== Sys2Proof/Fields.lean ====
section
/-! DEFINITION. The operand types an instruction's constructor carries: register names, type codes, conditions, scopes,
prefix payloads and one structure per operand form. Each structure's fields are the fields the spec's encoding table of the
form names; a field the table leaves zero has no place here. -/

namespace Sys2Proof

/-- Register names (R25, R52): a number beyond its file is a reserved code, so it has no value here. -/
abbrev GReg := Fin 64
abbrev VReg := Fin 32
abbrev PReg := Fin 8
abbrev MReg := Fin 8
abbrev AReg := Fin 8
abbrev QReg := Fin 8

/-- Type codes 0x0 to 0xE of R53 (0xF is reserved). -/
inductive Ty where
  | none | i8 | i16 | i32 | i64 | z8 | z16 | z32 | z64 | bf16 | f16 | f32 | e4m3 | e5m2 | q4
  deriving DecidableEq, Repr

/-- The conditions of R103, FN 0x00 to 0x06. -/
inductive Cond where
  | eq | ne | lt | le | gt | ge | un
  deriving DecidableEq, Repr

/-- The scopes of R66, codes 0 to 5. -/
inductive Scope where
  | core | tile | block | die | package | fabric
  deriving DecidableEq, Repr

/-- The ordering codes of R66, 0 to 3. -/
inductive Ordering where
  | own | acq | rel | acqRel
  deriving DecidableEq, Repr

/-- The rounding modes 0 to 5 of R79. -/
inductive RMode where
  | nearestEven | zero | up | down | nearestAway | stochastic
  deriving DecidableEq, Repr

/-- The control registers of R30. -/
inductive CReg where
  | flags | rmode | lsctl | tvec | tpc | tcause | tval | ttag | stpc | stcause | stval | sttag
  | core | weave | seg | trcnt | cyc
  deriving DecidableEq, Repr

/-- The operations of RED, FN 0x00 to 0x05 (R195). -/
inductive RedOp where
  | add | min | max | and | or | xor
  deriving DecidableEq, Repr

/-- The fence kinds of R189, codes 1 to 3. -/
inductive FenceKind where
  | acquire | release | full
  deriving DecidableEq, Repr

/-- The phaser member modes of R281, codes 0 to 2. -/
inductive PhMode where
  | sigWait | sigOnly | waitOnly
  deriving DecidableEq, Repr

/-- A slot's guard (R55): p(GP) xor GN. -/
structure Guard where
  neg : Bool
  p : PReg
  deriving DecidableEq, Repr

/-- An immediate: 48 bits, and the 16 bits an IMMX prefix puts above them (R54, R64). -/
structure Imm where
  hi : Option (BitVec 16)
  lo : BitVec 48
  deriving DecidableEq, Repr

/-- A SCOPE prefix's payload (R66). -/
structure ScopePfx where
  ord : Ordering
  scope : Scope
  deriving DecidableEq, Repr

/-- A LANE prefix's payload (R67). -/
structure LanePfx where
  zero : Bool
  last : Fin 64
  first : Fin 64
  mask : MReg
  deriving DecidableEq, Repr

/-- A LIVE prefix's payload (R65): four vector carry fields and the scalar bits, bit i - 1 for g(i). -/
structure LivePfx where
  v3 : Option VReg
  v2 : Option VReg
  v1 : Option VReg
  v0 : Option VReg
  scal : BitVec 63
  deriving DecidableEq, Repr

/-- Lane control of a vector form: ZM, MK (R121, R201) and the LANE prefix, if any. -/
structure VSel where
  zm : Bool
  mkr : MReg
  lane : Option LanePfx
  deriving DecidableEq, Repr

/-! Scalar forms (R102 to R105, R119). -/

structure AluS where
  ty : Ty
  sat : Bool
  d : GReg
  a : GReg
  b : GReg
  deriving DecidableEq, Repr

structure Alu where
  ty : Ty
  d : GReg
  a : GReg
  b : GReg
  deriving DecidableEq, Repr

structure CmpR where
  ty : Ty
  cond : Cond
  p : PReg
  a : GReg
  b : GReg
  deriving DecidableEq, Repr

structure AluI where
  ty : Ty
  d : GReg
  a : GReg
  imm : Imm
  deriving DecidableEq, Repr

structure ShI where
  ty : Ty
  d : GReg
  a : GReg
  s : Fin 64
  deriving DecidableEq, Repr

structure CmpI where
  ty : Ty
  cond : Cond
  p : PReg
  a : GReg
  imm : Imm
  deriving DecidableEq, Repr

structure MovI where
  ty : Ty
  d : GReg
  imm : Imm
  deriving DecidableEq, Repr

structure LeaA where
  d : GReg
  a : GReg
  b : GReg
  sc : Fin 4
  imm : Imm
  deriving DecidableEq, Repr

structure SelA where
  d : GReg
  c : PReg
  a : GReg
  b : GReg
  deriving DecidableEq, Repr

structure Un where
  ty : Ty
  d : GReg
  a : GReg
  deriving DecidableEq, Repr

/-- A link register and a displacement in slots (R105). -/
structure LinkD where
  d : GReg
  disp : BitVec 48
  deriving DecidableEq, Repr

/-- A destination and one source. -/
structure DA where
  d : GReg
  a : GReg
  deriving DecidableEq, Repr

structure DAB where
  d : GReg
  a : GReg
  b : GReg
  deriving DecidableEq, Repr

structure DABC where
  d : GReg
  a : GReg
  b : GReg
  c : GReg
  deriving DecidableEq, Repr

structure AB where
  a : GReg
  b : GReg
  deriving DecidableEq, Repr

structure McrA where
  d : GReg
  cr : CReg
  deriving DecidableEq, Repr

structure MtcA where
  cr : CReg
  a : GReg
  deriving DecidableEq, Repr

/-! Memory forms (R187 to R203). -/

structure MemL where
  ty : Ty
  d : GReg
  a : GReg
  imm : Imm
  sc : Option ScopePfx
  deriving DecidableEq, Repr

structure MemS where
  ty : Ty
  a : GReg
  b : GReg
  imm : Imm
  sc : Option ScopePfx
  deriving DecidableEq, Repr

structure FenceA where
  kind : FenceKind
  scope : Scope
  deriving DecidableEq, Repr

structure Atom where
  ty : Ty
  d : GReg
  a : GReg
  b : GReg
  imm : BitVec 48
  sc : Option ScopePfx
  deriving DecidableEq, Repr

structure Atom3 where
  ty : Ty
  d : GReg
  a : GReg
  b : GReg
  c : GReg
  imm : BitVec 48
  sc : Option ScopePfx
  deriving DecidableEq, Repr

structure WaitAA where
  ty : Ty
  d : GReg
  a : GReg
  b : GReg
  imm : BitVec 48
  deriving DecidableEq, Repr

structure AImm where
  a : GReg
  imm : BitVec 48
  deriving DecidableEq, Repr

structure DAImm where
  d : GReg
  a : GReg
  imm : BitVec 48
  deriving DecidableEq, Repr

structure DABImm where
  d : GReg
  a : GReg
  b : GReg
  imm : BitVec 48
  deriving DecidableEq, Repr

structure RedA where
  op : RedOp
  ty : Ty
  a : GReg
  b : GReg
  imm : BitVec 48
  sc : Option ScopePfx
  deriving DecidableEq, Repr

structure VLdA where
  ty : Ty
  d : VReg
  a : GReg
  ofs : BitVec 40
  sel : VSel
  sc : Option ScopePfx
  deriving DecidableEq, Repr

structure VStA where
  ty : Ty
  a : GReg
  s : VReg
  ofs : BitVec 40
  sel : VSel
  sc : Option ScopePfx
  deriving DecidableEq, Repr

structure VLdSA where
  ty : Ty
  d : VReg
  a : GReg
  b : GReg
  ofs : BitVec 40
  sel : VSel
  sc : Option ScopePfx
  deriving DecidableEq, Repr

structure VStSA where
  ty : Ty
  a : GReg
  b : GReg
  s : VReg
  ofs : BitVec 40
  sel : VSel
  sc : Option ScopePfx
  deriving DecidableEq, Repr

structure VGatA where
  ty : Ty
  d : VReg
  a : GReg
  x : VReg
  scale : Fin 4
  ofs : BitVec 40
  sel : VSel
  sc : Option ScopePfx
  deriving DecidableEq, Repr

structure VScaA where
  ty : Ty
  a : GReg
  x : VReg
  s : VReg
  scale : Fin 4
  ofs : BitVec 40
  sel : VSel
  sc : Option ScopePfx
  deriving DecidableEq, Repr

structure VRedA where
  op : RedOp
  ty : Ty
  a : GReg
  x : VReg
  s : VReg
  scale : Fin 4
  ofs : BitVec 40
  sel : VSel
  sc : Option ScopePfx
  deriving DecidableEq, Repr

/-! Landing-set forms (R210 to R221). -/

structure LdtA where
  ty : Ty
  acq : Bool
  a : GReg
  tr : GReg
  ofs : BitVec 32
  ti : BitVec 16
  sc : Option ScopePfx
  deriving DecidableEq, Repr

structure VGatTA where
  ty : Ty
  acq : Bool
  scale : Fin 4
  a : GReg
  x : VReg
  tr : GReg
  ofs : BitVec 24
  ti : BitVec 16
  mkr : MReg
  lane : Option LanePfx
  sc : Option ScopePfx
  deriving DecidableEq, Repr

structure TakeA where
  d : GReg
  t : GReg
  p : PReg
  deriving DecidableEq, Repr

structure VTakeA where
  ty : Ty
  nb : Bool
  d : VReg
  t : VReg
  c : GReg
  n1 : Fin 32
  sel : VSel
  deriving DecidableEq, Repr

structure TagA where
  d : GReg
  tr : GReg
  ti : BitVec 16
  deriving DecidableEq, Repr

structure TagFA where
  d : GReg
  tr : GReg
  b : GReg
  ti : BitVec 16
  deriving DecidableEq, Repr

/-! Phaser and message forms (R273, R277, R281, R284). -/

structure PhRegA where
  d : GReg
  a : GReg
  mode : PhMode
  deriving DecidableEq, Repr

structure WArrA where
  d : GReg
  w : Fin 16
  deriving DecidableEq, Repr

structure WWaitA where
  d : GReg
  b : GReg
  w : Fin 16
  deriving DecidableEq, Repr

structure SendA where
  a : GReg
  b : GReg
  n : Fin 8
  tag : BitVec 8
  deriving DecidableEq, Repr

structure SendRA where
  a : GReg
  b : GReg
  c : GReg
  n : Fin 8
  tag : BitVec 8
  ltag : BitVec 16
  deriving DecidableEq, Repr

structure SendTA where
  rq : Bool
  a : GReg
  b : GReg
  c : GReg
  n : Fin 8
  tag : BitVec 8
  ltag : BitVec 16
  deriving DecidableEq, Repr

structure HMsgA where
  d : GReg
  a : GReg
  b : GReg
  prio : Fin 4
  tag : BitVec 8
  deriving DecidableEq, Repr

structure TagEA where
  b : GReg
  tag : BitVec 8
  deriving DecidableEq, Repr

structure TagPA where
  d : GReg
  b : GReg
  tag : BitVec 8
  deriving DecidableEq, Repr

/-! Codelets, futures, copies (R298, R306, R313). -/

structure SpawnA where
  a : GReg
  b : GReg
  c : GReg
  count : BitVec 32
  n : Fin 8
  deriving DecidableEq, Repr

structure FutRA where
  d : GReg
  a : GReg
  ofs : BitVec 40
  deriving DecidableEq, Repr

structure FutRtA where
  d : GReg
  a : GReg
  ofs : BitVec 40
  p : PReg
  deriving DecidableEq, Repr

structure CopyA where
  v : VReg
  b : GReg
  sc : Option ScopePfx
  deriving DecidableEq, Repr

/-! Shuttle and stream forms (R323, R337). -/

structure JxD where
  disp : BitVec 48
  live : Option LivePfx
  deriving DecidableEq, Repr

structure JxR where
  a : GReg
  live : Option LivePfx
  deriving DecidableEq, Repr

structure CallxD where
  d : GReg
  disp : BitVec 48
  live : Option LivePfx
  deriving DecidableEq, Repr

structure CallxR where
  d : GReg
  a : GReg
  live : Option LivePfx
  deriving DecidableEq, Repr

structure SopenA where
  d : GReg
  a : GReg
  scope : Scope
  deriving DecidableEq, Repr

structure QBindA where
  a : GReg
  q : QReg
  deriving DecidableEq, Repr

structure QBindLA where
  q : QReg
  lq : Fin 16
  recv : Bool
  deriving DecidableEq, Repr

structure QDA where
  d : GReg
  q : QReg
  deriving DecidableEq, Repr

structure QSendA where
  b : GReg
  q : QReg
  deriving DecidableEq, Repr

structure QRecvA where
  d : GReg
  q : QReg
  p : PReg
  deriving DecidableEq, Repr

/-! Vector forms (R121 to R135). -/

structure VArS where
  ty : Ty
  sat : Bool
  d : VReg
  a : VReg
  b : VReg
  rnd : Option RMode
  sel : VSel
  deriving DecidableEq, Repr

structure VFmaA where
  ty : Ty
  ns : Bool
  d : VReg
  a : VReg
  b : VReg
  c : VReg
  rnd : Option RMode
  sel : VSel
  deriving DecidableEq, Repr

structure VBinR where
  ty : Ty
  d : VReg
  a : VReg
  b : VReg
  rnd : Option RMode
  sel : VSel
  deriving DecidableEq, Repr

structure VUnR where
  ty : Ty
  d : VReg
  a : VReg
  rnd : Option RMode
  sel : VSel
  deriving DecidableEq, Repr

structure VBin where
  ty : Ty
  d : VReg
  a : VReg
  b : VReg
  sel : VSel
  deriving DecidableEq, Repr

structure VUn where
  ty : Ty
  d : VReg
  a : VReg
  sel : VSel
  deriving DecidableEq, Repr

structure VUnS where
  ty : Ty
  sat : Bool
  d : VReg
  a : VReg
  sel : VSel
  deriving DecidableEq, Repr

structure VShI where
  ty : Ty
  d : VReg
  a : VReg
  s : Fin 64
  sel : VSel
  deriving DecidableEq, Repr

structure VCmpA where
  ty : Ty
  cond : Cond
  d : MReg
  a : VReg
  b : VReg
  sel : VSel
  deriving DecidableEq, Repr

structure VBcA where
  ty : Ty
  d : VReg
  a : GReg
  sel : VSel
  deriving DecidableEq, Repr

structure VBcI where
  ty : Ty
  d : VReg
  imm : BitVec 24
  sel : VSel
  deriving DecidableEq, Repr

structure VExtI where
  ty : Ty
  d : GReg
  a : VReg
  idx : Fin 64
  mkr : MReg
  lane : Option LanePfx
  deriving DecidableEq, Repr

structure VExtR where
  ty : Ty
  d : GReg
  a : VReg
  b : GReg
  mkr : MReg
  lane : Option LanePfx
  deriving DecidableEq, Repr

structure VInsI where
  ty : Ty
  d : VReg
  a : GReg
  idx : Fin 64
  mkr : MReg
  lane : Option LanePfx
  deriving DecidableEq, Repr

structure VInsR where
  ty : Ty
  d : VReg
  a : GReg
  b : GReg
  mkr : MReg
  lane : Option LanePfx
  deriving DecidableEq, Repr

structure VPermA where
  ty : Ty
  d : VReg
  a : VReg
  b : VReg
  c : VReg
  sel : VSel
  deriving DecidableEq, Repr

structure VCompA where
  ty : Ty
  d : VReg
  a : VReg
  mkr : MReg
  lane : Option LanePfx
  deriving DecidableEq, Repr

structure VIotaA where
  ty : Ty
  d : VReg
  sel : VSel
  deriving DecidableEq, Repr

structure MBin where
  d : MReg
  a : MReg
  b : MReg
  deriving DecidableEq, Repr

structure MUn where
  d : MReg
  a : MReg
  deriving DecidableEq, Repr

structure MPopA where
  d : GReg
  a : MReg
  deriving DecidableEq, Repr

structure VCvtA where
  dt : Ty
  st : Ty
  sat : Bool
  d : VReg
  a : VReg
  b : GReg
  part : Fin 8
  rnd : Option RMode
  sel : VSel
  deriving DecidableEq, Repr

structure VCvtoA where
  dt : Ty
  st : Ty
  d : VReg
  a : VReg
  b : GReg
  n : GReg
  part : Fin 8
  rnd : Option RMode
  sel : VSel
  deriving DecidableEq, Repr

structure VPruneA where
  ty : Ty
  d : VReg
  m : VReg
  a : VReg
  mkr : MReg
  lane : Option LanePfx
  deriving DecidableEq, Repr

structure VRedSA where
  ty : Ty
  d : GReg
  a : VReg
  rnd : Option RMode
  mkr : MReg
  lane : Option LanePfx
  deriving DecidableEq, Repr

structure VRedMA where
  ty : Ty
  d : GReg
  a : VReg
  mkr : MReg
  lane : Option LanePfx
  deriving DecidableEq, Repr

structure VTopA where
  ty : Ty
  d : VReg
  x : VReg
  a : VReg
  k1 : Fin 64
  mkr : MReg
  lane : Option LanePfx
  deriving DecidableEq, Repr

structure VBskA where
  ty : Ty
  d : MReg
  a : VReg
  b : VReg
  c : GReg
  p : PReg
  sel : VSel
  deriving DecidableEq, Repr

structure VDotA where
  ty : Ty
  d : VReg
  a : VReg
  b : VReg
  c : VReg
  rnd : Option RMode
  sel : VSel
  deriving DecidableEq, Repr

/-! Loom and treadle forms (R137, R153, R164). -/

/-- MMA: A and B name v registers, or the g register of a scratchpad operand's base (R153). -/
structure MmaA where
  ty : Ty
  acc : AReg
  a : Fin 64
  b : Fin 64
  gw : Fin 4
  kq : Fin 32
  asp : Bool
  bsp : Bool
  adr : GReg
  bdr : GReg
  deriving DecidableEq, Repr

structure MmaSA where
  ty : Ty
  acc : AReg
  a : Fin 64
  b : Fin 64
  m : VReg
  gw : Fin 4
  kq : Fin 32
  asp : Bool
  bsp : Bool
  adr : GReg
  bdr : GReg
  deriving DecidableEq, Repr

structure MldA where
  acc : AReg
  a : GReg
  imm : BitVec 48
  deriving DecidableEq, Repr

structure MmvV where
  d : VReg
  acc : AReg
  i : Fin 16
  deriving DecidableEq, Repr

structure MmvA where
  acc : AReg
  a : VReg
  i : Fin 16
  deriving DecidableEq, Repr

structure TrrecA where
  n1 : Fin 32
  sv : Fin 32
  sa : Fin 8
  ads : BitVec 32
  deriving DecidableEq, Repr

/-! System forms. -/

structure ElogA where
  v : VReg
  a : GReg
  deriving DecidableEq, Repr

structure HostsigA where
  d : GReg
  a : GReg
  code : BitVec 8
  deriving DecidableEq, Repr

/-! Pair halves (R58): the single-word forms a half may stand for, with the same operand structures. -/

inductive ScalarHalf where
  | none
  | add (x : AluS) | sub (x : AluS) | and (x : Alu) | or (x : Alu) | xor (x : Alu)
  | shl (x : Alu) | shr (x : Alu) | sra (x : Alu) | min (x : Alu) | max (x : Alu) | mul (x : AluS)
  | cmp (x : CmpR) | addi (x : AluI) | andi (x : AluI) | shli (x : ShI) | shri (x : ShI) | srai (x : ShI)
  | movi (x : MovI) | lea (x : LeaA) | ld (x : MemL) | st (x : MemS)
  deriving DecidableEq, Repr

inductive VectorHalf where
  | none
  | vadd (x : VArS) | vsub (x : VArS) | vmul (x : VArS) | vmin (x : VBin) | vmax (x : VBin)
  | vand (x : VBin) | vor (x : VBin) | vxor (x : VBin)
  | vshl (x : VBin) | vshlImm (x : VShI) | vshr (x : VBin) | vshrImm (x : VShI) | vsra (x : VBin) | vsraImm (x : VShI)
  | vcmp (x : VCmpA) | vsel (x : VBin) | vmov (x : VUn) | vbcast (x : VBcA) | vbcastImm (x : VBcI)
  | vcvt (x : VCvtA) | vld (x : VLdA) | vst (x : VStA)
  deriving DecidableEq, Repr

/-! Arguments of the device's and host's own steps: which pending item or unit the step concerns, and what enters the
device from outside with it. -/

/-- A strand slot as core index × 8 + slot; a core index is die × 10,240 + row × 160 + column (R12). -/
abbrev StrandIx := Nat
abbrev CoreIx := Nat

/-- One die's share of a placement choice (R362): the die and, for each block chosen, its tiles. -/
structure DieChoice where
  die : Nat
  blocks : List (Nat × List Nat)
  deriving DecidableEq, Repr

/-- What bring-up stage 3 met (R415): a peer package with the same number, a stack that failed, and the cores that
failed their test. -/
structure BringupFacts where
  peerClash : Bool
  stackFails : Bool
  badCores : List CoreIx
  deriving DecidableEq, Repr

end Sys2Proof
end

