-- ==== Sys2Proof/Config.lean ====
section
/-! DEFINITION. What an implementation fixes and the spec leaves free: opaque constants, so nothing can be proved from a
particular value. Each is applied to the state's free-value counter or to the data it depends on. -/

namespace Sys2Proof.Config

/-- A check value that a sync engine or a stream's home chooses (R279, R335). -/
opaque freeChk : Nat → BitVec 16

/-- A 64-bit value the spec does not fix: the identifier of an area that is none (R369), an island's power (R418). -/
opaque freeWord : Nat → BitVec 64

/-- A byte of a save area beyond its header, whose layout is the device's own: by the area's writing and the byte's place (R368); and of an
unusable word in a frame that a port sends (R423). -/
opaque freeArea : Nat → Nat → BitVec 8

/-- The length of a save area beyond its header, for what it holds: the weave, its strands, shuttles and cores (R368). The 48 bits
are the model's bound: an area lies in memory. -/
opaque freeLength : List Nat → BitVec 48

/-- The fuses (R416): each slot's key hashes and revocation bit, and the counter. -/
opaque fuseRsaHash : Nat → Nat
opaque fuseSlhHash : Nat → Nat
opaque fuseRevoked : Nat → Bool
opaque fuseSvn : Nat

/-- What an image's first 16 bytes say, whose layout the spec does not give (R416): whether the magic number and the header version
are good, the security version and the key slot. -/
opaque imageMagic : List Byte → Bool
opaque imageSvn : List Byte → Nat
opaque imageSlot : List Byte → Nat

/-- The serial number, and the two signatures of a report's contents under keys that never leave the die (R417). -/
opaque serial : Nat
opaque attRsa : List Byte → List Byte
opaque attSlh : List Byte → List Byte

/-- The layout of a report's contents, which the spec does not give (R417): from the serial number, the fuse SVN, the running image's
SHA-384, the nonce, SPLIT and FORM, and the row remaps as die, row and retired column. -/
opaque attLayout : List Nat → List (Nat × Nat × Nat) → List Byte

/-- An outcome the spec leaves to the device: a spare core's test (R407), a port's full buffer (R423). -/
opaque freeBit : Nat → Bool

end Sys2Proof.Config
end

