-- ==== Sys2Proof/Syntax.lean ====
section
/-! DEFINITION. The instruction type: one constructor for each row of spec/opcode_table.json, in the table's order. The
first 226 are instructions; the rest are the steps the device and the host take of themselves (R8, R10), whose arguments
name the pending item or the unit they concern. -/

namespace Sys2Proof

inductive Instr where
  -- Scalar and control (R102 to R120)
  | add (x : AluS) | sub (x : AluS) | mul (x : AluS) | mulh (x : Alu) | div (x : Alu) | rem (x : Alu)
  | and (x : Alu) | or (x : Alu) | xor (x : Alu) | shl (x : Alu) | shr (x : Alu) | sra (x : Alu)
  | min (x : Alu) | max (x : Alu) | cmp (x : CmpR)
  | addi (x : AluI) | muli (x : AluI) | andi (x : AluI) | ori (x : AluI) | xori (x : AluI)
  | shli (x : ShI) | shri (x : ShI) | srai (x : ShI) | cmpi (x : CmpI) | movi (x : MovI)
  | lea (x : LeaA) | sel (x : SelA) | clz (x : Un) | popc (x : Un)
  | br (disp : BitVec 48) | call (x : LinkD) | callReg (x : DA) | ret (a : GReg) | jr (a : GReg) | loop (x : LinkD)
  | halt | haltK (a : GReg) | yield | nop | sleep (a : GReg) | trap (n : BitVec 8) | trapBrk (n : BitVec 8)
  | eret | eretN | pairWord (sh : ScalarHalf) (vh : VectorHalf)
  | mfcr (x : McrA) | mtcr (x : MtcA) | mtcrSet (x : MtcA) | mtcrClr (x : MtcA) | mtcrEnt (x : MtcA)
  -- Memory (R187 to R203)
  | ld (x : MemL) | st (x : MemS) | stOf (x : MemS) | fence (x : FenceA) | fenceSt
  | aadd (x : Atom) | aaddt (x : Atom3) | amin (x : Atom) | amax (x : Atom) | aand (x : Atom) | aor (x : Atom)
  | axor (x : Atom) | aswap (x : Atom) | acas (x : Atom3) | waita (x : WaitAA) | awake (x : AImm) | red (x : RedA)
  | pgin (x : DAImm)
  | vld (x : VLdA) | vst (x : VStA) | vlds (x : VLdSA) | vsts (x : VStSA) | vgath (x : VGatA) | vscat (x : VScaA)
  | vred (x : VRedA)
  -- Landing sets (R210 to R221)
  | ldt (x : LdtA) | vgatht (x : VGatTA) | take (x : TakeA) | takeNb (x : TakeA) | vtake (x : VTakeA) | lscnt (d : GReg)
  | lreissue (x : TagA) | lfill (x : TagFA) | ldrop (x : TagA) | ldropAny (x : TagA)
  -- Phasers, wired barriers, messages (R273 to R284)
  | phinit (x : DA) | phreg (x : PhRegA) | phdrop (a : GReg) | phsig (x : DA) | phwait (x : DAB) | phsw (x : DA)
  | warr (x : WArrA) | wwait (x : WWaitA)
  | send (x : SendA) | sendRq (x : SendRA) | sendT (x : SendTA) | sendm (x : SendA)
  | hmsg (x : HMsgA) | hret (a : GReg) | tagen (x : TagEA) | tagdis (x : TagEA) | tagpend (x : TagPA)
  -- Codelets, futures, launches, shuttles, streams, copies (R298 to R366)
  | spawn (x : SpawnA) | spawnPin (x : SpawnA) | dec (x : DAImm) | futr (x : FutRA) | futrT (x : FutRtA) | futw (x : DABImm)
  | launch (x : DA) | launchW (x : DA) | exit (code : BitVec 8)
  | jx (x : JxD) | jxReg (x : JxR) | callx (x : CallxD) | callxReg (x : CallxR) | retx (x : JxR)
  | segheat (x : DA) | segheatClr (x : DA) | segrep (x : AB) | segrepDel (x : AB) | segmap (x : DA) | segmapHi (x : DA)
  | sopen (x : SopenA) | sclose (q : QReg) | scloseU (a : GReg) | qbind (x : QBindA) | qbindLoc (x : QBindLA)
  | qunbind (x : QDA) | qstat (x : QDA) | qsend (x : QSendA) | qsendH (x : QSendA) | qrecv (x : QRecvA)
  | copy (x : CopyA) | ringinit (x : DAB) | awaitf (x : DAB) | relslot (x : AB) | ringstat (x : DA) | ringstatCfg (x : DA)
  -- Vector (R125 to R135)
  | vadd (x : VArS) | vsub (x : VArS) | vmul (x : VArS) | vfma (x : VFmaA) | vdiv (x : VBinR) | vsqrt (x : VUnR)
  | vmin (x : VBin) | vmax (x : VBin) | vabs (x : VUnS) | vneg (x : VUnS)
  | vand (x : VBin) | vor (x : VBin) | vxor (x : VBin)
  | vshl (x : VBin) | vshlImm (x : VShI) | vshr (x : VBin) | vshrImm (x : VShI) | vsra (x : VBin) | vsraImm (x : VShI)
  | vrcp (x : VUnR) | vrsqrt (x : VUnR) | vexp2 (x : VUnR)
  | vcmp (x : VCmpA) | vsel (x : VBin) | vmov (x : VUn) | vbcast (x : VBcA) | vbcastImm (x : VBcI)
  | vext (x : VExtI) | vextReg (x : VExtR) | vins (x : VInsI) | vinsReg (x : VInsR)
  | vperm (x : VPermA) | vrot (x : VShI) | vcompress (x : VCompA) | vexpand (x : VUn) | viota (x : VIotaA)
  | mand (x : MBin) | mor (x : MBin) | mxor (x : MBin) | mnot (x : MUn) | mpopc (x : MPopA)
  | vcvt (x : VCvtA) | vcvto (x : VCvtoA) | vprune48 (x : VPruneA)
  | vredsum (x : VRedSA) | vredmin (x : VRedMA) | vredmax (x : VRedMA) | vtopk (x : VTopA) | vbskip (x : VBskA)
  | vdot4 (x : VDotA)
  -- Loom and treadle (R137, R153, R164 to R166)
  | mma (x : MmaA) | mmaS (x : MmaSA) | mzero (acc : AReg) | mld (x : MldA) | mst (x : MldA)
  | mscaleA0 (v : VReg) | mscaleA1 (v : VReg) | mscaleB (v : VReg) | mwait | mwaitTile (acc : AReg)
  | mmovv (x : MmvV) | mmova (x : MmvA) | mstat (d : GReg)
  | trrec (x : TrrecA) | trrun (a : GReg) | trstop (d : GReg) | trstat (d : GReg)
  -- System (R369, R390, R405, R414, R418)
  | tlbinv (x : AB) | tlbinvAs (b : GReg) | tlbinvAll | tlbinvOut (x : DABC) | tlbsync
  | savectx (x : DAB) | savectxSwap (x : DAB) | savectxDrain (x : DAB) | savectxSize (x : DAB) | loadctx (x : DAB)
  | quar (x : DA) | quarClr (x : DA) | remap (x : DA) | remapStat (x : DA)
  | elogrd (x : ElogA) | elogrdPop (a : GReg) | elogrdCnt (x : DA) | elogrdZc (a : GReg)
  | pwrset (x : DAB) | pwrsetRd (x : DA) | hostsig (x : HostsigA)
  -- Steps of the device and the host
  | lineRefetch (k : StrandIx) | sleepExpiry (k : StrandIx) | homeAccess (n : Nat) | loadReply (n : Nat)
  | atomicAtHome (n : Nat) | redAtHome (n : Nat) | redMerge (n m : Nat) | redHoldExpiry (n : Nat)
  | postedWriteAck (n : Nat) | waitaWake (n : Nat) | taggedLoadReply (n : Nat) | taggedLoadFault (n : Nat)
  | pageWalkComplete (n : Nat) | pageInComplete (n : Nat) | tlbInvalidateApply (n : Nat)
  | sendQueueDrain (k : StrandIx) | messageArrival (n : Nat) | dispatch (c : CoreIx) | taskPromotion (c : CoreIx)
  | codeletPush (n : Nat) | gangForm (k : StrandIx) | loomOpComplete (c : CoreIx) | treadleEntryIssue (k : StrandIx)
  | copyCommand (t : Nat) | shuttleArrival (n : Nat) | shuttleShed (n : Nat) | shedRefill (c : CoreIx)
  | occupancyReport (c : CoreIx) | streamItemArrival (n : Nat) | streamMove (n : Nat) | pointerRetire (c : CoreIx) (n : Nat)
  | streamOrphan (n : Nat) | launchPlacement (choice : List DieChoice) (vb : Nat) | weaveEnd (wid : Nat)
  | drainExpiry (part : Nat) | coreQuarantine (c : CoreIx) (array : BitVec 8) | linkFail (die block port : Nat)
  | deviceReset | linkTrain | go | imageVerify | bringupComplete (f : BringupFacts) | att | dbq (v : BitVec 6)
  | dbr (p : BitVec 2) | hostRegisterWrite (word : Nat) (value : BitVec 64)
  | powerThrottle (island : Nat) | thermalTrip (die : Nat) | ethFrameReceive (port queue : Nat) (frame : List Byte) (fcsGood : Bool)
  | ethTransmit (n : Nat) | streamCreditArrival (n : Nat) | flashCopyComplete (n : Nat) | pointChangeComplete (island : Nat)
  deriving DecidableEq, Repr

end Sys2Proof
end

