-- ==== Sys2Proof/WellFormed.lean ====
section
/-! DEFINITION. Which instruction terms the spec's encodings admit: the type codes each form lists, the ranges of its
operands, and what a prefix may carry before it (R52, R53, R61, R62, R67 to R69, R102 to R105, R121 to R135, R147, R153,
R187 to R215, R273 to R284, R298, R313, R337). -/

namespace Sys2Proof

/-- The element width of a type code; code 0x0 acts as .z64 (R99, R123). -/
def Ty.width : Ty → Nat
  | .none | .i64 | .z64 => 64
  | .i32 | .z32 | .f32 => 32
  | .i16 | .z16 | .bf16 | .f16 => 16
  | .i8 | .z8 | .e4m3 | .e5m2 => 8
  | .q4 => 4

def Ty.isI : Ty → Bool
  | .i8 | .i16 | .i32 | .i64 => true
  | _ => false

def Ty.isZ : Ty → Bool
  | .z8 | .z16 | .z32 | .z64 => true
  | _ => false

/-- The integer types of R74. -/
def Ty.isInt (t : Ty) : Bool := t.isI || t.isZ

/-- The class 'float' of R123. -/
def Ty.isFloat : Ty → Bool
  | .bf16 | .f16 | .f32 => true
  | _ => false

def Ty.isF8 : Ty → Bool
  | .e4m3 | .e5m2 => true
  | _ => false

/-- 'bit pattern, integer' of R123. -/
def Ty.isBits (t : Ty) : Bool := t == .none || t.isInt

/-- The element count of a type, 512 ÷ w (R26, R123). -/
def Ty.count (t : Ty) : Nat := 512 / t.width

/-- The types 0x0, 0x3, 0x4, 0x7, 0x8, 0xB of the indexed vector forms (R201, R210, R215). -/
def Ty.isIndexed : Ty → Bool
  | .none | .i32 | .i64 | .z32 | .z64 | .f32 => true
  | _ => false

/-- The types of a plain vector access, 0x0 to 0xD (R201). -/
def Ty.isVMem (t : Ty) : Bool := t != .q4

def Ty.isAadd : Ty → Bool
  | .i32 | .i64 | .z32 | .z64 | .f32 => true
  | _ => false

def Ty.isWord : Ty → Bool
  | .i32 | .i64 | .z32 | .z64 => true
  | _ => false

/-- The types each RED operation takes (R195). -/
def RedOp.takes : RedOp → Ty → Bool
  | .add, t => t.isAadd || t == .bf16
  | .min, t | .max, t => t.isWord
  | .and, t | .or, t | .xor, t => t == .z32 || t == .z64

/-- Ordering codes a read, a write and an atomic take (R230). -/
def Ordering.okRead : Ordering → Bool
  | .own | .acq => true
  | _ => false

def Ordering.okWrite : Ordering → Bool
  | .own | .rel => true
  | _ => false

def scRead (p : Option ScopePfx) : Bool := p.all fun q => q.ord.okRead
def scWrite (p : Option ScopePfx) : Bool := p.all fun q => q.ord.okWrite

/-- The number of elements a LANE prefix's last is checked against; .q4 elements are selected in pairs (R67). -/
def Ty.laneCount (t : Ty) : Nat := if t == .q4 then 64 else t.count

/-- A LANE prefix's range under R67. -/
def laneOk (t : Ty) (p : Option LanePfx) : Bool :=
  p.all fun q => decide (q.first ≤ q.last) && decide (q.last.val < t.laneCount)

/-- As laneOk, with the ZERO bit clear (VEXT and VINS, R127). -/
def laneOkNZ (t : Ty) (p : Option LanePfx) : Bool := laneOk t p && p.all fun q => !q.zero

def rndNone (t : Ty) (r : Option RMode) : Bool := t.isFloat || r.isNone

/-- How many bits of a word are 1, for LIVE's count of scalar registers (R65). -/
def popNat : Nat → Nat → Nat
  | 0, _ => 0
  | k + 1, x => x % 2 + popNat k (x / 2)

def liveOk (p : Option LivePfx) : Bool := p.all fun q => decide (popNat 63 q.scal.toNat ≤ 32)

/-- A payload of n words starting at register b (R273, R298). -/
def payloadOk (b : GReg) (n : Fin 8) : Bool :=
  decide (n.val ≤ 6) && (if n.val = 0 then b == 0 else decide (b.val + n.val - 1 ≤ 63))

def fullK (t : Ty) : Nat := if t.width = 16 then 32 else if t.width = 8 then 64 else 128

def Ty.isLoom : Ty → Bool
  | .bf16 | .f16 | .e4m3 | .e5m2 | .i8 | .q4 => true
  | _ => false

def loomOpnd (sp : Bool) (r : Fin 64) (dr : GReg) : Bool := if sp then true else decide (r.val < 32) && dr == 0

/-- The parts of a conversion (R129): the quotient of the wider width by the narrower. -/
def partOk (dt st : Ty) (p : Fin 8) : Bool :=
  if dt.width < st.width then decide (p.val < st.width / dt.width)
  else decide (p.val < dt.width / st.width)

/-- The type pairs of VCVT (R129). -/
def cvtPair (dt st : Ty) : Bool :=
  dt != .none && st != .none && dt != st &&
    (if dt == .q4 then st.isFloat else if st == .q4 then dt.isFloat else true)

/-- A wired phaser's number (R284): tile wires 0 to 7, row wires 1 to 3. -/
def wireOk (w : Fin 16) : Bool := decide (w.val < 8) || (decide (9 ≤ w.val) && decide (w.val ≤ 11))

def AluS.wf (x : AluS) : Bool := x.ty.isInt || (x.ty == .f32 && !x.sat)
def Alu.wfInt (x : Alu) : Bool := x.ty.isInt
def Alu.wfIntF (x : Alu) : Bool := x.ty.isInt || x.ty == .f32
def Alu.wfBits (x : Alu) : Bool := x.ty.isBits
def CmpR.wf (x : CmpR) : Bool := if x.cond == .un then x.ty == .f32 else x.ty.isInt || x.ty == .f32
def ShI.wf (x : ShI) : Bool := x.ty.isBits && decide (x.s.val < x.ty.width)
def CmpI.wf (x : CmpI) : Bool := x.ty.isInt && x.cond != .un
def MovI.wf (x : MovI) : Bool :=
  x.ty.isInt || (x.ty == .f32 && x.imm.lo.extractLsb' 32 16 == 0 && (x.imm.hi.all fun h => h == 0))
def VSel.wf (t : Ty) (s : VSel) : Bool := laneOk t s.lane
def VArS.wf (x : VArS) : Bool :=
  ((x.ty.isInt && x.rnd.isNone) || (x.ty.isFloat && !x.sat)) && x.sel.wf x.ty
def VBin.wfArith (x : VBin) : Bool := (x.ty.isInt || x.ty.isFloat) && x.sel.wf x.ty
def VBin.wfBits (x : VBin) : Bool := x.ty.isBits && x.sel.wf x.ty
def VBin.wfMove (x : VBin) : Bool := (x.ty.isBits || x.ty.isFloat) && x.sel.wf x.ty
def VShI.wf (x : VShI) : Bool := x.ty.isBits && decide (x.s.val < x.ty.width) && x.sel.wf x.ty
def VUnS.wf (x : VUnS) : Bool := (x.ty.isI || (x.ty.isFloat && !x.sat)) && x.sel.wf x.ty
def VUnR.wf (x : VUnR) : Bool := x.ty.isFloat && x.sel.wf x.ty
def VCmpA.wf (x : VCmpA) : Bool :=
  (if x.cond == .un then x.ty.isFloat else x.ty.isInt || x.ty.isFloat) && x.sel.wf x.ty
def VCvtA.wf (x : VCvtA) : Bool :=
  cvtPair x.dt x.st && partOk x.dt x.st x.part &&
    (!x.sat || (x.dt.isInt && x.st.isInt && decide (x.dt.width < x.st.width))) &&
    (!(x.dt.isInt && x.st.isInt) || x.rnd.isNone) &&
    (x.dt == .q4 || x.st == .q4 || x.b == 0) && x.sel.wf x.dt

/-- What a half's immediate and lane control can hold (R58, R122). -/
def imm14 (i : Imm) : Bool := i.hi.isNone && i.lo == (i.lo.setWidth 14).signExtend 48
def plain (s : VSel) : Bool := !s.zm && s.lane.isNone

/-- A half of a pair word: the form's own conditions, and nothing a half cannot carry (R58, R122). -/
def ScalarHalf.wf : ScalarHalf → Bool
  | .none => true
  | .add x | .sub x | .mul x => x.wf
  | .and x | .or x | .xor x | .shl x | .shr x | .sra x => x.wfBits
  | .min x | .max x => x.wfIntF
  | .cmp x => x.wf
  | .addi x => x.ty.isInt && imm14 x.imm
  | .andi x => x.ty.isBits && imm14 x.imm
  | .shli x | .shri x | .srai x => x.wf
  | .movi x => x.wf && imm14 x.imm
  | .lea x => imm14 x.imm
  | .ld x => x.ty.isInt && imm14 x.imm && x.sc.isNone
  | .st x => x.ty.isInt && imm14 x.imm && x.sc.isNone

def VectorHalf.wf : VectorHalf → Bool
  | .none => true
  | .vadd x | .vsub x | .vmul x => x.wf && x.rnd.isNone && plain x.sel
  | .vmin x | .vmax x => x.wfArith && plain x.sel
  | .vand x | .vor x | .vxor x | .vshl x | .vshr x | .vsra x => x.wfBits && plain x.sel
  | .vshlImm x | .vshrImm x | .vsraImm x => x.wf && plain x.sel
  | .vcmp x => x.wf && plain x.sel
  | .vsel x => x.wfMove && plain x.sel
  | .vmov x => (x.ty.isBits || x.ty.isFloat) && plain x.sel
  | .vbcast x => (x.ty.isBits || x.ty.isFloat) && plain x.sel
  | .vbcastImm x => (x.ty.isBits || x.ty.isFloat) && plain x.sel && x.imm == (x.imm.setWidth 11).signExtend 24
  | .vcvt x => x.wf && x.rnd.isNone && !x.sat && plain x.sel
  | .vld x => x.ty.isVMem && plain x.sel && x.sc.isNone && x.ofs == (x.ofs.setWidth 11).signExtend 40
  | .vst x => x.ty.isVMem && plain x.sel && x.sc.isNone && x.ofs == (x.ofs.setWidth 11).signExtend 40

/-- The conditions of one instruction term. A step of the device has no encoding and is always well formed. -/
def Instr.wf : Instr → Bool
  | .add x | .sub x | .mul x => x.wf
  | .mulh x | .rem x => x.wfInt
  | .div x | .min x | .max x => x.wfIntF
  | .and x | .or x | .xor x | .shl x | .shr x | .sra x => x.wfBits
  | .cmp x => x.wf
  | .addi x | .muli x => x.ty.isInt
  | .andi x | .ori x | .xori x => x.ty.isBits
  | .shli x | .shri x | .srai x => x.wf
  | .cmpi x => x.wf
  | .movi x => x.wf
  | .clz x | .popc x => x.ty.isBits
  | .pairWord sh vh => sh.wf && vh.wf
  | .ld x => x.ty.isInt && scRead x.sc
  | .st x | .stOf x => x.ty.isInt && scWrite x.sc
  | .aadd x | .amin x | .amax x => x.ty.isAadd
  | .aaddt x => x.ty == .i32 || x.ty == .i64
  | .aand x | .aor x | .axor x | .aswap x => x.ty == .z32 || x.ty == .z64
  | .acas x => x.ty == .z32 || x.ty == .z64
  | .waita x => x.ty.isWord
  | .red x => x.op.takes x.ty && scWrite x.sc
  | .vld x => x.ty.isVMem && x.sel.wf x.ty && scRead x.sc
  | .vst x => x.ty.isVMem && !x.sel.zm && x.sel.wf x.ty && scWrite x.sc
  | .vlds x => x.ty.isVMem && x.sel.wf x.ty && scRead x.sc
  | .vsts x => x.ty.isVMem && !x.sel.zm && x.sel.wf x.ty && scWrite x.sc
  | .vgath x => x.ty.isIndexed && x.sel.wf x.ty && scRead x.sc
  | .vscat x => x.ty.isIndexed && !x.sel.zm && x.sel.wf x.ty && scWrite x.sc
  | .vred x => x.op.takes x.ty && x.ty != .bf16 && !x.sel.zm && x.sel.wf x.ty && scWrite x.sc
  | .ldt x => (x.ty.isInt || x.ty.isFloat) && scRead x.sc
  | .vgatht x => x.ty.isIndexed && laneOk x.ty x.lane && scRead x.sc
  | .take x | .takeNb x => x.t == 0 || x.d != x.t
  | .vtake x => x.ty.isIndexed && decide (x.n1.val < x.ty.count) && x.d != x.t && x.sel.wf x.ty
  | .warr x => wireOk x.w
  | .wwait x => wireOk x.w
  | .send x | .sendm x => payloadOk x.b x.n
  | .sendRq x => payloadOk x.b x.n
  | .sendT x => payloadOk x.b x.n && (x.rq || (x.c == 0 && x.ltag == 0))
  | .spawn x | .spawnPin x => payloadOk x.c x.n
  | .jx x => liveOk x.live
  | .jxReg x => liveOk x.live
  | .callx x => liveOk x.live
  | .callxReg x => liveOk x.live
  | .retx x => liveOk x.live
  | .sopen x => decide (x.d.val % 2 = 0) && decide (2 ≤ x.d.val)
  | .vadd x | .vsub x | .vmul x => x.wf
  | .vfma x => x.ty.isFloat && x.sel.wf x.ty
  | .vdiv x => x.ty.isFloat && x.sel.wf x.ty
  | .vsqrt x | .vrcp x | .vrsqrt x | .vexp2 x => x.wf
  | .vmin x | .vmax x => x.wfArith
  | .vabs x | .vneg x => x.wf
  | .vand x | .vor x | .vxor x | .vshl x | .vshr x | .vsra x => x.wfBits
  | .vshlImm x | .vshrImm x | .vsraImm x => x.wf
  | .vcmp x => x.wf
  | .vsel x => x.wfMove
  | .vmov x => (x.ty.isBits || x.ty.isFloat) && x.sel.wf x.ty
  | .vbcast x => (x.ty.isBits || x.ty.isFloat) && x.sel.wf x.ty
  | .vbcastImm x => (x.ty.isBits || x.ty.isFloat) && x.sel.wf x.ty
  | .vext x => x.ty != .q4 && decide (x.idx.val < x.ty.count) && laneOkNZ x.ty x.lane
  | .vextReg x => x.ty != .q4 && laneOkNZ x.ty x.lane
  | .vins x => x.ty != .q4 && decide (x.idx.val < x.ty.count) && laneOkNZ x.ty x.lane
  | .vinsReg x => x.ty != .q4 && laneOkNZ x.ty x.lane
  | .vperm x => x.ty.isBits && x.sel.wf x.ty
  | .vrot x => x.ty.isBits && decide (x.s.val < x.ty.count) && x.sel.wf x.ty
  | .vcompress x => x.ty.isBits && laneOk x.ty x.lane
  | .vexpand x => x.ty.isBits && x.sel.wf x.ty
  | .viota x => x.ty.isInt && x.sel.wf x.ty
  | .vcvt x => x.wf
  | .vcvto x =>
    (x.dt == .i8 || x.dt == .e4m3 || x.dt == .e5m2 || x.dt == .f16 || x.dt == .bf16 || x.dt == .q4) &&
      x.st.isFloat && x.dt != x.st && partOk x.dt x.st x.part && decide (x.n.val % 2 = 0) && decide (2 ≤ x.n.val) &&
      x.sel.wf x.dt
  | .vprune48 x =>
    (x.ty == .i8 || x.ty.isF8 || x.ty == .bf16 || x.ty == .f16) && x.d != x.m && laneOk x.ty x.lane
  | .vredsum x => (x.ty.isInt || x.ty.isFloat) && rndNone x.ty x.rnd && laneOk x.ty x.lane
  | .vredmin x | .vredmax x => (x.ty.isInt || x.ty.isFloat) && laneOk x.ty x.lane
  | .vtopk x =>
    (x.ty.isInt || x.ty.isFloat) && decide (x.k1.val < x.ty.count) && x.d != x.x && laneOk x.ty x.lane
  | .vbskip x => x.ty.isFloat && x.sel.wf x.ty
  | .vdot4 x => (x.ty.isF8 || ((x.ty == .i8 || x.ty == .z8) && x.rnd.isNone)) && x.sel.wf x.ty
  | .mma x =>
    x.ty.isLoom && decide (8 * (x.kq.val + 1) ≤ fullK x.ty) && loomOpnd x.asp x.a x.adr && loomOpnd x.bsp x.b x.bdr
  | .mmaS x =>
    x.ty.isLoom && decide (8 * (x.kq.val + 1) ≤ 2 * fullK x.ty) && loomOpnd x.asp x.a x.adr && loomOpnd x.bsp x.b x.bdr
  | _ => true

/-- The steps of the device and the host: rows of the table that no slot encodes. -/
def Instr.isEvent : Instr → Bool
  | .lineRefetch _ | .sleepExpiry _ | .homeAccess _ | .loadReply _ | .atomicAtHome _ | .redAtHome _ | .redMerge _ _
  | .redHoldExpiry _ | .postedWriteAck _ | .waitaWake _ | .taggedLoadReply _ | .taggedLoadFault _
  | .pageWalkComplete _ | .pageInComplete _ | .tlbInvalidateApply _ | .sendQueueDrain _ | .messageArrival _
  | .dispatch _ | .taskPromotion _ | .codeletPush _ | .gangForm _ | .loomOpComplete _ | .treadleEntryIssue _
  | .copyCommand _ | .shuttleArrival _ | .shuttleShed _ | .shedRefill _ | .occupancyReport _ | .streamItemArrival _
  | .streamMove _ | .pointerRetire _ _ | .streamOrphan _ | .launchPlacement _ _ | .weaveEnd _ | .drainExpiry _
  | .coreQuarantine _ _ | .linkFail _ _ _ | .deviceReset | .linkTrain | .go | .imageVerify | .bringupComplete _
  | .att | .dbq _ | .dbr _ | .hostRegisterWrite _ _ | .powerThrottle _ | .thermalTrip _ | .ethFrameReceive _ _ _ _
  | .ethTransmit _ | .streamCreditArrival _ | .flashCopyComplete _ | .pointChangeComplete _ => true
  | _ => false

end Sys2Proof
end

