-- ==== Sys2Proof/Decode.lean ====
section
/-! DEFINITION. The decoder: slot words to instructions, rejecting by the cause and the slot the spec names (R51 to R70), and
after it the encoder, written from the same tables. A word is first cut into its fields (R51, R57, R63); every form then
reads its operands from the fields, and a field the form leaves unused must be zero (R52). -/

namespace Sys2Proof

/-! ## Cutting words into fields -/

/-- A field's place in a word: x at bit lo and up. -/
def put {k : Nat} (lo : Nat) (x : BitVec k) : Nat := x.toNat * 2 ^ lo

/-- The instruction fields of a single word below its guard (R51). -/
structure Fields where
  op : BitVec 8
  dst : BitVec 6
  sa : BitVec 6
  sb : BitVec 6
  sc : BitVec 6
  fn : BitVec 8
  ty : BitVec 4
  imm : BitVec 48
  deriving DecidableEq, Repr

/-- A single word's bits (R51). -/
def packWord (g : Guard) (f : Fields) : SlotWord :=
  BitVec.ofNat 96 (put 95 (BitVec.ofBool g.neg) + put 92 (BitVec.ofFin g.p : BitVec 3) + put 84 f.op + put 78 f.dst
    + put 72 f.sa + put 66 f.sb + put 60 f.sc + put 52 f.fn + put 48 f.ty + put 0 f.imm)

def guardOf (w : SlotWord) : Guard := ⟨w.getLsbD 95, (w.extractLsb' 92 3).toFin⟩

def fieldsOf (w : SlotWord) : Fields where
  op := w.extractLsb' 84 8
  dst := w.extractLsb' 78 6
  sa := w.extractLsb' 72 6
  sb := w.extractLsb' 66 6
  sc := w.extractLsb' 60 6
  fn := w.extractLsb' 52 8
  ty := w.extractLsb' 48 4
  imm := w.extractLsb' 0 48

/-! ## Register numbers and codes -/

def gOf (b : BitVec 6) : GReg := b.toFin
/-- A register number of a file smaller than 64; a number beyond the file is a reserved code (R52). -/
def regOf (n : Nat) (b : BitVec 6) : Option (Fin n) := if h : b.toNat < n then some ⟨b.toNat, h⟩ else none
def mOf (b : BitVec 3) : MReg := b.toFin

/-- R53. -/
def tyOf (c : BitVec 4) : Option Ty :=
  match c.toNat with
  | 0 => some .none | 1 => some .i8 | 2 => some .i16 | 3 => some .i32 | 4 => some .i64
  | 5 => some .z8 | 6 => some .z16 | 7 => some .z32 | 8 => some .z64 | 9 => some .bf16
  | 10 => some .f16 | 11 => some .f32 | 12 => some .e4m3 | 13 => some .e5m2 | 14 => some .q4
  | _ => none

def Ty.code : Ty → BitVec 4
  | .none => 0 | .i8 => 1 | .i16 => 2 | .i32 => 3 | .i64 => 4 | .z8 => 5 | .z16 => 6 | .z32 => 7 | .z64 => 8
  | .bf16 => 9 | .f16 => 10 | .f32 => 11 | .e4m3 => 12 | .e5m2 => 13 | .q4 => 14

/-- R103. -/
def condOf (c : BitVec 8) : Option Cond :=
  match c.toNat with
  | 0 => some .eq | 1 => some .ne | 2 => some .lt | 3 => some .le | 4 => some .gt | 5 => some .ge | 6 => some .un
  | _ => none

def Cond.code : Cond → BitVec 8
  | .eq => 0 | .ne => 1 | .lt => 2 | .le => 3 | .gt => 4 | .ge => 5 | .un => 6

/-- R66. -/
def scopeOf (c : BitVec 3) : Option Scope :=
  match c.toNat with
  | 0 => some .core | 1 => some .tile | 2 => some .block | 3 => some .die | 4 => some .package | 5 => some .fabric
  | _ => none

def Scope.code : Scope → BitVec 3
  | .core => 0 | .tile => 1 | .block => 2 | .die => 3 | .package => 4 | .fabric => 5

def ordOf (c : BitVec 2) : Ordering :=
  match c.toNat with
  | 0 => .own | 1 => .acq | 2 => .rel | _ => .acqRel

def Ordering.code : Ordering → BitVec 2
  | .own => 0 | .acq => 1 | .rel => 2 | .acqRel => 3

/-- R79. -/
def rmodeOf (c : BitVec 3) : Option RMode :=
  match c.toNat with
  | 0 => some .nearestEven | 1 => some .zero | 2 => some .up | 3 => some .down | 4 => some .nearestAway
  | 5 => some .stochastic
  | _ => none

def RMode.code : RMode → BitVec 3
  | .nearestEven => 0 | .zero => 1 | .up => 2 | .down => 3 | .nearestAway => 4 | .stochastic => 5

/-- The control-register numbers of R30. -/
def cregOf (c : BitVec 6) : Option CReg :=
  match c.toNat with
  | 0x00 => some .flags | 0x01 => some .rmode | 0x02 => some .lsctl | 0x08 => some .tvec
  | 0x09 => some .tpc | 0x0A => some .tcause | 0x0B => some .tval | 0x0C => some .ttag
  | 0x10 => some .stpc | 0x11 => some .stcause | 0x12 => some .stval | 0x13 => some .sttag
  | 0x20 => some .core | 0x21 => some .weave | 0x22 => some .seg | 0x23 => some .trcnt
  | 0x24 => some .cyc
  | _ => none

def CReg.code : CReg → BitVec 6
  | .flags => 0x00 | .rmode => 0x01 | .lsctl => 0x02 | .tvec => 0x08
  | .tpc => 0x09 | .tcause => 0x0A | .tval => 0x0B | .ttag => 0x0C
  | .stpc => 0x10 | .stcause => 0x11 | .stval => 0x12 | .sttag => 0x13
  | .core => 0x20 | .weave => 0x21 | .seg => 0x22 | .trcnt => 0x23
  | .cyc => 0x24

/-- RED's operations (R195). -/
def redOf (n : Nat) : Option RedOp :=
  match n with
  | 0 => some .add | 1 => some .min | 2 => some .max | 3 => some .and | 4 => some .or | 5 => some .xor
  | _ => none

def RedOp.num : RedOp → Nat
  | .add => 0 | .min => 1 | .max => 2 | .and => 3 | .or => 4 | .xor => 5

/-- FENCE's kinds (R189). -/
def fenceOf (n : Nat) : Option FenceKind :=
  match n with
  | 1 => some .acquire | 2 => some .release | 3 => some .full
  | _ => none

def FenceKind.num : FenceKind → Nat
  | .acquire => 1 | .release => 2 | .full => 3

/-- PHREG's member modes (R281). -/
def phModeOf (n : Nat) : Option PhMode :=
  match n with
  | 0 => some .sigWait | 1 => some .sigOnly | 2 => some .waitOnly
  | _ => none

def PhMode.num : PhMode → Nat
  | .sigWait => 0 | .sigOnly => 1 | .waitOnly => 2

/-! ## The extension fields of IMM -/

/-- The vector layout of R121, below its reserved bits. -/
structure VExt where
  vimm : BitVec 24
  rnd : Option RMode
  zm : Bool
  mkr : MReg
  deriving DecidableEq, Repr

/-- RMX and RMF together (R121): 8 + mode, or zero. -/
def rndCode : Option RMode → BitVec 4
  | none => 0
  | some m => BitVec.ofNat 4 (8 + m.code.toNat)

def rndOf (c : BitVec 4) : Option (Option RMode) :=
  if c = 0 then some none
  else if c.getLsbD 3 then (rmodeOf (c.extractLsb' 0 3)).map some
  else none

def VExt.imm (x : VExt) : BitVec 48 :=
  BitVec.ofNat 48 (put 24 x.vimm + put 9 (rndCode x.rnd) + put 3 (BitVec.ofBool x.zm) + put 0 (BitVec.ofFin x.mkr : BitVec 3))

def vextOf (imm : BitVec 48) : Option VExt :=
  if imm.extractLsb' 13 11 = 0 ∧ imm.extractLsb' 4 5 = 0 then
    (rndOf (imm.extractLsb' 9 4)).map fun r => ⟨imm.extractLsb' 24 24, r, imm.getLsbD 3, mOf (imm.extractLsb' 0 3)⟩
  else none

/-- The vector memory layout of R201. -/
structure MExt where
  ofs : BitVec 40
  zm : Bool
  mkr : MReg
  deriving DecidableEq, Repr

def MExt.imm (x : MExt) : BitVec 48 :=
  BitVec.ofNat 48 (put 8 x.ofs + put 3 (BitVec.ofBool x.zm) + put 0 (BitVec.ofFin x.mkr : BitVec 3))

def mextOf (imm : BitVec 48) : Option MExt :=
  if imm.extractLsb' 4 4 = 0 then some ⟨imm.extractLsb' 8 40, imm.getLsbD 3, mOf (imm.extractLsb' 0 3)⟩ else none

/-! ## Reading a form's operands

One reader for each operand form; every field the form leaves unused must be zero (R52). Prefixes are attached later. -/

/-- A count in VIMM, from 1 to 64, kept one lower (VTOPK, R133). -/
def succOf (v : BitVec 24) : Option (Fin 64) :=
  if h : 1 ≤ v.toNat ∧ v.toNat ≤ 64 then some ⟨v.toNat - 1, by omega⟩ else none

def Fields.readAluS (f : Fields) : Option AluS := do
  let ty' ← tyOf f.ty
  if f.sc = 0 ∧ f.fn.extractLsb' 1 7 = 0 ∧ f.imm = 0 then
    some ⟨ty', f.fn.getLsbD 0, gOf f.dst, gOf f.sa, gOf f.sb⟩
  else none

def Fields.readAlu (f : Fields) : Option Alu := do
  let ty' ← tyOf f.ty
  if f.sc = 0 ∧ f.imm = 0 then some ⟨ty', gOf f.dst, gOf f.sa, gOf f.sb⟩ else none

def Fields.readCmpR (f : Fields) : Option CmpR := do
  let ty' ← tyOf f.ty
  let cond' ← condOf f.fn
  let p' ← regOf 8 f.dst
  if f.sc = 0 ∧ f.imm = 0 then some ⟨ty', cond', p', gOf f.sa, gOf f.sb⟩ else none

def Fields.readAluI (f : Fields) : Option AluI := do
  let ty' ← tyOf f.ty
  if f.sb = 0 ∧ f.sc = 0 then some ⟨ty', gOf f.dst, gOf f.sa, ⟨none, f.imm⟩⟩ else none

def Fields.readShI (f : Fields) : Option ShI := do
  let ty' ← tyOf f.ty
  if f.sb = 0 ∧ f.sc = 0 ∧ f.imm.extractLsb' 6 42 = 0 then
    some ⟨ty', gOf f.dst, gOf f.sa, (f.imm.extractLsb' 0 6).toFin⟩
  else none

def Fields.readCmpI (f : Fields) : Option CmpI := do
  let ty' ← tyOf f.ty
  let cond' ← condOf f.fn
  let p' ← regOf 8 f.dst
  if f.sb = 0 ∧ f.sc = 0 then some ⟨ty', cond', p', gOf f.sa, ⟨none, f.imm⟩⟩ else none

def Fields.readMovI (f : Fields) : Option MovI := do
  let ty' ← tyOf f.ty
  if f.sa = 0 ∧ f.sb = 0 ∧ f.sc = 0 then some ⟨ty', gOf f.dst, ⟨none, f.imm⟩⟩ else none

def Fields.readLeaA (f : Fields) : Option LeaA :=
  if f.sc = 0 ∧ f.ty = 0 ∧ f.fn.extractLsb' 2 6 = 0 then
    some ⟨gOf f.dst, gOf f.sa, gOf f.sb, (f.fn.extractLsb' 0 2).toFin, ⟨none, f.imm⟩⟩
  else none

def Fields.readSelA (f : Fields) : Option SelA := do
  let c' ← regOf 8 f.sc
  if f.ty = 0 ∧ f.imm = 0 then some ⟨gOf f.dst, c', gOf f.sa, gOf f.sb⟩ else none

def Fields.readUn (f : Fields) : Option Un := do
  let ty' ← tyOf f.ty
  if f.sb = 0 ∧ f.sc = 0 ∧ f.imm = 0 then some ⟨ty', gOf f.dst, gOf f.sa⟩ else none

def Fields.readLinkD (f : Fields) : Option LinkD :=
  if f.sa = 0 ∧ f.sb = 0 ∧ f.sc = 0 ∧ f.ty = 0 then some ⟨gOf f.dst, f.imm⟩ else none

def Fields.readDA (f : Fields) : Option DA :=
  if f.sb = 0 ∧ f.sc = 0 ∧ f.ty = 0 ∧ f.imm = 0 then some ⟨gOf f.dst, gOf f.sa⟩ else none

def Fields.readDAB (f : Fields) : Option DAB :=
  if f.sc = 0 ∧ f.ty = 0 ∧ f.imm = 0 then some ⟨gOf f.dst, gOf f.sa, gOf f.sb⟩ else none

def Fields.readDABC (f : Fields) : Option DABC :=
  if f.ty = 0 ∧ f.imm = 0 then some ⟨gOf f.dst, gOf f.sa, gOf f.sb, gOf f.sc⟩ else none

def Fields.readAB (f : Fields) : Option AB :=
  if f.dst = 0 ∧ f.sc = 0 ∧ f.ty = 0 ∧ f.imm = 0 then some ⟨gOf f.sa, gOf f.sb⟩ else none

def Fields.readMcrA (f : Fields) : Option McrA := do
  let cr' ← cregOf f.sa
  if f.sb = 0 ∧ f.sc = 0 ∧ f.ty = 0 ∧ f.imm = 0 then some ⟨gOf f.dst, cr'⟩ else none

def Fields.readMtcA (f : Fields) : Option MtcA := do
  let cr' ← cregOf f.dst
  if f.sb = 0 ∧ f.sc = 0 ∧ f.ty = 0 ∧ f.imm = 0 then some ⟨cr', gOf f.sa⟩ else none

def Fields.readDisp (f : Fields) : Option (BitVec 48) :=
  if f.dst = 0 ∧ f.sa = 0 ∧ f.sb = 0 ∧ f.sc = 0 ∧ f.ty = 0 then some f.imm else none

def Fields.readA1 (f : Fields) : Option GReg :=
  if f.dst = 0 ∧ f.sb = 0 ∧ f.sc = 0 ∧ f.ty = 0 ∧ f.imm = 0 then some (gOf f.sa) else none

def Fields.readD1 (f : Fields) : Option GReg :=
  if f.sa = 0 ∧ f.sb = 0 ∧ f.sc = 0 ∧ f.ty = 0 ∧ f.imm = 0 then some (gOf f.dst) else none

def Fields.readB1 (f : Fields) : Option GReg :=
  if f.dst = 0 ∧ f.sa = 0 ∧ f.sc = 0 ∧ f.ty = 0 ∧ f.imm = 0 then some (gOf f.sb) else none

def Fields.readN8 (f : Fields) : Option (BitVec 8) :=
  if f.dst = 0 ∧ f.sa = 0 ∧ f.sb = 0 ∧ f.sc = 0 ∧ f.ty = 0 ∧ f.imm.extractLsb' 8 40 = 0 then
    some (f.imm.extractLsb' 0 8)
  else none

def Fields.readNul (f : Fields) : Option Unit :=
  if f.dst = 0 ∧ f.sa = 0 ∧ f.sb = 0 ∧ f.sc = 0 ∧ f.ty = 0 ∧ f.imm = 0 then some () else none

def Fields.readMemL (f : Fields) : Option MemL := do
  let ty' ← tyOf f.ty
  if f.sb = 0 ∧ f.sc = 0 then some ⟨ty', gOf f.dst, gOf f.sa, ⟨none, f.imm⟩, none⟩ else none

def Fields.readMemS (f : Fields) : Option MemS := do
  let ty' ← tyOf f.ty
  if f.dst = 0 ∧ f.sc = 0 then some ⟨ty', gOf f.sa, gOf f.sb, ⟨none, f.imm⟩, none⟩ else none

def Fields.readFenceA (f : Fields) : Option FenceA := do
  let kind' ← fenceOf (f.imm.extractLsb' 3 2).toNat
  let scope' ← scopeOf (f.imm.extractLsb' 0 3)
  if f.dst = 0 ∧ f.sa = 0 ∧ f.sb = 0 ∧ f.sc = 0 ∧ f.ty = 0 ∧ f.imm.extractLsb' 5 43 = 0 then
    some ⟨kind', scope'⟩
  else none

def Fields.readAtom (f : Fields) : Option Atom := do
  let ty' ← tyOf f.ty
  if f.sc = 0 then some ⟨ty', gOf f.dst, gOf f.sa, gOf f.sb, f.imm, none⟩ else none

def Fields.readAtom3 (f : Fields) : Option Atom3 := do
  let ty' ← tyOf f.ty
  some ⟨ty', gOf f.dst, gOf f.sa, gOf f.sb, gOf f.sc, f.imm, none⟩

def Fields.readWaitAA (f : Fields) : Option WaitAA := do
  let ty' ← tyOf f.ty
  if f.sc = 0 then some ⟨ty', gOf f.dst, gOf f.sa, gOf f.sb, f.imm⟩ else none

def Fields.readAImm (f : Fields) : Option AImm :=
  if f.dst = 0 ∧ f.sb = 0 ∧ f.sc = 0 ∧ f.ty = 0 then some ⟨gOf f.sa, f.imm⟩ else none

def Fields.readDAImm (f : Fields) : Option DAImm :=
  if f.sb = 0 ∧ f.sc = 0 ∧ f.ty = 0 then some ⟨gOf f.dst, gOf f.sa, f.imm⟩ else none

def Fields.readDABImm (f : Fields) : Option DABImm :=
  if f.sc = 0 ∧ f.ty = 0 then some ⟨gOf f.dst, gOf f.sa, gOf f.sb, f.imm⟩ else none

def Fields.readRedA (f : Fields) : Option RedA := do
  let op' ← redOf f.fn.toNat
  let ty' ← tyOf f.ty
  if f.dst = 0 ∧ f.sc = 0 then some ⟨op', ty', gOf f.sa, gOf f.sb, f.imm, none⟩ else none

def Fields.readVLdA (f : Fields) : Option VLdA := do
  let e ← mextOf f.imm
  let ty' ← tyOf f.ty
  let d' ← regOf 32 f.dst
  if f.sb = 0 ∧ f.sc = 0 then some ⟨ty', d', gOf f.sa, e.ofs, ⟨e.zm, e.mkr, none⟩, none⟩ else none

def Fields.readVStA (f : Fields) : Option VStA := do
  let e ← mextOf f.imm
  let ty' ← tyOf f.ty
  let s' ← regOf 32 f.sb
  if f.dst = 0 ∧ f.sc = 0 then some ⟨ty', gOf f.sa, s', e.ofs, ⟨e.zm, e.mkr, none⟩, none⟩ else none

def Fields.readVLdSA (f : Fields) : Option VLdSA := do
  let e ← mextOf f.imm
  let ty' ← tyOf f.ty
  let d' ← regOf 32 f.dst
  if f.sc = 0 then some ⟨ty', d', gOf f.sa, gOf f.sb, e.ofs, ⟨e.zm, e.mkr, none⟩, none⟩ else none

def Fields.readVStSA (f : Fields) : Option VStSA := do
  let e ← mextOf f.imm
  let ty' ← tyOf f.ty
  let s' ← regOf 32 f.sc
  if f.dst = 0 then some ⟨ty', gOf f.sa, gOf f.sb, s', e.ofs, ⟨e.zm, e.mkr, none⟩, none⟩ else none

def Fields.readVGatA (f : Fields) : Option VGatA := do
  let e ← mextOf f.imm
  let ty' ← tyOf f.ty
  let d' ← regOf 32 f.dst
  let x' ← regOf 32 f.sb
  if f.sc = 0 ∧ f.fn.extractLsb' 2 6 = 0 then
    some ⟨ty', d', gOf f.sa, x', (f.fn.extractLsb' 0 2).toFin, e.ofs, ⟨e.zm, e.mkr, none⟩, none⟩
  else none

def Fields.readVScaA (f : Fields) : Option VScaA := do
  let e ← mextOf f.imm
  let ty' ← tyOf f.ty
  let x' ← regOf 32 f.sb
  let s' ← regOf 32 f.sc
  if f.dst = 0 ∧ f.fn.extractLsb' 2 6 = 0 then
    some ⟨ty', gOf f.sa, x', s', (f.fn.extractLsb' 0 2).toFin, e.ofs, ⟨e.zm, e.mkr, none⟩, none⟩
  else none

def Fields.readVRedA (f : Fields) : Option VRedA := do
  let e ← mextOf f.imm
  let op' ← redOf (f.fn.extractLsb' 0 3).toNat
  let ty' ← tyOf f.ty
  let x' ← regOf 32 f.sb
  let s' ← regOf 32 f.sc
  if f.dst = 0 ∧ f.fn.extractLsb' 5 3 = 0 then
    some ⟨op', ty', gOf f.sa, x', s', (f.fn.extractLsb' 3 2).toFin, e.ofs, ⟨e.zm, e.mkr, none⟩, none⟩
  else none

def Fields.readLdtA (f : Fields) : Option LdtA := do
  let ty' ← tyOf f.ty
  if f.dst = 0 ∧ f.sc = 0 ∧ f.fn.extractLsb' 1 7 = 0 then
    some ⟨ty', f.fn.getLsbD 0, gOf f.sa, gOf f.sb, f.imm.extractLsb' 16 32, f.imm.extractLsb' 0 16, none⟩
  else none

def Fields.readVGatTA (f : Fields) : Option VGatTA := do
  let ty' ← tyOf f.ty
  let x' ← regOf 32 f.sb
  if f.dst = 0 ∧ f.fn.extractLsb' 3 5 = 0 ∧ f.imm.extractLsb' 3 5 = 0 then
    some ⟨ty', f.fn.getLsbD 2, (f.fn.extractLsb' 0 2).toFin, gOf f.sa, x', gOf f.sc, f.imm.extractLsb' 24 24,
      f.imm.extractLsb' 8 16, (f.imm.extractLsb' 0 3).toFin, none, none⟩
  else none

def Fields.readTakeA (f : Fields) : Option TakeA :=
  if f.sa = 0 ∧ f.sb = 0 ∧ f.ty = 0 ∧ f.imm.extractLsb' 3 45 = 0 then
    some ⟨gOf f.dst, gOf f.sc, (f.imm.extractLsb' 0 3).toFin⟩
  else none

def Fields.readVTakeA (f : Fields) : Option VTakeA := do
  let ty' ← tyOf f.ty
  let d' ← regOf 32 f.dst
  let t' ← regOf 32 f.sc
  if f.sa = 0 ∧ f.fn.extractLsb' 1 7 = 0 ∧ f.imm.extractLsb' 9 39 = 0 then
    some ⟨ty', f.fn.getLsbD 0, d', t', gOf f.sb, (f.imm.extractLsb' 4 5).toFin, ⟨f.imm.getLsbD 3,
      (f.imm.extractLsb' 0 3).toFin, none⟩⟩
  else none

def Fields.readTagA (f : Fields) : Option TagA :=
  if f.sb = 0 ∧ f.sc = 0 ∧ f.ty = 0 ∧ f.imm.extractLsb' 16 32 = 0 then
    some ⟨gOf f.dst, gOf f.sa, f.imm.extractLsb' 0 16⟩
  else none

def Fields.readTagFA (f : Fields) : Option TagFA :=
  if f.sc = 0 ∧ f.ty = 0 ∧ f.imm.extractLsb' 16 32 = 0 then
    some ⟨gOf f.dst, gOf f.sa, gOf f.sb, f.imm.extractLsb' 0 16⟩
  else none

def Fields.readPhRegA (f : Fields) : Option PhRegA := do
  let mode' ← phModeOf (f.imm.extractLsb' 0 2).toNat
  if f.sb = 0 ∧ f.sc = 0 ∧ f.ty = 0 ∧ f.imm.extractLsb' 2 46 = 0 then some ⟨gOf f.dst, gOf f.sa, mode'⟩ else none

def Fields.readWArrA (f : Fields) : Option WArrA :=
  if f.sa = 0 ∧ f.sb = 0 ∧ f.sc = 0 ∧ f.ty = 0 ∧ f.imm.extractLsb' 4 44 = 0 then
    some ⟨gOf f.dst, (f.imm.extractLsb' 0 4).toFin⟩
  else none

def Fields.readWWaitA (f : Fields) : Option WWaitA :=
  if f.sa = 0 ∧ f.sc = 0 ∧ f.ty = 0 ∧ f.imm.extractLsb' 4 44 = 0 then
    some ⟨gOf f.dst, gOf f.sb, (f.imm.extractLsb' 0 4).toFin⟩
  else none

def Fields.readSendA (f : Fields) : Option SendA :=
  if f.dst = 0 ∧ f.sc = 0 ∧ f.ty = 0 ∧ f.imm.extractLsb' 11 37 = 0 then
    some ⟨gOf f.sa, gOf f.sb, (f.imm.extractLsb' 8 3).toFin, f.imm.extractLsb' 0 8⟩
  else none

def Fields.readSendRA (f : Fields) : Option SendRA :=
  if f.dst = 0 ∧ f.ty = 0 ∧ f.imm.extractLsb' 11 21 = 0 then
    some ⟨gOf f.sa, gOf f.sb, gOf f.sc, (f.imm.extractLsb' 8 3).toFin, f.imm.extractLsb' 0 8, f.imm.extractLsb' 32 16⟩
  else none

def Fields.readSendTA (f : Fields) : Option SendTA :=
  if f.dst = 0 ∧ f.ty = 0 ∧ f.fn.extractLsb' 1 7 = 0 ∧ f.imm.extractLsb' 11 21 = 0 then
    some ⟨f.fn.getLsbD 0, gOf f.sa, gOf f.sb, gOf f.sc, (f.imm.extractLsb' 8 3).toFin, f.imm.extractLsb' 0 8,
      f.imm.extractLsb' 32 16⟩
  else none

def Fields.readHMsgA (f : Fields) : Option HMsgA :=
  if f.sc = 0 ∧ f.ty = 0 ∧ f.imm.extractLsb' 10 38 = 0 then
    some ⟨gOf f.dst, gOf f.sa, gOf f.sb, (f.imm.extractLsb' 8 2).toFin, f.imm.extractLsb' 0 8⟩
  else none

def Fields.readTagEA (f : Fields) : Option TagEA :=
  if f.dst = 0 ∧ f.sa = 0 ∧ f.sc = 0 ∧ f.ty = 0 ∧ f.imm.extractLsb' 8 40 = 0 then
    some ⟨gOf f.sb, f.imm.extractLsb' 0 8⟩
  else none

def Fields.readTagPA (f : Fields) : Option TagPA :=
  if f.sa = 0 ∧ f.sc = 0 ∧ f.ty = 0 ∧ f.imm.extractLsb' 8 40 = 0 then
    some ⟨gOf f.dst, gOf f.sb, f.imm.extractLsb' 0 8⟩
  else none

def Fields.readSpawnA (f : Fields) : Option SpawnA :=
  if f.dst = 0 ∧ f.ty = 0 ∧ f.imm.extractLsb' 3 13 = 0 then
    some ⟨gOf f.sa, gOf f.sb, gOf f.sc, f.imm.extractLsb' 16 32, (f.imm.extractLsb' 0 3).toFin⟩
  else none

def Fields.readFutRA (f : Fields) : Option FutRA :=
  if f.sb = 0 ∧ f.sc = 0 ∧ f.ty = 0 ∧ f.imm.extractLsb' 0 8 = 0 then
    some ⟨gOf f.dst, gOf f.sa, f.imm.extractLsb' 8 40⟩
  else none

def Fields.readFutRtA (f : Fields) : Option FutRtA :=
  if f.sb = 0 ∧ f.sc = 0 ∧ f.ty = 0 ∧ f.imm.extractLsb' 3 5 = 0 then
    some ⟨gOf f.dst, gOf f.sa, f.imm.extractLsb' 8 40, (f.imm.extractLsb' 0 3).toFin⟩
  else none

def Fields.readCopyA (f : Fields) : Option CopyA := do
  let v' ← regOf 32 f.sa
  if f.dst = 0 ∧ f.sc = 0 ∧ f.ty = 0 ∧ f.imm = 0 then some ⟨v', gOf f.sb, none⟩ else none

def Fields.readJxD (f : Fields) : Option JxD :=
  if f.dst = 0 ∧ f.sa = 0 ∧ f.sb = 0 ∧ f.sc = 0 ∧ f.ty = 0 then some ⟨f.imm, none⟩ else none

def Fields.readJxR (f : Fields) : Option JxR :=
  if f.dst = 0 ∧ f.sb = 0 ∧ f.sc = 0 ∧ f.ty = 0 ∧ f.imm = 0 then some ⟨gOf f.sa, none⟩ else none

def Fields.readCallxD (f : Fields) : Option CallxD :=
  if f.sa = 0 ∧ f.sb = 0 ∧ f.sc = 0 ∧ f.ty = 0 then some ⟨gOf f.dst, f.imm, none⟩ else none

def Fields.readCallxR (f : Fields) : Option CallxR :=
  if f.sb = 0 ∧ f.sc = 0 ∧ f.ty = 0 ∧ f.imm = 0 then some ⟨gOf f.dst, gOf f.sa, none⟩ else none

def Fields.readSopenA (f : Fields) : Option SopenA := do
  let scope' ← scopeOf (f.imm.extractLsb' 0 3)
  if f.sb = 0 ∧ f.sc = 0 ∧ f.ty = 0 ∧ f.imm.extractLsb' 3 45 = 0 then some ⟨gOf f.dst, gOf f.sa, scope'⟩ else none

def Fields.readQ1 (f : Fields) : Option QReg :=
  if f.dst = 0 ∧ f.sa = 0 ∧ f.sb = 0 ∧ f.sc = 0 ∧ f.ty = 0 ∧ f.imm.extractLsb' 3 45 = 0 then
    some (f.imm.extractLsb' 0 3).toFin
  else none

def Fields.readQBindA (f : Fields) : Option QBindA :=
  if f.dst = 0 ∧ f.sb = 0 ∧ f.sc = 0 ∧ f.ty = 0 ∧ f.imm.extractLsb' 3 45 = 0 then
    some ⟨gOf f.sa, (f.imm.extractLsb' 0 3).toFin⟩
  else none

def Fields.readQBindLA (f : Fields) : Option QBindLA :=
  if f.dst = 0 ∧ f.sa = 0 ∧ f.sb = 0 ∧ f.sc = 0 ∧ f.ty = 0 ∧ f.imm.extractLsb' 3 1 = 0 ∧
      f.imm.extractLsb' 9 39 = 0 then
    some ⟨(f.imm.extractLsb' 0 3).toFin, (f.imm.extractLsb' 4 4).toFin, f.imm.getLsbD 8⟩
  else none

def Fields.readQDA (f : Fields) : Option QDA :=
  if f.sa = 0 ∧ f.sb = 0 ∧ f.sc = 0 ∧ f.ty = 0 ∧ f.imm.extractLsb' 3 45 = 0 then
    some ⟨gOf f.dst, (f.imm.extractLsb' 0 3).toFin⟩
  else none

def Fields.readQSendA (f : Fields) : Option QSendA :=
  if f.dst = 0 ∧ f.sa = 0 ∧ f.sc = 0 ∧ f.ty = 0 ∧ f.imm.extractLsb' 3 45 = 0 then
    some ⟨gOf f.sb, (f.imm.extractLsb' 0 3).toFin⟩
  else none

def Fields.readQRecvA (f : Fields) : Option QRecvA :=
  if f.sa = 0 ∧ f.sb = 0 ∧ f.sc = 0 ∧ f.ty = 0 ∧ f.imm.extractLsb' 3 1 = 0 ∧ f.imm.extractLsb' 7 41 = 0 then
    some ⟨gOf f.dst, (f.imm.extractLsb' 0 3).toFin, (f.imm.extractLsb' 4 3).toFin⟩
  else none

def Fields.readVArS (f : Fields) : Option VArS := do
  let e ← vextOf f.imm
  let ty' ← tyOf f.ty
  let d' ← regOf 32 f.dst
  let a' ← regOf 32 f.sa
  let b' ← regOf 32 f.sb
  if f.sc = 0 ∧ f.fn.extractLsb' 1 7 = 0 ∧ e.vimm = 0 then
    some ⟨ty', f.fn.getLsbD 0, d', a', b', e.rnd, ⟨e.zm, e.mkr, none⟩⟩
  else none

def Fields.readVFmaA (f : Fields) : Option VFmaA := do
  let e ← vextOf f.imm
  let ty' ← tyOf f.ty
  let d' ← regOf 32 f.dst
  let a' ← regOf 32 f.sa
  let b' ← regOf 32 f.sb
  let c' ← regOf 32 f.sc
  if f.fn.extractLsb' 1 7 = 0 ∧ e.vimm = 0 then
    some ⟨ty', f.fn.getLsbD 0, d', a', b', c', e.rnd, ⟨e.zm, e.mkr, none⟩⟩
  else none

def Fields.readVBinR (f : Fields) : Option VBinR := do
  let e ← vextOf f.imm
  let ty' ← tyOf f.ty
  let d' ← regOf 32 f.dst
  let a' ← regOf 32 f.sa
  let b' ← regOf 32 f.sb
  if f.sc = 0 ∧ e.vimm = 0 then some ⟨ty', d', a', b', e.rnd, ⟨e.zm, e.mkr, none⟩⟩ else none

def Fields.readVUnR (f : Fields) : Option VUnR := do
  let e ← vextOf f.imm
  let ty' ← tyOf f.ty
  let d' ← regOf 32 f.dst
  let a' ← regOf 32 f.sa
  if f.sb = 0 ∧ f.sc = 0 ∧ e.vimm = 0 then some ⟨ty', d', a', e.rnd, ⟨e.zm, e.mkr, none⟩⟩ else none

def Fields.readVBin (f : Fields) : Option VBin := do
  let e ← vextOf f.imm
  let ty' ← tyOf f.ty
  let d' ← regOf 32 f.dst
  let a' ← regOf 32 f.sa
  let b' ← regOf 32 f.sb
  if f.sc = 0 ∧ e.vimm = 0 ∧ e.rnd = none then some ⟨ty', d', a', b', ⟨e.zm, e.mkr, none⟩⟩ else none

def Fields.readVUn (f : Fields) : Option VUn := do
  let e ← vextOf f.imm
  let ty' ← tyOf f.ty
  let d' ← regOf 32 f.dst
  let a' ← regOf 32 f.sa
  if f.sb = 0 ∧ f.sc = 0 ∧ e.vimm = 0 ∧ e.rnd = none then some ⟨ty', d', a', ⟨e.zm, e.mkr, none⟩⟩ else none

def Fields.readVUnS (f : Fields) : Option VUnS := do
  let e ← vextOf f.imm
  let ty' ← tyOf f.ty
  let d' ← regOf 32 f.dst
  let a' ← regOf 32 f.sa
  if f.sb = 0 ∧ f.sc = 0 ∧ f.fn.extractLsb' 1 7 = 0 ∧ e.vimm = 0 ∧ e.rnd = none then
    some ⟨ty', f.fn.getLsbD 0, d', a', ⟨e.zm, e.mkr, none⟩⟩
  else none

def Fields.readVShI (f : Fields) : Option VShI := do
  let e ← vextOf f.imm
  let ty' ← tyOf f.ty
  let d' ← regOf 32 f.dst
  let a' ← regOf 32 f.sa
  if f.sb = 0 ∧ f.sc = 0 ∧ e.vimm.extractLsb' 6 18 = 0 ∧ e.rnd = none then
    some ⟨ty', d', a', (e.vimm.extractLsb' 0 6).toFin, ⟨e.zm, e.mkr, none⟩⟩
  else none

def Fields.readVCmpA (f : Fields) : Option VCmpA := do
  let e ← vextOf f.imm
  let ty' ← tyOf f.ty
  let cond' ← condOf f.fn
  let d' ← regOf 8 f.dst
  let a' ← regOf 32 f.sa
  let b' ← regOf 32 f.sb
  if f.sc = 0 ∧ e.vimm = 0 ∧ e.rnd = none then some ⟨ty', cond', d', a', b', ⟨e.zm, e.mkr, none⟩⟩ else none

def Fields.readVBcA (f : Fields) : Option VBcA := do
  let e ← vextOf f.imm
  let ty' ← tyOf f.ty
  let d' ← regOf 32 f.dst
  if f.sb = 0 ∧ f.sc = 0 ∧ e.vimm = 0 ∧ e.rnd = none then some ⟨ty', d', gOf f.sa, ⟨e.zm, e.mkr, none⟩⟩ else none

def Fields.readVBcI (f : Fields) : Option VBcI := do
  let e ← vextOf f.imm
  let ty' ← tyOf f.ty
  let d' ← regOf 32 f.dst
  if f.sa = 0 ∧ f.sb = 0 ∧ f.sc = 0 ∧ e.rnd = none then some ⟨ty', d', e.vimm, ⟨e.zm, e.mkr, none⟩⟩ else none

def Fields.readVExtI (f : Fields) : Option VExtI := do
  let e ← vextOf f.imm
  let ty' ← tyOf f.ty
  let a' ← regOf 32 f.sa
  if f.sb = 0 ∧ f.sc = 0 ∧ e.vimm.extractLsb' 6 18 = 0 ∧ e.rnd = none ∧ e.zm = false then
    some ⟨ty', gOf f.dst, a', (e.vimm.extractLsb' 0 6).toFin, e.mkr, none⟩
  else none

def Fields.readVExtR (f : Fields) : Option VExtR := do
  let e ← vextOf f.imm
  let ty' ← tyOf f.ty
  let a' ← regOf 32 f.sa
  if f.sc = 0 ∧ e.vimm = 0 ∧ e.rnd = none ∧ e.zm = false then
    some ⟨ty', gOf f.dst, a', gOf f.sb, e.mkr, none⟩
  else none

def Fields.readVInsI (f : Fields) : Option VInsI := do
  let e ← vextOf f.imm
  let ty' ← tyOf f.ty
  let d' ← regOf 32 f.dst
  if f.sb = 0 ∧ f.sc = 0 ∧ e.vimm.extractLsb' 6 18 = 0 ∧ e.rnd = none ∧ e.zm = false then
    some ⟨ty', d', gOf f.sa, (e.vimm.extractLsb' 0 6).toFin, e.mkr, none⟩
  else none

def Fields.readVInsR (f : Fields) : Option VInsR := do
  let e ← vextOf f.imm
  let ty' ← tyOf f.ty
  let d' ← regOf 32 f.dst
  if f.sc = 0 ∧ e.vimm = 0 ∧ e.rnd = none ∧ e.zm = false then
    some ⟨ty', d', gOf f.sa, gOf f.sb, e.mkr, none⟩
  else none

def Fields.readVPermA (f : Fields) : Option VPermA := do
  let e ← vextOf f.imm
  let ty' ← tyOf f.ty
  let d' ← regOf 32 f.dst
  let a' ← regOf 32 f.sa
  let b' ← regOf 32 f.sb
  let c' ← regOf 32 f.sc
  if e.vimm = 0 ∧ e.rnd = none then some ⟨ty', d', a', b', c', ⟨e.zm, e.mkr, none⟩⟩ else none

def Fields.readVCompA (f : Fields) : Option VCompA := do
  let e ← vextOf f.imm
  let ty' ← tyOf f.ty
  let d' ← regOf 32 f.dst
  let a' ← regOf 32 f.sa
  if f.sb = 0 ∧ f.sc = 0 ∧ e.vimm = 0 ∧ e.rnd = none ∧ e.zm = false then some ⟨ty', d', a', e.mkr, none⟩ else none

def Fields.readVIotaA (f : Fields) : Option VIotaA := do
  let e ← vextOf f.imm
  let ty' ← tyOf f.ty
  let d' ← regOf 32 f.dst
  if f.sa = 0 ∧ f.sb = 0 ∧ f.sc = 0 ∧ e.vimm = 0 ∧ e.rnd = none then some ⟨ty', d', ⟨e.zm, e.mkr, none⟩⟩ else none

def Fields.readMBin (f : Fields) : Option MBin := do
  let d' ← regOf 8 f.dst
  let a' ← regOf 8 f.sa
  let b' ← regOf 8 f.sb
  if f.sc = 0 ∧ f.ty = 0 ∧ f.imm = 0 then some ⟨d', a', b'⟩ else none

def Fields.readMUn (f : Fields) : Option MUn := do
  let d' ← regOf 8 f.dst
  let a' ← regOf 8 f.sa
  if f.sb = 0 ∧ f.sc = 0 ∧ f.ty = 0 ∧ f.imm = 0 then some ⟨d', a'⟩ else none

def Fields.readMPopA (f : Fields) : Option MPopA := do
  let a' ← regOf 8 f.sa
  if f.sb = 0 ∧ f.sc = 0 ∧ f.ty = 0 ∧ f.imm = 0 then some ⟨gOf f.dst, a'⟩ else none

def Fields.readVCvtA (f : Fields) : Option VCvtA := do
  let e ← vextOf f.imm
  let dt' ← tyOf f.ty
  let st' ← tyOf (f.fn.extractLsb' 0 4)
  let d' ← regOf 32 f.dst
  let a' ← regOf 32 f.sa
  if f.sc = 0 ∧ f.fn.extractLsb' 5 3 = 0 ∧ e.vimm.extractLsb' 3 21 = 0 then
    some ⟨dt', st', f.fn.getLsbD 4, d', a', gOf f.sb, (e.vimm.extractLsb' 0 3).toFin, e.rnd, ⟨e.zm, e.mkr, none⟩⟩
  else none

def Fields.readVCvtoA (f : Fields) : Option VCvtoA := do
  let e ← vextOf f.imm
  let dt' ← tyOf f.ty
  let st' ← tyOf (f.fn.extractLsb' 0 4)
  let d' ← regOf 32 f.dst
  let a' ← regOf 32 f.sa
  if f.fn.extractLsb' 4 4 = 0 ∧ e.vimm.extractLsb' 3 21 = 0 then
    some ⟨dt', st', d', a', gOf f.sb, gOf f.sc, (e.vimm.extractLsb' 0 3).toFin, e.rnd, ⟨e.zm, e.mkr, none⟩⟩
  else none

def Fields.readVPruneA (f : Fields) : Option VPruneA := do
  let e ← vextOf f.imm
  let ty' ← tyOf f.ty
  let d' ← regOf 32 f.dst
  let m' ← regOf 32 f.sc
  let a' ← regOf 32 f.sa
  if f.sb = 0 ∧ e.vimm = 0 ∧ e.rnd = none ∧ e.zm = false then some ⟨ty', d', m', a', e.mkr, none⟩ else none

def Fields.readVRedSA (f : Fields) : Option VRedSA := do
  let e ← vextOf f.imm
  let ty' ← tyOf f.ty
  let a' ← regOf 32 f.sa
  if f.sb = 0 ∧ f.sc = 0 ∧ e.vimm = 0 ∧ e.zm = false then some ⟨ty', gOf f.dst, a', e.rnd, e.mkr, none⟩ else none

def Fields.readVRedMA (f : Fields) : Option VRedMA := do
  let e ← vextOf f.imm
  let ty' ← tyOf f.ty
  let a' ← regOf 32 f.sa
  if f.sb = 0 ∧ f.sc = 0 ∧ e.vimm = 0 ∧ e.rnd = none ∧ e.zm = false then
    some ⟨ty', gOf f.dst, a', e.mkr, none⟩
  else none

def Fields.readVTopA (f : Fields) : Option VTopA := do
  let e ← vextOf f.imm
  let ty' ← tyOf f.ty
  let d' ← regOf 32 f.dst
  let x' ← regOf 32 f.sc
  let a' ← regOf 32 f.sa
  let k1' ← succOf e.vimm
  if f.sb = 0 ∧ e.rnd = none ∧ e.zm = false then some ⟨ty', d', x', a', k1', e.mkr, none⟩ else none

def Fields.readVBskA (f : Fields) : Option VBskA := do
  let e ← vextOf f.imm
  let ty' ← tyOf f.ty
  let d' ← regOf 8 f.dst
  let a' ← regOf 32 f.sa
  let b' ← regOf 32 f.sb
  if e.vimm.extractLsb' 3 21 = 0 ∧ e.rnd = none then
    some ⟨ty', d', a', b', gOf f.sc, (e.vimm.extractLsb' 0 3).toFin, ⟨e.zm, e.mkr, none⟩⟩
  else none

def Fields.readVDotA (f : Fields) : Option VDotA := do
  let e ← vextOf f.imm
  let ty' ← tyOf f.ty
  let d' ← regOf 32 f.dst
  let a' ← regOf 32 f.sa
  let b' ← regOf 32 f.sb
  let c' ← regOf 32 f.sc
  if e.vimm = 0 then some ⟨ty', d', a', b', c', e.rnd, ⟨e.zm, e.mkr, none⟩⟩ else none

def Fields.readMmaA (f : Fields) : Option MmaA := do
  let ty' ← tyOf f.ty
  let acc' ← regOf 8 f.dst
  if f.sc = 0 ∧ f.imm.extractLsb' 0 27 = 0 then
    some ⟨ty', acc', gOf f.sa, gOf f.sb, (f.imm.extractLsb' 46 2).toFin, (f.imm.extractLsb' 41 5).toFin,
      f.imm.getLsbD 40, f.imm.getLsbD 39, (f.imm.extractLsb' 33 6).toFin, (f.imm.extractLsb' 27 6).toFin⟩
  else none

def Fields.readMmaSA (f : Fields) : Option MmaSA := do
  let ty' ← tyOf f.ty
  let acc' ← regOf 8 f.dst
  let m' ← regOf 32 f.sc
  if f.imm.extractLsb' 0 27 = 0 then
    some ⟨ty', acc', gOf f.sa, gOf f.sb, m', (f.imm.extractLsb' 46 2).toFin, (f.imm.extractLsb' 41 5).toFin,
      f.imm.getLsbD 40, f.imm.getLsbD 39, (f.imm.extractLsb' 33 6).toFin, (f.imm.extractLsb' 27 6).toFin⟩
  else none

def Fields.readAcc1 (f : Fields) : Option AReg := do
  let acc' ← regOf 8 f.dst
  if f.sa = 0 ∧ f.sb = 0 ∧ f.sc = 0 ∧ f.ty = 0 ∧ f.imm = 0 then some acc' else none

def Fields.readV1 (f : Fields) : Option VReg := do
  let v' ← regOf 32 f.sa
  if f.dst = 0 ∧ f.sb = 0 ∧ f.sc = 0 ∧ f.ty = 0 ∧ f.imm = 0 then some v' else none

def Fields.readMldA (f : Fields) : Option MldA := do
  let acc' ← regOf 8 f.dst
  if f.sb = 0 ∧ f.sc = 0 ∧ f.ty = 0 then some ⟨acc', gOf f.sa, f.imm⟩ else none

def Fields.readMstA (f : Fields) : Option MldA := do
  let acc' ← regOf 8 f.sb
  if f.dst = 0 ∧ f.sc = 0 ∧ f.ty = 0 then some ⟨acc', gOf f.sa, f.imm⟩ else none

def Fields.readMmvV (f : Fields) : Option MmvV := do
  let d' ← regOf 32 f.dst
  let acc' ← regOf 8 f.sa
  if f.sb = 0 ∧ f.sc = 0 ∧ f.ty = 0 ∧ f.imm.extractLsb' 4 44 = 0 then
    some ⟨d', acc', (f.imm.extractLsb' 0 4).toFin⟩
  else none

def Fields.readMmvA (f : Fields) : Option MmvA := do
  let acc' ← regOf 8 f.dst
  let a' ← regOf 32 f.sa
  if f.sb = 0 ∧ f.sc = 0 ∧ f.ty = 0 ∧ f.imm.extractLsb' 4 44 = 0 then
    some ⟨acc', a', (f.imm.extractLsb' 0 4).toFin⟩
  else none

def Fields.readTrrecA (f : Fields) : Option TrrecA :=
  if f.dst = 0 ∧ f.sa = 0 ∧ f.sb = 0 ∧ f.sc = 0 ∧ f.ty = 0 ∧ f.imm.extractLsb' 5 3 = 0 then
    some ⟨(f.imm.extractLsb' 0 5).toFin, (f.imm.extractLsb' 8 5).toFin, (f.imm.extractLsb' 13 3).toFin,
      f.imm.extractLsb' 16 32⟩
  else none

def Fields.readElogA (f : Fields) : Option ElogA := do
  let v' ← regOf 32 f.dst
  if f.sb = 0 ∧ f.sc = 0 ∧ f.ty = 0 ∧ f.imm = 0 then some ⟨v', gOf f.sa⟩ else none

def Fields.readHostsigA (f : Fields) : Option HostsigA :=
  if f.sb = 0 ∧ f.sc = 0 ∧ f.ty = 0 ∧ f.imm.extractLsb' 8 40 = 0 then
    some ⟨gOf f.dst, gOf f.sa, f.imm.extractLsb' 0 8⟩
  else none

/-! ## Writing a form's operands -/

def writeAluS (op : BitVec 8) (x : AluS) : Fields :=
  { op := op, dst := BitVec.ofFin x.d, sa := BitVec.ofFin x.a, sb := BitVec.ofFin x.b, sc := 0,
    fn := BitVec.ofNat 8 (put 0 (BitVec.ofBool x.sat)), ty := x.ty.code, imm := 0 }

def writeAlu (op fn : BitVec 8) (x : Alu) : Fields :=
  { op := op, dst := BitVec.ofFin x.d, sa := BitVec.ofFin x.a, sb := BitVec.ofFin x.b, sc := 0, fn := fn,
    ty := x.ty.code, imm := 0 }

def writeCmpR (op : BitVec 8) (x : CmpR) : Fields :=
  { op := op, dst := BitVec.ofNat 6 x.p.val, sa := BitVec.ofFin x.a, sb := BitVec.ofFin x.b, sc := 0,
    fn := x.cond.code, ty := x.ty.code, imm := 0 }

def writeAluI (op fn : BitVec 8) (x : AluI) : Fields :=
  { op := op, dst := BitVec.ofFin x.d, sa := BitVec.ofFin x.a, sb := 0, sc := 0, fn := fn, ty := x.ty.code,
    imm := x.imm.lo }

def writeShI (op fn : BitVec 8) (x : ShI) : Fields :=
  { op := op, dst := BitVec.ofFin x.d, sa := BitVec.ofFin x.a, sb := 0, sc := 0, fn := fn, ty := x.ty.code,
    imm := BitVec.ofNat 48 (put 0 (BitVec.ofFin x.s : BitVec 6)) }

def writeCmpI (op : BitVec 8) (x : CmpI) : Fields :=
  { op := op, dst := BitVec.ofNat 6 x.p.val, sa := BitVec.ofFin x.a, sb := 0, sc := 0, fn := x.cond.code,
    ty := x.ty.code, imm := x.imm.lo }

def writeMovI (op fn : BitVec 8) (x : MovI) : Fields :=
  { op := op, dst := BitVec.ofFin x.d, sa := 0, sb := 0, sc := 0, fn := fn, ty := x.ty.code, imm := x.imm.lo }

def writeLeaA (op : BitVec 8) (x : LeaA) : Fields :=
  { op := op, dst := BitVec.ofFin x.d, sa := BitVec.ofFin x.a, sb := BitVec.ofFin x.b, sc := 0,
    fn := BitVec.ofNat 8 (put 0 (BitVec.ofFin x.sc : BitVec 2)), ty := 0, imm := x.imm.lo }

def writeSelA (op fn : BitVec 8) (x : SelA) : Fields :=
  { op := op, dst := BitVec.ofFin x.d, sa := BitVec.ofFin x.a, sb := BitVec.ofFin x.b,
    sc := BitVec.ofNat 6 x.c.val, fn := fn, ty := 0, imm := 0 }

def writeUn (op fn : BitVec 8) (x : Un) : Fields :=
  { op := op, dst := BitVec.ofFin x.d, sa := BitVec.ofFin x.a, sb := 0, sc := 0, fn := fn, ty := x.ty.code,
    imm := 0 }

def writeLinkD (op fn : BitVec 8) (x : LinkD) : Fields :=
  { op := op, dst := BitVec.ofFin x.d, sa := 0, sb := 0, sc := 0, fn := fn, ty := 0, imm := x.disp }

def writeDA (op fn : BitVec 8) (x : DA) : Fields :=
  { op := op, dst := BitVec.ofFin x.d, sa := BitVec.ofFin x.a, sb := 0, sc := 0, fn := fn, ty := 0, imm := 0 }

def writeDAB (op fn : BitVec 8) (x : DAB) : Fields :=
  { op := op, dst := BitVec.ofFin x.d, sa := BitVec.ofFin x.a, sb := BitVec.ofFin x.b, sc := 0, fn := fn, ty := 0,
    imm := 0 }

def writeDABC (op fn : BitVec 8) (x : DABC) : Fields :=
  { op := op, dst := BitVec.ofFin x.d, sa := BitVec.ofFin x.a, sb := BitVec.ofFin x.b, sc := BitVec.ofFin x.c,
    fn := fn, ty := 0, imm := 0 }

def writeAB (op fn : BitVec 8) (x : AB) : Fields :=
  { op := op, dst := 0, sa := BitVec.ofFin x.a, sb := BitVec.ofFin x.b, sc := 0, fn := fn, ty := 0, imm := 0 }

def writeMcrA (op fn : BitVec 8) (x : McrA) : Fields :=
  { op := op, dst := BitVec.ofFin x.d, sa := x.cr.code, sb := 0, sc := 0, fn := fn, ty := 0, imm := 0 }

def writeMtcA (op fn : BitVec 8) (x : MtcA) : Fields :=
  { op := op, dst := x.cr.code, sa := BitVec.ofFin x.a, sb := 0, sc := 0, fn := fn, ty := 0, imm := 0 }

def writeDisp (op fn : BitVec 8) (x : BitVec 48) : Fields :=
  { op := op, dst := 0, sa := 0, sb := 0, sc := 0, fn := fn, ty := 0, imm := x }

def writeA1 (op fn : BitVec 8) (x : GReg) : Fields :=
  { op := op, dst := 0, sa := BitVec.ofFin x, sb := 0, sc := 0, fn := fn, ty := 0, imm := 0 }

def writeD1 (op fn : BitVec 8) (x : GReg) : Fields :=
  { op := op, dst := BitVec.ofFin x, sa := 0, sb := 0, sc := 0, fn := fn, ty := 0, imm := 0 }

def writeB1 (op fn : BitVec 8) (x : GReg) : Fields :=
  { op := op, dst := 0, sa := 0, sb := BitVec.ofFin x, sc := 0, fn := fn, ty := 0, imm := 0 }

def writeN8 (op fn : BitVec 8) (x : BitVec 8) : Fields :=
  { op := op, dst := 0, sa := 0, sb := 0, sc := 0, fn := fn, ty := 0, imm := BitVec.ofNat 48 (put 0 x) }

def writeNul (op fn : BitVec 8) : Fields :=
  { op := op, dst := 0, sa := 0, sb := 0, sc := 0, fn := fn, ty := 0, imm := 0 }

def writeMemL (op fn : BitVec 8) (x : MemL) : Fields :=
  { op := op, dst := BitVec.ofFin x.d, sa := BitVec.ofFin x.a, sb := 0, sc := 0, fn := fn, ty := x.ty.code,
    imm := x.imm.lo }

def writeMemS (op fn : BitVec 8) (x : MemS) : Fields :=
  { op := op, dst := 0, sa := BitVec.ofFin x.a, sb := BitVec.ofFin x.b, sc := 0, fn := fn, ty := x.ty.code,
    imm := x.imm.lo }

def writeFenceA (op fn : BitVec 8) (x : FenceA) : Fields :=
  { op := op, dst := 0, sa := 0, sb := 0, sc := 0, fn := fn, ty := 0,
    imm := BitVec.ofNat 48 (put 3 (BitVec.ofNat 2 x.kind.num) + put 0 x.scope.code) }

def writeAtom (op fn : BitVec 8) (x : Atom) : Fields :=
  { op := op, dst := BitVec.ofFin x.d, sa := BitVec.ofFin x.a, sb := BitVec.ofFin x.b, sc := 0, fn := fn,
    ty := x.ty.code, imm := x.imm }

def writeAtom3 (op fn : BitVec 8) (x : Atom3) : Fields :=
  { op := op, dst := BitVec.ofFin x.d, sa := BitVec.ofFin x.a, sb := BitVec.ofFin x.b, sc := BitVec.ofFin x.c,
    fn := fn, ty := x.ty.code, imm := x.imm }

def writeWaitAA (op fn : BitVec 8) (x : WaitAA) : Fields :=
  { op := op, dst := BitVec.ofFin x.d, sa := BitVec.ofFin x.a, sb := BitVec.ofFin x.b, sc := 0, fn := fn,
    ty := x.ty.code, imm := x.imm }

def writeAImm (op fn : BitVec 8) (x : AImm) : Fields :=
  { op := op, dst := 0, sa := BitVec.ofFin x.a, sb := 0, sc := 0, fn := fn, ty := 0, imm := x.imm }

def writeDAImm (op fn : BitVec 8) (x : DAImm) : Fields :=
  { op := op, dst := BitVec.ofFin x.d, sa := BitVec.ofFin x.a, sb := 0, sc := 0, fn := fn, ty := 0, imm := x.imm }

def writeDABImm (op fn : BitVec 8) (x : DABImm) : Fields :=
  { op := op, dst := BitVec.ofFin x.d, sa := BitVec.ofFin x.a, sb := BitVec.ofFin x.b, sc := 0, fn := fn, ty := 0,
    imm := x.imm }

def writeRedA (op : BitVec 8) (x : RedA) : Fields :=
  { op := op, dst := 0, sa := BitVec.ofFin x.a, sb := BitVec.ofFin x.b, sc := 0, fn := (BitVec.ofNat 8 x.op.num),
    ty := x.ty.code, imm := x.imm }

def writeVLdA (op fn : BitVec 8) (x : VLdA) : Fields :=
  { op := op, dst := BitVec.ofNat 6 x.d.val, sa := BitVec.ofFin x.a, sb := 0, sc := 0, fn := fn, ty := x.ty.code,
    imm := MExt.imm ⟨x.ofs, x.sel.zm, x.sel.mkr⟩ }

def writeVStA (op fn : BitVec 8) (x : VStA) : Fields :=
  { op := op, dst := 0, sa := BitVec.ofFin x.a, sb := BitVec.ofNat 6 x.s.val, sc := 0, fn := fn, ty := x.ty.code,
    imm := MExt.imm ⟨x.ofs, x.sel.zm, x.sel.mkr⟩ }

def writeVLdSA (op fn : BitVec 8) (x : VLdSA) : Fields :=
  { op := op, dst := BitVec.ofNat 6 x.d.val, sa := BitVec.ofFin x.a, sb := BitVec.ofFin x.b, sc := 0, fn := fn,
    ty := x.ty.code, imm := MExt.imm ⟨x.ofs, x.sel.zm, x.sel.mkr⟩ }

def writeVStSA (op fn : BitVec 8) (x : VStSA) : Fields :=
  { op := op, dst := 0, sa := BitVec.ofFin x.a, sb := BitVec.ofFin x.b, sc := BitVec.ofNat 6 x.s.val, fn := fn,
    ty := x.ty.code, imm := MExt.imm ⟨x.ofs, x.sel.zm, x.sel.mkr⟩ }

def writeVGatA (op : BitVec 8) (x : VGatA) : Fields :=
  { op := op, dst := BitVec.ofNat 6 x.d.val, sa := BitVec.ofFin x.a, sb := BitVec.ofNat 6 x.x.val, sc := 0,
    fn := BitVec.ofNat 8 (put 0 (BitVec.ofFin x.scale : BitVec 2)), ty := x.ty.code,
    imm := MExt.imm ⟨x.ofs, x.sel.zm, x.sel.mkr⟩ }

def writeVScaA (op : BitVec 8) (x : VScaA) : Fields :=
  { op := op, dst := 0, sa := BitVec.ofFin x.a, sb := BitVec.ofNat 6 x.x.val, sc := BitVec.ofNat 6 x.s.val,
    fn := BitVec.ofNat 8 (put 0 (BitVec.ofFin x.scale : BitVec 2)), ty := x.ty.code,
    imm := MExt.imm ⟨x.ofs, x.sel.zm, x.sel.mkr⟩ }

def writeVRedA (op : BitVec 8) (x : VRedA) : Fields :=
  { op := op, dst := 0, sa := BitVec.ofFin x.a, sb := BitVec.ofNat 6 x.x.val, sc := BitVec.ofNat 6 x.s.val,
    fn := BitVec.ofNat 8 (put 0 (BitVec.ofNat 3 x.op.num) + put 3 (BitVec.ofFin x.scale : BitVec 2)),
    ty := x.ty.code, imm := MExt.imm ⟨x.ofs, x.sel.zm, x.sel.mkr⟩ }

def writeLdtA (op : BitVec 8) (x : LdtA) : Fields :=
  { op := op, dst := 0, sa := BitVec.ofFin x.a, sb := BitVec.ofFin x.tr, sc := 0,
    fn := BitVec.ofNat 8 (put 0 (BitVec.ofBool x.acq)), ty := x.ty.code,
    imm := BitVec.ofNat 48 (put 16 x.ofs + put 0 x.ti) }

def writeVGatTA (op : BitVec 8) (x : VGatTA) : Fields :=
  { op := op, dst := 0, sa := BitVec.ofFin x.a, sb := BitVec.ofNat 6 x.x.val, sc := BitVec.ofFin x.tr,
    fn := BitVec.ofNat 8 (put 2 (BitVec.ofBool x.acq) + put 0 (BitVec.ofFin x.scale : BitVec 2)), ty := x.ty.code,
    imm := BitVec.ofNat 48 (put 24 x.ofs + put 8 x.ti + put 0 (BitVec.ofFin x.mkr : BitVec 3)) }

def writeTakeA (op fn : BitVec 8) (x : TakeA) : Fields :=
  { op := op, dst := BitVec.ofFin x.d, sa := 0, sb := 0, sc := BitVec.ofFin x.t, fn := fn, ty := 0,
    imm := BitVec.ofNat 48 (put 0 (BitVec.ofFin x.p : BitVec 3)) }

def writeVTakeA (op : BitVec 8) (x : VTakeA) : Fields :=
  { op := op, dst := BitVec.ofNat 6 x.d.val, sa := 0, sb := BitVec.ofFin x.c, sc := BitVec.ofNat 6 x.t.val,
    fn := BitVec.ofNat 8 (put 0 (BitVec.ofBool x.nb)), ty := x.ty.code,
    imm := BitVec.ofNat 48 (put 4 (BitVec.ofFin x.n1 : BitVec 5) + put 3 (BitVec.ofBool x.sel.zm) + put 0 (BitVec.ofFin x.sel.mkr : BitVec 3)) }

def writeTagA (op fn : BitVec 8) (x : TagA) : Fields :=
  { op := op, dst := BitVec.ofFin x.d, sa := BitVec.ofFin x.tr, sb := 0, sc := 0, fn := fn, ty := 0,
    imm := BitVec.ofNat 48 (put 0 x.ti) }

def writeTagFA (op fn : BitVec 8) (x : TagFA) : Fields :=
  { op := op, dst := BitVec.ofFin x.d, sa := BitVec.ofFin x.tr, sb := BitVec.ofFin x.b, sc := 0, fn := fn, ty := 0,
    imm := BitVec.ofNat 48 (put 0 x.ti) }

def writePhRegA (op fn : BitVec 8) (x : PhRegA) : Fields :=
  { op := op, dst := BitVec.ofFin x.d, sa := BitVec.ofFin x.a, sb := 0, sc := 0, fn := fn, ty := 0,
    imm := BitVec.ofNat 48 (put 0 (BitVec.ofNat 2 x.mode.num)) }

def writeWArrA (op fn : BitVec 8) (x : WArrA) : Fields :=
  { op := op, dst := BitVec.ofFin x.d, sa := 0, sb := 0, sc := 0, fn := fn, ty := 0,
    imm := BitVec.ofNat 48 (put 0 (BitVec.ofFin x.w : BitVec 4)) }

def writeWWaitA (op fn : BitVec 8) (x : WWaitA) : Fields :=
  { op := op, dst := BitVec.ofFin x.d, sa := 0, sb := BitVec.ofFin x.b, sc := 0, fn := fn, ty := 0,
    imm := BitVec.ofNat 48 (put 0 (BitVec.ofFin x.w : BitVec 4)) }

def writeSendA (op fn : BitVec 8) (x : SendA) : Fields :=
  { op := op, dst := 0, sa := BitVec.ofFin x.a, sb := BitVec.ofFin x.b, sc := 0, fn := fn, ty := 0,
    imm := BitVec.ofNat 48 (put 8 (BitVec.ofFin x.n : BitVec 3) + put 0 x.tag) }

def writeSendRA (op fn : BitVec 8) (x : SendRA) : Fields :=
  { op := op, dst := 0, sa := BitVec.ofFin x.a, sb := BitVec.ofFin x.b, sc := BitVec.ofFin x.c, fn := fn, ty := 0,
    imm := BitVec.ofNat 48 (put 8 (BitVec.ofFin x.n : BitVec 3) + put 0 x.tag + put 32 x.ltag) }

def writeSendTA (op : BitVec 8) (x : SendTA) : Fields :=
  { op := op, dst := 0, sa := BitVec.ofFin x.a, sb := BitVec.ofFin x.b, sc := BitVec.ofFin x.c,
    fn := BitVec.ofNat 8 (put 0 (BitVec.ofBool x.rq)), ty := 0,
    imm := BitVec.ofNat 48 (put 8 (BitVec.ofFin x.n : BitVec 3) + put 0 x.tag + put 32 x.ltag) }

def writeHMsgA (op fn : BitVec 8) (x : HMsgA) : Fields :=
  { op := op, dst := BitVec.ofFin x.d, sa := BitVec.ofFin x.a, sb := BitVec.ofFin x.b, sc := 0, fn := fn, ty := 0,
    imm := BitVec.ofNat 48 (put 8 (BitVec.ofFin x.prio : BitVec 2) + put 0 x.tag) }

def writeTagEA (op fn : BitVec 8) (x : TagEA) : Fields :=
  { op := op, dst := 0, sa := 0, sb := BitVec.ofFin x.b, sc := 0, fn := fn, ty := 0,
    imm := BitVec.ofNat 48 (put 0 x.tag) }

def writeTagPA (op fn : BitVec 8) (x : TagPA) : Fields :=
  { op := op, dst := BitVec.ofFin x.d, sa := 0, sb := BitVec.ofFin x.b, sc := 0, fn := fn, ty := 0,
    imm := BitVec.ofNat 48 (put 0 x.tag) }

def writeSpawnA (op fn : BitVec 8) (x : SpawnA) : Fields :=
  { op := op, dst := 0, sa := BitVec.ofFin x.a, sb := BitVec.ofFin x.b, sc := BitVec.ofFin x.c, fn := fn, ty := 0,
    imm := BitVec.ofNat 48 (put 16 x.count + put 0 (BitVec.ofFin x.n : BitVec 3)) }

def writeFutRA (op fn : BitVec 8) (x : FutRA) : Fields :=
  { op := op, dst := BitVec.ofFin x.d, sa := BitVec.ofFin x.a, sb := 0, sc := 0, fn := fn, ty := 0,
    imm := BitVec.ofNat 48 (put 8 x.ofs) }

def writeFutRtA (op fn : BitVec 8) (x : FutRtA) : Fields :=
  { op := op, dst := BitVec.ofFin x.d, sa := BitVec.ofFin x.a, sb := 0, sc := 0, fn := fn, ty := 0,
    imm := BitVec.ofNat 48 (put 8 x.ofs + put 0 (BitVec.ofFin x.p : BitVec 3)) }

def writeCopyA (op fn : BitVec 8) (x : CopyA) : Fields :=
  { op := op, dst := 0, sa := BitVec.ofNat 6 x.v.val, sb := BitVec.ofFin x.b, sc := 0, fn := fn, ty := 0, imm := 0 }

def writeJxD (op fn : BitVec 8) (x : JxD) : Fields :=
  { op := op, dst := 0, sa := 0, sb := 0, sc := 0, fn := fn, ty := 0, imm := x.disp }

def writeJxR (op fn : BitVec 8) (x : JxR) : Fields :=
  { op := op, dst := 0, sa := BitVec.ofFin x.a, sb := 0, sc := 0, fn := fn, ty := 0, imm := 0 }

def writeCallxD (op fn : BitVec 8) (x : CallxD) : Fields :=
  { op := op, dst := BitVec.ofFin x.d, sa := 0, sb := 0, sc := 0, fn := fn, ty := 0, imm := x.disp }

def writeCallxR (op fn : BitVec 8) (x : CallxR) : Fields :=
  { op := op, dst := BitVec.ofFin x.d, sa := BitVec.ofFin x.a, sb := 0, sc := 0, fn := fn, ty := 0, imm := 0 }

def writeSopenA (op fn : BitVec 8) (x : SopenA) : Fields :=
  { op := op, dst := BitVec.ofFin x.d, sa := BitVec.ofFin x.a, sb := 0, sc := 0, fn := fn, ty := 0,
    imm := BitVec.ofNat 48 (put 0 x.scope.code) }

def writeQ1 (op fn : BitVec 8) (x : QReg) : Fields :=
  { op := op, dst := 0, sa := 0, sb := 0, sc := 0, fn := fn, ty := 0,
    imm := BitVec.ofNat 48 (put 0 (BitVec.ofFin x : BitVec 3)) }

def writeQBindA (op fn : BitVec 8) (x : QBindA) : Fields :=
  { op := op, dst := 0, sa := BitVec.ofFin x.a, sb := 0, sc := 0, fn := fn, ty := 0,
    imm := BitVec.ofNat 48 (put 0 (BitVec.ofFin x.q : BitVec 3)) }

def writeQBindLA (op fn : BitVec 8) (x : QBindLA) : Fields :=
  { op := op, dst := 0, sa := 0, sb := 0, sc := 0, fn := fn, ty := 0,
    imm := BitVec.ofNat 48 (put 0 (BitVec.ofFin x.q : BitVec 3) + put 4 (BitVec.ofFin x.lq : BitVec 4) + put 8 (BitVec.ofBool x.recv)) }

def writeQDA (op fn : BitVec 8) (x : QDA) : Fields :=
  { op := op, dst := BitVec.ofFin x.d, sa := 0, sb := 0, sc := 0, fn := fn, ty := 0,
    imm := BitVec.ofNat 48 (put 0 (BitVec.ofFin x.q : BitVec 3)) }

def writeQSendA (op fn : BitVec 8) (x : QSendA) : Fields :=
  { op := op, dst := 0, sa := 0, sb := BitVec.ofFin x.b, sc := 0, fn := fn, ty := 0,
    imm := BitVec.ofNat 48 (put 0 (BitVec.ofFin x.q : BitVec 3)) }

def writeQRecvA (op fn : BitVec 8) (x : QRecvA) : Fields :=
  { op := op, dst := BitVec.ofFin x.d, sa := 0, sb := 0, sc := 0, fn := fn, ty := 0,
    imm := BitVec.ofNat 48 (put 0 (BitVec.ofFin x.q : BitVec 3) + put 4 (BitVec.ofFin x.p : BitVec 3)) }

def writeVArS (op : BitVec 8) (x : VArS) : Fields :=
  { op := op, dst := BitVec.ofNat 6 x.d.val, sa := BitVec.ofNat 6 x.a.val, sb := BitVec.ofNat 6 x.b.val, sc := 0,
    fn := BitVec.ofNat 8 (put 0 (BitVec.ofBool x.sat)), ty := x.ty.code,
    imm := VExt.imm ⟨0, x.rnd, x.sel.zm, x.sel.mkr⟩ }

def writeVFmaA (op : BitVec 8) (x : VFmaA) : Fields :=
  { op := op, dst := BitVec.ofNat 6 x.d.val, sa := BitVec.ofNat 6 x.a.val, sb := BitVec.ofNat 6 x.b.val,
    sc := BitVec.ofNat 6 x.c.val, fn := BitVec.ofNat 8 (put 0 (BitVec.ofBool x.ns)), ty := x.ty.code,
    imm := VExt.imm ⟨0, x.rnd, x.sel.zm, x.sel.mkr⟩ }

def writeVBinR (op fn : BitVec 8) (x : VBinR) : Fields :=
  { op := op, dst := BitVec.ofNat 6 x.d.val, sa := BitVec.ofNat 6 x.a.val, sb := BitVec.ofNat 6 x.b.val, sc := 0,
    fn := fn, ty := x.ty.code, imm := VExt.imm ⟨0, x.rnd, x.sel.zm, x.sel.mkr⟩ }

def writeVUnR (op fn : BitVec 8) (x : VUnR) : Fields :=
  { op := op, dst := BitVec.ofNat 6 x.d.val, sa := BitVec.ofNat 6 x.a.val, sb := 0, sc := 0, fn := fn,
    ty := x.ty.code, imm := VExt.imm ⟨0, x.rnd, x.sel.zm, x.sel.mkr⟩ }

def writeVBin (op fn : BitVec 8) (x : VBin) : Fields :=
  { op := op, dst := BitVec.ofNat 6 x.d.val, sa := BitVec.ofNat 6 x.a.val, sb := BitVec.ofNat 6 x.b.val, sc := 0,
    fn := fn, ty := x.ty.code, imm := VExt.imm ⟨0, none, x.sel.zm, x.sel.mkr⟩ }

def writeVUn (op fn : BitVec 8) (x : VUn) : Fields :=
  { op := op, dst := BitVec.ofNat 6 x.d.val, sa := BitVec.ofNat 6 x.a.val, sb := 0, sc := 0, fn := fn,
    ty := x.ty.code, imm := VExt.imm ⟨0, none, x.sel.zm, x.sel.mkr⟩ }

def writeVUnS (op : BitVec 8) (x : VUnS) : Fields :=
  { op := op, dst := BitVec.ofNat 6 x.d.val, sa := BitVec.ofNat 6 x.a.val, sb := 0, sc := 0,
    fn := BitVec.ofNat 8 (put 0 (BitVec.ofBool x.sat)), ty := x.ty.code,
    imm := VExt.imm ⟨0, none, x.sel.zm, x.sel.mkr⟩ }

def writeVShI (op fn : BitVec 8) (x : VShI) : Fields :=
  { op := op, dst := BitVec.ofNat 6 x.d.val, sa := BitVec.ofNat 6 x.a.val, sb := 0, sc := 0, fn := fn,
    ty := x.ty.code,
    imm := VExt.imm ⟨BitVec.ofNat 24 (put 0 (BitVec.ofFin x.s : BitVec 6)), none, x.sel.zm, x.sel.mkr⟩ }

def writeVCmpA (op : BitVec 8) (x : VCmpA) : Fields :=
  { op := op, dst := BitVec.ofNat 6 x.d.val, sa := BitVec.ofNat 6 x.a.val, sb := BitVec.ofNat 6 x.b.val, sc := 0,
    fn := x.cond.code, ty := x.ty.code, imm := VExt.imm ⟨0, none, x.sel.zm, x.sel.mkr⟩ }

def writeVBcA (op fn : BitVec 8) (x : VBcA) : Fields :=
  { op := op, dst := BitVec.ofNat 6 x.d.val, sa := BitVec.ofFin x.a, sb := 0, sc := 0, fn := fn, ty := x.ty.code,
    imm := VExt.imm ⟨0, none, x.sel.zm, x.sel.mkr⟩ }

def writeVBcI (op fn : BitVec 8) (x : VBcI) : Fields :=
  { op := op, dst := BitVec.ofNat 6 x.d.val, sa := 0, sb := 0, sc := 0, fn := fn, ty := x.ty.code,
    imm := VExt.imm ⟨x.imm, none, x.sel.zm, x.sel.mkr⟩ }

def writeVExtI (op fn : BitVec 8) (x : VExtI) : Fields :=
  { op := op, dst := BitVec.ofFin x.d, sa := BitVec.ofNat 6 x.a.val, sb := 0, sc := 0, fn := fn, ty := x.ty.code,
    imm := VExt.imm ⟨BitVec.ofNat 24 (put 0 (BitVec.ofFin x.idx : BitVec 6)), none, false, x.mkr⟩ }

def writeVExtR (op fn : BitVec 8) (x : VExtR) : Fields :=
  { op := op, dst := BitVec.ofFin x.d, sa := BitVec.ofNat 6 x.a.val, sb := BitVec.ofFin x.b, sc := 0, fn := fn,
    ty := x.ty.code, imm := VExt.imm ⟨0, none, false, x.mkr⟩ }

def writeVInsI (op fn : BitVec 8) (x : VInsI) : Fields :=
  { op := op, dst := BitVec.ofNat 6 x.d.val, sa := BitVec.ofFin x.a, sb := 0, sc := 0, fn := fn, ty := x.ty.code,
    imm := VExt.imm ⟨BitVec.ofNat 24 (put 0 (BitVec.ofFin x.idx : BitVec 6)), none, false, x.mkr⟩ }

def writeVInsR (op fn : BitVec 8) (x : VInsR) : Fields :=
  { op := op, dst := BitVec.ofNat 6 x.d.val, sa := BitVec.ofFin x.a, sb := BitVec.ofFin x.b, sc := 0, fn := fn,
    ty := x.ty.code, imm := VExt.imm ⟨0, none, false, x.mkr⟩ }

def writeVPermA (op fn : BitVec 8) (x : VPermA) : Fields :=
  { op := op, dst := BitVec.ofNat 6 x.d.val, sa := BitVec.ofNat 6 x.a.val, sb := BitVec.ofNat 6 x.b.val,
    sc := BitVec.ofNat 6 x.c.val, fn := fn, ty := x.ty.code, imm := VExt.imm ⟨0, none, x.sel.zm, x.sel.mkr⟩ }

def writeVCompA (op fn : BitVec 8) (x : VCompA) : Fields :=
  { op := op, dst := BitVec.ofNat 6 x.d.val, sa := BitVec.ofNat 6 x.a.val, sb := 0, sc := 0, fn := fn,
    ty := x.ty.code, imm := VExt.imm ⟨0, none, false, x.mkr⟩ }

def writeVIotaA (op fn : BitVec 8) (x : VIotaA) : Fields :=
  { op := op, dst := BitVec.ofNat 6 x.d.val, sa := 0, sb := 0, sc := 0, fn := fn, ty := x.ty.code,
    imm := VExt.imm ⟨0, none, x.sel.zm, x.sel.mkr⟩ }

def writeMBin (op fn : BitVec 8) (x : MBin) : Fields :=
  { op := op, dst := BitVec.ofNat 6 x.d.val, sa := BitVec.ofNat 6 x.a.val, sb := BitVec.ofNat 6 x.b.val, sc := 0,
    fn := fn, ty := 0, imm := 0 }

def writeMUn (op fn : BitVec 8) (x : MUn) : Fields :=
  { op := op, dst := BitVec.ofNat 6 x.d.val, sa := BitVec.ofNat 6 x.a.val, sb := 0, sc := 0, fn := fn, ty := 0,
    imm := 0 }

def writeMPopA (op fn : BitVec 8) (x : MPopA) : Fields :=
  { op := op, dst := BitVec.ofFin x.d, sa := BitVec.ofNat 6 x.a.val, sb := 0, sc := 0, fn := fn, ty := 0, imm := 0 }

def writeVCvtA (op : BitVec 8) (x : VCvtA) : Fields :=
  { op := op, dst := BitVec.ofNat 6 x.d.val, sa := BitVec.ofNat 6 x.a.val, sb := BitVec.ofFin x.b, sc := 0,
    fn := BitVec.ofNat 8 (put 0 x.st.code + put 4 (BitVec.ofBool x.sat)), ty := x.dt.code,
    imm := VExt.imm ⟨BitVec.ofNat 24 (put 0 (BitVec.ofFin x.part : BitVec 3)), x.rnd, x.sel.zm, x.sel.mkr⟩ }

def writeVCvtoA (op : BitVec 8) (x : VCvtoA) : Fields :=
  { op := op, dst := BitVec.ofNat 6 x.d.val, sa := BitVec.ofNat 6 x.a.val, sb := BitVec.ofFin x.b,
    sc := BitVec.ofFin x.n, fn := BitVec.ofNat 8 (put 0 x.st.code), ty := x.dt.code,
    imm := VExt.imm ⟨BitVec.ofNat 24 (put 0 (BitVec.ofFin x.part : BitVec 3)), x.rnd, x.sel.zm, x.sel.mkr⟩ }

def writeVPruneA (op fn : BitVec 8) (x : VPruneA) : Fields :=
  { op := op, dst := BitVec.ofNat 6 x.d.val, sa := BitVec.ofNat 6 x.a.val, sb := 0, sc := BitVec.ofNat 6 x.m.val,
    fn := fn, ty := x.ty.code, imm := VExt.imm ⟨0, none, false, x.mkr⟩ }

def writeVRedSA (op fn : BitVec 8) (x : VRedSA) : Fields :=
  { op := op, dst := BitVec.ofFin x.d, sa := BitVec.ofNat 6 x.a.val, sb := 0, sc := 0, fn := fn, ty := x.ty.code,
    imm := VExt.imm ⟨0, x.rnd, false, x.mkr⟩ }

def writeVRedMA (op fn : BitVec 8) (x : VRedMA) : Fields :=
  { op := op, dst := BitVec.ofFin x.d, sa := BitVec.ofNat 6 x.a.val, sb := 0, sc := 0, fn := fn, ty := x.ty.code,
    imm := VExt.imm ⟨0, none, false, x.mkr⟩ }

def writeVTopA (op fn : BitVec 8) (x : VTopA) : Fields :=
  { op := op, dst := BitVec.ofNat 6 x.d.val, sa := BitVec.ofNat 6 x.a.val, sb := 0, sc := BitVec.ofNat 6 x.x.val,
    fn := fn, ty := x.ty.code, imm := VExt.imm ⟨(BitVec.ofNat 24 (x.k1.val + 1)), none, false, x.mkr⟩ }

def writeVBskA (op fn : BitVec 8) (x : VBskA) : Fields :=
  { op := op, dst := BitVec.ofNat 6 x.d.val, sa := BitVec.ofNat 6 x.a.val, sb := BitVec.ofNat 6 x.b.val,
    sc := BitVec.ofFin x.c, fn := fn, ty := x.ty.code,
    imm := VExt.imm ⟨BitVec.ofNat 24 (put 0 (BitVec.ofFin x.p : BitVec 3)), none, x.sel.zm, x.sel.mkr⟩ }

def writeVDotA (op fn : BitVec 8) (x : VDotA) : Fields :=
  { op := op, dst := BitVec.ofNat 6 x.d.val, sa := BitVec.ofNat 6 x.a.val, sb := BitVec.ofNat 6 x.b.val,
    sc := BitVec.ofNat 6 x.c.val, fn := fn, ty := x.ty.code, imm := VExt.imm ⟨0, x.rnd, x.sel.zm, x.sel.mkr⟩ }

def writeMmaA (op fn : BitVec 8) (x : MmaA) : Fields :=
  { op := op, dst := BitVec.ofNat 6 x.acc.val, sa := BitVec.ofFin x.a, sb := BitVec.ofFin x.b, sc := 0, fn := fn,
    ty := x.ty.code,
    imm := BitVec.ofNat 48 (put 46 (BitVec.ofFin x.gw : BitVec 2) + put 41 (BitVec.ofFin x.kq : BitVec 5) + put 40 (BitVec.ofBool x.asp) + put 39 (BitVec.ofBool x.bsp) + put 33 (BitVec.ofFin x.adr : BitVec 6) + put 27 (BitVec.ofFin x.bdr : BitVec 6)) }

def writeMmaSA (op fn : BitVec 8) (x : MmaSA) : Fields :=
  { op := op, dst := BitVec.ofNat 6 x.acc.val, sa := BitVec.ofFin x.a, sb := BitVec.ofFin x.b,
    sc := BitVec.ofNat 6 x.m.val, fn := fn, ty := x.ty.code,
    imm := BitVec.ofNat 48 (put 46 (BitVec.ofFin x.gw : BitVec 2) + put 41 (BitVec.ofFin x.kq : BitVec 5) + put 40 (BitVec.ofBool x.asp) + put 39 (BitVec.ofBool x.bsp) + put 33 (BitVec.ofFin x.adr : BitVec 6) + put 27 (BitVec.ofFin x.bdr : BitVec 6)) }

def writeAcc1 (op fn : BitVec 8) (x : AReg) : Fields :=
  { op := op, dst := BitVec.ofNat 6 x.val, sa := 0, sb := 0, sc := 0, fn := fn, ty := 0, imm := 0 }

def writeV1 (op fn : BitVec 8) (x : VReg) : Fields :=
  { op := op, dst := 0, sa := BitVec.ofNat 6 x.val, sb := 0, sc := 0, fn := fn, ty := 0, imm := 0 }

def writeMldA (op fn : BitVec 8) (x : MldA) : Fields :=
  { op := op, dst := BitVec.ofNat 6 x.acc.val, sa := BitVec.ofFin x.a, sb := 0, sc := 0, fn := fn, ty := 0,
    imm := x.imm }

def writeMstA (op fn : BitVec 8) (x : MldA) : Fields :=
  { op := op, dst := 0, sa := BitVec.ofFin x.a, sb := BitVec.ofNat 6 x.acc.val, sc := 0, fn := fn, ty := 0,
    imm := x.imm }

def writeMmvV (op fn : BitVec 8) (x : MmvV) : Fields :=
  { op := op, dst := BitVec.ofNat 6 x.d.val, sa := BitVec.ofNat 6 x.acc.val, sb := 0, sc := 0, fn := fn, ty := 0,
    imm := BitVec.ofNat 48 (put 0 (BitVec.ofFin x.i : BitVec 4)) }

def writeMmvA (op fn : BitVec 8) (x : MmvA) : Fields :=
  { op := op, dst := BitVec.ofNat 6 x.acc.val, sa := BitVec.ofNat 6 x.a.val, sb := 0, sc := 0, fn := fn, ty := 0,
    imm := BitVec.ofNat 48 (put 0 (BitVec.ofFin x.i : BitVec 4)) }

def writeTrrecA (op fn : BitVec 8) (x : TrrecA) : Fields :=
  { op := op, dst := 0, sa := 0, sb := 0, sc := 0, fn := fn, ty := 0,
    imm := BitVec.ofNat 48 (put 0 (BitVec.ofFin x.n1 : BitVec 5) + put 8 (BitVec.ofFin x.sv : BitVec 5) + put 13 (BitVec.ofFin x.sa : BitVec 3) + put 16 x.ads) }

def writeElogA (op fn : BitVec 8) (x : ElogA) : Fields :=
  { op := op, dst := BitVec.ofNat 6 x.v.val, sa := BitVec.ofFin x.a, sb := 0, sc := 0, fn := fn, ty := 0, imm := 0 }

def writeHostsigA (op fn : BitVec 8) (x : HostsigA) : Fields :=
  { op := op, dst := BitVec.ofFin x.d, sa := BitVec.ofFin x.a, sb := 0, sc := 0, fn := fn, ty := 0,
    imm := BitVec.ofNat 48 (put 0 x.code) }

/-! ## Single words -/

/-- The instruction a single word below its guard encodes, before any prefix and before the conditions of
Instr.wf (R60, R61). -/
def readInstr (f : Fields) : Option Instr :=
  match f.op.toNat with
  | 0x01 => f.readAluS.map .add
  | 0x02 => f.readAluS.map .sub
  | 0x03 => f.readAluS.map .mul
  | 0x04 => if f.fn = 0 then f.readAlu.map .mulh else none
  | 0x05 => if f.fn = 0 then f.readAlu.map .div else none
  | 0x06 => if f.fn = 0 then f.readAlu.map .rem else none
  | 0x07 => if f.fn = 0 then f.readAlu.map .and else none
  | 0x08 => if f.fn = 0 then f.readAlu.map .or else none
  | 0x09 => if f.fn = 0 then f.readAlu.map .xor else none
  | 0x0A => if f.fn = 0 then f.readAlu.map .shl else none
  | 0x0B => if f.fn = 0 then f.readAlu.map .shr else none
  | 0x0C => if f.fn = 0 then f.readAlu.map .sra else none
  | 0x0D => if f.fn = 0 then f.readAlu.map .min else none
  | 0x0E => if f.fn = 0 then f.readAlu.map .max else none
  | 0x0F => f.readCmpR.map .cmp
  | 0x10 => if f.fn = 0 then f.readAluI.map .addi else none
  | 0x11 => if f.fn = 0 then f.readAluI.map .muli else none
  | 0x12 => if f.fn = 0 then f.readAluI.map .andi else none
  | 0x13 => if f.fn = 0 then f.readAluI.map .ori else none
  | 0x14 => if f.fn = 0 then f.readAluI.map .xori else none
  | 0x15 => if f.fn = 0 then f.readShI.map .shli else none
  | 0x16 => if f.fn = 0 then f.readShI.map .shri else none
  | 0x17 => if f.fn = 0 then f.readShI.map .srai else none
  | 0x18 => f.readCmpI.map .cmpi
  | 0x19 => if f.fn = 0 then f.readMovI.map .movi else none
  | 0x1A => f.readLeaA.map .lea
  | 0x1B => if f.fn = 0 then f.readSelA.map .sel else none
  | 0x1C => if f.fn = 0 then f.readUn.map .clz else none
  | 0x1D => if f.fn = 0 then f.readUn.map .popc else none
  | 0x20 => if f.fn = 0 then f.readDisp.map .br else none
  | 0x21 =>
    match f.fn.toNat with
    | 0 => f.readLinkD.map .call
    | 1 => f.readDA.map .callReg
    | _ => none
  | 0x22 => if f.fn = 0 then f.readA1.map .ret else none
  | 0x23 => if f.fn = 0 then f.readA1.map .jr else none
  | 0x24 => if f.fn = 0 then f.readLinkD.map .loop else none
  | 0x25 => if f.fn = 0 then f.readNul.map fun _ => .halt else none
  | 0x26 => if f.fn = 0 then f.readA1.map .haltK else none
  | 0x27 => if f.fn = 0 then f.readNul.map fun _ => .yield else none
  | 0x28 => if f.fn = 0 then f.readNul.map fun _ => .nop else none
  | 0x29 =>
    match f.fn.toNat with
    | 0 => f.readN8.map .trap
    | 1 => f.readN8.map .trapBrk
    | _ => none
  | 0x2A =>
    match f.fn.toNat with
    | 0 => f.readNul.map fun _ => .eret
    | 1 => f.readNul.map fun _ => .eretN
    | _ => none
  | 0x2B => if f.fn = 0 then f.readA1.map .sleep else none
  | 0x30 => if f.fn = 0 then f.readMemL.map .ld else none
  | 0x31 => if f.fn = 0 then f.readMemS.map .st else none
  | 0x32 => if f.fn = 0 then f.readMemS.map .stOf else none
  | 0x33 => if f.fn = 0 then f.readFenceA.map .fence else none
  | 0x34 => if f.fn = 0 then f.readNul.map fun _ => .fenceSt else none
  | 0x35 => if f.fn = 0 then f.readAtom.map .aadd else none
  | 0x36 => if f.fn = 0 then f.readAtom3.map .aaddt else none
  | 0x37 =>
    match f.fn.toNat with
    | 0 => f.readAtom.map .amin
    | 1 => f.readAtom.map .amax
    | _ => none
  | 0x38 =>
    match f.fn.toNat with
    | 0 => f.readAtom.map .aand
    | 1 => f.readAtom.map .aor
    | 2 => f.readAtom.map .axor
    | _ => none
  | 0x39 => if f.fn = 0 then f.readAtom.map .aswap else none
  | 0x3A => if f.fn = 0 then f.readAtom3.map .acas else none
  | 0x3B => if f.fn = 0 then f.readWaitAA.map .waita else none
  | 0x3C => if f.fn = 0 then f.readAImm.map .awake else none
  | 0x3D => f.readRedA.map .red
  | 0x3E => if f.fn = 0 then f.readDAImm.map .pgin else none
  | 0x40 => f.readLdtA.map .ldt
  | 0x41 => f.readVGatTA.map .vgatht
  | 0x42 => if f.fn = 0 then f.readTakeA.map .take else none
  | 0x43 => if f.fn = 0 then f.readTakeA.map .takeNb else none
  | 0x44 => f.readVTakeA.map .vtake
  | 0x45 => if f.fn = 0 then f.readD1.map .lscnt else none
  | 0x46 => if f.fn = 0 then f.readTagA.map .lreissue else none
  | 0x47 => if f.fn = 0 then f.readTagFA.map .lfill else none
  | 0x48 =>
    match f.fn.toNat with
    | 0 => f.readTagA.map .ldrop
    | 1 => f.readTagA.map .ldropAny
    | _ => none
  | 0x50 => if f.fn = 0 then f.readDA.map .phinit else none
  | 0x51 => if f.fn = 0 then f.readPhRegA.map .phreg else none
  | 0x52 => if f.fn = 0 then f.readA1.map .phdrop else none
  | 0x53 => if f.fn = 0 then f.readDA.map .phsig else none
  | 0x54 => if f.fn = 0 then f.readDAB.map .phwait else none
  | 0x55 => if f.fn = 0 then f.readDA.map .phsw else none
  | 0x56 => if f.fn = 0 then f.readWArrA.map .warr else none
  | 0x57 => if f.fn = 0 then f.readWWaitA.map .wwait else none
  | 0x58 =>
    match f.fn.toNat with
    | 0 => f.readSendA.map .send
    | 1 => f.readSendRA.map .sendRq
    | _ => none
  | 0x59 => f.readSendTA.map .sendT
  | 0x5A => if f.fn = 0 then f.readSendA.map .sendm else none
  | 0x5B => if f.fn = 0 then f.readHMsgA.map .hmsg else none
  | 0x5C => if f.fn = 0 then f.readA1.map .hret else none
  | 0x5D => if f.fn = 0 then f.readTagEA.map .tagen else none
  | 0x5E => if f.fn = 0 then f.readTagEA.map .tagdis else none
  | 0x5F => if f.fn = 0 then f.readTagPA.map .tagpend else none
  | 0x60 =>
    match f.fn.toNat with
    | 0 => f.readSpawnA.map .spawn
    | 1 => f.readSpawnA.map .spawnPin
    | _ => none
  | 0x61 => if f.fn = 0 then f.readDAImm.map .dec else none
  | 0x62 =>
    match f.fn.toNat with
    | 0 => f.readFutRA.map .futr
    | 1 => f.readFutRtA.map .futrT
    | _ => none
  | 0x63 => if f.fn = 0 then f.readDABImm.map .futw else none
  | 0x64 => if f.fn = 0 then f.readDA.map .launch else none
  | 0x65 => if f.fn = 0 then f.readDA.map .launchW else none
  | 0x66 => if f.fn = 0 then f.readN8.map .exit else none
  | 0x67 =>
    match f.fn.toNat with
    | 0 => f.readJxD.map .jx
    | 1 => f.readJxR.map .jxReg
    | _ => none
  | 0x68 =>
    match f.fn.toNat with
    | 0 => f.readCallxD.map .callx
    | 1 => f.readCallxR.map .callxReg
    | _ => none
  | 0x69 => if f.fn = 0 then f.readJxR.map .retx else none
  | 0x6A =>
    match f.fn.toNat with
    | 0 => f.readDA.map .segheat
    | 1 => f.readDA.map .segheatClr
    | _ => none
  | 0x6B =>
    match f.fn.toNat with
    | 0 => f.readAB.map .segrep
    | 1 => f.readAB.map .segrepDel
    | _ => none
  | 0x6C =>
    match f.fn.toNat with
    | 0 => f.readDA.map .segmap
    | 1 => f.readDA.map .segmapHi
    | _ => none
  | 0x70 => if f.fn = 0 then f.readSopenA.map .sopen else none
  | 0x71 =>
    match f.fn.toNat with
    | 0 => f.readQ1.map .sclose
    | 1 => f.readA1.map .scloseU
    | _ => none
  | 0x72 =>
    match f.fn.toNat with
    | 0 => f.readQBindA.map .qbind
    | 1 => f.readQBindLA.map .qbindLoc
    | _ => none
  | 0x73 => if f.fn = 0 then f.readQDA.map .qunbind else none
  | 0x74 => if f.fn = 0 then f.readQDA.map .qstat else none
  | 0x75 =>
    match f.fn.toNat with
    | 0 => f.readQSendA.map .qsend
    | 1 => f.readQSendA.map .qsendH
    | _ => none
  | 0x76 => if f.fn = 0 then f.readQRecvA.map .qrecv else none
  | 0x77 => if f.fn = 0 then f.readCopyA.map .copy else none
  | 0x78 => if f.fn = 0 then f.readDAB.map .ringinit else none
  | 0x79 => if f.fn = 0 then f.readDAB.map .awaitf else none
  | 0x7A => if f.fn = 0 then f.readAB.map .relslot else none
  | 0x7B =>
    match f.fn.toNat with
    | 0 => f.readDA.map .ringstat
    | 1 => f.readDA.map .ringstatCfg
    | _ => none
  | 0x80 => f.readVArS.map .vadd
  | 0x81 => f.readVArS.map .vsub
  | 0x82 => f.readVArS.map .vmul
  | 0x83 => f.readVFmaA.map .vfma
  | 0x84 => if f.fn = 0 then f.readVBinR.map .vdiv else none
  | 0x85 => if f.fn = 0 then f.readVUnR.map .vsqrt else none
  | 0x86 => if f.fn = 0 then f.readVBin.map .vmin else none
  | 0x87 => if f.fn = 0 then f.readVBin.map .vmax else none
  | 0x88 => f.readVUnS.map .vabs
  | 0x89 => f.readVUnS.map .vneg
  | 0x8A => if f.fn = 0 then f.readVBin.map .vand else none
  | 0x8B => if f.fn = 0 then f.readVBin.map .vor else none
  | 0x8C => if f.fn = 0 then f.readVBin.map .vxor else none
  | 0x8D =>
    match f.fn.toNat with
    | 0 => f.readVBin.map .vshl
    | 1 => f.readVShI.map .vshlImm
    | _ => none
  | 0x8E =>
    match f.fn.toNat with
    | 0 => f.readVBin.map .vshr
    | 1 => f.readVShI.map .vshrImm
    | _ => none
  | 0x8F =>
    match f.fn.toNat with
    | 0 => f.readVBin.map .vsra
    | 1 => f.readVShI.map .vsraImm
    | _ => none
  | 0x90 => f.readVCmpA.map .vcmp
  | 0x91 => if f.fn = 0 then f.readVBin.map .vsel else none
  | 0x92 => if f.fn = 0 then f.readVUn.map .vmov else none
  | 0x93 =>
    match f.fn.toNat with
    | 0 => f.readVBcA.map .vbcast
    | 1 => f.readVBcI.map .vbcastImm
    | _ => none
  | 0x94 =>
    match f.fn.toNat with
    | 0 => f.readVExtI.map .vext
    | 1 => f.readVExtR.map .vextReg
    | _ => none
  | 0x95 =>
    match f.fn.toNat with
    | 0 => f.readVInsI.map .vins
    | 1 => f.readVInsR.map .vinsReg
    | _ => none
  | 0x96 => if f.fn = 0 then f.readVPermA.map .vperm else none
  | 0x97 => if f.fn = 0 then f.readVShI.map .vrot else none
  | 0x98 => if f.fn = 0 then f.readVCompA.map .vcompress else none
  | 0x99 => if f.fn = 0 then f.readVUn.map .vexpand else none
  | 0x9A =>
    match f.fn.toNat with
    | 0 => f.readMBin.map .mand
    | 1 => f.readMBin.map .mor
    | 2 => f.readMBin.map .mxor
    | 3 => f.readMUn.map .mnot
    | _ => none
  | 0x9B => if f.fn = 0 then f.readMPopA.map .mpopc else none
  | 0x9C => if f.fn = 0 then f.readVIotaA.map .viota else none
  | 0x9D => if f.fn = 0 then f.readVUnR.map .vrcp else none
  | 0x9E => if f.fn = 0 then f.readVUnR.map .vrsqrt else none
  | 0x9F => if f.fn = 0 then f.readVUnR.map .vexp2 else none
  | 0xA0 => f.readVCvtA.map .vcvt
  | 0xA1 => f.readVCvtoA.map .vcvto
  | 0xA2 => if f.fn = 0 then f.readVPruneA.map .vprune48 else none
  | 0xA3 => if f.fn = 0 then f.readVRedSA.map .vredsum else none
  | 0xA4 =>
    match f.fn.toNat with
    | 0 => f.readVRedMA.map .vredmin
    | 1 => f.readVRedMA.map .vredmax
    | _ => none
  | 0xA5 => if f.fn = 0 then f.readVTopA.map .vtopk else none
  | 0xA6 => if f.fn = 0 then f.readVBskA.map .vbskip else none
  | 0xA7 => if f.fn = 0 then f.readVDotA.map .vdot4 else none
  | 0xB0 => if f.fn = 0 then f.readVLdA.map .vld else none
  | 0xB1 => if f.fn = 0 then f.readVStA.map .vst else none
  | 0xB2 => if f.fn = 0 then f.readVLdSA.map .vlds else none
  | 0xB3 => if f.fn = 0 then f.readVStSA.map .vsts else none
  | 0xB4 => f.readVGatA.map .vgath
  | 0xB5 => f.readVScaA.map .vscat
  | 0xB6 => f.readVRedA.map .vred
  | 0xC0 => if f.fn = 0 then f.readMmaA.map .mma else none
  | 0xC1 => if f.fn = 0 then f.readMmaSA.map .mmaS else none
  | 0xC2 => if f.fn = 0 then f.readAcc1.map .mzero else none
  | 0xC3 => if f.fn = 0 then f.readMldA.map .mld else none
  | 0xC4 => if f.fn = 0 then f.readMstA.map .mst else none
  | 0xC5 =>
    match f.fn.toNat with
    | 0 => f.readV1.map .mscaleA0
    | 1 => f.readV1.map .mscaleA1
    | 2 => f.readV1.map .mscaleB
    | _ => none
  | 0xC6 =>
    match f.fn.toNat with
    | 0 => f.readNul.map fun _ => .mwait
    | 1 => f.readAcc1.map .mwaitTile
    | _ => none
  | 0xC7 => if f.fn = 0 then f.readMmvV.map .mmovv else none
  | 0xC8 => if f.fn = 0 then f.readMmvA.map .mmova else none
  | 0xC9 => if f.fn = 0 then f.readD1.map .mstat else none
  | 0xCA => if f.fn = 0 then f.readTrrecA.map .trrec else none
  | 0xCB => if f.fn = 0 then f.readA1.map .trrun else none
  | 0xCC => if f.fn = 0 then f.readD1.map .trstop else none
  | 0xCD => if f.fn = 0 then f.readD1.map .trstat else none
  | 0xD0 => if f.fn = 0 then f.readMcrA.map .mfcr else none
  | 0xD1 =>
    match f.fn.toNat with
    | 0 => f.readMtcA.map .mtcr
    | 1 => f.readMtcA.map .mtcrSet
    | 2 => f.readMtcA.map .mtcrClr
    | 3 => f.readMtcA.map .mtcrEnt
    | _ => none
  | 0xD2 =>
    match f.fn.toNat with
    | 0 => f.readAB.map .tlbinv
    | 1 => f.readB1.map .tlbinvAs
    | 2 => f.readNul.map fun _ => .tlbinvAll
    | 3 => f.readDABC.map .tlbinvOut
    | _ => none
  | 0xD3 => if f.fn = 0 then f.readNul.map fun _ => .tlbsync else none
  | 0xD4 =>
    match f.fn.toNat with
    | 0 => f.readDAB.map .savectx
    | 1 => f.readDAB.map .savectxSwap
    | 2 => f.readDAB.map .savectxDrain
    | 3 => f.readDAB.map .savectxSize
    | _ => none
  | 0xD5 => if f.fn = 0 then f.readDAB.map .loadctx else none
  | 0xD6 =>
    match f.fn.toNat with
    | 0 => f.readDA.map .quar
    | 1 => f.readDA.map .quarClr
    | _ => none
  | 0xD7 =>
    match f.fn.toNat with
    | 0 => f.readDA.map .remap
    | 1 => f.readDA.map .remapStat
    | _ => none
  | 0xD8 =>
    match f.fn.toNat with
    | 0 => f.readElogA.map .elogrd
    | 1 => f.readA1.map .elogrdPop
    | 2 => f.readDA.map .elogrdCnt
    | 3 => f.readA1.map .elogrdZc
    | _ => none
  | 0xD9 =>
    match f.fn.toNat with
    | 0 => f.readDAB.map .pwrset
    | 1 => f.readDA.map .pwrsetRd
    | _ => none
  | 0xDA => if f.fn = 0 then f.readHostsigA.map .hostsig else none
  | _ => none

/-- A single word's instruction; none where the word holds a reserved code (R62). -/
def decodeFields (f : Fields) : Option Instr :=
  (readInstr f).bind fun i => if i.wf then some i else none

/-- The fields that encode an instruction; none for a pair word and for the device's own steps. -/
def Instr.fields : Instr → Option Fields
  | .add x => some (writeAluS 0x01 x)
  | .sub x => some (writeAluS 0x02 x)
  | .mul x => some (writeAluS 0x03 x)
  | .mulh x => some (writeAlu 0x04 0 x)
  | .div x => some (writeAlu 0x05 0 x)
  | .rem x => some (writeAlu 0x06 0 x)
  | .and x => some (writeAlu 0x07 0 x)
  | .or x => some (writeAlu 0x08 0 x)
  | .xor x => some (writeAlu 0x09 0 x)
  | .shl x => some (writeAlu 0x0A 0 x)
  | .shr x => some (writeAlu 0x0B 0 x)
  | .sra x => some (writeAlu 0x0C 0 x)
  | .min x => some (writeAlu 0x0D 0 x)
  | .max x => some (writeAlu 0x0E 0 x)
  | .cmp x => some (writeCmpR 0x0F x)
  | .addi x => some (writeAluI 0x10 0 x)
  | .muli x => some (writeAluI 0x11 0 x)
  | .andi x => some (writeAluI 0x12 0 x)
  | .ori x => some (writeAluI 0x13 0 x)
  | .xori x => some (writeAluI 0x14 0 x)
  | .shli x => some (writeShI 0x15 0 x)
  | .shri x => some (writeShI 0x16 0 x)
  | .srai x => some (writeShI 0x17 0 x)
  | .cmpi x => some (writeCmpI 0x18 x)
  | .movi x => some (writeMovI 0x19 0 x)
  | .lea x => some (writeLeaA 0x1A x)
  | .sel x => some (writeSelA 0x1B 0 x)
  | .clz x => some (writeUn 0x1C 0 x)
  | .popc x => some (writeUn 0x1D 0 x)
  | .br x => some (writeDisp 0x20 0 x)
  | .call x => some (writeLinkD 0x21 0 x)
  | .callReg x => some (writeDA 0x21 1 x)
  | .ret x => some (writeA1 0x22 0 x)
  | .jr x => some (writeA1 0x23 0 x)
  | .loop x => some (writeLinkD 0x24 0 x)
  | .halt => some (writeNul 0x25 0)
  | .haltK x => some (writeA1 0x26 0 x)
  | .yield => some (writeNul 0x27 0)
  | .nop => some (writeNul 0x28 0)
  | .trap x => some (writeN8 0x29 0 x)
  | .trapBrk x => some (writeN8 0x29 1 x)
  | .eret => some (writeNul 0x2A 0)
  | .eretN => some (writeNul 0x2A 1)
  | .sleep x => some (writeA1 0x2B 0 x)
  | .ld x => some (writeMemL 0x30 0 x)
  | .st x => some (writeMemS 0x31 0 x)
  | .stOf x => some (writeMemS 0x32 0 x)
  | .fence x => some (writeFenceA 0x33 0 x)
  | .fenceSt => some (writeNul 0x34 0)
  | .aadd x => some (writeAtom 0x35 0 x)
  | .aaddt x => some (writeAtom3 0x36 0 x)
  | .amin x => some (writeAtom 0x37 0 x)
  | .amax x => some (writeAtom 0x37 1 x)
  | .aand x => some (writeAtom 0x38 0 x)
  | .aor x => some (writeAtom 0x38 1 x)
  | .axor x => some (writeAtom 0x38 2 x)
  | .aswap x => some (writeAtom 0x39 0 x)
  | .acas x => some (writeAtom3 0x3A 0 x)
  | .waita x => some (writeWaitAA 0x3B 0 x)
  | .awake x => some (writeAImm 0x3C 0 x)
  | .red x => some (writeRedA 0x3D x)
  | .pgin x => some (writeDAImm 0x3E 0 x)
  | .ldt x => some (writeLdtA 0x40 x)
  | .vgatht x => some (writeVGatTA 0x41 x)
  | .take x => some (writeTakeA 0x42 0 x)
  | .takeNb x => some (writeTakeA 0x43 0 x)
  | .vtake x => some (writeVTakeA 0x44 x)
  | .lscnt x => some (writeD1 0x45 0 x)
  | .lreissue x => some (writeTagA 0x46 0 x)
  | .lfill x => some (writeTagFA 0x47 0 x)
  | .ldrop x => some (writeTagA 0x48 0 x)
  | .ldropAny x => some (writeTagA 0x48 1 x)
  | .phinit x => some (writeDA 0x50 0 x)
  | .phreg x => some (writePhRegA 0x51 0 x)
  | .phdrop x => some (writeA1 0x52 0 x)
  | .phsig x => some (writeDA 0x53 0 x)
  | .phwait x => some (writeDAB 0x54 0 x)
  | .phsw x => some (writeDA 0x55 0 x)
  | .warr x => some (writeWArrA 0x56 0 x)
  | .wwait x => some (writeWWaitA 0x57 0 x)
  | .send x => some (writeSendA 0x58 0 x)
  | .sendRq x => some (writeSendRA 0x58 1 x)
  | .sendT x => some (writeSendTA 0x59 x)
  | .sendm x => some (writeSendA 0x5A 0 x)
  | .hmsg x => some (writeHMsgA 0x5B 0 x)
  | .hret x => some (writeA1 0x5C 0 x)
  | .tagen x => some (writeTagEA 0x5D 0 x)
  | .tagdis x => some (writeTagEA 0x5E 0 x)
  | .tagpend x => some (writeTagPA 0x5F 0 x)
  | .spawn x => some (writeSpawnA 0x60 0 x)
  | .spawnPin x => some (writeSpawnA 0x60 1 x)
  | .dec x => some (writeDAImm 0x61 0 x)
  | .futr x => some (writeFutRA 0x62 0 x)
  | .futrT x => some (writeFutRtA 0x62 1 x)
  | .futw x => some (writeDABImm 0x63 0 x)
  | .launch x => some (writeDA 0x64 0 x)
  | .launchW x => some (writeDA 0x65 0 x)
  | .exit x => some (writeN8 0x66 0 x)
  | .jx x => some (writeJxD 0x67 0 x)
  | .jxReg x => some (writeJxR 0x67 1 x)
  | .callx x => some (writeCallxD 0x68 0 x)
  | .callxReg x => some (writeCallxR 0x68 1 x)
  | .retx x => some (writeJxR 0x69 0 x)
  | .segheat x => some (writeDA 0x6A 0 x)
  | .segheatClr x => some (writeDA 0x6A 1 x)
  | .segrep x => some (writeAB 0x6B 0 x)
  | .segrepDel x => some (writeAB 0x6B 1 x)
  | .segmap x => some (writeDA 0x6C 0 x)
  | .segmapHi x => some (writeDA 0x6C 1 x)
  | .sopen x => some (writeSopenA 0x70 0 x)
  | .sclose x => some (writeQ1 0x71 0 x)
  | .scloseU x => some (writeA1 0x71 1 x)
  | .qbind x => some (writeQBindA 0x72 0 x)
  | .qbindLoc x => some (writeQBindLA 0x72 1 x)
  | .qunbind x => some (writeQDA 0x73 0 x)
  | .qstat x => some (writeQDA 0x74 0 x)
  | .qsend x => some (writeQSendA 0x75 0 x)
  | .qsendH x => some (writeQSendA 0x75 1 x)
  | .qrecv x => some (writeQRecvA 0x76 0 x)
  | .copy x => some (writeCopyA 0x77 0 x)
  | .ringinit x => some (writeDAB 0x78 0 x)
  | .awaitf x => some (writeDAB 0x79 0 x)
  | .relslot x => some (writeAB 0x7A 0 x)
  | .ringstat x => some (writeDA 0x7B 0 x)
  | .ringstatCfg x => some (writeDA 0x7B 1 x)
  | .vadd x => some (writeVArS 0x80 x)
  | .vsub x => some (writeVArS 0x81 x)
  | .vmul x => some (writeVArS 0x82 x)
  | .vfma x => some (writeVFmaA 0x83 x)
  | .vdiv x => some (writeVBinR 0x84 0 x)
  | .vsqrt x => some (writeVUnR 0x85 0 x)
  | .vmin x => some (writeVBin 0x86 0 x)
  | .vmax x => some (writeVBin 0x87 0 x)
  | .vabs x => some (writeVUnS 0x88 x)
  | .vneg x => some (writeVUnS 0x89 x)
  | .vand x => some (writeVBin 0x8A 0 x)
  | .vor x => some (writeVBin 0x8B 0 x)
  | .vxor x => some (writeVBin 0x8C 0 x)
  | .vshl x => some (writeVBin 0x8D 0 x)
  | .vshlImm x => some (writeVShI 0x8D 1 x)
  | .vshr x => some (writeVBin 0x8E 0 x)
  | .vshrImm x => some (writeVShI 0x8E 1 x)
  | .vsra x => some (writeVBin 0x8F 0 x)
  | .vsraImm x => some (writeVShI 0x8F 1 x)
  | .vcmp x => some (writeVCmpA 0x90 x)
  | .vsel x => some (writeVBin 0x91 0 x)
  | .vmov x => some (writeVUn 0x92 0 x)
  | .vbcast x => some (writeVBcA 0x93 0 x)
  | .vbcastImm x => some (writeVBcI 0x93 1 x)
  | .vext x => some (writeVExtI 0x94 0 x)
  | .vextReg x => some (writeVExtR 0x94 1 x)
  | .vins x => some (writeVInsI 0x95 0 x)
  | .vinsReg x => some (writeVInsR 0x95 1 x)
  | .vperm x => some (writeVPermA 0x96 0 x)
  | .vrot x => some (writeVShI 0x97 0 x)
  | .vcompress x => some (writeVCompA 0x98 0 x)
  | .vexpand x => some (writeVUn 0x99 0 x)
  | .mand x => some (writeMBin 0x9A 0 x)
  | .mor x => some (writeMBin 0x9A 1 x)
  | .mxor x => some (writeMBin 0x9A 2 x)
  | .mnot x => some (writeMUn 0x9A 3 x)
  | .mpopc x => some (writeMPopA 0x9B 0 x)
  | .viota x => some (writeVIotaA 0x9C 0 x)
  | .vrcp x => some (writeVUnR 0x9D 0 x)
  | .vrsqrt x => some (writeVUnR 0x9E 0 x)
  | .vexp2 x => some (writeVUnR 0x9F 0 x)
  | .vcvt x => some (writeVCvtA 0xA0 x)
  | .vcvto x => some (writeVCvtoA 0xA1 x)
  | .vprune48 x => some (writeVPruneA 0xA2 0 x)
  | .vredsum x => some (writeVRedSA 0xA3 0 x)
  | .vredmin x => some (writeVRedMA 0xA4 0 x)
  | .vredmax x => some (writeVRedMA 0xA4 1 x)
  | .vtopk x => some (writeVTopA 0xA5 0 x)
  | .vbskip x => some (writeVBskA 0xA6 0 x)
  | .vdot4 x => some (writeVDotA 0xA7 0 x)
  | .vld x => some (writeVLdA 0xB0 0 x)
  | .vst x => some (writeVStA 0xB1 0 x)
  | .vlds x => some (writeVLdSA 0xB2 0 x)
  | .vsts x => some (writeVStSA 0xB3 0 x)
  | .vgath x => some (writeVGatA 0xB4 x)
  | .vscat x => some (writeVScaA 0xB5 x)
  | .vred x => some (writeVRedA 0xB6 x)
  | .mma x => some (writeMmaA 0xC0 0 x)
  | .mmaS x => some (writeMmaSA 0xC1 0 x)
  | .mzero x => some (writeAcc1 0xC2 0 x)
  | .mld x => some (writeMldA 0xC3 0 x)
  | .mst x => some (writeMstA 0xC4 0 x)
  | .mscaleA0 x => some (writeV1 0xC5 0 x)
  | .mscaleA1 x => some (writeV1 0xC5 1 x)
  | .mscaleB x => some (writeV1 0xC5 2 x)
  | .mwait => some (writeNul 0xC6 0)
  | .mwaitTile x => some (writeAcc1 0xC6 1 x)
  | .mmovv x => some (writeMmvV 0xC7 0 x)
  | .mmova x => some (writeMmvA 0xC8 0 x)
  | .mstat x => some (writeD1 0xC9 0 x)
  | .trrec x => some (writeTrrecA 0xCA 0 x)
  | .trrun x => some (writeA1 0xCB 0 x)
  | .trstop x => some (writeD1 0xCC 0 x)
  | .trstat x => some (writeD1 0xCD 0 x)
  | .mfcr x => some (writeMcrA 0xD0 0 x)
  | .mtcr x => some (writeMtcA 0xD1 0 x)
  | .mtcrSet x => some (writeMtcA 0xD1 1 x)
  | .mtcrClr x => some (writeMtcA 0xD1 2 x)
  | .mtcrEnt x => some (writeMtcA 0xD1 3 x)
  | .tlbinv x => some (writeAB 0xD2 0 x)
  | .tlbinvAs x => some (writeB1 0xD2 1 x)
  | .tlbinvAll => some (writeNul 0xD2 2)
  | .tlbinvOut x => some (writeDABC 0xD2 3 x)
  | .tlbsync => some (writeNul 0xD3 0)
  | .savectx x => some (writeDAB 0xD4 0 x)
  | .savectxSwap x => some (writeDAB 0xD4 1 x)
  | .savectxDrain x => some (writeDAB 0xD4 2 x)
  | .savectxSize x => some (writeDAB 0xD4 3 x)
  | .loadctx x => some (writeDAB 0xD5 0 x)
  | .quar x => some (writeDA 0xD6 0 x)
  | .quarClr x => some (writeDA 0xD6 1 x)
  | .remap x => some (writeDA 0xD7 0 x)
  | .remapStat x => some (writeDA 0xD7 1 x)
  | .elogrd x => some (writeElogA 0xD8 0 x)
  | .elogrdPop x => some (writeA1 0xD8 1 x)
  | .elogrdCnt x => some (writeDA 0xD8 2 x)
  | .elogrdZc x => some (writeA1 0xD8 3 x)
  | .pwrset x => some (writeDAB 0xD9 0 x)
  | .pwrsetRd x => some (writeDA 0xD9 1 x)
  | .hostsig x => some (writeHostsigA 0xDA 0 x)
  | _ => none

/-! ## Prefix words -/

/-- A prefix word's payload by kind (R63 to R67). -/
inductive Pfx where
  | immx (hi : BitVec 16)
  | live (p : LivePfx)
  | scope (p : ScopePfx)
  | lane (p : LanePfx)
  deriving DecidableEq, Repr

def Pfx.kind : Pfx → Nat
  | .immx _ => 0 | .live _ => 1 | .scope _ => 2 | .lane _ => 3

/-- A vector carry field of LIVE: bit 5 valid, bits 4:0 the register; an invalid field is zero (R65). -/
def carryOf (b : BitVec 6) : Option (Option VReg) :=
  if b = 0 then some none
  else if b.getLsbD 5 then some (some (b.extractLsb' 0 5).toFin)
  else none

def carryCode : Option VReg → BitVec 6
  | none => 0
  | some v => BitVec.ofNat 6 (32 + v.val)

def readLive (w : SlotWord) : Option LivePfx := do
  let v3 ← carryOf (w.extractLsb' 81 6)
  let v2 ← carryOf (w.extractLsb' 75 6)
  let v1 ← carryOf (w.extractLsb' 69 6)
  let v0 ← carryOf (w.extractLsb' 63 6)
  if w.extractLsb' 87 1 = 0 then some ⟨v3, v2, v1, v0, w.extractLsb' 0 63⟩ else none

/-- The payload of a prefix word; none where it holds a reserved kind or code (R62, R63 to R67). -/
def decodePfx (w : SlotWord) : Option Pfx :=
  if w.extractLsb' 92 4 = 0 then
    match (w.extractLsb' 88 4).toNat with
    | 0 => if w.extractLsb' 16 72 = 0 then some (.immx (w.extractLsb' 0 16)) else none
    | 1 => (readLive w).map .live
    | 2 =>
      if w.extractLsb' 5 83 = 0 then
        (scopeOf (w.extractLsb' 0 3)).map fun sc => .scope ⟨ordOf (w.extractLsb' 3 2), sc⟩
      else none
    | 3 =>
      if w.extractLsb' 16 72 = 0 then
        some (.lane ⟨w.getLsbD 15, (w.extractLsb' 9 6).toFin, (w.extractLsb' 3 6).toFin, mOf (w.extractLsb' 0 3)⟩)
      else none
    | _ => none
  else none

/-- A prefix word (R63). -/
def Pfx.word : Pfx → SlotWord
  | .immx h => BitVec.ofNat 96 (put 88 0#4 + put 0 h)
  | .live p =>
    BitVec.ofNat 96 (put 88 1#4 + put 81 (carryCode p.v3) + put 75 (carryCode p.v2) + put 69 (carryCode p.v1)
      + put 63 (carryCode p.v0) + put 0 p.scal)
  | .scope p => BitVec.ofNat 96 (put 88 2#4 + put 3 p.ord.code + put 0 p.scope.code)
  | .lane p =>
    BitVec.ofNat 96 (put 88 3#4 + put 15 (BitVec.ofBool p.zero) + put 9 (BitVec.ofFin p.last : BitVec 6)
      + put 3 (BitVec.ofFin p.first : BitVec 6) + put 0 (BitVec.ofFin p.mask : BitVec 3))

/-- The consumers of IMMX, with the payload above their immediate (R64, R68). -/
def Instr.putImmx (h : BitVec 16) : Instr → Option Instr
  | .addi x => some (.addi { x with imm := ⟨some h, x.imm.lo⟩ })
  | .muli x => some (.muli { x with imm := ⟨some h, x.imm.lo⟩ })
  | .andi x => some (.andi { x with imm := ⟨some h, x.imm.lo⟩ })
  | .ori x => some (.ori { x with imm := ⟨some h, x.imm.lo⟩ })
  | .xori x => some (.xori { x with imm := ⟨some h, x.imm.lo⟩ })
  | .cmpi x => some (.cmpi { x with imm := ⟨some h, x.imm.lo⟩ })
  | .movi x => some (.movi { x with imm := ⟨some h, x.imm.lo⟩ })
  | .lea x => some (.lea { x with imm := ⟨some h, x.imm.lo⟩ })
  | .ld x => some (.ld { x with imm := ⟨some h, x.imm.lo⟩ })
  | .st x => some (.st { x with imm := ⟨some h, x.imm.lo⟩ })
  | .stOf x => some (.stOf { x with imm := ⟨some h, x.imm.lo⟩ })
  | _ => none

/-- The consumers of LIVE (R65, R68). -/
def Instr.putLive (p : LivePfx) : Instr → Option Instr
  | .jx x => some (.jx { x with live := some p })
  | .jxReg x => some (.jxReg { x with live := some p })
  | .callx x => some (.callx { x with live := some p })
  | .callxReg x => some (.callxReg { x with live := some p })
  | .retx x => some (.retx { x with live := some p })
  | _ => none

/-- The consumers of SCOPE (R66, R68). -/
def Instr.putScope (p : ScopePfx) : Instr → Option Instr
  | .ld x => some (.ld { x with sc := some p })
  | .st x => some (.st { x with sc := some p })
  | .stOf x => some (.stOf { x with sc := some p })
  | .aadd x => some (.aadd { x with sc := some p })
  | .aaddt x => some (.aaddt { x with sc := some p })
  | .amin x => some (.amin { x with sc := some p })
  | .amax x => some (.amax { x with sc := some p })
  | .aand x => some (.aand { x with sc := some p })
  | .aor x => some (.aor { x with sc := some p })
  | .axor x => some (.axor { x with sc := some p })
  | .aswap x => some (.aswap { x with sc := some p })
  | .acas x => some (.acas { x with sc := some p })
  | .red x => some (.red { x with sc := some p })
  | .ldt x => some (.ldt { x with sc := some p })
  | .vgatht x => some (.vgatht { x with sc := some p })
  | .copy x => some (.copy { x with sc := some p })
  | .vld x => some (.vld { x with sc := some p })
  | .vst x => some (.vst { x with sc := some p })
  | .vlds x => some (.vlds { x with sc := some p })
  | .vsts x => some (.vsts { x with sc := some p })
  | .vgath x => some (.vgath { x with sc := some p })
  | .vscat x => some (.vscat { x with sc := some p })
  | .vred x => some (.vred { x with sc := some p })
  | _ => none

/-- The consumers of LANE (R67, R68). -/
def Instr.putLane (p : LanePfx) : Instr → Option Instr
  | .vgatht x => some (.vgatht { x with lane := some p })
  | .vtake x => some (.vtake { x with sel := { x.sel with lane := some p } })
  | .vadd x => some (.vadd { x with sel := { x.sel with lane := some p } })
  | .vsub x => some (.vsub { x with sel := { x.sel with lane := some p } })
  | .vmul x => some (.vmul { x with sel := { x.sel with lane := some p } })
  | .vfma x => some (.vfma { x with sel := { x.sel with lane := some p } })
  | .vdiv x => some (.vdiv { x with sel := { x.sel with lane := some p } })
  | .vsqrt x => some (.vsqrt { x with sel := { x.sel with lane := some p } })
  | .vmin x => some (.vmin { x with sel := { x.sel with lane := some p } })
  | .vmax x => some (.vmax { x with sel := { x.sel with lane := some p } })
  | .vabs x => some (.vabs { x with sel := { x.sel with lane := some p } })
  | .vneg x => some (.vneg { x with sel := { x.sel with lane := some p } })
  | .vand x => some (.vand { x with sel := { x.sel with lane := some p } })
  | .vor x => some (.vor { x with sel := { x.sel with lane := some p } })
  | .vxor x => some (.vxor { x with sel := { x.sel with lane := some p } })
  | .vshl x => some (.vshl { x with sel := { x.sel with lane := some p } })
  | .vshlImm x => some (.vshlImm { x with sel := { x.sel with lane := some p } })
  | .vshr x => some (.vshr { x with sel := { x.sel with lane := some p } })
  | .vshrImm x => some (.vshrImm { x with sel := { x.sel with lane := some p } })
  | .vsra x => some (.vsra { x with sel := { x.sel with lane := some p } })
  | .vsraImm x => some (.vsraImm { x with sel := { x.sel with lane := some p } })
  | .vcmp x => some (.vcmp { x with sel := { x.sel with lane := some p } })
  | .vsel x => some (.vsel { x with sel := { x.sel with lane := some p } })
  | .vmov x => some (.vmov { x with sel := { x.sel with lane := some p } })
  | .vbcast x => some (.vbcast { x with sel := { x.sel with lane := some p } })
  | .vbcastImm x => some (.vbcastImm { x with sel := { x.sel with lane := some p } })
  | .vext x => some (.vext { x with lane := some p })
  | .vextReg x => some (.vextReg { x with lane := some p })
  | .vins x => some (.vins { x with lane := some p })
  | .vinsReg x => some (.vinsReg { x with lane := some p })
  | .vperm x => some (.vperm { x with sel := { x.sel with lane := some p } })
  | .vrot x => some (.vrot { x with sel := { x.sel with lane := some p } })
  | .vcompress x => some (.vcompress { x with lane := some p })
  | .vexpand x => some (.vexpand { x with sel := { x.sel with lane := some p } })
  | .viota x => some (.viota { x with sel := { x.sel with lane := some p } })
  | .vrcp x => some (.vrcp { x with sel := { x.sel with lane := some p } })
  | .vrsqrt x => some (.vrsqrt { x with sel := { x.sel with lane := some p } })
  | .vexp2 x => some (.vexp2 { x with sel := { x.sel with lane := some p } })
  | .vcvt x => some (.vcvt { x with sel := { x.sel with lane := some p } })
  | .vcvto x => some (.vcvto { x with sel := { x.sel with lane := some p } })
  | .vprune48 x => some (.vprune48 { x with lane := some p })
  | .vredsum x => some (.vredsum { x with lane := some p })
  | .vredmin x => some (.vredmin { x with lane := some p })
  | .vredmax x => some (.vredmax { x with lane := some p })
  | .vtopk x => some (.vtopk { x with lane := some p })
  | .vbskip x => some (.vbskip { x with sel := { x.sel with lane := some p } })
  | .vdot4 x => some (.vdot4 { x with sel := { x.sel with lane := some p } })
  | .vld x => some (.vld { x with sel := { x.sel with lane := some p } })
  | .vst x => some (.vst { x with sel := { x.sel with lane := some p } })
  | .vlds x => some (.vlds { x with sel := { x.sel with lane := some p } })
  | .vsts x => some (.vsts { x with sel := { x.sel with lane := some p } })
  | .vgath x => some (.vgath { x with sel := { x.sel with lane := some p } })
  | .vscat x => some (.vscat { x with sel := { x.sel with lane := some p } })
  | .vred x => some (.vred { x with sel := { x.sel with lane := some p } })
  | _ => none

def Instr.attach (p : Pfx) (i : Instr) : Option Instr :=
  match p with
  | .immx h => i.putImmx h
  | .live q => i.putLive q
  | .scope q => i.putScope q
  | .lane q => i.putLane q

def Instr.attachAll : List Pfx → Instr → Option Instr
  | [], i => some i
  | p :: ps, i => (i.attach p).bind (Instr.attachAll ps)

/-- An instruction's IMMX payload. -/
def Instr.immx : Instr → Option (BitVec 16)
  | .addi x => x.imm.hi
  | .muli x => x.imm.hi
  | .andi x => x.imm.hi
  | .ori x => x.imm.hi
  | .xori x => x.imm.hi
  | .cmpi x => x.imm.hi
  | .movi x => x.imm.hi
  | .lea x => x.imm.hi
  | .ld x => x.imm.hi
  | .st x => x.imm.hi
  | .stOf x => x.imm.hi
  | _ => none

/-- An instruction's LIVE payload. -/
def Instr.live : Instr → Option LivePfx
  | .jx x => x.live
  | .jxReg x => x.live
  | .callx x => x.live
  | .callxReg x => x.live
  | .retx x => x.live
  | _ => none

/-- An instruction's SCOPE payload. -/
def Instr.scope : Instr → Option ScopePfx
  | .ld x => x.sc
  | .st x => x.sc
  | .stOf x => x.sc
  | .aadd x => x.sc
  | .aaddt x => x.sc
  | .amin x => x.sc
  | .amax x => x.sc
  | .aand x => x.sc
  | .aor x => x.sc
  | .axor x => x.sc
  | .aswap x => x.sc
  | .acas x => x.sc
  | .red x => x.sc
  | .ldt x => x.sc
  | .vgatht x => x.sc
  | .copy x => x.sc
  | .vld x => x.sc
  | .vst x => x.sc
  | .vlds x => x.sc
  | .vsts x => x.sc
  | .vgath x => x.sc
  | .vscat x => x.sc
  | .vred x => x.sc
  | _ => none

/-- An instruction's LANE payload. -/
def Instr.lane : Instr → Option LanePfx
  | .vgatht x => x.lane
  | .vtake x => x.sel.lane
  | .vadd x => x.sel.lane
  | .vsub x => x.sel.lane
  | .vmul x => x.sel.lane
  | .vfma x => x.sel.lane
  | .vdiv x => x.sel.lane
  | .vsqrt x => x.sel.lane
  | .vmin x => x.sel.lane
  | .vmax x => x.sel.lane
  | .vabs x => x.sel.lane
  | .vneg x => x.sel.lane
  | .vand x => x.sel.lane
  | .vor x => x.sel.lane
  | .vxor x => x.sel.lane
  | .vshl x => x.sel.lane
  | .vshlImm x => x.sel.lane
  | .vshr x => x.sel.lane
  | .vshrImm x => x.sel.lane
  | .vsra x => x.sel.lane
  | .vsraImm x => x.sel.lane
  | .vcmp x => x.sel.lane
  | .vsel x => x.sel.lane
  | .vmov x => x.sel.lane
  | .vbcast x => x.sel.lane
  | .vbcastImm x => x.sel.lane
  | .vext x => x.lane
  | .vextReg x => x.lane
  | .vins x => x.lane
  | .vinsReg x => x.lane
  | .vperm x => x.sel.lane
  | .vrot x => x.sel.lane
  | .vcompress x => x.lane
  | .vexpand x => x.sel.lane
  | .viota x => x.sel.lane
  | .vrcp x => x.sel.lane
  | .vrsqrt x => x.sel.lane
  | .vexp2 x => x.sel.lane
  | .vcvt x => x.sel.lane
  | .vcvto x => x.sel.lane
  | .vprune48 x => x.lane
  | .vredsum x => x.lane
  | .vredmin x => x.lane
  | .vredmax x => x.lane
  | .vtopk x => x.lane
  | .vbskip x => x.sel.lane
  | .vdot4 x => x.sel.lane
  | .vld x => x.sel.lane
  | .vst x => x.sel.lane
  | .vlds x => x.sel.lane
  | .vsts x => x.sel.lane
  | .vgath x => x.sel.lane
  | .vscat x => x.sel.lane
  | .vred x => x.sel.lane
  | _ => none

/-- The prefixes an instruction carries, in one fixed order. -/
def Instr.prefixes (i : Instr) : List Pfx :=
  (i.immx.map Pfx.immx).toList ++ (i.live.map Pfx.live).toList ++ (i.scope.map Pfx.scope).toList
    ++ (i.lane.map Pfx.lane).toList


/-! ## Pair words (R57, R58) -/

/-- The single-word form a scalar half-opcode names (R58). -/
def sopOp (n : Nat) : Option (BitVec 8) :=
  match n with
  | 0x01 => some 0x01 | 0x02 => some 0x02 | 0x03 => some 0x07 | 0x04 => some 0x08 | 0x05 => some 0x09
  | 0x06 => some 0x0A | 0x07 => some 0x0B | 0x08 => some 0x0C | 0x09 => some 0x0D | 0x0A => some 0x0E
  | 0x0B => some 0x03 | 0x0C => some 0x0F | 0x0D => some 0x10 | 0x0E => some 0x12 | 0x0F => some 0x15
  | 0x10 => some 0x16 | 0x11 => some 0x17 | 0x12 => some 0x19 | 0x13 => some 0x1A | 0x14 => some 0x30
  | 0x15 => some 0x31
  | _ => none

/-- The single-word form a vector half-opcode names (R58). -/
def vopOp (n : Nat) : Option (BitVec 8) :=
  match n with
  | 0x01 => some 0x80 | 0x02 => some 0x81 | 0x03 => some 0x82 | 0x04 => some 0x86 | 0x05 => some 0x87
  | 0x06 => some 0x8A | 0x07 => some 0x8B | 0x08 => some 0x8C | 0x0A => some 0x8D | 0x0B => some 0x8E
  | 0x0C => some 0x8F | 0x0D => some 0x90 | 0x0E => some 0x91 | 0x0F => some 0x92 | 0x10 => some 0x93
  | 0x11 => some 0xA0 | 0x12 => some 0xB0 | 0x13 => some 0xB1
  | _ => none

def ScalarHalf.sop : ScalarHalf → BitVec 6
  | .none => 0x00 | .add _ => 0x01 | .sub _ => 0x02 | .and _ => 0x03 | .or _ => 0x04 | .xor _ => 0x05
  | .shl _ => 0x06 | .shr _ => 0x07 | .sra _ => 0x08 | .min _ => 0x09 | .max _ => 0x0A | .mul _ => 0x0B
  | .cmp _ => 0x0C | .addi _ => 0x0D | .andi _ => 0x0E | .shli _ => 0x0F | .shri _ => 0x10 | .srai _ => 0x11
  | .movi _ => 0x12 | .lea _ => 0x13 | .ld _ => 0x14 | .st _ => 0x15

def VectorHalf.vop : VectorHalf → BitVec 6
  | .none => 0x00 | .vadd _ => 0x01 | .vsub _ => 0x02 | .vmul _ => 0x03 | .vmin _ => 0x04 | .vmax _ => 0x05
  | .vand _ => 0x06 | .vor _ => 0x07 | .vxor _ => 0x08 | .vshl _ | .vshlImm _ => 0x0A | .vshr _ | .vshrImm _ => 0x0B
  | .vsra _ | .vsraImm _ => 0x0C | .vcmp _ => 0x0D | .vsel _ => 0x0E | .vmov _ => 0x0F
  | .vbcast _ | .vbcastImm _ => 0x10 | .vcvt _ => 0x11 | .vld _ => 0x12 | .vst _ => 0x13

/-- The instruction a half executes as (R58). -/
def ScalarHalf.instr : ScalarHalf → Option Instr
  | .none => Option.none
  | .add x => some (.add x) | .sub x => some (.sub x) | .and x => some (.and x) | .or x => some (.or x)
  | .xor x => some (.xor x) | .shl x => some (.shl x) | .shr x => some (.shr x) | .sra x => some (.sra x)
  | .min x => some (.min x) | .max x => some (.max x) | .mul x => some (.mul x) | .cmp x => some (.cmp x)
  | .addi x => some (.addi x) | .andi x => some (.andi x) | .shli x => some (.shli x) | .shri x => some (.shri x)
  | .srai x => some (.srai x) | .movi x => some (.movi x) | .lea x => some (.lea x) | .ld x => some (.ld x)
  | .st x => some (.st x)

def VectorHalf.instr : VectorHalf → Option Instr
  | .none => Option.none
  | .vadd x => some (.vadd x) | .vsub x => some (.vsub x) | .vmul x => some (.vmul x) | .vmin x => some (.vmin x)
  | .vmax x => some (.vmax x) | .vand x => some (.vand x) | .vor x => some (.vor x) | .vxor x => some (.vxor x)
  | .vshl x => some (.vshl x) | .vshlImm x => some (.vshlImm x) | .vshr x => some (.vshr x)
  | .vshrImm x => some (.vshrImm x) | .vsra x => some (.vsra x) | .vsraImm x => some (.vsraImm x)
  | .vcmp x => some (.vcmp x) | .vsel x => some (.vsel x) | .vmov x => some (.vmov x) | .vbcast x => some (.vbcast x)
  | .vbcastImm x => some (.vbcastImm x) | .vcvt x => some (.vcvt x) | .vld x => some (.vld x) | .vst x => some (.vst x)

def Instr.scalarHalf : Instr → Option ScalarHalf
  | .add x => some (.add x) | .sub x => some (.sub x) | .and x => some (.and x) | .or x => some (.or x)
  | .xor x => some (.xor x) | .shl x => some (.shl x) | .shr x => some (.shr x) | .sra x => some (.sra x)
  | .min x => some (.min x) | .max x => some (.max x) | .mul x => some (.mul x) | .cmp x => some (.cmp x)
  | .addi x => some (.addi x) | .andi x => some (.andi x) | .shli x => some (.shli x) | .shri x => some (.shri x)
  | .srai x => some (.srai x) | .movi x => some (.movi x) | .lea x => some (.lea x) | .ld x => some (.ld x)
  | .st x => some (.st x)
  | _ => Option.none

def Instr.vectorHalf : Instr → Option VectorHalf
  | .vadd x => some (.vadd x) | .vsub x => some (.vsub x) | .vmul x => some (.vmul x) | .vmin x => some (.vmin x)
  | .vmax x => some (.vmax x) | .vand x => some (.vand x) | .vor x => some (.vor x) | .vxor x => some (.vxor x)
  | .vshl x => some (.vshl x) | .vshlImm x => some (.vshlImm x) | .vshr x => some (.vshr x)
  | .vshrImm x => some (.vshrImm x) | .vsra x => some (.vsra x) | .vsraImm x => some (.vsraImm x)
  | .vcmp x => some (.vcmp x) | .vsel x => some (.vsel x) | .vmov x => some (.vmov x) | .vbcast x => some (.vbcast x)
  | .vbcastImm x => some (.vbcastImm x) | .vcvt x => some (.vcvt x) | .vld x => some (.vld x) | .vst x => some (.vst x)
  | _ => Option.none

/-- One half's fields below its opcode: destination, sources, type, function and immediate (R57). -/
structure HalfFields where
  dst : BitVec 6
  sa : BitVec 6
  sb : BitVec 6
  ty : BitVec 4
  fn : BitVec 4
  imm : BitVec 14
  deriving DecidableEq, Repr

def scalarFieldsOf (w : SlotWord) : HalfFields where
  dst := w.extractLsb' 80 6
  sa := w.extractLsb' 74 6
  sb := w.extractLsb' 68 6
  ty := w.extractLsb' 64 4
  fn := w.extractLsb' 60 4
  imm := w.extractLsb' 46 14

/-- The vector half; its immediate field holds VMK above VIM. -/
def vectorFieldsOf (w : SlotWord) : HalfFields where
  dst := w.extractLsb' 34 6
  sa := w.extractLsb' 28 6
  sb := w.extractLsb' 22 6
  ty := w.extractLsb' 18 4
  fn := w.extractLsb' 14 4
  imm := w.extractLsb' 0 14

def HalfFields.zero (h : HalfFields) : Bool :=
  h.dst == 0 && h.sa == 0 && h.sb == 0 && h.ty == 0 && h.fn == 0 && h.imm == 0

/-- The single-word fields a scalar half stands for (R58). -/
def HalfFields.scalar (h : HalfFields) (op : BitVec 8) : Fields :=
  ⟨op, h.dst, h.sa, h.sb, 0, h.fn.setWidth 8, h.ty, h.imm.signExtend 48⟩

/-- The single-word fields a vector half stands for, in the layout of R121 or, for VLD and VST, of R201 (R122). -/
def HalfFields.vector (h : HalfFields) (op : BitVec 8) : Fields :=
  let vim := h.imm.extractLsb' 0 11
  let vmk := mOf (h.imm.extractLsb' 11 3)
  ⟨op, h.dst, h.sa, h.sb, 0, h.fn.setWidth 8, h.ty,
    if op = 0xB0 ∨ op = 0xB1 then MExt.imm ⟨vim.signExtend 40, false, vmk⟩
    else VExt.imm ⟨vim.signExtend 24, none, false, vmk⟩⟩

def decodeScalarHalf (w : SlotWord) : Option ScalarHalf :=
  let sop := (w.extractLsb' 86 6).toNat
  let h := scalarFieldsOf w
  if sop = 0 then (if h.zero then some .none else none)
  else (sopOp sop).bind fun op => (decodeFields (h.scalar op)).bind Instr.scalarHalf

def decodeVectorHalf (w : SlotWord) : Option VectorHalf :=
  let vop := (w.extractLsb' 40 6).toNat
  let h := vectorFieldsOf w
  if vop = 0 then (if h.zero then some .none else none)
  else (vopOp vop).bind fun op => (decodeFields (h.vector op)).bind Instr.vectorHalf

/-- A pair word's instruction; none where either half holds a reserved code (R58, R62). -/
def decodePair (w : SlotWord) : Option Instr := do
  let sh ← decodeScalarHalf w
  let vh ← decodeVectorHalf w
  if (Instr.pairWord sh vh).wf then some (.pairWord sh vh) else none

/-- The half fields of a form whose single-word fields are f, reading the immediate at bit lo. -/
def halfOf (f : Fields) (imm : BitVec 14) : HalfFields :=
  ⟨f.dst, f.sa, f.sb, f.ty, f.fn.setWidth 4, imm⟩

def ScalarHalf.half (sh : ScalarHalf) : HalfFields :=
  match sh.instr.bind Instr.fields with
  | .some f => halfOf f (f.imm.setWidth 14)
  | .none => ⟨0, 0, 0, 0, 0, 0⟩

def VectorHalf.half (vh : VectorHalf) : HalfFields :=
  match vh.instr.bind Instr.fields with
  | .some f =>
    let lo := if f.op = 0xB0 ∨ f.op = 0xB1 then 8 else 24
    halfOf f (BitVec.ofNat 14 (put 11 (f.imm.extractLsb' 0 3) + put 0 (f.imm.extractLsb' lo 11)))
  | .none => ⟨0, 0, 0, 0, 0, 0⟩

/-- A pair word's bits (R57). -/
def packPair (g : Guard) (sh : ScalarHalf) (vh : VectorHalf) : SlotWord :=
  let s := sh.half
  let v := vh.half
  BitVec.ofNat 96 (put 95 (BitVec.ofBool g.neg) + put 92 (BitVec.ofFin g.p : BitVec 3)
    + put 86 sh.sop + put 80 s.dst + put 74 s.sa + put 68 s.sb + put 64 s.ty + put 60 s.fn + put 46 s.imm
    + put 40 vh.vop + put 34 v.dst + put 28 v.sa + put 22 v.sb + put 18 v.ty + put 14 v.fn + put 0 v.imm)

/-! ## Chains of slots -/

/-- What the line word says a slot holds (R45). -/
inductive SlotKind where
  | single | pair | pfx
  deriving DecidableEq, Repr

/-- An encoding check that failed: a reserved code in slot k of the chain, or prefix misuse with its subcode, reported at
slot k (R62, R69). -/
inductive DecodeErr where
  | illegal (k : Nat)
  | misuse (sub k : Nat)
  deriving DecidableEq, Repr

/-- A decoded chain: the consumer's guard, its instruction with every prefix applied, and the chain's length in slots. -/
structure Decoded where
  guard : Guard
  instr : Instr
  len : Nat
  deriving DecidableEq, Repr

/-- The prefixes of a chain and its consumer, with the consumer's kind; reserved codes are found slot by slot (R73). -/
def readChain : Nat → List (SlotKind × SlotWord) → Except DecodeErr (List Pfx × SlotKind × Guard × Instr)
  | k, [] => .error (.illegal k)
  | k, (.pfx, w) :: rest =>
    match decodePfx w with
    | none => .error (.illegal k)
    | some p => (readChain (k + 1) rest).map fun (ps, c) => (p :: ps, c)
  | k, (.single, w) :: _ =>
    match decodeFields (fieldsOf w) with
    | none => .error (.illegal k)
    | some i => .ok ([], .single, guardOf w, i)
  | k, (.pair, w) :: _ =>
    match decodePair w with
    | none => .error (.illegal k)
    | some i => .ok ([], .pair, guardOf w, i)

/-- Subcodes 1 and 2 of prefix misuse, checked at each prefix in turn (R69). -/
def checkPrefixes (pair : Bool) : Nat → List Nat → List Pfx → Option DecodeErr
  | _, _, [] => none
  | k, seen, p :: ps =>
    if p.kind ∈ seen then some (.misuse 2 k)
    else if ps.isEmpty && pair then some (.misuse 1 (k + 1))
    else checkPrefixes pair (k + 1) (p.kind :: seen) ps

/-- The chain that starts at a slot, from the slots of its line on (R62, R69, R73 items 5 and 6). -/
def decodeSlots (ss : List (SlotKind × SlotWord)) : Except DecodeErr Decoded :=
  match readChain 0 ss with
  | .error e => .error e
  | .ok (ps, kind, g, i) =>
    match checkPrefixes (kind == .pair) 0 [] ps with
    | some e => .error e
    | none =>
      match i.attachAll ps with
      | none => .error (.misuse 3 ps.length)
      | some j => if j.wf then .ok ⟨g, j, ps.length + 1⟩ else .error (.misuse 4 ps.length)

/-! ## The encoder -/

/-- The words of an instruction under a guard: its prefixes in one fixed order, then its consumer; none for a step of the
device, which no slot encodes. -/
def encode (g : Guard) (i : Instr) : Option (List (SlotKind × SlotWord)) :=
  match i with
  | .pairWord sh vh => some [(.pair, packPair g sh vh)]
  | i => i.fields.map fun f => i.prefixes.map (fun p => (SlotKind.pfx, p.word)) ++ [(.single, packWord g f)]

/-- The instruction the decoder reads from one single word given as a number, with every bit above nbits zero. -/
def decodeTableWord (nbits w : Nat) : Option Instr :=
  match decodeSlots [(.single, BitVec.ofNat 96 (w % 2 ^ nbits))] with
  | .ok d => some d.instr
  | .error _ => none

end Sys2Proof
end

