-- ==== Sys2Proof/Machine/State.lean ====
section
/-! DEFINITION. The machine's state as plain data: one package with its strands, cores, tiles, blocks, dies, partitions and host
page, everything in flight between them, and, marked as such, the few fields that are the model's own. -/

namespace Sys2Proof.Machine

/-! ## Tables -/

/-- A table by number, ascending; a number that is not listed holds the table's default. -/
abbrev Tab (α : Type) := List (Nat × α)

def Tab.get {α : Type} (d : α) : Tab α → Nat → α
  | [], _ => d
  | (j, x) :: r, k => if j = k then x else Tab.get d r k

def Tab.set {α : Type} : Tab α → Nat → α → Tab α
  | [], k, x => [(k, x)]
  | (j, y) :: r, k, x => if k = j then (k, x) :: r else if k < j then (k, x) :: (j, y) :: r else (j, y) :: Tab.set r k x

/-- Storage: bytes by storage key, ascending, an unlisted key reading zero. -/
abbrev Memory := List Host.Cell

/-! ## Places and release tags -/

/-- Where n bytes lie: the address reported if their read fails, their storage keys, the home's class key (R183), whether the
access is local (R182), a format page's code with its frame and view offset, the reduction-window mark, whether the home lies
on a package this one cannot reach, and the page-table words its walk read. -/
structure Site where
  addr : Word
  n : Nat
  keys : List Nat
  home : Nat
  loc : Bool := false
  fmt : Option (Nat × Nat × Nat) := none
  rwin : Bool := false
  away : Bool := false
  reads : List Nat := []
  deriving DecidableEq, Repr

/-- An agent as scopes judge it: a strand, at its core; a copy engine, an agent of each core of its tile; the page-in agent, which
only fabric scope includes (R231). -/
inductive Agent where
  | core (c : CoreIx)
  | engine (tile : Nat)
  | pageIn
  deriving DecidableEq, Repr

/-- What a write leaves as a release tag: the writer and its synchronising scope (R236, R255). -/
structure SyncTag where
  agent : Agent
  scope : Scope
  deriving DecidableEq, Repr

/-! ## Traps and waits -/

/-- A cause on its way to trap entry: code, subcode, %tval, %ttag, and the program counter it reports where that is not the
instruction's own (R113, R114). -/
structure Trap where
  cause : BitVec 8
  sub : BitVec 8 := 0
  val : Word := 0
  pc : Option Word := none
  tag : BitVec 16 := 0
  deriving DecidableEq, Repr

/-- What the strand's current instruction waits for (R369, R401). -/
inductive WaitKind where
  | load | hold | drain | gang | loom | treadle | take | waita | phwait | signal | wwait | awaitf | qsend | qrecv | sleep
  | launchW | copy | room | walk | flash | sync | save
  deriving DecidableEq, Repr

/-- The current instruction's addresses: its chain's first slot, its own slot and the slot after it (R70, R106). -/
structure Issue where
  first : Word
  own : Word
  next : Word
  word : SlotWord
  deriving DecidableEq, Repr

/-- How far the strand's current instruction has got where it takes more than one step. A wake's bad tells a word past correction
(R397); a held signal's sw tells one made by PHSW (R282). -/
inductive Stage where
  | none
  | loadOut (id : Nat) (left : Nat) (got : List (Nat × Nat)) (tags : List SyncTag) (fault : Option (Nat × Trap))
  | loadDone (got : List (Nat × Nat)) (tags : List SyncTag) (flags : BitVec 9)
  | loadFault (t : Trap)
  | waiter (keys : List Nat)
  | wakeSent
  | woken (v : Nat) (tags : List SyncTag) (bad : Bool)
  | sleeping (upTo : Nat)
  | sleepOver
  | sigHeld (sw : Bool)
  | sigDone (p : BitVec 32)
  | phWait (blk idx : Nat) (x : BitVec 32)
  | phSw (blk idx : Nat) (x : BitVec 32)
  | phDone (p : BitVec 32)
  | wWait (x : BitVec 32)
  | arrHeld
  | arrDone (p : BitVec 32)
  | gangOut
  | gangFormed
  | gangTrap (t : Trap)
  | childOut (wid : Nat)
  | childDone (w : Word)
  | tlbSent (page : Nat)
  | tlbWait (page : Nat) (posted : List (Nat × Nat)) (reqs pageins copies : List Nat)
  | flashOut (id : Nat)
  | flashDone (w : Word)
  | replied
  | onRing (blk idx : Nat) (n : BitVec 32)
  | ringDone (w : Word) (tags : List SyncTag)
  | cntUp
  | orphaned (t : Trap)
  deriving DecidableEq, Repr

/-! ## Landing sets (R206) -/

inductive LState where
  | pending | landed | faulted | reissued
  deriving DecidableEq, Repr

/-- The request a live entry keeps; rq marks an entry SEND.rq allocated, whose address is its destination register. -/
structure LReq where
  addr : Word
  ty : Ty
  scope : Scope
  acq : Bool
  rq : Bool
  deriving DecidableEq, Repr

structure LEntry where
  idx : Nat
  val : Word
  tag : BitVec 16
  st : LState
  stamp : Nat
  pos : Nat
  req : LReq
  fault : Option Trap
  deriving DecidableEq, Repr

/-! ## Messages (R269 to R276) -/

/-- Where a reply lands: the strand slot with its generation, and the entry with its epoch (R222). -/
structure ReplyTo where
  strand : Nat
  gen : BitVec 8
  entry : Nat
  epoch : BitVec 8
  deriving DecidableEq, Repr

structure Msg where
  tag : BitVec 8
  payload : List Word
  sender : Word
  wid : Nat
  cores : List CoreIx
  reply : Option ReplyTo
  dst : Word
  deriving DecidableEq, Repr

/-- A message waiting in an inbox slot: its class, since when it has been dispatchable in that class, when it first became
dispatchable, and the class it first entered (R301). -/
structure InMsg where
  msg : Msg
  since : Option Nat
  cls : Nat
  first : Option Nat
  fcls : Nat
  deriving DecidableEq, Repr

/-- A ready-ring entry (R297, R301): the descriptor's local offset and its weave, its class, age and first moment. -/
structure RingEntry where
  off : Nat
  wid : Nat
  pin : Bool
  cls : Nat
  since : Nat
  first : Nat
  deriving DecidableEq, Repr

/-! ## Queue registers (R25, R336) -/

/-- What a queue register is bound to: nothing, the end of a stream that a handle named (R343), or a local queue. -/
inductive QBind where
  | unbound
  | stream (blk str : Nat) (recv : Bool) (handle : Word)
  | loc (n : Nat) (recv : Bool)
  deriving DecidableEq, Repr

/-! ## The treadle buffer (R136, R144) -/

inductive TrState where
  | idle | recording | ready | running | suspended
  deriving DecidableEq, Repr

/-- A recorded entry: the instruction with its prefixes and guard, and the g registers it read, as they stood (R138). -/
structure TrEntry where
  instr : Instr
  guard : Guard
  caps : List (GReg × Word)
  deriving DecidableEq, Repr

/-- The treadle's record and its passes; p, rmode and sys are the predicates, %rmode and mode of the passes' place in program
order, the TRRUN (R141), and susP and susRmode the strand's own at a suspension. -/
structure Treadle where
  st : TrState
  n : Nat
  sv : Nat
  sa : Nat
  ads : BitVec 32
  entries : List TrEntry
  k : Nat
  done : Nat
  pass : Nat
  ix : Nat
  stop : Bool
  susSys : Bool
  stage : Stage
  p : BitVec 8
  rmode : Word
  sys : Bool
  susP : BitVec 8
  susRmode : Word
  deriving DecidableEq, Repr

/-- An upset of an array's word that no access has met yet (R395, R396): its storage key, whether it is past correction, and
the bit of its code word that it hit (R402). -/
structure Upset where
  key : Nat
  fatal : Bool
  bit : Fin 72
  deriving DecidableEq, Repr

/-- What the scalar half of a pair word has computed while the vector half still waits (R59). -/
structure HalfDone where
  g : Vector Word 64
  sysg : Vector Word 4
  p : BitVec 8
  flags : Word
  rmode : Word
  side : Bool
  deriving DecidableEq, Repr

/-! ## A strand slot -/

/-- One strand slot: the strand's registers (R25, R30), and what belongs to the slot itself, its generation (R39), its system
registers (R115), its entries' epochs and the newest generation it has given (R222). stampCyc is the cycle of the newest stamp,
took the cycle and issue position of the last entry taken or met faulted (R208, R218), and counted the cycle of the last LSCNT
(R221). issued is the instruction under way, as it was fetched: a strand that waits in it fetches nothing. parked is the wait of a
strand restored with NOTIFY, which its ERET to the address there resumes
(R370). -/
structure Strand where
  live : Bool
  g : Vector Word 64
  v : Vector VecReg 32
  p : BitVec 8
  m : Vector Word 8
  q : Vector QBind 8
  pc : Word
  flags : Word
  rmode : Word
  lsctl : Word
  tvec : Word
  tpc : Word
  tcause : Word
  tval : Word
  ttag : Word
  stpc : Word
  stcause : Word
  stval : Word
  sttag : Word
  core : Word
  weave : Word
  seg : Word
  trcnt : Word
  entW : Option Word
  entS : Option Word
  ls : List LEntry
  epochs : Vector (BitVec 8) 32
  lastGen : BitVec 8
  nextStamp : Nat
  stampCyc : Option Word
  took : Option (Word × Nat)
  counted : Option Word
  nextPos : Nat
  sendq : List Msg
  tr : Treadle
  sclA : BitVec 1024
  sclB : BitVec 512
  side : Bool
  owed : Option ReplyTo
  htag : Option (BitVec 8)
  desc : Word
  loomErr : Option Word
  loomFlags : BitVec 9
  refetch : Option (Word × Bool)
  stage : Stage
  issued : Option (Instr × Issue)
  half : Option HalfDone
  parked : Option (Word × Stage × Option (Instr × Issue))
  waiting : Option WaitKind
  waitSeq : Option Nat
  pend : List Trap
  relFence : Option Scope
  readTags : List SyncTag
  invs : List Nat
  sysg : Vector Word 4
  deriving DecidableEq, Repr

/-- A treadle with no record (R136). -/
def Treadle.idle : Treadle := ⟨.idle, 0, 0, 0, 0, [], 0, 0, 0, 0, false, false, .none, 0, 0, false, 0, 0⟩

/-- A slot with no strand, every register at its Reset value (R31 to R39). GEN starts at zero: the spec gives it no reset
value. -/
def Strand.empty : Strand where
  live := false
  g := Vector.replicate 64 0
  v := Vector.replicate 32 0
  p := 0
  m := Vector.replicate 8 0
  q := Vector.replicate 8 .unbound
  pc := 0
  flags := 0
  rmode := 0x0000000100000000
  lsctl := 0
  tvec := 0
  tpc := 0
  tcause := 0
  tval := 0
  ttag := 0
  stpc := 0
  stcause := 0
  stval := 0
  sttag := 0
  core := 0
  weave := 0
  seg := 0
  trcnt := 0
  entW := none
  entS := none
  ls := []
  epochs := Vector.replicate 32 0
  lastGen := 0
  nextStamp := 0
  stampCyc := none
  took := none
  counted := none
  nextPos := 0
  sendq := []
  tr := Treadle.idle
  sclA := 0
  sclB := 0
  side := false
  owed := none
  htag := none
  desc := 0
  loomErr := none
  loomFlags := 0
  refetch := none
  stage := .none
  issued := none
  half := none
  parked := none
  waiting := none
  waitSeq := none
  pend := []
  relFence := none
  readTags := []
  invs := []
  sysg := Vector.replicate 4 0

/-! ## Translation (R375, R382) -/

/-- A cached leaf: its partition and root, the page's first address and size, and the entry's word. -/
structure TlbEntry where
  part : Nat
  root : Nat
  base : Nat
  size : Nat
  pte : Word
  deriving DecidableEq, Repr

/-- A walk in flight (R383): the tile whose TLB runs it, the page's address under its root. -/
structure Walk where
  tile : Nat
  core : CoreIx
  part : Nat
  root : Nat
  va : Word
  failed : Bool
  deriving DecidableEq, Repr

/-- A page-in in flight (R384), with the strand and weave that asked for it first. -/
structure PageIn where
  part : Nat
  root : Nat
  va : Nat
  group : List Nat
  pte : Word
  frame : Nat
  word : Nat
  vword : Word
  slot : Nat
  strand : Nat
  wid : Nat
  deriving DecidableEq, Repr

inductive InvKind where
  | page (va root : Nat)
  | root (root : Nat)
  | all
  deriving DecidableEq, Repr

/-- An invalidation on its way to one target: a core's micro-TLB, a tile's TLB or a block's walk cache (R391). -/
inductive InvTarget where
  | core (c : CoreIx) | tile (t : Nat) | block (b : Nat)
  deriving DecidableEq, Repr

structure Inval where
  id : Nat
  part : Nat
  kind : InvKind
  target : InvTarget
  deriving DecidableEq, Repr

/-! ## Memory traffic -/

/-- Where a write is homed and counted (R178, R183). -/
structure Posted where
  seq : Nat
  cls : Nat
  strand : Nat
  wid : Nat
  keys : List (Nat × Nat)
  deriving DecidableEq, Repr

inductive AtomOp where
  | add | addt | min | max | and | or | xor | swap | cas
  deriving DecidableEq, Repr

/-- A request on its way to its home. Bytes go by storage key of Memory; the parts of a load are numbered by element. -/
inductive ReqKind where
  | load (parts : List (Nat × Site))
  | store (bytes : List (Nat × Byte)) (sync : Option SyncTag)
  | spawn (bytes : List (Nat × Byte)) (core : CoreIx) (off : Nat) (push pin : Bool)
  | atom (op : AtomOp) (ty : Ty) (site : Site) (b c : Word) (sync : Option SyncTag)
  deriving DecidableEq, Repr

/-- The tagged load a request belongs to (R222). -/
structure TagRef where
  back : ReplyTo
  ty : Ty
  addr : Word
  deriving DecidableEq, Repr

/-- A request in flight; also lists further posted writes that it counts as (R183); dropped marks a piece of a write whose discarding
has been counted and logged already (R399, R404). -/
structure NetReq where
  id : Nat
  core : CoreIx
  strand : Nat
  gen : BitVec 8
  seq : Nat
  also : List Nat := []
  scope : Scope
  kind : ReqKind
  tagged : Option TagRef
  dropped : Bool := false
  deriving DecidableEq, Repr

/-- A tagged load before its request leaves: the mode it issued in, waiting for a walk, or with a fault found (R211). -/
structure TagCheck where
  ref : TagRef
  strand : Nat
  sys : Bool
  scope : Scope
  acq : Bool
  fault : Option Trap
  deriving DecidableEq, Repr

/-- A reply to a plain load or atomic. -/
structure Reply where
  id : Nat
  strand : Nat
  gen : BitVec 8
  got : List (Nat × Nat)
  flags : BitVec 9
  tags : List SyncTag
  fault : Option (Nat × Trap)
  deriving DecidableEq, Repr

structure TagReply where
  ref : ReplyTo
  val : Nat
  fault : Option Trap
  tags : List SyncTag
  deriving DecidableEq, Repr

structure Ack where
  core : CoreIx
  seq : Nat
  deriving DecidableEq, Repr

/-- A reduction contribution in flight (R195 to R198): to one word, with the cores whose posted writes it stands for; sum
holds merged float contributions as a fixed-point number of units 2^-149 with its special inputs. -/
structure RedPkt where
  op : RedOp
  ty : Ty
  keys : List Nat
  rwin : Bool
  val : Word
  sum : Int
  pinf : Bool
  ninf : Bool
  nan : Bool
  allNegZero : Bool
  srcs : List (CoreIx × Nat)
  sync : List SyncTag
  held : Option Nat
  deriving DecidableEq, Repr

/-- A word's exact accumulator (R98, R198). -/
structure ExactAcc where
  ty : Ty
  sum : Int
  pinf : Bool
  ninf : Bool
  nan : Bool
  allNegZero : Bool
  deriving DecidableEq, Repr

/-- A wake on its way to a waiting strand (R193): the word, and whether it is past correction (R397). -/
structure Wake where
  strand : Nat
  gen : BitVec 8
  val : Nat
  tags : List SyncTag
  bad : Bool
  deriving DecidableEq, Repr

/-- A codelet push that waits at its owner (R297), with the acknowledgement it delays (R299). -/
structure Push where
  core : CoreIx
  off : Nat
  wid : Nat
  pin : Bool
  ack : Option Ack
  deriving DecidableEq, Repr

/-! ## Shuttles (R325, R327) -/

inductive ShState where
  | flight | queued | shed | overflow
  deriving DecidableEq, Repr

structure Shuttle where
  wid : Nat
  target : Word
  seg : Nat
  core : CoreIx
  g : List (GReg × Word)
  v : List (VReg × VecReg)
  flags : Word
  rmode : Word
  lsctl : Word
  q : Vector QBind 8
  side : Bool
  since : Option Nat
  first : Nat
  cls : Nat
  order : Nat
  poison : Option Word
  relFence : Option Scope
  readTags : List SyncTag
  deriving DecidableEq, Repr

/-! ## Sync-engine objects -/

inductive MStatus where
  | joining | active | leaving
  deriving DecidableEq, Repr

/-- A phaser's member record (R280). -/
structure Member where
  blk : Nat
  mem : Nat
  wid : Nat
  idx : Nat
  mode : PhMode
  status : MStatus
  sig : Bool
  deriving DecidableEq, Repr

/-- A phaser (R280), with the signals it holds for its next boundary: the member and the waiting strand. -/
structure Phaser where
  wid : Nat
  blk : Nat
  idx : Nat
  chk : BitVec 16
  p : BitVec 32
  held : List (Nat × Nat)
  poisoned : Bool
  deriving DecidableEq, Repr

structure RingSlot where
  pos : Nat
  status : Word
  released : Bool
  sync : Option SyncTag
  deriving DecidableEq, Repr

/-- A slot ring (R315), with the tiles whose engines have asked for a slot and wait, in the order they asked (R317). -/
structure Ring where
  wid : Nat
  blk : Nat
  idx : Nat
  chk : BitVec 16
  size : Nat
  wp : BitVec 32
  rp : BitVec 32
  res : Nat
  slots : List RingSlot
  asks : List Nat
  poisoned : Bool
  deriving DecidableEq, Repr

inductive EState where
  | unbound | bound | moving | closed | orphaned
  deriving DecidableEq, Repr

/-- One end of a stream at its home (R335, R336): its place is a strand slot's number, and away says that a shuttle carries it
(R347). -/
structure SEnd where
  st : EState
  gen : BitVec 7
  chk : BitVec 16
  place : Option Nat
  sub : BitVec 8
  closer : Option CoreIx
  away : Bool
  deriving DecidableEq, Repr

structure Item where
  seq : Nat
  val : Word
  handle : Bool
  core : CoreIx
  deriving DecidableEq, Repr

/-- An open stream (R335 to R344): NS and NR, the count F once the send end has ended, the items held for the receiver, and
the credits and moves under way. toward: the place the send end knows for the receive end. -/
structure Stream where
  wid : Nat
  blk : Nat
  str : Nat
  scope : Scope
  snd : SEnd
  rcv : SEnd
  ns : Nat
  nr : Nat
  out : Nat
  fin : Option Nat
  lost : Bool
  toward : Option Nat
  held : List Item
  home : List Item
  moveS : Option Nat
  moveR : Option Nat
  poisoned : Bool
  deriving DecidableEq, Repr

/-- A forwarding pointer at a core (R342): the stream, the place it forwards to, the items it holds, its cut, and how many
items numbered below the cut it still owes. -/
structure FwdPtr where
  wid : Nat
  blk : Nat
  str : Nat
  dest : Option Nat
  items : List Item
  cut : Option Nat
  deriving DecidableEq, Repr

/-- A stream item on its way (R341): to a place, or to the home. -/
structure ItemPkt where
  wid : Nat
  blk : Nat
  str : Nat
  dest : Option Nat
  item : Item
  deriving DecidableEq, Repr

/-- A notice to a stream's home that an end's holder has ended (R344): F if known, and the subcode its peer takes. -/
structure Orphan where
  wid : Nat
  blk : Nat
  str : Nat
  recv : Bool
  fin : Option Nat
  sub : BitVec 8
  pointer : Bool
  deriving DecidableEq, Repr

/-- A wired phaser (R283): its configuration, phase and the arrivals of each member core; and the arrivals that wait for the next
phase, as member and strand, in the order they came (R284). -/
structure Wired where
  cfg : Word
  phase : BitVec 32
  counts : List (Nat × Nat)
  queue : List (Nat × StrandIx)
  deriving DecidableEq, Repr

/-! ## Loom and copy engine -/

/-- A formed loom operation in one core's queue (R156, R161): its strand, physical tile and accumulator name, the operands as
they stood at formation, and the scratchpad address whose read failed, if one did. Rows of A and columns of B list element
codes with their scale bytes by k; present lists the kept positions of a sparse column, and is empty for a dense one. -/
structure LoomOp where
  id : Nat
  strand : Nat
  gen : BitVec 8
  tile : Nat
  acc : Nat
  ty : Ty
  k : Nat
  a : List (List (Nat × Nat))
  b : List (List (Nat × Nat))
  present : List (List Bool)
  bad : Option Word
  deriving DecidableEq, Repr

/-- A member's waiting gang operation (R145, R154): its operands as the instruction names them, and whether a treadle pass
issued it. -/
structure GangReq where
  strand : Nat
  pass : Bool
  sparse : Bool
  ty : Ty
  gw : Nat
  kq : Nat
  asp : Bool
  bsp : Bool
  acc : Nat
  a : Nat
  b : Nat
  m : Nat
  ga : Word
  gb : Word
  da : Word
  db : Word
  deriving DecidableEq, Repr

/-- A claim of a tile's comparator (R160): the window offsets from lo to hi, the weave's S in bytes, and the operation. -/
structure Claim where
  lo : Nat
  hi : Nat
  size : Nat
  op : Nat
  deriving DecidableEq, Repr

/-- A queued copy command (R311, R313): bad marks one whose queue entry is past correction (R395), and late holds what a command
without the release flag has still to write after it has filled its slot (R238). -/
structure CopyCmd where
  words : List Word
  ring : Word
  core : CoreIx
  strand : Nat
  wid : Nat
  part : Nat
  sys : Bool
  seq : Nat
  ld : List (Nat × BitVec 8)
  gen : BitVec 8
  reserved : Bool
  bad : Bool
  late : Option (List (Site × Nat))
  deriving DecidableEq, Repr

/-! ## Units -/

/-- A line in a core's instruction store: its address, its bits, and the parity of bits 23:0 of its line word as computed when
the line was filled (R13, R47). -/
structure StoredLine where
  base : Nat
  line : Line
  guard : Bool
  deriving DecidableEq, Repr

/-- A core: key is the key under which a core without a weave retains its banks, and leave the key under which the last strand to
leave it by HALT.K left while the core stays with its weave (R111, R364). -/
structure Core where
  wid : Option Nat
  linger : Bool
  key : Option Word
  leave : Option Word
  pinSeg : Option Nat
  quar : Bool
  store : List StoredLine
  acc : Tab Tile
  handlers : Tab Word
  inbox : List InMsg
  ready : List RingEntry
  arrivals : List Shuttle
  shed : List Shuttle
  lq : Tab (List (Word × Bool))
  lqWait : List (Nat × Bool × StrandIx × Word)
  fwd : List FwdPtr
  posted : List Posted
  nextSeq : Nat
  copies : List Nat
  mtlb : List TlbEntry
  loomq : List LoomOp
  cnt : Tab Nat
  heatArr : Nat
  heatShed : Nat
  heatQmax : Nat
  report : Nat
  reported : Nat
  victim : Option Nat
  partLast : Nat
  deriving DecidableEq, Repr

def Core.empty : Core where
  wid := none
  linger := false
  key := none
  leave := none
  pinSeg := none
  quar := false
  store := []
  acc := []
  handlers := []
  inbox := []
  ready := []
  arrivals := []
  shed := []
  lq := []
  lqWait := []
  fwd := []
  posted := []
  nextSeq := 0
  copies := []
  mtlb := []
  loomq := []
  cnt := []
  heatArr := 0
  heatShed := 0
  heatQmax := 0
  report := 0
  reported := 0
  victim := none
  partLast := 0

structure TileUnit where
  desc : List Word
  claims : List Claim
  copyq : List CopyCmd
  tlb : List TlbEntry
  tw : Tab Wired
  deriving DecidableEq, Repr

def TileUnit.empty : TileUnit := ⟨[], [], [], [], []⟩

/-- A table entry in a walk cache (R382): its partition and root, its level with the bits of the virtual address above what the
entry covers, and the entry's physical address and word. -/
structure WalkEntry where
  part : Nat
  root : Nat
  lvl : Nat
  pre : Nat
  pa : Nat
  word : Word
  deriving DecidableEq, Repr

/-- A block's walk cache (R382) and counters (R404). -/
structure Block where
  walkc : List WalkEntry
  cnt : Tab Nat
  deriving DecidableEq, Repr

structure LogRec where
  w0 : Word
  w1 : Word
  w2 : Word
  w3 : Word
  deriving DecidableEq, Repr

structure Die where
  cyc : Word
  log : List LogRec
  seq : BitVec 16
  cnt : Tab Nat
  remaps : Tab Nat
  corrected : Tab Nat
  rdesc : Word × Word × Word
  deriving DecidableEq, Repr

def Die.zero : Die := ⟨0, [], 0, [], [], [], (0, 0, 0)⟩

/-- A partition: its control block as read (R357), whether DBR has started it, the drain (R367) and its overflow area. -/
structure Part where
  on : Bool
  sysvec : Word
  drain : Word
  qtab : Word
  nq : Nat
  ctxr : Word
  ctxs : Word
  ovb : Word
  ovs : Nat
  draining : Option Nat
  overflow : List Shuttle
  area : Nat
  rr : Nat
  rung : Tab Nat
  deriving DecidableEq, Repr

def Part.off : Part := ⟨false, 0, 0, 0, 0, 0, 0, 0, 0, none, [], 0, 0, []⟩

/-- The host register page (R410); trained says that the Bamlas link has trained (R415), and image is the SHA-384 of the firmware image
that runs, which the attestation report gives (R417). -/
structure HostPage where
  form : BitVec 8
  stage : BitVec 8
  fwb : Word
  fwl : Word
  attb : Word
  pkg : BitVec 8
  split : BitVec 2
  pcb : Tab Word
  wlo : Word
  whi : Word
  evb : Word
  evs : Word
  evh : BitVec 32
  evt : BitVec 32
  plim : BitVec 16
  qcfg : Tab Word
  ecnt : Tab Word
  trained : Bool
  image : Nat
  deriving DecidableEq, Repr

/-! ## Launches (R352 to R364) -/

/-- A segment's heddle entry as the device holds it: its eight replica codes and its default carry set (R321). -/
structure Segment where
  codes : List (BitVec 16)
  carry : BitVec 88
  deriving DecidableEq, Repr

/-- A launch's record and the facts the device keeps of its weave. -/
structure Weave where
  wid : Nat
  part : Nat
  root : Nat
  words : List Word
  ext : List Word
  parent : Option Nat
  borrowed : Bool
  lent : Bool
  placed : Bool
  saved : Bool
  stopping : Bool
  cores : List CoreIx
  vb : Nat
  heddle : List Segment
  how : BitVec 8
  code : BitVec 8
  exiting : Bool
  order : Nat
  queue : Nat
  deriving DecidableEq, Repr

/-- A save area (R368), of a whole weave or of one strand that a double fault stopped (R114): its place, what it holds of the device's
own layout, what was on its way within the weave at the save, and the wakes recorded since. -/
structure Save where
  wid : Nat
  addr : Nat
  len : Nat
  whole : Bool
  swapped : Bool
  notify : Bool
  strands : List (Nat × Strand)
  cores : List (Nat × Core)
  bytes : List (Nat × Byte)
  phasers : List Phaser
  members : List Member
  rings : List Ring
  streams : List Stream
  tiles : List (Nat × Tab Wired)
  rows : List (Nat × Tab Wired)
  shuttles : List Shuttle
  poison : List Nat
  relTags : List (Nat × SyncTag)
  msgs : List Msg
  pushes : List Push
  replies : List TagReply
  items : List ItemPkt
  credits : List (Nat × Nat × Nat)
  orphans : List Orphan
  wakes : Nat
  deriving DecidableEq, Repr

/-! ## Faults and refusals of the model -/

/-- An area that holds nothing yet. -/
def Save.blank (wid addr len : Nat) : Save where
  wid := wid
  addr := addr
  len := len
  whole := false
  swapped := false
  notify := false
  strands := []
  cores := []
  bytes := []
  phasers := []
  members := []
  rings := []
  streams := []
  tiles := []
  rows := []
  shuttles := []
  poison := []
  relTags := []
  msgs := []
  pushes := []
  replies := []
  items := []
  credits := []
  orphans := []
  wakes := 0

/-- Why a step stops. An instruction never stops the machine: it takes a next state, with a trap entered where the spec names
one. -/
inductive Fault where
  /-- Raised by step alone, where the agenda names an instruction as a step of the device. Safe: the agenda is the model's
  own, and no machine does this. -/
  | scheduleNotAnEvent
  deriving DecidableEq, Repr

inductive Refusal where
  /-- Raised by an arm of exec whose instruction has no meaning yet. Safe: the machine stops. -/
  | notModelled (mnemonic : String)
  deriving DecidableEq, Repr

/-! ## The state -/

/-- A record of a sync engine (R395): of a phaser, a slot ring or a stream, by weave, block and number, or of a watch table. -/
inductive SyncObj where
  | phaser (wid blk idx : Nat)
  | ring (wid blk idx : Nat)
  | stream (wid blk str : Nat)
  | watch (blk : Nat)
  deriving DecidableEq, Repr

/-- What the world outside does to the machine of itself: a write of the host over its link (R411, R412); an error that arises in
a stored word, or in a line that an instruction store holds or in the store's own parity bit of it (R47); and an error met in an
array other than storage, which is corrected, or, in a sync-engine record or a queued copy command, past correction (R395, R396);
bits are of a code word of 72 (R402). An error past correction in a core's private arrays is CORE_QUARANTINE. -/
inductive Outside where
  | hostWrite (pa : Nat) (bytes : List Byte)
  | upset (u : Upset)
  | lineUpset (core : CoreIx) (ix : Nat) (bit : Fin 513)
  | corrected (array : BitVec 8) (core : CoreIx) (bit : Fin 72)
  | tlbParity (at' : InvTarget) (ix : Nat)
  | syncError (obj : SyncObj) (fatal : Bool) (bit : Fin 72)
  | copyError (tile ix : Nat) (fatal : Bool) (bit : Fin 72)
  | flitResend (die block port : Nat)
  deriving DecidableEq, Repr

/-- Whose turn a step is: a strand slot's, a step of the device or the host (R8), or the outside world's. -/
inductive Who where
  | strand (k : StrandIx)
  | event (i : Instr)
  | outside (o : Outside)
  deriving DecidableEq, Repr

/-- A turn, and the die cycles that pass with it: dt on every die, but where skew lists the cycles of dies 0, 1, … one by one, since
the dies' clocks are their own (R23). -/
structure Turn where
  who : Who
  dt : Nat
  skew : List Nat := []
  deriving DecidableEq, Repr

/-- What is in flight between units. -/
structure Net where
  reqs : List NetReq
  replies : List Reply
  tagReplies : List TagReply
  checks : List TagCheck
  acks : List Ack
  reds : List RedPkt
  wakes : List Wake
  walks : List Walk
  pageins : List PageIn
  invals : List Inval
  msgs : List Msg
  pushes : List Push
  shuttles : List Shuttle
  items : List ItemPkt
  credits : List (Nat × Nat × Nat)
  orphans : List Orphan
  flash : List (Nat × Nat × Nat × Nat)
  nextId : Nat
  deriving DecidableEq, Repr

def Net.empty : Net := ⟨[], [], [], [], [], [], [], [], [], [], [], [], [], [], [], [], [], 0⟩

structure State where
  /-- The strand whose turn it is; the model's own, like the next five fields. -/
  cur : StrandIx
  /-- The record of strand slot cur. -/
  me : Strand
  /-- The current instruction's addresses. -/
  iss : Issue
  /-- Turns to come; with none left, strand cur goes on, a cycle at a time. -/
  agenda : List Turn
  /-- Whether a blocking access is performed and answered within the step that issues it. -/
  prompt : Bool
  /-- How many free values have been drawn. -/
  freeCtr : Nat
  /-- Every other strand slot. -/
  strands : Tab Strand
  cores : Tab Core
  tiles : Tab TileUnit
  /-- Loom rows' wired phasers rw1 to rw3, by die, core row and block column. -/
  rows : Tab (Tab Wired)
  blocks : Tab Block
  dies : Tab Die
  parts : Tab Part
  /-- Main memory, host memory, local memories, vaults and flash by storage key. -/
  mem : Memory
  /-- Words whose code word is uncorrectable, by storage key of their first byte (R397). -/
  poison : List Nat
  upsets : List Upset
  exact : Tab ExactAcc
  relTags : List (Nat × SyncTag)
  net : Net
  gangs : List GangReq
  phasers : List Phaser
  members : List Member
  rings : List Ring
  streams : List Stream
  weaves : List Weave
  saves : List Save
  nextWid : Nat
  order : Nat
  host : HostPage
  /-- Operating points of the islands 0 to 39 (R418), and the islands whose change is under way. -/
  points : Tab Nat
  pointMoves : List (Nat × Nat)
  /-- Links and ports marked failed (R400): die, block, port. -/
  failed : List (Nat × Nat × Nat)
  /-- Completion slots by root: when each was last completed (R384). -/
  slots : List (Nat × Nat × Nat)
  /-- Frames the Ethernet ports have sent, as port and bytes, in order (R423). -/
  sent : List (Nat × List Byte)
  /-- Good frames that wait in an Ethernet port's buffer, as port, queue and bytes, in the order they came (R423). -/
  framesIn : List (Nat × Nat × List Byte)
  deriving DecidableEq, Repr

/-- The register page after device reset (R410). FORM has no reset value in the spec and reads 2 here, with PLIM to match. -/
def HostPage.reset : HostPage where
  form := 2
  stage := 0
  fwb := 0
  fwl := 0
  attb := 0
  pkg := 0
  split := 0
  pcb := []
  wlo := 0
  whi := 0
  evb := 0
  evs := 0
  evh := 0
  evt := 0
  plim := 4000
  qcfg := []
  ecnt := []
  trained := false
  image := 0

/-- The machine right after device reset (R415): stage 0, every port and core idle, no strand in any slot. -/
def State.reset : State where
  cur := 0
  me := Strand.empty
  iss := ⟨0, 0, 0, 0⟩
  agenda := []
  prompt := true
  freeCtr := 0
  strands := []
  cores := []
  tiles := []
  rows := []
  blocks := []
  dies := []
  parts := []
  mem := []
  poison := []
  upsets := []
  exact := []
  relTags := []
  net := Net.empty
  gangs := []
  phasers := []
  members := []
  rings := []
  streams := []
  weaves := []
  saves := []
  nextWid := 1
  order := 0
  host := HostPage.reset
  points := []
  pointMoves := []
  failed := []
  slots := []
  sent := []
  framesIn := []

end Sys2Proof.Machine
end

