-- ==== Sys2Proof/Machine/Memory.lean ====
section
/-! DEFINITION. Storage: one sorted list of bytes by storage key, an unlisted key reading zero, with the key ranges of main
memory and host memory, local memories, vaults and flash pages (R172, R176, R177, R384). -/

namespace Sys2Proof.Machine

/-- What a byte reads as. A byte nothing has written reads zero. -/
def Memory.read : Memory → Nat → Byte
  | [], _ => 0
  | (j, b) :: r, k => if j = k then b else if k < j then 0 else Memory.read r k

/-- Writes one byte and keeps the canonical form: a zero is not listed. -/
def Memory.write : Memory → Nat → Byte → Memory
  | [], k, b => if b = 0 then [] else [(k, b)]
  | (j, c) :: r, k, b =>
    if k = j then (if b = 0 then r else (k, b) :: r)
    else if k < j then (if b = 0 then (j, c) :: r else (k, b) :: (j, c) :: r)
    else (j, c) :: Memory.write r k b

/-- Every key of a list lies above k. -/
def Memory.above (k : Nat) : Memory → Bool
  | [] => true
  | (j, _) :: _ => decide (k < j)

/-- Keys strictly rising and no zero listed. -/
def Memory.wf : Memory → Bool
  | [] => true
  | (k, b) :: r => b != 0 && Memory.above k r && Memory.wf r

def Memory.writeAll (m : Memory) (bs : List (Nat × Byte)) : Memory := bs.foldl (fun m (k, b) => m.write k b) m

/-- Little-endian value of bytes (R3). -/
def ofBytes : List Byte → Nat
  | [] => 0
  | b :: r => b.toNat + 256 * ofBytes r

/-- The n bytes of a value, lowest first (R3). -/
def toBytes : Nat → Nat → List Byte
  | 0, _ => []
  | n + 1, x => BitVec.ofNat 8 x :: toBytes n (x / 256)

/-- The keys k, k + 1, … of n bytes. -/
def keysFrom (k n : Nat) : List Nat := (List.range n).map (k + ·)

def Memory.value (m : Memory) (keys : List Nat) : Nat := ofBytes (keys.map m.read)

/-! ## Key ranges -/

/-- The first physical address of host memory (R177). -/
def hostBase : Nat := 2 ^ 40

def localKey (c : CoreIx) (off : Nat) : Nat := 2 ^ 64 + c * 2 ^ 24 + off
def vaultKey (blk off : Nat) : Nat := 2 ^ 65 + blk * 2 ^ 24 + off
def flashKey (page off : Nat) : Nat := 2 ^ 66 + page * 8192 + off

/-- The core whose local memory a key lies in, and the offset. -/
def localOf (k : Nat) : Option (CoreIx × Nat) :=
  if 2 ^ 64 ≤ k ∧ k < 2 ^ 65 then some ((k - 2 ^ 64) / 2 ^ 24, k % 2 ^ 24) else none

def vaultOf (k : Nat) : Option (Nat × Nat) :=
  if 2 ^ 65 ≤ k ∧ k < 2 ^ 66 then some ((k - 2 ^ 65) / 2 ^ 24, k % 2 ^ 24) else none

/-- Local memory per core and vault per block, in bytes (R172, R176). -/
def localSize : Nat := 96 * 1024
def vaultSize : Nat := 4 * 1024 * 1024

end Sys2Proof.Machine
end

