-- ==== Sys2Proof/Machine/Num.lean ====
section
/-! DEFINITION. Exact arithmetic and its one rounding: integer formats, the five floating-point formats, the 4-bit family, and
the sums the units form (R74 to R98). Every operation computes on unbounded integers and narrows once at the end, so carry,
overflow and inexactness are comparisons between the exact result and the narrowed one. -/

namespace Sys2Proof.Num

/-! ## Sticky flags as a set (R92): bit k is bit k of %flags. -/

abbrev Flags := BitVec 9

def nv : Flags := 0x001
def dz : Flags := 0x002
def ovf : Flags := 0x004
def unf : Flags := 0x008
def nx : Flags := 0x010
def iv : Flags := 0x020
def sat : Flags := 0x040
def ola : Flags := 0x080
def scm : Flags := 0x100

def flagIf (c : Bool) (f : Flags) : Flags := if c then f else 0

/-! ## The stochastic generator (R36) -/

def srgStep (x : BitVec 32) : BitVec 32 :=
  let a := x ^^^ (x <<< 13)
  let b := a ^^^ (a >>> 17)
  b ^^^ (b <<< 5)

/-- One generator step where the mode is 5: the state after it and the number it returns. -/
def draw (mode : RMode) (srg : BitVec 32) : BitVec 32 × Nat :=
  if mode = .stochastic then (srgStep srg, (srgStep srg).toNat) else (srg, 0)

/-! ## Integers (R74, R75) -/

/-- An element or register operand read at its width: signed for an i type, unsigned otherwise. -/
def readInt (signed : Bool) (w : Nat) (x : Nat) : Int :=
  let y := x % 2 ^ w
  if signed && decide (2 ^ (w - 1) ≤ y) then (y : Int) - 2 ^ w else y

def intMin (signed : Bool) (w : Nat) : Int := if signed then -(2 ^ (w - 1)) else 0
def intMax (signed : Bool) (w : Nat) : Int := if signed then 2 ^ (w - 1) - 1 else 2 ^ w - 1

def inRange (signed : Bool) (w : Nat) (x : Int) : Bool := decide (intMin signed w ≤ x) && decide (x ≤ intMax signed w)

/-- The low w bits of an exact integer. -/
def lowBits (w : Nat) (x : Int) : Nat := (x % 2 ^ w).toNat

/-- Wrapping arithmetic keeps the low w bits and sets IV out of range (R75). -/
def wrap (signed : Bool) (w : Nat) (x : Int) : Nat × Flags := (lowBits w x, flagIf (!inRange signed w x) iv)

/-- Sat(x, type): clamps, and sets SAT if it clamps (R42, R75). -/
def saturate (signed : Bool) (w : Nat) (x : Int) : Nat × Flags :=
  if x < intMin signed w then (lowBits w (intMin signed w), sat)
  else if intMax signed w < x then (lowBits w (intMax signed w), sat)
  else (lowBits w x, 0)

def narrow (satForm signed : Bool) (w : Nat) (x : Int) : Nat × Flags :=
  if satForm then saturate signed w x else wrap signed w x

/-- Integer division (R75). -/
def divInt (signed : Bool) (w : Nat) (a b : Int) : Nat × Flags :=
  if b = 0 then (0, dz) else wrap signed w (a.tdiv b)

def remInt (w : Nat) (a b : Int) : Nat × Flags :=
  if b = 0 then (lowBits w a, dz) else (lowBits w (a.tmod b), 0)

/-- The count of leading zeros of a w-bit pattern (R104). -/
def clz : Nat → Nat → Nat
  | 0, _ => 0
  | w + 1, x => if x.testBit w then 0 else 1 + clz w x

/-- The count of ones in a w-bit pattern (R104). -/
def popc : Nat → Nat → Nat
  | 0, _ => 0
  | w + 1, x => x % 2 + popc w (x / 2)

/-! ## Floating-point formats (R76) -/

inductive Fmt where
  | f32 | f16 | bf16 | e5m2 | e4m3
  deriving DecidableEq, Repr

namespace Fmt

def width : Fmt → Nat
  | .f32 => 32 | .f16 | .bf16 => 16 | .e5m2 | .e4m3 => 8

/-- Fraction bits. -/
def frac : Fmt → Nat
  | .f32 => 23 | .f16 => 10 | .bf16 => 7 | .e5m2 => 2 | .e4m3 => 3

def bias : Fmt → Nat
  | .f32 | .bf16 => 127 | .f16 | .e5m2 => 15 | .e4m3 => 7

/-- Precision in bits. -/
def prec (f : Fmt) : Nat := f.frac + 1

/-- The exponent of the smallest normal number. -/
def emin (f : Fmt) : Int := 1 - f.bias

/-- The exponent of the unit of the smallest subnormal. -/
def qmin (f : Fmt) : Int := f.emin - f.frac

def hasInf (f : Fmt) : Bool := f != .e4m3

/-- The code of ∞, or, for e4m3, one above its largest finite code. -/
def infCode (f : Fmt) : Nat := if f.hasInf then (2 ^ (f.width - 1 - f.frac) - 1) * 2 ^ f.frac else 0x7F

/-- The code of the largest finite magnitude. -/
def maxCode (f : Fmt) : Nat := f.infCode - 1

/-- The canonical NaN (R78). -/
def nan : Fmt → Nat
  | .f32 => 0x7FC00000 | .f16 => 0x7E00 | .bf16 => 0x7FC0 | .e5m2 => 0x7E | .e4m3 => 0x7F

def signBit (f : Fmt) : Nat := 2 ^ (f.width - 1)

end Fmt

/-- The format a float type code names. -/
def fmtOf : Ty → Fmt
  | .f16 => .f16 | .bf16 => .bf16 | .e5m2 => .e5m2 | .e4m3 => .e4m3 | _ => .f32

/-- A decoded value: a finite one is ±m × 2^e. -/
inductive Val where
  | nan (signalling : Bool)
  | inf (neg : Bool)
  | fin (neg : Bool) (m : Nat) (e : Int)
  deriving DecidableEq, Repr

namespace Val

def isNan : Val → Bool
  | .nan _ => true
  | _ => false
def isSig : Val → Bool
  | .nan s => s
  | _ => false
def isInf : Val → Bool
  | .inf _ => true
  | _ => false
def isZero : Val → Bool
  | .fin _ 0 _ => true
  | _ => false
def neg? : Val → Bool
  | .nan _ => false
  | .inf n => n
  | .fin n _ _ => n
def negate : Val → Val
  | .nan s => .nan s
  | .inf n => .inf (!n)
  | .fin n m e => .fin (!n) m e

end Val

/-- The value a code stands for (R76, R78). -/
def decode (f : Fmt) (x : Nat) : Val :=
  let c := x % 2 ^ f.width
  let neg := decide (f.signBit ≤ c)
  let mag := c % f.signBit
  if mag = f.infCode ∧ f.hasInf then .inf neg
  else if f.infCode ≤ mag then .nan (f.hasInf && !(mag.testBit (f.frac - 1)))
  else if mag < 2 ^ f.frac then .fin neg mag f.qmin
  else .fin neg (2 ^ f.frac + mag % 2 ^ f.frac) (f.qmin + (mag / 2 ^ f.frac : Nat) - 1)

def withSign (f : Fmt) (neg : Bool) (mag : Nat) : Nat := if neg then f.signBit + mag else mag

def zeroCode (f : Fmt) (neg : Bool) : Nat := withSign f neg 0
def infOf (f : Fmt) (neg : Bool) : Nat := withSign f neg f.infCode

/-- A result before rounding: ±m × 2^e exactly, or, where rest is set, strictly between m and m + 1 times 2^e. -/
structure Exact where
  neg : Bool
  m : Nat
  e : Int
  rest : Bool := false
  deriving DecidableEq, Repr

def bitLen (m : Nat) : Nat := if m = 0 then 0 else Nat.log2 m + 1

/-- Whether a discarded part of r ÷ 2^sh, with something beyond it where rest is set, rounds the magnitude n up (R79,
R81). -/
def roundsUp (mode : RMode) (u : Nat) (neg : Bool) (n r sh : Nat) (rest : Bool) : Bool :=
  let half := 2 ^ sh / 2
  let inexact := r != 0 || rest
  match mode with
  | .nearestEven => decide (half < r) || (decide (r = half) && (rest || n.testBit 0))
  | .zero => false
  | .up => !neg && inexact
  | .down => neg && inexact
  | .nearestAway => decide (half ≤ r)
  | .stochastic =>
    let f := r * 2 ^ 32 / 2 ^ sh
    decide (u < f) || (decide (u = f) && (r * 2 ^ 32 % 2 ^ sh != 0 || rest))

/-- The exact result as a multiple of 2^q: the rounded multiple, and whether it differs from the exact result. A nonzero
rest needs q above e, which every caller's precision gives. -/
def roundAt (mode : RMode) (u : Nat) (x : Exact) (q : Int) : Nat × Bool :=
  if q ≤ x.e then (x.m * 2 ^ (x.e - q).toNat, x.rest)
  else
    let sh := (q - x.e).toNat
    let n := x.m / 2 ^ sh
    let r := x.m % 2 ^ sh
    (if roundsUp mode u x.neg n r sh x.rest then n + 1 else n, r != 0 || x.rest)

/-- Whether an overflow of the sign gives the largest finite value and not ∞ (R80). -/
def overflowStays (mode : RMode) (neg : Bool) : Bool :=
  match mode with
  | .zero => true
  | .up => neg
  | .down => !neg
  | _ => false

/-- RoundTo of an exact value (R79, R80). An exact zero keeps the sign its caller gave it. -/
def roundTo (f : Fmt) (mode : RMode) (u : Nat) (x : Exact) : Nat × Flags :=
  if x.m = 0 ∧ !x.rest then (zeroCode f x.neg, 0)
  else
    let top : Int := (bitLen x.m : Int) + x.e
    let q := max (top - f.prec) f.qmin
    let (n, inexact) := roundAt mode u x q
    let code := (q - f.qmin).toNat * 2 ^ f.frac + n
    if f.maxCode < code then
      if f.hasInf then (if overflowStays mode x.neg then withSign f x.neg f.maxCode else infOf f x.neg, ovf ||| nx)
      else (withSign f x.neg f.maxCode, sat ||| nx)
    else
      let free := roundAt mode u x (top - f.prec)
      let tiny := decide (top < f.emin) || (decide (top = f.emin) && decide (free.1 < 2 ^ f.prec))
      (withSign f x.neg code, flagIf inexact nx ||| flagIf (tiny && inexact) unf)

/-! ## Exact sums and products -/

/-- ±m × 2^e at exponent b ≤ e, as an integer. -/
def atExp (b : Int) (neg : Bool) (m : Nat) (e : Int) : Int :=
  let k : Int := (m : Int) * 2 ^ (e - b).toNat
  if neg then -k else k

def finTerms : List Val → List (Bool × Nat × Int)
  | [] => []
  | .fin n m e :: r => (n, m, e) :: finTerms r
  | _ :: r => finTerms r

def minExp : List (Bool × Nat × Int) → Int
  | [] => 0
  | [(_, _, e)] => e
  | (_, _, e) :: r => min e (minExp r)

/-- The exact sum of finite terms, with the zero signs of R80: zeros of one sign keep it; any other exact zero is +0, or −0
in mode 3. -/
def sumExact (mode : RMode) (ts : List (Bool × Nat × Int)) : Exact :=
  let b := minExp ts
  let s : Int := ts.foldl (fun a (n, m, e) => a + atExp b n m e) 0
  if s = 0 then
    let allZero := ts.all fun (_, m, _) => m == 0
    let neg :=
      if allZero && ts.all (fun (n, _, _) => n) then !ts.isEmpty
      else if allZero && ts.all (fun (n, _, _) => !n) then false
      else decide (mode = .down)
    ⟨neg, 0, 0, false⟩
  else ⟨decide (s < 0), s.natAbs, b, false⟩

/-- A product term: its value, and whether it is 0 × ∞. -/
def mulVal (a b : Val) : Val × Bool :=
  match a, b with
  | .nan s, y => (.nan (s || y.isSig), false)
  | x, .nan s => (.nan (s || x.isSig), false)
  | .inf n, y => if y.isZero then (.nan false, true) else (.inf (n != y.neg?), false)
  | x, .inf n => if x.isZero then (.nan false, true) else (.inf (n != x.neg?), false)
  | .fin n m e, .fin n' m' e' => (.fin (n != n') (m * m') (e + e'), false)

/-- A sum of terms rounded once, NaN and infinity first (R78, R80, R92). invalid says that a product was 0 × ∞. -/
def sumVals (f : Fmt) (mode : RMode) (u : Nat) (invalid : Bool) (ts : List Val) : Nat × Flags :=
  let pos := ts.any fun t => t == .inf false
  let neg := ts.any fun t => t == .inf true
  let bad := invalid || (pos && neg) || ts.any Val.isSig
  if ts.any Val.isNan || (pos && neg) then (f.nan, flagIf bad nv)
  else if pos || neg then (infOf f neg, 0)
  else roundTo f mode u (sumExact mode (finTerms ts))

/-- a + b. -/
def fadd (f : Fmt) (mode : RMode) (u : Nat) (a b : Val) : Nat × Flags := sumVals f mode u false [a, b]

/-- RoundTo of a value that is not a sum: a NaN becomes canonical, ±∞ passes. -/
def roundVal (f : Fmt) (mode : RMode) (u : Nat) (v : Val) (invalid : Bool) : Nat × Flags :=
  match v with
  | .nan s => (f.nan, flagIf (s || invalid) nv)
  | .inf n => (infOf f n, 0)
  | .fin n m e => roundTo f mode u ⟨n, m, e, false⟩

def fmul (f : Fmt) (mode : RMode) (u : Nat) (a b : Val) : Nat × Flags :=
  let (p, bad) := mulVal a b
  roundVal f mode u p bad

/-- a × b + c rounded once; with negate, c − a × b (R125). -/
def ffma (f : Fmt) (mode : RMode) (u : Nat) (negate : Bool) (a b c : Val) : Nat × Flags :=
  let (p, bad) := mulVal a b
  sumVals f mode u bad [if negate then p.negate else p, c]

/-- Extra bits a quotient or root carries below its precision, enough for every mode's decision. -/
def guardBits : Nat := 96

/-- a ÷ b (R100). -/
def fdiv (f : Fmt) (mode : RMode) (u : Nat) (a b : Val) : Nat × Flags :=
  if a.isNan || b.isNan then (f.nan, flagIf (a.isSig || b.isSig) nv)
  else
    let neg := a.neg? != b.neg?
    match a, b with
    | .inf _, .inf _ => (f.nan, nv)
    | .inf _, _ => (infOf f neg, 0)
    | _, .inf _ => (zeroCode f neg, 0)
    | .fin _ m e, .fin _ m' e' =>
      if m' = 0 then (if m = 0 then (f.nan, nv) else (infOf f neg, dz))
      else if m = 0 then (zeroCode f neg, 0)
      else
        let k := bitLen m' + guardBits
        let n := m * 2 ^ k
        roundTo f mode u ⟨neg, n / m', e - e' - k, n % m' != 0⟩
    | _, _ => (f.nan, 0)

/-- The integer square root, bit by bit from 2^k down. -/
def isqrtFrom (x : Nat) : Nat → Nat → Nat
  | 0, r => if (r + 1) * (r + 1) ≤ x then r + 1 else r
  | k + 1, r =>
    let c := r + 2 ^ (k + 1)
    isqrtFrom x k (if c * c ≤ x then c else r)

def isqrt (x : Nat) : Nat := isqrtFrom x (bitLen x / 2 + 1) 0

/-- m × 2^e as m' × 2^(2h). -/
def evenExp (m : Nat) (e : Int) : Nat × Int := if e % 2 = 0 then (m, e / 2) else (2 * m, (e - 1) / 2)

/-- √a (R125). -/
def fsqrt (f : Fmt) (mode : RMode) (u : Nat) (a : Val) : Nat × Flags :=
  match a with
  | .nan s => (f.nan, flagIf s nv)
  | .inf true => (f.nan, nv)
  | .inf false => (infOf f false, 0)
  | .fin n 0 _ => (zeroCode f n, 0)
  | .fin true _ _ => (f.nan, nv)
  | .fin false m e =>
    let (m', h) := evenExp m e
    let x := m' * 2 ^ (2 * guardBits)
    let r := isqrt x
    roundTo f mode u ⟨false, r, h - guardBits, r * r != x⟩

/-- 1 ÷ √a (R125). -/
def frsqrt (f : Fmt) (mode : RMode) (u : Nat) (a : Val) : Nat × Flags :=
  match a with
  | .nan s => (f.nan, flagIf s nv)
  | .inf true => (f.nan, nv)
  | .inf false => (zeroCode f false, 0)
  | .fin n 0 _ => (infOf f n, dz)
  | .fin true _ _ => (f.nan, nv)
  | .fin false m e =>
    let (m', h) := evenExp m e
    let k := bitLen m' + guardBits
    let x := 2 ^ (2 * k)
    let r := isqrt (x / m')
    roundTo f mode u ⟨false, r, -h - k, r * r * m' != x⟩

/-- ⌊ln 2 × 2^256⌋, for the fraction of 2^a. -/
def ln2Fixed : Nat :=
  0xB17217F7D1CF79ABC9E3B39803F2F6AF40F343267298B62D8A0D175B8BAAFA2B

/-- Terms of the exponential series at 256 bits: the sum from term k on, with j terms left. -/
def expSeries (z : Nat) : Nat → Nat → Nat → Nat
  | 0, _, _ => 0
  | j + 1, k, t => t + expSeries z j (k + 1) (t * z / 2 ^ 256 / (k + 1))

/-- 2^(m × 2^e) for a fraction below 1, as a multiple of 2^-128 rounded down. -/
def exp2Frac (m : Nat) (sh : Nat) : Nat :=
  let z := m * ln2Fixed / 2 ^ sh
  expSeries z 70 0 (2 ^ 256) / 2 ^ 128

/-- 2^a (R125). An argument beyond ±2^12 is far past every format's range and is replaced by that bound. -/
def fexp2 (f : Fmt) (mode : RMode) (u : Nat) (a : Val) : Nat × Flags :=
  match a with
  | .nan s => (f.nan, flagIf s nv)
  | .inf true => (zeroCode f false, 0)
  | .inf false => (infOf f false, 0)
  | .fin n m e =>
    if m = 0 then roundTo f mode u ⟨false, 1, 0, false⟩
    else if 12 < (bitLen m : Int) + e then roundTo f mode u ⟨false, 1, if n then -4096 else 4096, false⟩
    else if 0 ≤ e then
      let k : Int := (m * 2 ^ e.toNat : Nat)
      roundTo f mode u ⟨false, 1, if n then -k else k, false⟩
    else
      let sh := (-e).toNat
      let ip : Int := (m / 2 ^ sh : Nat)
      let fr := m % 2 ^ sh
      if fr = 0 then roundTo f mode u ⟨false, 1, if n then -ip else ip, false⟩
      else if n then roundTo f mode u ⟨false, exp2Frac (2 ^ sh - fr) sh, -ip - 1 - 128, true⟩
      else roundTo f mode u ⟨false, exp2Frac fr sh, ip - 128, true⟩

/-! ## Comparison, minimum and maximum (R78, R103) -/

/-- Order of two finite or infinite values: −1, 0 or 1; +0 and −0 are equal. -/
def cmpFin (a b : Val) : Int :=
  let key : Val → Int
    | .inf n => if n then -1 else 1
    | _ => 0
  if key a ≠ key b then (key a - key b).sign
  else
    match a, b with
    | .fin n m e, .fin n' m' e' =>
      let q := min e e'
      (atExp q n m e - atExp q n' m' e').sign
    | _, _ => 0

/-- The condition of R103 on floats, and NV for a signalling NaN. -/
def fcmp (c : Cond) (a b : Val) : Bool × Flags :=
  let fl := flagIf (a.isSig || b.isSig) nv
  if a.isNan || b.isNan then (decide (c = .ne) || decide (c = .un), fl)
  else
    let d := cmpFin a b
    (match c with
      | .eq => decide (d = 0) | .ne => decide (d ≠ 0) | .lt => decide (d < 0) | .le => decide (d ≤ 0)
      | .gt => decide (0 < d) | .ge => decide (0 ≤ d) | .un => false, fl)

def icmp (c : Cond) (a b : Int) : Bool :=
  match c with
  | .eq => decide (a = b) | .ne => decide (a ≠ b) | .lt => decide (a < b) | .le => decide (a ≤ b)
  | .gt => decide (b < a) | .ge => decide (b ≤ a) | .un => false

/-- Whether a orders at or below b with −0 below +0 (R78). -/
def fle (a b : Val) : Bool :=
  let d := cmpFin a b
  decide (d < 0) || (decide (d = 0) && (a.neg? || !b.neg?))

/-- min and max of two codes (R78). -/
def fminmax (mx : Bool) (f : Fmt) (a b : Nat) : Nat × Flags :=
  let x := decode f a
  let y := decode f b
  let fl := flagIf (x.isSig || y.isSig) nv
  if x.isNan && y.isNan then (f.nan, fl)
  else if x.isNan then (b, fl)
  else if y.isNan then (a, fl)
  else (if fle x y = !mx then a else b, fl)

/-! ## Conversions (R82, R83) -/

/-- Float to float (R82). -/
def cvtFloat (dst : Fmt) (mode : RMode) (u : Nat) (v : Val) : Nat × Flags :=
  match v with
  | .inf n => if dst.hasInf then (infOf dst n, 0) else (withSign dst n dst.maxCode, sat ||| nx)
  | v => roundVal dst mode u v false

/-- Float to integer (R83). -/
def cvtToInt (signed : Bool) (w : Nat) (mode : RMode) (u : Nat) (v : Val) : Nat × Flags :=
  match v with
  | .nan _ => (0, nv)
  | .inf n => (lowBits w (if n then intMin signed w else intMax signed w), nv)
  | .fin n m e =>
    let (k, inexact) := roundAt mode u ⟨n, m, e, false⟩ 0
    let x : Int := if n then -(k : Int) else k
    if inRange signed w x then (lowBits w x, flagIf inexact nx)
    else (lowBits w (if x < intMin signed w then intMin signed w else intMax signed w), nv)

/-- Integer to float: RoundTo (R83). Zero is +0. -/
def cvtFromInt (dst : Fmt) (mode : RMode) (u : Nat) (x : Int) : Nat × Flags :=
  roundTo dst mode u ⟨decide (x < 0), x.natAbs, 0, false⟩

/-! ## The 4-bit family (R84 to R87) -/

/-- TYPE of a scale byte. -/
def scaleType (sb : BitVec 8) : Nat := sb.toNat / 64
/-- The exponent EXP − 32 of a scale byte. -/
def scaleExp (sb : BitVec 8) : Int := (sb.toNat % 64 : Nat) - 32

/-- Magnitudes in eighths by index, the continuation value last (R85, R87). -/
def mags4 (type : Nat) (neg : Bool) : List Nat :=
  match type with
  | 0 => [0, 8, 16, 24, 32, 40, 48, 56, 64] ++ (if neg then [72] else [])
  | 1 => [0, 4, 8, 12, 16, 24, 32, 48, 64]
  | 2 => [0, 1, 2, 4, 8, 16, 32, 64, 128]
  | _ => [0, 8, 16, 24, 32, 48, 64, 96, 128]

/-- A code from its sign and magnitude index (R85). -/
def code4 (type : Nat) (neg : Bool) (k : Nat) : Nat :=
  if type = 0 then (if neg then (16 - k) % 16 else k) else if neg then 8 + k else k

/-- The decoded value of a code under a scale byte (R85, R86). -/
def decode4 (sb : BitVec 8) (code : Nat) : Val :=
  let t := scaleType sb
  let e := scaleExp sb - 3
  if t = 0 then
    let x := readInt true 4 code
    .fin (decide (x < 0)) (8 * x.natAbs) e
  else .fin (code.testBit 3) ((mags4 t false).getD (code % 8) 0) e

/-- The index of the largest candidate at or below a magnitude. -/
def floorIx (x : Nat) : List Nat → Nat → Nat → Nat
  | [], _, best => best
  | c :: cs, k, best => floorIx x cs (k + 1) (if c ≤ x then k else best)

/-- One element of the 4-bit family rounded under a scale exponent (R87, steps 3 to 6). A nonzero negative element of a sign-magnitude
type that rounds to zero keeps its sign, 0x8, which is the model's choice (log entry 121). -/
def encode4 (type : Nat) (exp : Int) (mode : RMode) (u : Nat) (v : Val) : Nat × Flags :=
  match v with
  | .nan _ => (0, nv)
  | .inf n => (code4 type n ((mags4 type n).length - 2), sat ||| nx)
  | .fin n m e =>
    if m = 0 then (code4 type n 0, 0)
    else
      let ms := mags4 type n
      let last := ms.length - 1
      let d := e - exp + 3
      let x := m * 2 ^ d.toNat
      let cs := ms.map (· * 2 ^ (-d).toNat)
      let k := floorIx x cs 0 0
      let lo := cs.getD k 0
      let inexact := x != lo
      let k' :=
        if !inexact || k = last then k
        else
          let gap := cs.getD (k + 1) 0 - lo
          let r := x - lo
          let up :=
            match mode with
            | .nearestEven => decide (gap < 2 * r) || (decide (2 * r = gap) && decide (k % 2 = 1))
            | .zero => false
            | .up => !n
            | .down => n
            | .nearestAway => decide (gap ≤ 2 * r)
            | .stochastic => decide (u * gap < r * 2 ^ 32)
          if up then k + 1 else k
      if k' = last then (code4 type n (last - 1), sat ||| nx)
      else (code4 type n k', flagIf inexact nx)

/-- Vmax of a type (R87). -/
def vmax4 (type : Nat) : Nat :=
  match type with
  | 0 => 7 | 1 => 6 | 2 => 8 | _ => 12

/-- m × 2^e ≤ v × 2^k. -/
def leScaled (m : Nat) (e : Int) (v : Nat) (k : Int) : Bool :=
  decide (m * 2 ^ (e - k).toNat ≤ v * 2 ^ (k - e).toNat)

/-- EXP for a block (R87, steps 1 and 2): the smallest for which every finite magnitude fits, or 63. -/
def blockExp (vmax : Nat) (vs : List Val) : Nat :=
  let fits (k : Nat) : Bool := vs.all fun v =>
    match v with
    | .fin _ m e => leScaled m e vmax ((k : Int) - 32)
    | _ => true
  ((List.range 64).find? fits).getD 63

/-! ## Tree reduction (R96) -/

/-- Adds the upper half of an active-lane list onto the lower one, element by element in ascending order. -/
def treeLevel {σ α : Type} (op : σ → α → α → σ × α) : σ → List (Option α) → List (Option α) → σ × List (Option α)
  | st, some x :: xs, some y :: ys =>
    let (st, z) := op st x y
    let (st, r) := treeLevel op st xs ys
    (st, some z :: r)
  | st, none :: xs, y :: ys =>
    let (st, r) := treeLevel op st xs ys
    (st, y :: r)
  | st, x :: xs, none :: ys =>
    let (st, r) := treeLevel op st xs ys
    (st, x :: r)
  | st, xs, [] => (st, xs)
  | st, [], _ => (st, [])

/-- The fixed pairwise tree over a list of 2^k lanes. -/
def treeReduce {σ α : Type} (op : σ → α → α → σ × α) : Nat → σ → List (Option α) → σ × Option α
  | 0, st, xs => (st, xs.headD none)
  | k + 1, st, xs =>
    let h := xs.length / 2
    let (st, ys) := treeLevel op st (xs.take h) (xs.drop h)
    treeReduce op k st ys

end Sys2Proof.Num
end

