-- ==== Sys2Proof/Machine/Operands.lean ====
section
/-! DEFINITION. The one home of every register read and write, of the numbering of units, and of the operand forms:
immediates, addresses, vector elements and lane selection (R12, R25, R26, R54, R99, R115, R124). -/

namespace Sys2Proof.Machine

/-! ## Units by number (R11, R12) -/

def coresPerDie : Nat := 10240
def coreAt (die row col : Nat) : CoreIx := die * coresPerDie + row * 160 + col
def dieOf (c : CoreIx) : Nat := c / coresPerDie
def rowOf (c : CoreIx) : Nat := c % coresPerDie / 160
def colOf (c : CoreIx) : Nat := c % 160
/-- A tile's and a block's number in the package: die × 640 + tile, die × 160 + block. -/
def tileOf (c : CoreIx) : Nat := dieOf c * 640 + rowOf c / 4 * 40 + colOf c / 4
def blockOf (c : CoreIx) : Nat := dieOf c * 160 + rowOf c / 8 * 20 + colOf c / 8
/-- A core's number within its tile, and its loom position. -/
def memberOf (c : CoreIx) : Nat := rowOf c % 4 * 4 + colOf c % 4
def loomPos (c : CoreIx) : Nat := colOf c % 8
/-- A loom: a core row of a block. -/
def loomOf (c : CoreIx) : Nat := (dieOf c * 64 + rowOf c) * 20 + colOf c / 8
/-- The core that is member m of a tile. -/
def tileCore (t m : Nat) : CoreIx := coreAt (t / 640) (t % 640 / 40 * 4 + m / 4) (t % 40 * 4 + m % 4)
def tileBlock (t : Nat) : Nat := blockOf (tileCore t 0)
/-- The first core of a block. -/
def blockCore (b : Nat) : CoreIx := coreAt (b / 160) (b % 160 / 20 * 8) (b % 20 * 8)
/-- The core at position p of the loom of core c. -/
def loomCore (c : CoreIx) (p : Nat) : CoreIx := c - loomPos c + p
def coreOf (k : StrandIx) : CoreIx := k / 8
def slotOf (k : StrandIx) : Nat := k % 8
def strandAt (c : CoreIx) (slot : Nat) : StrandIx := c * 8 + slot

/-! ## The strand's registers -/

namespace Strand

/-- SYS and WT of %flags (R31). -/
def sys (x : Strand) : Bool := x.flags.getLsbD 63
def wt (x : Strand) : Bool := x.flags.getLsbD 62
/-- ORIGIN and GEN of %weave (R39). -/
def origin (x : Strand) : Nat := (x.weave.extractLsb' 21 2).toNat
def gen (x : Strand) : BitVec 8 := x.weave.extractLsb' 8 8
def wid (x : Strand) : Nat := (x.weave.extractLsb' 32 32).toNat
def accDecl (x : Strand) : Nat := (x.weave.extractLsb' 24 4).toNat
def shm (x : Strand) : Bool := x.weave.getLsbD 23
def part (x : Strand) : Nat := (x.core.extractLsb' 32 2).toNat

/-- g0 reads zero; in system mode g60 to g63 are the slot's system registers (R25, R115). -/
def readG (x : Strand) (r : GReg) : Word :=
  if r = 0 then 0
  else if h : x.sys = true ∧ 60 ≤ r.val then x.sysg[r.val - 60]'(by omega)
  else x.g[r]

def writeG (x : Strand) (r : GReg) (w : Word) : Strand :=
  if r = 0 then x
  else if h : x.sys = true ∧ 60 ≤ r.val then { x with sysg := x.sysg.set (r.val - 60) w (by omega) }
  else { x with g := x.g.set r w }

def readV (x : Strand) (r : VReg) : VecReg := x.v[r]
def writeV (x : Strand) (r : VReg) (w : VecReg) : Strand := { x with v := x.v.set r w }

/-- p0 reads 1 (R25). -/
def readP (x : Strand) (r : PReg) : Bool := r = 0 || x.p.getLsbD r.val

def writeP (x : Strand) (r : PReg) (b : Bool) : Strand :=
  if r = 0 then x
  else { x with p := if b then x.p ||| (1#8 <<< r.val) else x.p &&& ~~~(1#8 <<< r.val) }

/-- m0 reads all ones (R25). -/
def readM (x : Strand) (r : MReg) : Word := if r = 0 then BitVec.allOnes 64 else x.m[r]
def writeM (x : Strand) (r : MReg) (w : Word) : Strand := if r = 0 then x else { x with m := x.m.set r w }

end Strand

/-- How many tiles a slot owns, and the first (R28). -/
def ownedTiles (x : Strand) (slot : Nat) : Nat := if (slot + 1) * x.accDecl ≤ 8 then x.accDecl else 0

/-! ## The current strand -/

namespace State

def core (s : State) : CoreIx := coreOf s.cur
def slot (s : State) : Nat := slotOf s.cur

def rg (s : State) (r : GReg) : Word := s.me.readG r
def wg (s : State) (r : GReg) (w : Word) : State := { s with me := s.me.writeG r w }
def rv (s : State) (r : VReg) : VecReg := s.me.readV r
def wv (s : State) (r : VReg) (w : VecReg) : State := { s with me := s.me.writeV r w }
def rp (s : State) (r : PReg) : Bool := s.me.readP r
def wp (s : State) (r : PReg) (b : Bool) : State := { s with me := s.me.writeP r b }
def rm (s : State) (r : MReg) : Word := s.me.readM r
def wm (s : State) (r : MReg) (w : Word) : State := { s with me := s.me.writeM r w }

/-- The rounding mode of %rmode.RM; the codes 6 and 7 are never written (R34, R35). -/
def rmode (s : State) : RMode :=
  match (s.me.rmode.extractLsb' 0 3).toNat with
  | 1 => .zero | 2 => .up | 3 => .down | 4 => .nearestAway | 5 => .stochastic | _ => .nearestEven

def srg (s : State) : BitVec 32 := s.me.rmode.extractLsb' 32 32

def setSrg (s : State) (x : BitVec 32) : State :=
  { s with me := { s.me with rmode := x ++ s.me.rmode.extractLsb' 0 32 } }

/-! ## Other strands and units -/

def strand (s : State) (k : StrandIx) : Strand := if k = s.cur then s.me else Tab.get Strand.empty s.strands k

def setStrand (s : State) (k : StrandIx) (x : Strand) : State :=
  if k = s.cur then { s with me := x } else { s with strands := Tab.set s.strands k x }

def modStrand (s : State) (k : StrandIx) (f : Strand → Strand) : State := s.setStrand k (f (s.strand k))

/-- Makes k the strand whose turn it is. -/
def switchTo (s : State) (k : StrandIx) : State :=
  if k = s.cur then s
  else { s with cur := k, me := Tab.get Strand.empty s.strands k, strands := Tab.set s.strands s.cur s.me }

def coreRec (s : State) (c : CoreIx) : Core := Tab.get Core.empty s.cores c
def setCore (s : State) (c : CoreIx) (x : Core) : State := { s with cores := Tab.set s.cores c x }
def modCore (s : State) (c : CoreIx) (f : Core → Core) : State := s.setCore c (f (s.coreRec c))
def tileRec (s : State) (t : Nat) : TileUnit := Tab.get TileUnit.empty s.tiles t
def setTile (s : State) (t : Nat) (x : TileUnit) : State := { s with tiles := Tab.set s.tiles t x }
def modTile (s : State) (t : Nat) (f : TileUnit → TileUnit) : State := s.setTile t (f (s.tileRec t))
def blockRec (s : State) (b : Nat) : Block := Tab.get ⟨[], []⟩ s.blocks b
def modBlock (s : State) (b : Nat) (f : Block → Block) : State :=
  { s with blocks := Tab.set s.blocks b (f (s.blockRec b)) }
def dieRec (s : State) (d : Nat) : Die := Tab.get Die.zero s.dies d
def modDie (s : State) (d : Nat) (f : Die → Die) : State := { s with dies := Tab.set s.dies d (f (s.dieRec d)) }
def partRec (s : State) (p : Nat) : Part := Tab.get Part.off s.parts p
def modPart (s : State) (p : Nat) (f : Part → Part) : State := { s with parts := Tab.set s.parts p (f (s.partRec p)) }

/-- A die's cycle counter (R23). -/
def cycle (s : State) (d : Nat) : Nat := (s.dieRec d).cyc.toNat

def weaveOf (s : State) (wid : Nat) : Option Weave := s.weaves.find? fun w => w.wid = wid

def setWeave (s : State) (w : Weave) : State :=
  { s with weaves := s.weaves.map fun x => if x.wid = w.wid then w else x }

def modNet (s : State) (f : Net → Net) : State := { s with net := f s.net }

/-- A fresh identifier for something in flight. -/
def fresh (s : State) : Nat × State := (s.net.nextId, { s with net := { s.net with nextId := s.net.nextId + 1 } })

/-- The free-value counter, advanced. -/
def draw (s : State) : Nat × State := (s.freeCtr, { s with freeCtr := s.freeCtr + 1 })

end State

/-! ## Telemetry counters: 32 bits, saturating (R404) -/

def satInc (n : Nat) : Nat := if n < 2 ^ 32 - 1 then n + 1 else n

def State.countCore (s : State) (c : CoreIx) (n : Nat) : State :=
  s.modCore c fun x => { x with cnt := Tab.set x.cnt n (satInc (Tab.get 0 x.cnt n)) }
def State.countBlock (s : State) (b : Nat) (n : Nat) : State :=
  s.modBlock b fun x => { x with cnt := Tab.set x.cnt n (satInc (Tab.get 0 x.cnt n)) }
def State.countDie (s : State) (d : Nat) (n : Nat) : State :=
  s.modDie d fun x => { x with cnt := Tab.set x.cnt n (satInc (Tab.get 0 x.cnt n)) }

/-! ## Operand values -/

/-- A type's signedness and width for integer arithmetic; code 0x0 acts as .z64 (R99). -/
def readTy (t : Ty) (x : Word) : Int := Num.readInt t.isI t.width x.toNat

/-- A w-bit pattern extended to 64 bits under the type (R74, R99). -/
def extTy (t : Ty) (y : Nat) : Word := BitVec.ofInt 64 (Num.readInt t.isI t.width y)

/-- The w-bit pattern of a register operand. -/
def patTy (t : Ty) (x : Word) : Nat := x.toNat % 2 ^ t.width

/-- The 64-bit immediate (R54). -/
def immWord (i : Imm) : Word :=
  match i.hi with
  | some h => h ++ i.lo
  | none => i.lo.signExtend 64

/-- The signed value of an immediate (R54, R99). -/
def immValue (i : Imm) : Int := (immWord i).toInt

/-- A displacement operand sign-extended. -/
def sx {n : Nat} (x : BitVec n) : Word := x.signExtend 64

/-! ## Vector elements (R26) -/

/-- Element i of width w. -/
def elem (v : VecReg) (i w : Nat) : Nat := v.toNat / 2 ^ (i * w) % 2 ^ w

/-- The elements of a vector, lowest first. -/
def elems (w : Nat) (v : VecReg) : List Nat := (List.range (512 / w)).map fun i => elem v i w

/-- A number whose base-2^w digits are the elements. -/
def packElems (w : Nat) : List Nat → Nat
  | [] => 0
  | x :: r => x % 2 ^ w + 2 ^ w * packElems w r

def ofElems (w : Nat) (xs : List Nat) : VecReg := BitVec.ofNat 512 (packElems w xs)

/-! ## Lane selection (R67, R124) -/

/-- Whether the mask and the prefix select index j, an element's index or, for .q4, half of it. -/
def laneSel (mask : Word) (lane : Option LanePfx) (lmask : LanePfx → Word) (j : Nat) : Bool :=
  mask.getLsbD j &&
    match lane with
    | none => true
    | some l => (lmask l).getLsbD j && decide (l.first.val ≤ j) && decide (j ≤ l.last.val)

/-- Sel(i) for a type, a mask register and a prefix, under a true guard (R124). -/
def State.sel (s : State) (t : Ty) (mkr : MReg) (lane : Option LanePfx) (i : Nat) : Bool :=
  laneSel (s.rm mkr) lane (fun l => s.rm l.mask) (if t = .q4 then i / 2 else i)

/-- Whether an unselected element is written zero: the prefix's ZERO bit in place of ZM (R124). -/
def zeroing (x : VSel) : Bool :=
  match x.lane with
  | some l => l.zero
  | none => x.zm

def State.vsel (s : State) (t : Ty) (x : VSel) (i : Nat) : Bool := s.sel t x.mkr x.lane i

end Sys2Proof.Machine
end

