-- ==== Sys2Proof/Machine/Flags.lean ====
section
/-! DEFINITION. %flags and the exception enables: merging sticky bits, status bits, the mode bits, and when an IEEE exception
traps (R31, R32, R34, R35, R92, R93). -/

namespace Sys2Proof.Machine

open Sys2Proof.Num (Flags)

/-- Sticky bits merge by or; only a write to %flags clears them (R32). -/
def mergeFlags (x : Strand) (f : Flags) : Strand := { x with flags := x.flags ||| f.setWidth 64 }

def State.addFlags (s : State) (f : Flags) : State := { s with me := mergeFlags s.me f }

def setBit (w : Word) (k : Nat) (b : Bool) : Word := if b then w ||| (1#64 <<< k) else w &&& ~~~(1#64 <<< k)

/-- The mode bits (R31). -/
def Strand.setSys (x : Strand) (b : Bool) : Strand := { x with flags := setBit x.flags 63 b }
def Strand.setWt (x : Strand) (b : Bool) : Strand := { x with flags := setBit x.flags 62 b }

/-- Status bits MEMPTY and NONE (R31). -/
def State.setMempty (s : State) (b : Bool) : State := { s with me := { s.me with flags := setBit s.me.flags 17 b } }
def State.setNone (s : State) (b : Bool) : State := { s with me := { s.me with flags := setBit s.me.flags 16 b } }

/-- The bits of %flags a write changes: MEMPTY, NONE and the sticky bits (R31). -/
def flagsMask : Word := 0x301FF
/-- The bits of %rmode a write changes (R34). -/
def rmodeMask : Word := 0xFFFFFFFF00001F07

/-- The raised exceptions of R35 that are enabled: bits 4:0 of %flags under bits 12:8 of %rmode. -/
def enabledOf (rmode : Word) (f : Flags) : BitVec 5 := f.extractLsb' 0 5 &&& rmode.extractLsb' 8 5

/-- The lowest exception both raised and enabled, the subcode of enabled arithmetic exception (R35). -/
def enabledException (s : State) (f : Flags) : Option (BitVec 8) :=
  ((List.range 5).find? fun k => (enabledOf s.me.rmode f).getLsbD k).map (BitVec.ofNat 8)

/-- A write that leaves a generator state of zero stores 1 (R34). -/
def fixSrg (w : Word) : Word := if w.extractLsb' 32 32 = 0 then w ||| 0x100000000 else w

end Sys2Proof.Machine
end

