-- ==== Sys2Proof/Machine/Translate.lean ====
section
/-! DEFINITION. From an address to storage: address classes and windows, swizzles, the page walk with its checks, and the TLBs
(R167 to R177, R375 to R382). -/

namespace Sys2Proof.Machine

/-! ## Who accesses -/

/-- The agent an access is checked for: its core, partition, address space, weave and mode. -/
structure Ctx where
  core : CoreIx
  part : Nat
  root : Nat
  wid : Nat
  sys : Bool
  deriving DecidableEq, Repr

def State.rootOf (s : State) (wid : Nat) : Nat := ((s.weaveOf wid).map (·.root)).getD 0

def State.ctx (s : State) : Ctx := ⟨s.core, s.me.part, s.rootOf s.me.wid, s.me.wid, s.me.sys⟩

inductive AccKind where
  | fetch | load | store | rmw
  deriving DecidableEq, Repr

/-! ## Partitions and holding (R22, R170) -/

/-- How many partitions there are, and whether a die lies in one of them. -/
def State.nparts (s : State) : Nat := match s.host.split.toNat with | 1 => 2 | 2 => 4 | _ => 1
def State.dieIn (s : State) (part die : Nat) : Bool := decide (die * s.nparts / 4 = part)
def State.partOfDie (s : State) (die : Nat) : Nat := die * s.nparts / 4
def State.partDies (s : State) (part : Nat) : List Nat := (List.range 4).filter fun d => s.dieIn part d

/-- Whether a core holds a weave (R170): by a strand, a lingering team, a ready-ring entry or a pinned segment. A quarantined
core holds none (R399). -/
def State.holds (s : State) (c : CoreIx) (wid : Nat) : Bool :=
  let x := s.coreRec c
  decide (x.wid = some wid) && !x.quar &&
    (x.linger || x.pinSeg.isSome || !x.ready.isEmpty || (List.range 8).any fun k => (s.strand (strandAt c k)).live)

def State.blockHolds (s : State) (wid blk : Nat) : Bool :=
  ((s.weaveOf wid).map fun w => w.cores.any fun c => blockOf c = blk).getD false

/-- A tile is the weave's while one of its cores holds it. -/
def State.tileHolds (s : State) (wid tile : Nat) : Bool :=
  (List.range 16).any fun m => s.holds (tileCore tile m) wid

/-! ## Launch-record fields used here (R352) -/

def recWord (ws : List Word) (k : Nat) : Word := ws.getD k 0

/-- S in bytes, from SK (R172). -/
def recS (ws : List Word) : Nat := ((recWord ws 0).extractLsb' 43 5).toNat * 4096
/-- The fabric team: PKGB and PKGS. -/
def recPkgb (ws : List Word) : Nat := ((recWord ws 0).extractLsb' 48 8).toNat
def recPkgs (ws : List Word) : Nat := ((recWord ws 0).extractLsb' 26 9).toNat
def recVault (ws : List Word) : Nat := ((recWord ws 9).extractLsb' 32 13).toNat * 1024
def recShm (ws : List Word) : Bool := (recWord ws 0).getLsbD 42
def recCB (ws : List Word) : Word := recWord ws 11 &&& ~~~(0x3FFF#64)
def recNseg (ws : List Word) : Nat := ((recWord ws 11).extractLsb' 0 12).toNat

def State.weaveWords (s : State) (wid : Nat) : List Word := ((s.weaveOf wid).map (·.words)).getD []

/-- Whether a package belongs to a weave's fabric team (R352). -/
def State.inTeam (s : State) (wid pkg : Nat) : Bool :=
  let ws := s.weaveWords wid
  decide ((pkg + 256 - recPkgb ws) % 256 < recPkgs ws)

/-! ## The scratchpad (R173 to R175) -/

structure Alloc where
  swz : Nat
  base : Nat
  size : Nat
  deriving DecidableEq, Repr

/-- A descriptor in use (R174): base and size in bytes. -/
def allocOf (w : Word) : Option Alloc :=
  if w.getLsbD 63 then
    some ⟨(w.extractLsb' 32 3).toNat, (w.extractLsb' 0 16).toNat * 1024, (w.extractLsb' 16 16).toNat * 1024⟩
  else none

def allocAt (desc : List Word) (o : Nat) : Option Alloc :=
  (desc.filterMap allocOf).find? fun a => decide (a.base ≤ o) && decide (o < a.base + a.size)

/-- The swizzle of an offset within its allocation (R175); codes 1 to 6 are their own inverses. -/
def swizzle (c x : Nat) : Nat :=
  if c = 0 ∨ c = 7 then x else x ^^^ (x / 2 ^ (c + 3) % 2 ^ (c + 1) * 4)

/-- The swizzled window offset. -/
def swizzled (desc : List Word) (o : Nat) : Nat :=
  match allocAt desc o with
  | some a => a.base + swizzle a.swz (o - a.base)
  | none => o

/-- Where byte o of a tile's window lies (R173). -/
def scratchKey (desc : List Word) (S tile o : Nat) : Nat :=
  let x := swizzled desc o
  localKey (tileCore tile (x / 4 % 16)) (localSize - S + x / 64 * 4 + x % 4)

/-- The window offset a byte of a core's local memory has in its tile's window, if it has one. -/
def scratchOffset (desc : List Word) (S : Nat) (c : CoreIx) (off : Nat) : Option Nat :=
  if localSize - S ≤ off ∧ off < localSize then
    let b := off - (localSize - S)
    some (swizzled desc (b / 4 * 64 + memberOf c * 4 + b % 4))
  else none

/-! ## Home classes (R183) -/

def windowKey (pkg blk : Nat) : Nat := 640 * pkg + blk
def classOf (key : Nat) : Nat := key % 16

/-- The class key of a physical address. -/
def physClass (pa : Nat) : Nat :=
  if hostBase ≤ pa then 2 ^ 20 + 8 else 2 ^ 20 + 2 * (pa / 2 ^ 38) + pa / 512 % 2

/-! ## Page tables (R375 to R377) -/

structure Leaf where
  pte : Word
  base : Nat
  size : Nat
  at' : Nat
  group : List Nat
  reads : List Nat
  deriving DecidableEq, Repr

def pteST (e : Word) : Nat := (e.extractLsb' 61 2).toNat
def pteFmt (e : Word) : Nat := (e.extractLsb' 52 4).toNat
def pteGeo (e : Word) : Nat := (e.extractLsb' 50 2).toNat
def pteFrame (e : Word) : Nat := (e.extractLsb' 0 35).toNat
def pteRwin (e : Word) : Bool := e.getLsbD 49

/-- A format page's view size (R89). -/
def viewSize (fmt : Nat) : Nat := if fmt = 3 then 16384 else 32768

def geoSize (geo : Nat) : Nat := match geo with | 0 => 2 ^ 13 | 1 => 2 ^ 18 | 2 => 2 ^ 23 | _ => 2 ^ 30

def pageSize (e : Word) : Nat := if pteFmt e = 0 then geoSize (pteGeo e) else viewSize (pteFmt e)

def State.word (s : State) (pa : Nat) : Word := BitVec.ofNat 64 (s.mem.value (keysFrom pa 8))

/-- A reduction descriptor with a nonzero Res bit is rejected as a whole (R7, R388). -/
def rdescBad (w0 w1 : Word) : Bool := w0.extractLsb' 35 28 != 0 || w1.extractLsb' 32 32 != 0

/-- The reduction range of a frame's die as its descriptor was read (R388, R389). -/
def State.inRange (s : State) (frame : Nat) : Bool :=
  let (w0, w1, _) := (s.dieRec (frame / 2 ^ 25)).rdesc
  let rrb := (w0.extractLsb' 0 35).toNat
  w0.getLsbD 63 && !rdescBad w0 w1 && decide (rrb ≤ frame) && decide (frame < rrb + (w1.extractLsb' 0 32).toNat)

/-- Frame 0 of a die, which no resident entry may name (R377, R388). -/
def dieFrame0 (frame : Nat) : Bool := decide (frame < 2 ^ 27) && decide (frame % 2 ^ 25 = 0)

/-- A malformed table entry: a field other than V, TBL and FRAME is nonzero, or its frame is frame 0 of a die (R376, R377). -/
def tableBad (e : Word) : Bool := (e &&& 0x7FFFBFF800000000) != 0 || dieFrame0 (pteFrame e)

/-- A malformed leaf at level 0 or 1, apart from the comparison with its group (R377). -/
def State.leafBad (s : State) (lvl : Nat) (e : Word) : Bool :=
  let st := pteST e
  let fmt := pteFmt e
  let geo := pteGeo e
  let frame := pteFrame e
  let res := decide (st = 0)
  let host := res && decide (2 ^ 27 ≤ frame)
  decide (st = 3) || decide (3 < fmt) || e.extractLsb' 35 11 != 0
    || decide (geo / 2 ≠ lvl)
    || (res && decide (frame % (geoSize geo / 8192) ≠ 0))
    || (decide (fmt ≠ 0) && (decide (geo ≠ 0) || e.getLsbD 58 || pteRwin e || host))
    || (pteRwin e && (decide (geo ≠ 0) || host || (res && !s.inRange frame)))
    || (res && dieFrame0 frame)
    || (decide (st = 1) && (decide (geo ≠ 0) || pteRwin e || decide (2 ^ 32 ≤ frame)))

inductive WalkFail where
  | sub (n : Nat)
  | poison
  | window
  deriving DecidableEq, Repr

/-- Whether the word of a physical address is poisoned (R397). -/
def State.poisoned (s : State) (key : Nat) : Bool := s.poison.contains (key / 8 * 8)

/-- Host bounds (R411): the device reaches n bytes at a physical address of main memory, or of host memory within the window. -/
def State.inWindow (s : State) (pa n : Nat) : Bool :=
  decide (pa < hostBase) || (decide (s.host.wlo.toNat ≤ pa - hostBase) && decide (pa - hostBase + n ≤ s.host.whi.toNat))

/-- The leaf at level 0 or 1 (R375, R377, R379). -/
def State.leaf (s : State) (lvl base ix va : Nat) (e : Word) (reads : List Nat) : Except WalkFail Leaf :=
  let size := pageSize e
  let n := size / (if lvl = 0 then 2 ^ 13 else 2 ^ 23)
  let first := base + 8 * (ix / n * n)
  if s.leafBad lvl e then .error (.sub 3)
  else if !s.inWindow first 8 then .error .window
  else if s.poisoned first then .error .poison
  else if s.word first != e then .error (.sub 3)
  else if pteST e = 2 then .error (.sub 2)
  else .ok ⟨e, va / size * size, size, base + 8 * ix, (List.range n).map (first + 8 * ·), reads ++ [first]⟩

/-- The bits of an address that index level 0 to 3. -/
def levelIx (lvl va : Nat) : Nat :=
  match lvl with
  | 0 => va / 2 ^ 13 % 1024 | 1 => va / 2 ^ 23 % 1024 | 2 => va / 2 ^ 33 % 1024 | _ => va / 2 ^ 43 % 8192

/-- The four-level walk from a table at a level down (R375). -/
def State.walkFrom (s : State) (va : Nat) : Nat → Nat → List Nat → Except WalkFail Leaf
  | lvl, base, reads =>
    let ix := levelIx lvl va
    let pa := base + 8 * ix
    let e := s.word pa
    if !s.inWindow pa 8 then .error .window
    else if s.poisoned pa then .error .poison
    else if !e.getLsbD 63 then .error (.sub 1)
    else
      match lvl with
      | 0 => if e.getLsbD 46 then .error (.sub 3) else s.leaf 0 base ix va e (reads ++ [pa])
      | l + 1 =>
        if e.getLsbD 46 then
          if tableBad e then .error (.sub 3) else walkFrom s va l (pteFrame e * 8192) (reads ++ [pa])
        else if 1 ≤ l then .error (.sub 3)
        else s.leaf 1 base ix va e (reads ++ [pa])

def State.walk (s : State) (root : Nat) (va : Word) : Except WalkFail Leaf := s.walkFrom va.toNat 3 root []

/-- The words a walk from a table at a level down reads, whatever they hold: each table's entry, and a leaf's with the first of
its group. -/
def State.walkWords (s : State) (va : Nat) : Nat → Nat → List Nat
  | lvl, base =>
    let ix := levelIx lvl va
    let pa := base + 8 * ix
    let e := s.word pa
    let n := pageSize e / (if lvl = 0 then 2 ^ 13 else 2 ^ 23)
    let leaf := [pa, base + 8 * (ix / n * n)]
    match lvl with
    | 0 => leaf
    | l + 1 => if e.getLsbD 63 && e.getLsbD 46 && !tableBad e then pa :: walkWords s va l (pteFrame e * 8192) else leaf

/-! ## TLBs (R382) -/

def TlbEntry.hit (e : TlbEntry) (part root va : Nat) : Bool :=
  decide (e.part = part) && decide (e.root = root) && decide (e.base ≤ va) && decide (va < e.base + e.size)

/-- A cached leaf of the core's micro-TLB or its tile's TLB. -/
def State.cached (s : State) (x : Ctx) (va : Nat) : Option Leaf :=
  let hit (l : List TlbEntry) := l.find? fun e => e.hit x.part x.root va
  ((hit (s.coreRec x.core).mtlb).or (hit (s.tileRec (tileOf x.core)).tlb)).map fun e =>
    ⟨e.pte, e.base, e.size, 0, [], []⟩

/-! ## Checks of a user virtual address (R378 to R380) -/

def transCause (k : AccKind) : BitVec 8 :=
  match k with
  | .fetch => 0x08 | .load => 0x10 | _ => 0x11

def rightsCause (k : AccKind) : BitVec 8 :=
  match k with
  | .fetch => 0x09 | _ => 0x12

/-- The rights subcode of an entry for an access, if it fails (R378 step 2, R380). -/
def rightsFail (k : AccKind) (sys : Bool) (e : Word) : Option (BitVec 8) :=
  let needR := decide (k = .load) || decide (k = .rmw)
  let needW := decide (k = .store) || decide (k = .rmw)
  if !sys && !e.getLsbD 57 then some 4
  else if needR && !e.getLsbD 60 then some 1
  else if needW && !e.getLsbD 59 then some 2
  else if decide (k = .fetch) && !e.getLsbD 58 then some 3
  else none

/-- VXA-400P (R410). -/
def State.isP (s : State) : Bool := s.host.form == 1

/-- The physical address behind a resident leaf: of the byte itself on an ordinary page, of the frame on a format page, whose
view is larger than its frame (R89). -/
def physOf (l : Leaf) (va : Nat) : Nat := pteFrame l.pte * 8192 + if pteFmt l.pte = 0 then va % l.size else 0

/-- Host bounds (R177, R411). noHost: the access may not be made to host memory at all. -/
def State.hostFail (s : State) (noHost : Bool) (pa n : Nat) : Option (BitVec 8) :=
  if noHost then some 18 else if s.inWindow pa n then none else some 17

/-- Step 4 of R180 on n bytes within one page. later: bit 7 of the subcode of causes 0x10 to 0x17 (R180). -/
def State.translate (s : State) (x : Ctx) (k : AccKind) (noHost : Bool) (later : BitVec 8) (va : Word) (n : Nat)
    (spilledOk : Bool := false) : Except Trap Leaf :=
  let bad (c sub : BitVec 8) : Except Trap Leaf :=
    .error ⟨c, if 0x10 ≤ c ∧ c ≤ 0x17 then sub ||| later else sub, va, none, 0⟩
  let found : Except WalkFail Leaf :=
    match s.cached x va.toNat with
    | some l => .ok l
    | none => s.walk x.root va
  match found with
  | .error .poison => bad 0x60 0
  | .error .window => bad (rightsCause k) 17
  | .error (.sub m) => bad (transCause k) (BitVec.ofNat 8 m)
  | .ok l =>
    match rightsFail k x.sys l.pte with
    | some sub => bad (rightsCause k) sub
    | none =>
      if pteST l.pte = 1 then
        if s.isP then bad (transCause k) 4
        else if spilledOk then .ok l
        else if k = .fetch then bad 0x08 5
        else bad 0x16 0
      else
        let pa := physOf l va.toNat
        if hostBase ≤ pa then
          match s.hostFail noHost pa n with
          | some sub => bad (rightsCause k) sub
          | none => .ok l
        else if !s.dieIn x.part (pa / 2 ^ 38) then bad 0x15 0
        else .ok l

end Sys2Proof.Machine
end

