-- ==== Sys2Proof/Machine/Access.lean ====
section
/-! DEFINITION. One access to memory: its checks in the order of R180, the storage it reaches, format pages, and reads and
writes as a home performs them (R89 to R91, R168 to R183, R198, R199, R397). -/

namespace Sys2Proof.Machine

/-- Address classes (R167). -/
inductive AddrClass where
  | user | vault | tile | own | core | none
  deriving DecidableEq, Repr

def classAddr (a : Word) : AddrClass :=
  match (a.extractLsb' 56 8).toNat with
  | 0x00 => .user | 0xFB => .vault | 0xFC => .tile | 0xFD => .own | 0xFE => .core | _ => .none

/-- The fields of a window address (R168). -/
def winPkg (a : Word) : Nat := (a.extractLsb' 40 8).toNat
def winDie (a : Word) : Nat := (a.extractLsb' 38 2).toNat
def winRow (a : Word) : Nat := (a.extractLsb' 32 6).toNat
def winCol (a : Word) : Nat := (a.extractLsb' 24 8).toNat
def winOff (a : Word) : Nat := (a.extractLsb' 0 24).toNat
def winTile (a : Word) : Nat := (a.extractLsb' 24 10).toNat

/-- Bits a class's layout marks zero (R168). -/
def winZero (c : AddrClass) (a : Word) : Bool :=
  match c with
  | .core => a.extractLsb' 48 8 == 0
  | .tile => a.extractLsb' 48 8 == 0 && a.extractLsb' 34 4 == 0
  | .vault => a.extractLsb' 48 8 == 0 && a.extractLsb' 32 6 == 0
  | .own => a.extractLsb' 24 32 == 0
  | _ => true

/-- The block of the memory that a window address names, in its package: its class at a writer has its key (R183). -/
def winBlock (c : AddrClass) (a : Word) : Nat :=
  match c with
  | .core => blockOf (coreAt (winDie a) (winRow a) (winCol a))
  | .tile => tileBlock (winDie a * 640 + winTile a)
  | _ => winDie a * 160 + winCol a

def ownPkg (s : State) : Nat := s.host.pkg.toNat

/-- Whether a key lies in a quarantined core (R399). -/
def State.deadKey (s : State) (k : Nat) : Bool :=
  match localOf k with
  | some (c, _) => (s.coreRec c).quar
  | none => false

/-- A weave's scratchpad allocation descriptors, as its launch record gives them (R174, R352). -/
def State.weaveAllocs (s : State) (wid : Nat) : List Word := (((s.weaveOf wid).map (·.ext)).getD []).take 8

/-- Steps 2 and 3 of R180 on a window address, and the storage it names. -/
def State.window (s : State) (x : Ctx) (later : BitVec 8) (a : Word) (n : Nat) : Except Trap Site :=
  let c := classAddr a
  let hole (k : BitVec 8) : Except Trap Site := .error ⟨0x14, k ||| later, a, none, 0⟩
  let bad (cause k : BitVec 8) : Except Trap Site := .error ⟨cause, k ||| later, a, none, 0⟩
  let off := winOff a
  let ws := s.weaveWords x.wid
  let S := recS ws
  let tile := winDie a * 640 + winTile a
  let desc := (s.tileRec tile).desc
  if c = .none then hole 5
  else if !winZero c a then hole 3
  else if (c = .core ∧ 160 ≤ winCol a) ∨ (c = .tile ∧ 640 ≤ winTile a) ∨ (c = .vault ∧ 160 ≤ winCol a) then hole 2
  else if (c = .core ∨ c = .own) ∧ localSize ≤ off then hole 1
  else if c = .vault ∧ vaultSize ≤ off then hole 1
  else if c = .tile ∧ 16 * S ≤ off then hole 1
  else if c = .tile ∧ (allocAt (s.weaveAllocs x.wid) off).any (fun al => al.swz = 7) then hole 4
  else if c = .own then
    .ok { addr := a, n := n, keys := keysFrom (localKey x.core off) n, home := windowKey (ownPkg s) (blockOf x.core),
          loc := true }
  else if !s.inTeam x.wid (winPkg a) || !s.dieIn x.part (winDie a) then bad 0x15 0
  else if winPkg a ≠ ownPkg s then
    .ok { addr := a, n := n, keys := [], home := windowKey (winPkg a) (winBlock c a), away := true }
  else
    match c with
    | .core =>
      let t := coreAt (winDie a) (winRow a) (winCol a)
      if !s.holds t x.wid then bad 0x12 16
      else .ok { addr := a, n := n, keys := keysFrom (localKey t off) n, home := windowKey (ownPkg s) (blockOf t),
                 loc := decide (t = x.core) }
    | .tile =>
      if !s.tileHolds x.wid tile || ((List.range n).map fun i => scratchKey desc S tile (off + i)).any s.deadKey then bad 0x12 16
      else .ok { addr := a, n := n, keys := (List.range n).map fun i => scratchKey desc S tile (off + i),
                 home := windowKey (ownPkg s) (tileBlock tile) }
    | _ =>
      let blk := winDie a * 160 + winCol a
      let vb := ((s.weaveOf x.wid).map (·.vb)).getD 0
      if s.blockHolds x.wid blk && decide (vb ≤ off) && decide (off + n ≤ vb + recVault ws) then
        .ok { addr := a, n := n, keys := keysFrom (vaultKey blk off) n, home := windowKey (ownPkg s) blk }
      else bad 0x12 16

/-- Steps 2 to 4 of R180 on n aligned bytes. A load, atomic or engine request toward a package without a path takes access
rights, subcode 46 (R420). -/
def State.resolve (s : State) (x : Ctx) (k : AccKind) (noHost : Bool) (later : BitVec 8) (a : Word) (n : Nat) :
    Except Trap Site :=
  if classAddr a = .user then
    match s.translate x k noHost later a n with
    | .error t => .error t
    | .ok l =>
      if pteFmt l.pte ≠ 0 then
        .ok { addr := a, n := n, keys := [], home := physClass (pteFrame l.pte * 8192),
              fmt := some (pteFmt l.pte, pteFrame l.pte * 8192, a.toNat % viewSize (pteFmt l.pte)), reads := l.reads }
      else
        let pa := physOf l a.toNat
        .ok { addr := a, n := n, keys := keysFrom pa n, home := physClass pa, rwin := pteRwin l.pte, reads := l.reads }
  else
    match s.window x later a n with
    | .error t => .error t
    | .ok w => if w.away && decide (k ≠ .store) then .error ⟨0x12, 46 ||| later, a, none, 0⟩ else .ok w

/-- The size of the page that maps a user virtual address, 8 KiB where none does. -/
def State.pageAt (s : State) (x : Ctx) (a : Word) : Nat :=
  match s.cached x a.toNat with
  | some l => l.size
  | none => match s.walk x.root a with
    | .ok l => l.size
    | .error _ => 8192

/-- Bit 7 of a subcode: the failing byte lies in a later page than the access's first byte (R180). Only user virtual
addresses have pages (R167, R168). -/
def State.laterPage (s : State) (x : Ctx) (first a : Word) : BitVec 8 :=
  if a.toNat / 8192 ≤ first.toNat / 8192 ∨ classAddr first ≠ .user ∨ classAddr a ≠ .user then 0
  else
    let size := s.pageAt x first
    if first.toNat / size < a.toNat / size then 0x80 else 0

/-- Steps 1 to 4 of R180 on one scalar access or one element, first being the access's first byte. -/
def State.check (s : State) (x : Ctx) (k : AccKind) (noHost : Bool) (align : Nat) (first a : Word) (n : Nat) :
    Except Trap Site :=
  let later := s.laterPage x first a
  if a.toNat % align ≠ 0 then .error ⟨0x13, later, a, none, 0⟩
  else s.resolve x k noHost later a n

/-! ## Format pages (R88 to R91) -/

/-- View bytes of a block, elements per scale, the first scale byte's place, and the first view byte that reads zero (R89). -/
def fmtBlock (f : Nat) : Nat := if f = 2 then 32 else 64
def fmtScale (f i : Nat) : Nat := match f with | 1 => 7680 + i / 32 | 2 => 7168 + i / 16 | _ => 7936 + i / 32
def fmtZero (f : Nat) : Nat := match f with | 1 => 30720 | 2 => 28672 | _ => 15872
/-- The frame byte that holds element i's code. -/
def fmtCode (f i : Nat) : Nat := if f = 3 then i else i / 2

/-- The bf16 code of element i of a format page's view (R86, R89, R90). -/
def fmtElem (m : Memory) (f frame i : Nat) : Nat :=
  if fmtZero f ≤ 2 * i then 0
  else
    let sb := m.read (frame + fmtScale f i)
    let c := m.read (frame + fmtCode f i)
    if f = 3 then
      match Num.decode .e4m3 c.toNat with
      | .fin n k e => (Num.roundTo .bf16 .nearestEven 0 ⟨n, k, e + Num.scaleExp sb, false⟩).1
      | _ => Num.Fmt.nan .bf16
    else
      match Num.decode4 sb (if i % 2 = 0 then c.toNat % 16 else c.toNat / 16) with
      | .fin n k e => (Num.roundTo .bf16 .nearestEven 0 ⟨n, k, e, false⟩).1
      | _ => 0

/-- A byte of the decoded view. -/
def fmtByte (m : Memory) (f frame off : Nat) : Byte := BitVec.ofNat 8 (fmtElem m f frame (off / 2) / 256 ^ (off % 2))

/-- The keys a view range reads: its codes and scale bytes. View bytes that read zero have neither (R89). -/
def fmtKeys (f frame off n : Nat) : List Nat :=
  let bs := (List.range n).filter fun i => decide (off + i < fmtZero f)
  (bs.map fun i => frame + fmtCode f ((off + i) / 2)) ++ bs.map fun i => frame + fmtScale f ((off + i) / 2)

/-- The new bytes of one block of bf16 values stored at view offset off, and the flags (R87, R91). The generator is threaded in
ascending order. -/
def fmtEncode (m : Memory) (mode : RMode) (srg : BitVec 32) (f frame off : Nat) (vals : List Nat) :
    List (Nat × Byte) × BitVec 32 × Num.Flags :=
  let i0 := off / 2
  let vs := vals.map (Num.decode .bf16)
  let old := m.read (frame + fmtScale f i0)
  let ty := Num.scaleType old
  let exp := Num.blockExp (if f = 3 then 448 else Num.vmax4 ty) vs
  let e : Int := (exp : Int) - 32
  let (codes, srg', fl) := vs.foldl (fun (acc, g, fl) v =>
    let (g, u) := Num.draw mode g
    let (c, fl') :=
      if f = 3 then
        match v with
        | .fin n k x => Num.roundTo .e4m3 mode u ⟨n, k, x - e, false⟩
        | v => Num.cvtFloat .e4m3 mode u v
      else Num.encode4 ty e mode u v
    (acc ++ [c], g, fl ||| fl')) (([] : List Nat), srg, (0 : Num.Flags))
  let code (j : Nat) : Nat := codes.getD j 0
  let bytes :=
    if f = 3 then (List.range codes.length).map fun j => (frame + i0 + j, BitVec.ofNat 8 (code j))
    else (List.range (codes.length / 2)).map fun j =>
      (frame + i0 / 2 + j, BitVec.ofNat 8 (code (2 * j) + 16 * code (2 * j + 1)))
  let sb : Byte := BitVec.ofNat 8 (if f = 3 then exp else 64 * ty + exp)
  (bytes ++ [(frame + fmtScale f i0, sb)], srg', fl)

/-! ## At the home -/

/-- Any other access to a byte of a word with an exact accumulator first folds it: the stored value stands and the accumulator
ends (R199). -/
def State.fold (s : State) (keys : List Nat) : State :=
  if s.exact.isEmpty then s
  else { s with exact := s.exact.filter fun (w, x) =>
    !(keys.any fun k => decide (w ≤ k) && decide (k < w + x.ty.width / 8)) }

/-- The keys a site reads. -/
def Site.readKeys (x : Site) : List Nat :=
  match x.fmt with
  | some (f, fr, off) => fmtKeys f fr off x.n
  | none => x.keys

/-- The value a site reads. -/
def State.readSite (s : State) (x : Site) : Nat :=
  match x.fmt with
  | some (f, fr, off) => ofBytes ((List.range x.n).map fun i => fmtByte s.mem f fr (off + i))
  | none => s.mem.value x.keys

/-- Whether an access to some keys meets an error of a local memory that is past correction: the access does not end before
CORE_QUARANTINE has taken the core (R395, R398). -/
def State.brokenLocal (s : State) (keys : List Nat) : Bool :=
  !s.upsets.isEmpty &&
    s.upsets.any fun u => u.fatal && (localOf u.key).isSome && !s.deadKey u.key && keys.any fun k => k / 8 == u.key / 8

/-- Whether a read of the site meets a poisoned word (R397). -/
def State.sitePoisoned (s : State) (x : Site) : Bool := x.readKeys.any s.poisoned

/-- The words whose eight bytes a write replaces whole lose their poison (R397). -/
def clearPoison (poison : List Nat) (bs : List (Nat × Byte)) : List Nat :=
  poison.filter fun w => !((List.range 8).all fun i => bs.any fun (k, _) => k == w + i)

/-- The home that keeps a word's release tag, and how many it keeps (R255). Host memory's home keeps as many as a memory
controller, where the spec gives no number (log entry 119). -/
def tagHome (w : Nat) : Nat × Nat :=
  match localOf w, vaultOf w with
  | some (c, _), _ => (2 ^ 24 + c, 64)
  | _, some (b, _) => (2 ^ 23 + b, 1024)
  | none, none => (physClass w, 16384)

/-- Each home drops its oldest tags beyond what it keeps; the newest come first. -/
def capTags (ts : List (Nat × SyncTag)) : List (Nat × SyncTag) :=
  (ts.foldl (fun (acc, seen) (w, t) =>
    let (h, cap) := tagHome w
    let n := Tab.get 0 seen h
    if n < cap then (acc ++ [(w, t)], Tab.set seen h (n + 1)) else (acc, seen)) (([] : List (Nat × SyncTag)), ([] : Tab Nat))).1

/-- A home performs the write of bytes: exact accumulators fold, poison clears, and the release tag of each word written is
replaced by the write's own or removed (R178, R199, R255, R397). -/
def State.perform (s : State) (bs : List (Nat × Byte)) (sync : Option SyncTag) : State :=
  let words := (bs.map fun (k, _) => k / 8 * 8).eraseDups
  let kept := s.relTags.filter fun (w, _) => !words.contains w
  { s.fold (bs.map (·.1)) with
    mem := s.mem.writeAll bs
    poison := clearPoison s.poison bs
    relTags := match sync with
      | some t => capTags (words.map (fun w => (w, t)) ++ kept)
      | none => kept }

/-- The bytes of a value laid on keys. -/
def layBytes (keys : List Nat) (x : Nat) : List (Nat × Byte) := keys.zip (toBytes keys.length x)

/-- The release tags a read of keys meets. -/
def State.tagsOf (s : State) (keys : List Nat) : List SyncTag :=
  if s.relTags.isEmpty then [] else
    (s.relTags.filter fun (w, _) => keys.any fun k => k / 8 * 8 == w).map (·.2)

/-! ## Range comparators (R160) -/

/-- Whether a write to a key is held by an active claim of the tile whose scratchpad the key lies in. -/
def State.claimed (s : State) (key : Nat) : Bool :=
  match localOf key with
  | none => false
  | some (c, off) =>
    let t := s.tileRec (tileOf c)
    if t.claims.isEmpty then false
    else
      t.claims.any fun cl =>
        match scratchOffset t.desc cl.size c off with
        | none => false
        | some o => decide (cl.lo ≤ o) && decide (o ≤ cl.hi)

/-! ## What a home's operation makes of a word (R190 to R192, R196) -/

/-- The new value of a word and the flags of the home's operation. -/
def atomNew (op : AtomOp) (ty : Ty) (old : Nat) (b c : Word) : Nat × Num.Flags :=
  let w := ty.width
  let bp := b.toNat % 2 ^ w
  let int (x : Int) : Nat := Num.lowBits w x
  match op with
  | .add =>
    if ty = .f32 then Num.fadd .f32 .nearestEven 0 (Num.decode .f32 old) (Num.decode .f32 bp)
    else Num.wrap ty.isI w (Num.readInt ty.isI w old + Num.readInt ty.isI w bp)
  | .addt => (int (Num.readInt true w old + Num.readInt true w bp), 0)
  | .min =>
    if ty = .f32 then Num.fminmax false .f32 old bp
    else (if Num.readInt ty.isI w old ≤ Num.readInt ty.isI w bp then old else bp, 0)
  | .max =>
    if ty = .f32 then Num.fminmax true .f32 old bp
    else (if Num.readInt ty.isI w bp ≤ Num.readInt ty.isI w old then old else bp, 0)
  | .and => (old &&& bp, 0)
  | .or => (old ||| bp, 0)
  | .xor => (old ^^^ bp, 0)
  | .swap => (bp, 0)
  | .cas => (if old = bp then c.toNat % 2 ^ w else old, 0)

def redAtom : RedOp → AtomOp
  | .add => .add | .min => .min | .max => .max | .and => .and | .or => .or | .xor => .xor

/-- The new value of a word outside a reduction window: integers wrap, floats round once in mode 0 (R196). -/
def redNew (op : RedOp) (ty : Ty) (old : Nat) (v : Word) : Nat :=
  if ty = .bf16 then
    (Num.fadd .bf16 .nearestEven 0 (Num.decode .bf16 old) (Num.decode .bf16 (v.toNat % 2 ^ 16))).1
  else (atomNew (redAtom op) ty old v 0).1

end Sys2Proof.Machine
end

