-- ==== Sys2Proof/Machine/Log.lean ====
section
/-! DEFINITION. Events to the host, the error logs, and array upsets met by a home (R396, R397, R402, R403, R413). -/

namespace Sys2Proof.Machine

/-- A core's position in the layout of %core bits 31:0 (R39). -/
def State.posOf (s : State) (c : CoreIx) (slot : Nat) : Word :=
  BitVec.ofNat 64 (s.host.pkg.toNat * 2 ^ 24 + dieOf c % 4 * 2 ^ 22 + rowOf c * 2 ^ 16 + colOf c * 2 ^ 8 + slot)

/-- HOST_EVENT_WRITE (R413): whether the event was written. Words are stored at the ring's host address. -/
def State.hostEvent (s : State) (type part die code : Nat) (payload : Word) : State × Bool :=
  let h := s.host
  if (h.evt - h.evh).toNat = h.evs.toNat then (s, false)
  else
    let a := hostBase + h.evb.toNat + 16 * (h.evt.toNat % h.evs.toNat)
    let w0 := type + part * 2 ^ 8 + die % 4 * 2 ^ 10 + code * 2 ^ 16
    let s := s.perform (layBytes (keysFrom a 8) w0 ++ layBytes (keysFrom (a + 8) 8) payload.toNat) none
    ({ s with host := { s.host with evt := h.evt + 1 } }, true)

/-- A record of a die's error log, numbered and signalled to the host; a full log drops it and counts it (R402, R413). -/
def State.logRec (s : State) (d cls arr bit : Nat) (loc : Word) (wid : Nat) (pos : Word) : State :=
  let x := s.dieRec d
  if 256 ≤ x.log.length then s.countDie d 0x22
  else
    let r : LogRec :=
      ⟨BitVec.ofNat 64 (2 ^ 63 + cls * 2 ^ 48 + arr * 2 ^ 40 + bit * 2 ^ 32 + x.seq.toNat), loc,
       BitVec.ofNat 64 (wid * 2 ^ 32 + pos.toNat % 2 ^ 32), x.cyc⟩
    let s := s.modDie d fun x => { x with log := x.log ++ [r], seq := x.seq + 1 }
    (s.hostEvent 2 (s.partOfDie d) d 0 (BitVec.ofNat 64 (cls * 2 ^ 16 + x.seq.toNat))).1

/-- CORRECTED_ERROR's record: class 1, at most one for each array and die in 65,536 die cycles (R396). -/
def State.logCorrected (s : State) (d arr bit : Nat) (loc : Word) (wid : Nat) (pos : Word) : State :=
  let x := s.dieRec d
  let last := Tab.get 0 x.corrected arr
  if last ≠ 0 ∧ x.cyc.toNat < last - 1 + 65536 then s
  else
    (s.modDie d fun x => { x with corrected := Tab.set x.corrected arr (x.cyc.toNat + 1) }).logRec d 1 arr bit loc wid pos

/-- The die of a storage key, and the address it is reported at. -/
def keyDie (key : Nat) : Nat :=
  match localOf key, vaultOf key with
  | some (c, _), _ => dieOf c
  | none, some (blk, _) => blk / 160
  | none, none => key / 2 ^ 38 % 4

/-- A core-window address (R168). -/
def State.coreWindow (s : State) (c : CoreIx) (off : Nat) : Word :=
  BitVec.ofNat 64 (0xFE * 2 ^ 56 + s.host.pkg.toNat * 2 ^ 40 + dieOf c * 2 ^ 38 + rowOf c * 2 ^ 32 + colOf c * 2 ^ 24 + off)

def State.keyLoc (s : State) (key : Nat) : Word :=
  match localOf key, vaultOf key with
  | some (c, off), _ => s.coreWindow c off
  | none, some (blk, off) =>
    BitVec.ofNat 64 (0xFB * 2 ^ 56 + s.host.pkg.toNat * 2 ^ 40 + blk / 160 * 2 ^ 38 + blk % 160 * 2 ^ 24 + off)
  | none, none => BitVec.ofNat 64 key

/-- A home meets an upset of a word in an access of an agent of a weave and position: corrected and written back, or poisoned, and
counted and logged (R396, R397, R402). A local memory's word that is past correction quarantines its core, which is a step of its own
(R398). -/
def State.meetUpsetAs (wid : Nat) (pos : Word) (s : State) (u : Upset) : State :=
  let s := { s with upsets := s.upsets.filter fun x => x.key != u.key }
  let w := u.key / 8 * 8
  let d := keyDie w
  let arr := match localOf w, vaultOf w with
    | some _, _ => 0x03
    | none, some _ => 0x08
    | none, none => 0x0C
  let cnt (s : State) (n : Nat) : State :=
    match localOf w, vaultOf w with
    | some (c, _), _ => s.countCore c 0x00
    | none, some (blk, _) => s.countBlock blk (0x10 + n)
    | none, none => s.countDie d (0x20 + n)
  if u.fatal then
    if s.poison.contains w then s
    else (cnt { s with poison := w :: s.poison } 1).logRec d 2 arr 0xFF (s.keyLoc w) wid pos
  else (cnt s 0).logCorrected d arr u.bit.val (s.keyLoc w) wid pos

/-- The upsets that an access to some keys meets. -/
def State.upsetsAt (s : State) (keys : List Nat) : List Upset :=
  s.upsets.filter fun u => ((localOf u.key).isNone || !u.fatal) && keys.any fun j => j / 8 == u.key / 8

/-- Every upset of the words of some keys is met before the access of an agent of a weave and position. -/
def State.meetUpsetsAs (s : State) (wid : Nat) (pos : Word) (keys : List Nat) : State :=
  if s.upsets.isEmpty then s else (s.upsetsAt keys).foldl (State.meetUpsetAs wid pos) s

/-- The same for strand k. -/
def State.meetUpsetsOf (s : State) (k : StrandIx) (keys : List Nat) : State :=
  s.meetUpsetsAs (s.strand k).wid (s.posOf (coreOf k) (slotOf k)) keys

/-- The same for the host or a partition's own device work, whose records name weave 0 and a die's first core (log entry 132). -/
def State.meetUpsetsAt (s : State) (die : Nat) (keys : List Nat) : State := s.meetUpsetsAs 0 (s.posOf (coreAt die 0 0) 0) keys

/-- The same in an access of the current strand. -/
def State.meetUpsets (s : State) (keys : List Nat) : State := s.meetUpsetsOf s.cur keys

/-- Storage keys about to be read by an agent of a weave and position: upsets of their words are met, and exact accumulators fold
(R199, R396). -/
def State.touchAs (s : State) (wid : Nat) (pos : Word) (keys : List Nat) : State := (s.meetUpsetsAs wid pos keys).fold keys

/-- The same in an access of strand k. -/
def State.touchKeys (s : State) (k : StrandIx) (keys : List Nat) : State := (s.meetUpsetsOf k keys).fold keys

/-- Upsets of the words of n storage keys from lo on are met before an access of an agent of a weave and position. -/
def State.meetRangeAs (s : State) (wid : Nat) (pos : Word) (lo n : Nat) : State :=
  (s.upsets.filter fun u => decide (lo ≤ u.key) && decide (u.key < lo + n)).foldl (State.meetUpsetAs wid pos) s

/-- The same for the current strand. -/
def State.meetRange (s : State) (lo n : Nat) : State := s.meetRangeAs s.me.wid (s.posOf s.core s.slot) lo n

/-- Exact accumulators of words in a range fold (R199). -/
def State.foldRange (s : State) (lo n : Nat) : State :=
  if s.exact.isEmpty then s
  else { s with exact := s.exact.filter fun (w, _) => !(decide (lo < w + 8) && decide (w < lo + n)) }

/-- Whether a range holds a poisoned word. -/
def State.rangePoisoned (s : State) (lo n : Nat) : Bool := s.poison.any fun k => decide (lo ≤ k) && decide (k < lo + n)

/-- The elements of a list up to the first that p holds of, and that one. -/
def upTo (p : Nat → Bool) : List Nat → List Nat
  | [] => []
  | x :: r => if p x then [x] else x :: upTo p r

/-- Whether a word is unusable, or will be found so. -/
def State.wordGone (s : State) (w : Nat) : Bool := s.poisoned w || s.upsets.any fun u => u.fatal && u.key / 8 == w / 8

/-- The table words a walk has read, by their first keys, are met and fold. -/
def State.touchWalk (s : State) (wid : Nat) (pos : Word) (ws : List Nat) : State :=
  (s.meetUpsetsAs wid pos ws).fold (ws.flatMap fun w => keysFrom w 8)

/-- Upsets of the words a walk reads, for an agent of a weave and position, in storage as v has it are met, up to the first that is
past correction (R379, R396), and exact accumulators among them fold (R199). -/
def State.meetWalkAs (s v : State) (wid : Nat) (pos : Word) (x : Ctx) (va : Word) : State :=
  if (s.upsets.isEmpty && s.exact.isEmpty) || classAddr va != .user || (s.cached x va.toNat).isSome then s
  else
    let ws := upTo v.wordGone (v.walkWords va.toNat 3 x.root)
    s.touchWalk wid pos ws

/-- The same for strand k. -/
def State.meetWalkOf (s v : State) (k : StrandIx) (x : Ctx) (va : Word) : State :=
  s.meetWalkAs v (s.strand k).wid (s.posOf (coreOf k) (slotOf k)) x va

/-- The same for the current strand. -/
def State.meetWalk (s : State) (x : Ctx) (va : Word) : State := s.meetWalkOf s s.cur x va

end Sys2Proof.Machine
end

