-- ==== Sys2Proof/Machine/Fetch.lean ====
section
/-! DEFINITION. Fetch lines: code addresses, parity, illegal lines, the instruction store, the checks of a transfer and of a
fall-through, and decoding at the program counter (R44 to R50, R62, R69 to R73, R106, R108, R109). -/

namespace Sys2Proof.Machine

/-! ## Code addresses (R44, R46) -/

def lineBase (a : Word) : Word := a &&& ~~~63#64

/-- The slot of its line a code address names. -/
def slotIx (a : Word) : Nat := a.toNat % 64 / 12

def validCode (a : Word) : Bool := a.toNat % 64 % 12 == 0 && a.toNat % 64 != 60

/-- The slot index of a code address, and the address of a slot index, modulo 2^64 (R46, R106): the division truncates toward
zero, and the remainder is that division's own (R42; log entry 17). -/
def slotIndex (a : Word) : Int := 5 * (a.toNat / 64) + a.toNat % 64 / 12
def slotAddr (ix : Int) : Word := BitVec.ofInt 64 (64 * ix.tdiv 5 + 12 * ix.tmod 5)

/-- Succ(A) and Target(d) (R42, R106). -/
def succAddr (a : Word) : Word := slotAddr (slotIndex a + 1)
def targetOf (a : Word) (d : BitVec 48) : Word := slotAddr (slotIndex a + d.toInt)

/-! ## Lines (R45, R47, R48) -/

def lineWord (l : Line) : BitVec 32 := l.extractLsb' 480 32
def lineSlot (l : Line) (k : Nat) : SlotWord := l.extractLsb' (96 * k) 96
def isPfx (l : Line) (k : Nat) : Bool := (lineWord l).getLsbD (10 + k)
def isPair (l : Line) (k : Nat) : Bool := (lineWord l).getLsbD (5 + k)
def isTgt (l : Line) (k : Nat) : Bool := (lineWord l).getLsbD k

/-- Every PAR bit equals the XOR of the 60 bits it covers. -/
def parOk (l : Line) : Bool :=
  (List.range 8).all fun k => (Num.popc 60 (l.extractLsb' (60 * k) 60).toNat % 2 == 1) == (lineWord l).getLsbD (24 + k)

/-- The instruction store's own parity over bits 23:0 of a line word (R47). -/
def guardPar (l : Line) : Bool := Num.popc 24 ((lineWord l).extractLsb' 0 24).toNat % 2 == 1

/-- The lowest of subcodes 1 to 5 that applies to a line. -/
def lineIllegal (l : Line) : Option (BitVec 8) :=
  if (lineWord l).extractLsb' 15 9 ≠ 0 then some 1
  else if (List.range 5).any fun k => isPfx l k && isPair l k then some 2
  else if isPfx l 4 then some 3
  else if (List.range 4).any fun k => isPfx l k && isTgt l (k + 1) then some 4
  else if isPfx l 0 && isPfx l 1 && isPfx l 2 && isPfx l 3 then some 5
  else none

def lineKind (l : Line) (k : Nat) : SlotKind := if isPfx l k then .pfx else if isPair l k then .pair else .single

/-- The slots of a line from slot k on. -/
def slotsFrom (l : Line) (k : Nat) : List (SlotKind × SlotWord) :=
  ((List.range 5).drop k).map fun j => (lineKind l j, lineSlot l j)

/-! ## The instruction store (R13, R50) -/

/-- Keeps a line, dropping the oldest line no strand of the core stands in when all 256 places are taken. -/
def State.keepLine (s : State) (base : Nat) (l : Line) : State :=
  let c := s.core
  let st := (s.coreRec c).store
  if st.any fun x => x.base == base then s else
  let pcs := (List.range 8).map fun k => (lineBase (s.strand (strandAt c k)).pc).toNat
  let st := if 256 ≤ st.length then
      match st.find? fun x => !pcs.contains x.base with
      | some x => st.filter fun y => y.base != x.base
      | none => st.drop 1
    else st
  s.modCore c fun x => { x with store := st ++ [⟨base, l, guardPar l⟩] }

/-- What a fetch of the line at a code address finds: the line; a parity mismatch to refetch; or a cause. -/
inductive Fetched where
  | line (l : Line)
  | mismatch
  | fault (t : Trap)
  deriving DecidableEq, Repr

/-- The bytes of the strand's own stores that are on their way to their homes. -/
def State.ownStores (s : State) : List (Nat × Byte) :=
  s.net.reqs.flatMap fun r =>
    match r.kind with
    | .store bs _ => if r.strand == s.cur && r.gen == s.me.gen then bs else []
    | _ => []

/-- The contributions in flight that stand for a posted write of the strand. -/
def State.ownReds (s : State) : List RedPkt :=
  s.net.reds.filter fun p => p.srcs.any fun q =>
    q.1 == s.core && (s.coreRec s.core).posted.any fun w => w.seq == q.2 && w.strand == s.cur && w.wid == s.me.wid

/-- Storage as the walk of a fetch reads it: it stands after the strand's own posted writes of table entries, also while one is
still on its way (R229, R383). -/
def State.ownView (s : State) : State :=
  if s.net.reqs.isEmpty && s.net.reds.isEmpty then s
  else
    let bs := s.ownStores
    s.ownReds.foldl (fun (v : State) p =>
      { v with mem := v.mem.writeAll (layBytes p.keys (redNew p.op p.ty (v.mem.value p.keys) p.val)) })
      { s with mem := s.mem.writeAll bs, poison := clearPoison s.poison bs }

/-- The fetch translation and fetch access checks of a code address, and the keys of its line's backing copy (R44, R73, R378). -/
def State.fetchKeys (s : State) (pc : Word) : Except Trap (List Nat) :=
  let base := lineBase pc
  if classAddr pc ≠ .user then .error ⟨0x08, 8, pc, some pc, 0⟩
  else
    match s.ownView.translate s.ctx .fetch false 0 base 64 with
    | .error t => .error { t with val := if t.cause = 0x60 then base else pc, pc := some pc }
    | .ok l => .ok (keysFrom (physOf l base.toNat) 64)

/-- Reads the backing copy of a line with the checks of a fetch (R44, R47, R378). -/
def State.readBacking (s : State) (pc : Word) : Fetched :=
  match s.fetchKeys pc with
  | .error t => .fault t
  | .ok keys =>
    if keys.any s.poisoned then .fault ⟨0x60, 0, lineBase pc, some pc, 0⟩
    else .line (BitVec.ofNat 512 (s.mem.value keys))

/-- The copy of a code address's line that the core's instruction store holds. -/
def State.heldLine (s : State) (pc : Word) : Option StoredLine :=
  (s.coreRec s.core).store.find? fun x => x.base = (lineBase pc).toNat

/-- The line that holds a code address: the store's copy, under the same translation and access checks, or else the backing
copy (R42, R73). -/
def State.fetchLine (s : State) (pc : Word) : Fetched :=
  match s.heldLine pc with
  | some x =>
    match s.fetchKeys pc with
    | .error t => .fault t
    | .ok _ => if parOk x.line && guardPar x.line == x.guard then .line x.line else .mismatch
  | none =>
    match s.readBacking pc with
    | .line l => if parOk l then .line l else .mismatch
    | r => r

/-- Upsets of the words that the walk of a fetch reads are met. -/
def State.meetFetchWalk (s : State) (pc : Word) : State := s.meetWalkOf s.ownView s.cur s.ctx (lineBase pc)

/-- Upsets of the words a fetch reads are met: its walk's, and the backing copy's where the store holds no copy (R47, R379,
R396). -/
def State.meetBacking (s : State) (pc : Word) : State :=
  let s := s.meetFetchWalk pc
  match s.fetchKeys pc with
  | .error _ => s
  | .ok keys => s.touchKeys s.cur keys

def State.meetFetch (s : State) (pc : Word) : State :=
  if s.upsets.isEmpty && s.exact.isEmpty then s
  else if (s.heldLine pc).isSome then s.meetFetchWalk pc
  else s.meetBacking pc

/-- R47's refetch of the line at a code address: the copy is discarded, the corrected soft error recorded, and a line that
still fails its PAR check is illegal. -/
def State.refetchLine (s : State) (pc : Word) : State × Except Trap Line :=
  let base := lineBase pc
  let c := s.core
  let s := s.modCore c fun x => { x with store := x.store.filter fun y => y.base != base.toNat }
  let s := (s.countCore c 0x04).logCorrected (dieOf c) 0x04 0xFF base s.me.wid (s.posOf c s.slot)
  let s := s.meetBacking pc
  let illegal (k : BitVec 8) : Except Trap Line := .error ⟨0x02, k, base, some pc, 0⟩
  (s, match s.readBacking pc with
    | .fault t => .error t
    | .mismatch => illegal 6
    | .line l =>
      match lineIllegal l with
      | some k => illegal k
      | none => if parOk l then .ok l else illegal 6)

/-- R48 on a line about to be entered. -/
def illegalLine (pc : Word) (l : Line) : Option Trap :=
  (lineIllegal l).map fun k => ⟨0x02, k, lineBase pc, some pc, 0⟩

/-- R71: a valid code address whose slot has its TGT bit. -/
def targetMiss (t : Word) (exempt : Bool) (l : Line) : Option Trap :=
  if validCode t && (exempt || isTgt l (slotIx t)) then none else some ⟨0x03, 0, t, some t, 0⟩

/-- The segment of a code address in a weave's image, from 1; none outside every segment (R320). -/
def segmentOf (ws : List Word) (a : Word) : Option Nat :=
  let cb := (recCB ws).toNat
  let k := (a.toNat - cb) / 16384
  if cb ≤ a.toNat ∧ 1 ≤ k ∧ k ≤ recNseg ws then some k else none

/-- R108: in shuttle mode, whether an address lies outside the current segment. -/
def State.leavesSegment (s : State) (a : Word) : Bool :=
  s.me.shm && decide (segmentOf (s.weaveWords s.me.wid) a ≠ some (s.me.seg.toNat % 2 ^ 16))

/-- The state in which a fetch that fails raises its cause: the errors of the words it read are met; the segment check comes before
any read (R73, R108). -/
def State.metFetch (s : State) (t : Word) : State := if s.leavesSegment t then s else s.meetFetch t

/-- Whether a transfer to t may be made, in the order of R73: the state with the line held and, on a parity mismatch, the
refetch noted. -/
def State.enter (s : State) (t : Word) (exempt : Bool) : Except Trap State :=
  if s.leavesSegment t then .error ⟨0x39, 3, t, some t, 0⟩
  else
    let s := s.meetFetch t
    match s.fetchLine t with
    | .fault x => .error x
    | .mismatch => .ok { s with me := { s.me with refetch := some (t, !exempt) } }
    | .line l =>
      match illegalLine t l with
      | some x => .error x
      | none =>
        match targetMiss t exempt l with
        | some x => .error x
        | none => .ok (s.keepLine (lineBase t).toNat l)

/-! ## Decoding at the program counter (R62, R69, R73) -/

/-- The chain whose first slot is k of a line, with the causes its encoding raises. -/
def decodeAt (pc : Word) (l : Line) : Except Trap Decoded :=
  let k := slotIx pc
  let at' (j : Nat) : Word := pc + BitVec.ofNat 64 (12 * j)
  match decodeSlots (slotsFrom l k) with
  | .ok d => .ok d
  | .error (.illegal j) => .error ⟨0x01, 0, (lineSlot l (k + j)).extractLsb' 32 64, some (at' j), 0⟩
  | .error (.misuse sub j) => .error ⟨0x04, BitVec.ofNat 8 sub, pc, some (at' j), 0⟩

/-- The last slot of the chain that starts at b, from the line that holds b (R42). -/
def chainEnd (b : Word) (l : Line) : Word :=
  let k := slotIx b
  let n := ((List.range 4).drop k).takeWhile fun j => isPfx l j
  b + BitVec.ofNat 64 (12 * n.length)

/-- What the strand's next turn finds at its program counter. -/
inductive Found where
  | run (d : Decoded) (s : State)
  | refetch (s : State)
  | fault (t : Trap)
  deriving Repr

/-- R49 and R73 at the slot the strand is about to execute: no transfer brought it here. -/
def State.lookup (s : State) : Found :=
  let pc := s.me.pc
  if s.leavesSegment pc then .fault ⟨0x39, 3, pc, some pc, 0⟩
  else
    let s := s.meetFetch pc
    match s.fetchLine pc with
    | .fault t => .fault t
    | .mismatch => .refetch { s with me := { s.me with refetch := some (pc, false) } }
    | .line l =>
      match illegalLine pc l with
      | some t => .fault t
      | none =>
        if !validCode pc then .fault ⟨0x03, 0, pc, some pc, 0⟩
        else
          match decodeAt pc l with
          | .error t => .fault t
          | .ok d =>
            let own := pc + BitVec.ofNat 64 (12 * (d.len - 1))
            let s := s.keepLine (lineBase pc).toNat l
            .run d { s with iss := ⟨pc, own, succAddr own, lineSlot l (slotIx own)⟩ }

end Sys2Proof.Machine
end

