-- ==== Sys2Proof/Machine/Ops.lean ====
section
/-! DEFINITION. What every meaning is built from: how an instruction's turn ends, taking a trap and a double fault, transfers,
the return from a trap, and the treadle's hold over later instructions (R33, R42, R43, R70 to R73, R114 to R118, R138 to R142). -/

namespace Sys2Proof.Machine

/-- How an instruction's turn ends: it has taken effect and the strand goes on at the next address; it traps, with the kept
effects of R43 in the state; it goes on waiting, and is tried again at the strand's next turn; or the strand has left its
slot. -/
inductive Res where
  | ok (s : State)
  | trap (s : State) (t : Trap)
  | wait (s : State) (w : WaitKind)
  | gone (s : State)
  deriving Repr

def Res.bind (r : Res) (f : State → Res) : Res :=
  match r with
  | .ok s => f s
  | r => r

/-- A change to a state that has taken effect. -/
def Res.map (f : State → State) (r : Res) : Res := r.bind fun s => .ok (f s)

/-! ## Leaving a slot -/

/-- A slot without a strand: its generations, its system registers and its entries' epochs stay, the last so that no reply to a
strand that has left lands in the slot's next (R39, R115, R222; log entry 108). -/
def Strand.free (x : Strand) : Strand :=
  { Strand.empty with weave := x.weave &&& 0xFF00, sysg := x.sysg, epochs := x.epochs, lastGen := x.lastGen }

/-! ## Gangs broken by a slot that frees (R145, R154) -/

/-- The cores of the gang an operation names. -/
def GangReq.cores (r : GangReq) : List CoreIx :=
  let c := coreOf r.strand
  let w := 2 ^ r.gw
  let b := loomPos c - loomPos c % w
  (List.range w).map fun i => loomCore c (b + i)

/-- Ends a member's wait at its operation. -/
def State.endGang (s : State) (r : GangReq) (st : Stage) : State :=
  let s := { s with gangs := s.gangs.filter fun (x : GangReq) => x.strand != r.strand }
  s.modStrand r.strand fun x => if r.pass then { x with tr := { x.tr with stage := st } } else { x with stage := st }

def gangTrap (sub : BitVec 8) : Stage := .gangTrap ⟨0x42, sub, 0, none, 0⟩

/-- Slot k's strand has left: its own gang operation is withdrawn, and every member that waits for the slot's strand ends its
wait with subcode 2 (R154). -/
def State.breakGangs (s : State) (k : StrandIx) : State :=
  let s := { s with gangs := s.gangs.filter fun (r : GangReq) => r.strand != k }
  (s.gangs.filter fun r => slotOf r.strand == slotOf k && r.cores.contains (coreOf k)).foldl
    (fun s r => s.endGang r (gangTrap 2)) s

def State.freeSlot (s : State) (k : StrandIx) : State := (s.modStrand k Strand.free).breakGangs k

/-! ## Save areas (R368) -/

/-- The length of the save area a weave needs now. -/
def State.saveLength (s : State) (wid strands : Nat) : Nat :=
  let w := s.weaveOf wid
  32 + (Config.freeLength [wid, strands, (s.net.shuttles.filter (·.wid = wid)).length, ((w.map (·.cores)).getD []).length]).toNat

/-- The next area of a partition's context region: areas are taken in turn, on 4 KiB boundaries. -/
def State.takeArea (s : State) (part len : Nat) : Nat × State :=
  let p := s.partRec part
  let off := if p.ctxs.toNat < p.area + len then 0 else p.area
  (p.ctxr.toNat + off, s.modPart part fun p => { p with area := off + (len + 4095) / 4096 * 4096 })

/-- A save area is written for a weave and an agent's position: the header's four words, the wake count zero, and the rest in the
device's own layout, which is a free value. What the area holds is kept in State.saves (log entry 77). -/
def State.writeArea (s : State) (addr wid len flags : Nat) (pos : Word) : State :=
  let s := s.meetRangeAs wid pos addr len
  let n := s.freeCtr
  { s with freeCtr := n + 1 }.perform (layBytes (keysFrom addr 8) wid ++ layBytes (keysFrom (addr + 8) 8) len
    ++ layBytes (keysFrom (addr + 16) 8) flags ++ layBytes (keysFrom (addr + 24) 8) 0
    ++ (List.range (len - 32)).map fun i => (addr + 32 + i, Config.freeArea n i)) none

/-! ## Taking a trap (R114) -/

/-- Whether a cause enters at level S (R113). -/
def levelS (cause : BitVec 8) : Bool :=
  [0x08, 0x09, 0x10, 0x11, 0x12, 0x15, 0x60, 0x70, 0x78].contains cause.toNat

/-- Whether a trap of a strand enters at the system level, before its transfer (R33, R114). -/
def entersSys (x : Strand) (cause : BitVec 8) : Bool := x.sys || levelS cause || x.wt || x.tvec == 0

def causeWord (t : Trap) : Word := BitVec.ofNat 64 (t.sub.toNat * 256 + t.cause.toNat)

/-- A TRSTOP that has not completed no longer stops the passes; the last of them may already have ended (R143). -/
def Treadle.unstop (tr : Treadle) : Treadle :=
  if tr.stop then { tr with stop := false, st := if tr.st = .running ∧ tr.k < tr.pass then .ready else tr.st } else tr

/-- The instruction that was under way ends. -/
def Strand.settle (x : Strand) : Strand :=
  { x with stage := .none, issued := none, half := none, waiting := none, waitSeq := none, refetch := none, tr := x.tr.unstop }

/-- The trap registers of the weave level (R114). -/
def Strand.enterW (x : Strand) (pc : Word) (t : Trap) (cnt : Word) : Strand :=
  { x.settle.setWt true with
    tpc := pc, tcause := causeWord t, tval := t.val, ttag := t.tag.setWidth 64, entW := some pc, trcnt := cnt, pc := x.tvec }

/-- The trap registers of the system level: PS takes SYS, and SR is cleared (R38, R114). -/
def Strand.enterS (x : Strand) (vec pc : Word) (t : Trap) (cnt : Word) : Strand :=
  { x.settle.setSys true with
    stpc := pc, stcause := causeWord t ||| (if x.sys then 0x4000000000000000 else 0), stval := t.val,
    sttag := t.tag.setWidth 64, entS := some pc, trcnt := cnt, pc := vec }

/-- Whether an area that holds n bytes from lo on overlaps a save area. -/
def Save.overlaps (v : Save) (lo n : Nat) : Bool := decide (v.addr < lo + n) && decide (lo < v.addr + v.len)

/-! ## Handler entries and the inbox (R269, R270, R301) -/

/-- The cycle counter of a core's die. -/
def State.now (s : State) (c : CoreIx) : Nat := s.cycle (dieOf c)

def entEn (e : Word) : Bool := e.getLsbD 63
def entBusy (e : Word) : Bool := e.getLsbD 61
def entPrio (e : Word) : Nat := (e.extractLsb' 59 2).toNat
def entAddr (e : Word) : Word := (e.extractLsb' 0 56).setWidth 64

/-- The native class of a message. -/
def prioClass (e : Word) : Nat := if entPrio e = 3 then 0 else 4 - entPrio e

def Core.handler (x : Core) (tag : BitVec 8) : Word := Tab.get 0 x.handlers tag.toNat

/-- Which waiting messages are dispatchable, and since when: the oldest of a tag that is enabled and not busy. -/
def refreshInbox (h : Tab Word) (now : Nat) : List (BitVec 8) → List InMsg → List InMsg
  | _, [] => []
  | seen, m :: r =>
    let e := Tab.get 0 h m.msg.tag.toNat
    let m' : InMsg :=
      if entEn e && !entBusy e && !seen.contains m.msg.tag then
        if m.since.isSome then m
        else { m with since := some now, first := m.first.or (some now), cls := prioClass e,
                      fcls := if m.first.isSome then m.fcls else prioClass e }
      else { m with since := none, cls := prioClass e }
    m' :: refreshInbox h now (m.msg.tag :: seen) r

def Core.refresh (now : Nat) (x : Core) : Core := { x with inbox := refreshInbox x.handlers now [] x.inbox }

def State.refresh (s : State) (c : CoreIx) : State := s.modCore c (Core.refresh (s.now c))

/-- A tag's handler is no longer busy: its next message is dispatchable. -/
def Core.unbusy (now : Nat) (t : BitVec 8) (x : Core) : Core :=
  Core.refresh now { x with handlers := Tab.set x.handlers t.toNat (setBit (x.handler t) 61 false) }

/-- A handler that a save held and that is never restored acts as HRET g0: its owed reply carries 0 and its tag's BUSY is 0 (R275),
in the area of its weave where that is saved. -/
def State.loseHandler (s : State) (k : StrandIx) (x : Strand) : State :=
  let c := coreOf k
  let reply : List TagReply := x.owed.toList.map fun r => ⟨r, 0, none, []⟩
  let free (y : Core) : Core := match x.htag with | some t => Core.unbusy (s.now c) t y | none => y
  let inArea (v : Save) : Save :=
    { v with replies := v.replies ++ reply, cores := v.cores.map fun (d, y) => (d, if d = c then free y else y) }
  if ((s.weaveOf x.wid).map (·.saved)).getD false then
    { s with saves := s.saves.map fun (v : Save) => if v.whole && v.wid == x.wid then inArea v else v }
  else
    let s := s.modNet fun n => { n with tagReplies := n.tagReplies ++ reply }
    s.modCore c fun y => if y.wid = some x.wid then free y else y

/-- Save areas of double faults that a new area overwrites: what they held is lost, and its handlers end. -/
def State.loseSaves (s : State) (lo n : Nat) : State :=
  let gone := s.saves.filter fun (v : Save) => v.overlaps lo n
  let s := (gone.filter fun v => !v.whole).foldl (fun s v => v.strands.foldl (fun s (k, x) => s.loseHandler k x) s) s
  { s with saves := s.saves.filter fun (v : Save) => !v.overlaps lo n }

/-- The current strand's state goes to the next area of its partition. An area in host memory outside the host's window takes no
write, and the state is lost (R114, R411; log entry 115). -/
def State.saveFaulted (s : State) : State :=
  let x := s.me
  let len := s.saveLength x.wid 1
  let (addr, s) := s.takeArea x.part len
  if !s.inWindow addr len then s.loseHandler s.cur x
  else
    let s := s.writeArea addr x.wid len 0 (s.posOf s.core s.slot)
    let sv : Save := { Save.blank x.wid addr len with strands := [(s.cur, x.settle)] }
    let s := s.loseSaves addr len
    { s with saves := s.saves ++ [sv] }

/-- A double fault stops the strand, writes its state to the partition's save area, and is logged and counted (R114, R402). -/
def State.doubleFault (s : State) : State :=
  let x := s.me
  let d := dieOf s.core
  let s := s.saveFaulted
  ((s.countDie d 0x23).logRec d 6 0 0xFF x.stpc x.wid (s.posOf s.core s.slot)).freeSlot s.cur

/-- Trap entry, one step with the trapping instruction; %trcnt reads 0 but at a treadle's pass fault (R114, R116, R142). -/
def State.takeTrap (s : State) (t : Trap) (cnt : Word) : State :=
  let x := s.me
  let pc := t.pc.getD s.iss.first
  let vec := (s.partRec x.part).sysvec
  let system (s : State) (pc : Word) (t : Trap) (cnt : Word) : State :=
    let s' := { s with me := s.me.enterS vec pc t cnt }
    match s'.enter vec false with
    | .ok s'' => s''
    | .error _ => (s'.metFetch vec).doubleFault
  if x.sys then
    if x.stcause.getLsbD 63 then system s pc t cnt else s.doubleFault
  else if entersSys x t.cause then system s pc t cnt
  else
    let s' := { s with me := x.enterW pc t cnt }
    match s'.enter x.tvec false with
    | .ok s'' => s''
    | .error u => system (s'.metFetch x.tvec) (u.pc.getD x.tvec) u 0

/-- What follows an instruction's turn; s0 is the state before it. A trap raised while the strand's own passes run is entered
only once they have ended (R141). -/
def Res.settle (r : Res) (s0 : State) : State :=
  match r with
  | .ok s => { s with me := { s.me.settle with refetch := s.me.refetch, pc := s.iss.next } }
  | .gone s => s
  | .wait s w => { s with me := { s.me with waiting := some w } }
  | .trap s t =>
    if s0.me.tr.st = .running then { s0 with me := { s0.me with waiting := some .treadle } } else s.takeTrap t 0

def Res.finish (r : Res) (s0 : State) : Host.Outcome State Fault Refusal := .next (r.settle s0)

/-- A step of the device or the host always takes a next state. -/
def eventStep (s : State) : Host.Outcome State Fault Refusal := .next s

/-- The strand has had a side effect (R307). -/
def State.sided (s : State) : State := { s with me := { s.me with side := true } }

/-! ## Causes -/

def trapOf (s : State) (cause sub : BitVec 8) (val : Word) : Res := .trap s ⟨cause, sub, val, none, 0⟩

/-- A trap of an instruction that cannot be tried again, delayed by passes under way: it is taken once they have ended (R141). -/
def heldTrap (s : State) (t : Trap) : Res := .wait { s with me := { s.me with stage := .orphaned t } } .treadle

/-- RequireSystem() (R42, R120). -/
def requireSys (s : State) (r : Res) : Res := if s.me.sys then r else trapOf s 0x05 0 0

/-- Illegal instruction raised by an operand: %tpc holds the slot that holds the operand's instruction, also behind prefixes, and
%tval its bits 95:32 (R62, R70; log entry 105). -/
def illegalHere (s : State) : Res :=
  .trap s { cause := 0x01, val := s.iss.word.extractLsb' 32 64, pc := some s.iss.own }

/-! ## Transfers (R42, R106 to R109, R118) -/

/-- Transfer(t); what the state holds already is kept if the transfer faults. -/
def State.transfer (s : State) (t : Word) (exempt : Bool) : Res :=
  match s.enter t exempt with
  | .ok s' => .ok { s' with iss := { s'.iss with next := t } }
  | .error x => .trap (s.metFetch t) x

/-- The strand with the current trap level left: the return address, whether it equals the entry record, and the strand
(R72, R118, R142). Which %rmode and predicates the passes that go on use is the model's choice: the strand's own where it has changed
them since the suspension, else the TRRUN's (log entry 122). -/
def Strand.leaveLevel (x : Strand) : Word × Bool × Strand :=
  let resume (sysLevel : Bool) (tr : Treadle) : Treadle :=
    if tr.st = .suspended ∧ tr.susSys = sysLevel then
      { tr with st := .running, p := if x.p = tr.susP then tr.p else x.p, rmode := if x.rmode = tr.susRmode then tr.rmode else x.rmode }
    else tr
  if x.sys then
    (x.stpc, decide (x.entS = some x.stpc),
      { x.setSys (x.stcause.getLsbD 62) with entS := none, tr := resume true x.tr })
  else (x.tpc, decide (x.entW = some x.tpc), { x.setWt false with entW := none, tr := resume false x.tr })

/-- The line that holds the return address of ERET.N (R42, R118). -/
def State.chainLine (s : State) (b : Word) : State × Except Trap Line :=
  let s := s.meetFetch b
  match s.fetchLine b with
  | .fault t => (s, .error t)
  | .mismatch => s.refetchLine b
  | .line l =>
    match illegalLine b l with
    | some t => (s, .error t)
    | none => (s, .ok l)

/-- The wait that a notice interrupted is given up by a return elsewhere than to its instruction (R370). -/
def Strand.keepParked (x : Strand) (b : Word) (exempt : Bool) : Strand :=
  if x.sys then x else { x with parked := x.parked.filter fun p => exempt && p.1 == b }

/-- A fault of the transfer of a return that has resumed the treadle's passes waits for them, with the level left (R118, R141, R142);
a pass that faults meanwhile reports the return's target (log entry 122). -/
def Res.afterResume (r : Res) (resumed : Bool) (b : Word) : Res :=
  match r with
  | .trap s t => if resumed then heldTrap { s with me := { s.me with pc := t.pc.getD b } } t else .trap s t
  | r => r

def State.eret (s : State) (n : Bool) : Res :=
  if !s.me.sys && !s.me.wt then trapOf s 0x01 0 0
  else
    let (b, exempt, x) := s.me.leaveLevel
    let resumed := s.me.tr.st != .running && x.tr.st == .running
    let s := { s with me := x.keepParked b (exempt && !n) }
    let r : Res :=
      if n then
        match s.chainLine b with
        | (s', .error t) => .trap s' t
        | (s', .ok l) => s'.transfer (succAddr (chainEnd b l)) exempt
      else s.transfer b exempt
    r.afterResume resumed b

/-! ## The treadle's hold over later instructions (R138, R141) -/

/-- Entries that access memory: MLD, MST and loom operands in the scratchpad. -/
def entryTouchesMem : Instr → Bool
  | .mld _ | .mst _ => true
  | .mma x => x.asp || x.bsp
  | .mmaS x => x.asp || x.bsp
  | _ => false

/-- A recordable form whose rounding-mode field names the generator. -/
def namesGenerator : Instr → Bool
  | .vadd x => x.rnd == some .stochastic | .vsub x => x.rnd == some .stochastic | .vmul x => x.rnd == some .stochastic
  | .vfma x => x.rnd == some .stochastic | .vdiv x => x.rnd == some .stochastic | .vsqrt x => x.rnd == some .stochastic
  | .vrcp x => x.rnd == some .stochastic | .vrsqrt x => x.rnd == some .stochastic | .vexp2 x => x.rnd == some .stochastic
  | .vcvt x => x.rnd == some .stochastic | .vdot4 x => x.rnd == some .stochastic
  | _ => false

/-- Whether passes that run may step the generator. They stand at the TRRUN in program order, so a later instruction's step, and
a read or write of %rmode, comes after all of theirs (R36, R141). -/
def Treadle.mayDraw (tr : Treadle) : Bool :=
  tr.st == .running && (tr.rmode.extractLsb' 0 3 == 5 || tr.entries.any fun e => namesGenerator e.instr)

/-- A form that reads or writes vector registers beside rows 0x8 to 0xC stands after the passes too (R141). -/
def afterPasses (s : State) (r : Res) : Res := if s.me.tr.st = .running then .wait s .treadle else r

/-- A memory access, message, copy or launch waits while passes that access memory run. -/
def afterMemPasses (s : State) (r : Res) : Res :=
  if s.me.tr.st = .running ∧ s.me.tr.entries.any (fun e => entryTouchesMem e.instr) then .wait s .treadle else r

/-- Whether an instruction is taken up by, or refused by, a recording treadle. -/
def State.recording (s : State) : Bool := decide (s.me.tr.st = .recording) && !s.me.sys && !s.me.wt

/-- Appends an entry with the g registers it read; the N-th makes the record ready. -/
def Treadle.append (tr : Treadle) (e : TrEntry) : Treadle :=
  let es := tr.entries ++ [e]
  { tr with entries := es, st := if tr.n ≤ es.length then .ready else tr.st }

/-- A recordable form: waits while passes run, and once it has taken effect is appended to a recording treadle. -/
def recordable (i : Instr) (reads : List GReg) (s : State) (r : State → Res) : Res :=
  if s.me.tr.st = .running then .wait s .treadle
  else
    let e : TrEntry := ⟨i, guardOf s.iss.word, reads.map fun g => (g, s.rg g)⟩
    let note := s.recording
    (r s).map fun s' => if note then { s' with me := { s'.me with tr := s'.me.tr.append e } } else s'

/-- A vector or loom form that is not recordable. -/
def notRecordable (s : State) (r : State → Res) : Res :=
  if s.me.tr.st = .running then .wait s .treadle
  else if s.recording then trapOf s 0x48 2 0
  else r s

end Sys2Proof.Machine
end

