-- ==== Sys2Proof/Machine/Order.lean ====
section
/-! DEFINITION. Reads, posted writes and atomics with the waits that order them, release tags and scope misses, and the wakes
a home sends (R178, R181 to R186, R190 to R199, R212, R230 to R236, R255, R397). -/

namespace Sys2Proof.Machine

/-! ## Scopes and tags (R230, R231, R236, R255) -/

/-- The ordering and scope of an access; its own ordering is plain at fabric scope (R187, R230). -/
structure Attr where
  ord : Ordering := .own
  scope : Scope := .fabric
  deriving DecidableEq, Repr

def attrOf (p : Option ScopePfx) : Attr :=
  match p with
  | some q => ⟨q.ord, q.scope⟩
  | none => {}

def Attr.acquires (a : Attr) : Bool := a.ord == .acq || a.ord == .acqRel
def Attr.releases (a : Attr) : Bool := a.ord == .rel || a.ord == .acqRel

/-- Whether a scope includes a pair of cores (R231). -/
def inScope (sc : Scope) (a b : CoreIx) : Bool :=
  match sc with
  | .core => a == b
  | .tile => tileOf a == tileOf b
  | .block => blockOf a == blockOf b
  | .die => dieOf a == dieOf b
  | .package | .fabric => true

/-- Whether a scope around an agent includes a strand's core, and one around the strand the agent (R231). -/
def Agent.within (sc : Scope) (a : Agent) (c : CoreIx) : Bool :=
  match a with
  | .core d => inScope sc d c
  | .engine t => inScope sc (if tileOf c = t then c else tileCore t 0) c
  | .pageIn => sc == .fabric

/-- Whether a tag met by a synchronising read at a core and scope fails R237 on scope. -/
def missed (c : CoreIx) (sc : Scope) (t : SyncTag) : Bool := !(t.agent.within t.scope c && t.agent.within sc c)

/-- The release tags a read returned: checked at an acquire, kept for the first acquire fence otherwise (R236, R255). An acquire read
that a fence of another scope follows is judged at the read alone, which is the model's choice (log entry 125). -/
def State.noteTags (s : State) (a : Attr) (ts : List SyncTag) : State :=
  if ts.isEmpty then s
  else if a.acquires then
    if ts.any (missed s.core a.scope) then s.addFlags Num.scm else s
  else { s with me := { s.me with readTags := (s.me.readTags ++ ts).eraseDups } }

/-- The tag a write leaves, if it is synchronising (R236). A release or ST.OF that also stands after a release fence bears its own
scope, which is the model's choice (log entry 124). -/
def State.syncOf (s : State) (a : Attr) (of : Bool) : Option SyncTag :=
  if a.releases || of then some ⟨.core s.core, a.scope⟩ else s.me.relFence.map fun sc => ⟨.core s.core, sc⟩

/-! ## Waits at issue (R183, R185, R186, R212, R235) -/

def State.posted (s : State) : List Posted := (s.coreRec s.core).posted

/-- Every posted write the core issued before number n has been acknowledged. -/
def State.postedDone (s : State) (n : Nat) : Bool := s.posted.all fun p => decide (n ≤ p.seq)

/-- Every landing-set entry is neither pending nor reissued. -/
def Strand.lsQuiet (x : Strand) : Bool := x.ls.all fun e => e.st != .pending && e.st != .reissued

/-- The moment the current instruction came to issue, in the core's count of posted writes. -/
def State.issueSeq (s : State) : Nat := s.me.waitSeq.getD (s.coreRec s.core).nextSeq

def State.markIssue (s : State) : State := { s with me := { s.me with waitSeq := some s.issueSeq } }

/-- The waits of a release (R235). A gang's scratchpad operands are read as it forms, and a strand waits at its own MMA until
then. -/
def releaseWait (s : State) (k : State → Res) : Res :=
  let s := s.markIssue
  if s.postedDone s.issueSeq && s.me.lsQuiet then k s else .wait s .drain

/-- The wait of FENCE.ST (R185). -/
def fenceStWait (s : State) (k : State → Res) : Res :=
  let s := s.markIssue
  if s.postedDone s.issueSeq then k s else .wait s .drain

/-- A live .acq entry holds back the strand's memory operations (R212). -/
def Strand.acqHold (x : Strand) : Bool := x.ls.any fun e => e.req.acq

/-- The waits common to every memory operation, message, copy and launch. -/
def memOp (s : State) (k : State → Res) : Res :=
  afterMemPasses s (if s.me.acqHold then .wait s .hold else k s)

def keysMeet (ks : List Nat) (rs : List (Nat × Nat)) : Bool :=
  ks.any fun k => rs.any fun (lo, n) => decide (lo ≤ k) && decide (k < lo + n)

/-- Keys as runs of consecutive ones. -/
def runsOf : List Nat → List (Nat × Nat)
  | [] => []
  | k :: ks =>
    match runsOf ks with
    | (lo, n) :: r => if k + 1 = lo then (k, n + 1) :: r else (k, 1) :: (lo, n) :: r
    | [] => [(k, 1)]

/-- Whether keys touch an earlier unacknowledged posted write of the strand. -/
def State.ownPosted (s : State) (ks : List Nat) : Bool :=
  s.posted.any fun p => p.strand == s.cur && keysMeet ks p.keys

/-- Whether a write touches a byte that an earlier pending or reissued entry of the strand reads. -/
def State.pendingRead (s : State) (ks : List Nat) : Bool :=
  s.me.ls.any fun e =>
    (e.st == .pending || e.st == .reissued) && !e.req.rq &&
      match s.check s.ctx .load false 1 e.req.addr e.req.addr (e.req.ty.width / 8) with
      | .ok x => x.readKeys.any ks.contains
      | .error _ => false

/-- Whether every class has room for one more posted write toward each of some homes (R183). -/
def State.classRoom (s : State) (homes : List Nat) : Bool :=
  homes.all fun h =>
    decide ((s.posted.filter fun p => p.cls == classOf h).length + (homes.filter fun g => classOf g == classOf h).length ≤ 4095)

/-- ST.OF's wait for its own class (R186). -/
def State.classDone (s : State) (h : Nat) : Bool :=
  s.posted.all fun p => p.cls != classOf h || decide (s.issueSeq ≤ p.seq)

/-! ## Wakes (R192 to R194, R370) -/

def State.allStrands (s : State) : List StrandIx := (s.cur :: s.strands.map (·.1)).eraseDups

/-- Changes the stage a strand waits in: the current one, or the one it resumes after a notice (R370). -/
def Strand.rewait (x : Strand) (f : Stage → Option Stage) : Strand :=
  match f x.stage, x.parked with
  | some st, _ => { x with stage := st }
  | none, some (pc, st, i) =>
    match f st with
    | some st' => { x with parked := some (pc, st', i) }
    | none => x
  | none, none => x

/-- The keys of the word a stage waits on, if the word begins at a key. -/
def waitsOn (key : Nat) : Stage → Option (List Nat)
  | .waiter ks => if ks.headD 0 = key then some ks else none
  | _ => none

/-- The stages a strand may be waiting in. -/
def Strand.waits (x : Strand) : List Stage := x.stage :: (x.parked.map (·.2.1)).toList

/-- Wakes every resident strand that waits on a word, each with the word's value at its own size, the release tags it bears and
whether the word is past correction, as a read of the waiter's (R192 to R194, R396, R397): also a waiter of another size than the
access that wakes it (log entry 106). -/
def State.wakeResident (s : State) (key : Nat) : State :=
  s.allStrands.foldl (fun s k =>
    match (s.strand k).waits.findSome? (waitsOn key) with
    | some ks =>
      let s := s.touchKeys k ks
      let v := s.mem.value ks
      let ts := s.tagsOf ks
      let bad := ks.any s.poisoned
      let s := s.modStrand k fun x => x.rewait fun st => (waitsOn key st).map fun _ => .wakeSent
      s.modNet fun n => { n with wakes := n.wakes ++ [⟨k, (s.strand k).gen, v, ts, bad⟩] }
    | none => s) s

/-- A wake noted in a save area: the strand's stage, and the header's count, written as an access of that strand. -/
def State.noteWake (s : State) (sv : Save) (k : Nat) (f : Stage → Option Stage) : State :=
  let put (p : Nat × Strand) : Nat × Strand := if p.1 = k then (p.1, p.2.rewait f) else p
  let sv' : Save := { sv with strands := sv.strands.map put, wakes := sv.wakes + 1 }
  let s := { s with saves := s.saves.map fun (x : Save) => if x.addr = sv.addr then sv' else x }
  let count := keysFrom (sv.addr + 24) 8
  (s.meetUpsetsAs sv.wid (s.posOf (coreOf k) (slotOf k)) count).perform (layBytes count sv'.wakes) none

/-- The saved strands that wait on a word: their area, slot and the word's keys. -/
def State.savedWaiters (s : State) (key : Nat) : List (Nat × Nat × List Nat) :=
  s.saves.flatMap fun sv => sv.strands.filterMap fun (k, x) =>
    (x.waits.findSome? (waitsOn key)).map fun ks => (sv.addr, k, ks)

/-- Wakes every strand that waits on a word, resident or saved. A wake recorded in a save area is followed by AWAKE of the
header's fourth word, on which further strands may wait (R194, R370); n bounds how many areas follow one another. -/
def State.wakeChain : Nat → State → Nat → State
  | 0, s, key => s.wakeResident key
  | n + 1, s, key =>
    let s := s.wakeResident key
    (s.savedWaiters key).foldl (fun s (a, k, ks) =>
      match s.saves.find? fun sv => sv.addr = a with
      | some sv =>
        let s := s.touchAs sv.wid (s.posOf (coreOf k) (slotOf k)) ks
        let st : Stage := .woken (s.mem.value ks) (s.tagsOf ks) (ks.any s.poisoned)
        wakeChain n (s.noteWake sv k fun t => (waitsOn key t).map fun _ => st) (a + 24)
      | none => s) s

def State.wakeWord (s : State) (key : Nat) : State := s.wakeChain (s.saves.flatMap (·.strands)).length key

/-- A wake recorded in a save area: the header's count rises and AWAKE is performed on its fourth word. -/
def State.recordWake (s : State) (sv : Save) (k : Nat) (f : Stage → Option Stage) : State :=
  (s.noteWake sv k f).wakeWord (sv.addr + 24)

/-! ## Reads at a home -/

/-- A home serves the parts of a load of strand k: their values, the release tags met, and the fault of the lowest part that
meets a poisoned word (R181, R199, R397). -/
def State.serveOf (s : State) (k : StrandIx) (parts : List (Nat × Site)) :
    State × List (Nat × Nat) × List SyncTag × Option (Nat × Trap) :=
  parts.foldl (fun (s, got, tags, f) ((i, x) : Nat × Site) =>
    let ks := x.readKeys
    let s := s.meetUpsetsOf k ks
    if s.sitePoisoned x then
      (s, got, tags, f.or (some (i, ⟨0x60, 0, x.addr, none, 0⟩)))
    else ((s.fold ks), got ++ [(i, s.readSite x)], tags ++ s.tagsOf ks, f)) (s, [], [], none)

/-- The same for the current strand. -/
def State.serve (s : State) (parts : List (Nat × Site)) :
    State × List (Nat × Nat) × List SyncTag × Option (Nat × Trap) := s.serveOf s.cur parts

/-- A plain load. The plan is made and checked when the instruction first issues; its parts are numbered by element, and the
values come back by number (R182, R235). -/
def State.load (s : State) (a : Attr) (plan : Except Trap (List (Nat × Site)))
    (k : State → List (Nat × Nat) → Res) : Res :=
  match s.me.stage with
  | .loadDone got tags _ => k (s.noteTags a tags) got
  | .loadFault t => .trap s t
  | .loadOut .. => .wait s .load
  | _ =>
    match plan with
    | .error t => .trap s t
    | .ok parts =>
      let ks := parts.flatMap fun p => p.2.readKeys ++ p.2.reads.flatMap fun r => keysFrom r 8
      if s.ownPosted ks then .wait s .drain
      else if s.prompt || parts.all fun p => p.2.loc then
        if s.brokenLocal ks then .wait s .load else
        let (s', got, tags, f) := s.serve parts
        match f with
        | some (_, t) => .trap s' t
        | none => k (s'.noteTags a tags) got
      else
        let homes := (parts.map fun p => p.2.home).eraseDups
        let (id, s) := s.fresh
        let reqs := homes.map fun h =>
          ({ id := id, core := s.core, strand := s.cur, gen := s.me.gen, seq := 0, scope := a.scope,
             kind := .load (parts.filter fun p => p.2.home == h), tagged := none } : NetReq)
        let s := s.modNet fun n => { n with reqs := n.reqs ++ reqs }
        .wait { s with me := { s.me with stage := .loadOut id homes.length [] [] none } } .load

/-! ## Page walks of accesses that are not prompt (R382, R383) -/

/-- The page a walk serves. -/
def Walk.serves (w : Walk) (x : Ctx) (va : Word) : Bool :=
  w.tile == tileOf x.core && w.part == x.part && w.root == x.root && w.va == (va &&& ~~~0x1FFF#64)

/-- Whether a walk is for the page that holds an address, as large as its entry makes it (R376, R383). -/
def State.walksPage (s : State) (w : Walk) (x : Ctx) (va : Word) : Bool :=
  let size := s.pageAt x va
  w.tile == tileOf x.core && w.part == x.part && w.root == x.root && decide (w.va.toNat / size = va.toNat / size)

/-- A miss of the tile's TLB: its walk joins one already running for the page, or starts while fewer than 64 distinct misses of
the tile are outstanding (R382, R383). -/
def State.addWalk (s : State) (x : Ctx) (a : Word) : State :=
  let open' := s.net.walks.filter fun w => !w.failed && w.tile == tileOf x.core
  if (open'.any fun w => s.walksPage w x a) || 64 ≤ open'.length then s
  else s.modNet fun n => { n with walks := n.walks ++ [⟨tileOf x.core, x.core, x.part, x.root, a, false⟩] }

/-- The keys of the entries that the walks of some addresses read. -/
def State.pathKeys (s : State) (x : Ctx) (addrs : List Word) : List Nat :=
  (addrs.filter fun a => classAddr a == .user && (s.cached x a.toNat).isNone).flatMap fun a =>
    (s.walkWords a.toNat 3 x.root).flatMap fun r => keysFrom r 8

/-- Before an access's own checks. Its walks' reads stand in the strand's program order: they wait for the strand's own posted
writes of the entries (R383), and meet the upsets of those words. Where the access is not prompt, each user page that no TLB
holds is then walked: the tile's TLB merges the walk with one already running. A walk that has ended without a cached leaf
leaves its fault to the access itself. An address that is no multiple of n is not translated, nor any after it (R180). -/
def State.walked (s : State) (n : Nat) (as : List Word) (k : State → Res) : Res :=
  let addrs := as.takeWhile fun a => a.toNat % n == 0
  if s.me.stage != .none then k s
  else if s.ownPosted (s.pathKeys s.ctx addrs) then .wait s .drain
  else
    let s := addrs.foldl (fun s a => s.meetWalk s.ctx a) s
    if s.prompt then k s
    else
    let x := s.ctx
    let miss := (addrs.filter fun a => classAddr a == .user && (s.cached x a.toNat).isNone).map (· &&& ~~~0x1FFF#64)
    match miss.eraseDups.find? fun a => !s.net.walks.any fun w => w.serves x a && w.failed with
    | some a => .wait (s.addWalk x a) .walk
    | none =>
      k (s.modNet fun n => { n with walks := n.walks.filter fun w => !(w.failed && miss.any fun a => w.serves x a) })

/-! ## Posted writes -/

/-- Counts a posted write toward a home: its number, and the state. -/
def State.postOne (s : State) (home : Nat) (ks : List Nat) : Nat × State :=
  let c := s.core
  let n := (s.coreRec c).nextSeq
  (n, s.modCore c fun x =>
    { x with nextSeq := n + 1, posted := x.posted ++ [⟨n, classOf home, s.cur, s.me.wid, runsOf ks⟩] })

/-- A write or contribution of strand k discarded on its way is counted and logged with the writer's weave and position (R397,
R399, R402). -/
def State.discarded (s : State) (k : StrandIx) (blk : Nat) (loc : Word) (wid : Nat) : State :=
  (s.countBlock blk 0x14).logRec (blk / 160) 10 0x0B 0xFF loc wid (s.posOf (coreOf k) (slotOf k))

/-- One element of a store: where it goes and its bytes, and the number of the access it belongs to, where an instruction makes
several (R164). -/
structure Put where
  site : Site
  bytes : List (Nat × Byte)
  part : Nat := 0
  deriving DecidableEq, Repr

/-- Whether no byte of a list of elements is written twice. -/
def putsApart : List Put → Bool
  | [] => true
  | p :: r => (p.bytes.all fun b => !r.any fun q => q.bytes.any fun c => c.1 == b.1) && putsApart r

/-- How the elements of one packet reach its home: each on its own, since no order stands among them (R179, R202); those that share
a byte, and the blocks of a format page, together. -/
def putPieces (ps : List Put) : List (List (Nat × Byte)) :=
  if putsApart ps && ps.all fun p => p.site.fmt.isNone then ps.map (·.bytes) else [ps.flatMap (·.bytes)]

/-- The homes an element's bytes reach: a format page's codes and scale bytes may lie in both stacks of its die (R183). -/
def Put.homes (p : Put) : List Nat :=
  if p.site.fmt.isSome then (p.bytes.map fun b => physClass b.1).eraseDups else [p.site.home]

/-- The packets of posted elements, each with the homes it counts for: one for each home a write reaches; a write with blocks of
a format page goes as one, since each block changes as a unit (R91, R183, R203). -/
def putPackets (far : List Put) : List (List Nat × List Put) :=
  (far.map (·.part)).eraseDups.flatMap fun j =>
    let ps := far.filter fun p => p.part == j
    let homes := (ps.flatMap Put.homes).eraseDups
    if ps.any fun p => p.site.fmt.isSome then [(homes, ps)]
    else homes.map fun h => ([h], ps.filter fun p => p.site.home == h)

/-- The elements that are posted writes, also those toward a package without a path, which are discarded and acknowledged (R182,
R420). -/
def outPuts (puts : List Put) : List Put := puts.filter fun p => !p.site.loc

/-- The elements that are posted and arrive: neither local nor toward a package without a path. -/
def farPuts (puts : List Put) : List Put := puts.filter fun p => !p.site.loc && !p.site.away

/-- Counts one packet toward each of its homes. -/
def State.postAll (s : State) (homes : List Nat) (ks : List Nat) : List Nat × State :=
  homes.foldl (fun (ns, s) h =>
    let (n, s) := s.postOne h ks
    (ns ++ [n], s)) ([], s)

/-- Stores that have passed their checks: local ones are performed, the others posted, one posted write to each home, which its
elements reach one by one; one that no path reaches is counted and logged once (R182, R183, R202, R291, R420). -/
def State.putAll (s : State) (sync : Option SyncTag) (scope : Scope) (puts : List Put) : State :=
  let near := puts.filter fun p => p.site.loc
  let away := putPackets (puts.filter fun p => p.site.away)
  let nb := near.flatMap (·.bytes)
  let s := if nb.isEmpty then s else (s.meetUpsets (nb.map (·.1))).perform nb sync
  let s := away.foldl (fun s w => (w.2.take 1).foldl (fun s p => s.discarded s.cur (blockOf s.core) p.site.addr s.me.wid) s) s
  (putPackets (farPuts puts)).foldl (fun s (homes, ps) =>
    let (seqs, s) := s.postAll homes (ps.flatMap fun p => p.bytes.map (·.1))
    (putPieces ps).foldl (fun s bs =>
      let (id, s) := s.fresh
      s.modNet fun (n : Net) => { n with reqs := n.reqs ++
        [{ id := id, core := s.core, strand := s.cur, gen := s.me.gen, seq := seqs.headD 0, also := seqs.drop 1, scope := scope,
           kind := .store bs sync, tagged := none }] }) s) s

/-- A store of any form, its checks made: the waits of R183, R186 and R235, then the write. -/
def State.store (s : State) (a : Attr) (of : Bool) (puts : List Put) (k : State → Res) : Res :=
  let go (s : State) : Res :=
    let ks := puts.flatMap fun p => p.bytes.map (·.1)
    let homes := (putPackets (outPuts puts)).flatMap (·.1)
    let rd := puts.flatMap fun p => p.site.reads.flatMap fun r => keysFrom r 8
    if s.ownPosted (ks ++ rd) || s.pendingRead ks then .wait s .drain
    else if of && !puts.all (fun p => s.classDone p.site.home) then .wait s .drain
    else if s.brokenLocal ((puts.filter fun p => p.site.loc).flatMap fun p => p.bytes.map (·.1)) then .wait s .load
    else if !s.classRoom homes then .wait s .room
    else if puts.any fun p => p.site.loc && p.bytes.any fun b => s.claimed b.1 then .wait s .loom
    else
      let s := s.putAll (s.syncOf a of) a.scope puts
      k (if puts.isEmpty then s else s.sided)
  let s := if of then s.markIssue else s
  if a.releases then releaseWait s go else go s

/-! ## Atomics (R190 to R192, R196) -/

/-- A read-modify-write keeps the word's release tag unless it is itself synchronising (R236, R255). -/
def State.performRmw (s : State) (bs : List (Nat × Byte)) (sync : Option SyncTag) : State :=
  match sync with
  | some _ => s.perform bs sync
  | none => { s.perform bs none with relTags := s.relTags }

/-- An atomic of strand k at its home, one step: the state, the old value, flags, tags met, and a fault (R190, R397). -/
def State.doAtomOf (s : State) (k : StrandIx) (op : AtomOp) (ty : Ty) (x : Site) (b c : Word) (sync : Option SyncTag) :
    State × Nat × Num.Flags × List SyncTag × Option Trap :=
  let s := s.meetUpsetsOf k x.keys
  if s.sitePoisoned x then (s, 0, 0, [], some ⟨0x60, 0, x.addr, none, 0⟩)
  else
    let old := s.mem.value x.keys
    let tags := s.tagsOf x.keys
    let (new, fl) := atomNew op ty old b c
    if op = .cas ∧ old ≠ b.toNat % 2 ^ ty.width then (s.fold x.keys, old, fl, tags, none)
    else
      let s := s.performRmw (layBytes x.keys new) sync
      let w := ty.width
      let t := Num.readInt true w (c.toNat % 2 ^ w)
      let crosses := decide (op = .addt) && decide (Num.readInt true w old < t) && decide (t ≤ Num.readInt true w new)
      (if crosses then s.wakeWord (x.keys.headD 0) else s, old, fl, tags, none)

/-- The same for the current strand. -/
def State.doAtom (s : State) (op : AtomOp) (ty : Ty) (x : Site) (b c : Word) (sync : Option SyncTag) :
    State × Nat × Num.Flags × List SyncTag × Option Trap := s.doAtomOf s.cur op ty x b c sync

/-- Step 5 of R180 for an access that no format page takes (R203). -/
def noFormat (a : Word) (x : Site) (sub : BitVec 8) : Except Trap Site :=
  if x.fmt.isSome then .error ⟨0x17, sub, a, none, 0⟩ else .ok x

/-- The checks of an atomic, RED, WAITA or AWAKE (R177 to R180, R203). -/
def State.checkAtom (s : State) (x : Ctx) (k : AccKind) (a : Word) (n : Nat) : Except Trap Site :=
  (s.check x k true n a a n).bind fun y => noFormat a y 2

/-- The checks of a RED: rights as an atomic, and a home without a path discards it (R195, R203, R420). -/
def State.checkRed (s : State) (x : Ctx) (first a : Word) (n : Nat) : Except Trap Site :=
  (s.check x (if classAddr a = .user then .rmw else .store) true n first a n).bind fun y =>
    if y.fmt.isSome then .error ⟨0x17, 2 ||| s.laterPage x first a, a, none, 0⟩ else .ok y

/-- A read-modify-write is a side effect; an ACAS whose comparison fails is only a read (R228, R307). -/
def sidedAtom (op : AtomOp) (ty : Ty) (b : Word) (old : Nat) (s : State) : State :=
  if op = .cas ∧ old ≠ b.toNat % 2 ^ ty.width then s else s.sided

/-- A returning atomic: checks, the waits of its ordering, the home's step and the reply (R182, R190, R235). -/
def State.atomic (s : State) (a : Attr) (op : AtomOp) (ty : Ty) (addr b c : Word)
    (k : State → Nat → Num.Flags → Res) : Res :=
  match s.me.stage with
  | .loadDone got tags fl =>
    let old := (got.map (·.2)).headD 0
    k (sidedAtom op ty b old (s.noteTags a tags)) old fl
  | .loadFault t => .trap s t
  | .loadOut .. => .wait s .load
  | _ =>
    match s.checkAtom s.ctx .rmw addr (ty.width / 8) with
    | .error t => .trap s t
    | .ok x =>
      let go (s : State) : Res :=
        if s.ownPosted (x.keys ++ x.reads.flatMap fun r => keysFrom r 8) || s.pendingRead x.keys then .wait s .drain
        else if x.loc && x.keys.any s.claimed then .wait s .loom
        else if s.prompt && x.keys.any s.claimed then .wait s .loom
        else if (s.prompt || x.loc) && s.brokenLocal x.keys then .wait s .load
        else if s.prompt || x.loc then
          let (s', old, fl, tags, f) := s.doAtom op ty x b c (s.syncOf a false)
          match f with
          | some t => .trap s' t
          | none => k (sidedAtom op ty b old (s'.noteTags a tags)) old fl
        else
          let (id, s) := s.fresh
          let s := s.modNet fun n => { n with reqs := n.reqs ++
            [{ id := id, core := s.core, strand := s.cur, gen := s.me.gen, seq := 0, scope := a.scope,
               kind := .atom op ty x b c (s.syncOf a false), tagged := none }] }
          .wait { s with me := { s.me with stage := .loadOut id 1 [] [] none } } .load
      if a.releases then releaseWait s go else go s

/-! ## Writes as they land -/

/-- The bytes of a write of strand k that meet quarantined cores are discarded: one write is counted and logged once, with the first
of their addresses (R183, R399, R402, R404). -/
def State.dropDead (s : State) (k : StrandIx) (bs : List (Nat × Byte)) (wid : Nat) : State :=
  match bs.find? fun b => s.deadKey b.1 with
  | some (j, _) => s.discarded k (blockOf (((localOf j).map (·.1)).getD 0)) (s.keyLoc j) wid
  | none => s

/-- A posted write of strand k at its home, or a piece of one: bytes of quarantined cores are discarded, which counted tells has been
counted already, and the rest are performed. -/
def State.landWrite (s : State) (k : StrandIx) (bs : List (Nat × Byte)) (sync : Option SyncTag) (wid : Nat) (counted : Bool := false) :
    State :=
  let ok := bs.filter fun b => !s.deadKey b.1
  let s := if counted then s else s.dropDead k bs wid
  if ok.isEmpty then s else (s.meetUpsetsAs wid (s.posOf (coreOf k) (slotOf k)) (ok.map (·.1))).perform ok sync

/-! ## Reductions (R195 to R198) -/

/-- One contribution: posted to its home, or performed when the word lies in the own core's memory. -/
structure RedPut where
  site : Site
  val : Word
  deriving DecidableEq, Repr

/-- A float contribution as units of 2^-149 with its special inputs (R98, R197). -/
def redUnits (ty : Ty) (v : Nat) : Int × Bool × Bool × Bool × Bool :=
  match Num.decode (if ty = .bf16 then .bf16 else .f32) (v % 2 ^ ty.width) with
  | .nan _ => (0, false, false, true, false)
  | .inf n => (0, !n, n, false, false)
  | .fin n m e => (Num.atExp (-149) n m e, false, false, false, n && m == 0)

/-- A contribution of a strand and weave outside a reduction window, at its home: an atomic without a reply; a poisoned word
discards it (R196, R397). -/
def State.redWord (s : State) (src : StrandIx × Nat) (op : RedOp) (ty : Ty) (ks : List Nat) (v : Word) (sync : Option SyncTag) :
    State :=
  let s := s.meetUpsetsAs src.2 (s.posOf (coreOf src.1) (slotOf src.1)) ks
  if ks.any s.poisoned then
    let k := ks.headD 0
    let (st, wid) := src
    s.discarded st (match vaultOf k with | some (b, _) => b | none => keyDie k * 160) (s.keyLoc k) wid
  else s.perform (layBytes ks (redNew op ty (s.mem.value ks) v)) sync

/-- Each contribution is a posted write of its own, an element of VRED as well (R183, R202; log entry 107). -/
def State.redAll (s : State) (op : RedOp) (ty : Ty) (sync : Option SyncTag) (puts : List RedPut) : State :=
  puts.foldl (fun s p =>
    if p.site.away then s.discarded s.cur (blockOf s.core) p.site.addr s.me.wid
    else if p.site.loc then s.redWord (s.cur, s.me.wid) op ty p.site.keys p.val sync
    else
      let (seq, s) := s.postOne p.site.home p.site.keys
      let (i, pi, ni, nan, nz) := redUnits ty p.val.toNat
      s.modNet fun n => { n with reds := n.reds ++
        [{ op := op, ty := ty, keys := p.site.keys, rwin := p.site.rwin, val := p.val, sum := i, pinf := pi, ninf := ni,
           nan := nan, allNegZero := nz, srcs := [(s.core, seq)], sync := sync.toList, held := none }] }) s

/-- The waits of RED and VRED, then their contributions (R183, R195, R235). -/
def State.reduce (s : State) (a : Attr) (op : RedOp) (ty : Ty) (puts : List RedPut) (k : State → Res) : Res :=
  let go (s : State) : Res :=
    let ks := puts.flatMap fun p => p.site.keys
    let rd := puts.flatMap fun p => p.site.reads.flatMap fun r => keysFrom r 8
    let homes := (puts.filter fun p => !p.site.loc).map fun p => p.site.home
    if s.ownPosted (ks ++ rd) || s.pendingRead ks then .wait s .drain
    else if puts.any fun p => p.site.loc && p.site.keys.any s.claimed then .wait s .loom
    else if s.brokenLocal ((puts.filter fun p => p.site.loc).flatMap fun p => p.site.keys) then .wait s .load
    else if !s.classRoom homes then .wait s .room
    else
      let s := if puts.isEmpty then s else s.sided
      k (s.redAll op ty (if a.releases then some ⟨.core s.core, a.scope⟩ else s.me.relFence.map fun sc => ⟨.core s.core, sc⟩) puts)
  if a.releases then releaseWait s go else go s

end Sys2Proof.Machine
end

