-- ==== Sys2Proof/Machine/Scalar.lean ====
section
/-! DEFINITION. The scalar arithmetic, bitwise, compare, immediate and select forms (R99 to R104). -/

namespace Sys2Proof.Machine

abbrev Out := Host.Outcome State Fault Refusal

/-! ## Shared operations -/

/-- An integer form's result: the exact result narrowed, extended and written, its flags merged (R99, R101). -/
def intResult (s : State) (t : Ty) (sat : Bool) (d : GReg) (x : Int) : Res :=
  let (y, fl) := Num.narrow sat t.isI t.width x
  .ok ((s.addFlags fl).wg d (extTy t y))

/-- A w-bit pattern's result, without flags. -/
def bitResult (s : State) (t : Ty) (d : GReg) (y : Nat) : Res := .ok (s.wg d (extTy t y))

/-- Raised exceptions: an enabled one traps with the sticky bits set and nothing else done (R35). -/
def orException (s : State) (fl : Num.Flags) (k : State → Res) : Res :=
  match enabledException s fl with
  | some sub => .trap (s.addFlags fl) ⟨0x50, sub, 0, none, 0⟩
  | none => k (s.addFlags fl)

/-- An .f32 form that rounds: one generator step in mode 5, the result in bits 31:0 and zero above (R100). -/
def f32Result (s : State) (d : GReg) (op : RMode → Nat → Nat × Num.Flags) : Res :=
  if s.rmode = .stochastic ∧ s.me.tr.mayDraw = true then .wait s .treadle else
  let (g, u) := Num.draw s.rmode s.srg
  let (y, fl) := op s.rmode u
  orException s fl fun s => .ok ((s.setSrg g).wg d (BitVec.ofNat 64 y))

def f32Of (x : Word) : Num.Val := Num.decode .f32 (x.toNat % 2 ^ 32)

/-- ADD, SUB and MUL: an exact integer operation, or its float counterpart (R102). -/
def arith (x : AluS) (s : State) (int : Int → Int → Int)
    (flt : RMode → Nat → Num.Val → Num.Val → Nat × Num.Flags) : Res :=
  let a := s.rg x.a
  let b := s.rg x.b
  if x.ty = .f32 then f32Result s x.d fun m u => flt m u (f32Of a) (f32Of b)
  else intResult s x.ty x.sat x.d (int (readTy x.ty a) (readTy x.ty b))

/-- Bitwise forms on w bits. -/
def bitwise (x : Alu) (s : State) (f : Nat → Nat → Nat) : Res :=
  bitResult s x.ty x.d (f (patTy x.ty (s.rg x.a)) (patTy x.ty (s.rg x.b)))

/-- SHL: the exact product A × 2^n, wrapping with IV (R102). -/
def shiftLeft (s : State) (t : Ty) (d : GReg) (a : Word) (n : Nat) : Res := intResult s t false d (readTy t a * 2 ^ n)

/-- SHR: zeros enter. -/
def shrPat (a n : Nat) : Nat := a / 2 ^ n

/-- SRA: copies of bit w − 1 enter, whatever the type. -/
def sraPat (w : Nat) (a : Nat) (n : Nat) : Nat := Num.lowBits w (Num.readInt true w a / 2 ^ n)

/-- The count a register gives a shift: Bits(B, 5, 0) mod w. -/
def shiftCount (t : Ty) (b : Word) : Nat := b.toNat % 64 % t.width

def minMax (x : Alu) (s : State) (mx : Bool) : Res :=
  let a := s.rg x.a
  let b := s.rg x.b
  if x.ty = .f32 then
    let (y, fl) := Num.fminmax mx .f32 (a.toNat % 2 ^ 32) (b.toNat % 2 ^ 32)
    orException s fl fun s => .ok (s.wg x.d (BitVec.ofNat 64 y))
  else
    let l := decide (readTy x.ty a ≤ readTy x.ty b)
    bitResult s x.ty x.d (patTy x.ty (if l != mx then a else b))

/-- CMP and CMPI (R103). -/
def compare (s : State) (t : Ty) (c : Cond) (p : PReg) (a : Word) (b : Int) (bf : Word) : Res :=
  if t = .f32 then
    let (r, fl) := Num.fcmp c (f32Of a) (f32Of bf)
    orException s fl fun s => .ok (s.wp p r)
  else .ok (s.wp p (Num.icmp c (readTy t a) b))

/-- ADDI and MULI: the immediate at its signed value, wrapping (R99, R104). -/
def arithImm (x : AluI) (s : State) (f : Int → Int → Int) : Res :=
  intResult s x.ty false x.d (f (readTy x.ty (s.rg x.a)) (immValue x.imm))

def bitwiseImm (x : AluI) (s : State) (f : Nat → Nat → Nat) : Res :=
  bitResult s x.ty x.d (f (patTy x.ty (s.rg x.a)) (patTy x.ty (immWord x.imm)))

/-! ## Meanings -/

def runAdd (x : AluS) (s : State) : Res := arith x s (· + ·) fun m u a b => Num.fadd .f32 m u a b
def execAdd (x : AluS) (s : State) : Out := (runAdd x s).finish s

def runSub (x : AluS) (s : State) : Res := arith x s (· - ·) fun m u a b => Num.fadd .f32 m u a b.negate
def execSub (x : AluS) (s : State) : Out := (runSub x s).finish s

def runMul (x : AluS) (s : State) : Res := arith x s (· * ·) fun m u a b => Num.fmul .f32 m u a b
def execMul (x : AluS) (s : State) : Out := (runMul x s).finish s

def runMulh (x : Alu) (s : State) : Res := 
  bitResult s x.ty x.d (Num.lowBits x.ty.width (readTy x.ty (s.rg x.a) * readTy x.ty (s.rg x.b) / 2 ^ x.ty.width))
def execMulh (x : Alu) (s : State) : Out := (runMulh x s).finish s

def runDiv (x : Alu) (s : State) : Res := 
  let a := s.rg x.a
  let b := s.rg x.b
  if x.ty = .f32 then f32Result s x.d fun m u => Num.fdiv .f32 m u (f32Of a) (f32Of b)
  else
    let (y, fl) := Num.divInt x.ty.isI x.ty.width (readTy x.ty a) (readTy x.ty b)
    .ok ((s.addFlags fl).wg x.d (extTy x.ty y))
def execDiv (x : Alu) (s : State) : Out := (runDiv x s).finish s

def runRem (x : Alu) (s : State) : Res := 
  let (y, fl) := Num.remInt x.ty.width (readTy x.ty (s.rg x.a)) (readTy x.ty (s.rg x.b))
  .ok ((s.addFlags fl).wg x.d (extTy x.ty y))
def execRem (x : Alu) (s : State) : Out := (runRem x s).finish s

def runAnd (x : Alu) (s : State) : Res := bitwise x s (· &&& ·)
def execAnd (x : Alu) (s : State) : Out := (runAnd x s).finish s

def runOr (x : Alu) (s : State) : Res := bitwise x s (· ||| ·)
def execOr (x : Alu) (s : State) : Out := (runOr x s).finish s

def runXor (x : Alu) (s : State) : Res := bitwise x s (· ^^^ ·)
def execXor (x : Alu) (s : State) : Out := (runXor x s).finish s

def runShl (x : Alu) (s : State) : Res := shiftLeft s x.ty x.d (s.rg x.a) (shiftCount x.ty (s.rg x.b))
def execShl (x : Alu) (s : State) : Out := (runShl x s).finish s

def runShr (x : Alu) (s : State) : Res := 
  bitResult s x.ty x.d (shrPat (patTy x.ty (s.rg x.a)) (shiftCount x.ty (s.rg x.b)))
def execShr (x : Alu) (s : State) : Out := (runShr x s).finish s

def runSra (x : Alu) (s : State) : Res := 
  bitResult s x.ty x.d (sraPat x.ty.width (patTy x.ty (s.rg x.a)) (shiftCount x.ty (s.rg x.b)))
def execSra (x : Alu) (s : State) : Out := (runSra x s).finish s

def runMin (x : Alu) (s : State) : Res := minMax x s false
def execMin (x : Alu) (s : State) : Out := (runMin x s).finish s

def runMax (x : Alu) (s : State) : Res := minMax x s true
def execMax (x : Alu) (s : State) : Out := (runMax x s).finish s

def runCmp (x : CmpR) (s : State) : Res := compare s x.ty x.cond x.p (s.rg x.a) (readTy x.ty (s.rg x.b)) (s.rg x.b)
def execCmp (x : CmpR) (s : State) : Out := (runCmp x s).finish s

def runAddi (x : AluI) (s : State) : Res := arithImm x s (· + ·)
def execAddi (x : AluI) (s : State) : Out := (runAddi x s).finish s

def runMuli (x : AluI) (s : State) : Res := arithImm x s (· * ·)
def execMuli (x : AluI) (s : State) : Out := (runMuli x s).finish s

def runAndi (x : AluI) (s : State) : Res := bitwiseImm x s (· &&& ·)
def execAndi (x : AluI) (s : State) : Out := (runAndi x s).finish s

def runOri (x : AluI) (s : State) : Res := bitwiseImm x s (· ||| ·)
def execOri (x : AluI) (s : State) : Out := (runOri x s).finish s

def runXori (x : AluI) (s : State) : Res := bitwiseImm x s (· ^^^ ·)
def execXori (x : AluI) (s : State) : Out := (runXori x s).finish s

def runShli (x : ShI) (s : State) : Res := shiftLeft s x.ty x.d (s.rg x.a) x.s.val
def execShli (x : ShI) (s : State) : Out := (runShli x s).finish s

def runShri (x : ShI) (s : State) : Res := bitResult s x.ty x.d (shrPat (patTy x.ty (s.rg x.a)) x.s.val)
def execShri (x : ShI) (s : State) : Out := (runShri x s).finish s

def runSrai (x : ShI) (s : State) : Res := bitResult s x.ty x.d (sraPat x.ty.width (patTy x.ty (s.rg x.a)) x.s.val)
def execSrai (x : ShI) (s : State) : Out := (runSrai x s).finish s

def runCmpi (x : CmpI) (s : State) : Res := compare s x.ty x.cond x.p (s.rg x.a) (immValue x.imm) 0
def execCmpi (x : CmpI) (s : State) : Out := (runCmpi x s).finish s

def runMovi (x : MovI) (s : State) : Res := 
  if x.ty = .f32 then .ok (s.wg x.d (BitVec.ofNat 64 (x.imm.lo.toNat % 2 ^ 32)))
  else bitResult s x.ty x.d (patTy x.ty (immWord x.imm))
def execMovi (x : MovI) (s : State) : Out := (runMovi x s).finish s

def runLea (x : LeaA) (s : State) : Res := 
  .ok (s.wg x.d (s.rg x.a + s.rg x.b * BitVec.ofNat 64 (2 ^ x.sc.val) + immWord x.imm))
def execLea (x : LeaA) (s : State) : Out := (runLea x s).finish s

def runSel (x : SelA) (s : State) : Res := .ok (s.wg x.d (if s.rp x.c then s.rg x.a else s.rg x.b))
def execSel (x : SelA) (s : State) : Out := (runSel x s).finish s

def runClz (x : Un) (s : State) : Res := 
  .ok (s.wg x.d (BitVec.ofNat 64 (Num.clz x.ty.width (patTy x.ty (s.rg x.a)))))
def execClz (x : Un) (s : State) : Out := (runClz x s).finish s

def runPopc (x : Un) (s : State) : Res := 
  .ok (s.wg x.d (BitVec.ofNat 64 (Num.popc x.ty.width (patTy x.ty (s.rg x.a)))))
def execPopc (x : Un) (s : State) : Out := (runPopc x s).finish s

end Sys2Proof.Machine
end

