-- ==== Sys2Proof/Machine/Control.lean ====
section
/-! DEFINITION. Transfers, traps and returns, pausing, and the control registers (R6, R7, R30 to R39, R105 to R109, R112, R117
to R119). -/

namespace Sys2Proof.Machine

/-! ## Transfers -/

def runBr (d : BitVec 48) (s : State) : Res := s.transfer (targetOf s.iss.own d) false
def execBr (d : BitVec 48) (s : State) : Out := (runBr d s).finish s

/-- The link write is kept if the transfer faults (R106). -/
def runCall (x : LinkD) (s : State) : Res := (s.wg x.d s.iss.next).transfer (targetOf s.iss.own x.disp) false
def execCall (x : LinkD) (s : State) : Out := (runCall x s).finish s

/-- ga is read before gd is written. -/
def runCallReg (x : DA) (s : State) : Res := (s.wg x.d s.iss.next).transfer (s.rg x.a) false
def execCallReg (x : DA) (s : State) : Out := (runCallReg x s).finish s

def runRet (a : GReg) (s : State) : Res := s.transfer (s.rg a) false
def execRet (a : GReg) (s : State) : Out := (runRet a s).finish s

def runJr (a : GReg) (s : State) : Res := s.transfer (s.rg a) false
def execJr (a : GReg) (s : State) : Out := (runJr a s).finish s

/-- The counter is read once; its decrement is kept if the transfer faults (R107). -/
def runLoop (x : LinkD) (s : State) : Res :=
  let c := s.rg x.d - 1
  let s' := s.wg x.d c
  if c = 0 then .ok s' else s'.transfer (targetOf s.iss.own x.disp) false
def execLoop (x : LinkD) (s : State) : Out := (runLoop x s).finish s

/-! ## Pausing (R112) -/

def runYield (s : State) : Res := .ok s
def execYield (s : State) : Out := (runYield s).finish s

def runNop (s : State) : Res := .ok s
def execNop (s : State) : Out := (runNop s).finish s

/-- The strand sleeps until the die has counted ga cycles; SLEEP_EXPIRY may end the sleep, and so may its next turn. -/
def runSleep (a : GReg) (s : State) : Res :=
  let now := s.cycle (dieOf s.core)
  match s.me.stage with
  | .sleepOver => .ok s
  | .sleeping n => if n ≤ now then .ok s else .wait s .sleep
  | _ =>
    let n := (s.rg a).toNat
    if n = 0 then .ok s else .wait { s with me := { s.me with stage := .sleeping (now + n) } } .sleep
def execSleep (a : GReg) (s : State) : Out := (runSleep a s).finish s

/-! ## Traps and returns (R117, R118) -/

def runTrap (n : BitVec 8) (s : State) : Res := trapOf s 0x70 n 0
def execTrap (n : BitVec 8) (s : State) : Out := (runTrap n s).finish s

def runTrapBrk (n : BitVec 8) (s : State) : Res := trapOf s 0x71 n 0
def execTrapBrk (n : BitVec 8) (s : State) : Out := (runTrapBrk n s).finish s

/-- A return whose transfer has faulted while the passes it resumed still run (R141). -/
def eretForm (n : Bool) (s : State) : Res :=
  match s.me.stage with
  | .orphaned t => if s.me.tr.st = .running then .wait s .treadle else .trap s t
  | _ => s.eret n

def runEret (s : State) : Res := eretForm false s
def execEret (s : State) : Out := (runEret s).finish s

def runEretN (s : State) : Res := eretForm true s
def execEretN (s : State) : Out := (runEretN s).finish s

/-! ## Control registers (R30, R119) -/

/-- The system copies, which user mode may not read. -/
def CReg.isSystem : CReg → Bool
  | .stpc | .stcause | .stval | .sttag => true
  | _ => false

/-- The registers a user may not write. -/
def CReg.isFixed : CReg → Bool
  | .core | .weave | .seg | .trcnt | .cyc => true
  | _ => false

def State.readCR (s : State) (r : CReg) : Word :=
  let x := s.me
  match r with
  | .flags => x.flags | .rmode => x.rmode | .lsctl => x.lsctl | .tvec => x.tvec
  | .tpc => x.tpc | .tcause => x.tcause | .tval => x.tval | .ttag => x.ttag
  | .stpc => x.stpc | .stcause => x.stcause | .stval => x.stval | .sttag => x.sttag
  | .core => x.core | .weave => x.weave | .seg => x.seg | .trcnt => x.trcnt
  | .cyc => (s.dieRec (dieOf s.core)).cyc

/-- The bits of a register a write changes (R31 to R39). -/
def CReg.mask : CReg → Word
  | .flags => flagsMask
  | .rmode => rmodeMask
  | .lsctl => 1
  | .tvec | .tpc | .tval | .stpc | .stval => BitVec.allOnes 64
  | .tcause => 0xFFFF
  | .stcause => 0xC00000000000FFFF
  | .ttag | .sttag => 0xFFFF
  | .core | .weave | .seg | .trcnt | .cyc => 0

def State.writeCR (s : State) (r : CReg) (w : Word) : State :=
  let x := s.me
  { s with me := match r with
    | .flags => { x with flags := w } | .rmode => { x with rmode := fixSrg w } | .lsctl => { x with lsctl := w }
    | .tvec => { x with tvec := w } | .tpc => { x with tpc := w } | .tcause => { x with tcause := w }
    | .tval => { x with tval := w } | .ttag => { x with ttag := w } | .stpc => { x with stpc := w }
    | .stcause => { x with stcause := w } | .stval => { x with stval := w } | .sttag => { x with sttag := w }
    | .core | .weave | .seg | .trcnt | .cyc => x }

/-- Whether a loom operation of the strand may still set a sticky bit (R32). -/
def State.loomBusy (s : State) : Bool :=
  (s.coreRec s.core).loomq.any fun o => o.strand == s.cur && o.gen == s.me.gen

/-- A read or write of %flags waits for earlier passes, loom operations and tagged acquires (R32), and one of %rmode for passes
that step its generator (R36, R141). -/
def flagsWait (s : State) (r : CReg) (k : Res) : Res :=
  if r = .rmode ∧ s.me.tr.mayDraw = true then .wait s .treadle
  else if r ≠ .flags then k
  else if s.me.tr.st = .running then .wait s .treadle
  else if s.loomBusy then .wait s .loom
  else if s.me.ls.any fun e => e.req.acq && (e.st == .pending || e.st == .reissued) then .wait s .load
  else k

def runMfcr (x : McrA) (s : State) : Res :=
  if CReg.isSystem x.cr && !s.me.sys then trapOf s 0x05 0 0
  else flagsWait s x.cr (.ok (s.wg x.d (s.readCR x.cr)))
def execMfcr (x : McrA) (s : State) : Out := (runMfcr x s).finish s

/-- A write to a control register: f gives the new value of the writable fields (R30, R35, R119). -/
def moveToCR (x : MtcA) (s : State) (f : Word → Word → Word) (k : State → Word → State) : Res :=
  if (CReg.isSystem x.cr || CReg.isFixed x.cr) && !s.me.sys then trapOf s 0x05 0 0
  else
    flagsWait s x.cr
      (let old := s.readCR x.cr
       let m := CReg.mask x.cr
       let new := (old &&& ~~~m) ||| (f old (s.rg x.a) &&& m)
       if x.cr = .rmode ∧ 6 ≤ (new.extractLsb' 0 3).toNat then illegalHere s
       else .ok (k (s.writeCR x.cr new) new))

def runMtcr (x : MtcA) (s : State) : Res := moveToCR x s (fun _ a => a) fun s _ => s
def execMtcr (x : MtcA) (s : State) : Out := (runMtcr x s).finish s

def runMtcrSet (x : MtcA) (s : State) : Res := moveToCR x s (fun o a => o ||| a) fun s _ => s
def execMtcrSet (x : MtcA) (s : State) : Out := (runMtcrSet x s).finish s

def runMtcrClr (x : MtcA) (s : State) : Res := moveToCR x s (fun o a => o &&& ~~~a) fun s _ => s
def execMtcrClr (x : MtcA) (s : State) : Out := (runMtcrClr x s).finish s

/-- MTCR.ENT also sets the entry record that belongs to %tpc or %stpc. -/
def setEntry (r : CReg) (s : State) (w : Word) : State :=
  match r with
  | .tpc => { s with me := { s.me with entW := some w } }
  | .stpc => { s with me := { s.me with entS := some w } }
  | _ => s

def runMtcrEnt (x : MtcA) (s : State) : Res := requireSys s (moveToCR x s (fun _ a => a) (setEntry x.cr))
def execMtcrEnt (x : MtcA) (s : State) : Out := (runMtcrEnt x s).finish s

end Sys2Proof.Machine
end

