-- ==== Sys2Proof/Machine/Turn.lean ====
section
/-! DEFINITION. A turn: time, and what a strand does before its instruction's meaning (R23, R49, R55, R73, R114, R401, R418). -/

namespace Sys2Proof.Machine

/-- Cycles pass on every die (R23). -/
def State.tick (s : State) (n : Nat) : State :=
  if n = 0 then s
  else (List.range 4).foldl (fun s d => s.modDie d fun x => { x with cyc := x.cyc + BitVec.ofNat 64 n }) s

/-- The cycles of a turn: the same on every die, or die by die (R23). -/
def State.tickDies (s : State) (n : Nat) (skew : List Nat) : State :=
  if skew.isEmpty then s.tick n
  else (List.range 4).foldl (fun s d => s.modDie d fun x => { x with cyc := x.cyc + BitVec.ofNat 64 (skew.getD d n) }) s

/-- The compute island of a core (R24). -/
def islandOf (c : CoreIx) : Nat := dieOf c * 8 + rowOf c / 8

/-- An island's operating point: nominal unless set (R24, R418). -/
def State.point (s : State) (i : Nat) : Nat := Tab.get 5 s.points i

/-- Whether a core's island issues nothing: gated, or its point is changing (R418). -/
def State.islandHeld (s : State) (c : CoreIx) : Bool :=
  s.point (islandOf c) == 0 || s.pointMoves.any fun m => m.1 == islandOf c

/-- Whether the strand stands at an instruction boundary or sleeps in a way that a trap may end (R114, R401). -/
def Stage.atBoundary : Stage → Bool
  | .none | .orphaned _ | .waiter .. | .sleeping _ | .phWait .. | .wWait _ | .childOut _ | .onRing .. => true
  | _ => false

/-- Whether a save may stop the strand here (R275, R282, R284, R368). -/
def Stage.atSave : Stage → Bool
  | .sigHeld _ | .replied | .phSw .. | .arrHeld => true
  | x => x.atBoundary

/-- Whether a save of the strand's weave holds the strand at its boundary (R368): all but the strand that performs it. -/
def State.stopped (s : State) : Bool :=
  let x := s.me
  x.stage.atSave && x.half.isNone && x.waiting != some .save
    && ((s.weaveOf x.wid).map (·.stopping)).getD false

inductive Ready where
  | run (i : Instr) (s : State)
  | idle (s : State)
  deriving Repr

/-- A strand that a notice has interrupted in a wait goes on waiting once it is back in user mode at that instruction (R370). -/
def State.resumeWait (s : State) : State :=
  match s.me.parked with
  | some (pc, st) =>
    if s.me.sys then s
    else if pc = s.me.pc then { s with me := { s.me with parked := none, stage := st.1, issued := st.2 } }
    else { s with me := { s.me with parked := none } }
  | none => s

/-- A strand's turn up to its instruction's meaning: a trap that waits for a boundary; the line's checks and the decoding of
the chain; and the guard, under which a false slot only passes (R55). An instruction that waits goes on as it was fetched, with no
fetch of its own (R282, R284; log entry 51). -/
def State.begin (s : State) : Ready :=
  let s := s.resumeWait
  let x := s.me
  if !x.live || x.refetch.isSome || s.islandHeld s.core || s.stopped then .idle s
  else if !x.pend.isEmpty && x.stage.atBoundary && x.half.isNone then
    match x.pend with
    | t :: r => .idle ({ s with me := { x with pend := r } }.takeTrap { t with pc := some x.pc } 0)
    | [] => .idle s
  else
    match x.issued with
    | some (i, iss) => .run i { s with iss := iss }
    | none =>
    match s.lookup with
    | .fault t => .idle ((Res.trap (s.metFetch x.pc) t).settle s)
    | .refetch s' => .idle s'
    | .run d s' =>
      if s'.rp d.guard.p != d.guard.neg then .run d.instr { s' with me := { s'.me with issued := some (d.instr, s'.iss) } }
      else .idle { s' with me := { s'.me.settle with pc := s'.iss.next } }

end Sys2Proof.Machine
end

