-- ==== Sys2Proof/Machine/Mem.lean ====
section
/-! DEFINITION. Scalar loads and stores, fences, atomics, waits and wakes, reductions, and the vector memory forms (R182 to
R203, R235, R236). -/

namespace Sys2Proof.Machine

/-! ## Scalar accesses -/

def runLd (x : MemL) (s : State) : Res :=
  memOp s fun s =>
    let a := s.rg x.a + immWord x.imm
    let n := x.ty.width / 8
    s.walked n [a] fun s =>
      s.load (attrOf x.sc) ((s.check s.ctx .load false n a a n).map fun y => [(0, y)]) fun s got =>
        .ok (s.wg x.d (extTy x.ty ((got.map (·.2)).headD 0)))
def execLd (x : MemL) (s : State) : Out := (runLd x s).finish s

/-- A scalar store up to its checks, and what it is about to write (R203). -/
def stChecked (x : MemS) (s : State) (k : State → Put → Res) : Res :=
  memOp s fun s =>
    let a := s.rg x.a + immWord x.imm
    let n := x.ty.width / 8
    s.walked n [a] fun s =>
      match (s.check s.ctx .store false n a a n).bind fun y => noFormat a y 1 with
      | .error t => .trap s t
      | .ok y => k s ⟨y, layBytes y.keys (s.rg x.b).toNat, 0⟩

/-- ST and ST.OF: checks, the waits of their order, then the write; an ordered one waits for its class (R186, R188, R203). -/
def storeScalar (x : MemS) (of : Bool) (s : State) : Res :=
  stChecked x s fun s p => s.store (attrOf x.sc) of [p] .ok

def runSt (x : MemS) (s : State) : Res := storeScalar x false s
def execSt (x : MemS) (s : State) : Out := (runSt x s).finish s

def runStOf (x : MemS) (s : State) : Res := storeScalar x true s
def execStOf (x : MemS) (s : State) : Out := (runStOf x s).finish s

/-! ## Fences (R185, R189, R235, R236, R255) -/

/-- The acquiring point of the reads before a fence: SCM if a tag's scope or the fence's misses the pair. -/
def acquireTags (s : State) (sc : Scope) : State :=
  let s' := if s.me.readTags.any (missed s.core sc) then s.addFlags Num.scm else s
  { s' with me := { s'.me with readTags := [] } }

def setRelFence (s : State) (sc : Scope) : State := { s with me := { s.me with relFence := some sc } }

def fence (k : FenceKind) (sc : Scope) (s : State) : Res :=
  match k with
  | .acquire => if s.me.lsQuiet then .ok (acquireTags s sc) else .wait s .drain
  | .release => releaseWait s fun s => .ok (setRelFence s sc)
  | .full => releaseWait s fun s => .ok (setRelFence (acquireTags s sc) sc)

def runFence (x : FenceA) (s : State) : Res := afterMemPasses s (fence x.kind x.scope s)
def execFence (x : FenceA) (s : State) : Out := (runFence x s).finish s

def runFenceSt (s : State) : Res := afterMemPasses s (fenceStWait s fun s => .ok (setRelFence s .fabric))
def execFenceSt (s : State) : Out := (runFenceSt s).finish s

/-! ## Atomics (R190 to R192) -/

/-- A returning atomic of any form: gd takes the old value extended, the home's flags merge. -/
def atomicForm (s : State) (sc : Option ScopePfx) (op : AtomOp) (ty : Ty) (d a : GReg) (imm : BitVec 48) (b c : Word) : Res :=
  memOp s fun s =>
    let addr := s.rg a + sx imm
    s.walked (ty.width / 8) [addr] fun s =>
      s.atomic (attrOf sc) op ty addr b c fun s old fl => .ok ((s.addFlags fl).wg d (extTy ty old))

def runAadd (x : Atom) (s : State) : Res := atomicForm s x.sc .add x.ty x.d x.a x.imm (s.rg x.b) 0
def execAadd (x : Atom) (s : State) : Out := (runAadd x s).finish s

def runAmin (x : Atom) (s : State) : Res := atomicForm s x.sc .min x.ty x.d x.a x.imm (s.rg x.b) 0
def execAmin (x : Atom) (s : State) : Out := (runAmin x s).finish s

def runAmax (x : Atom) (s : State) : Res := atomicForm s x.sc .max x.ty x.d x.a x.imm (s.rg x.b) 0
def execAmax (x : Atom) (s : State) : Out := (runAmax x s).finish s

def runAand (x : Atom) (s : State) : Res := atomicForm s x.sc .and x.ty x.d x.a x.imm (s.rg x.b) 0
def execAand (x : Atom) (s : State) : Out := (runAand x s).finish s

def runAor (x : Atom) (s : State) : Res := atomicForm s x.sc .or x.ty x.d x.a x.imm (s.rg x.b) 0
def execAor (x : Atom) (s : State) : Out := (runAor x s).finish s

def runAxor (x : Atom) (s : State) : Res := atomicForm s x.sc .xor x.ty x.d x.a x.imm (s.rg x.b) 0
def execAxor (x : Atom) (s : State) : Out := (runAxor x s).finish s

def runAswap (x : Atom) (s : State) : Res := atomicForm s x.sc .swap x.ty x.d x.a x.imm (s.rg x.b) 0
def execAswap (x : Atom) (s : State) : Out := (runAswap x s).finish s

def runAaddt (x : Atom3) (s : State) : Res := atomicForm s x.sc .addt x.ty x.d x.a x.imm (s.rg x.b) (s.rg x.c)
def execAaddt (x : Atom3) (s : State) : Out := (runAaddt x s).finish s

def runAcas (x : Atom3) (s : State) : Res := atomicForm s x.sc .cas x.ty x.d x.a x.imm (s.rg x.b) (s.rg x.c)
def execAcas (x : Atom3) (s : State) : Out := (runAcas x s).finish s

/-! ## WAITA and AWAKE (R193, R194) -/

/-- WAITA's read is the one whose value it returns: at once, or carried by the wake, of a word that must be sound then (R193, R228,
R397). -/
def runWaita (x : WaitAA) (s : State) : Res :=
  match s.me.stage with
  | .woken v ts bad =>
    if bad then .trap s ⟨0x60, 0, s.rg x.a + sx x.imm, none, 0⟩
    else .ok ((s.sided.noteTags {} ts).wg x.d (extTy x.ty v))
  | .waiter _ | .wakeSent => .wait s .waita
  | _ =>
    memOp s fun s =>
      let a := s.rg x.a + sx x.imm
      s.walked (x.ty.width / 8) [a] fun s =>
        match s.checkAtom s.ctx .load a (x.ty.width / 8) with
        | .error t => .trap s t
        | .ok y =>
          if s.ownPosted y.keys then .wait s .drain
          else if s.brokenLocal y.keys then .wait s .load
          else
            let s := s.meetUpsets y.keys
            if s.sitePoisoned y then .trap s ⟨0x60, 0, a, none, 0⟩
            else
              let cur := s.mem.value y.keys
              let ts := s.tagsOf y.keys
              let s := s.fold y.keys
              if cur ≠ patTy x.ty (s.rg x.b) then .ok ((s.sided.noteTags {} ts).wg x.d (extTy x.ty cur))
              else .wait { s with me := { s.me with stage := .waiter y.keys } } .waita
def execWaita (x : WaitAA) (s : State) : Out := (runWaita x s).finish s

/-- AWAKE is checked as a load of its word's first 4 bytes, and reads the word (R194, R395, R396). -/
def runAwake (x : AImm) (s : State) : Res :=
  afterMemPasses s
    (let a := s.rg x.a + sx x.imm
     s.walked 4 [a] fun s =>
       match s.checkAtom s.ctx .load a 4 with
       | .error t => .trap s t
       | .ok y =>
         if s.brokenLocal y.keys then .wait s .load
         else .ok ((s.touchKeys s.cur y.keys).wakeWord (y.keys.headD 0)).sided)
def execAwake (x : AImm) (s : State) : Out := (runAwake x s).finish s

/-! ## RED (R195) -/

def runRed (x : RedA) (s : State) : Res :=
  memOp s fun s =>
    let a := s.rg x.a + sx x.imm
    s.walked (x.ty.width / 8) [a] fun s =>
      match s.checkRed s.ctx a a (x.ty.width / 8) with
      | .error t => .trap s t
      | .ok y => s.reduce (attrOf x.sc) x.op x.ty [⟨y, BitVec.ofNat 64 (patTy x.ty (s.rg x.b))⟩] .ok
def execRed (x : RedA) (s : State) : Out := (runRed x s).finish s

/-! ## Vector memory forms (R201 to R203) -/

/-- The selected elements with their addresses, ascending. -/
def vecAddrs (s : State) (t : Ty) (sel : VSel) (f : Nat → Word) : List (Nat × Word) :=
  (List.range t.count).filterMap fun i => if s.vsel t sel i then some (i, f i) else none

def seqAddr (s : State) (a : GReg) (ofs : BitVec 40) (t : Ty) (i : Nat) : Word :=
  s.rg a + sx ofs + BitVec.ofNat 64 (i * (t.width / 8))
def strideAddr (s : State) (a b : GReg) (ofs : BitVec 40) (i : Nat) : Word :=
  s.rg a + sx ofs + BitVec.ofNat 64 i * s.rg b
def indexAddr {n : Nat} (s : State) (a : GReg) (x : VReg) (sc : Nat) (ofs : BitVec n) (t : Ty) (i : Nat) : Word :=
  s.rg a + sx ofs + BitVec.ofInt 64 (Num.readInt true t.width (elem (s.rv x) i t.width)) * BitVec.ofNat 64 (2 ^ sc)

/-- The checks of R180 and R203, element by element: the lowest failing element's first cause. With fixed, the address
reported is the first byte of the lowest selected element. -/
def checkElems (check : Word → Except Trap Site) (fixed : Option Word) :
    List (Nat × Word) → Except Trap (List (Nat × Site))
  | [] => .ok []
  | (i, a) :: r =>
    match check a with
    | .error t => .error { t with val := fixed.getD a }
    | .ok y => (checkElems check fixed r).map fun ys => (i, { y with addr := fixed.getD a }) :: ys

/-- A vector result lane by lane: loaded, zeroed or kept (R124). -/
def loadLanes (s : State) (t : Ty) (sel : VSel) (d : VReg) (got : List (Nat × Nat)) : State :=
  let old := s.rv d
  s.wv d (ofElems t.width ((List.range t.count).map fun i =>
    match got.find? fun g => g.1 = i with
    | some (_, y) => y
    | none => if zeroing sel then 0 else elem old i t.width))

def vecLoad (s : State) (t : Ty) (d : VReg) (sel : VSel) (sc : Option ScopePfx) (fixed : Bool) (f : State → Nat → Word) :
    Res :=
  notRecordable s fun s => memOp s fun s =>
    let es := vecAddrs s t sel (f s)
    let first := (es.map (·.2)).headD 0
    let n := t.width / 8
    s.walked n (es.map (·.2)) fun s =>
      s.load (attrOf sc)
        (checkElems (fun a => s.check s.ctx .load false n first a n) (if fixed then some first else none) es)
        fun s got => .ok (loadLanes s t sel d got)

def runVld (x : VLdA) (s : State) : Res := vecLoad s x.ty x.d x.sel x.sc true fun s i => seqAddr s x.a x.ofs x.ty i
def execVld (x : VLdA) (s : State) : Out := (runVld x s).finish s

def runVlds (x : VLdSA) (s : State) : Res := vecLoad s x.ty x.d x.sel x.sc false fun s i => strideAddr s x.a x.b x.ofs i
def execVlds (x : VLdSA) (s : State) : Out := (runVlds x s).finish s

def runVgath (x : VGatA) (s : State) : Res := 
  vecLoad s x.ty x.d x.sel x.sc false fun s i => indexAddr s x.a x.x x.scale.val x.ofs x.ty i
def execVgath (x : VGatA) (s : State) : Out := (runVgath x s).finish s

/-- Step 5 of R180 for VST: on a format page only whole blocks, every element selected, and no byte that reads zero (R203). -/
def vstShape (s : State) (base : Word) (whole : Bool) (first a : Word) (y : Site) : Except Trap Site :=
  match y.fmt with
  | none => .ok y
  | some (f, _, off) =>
    if !whole || base.toNat % fmtBlock f ≠ 0 then .error ⟨0x17, 1 ||| s.laterPage s.ctx first a, a, none, 0⟩
    else if fmtZero f ≤ off then .error ⟨0x17, 3 ||| s.laterPage s.ctx first a, a, none, 0⟩
    else .ok y

/-! ## Behind the scalar store of a pair word (R59)

A VST that is the vector half of a pair word stands after the scalar half's store of some elements, which is not yet made: pre. On its
own it stands after none. -/

/-- Storage as an access that stands after a write of bytes in program order sees it, the write not yet made: a word that the write
replaces whole is sound (R397). -/
def State.past (s : State) : List (Nat × Byte) → State
  | [] => s
  | b :: r =>
    let s := s.meetUpsets ((b :: r).map (·.1))
    { s with mem := s.mem.writeAll (b :: r), poison := clearPoison s.poison (b :: r) }

/-- The walks before an access's checks. One that reads a byte of the write before it sees that byte, and is made at once
(R383). -/
def State.walkedPast (s : State) (bs : List (Nat × Byte)) (n : Nat) (as : List Word) (k : State → Res) : Res :=
  match bs with
  | [] => s.walked n as k
  | b :: r =>
    let addrs := as.takeWhile fun a => a.toNat % n == 0
    let ks := (s.past (b :: r)).pathKeys s.ctx addrs
    if s.me.stage = .none ∧ ks.any (fun j => (b :: r).any fun c => c.1 == j) then
      if s.ownPosted ks then .wait s .drain
      else k (addrs.foldl (fun s a => s.meetWalkOf (s.past (b :: r)) s.cur s.ctx a) s)
    else s.walked n as k

/-- The elements of a store together with those of the store before it. Each counts as a write of its own. Where the two write the
same byte they reach their home as one, with the later one's byte, and the word counts as replaced if either replaces it. -/
def joinPuts (pre puts : List Put) : List Put :=
  pre.foldl (fun ps p =>
    let (hit, rest) := ps.partition fun q => q.bytes.any fun b => p.bytes.any fun c => c.1 == b.1
    match hit with
    | [] => { p with part := 1 } :: ps
    | q :: _ =>
      let u := (hit.find? fun q => q.site.fmt.isSome).getD q
      let later := hit.flatMap (·.bytes)
      let bs := (p.bytes.filter fun b => !later.any fun c => c.1 == b.1) ++ later
      { p with bytes := [], part := 1 } ::
        { u with site := { u.site with reads := hit.flatMap (·.site.reads) }, bytes := bs } :: rest) puts

/-- The blocks of a whole-block store to a format page, encoded at issue (R91): their bytes, the generator and the flags. -/
def encodeBlocks (s : State) (f frame off : Nat) (vals : List Nat) : List (Nat × Byte) × BitVec 32 × Num.Flags :=
  let per := fmtBlock f / 2
  (List.range (vals.length / per)).foldl (fun (bs, g, fl) j =>
    let (b, g, fl') := fmtEncode s.mem s.rmode g f frame (off + j * fmtBlock f) ((vals.drop (j * per)).take per)
    (bs ++ b, g, fl ||| fl')) ([], s.srg, 0)

/-- A store of whole blocks to a format page: an enabled exception of the encoding stores nothing. -/
def storeBlocks (s : State) (a : Attr) (y : Site) (f frame off : Nat) (vals : List Nat) (pre : List Put := []) : Res :=
  let (bs, g, fl) := encodeBlocks (s.past (pre.flatMap (·.bytes))) f frame off vals
  match enabledException s fl with
  | some sub => .trap (s.addFlags fl) ⟨0x50, sub, 0, none, 0⟩
  | none => s.store a false (joinPuts pre [⟨y, bs, 0⟩]) fun s => .ok ((s.addFlags fl).setSrg g)

/-- Where elements write the same byte the highest element's is the one written (R202). -/
def shadowed : List Put → List Put
  | [] => []
  | p :: r => { p with bytes := p.bytes.filter fun b => !r.any fun q => q.bytes.any fun c => c.1 == b.1 } :: shadowed r

def storeLanes (t : Ty) (v : VecReg) (ys : List (Nat × Site)) : List Put :=
  shadowed (ys.map fun (i, y) => ⟨y, layBytes y.keys (elem v i t.width), 0⟩)

/-- The elements of a whole store that lie on one format page, as bf16 values from the first one's place on. -/
def blockRun (n : Nat) (v : VecReg) (ys : List (Nat × Site)) : List Nat :=
  ((elems 16 v).drop ((ys.map (·.1)).headD 0 * n / 2)).take (ys.length * n / 2)

/-- Runs of whole blocks, each with its part's number, its place on a format page and its values, encoded in order; then one
store of them and of the plain elements. An enabled exception stores nothing (R35, R91). -/
def storeEncoded (s : State) (a : Attr) (plain : List Put) (runs : List (Nat × Site × List Nat)) (pre : List Put := []) : Res :=
  let v := s.past (pre.flatMap (·.bytes))
  let (puts, g, fl) := runs.foldl (fun ((ps, g, fl) : List Put × BitVec 32 × Num.Flags) (j, y, vals) =>
    match y.fmt with
    | some (f, fr, off) =>
      let (bs, g, fl') := encodeBlocks (v.setSrg g) f fr off vals
      (ps ++ [⟨y, bs, j⟩], g, fl ||| fl')
    | none => (ps, g, fl)) ([], s.srg, 0)
  match enabledException s fl with
  | some sub => .trap (s.addFlags fl) ⟨0x50, sub, 0, none, 0⟩
  | none => s.store a false (joinPuts pre (plain ++ puts)) fun s => .ok ((s.addFlags fl).setSrg g)

/-- A whole VST that meets two pages, at least one a format page: the bytes on an ordinary page are stored as they stand, and
those on each format page encoded in ascending view order (R91, R203). -/
def storeRuns (s : State) (a : Attr) (t : Ty) (v : VecReg) (ys : List (Nat × Site)) (pre : List Put := []) : Res :=
  let pages := (ys.filterMap fun y => y.2.fmt.map fun (f, fr, _) => (f, fr)).eraseDups
  storeEncoded s a (storeLanes t v (ys.filter fun y => y.2.fmt.isNone)) (pages.filterMap fun (f, fr) =>
    match ys.filter fun y => y.2.fmt.any fun z => z.1 == f && z.2.1 == fr with
    | (i, y) :: r => some (0, y, blockRun (t.width / 8) v ((i, y) :: r))
    | [] => none) pre

/-- VST, alone or in a pair word. -/
def vstForm (pre : List Put) (x : VStA) (s : State) : Res :=
  notRecordable s fun s => memOp s fun s =>
    let es := vecAddrs s x.ty x.sel (seqAddr s x.a x.ofs x.ty)
    let first := (es.map (·.2)).headD 0
    let base := s.rg x.a + sx x.ofs
    let n := x.ty.width / 8
    let whole := decide (es.length = x.ty.count)
    let bs := pre.flatMap (·.bytes)
    s.walkedPast bs n (es.map (·.2)) fun s =>
      let v := s.past bs
      match checkElems (fun a => (v.check v.ctx .store false n first a n).bind (vstShape v base whole first a))
          (some first) es with
      | .error t => .trap s t
      | .ok ys =>
        match ys with
        | (_, y) :: _ =>
          if ys.any fun z => z.2.fmt.map (fun f => (f.1, f.2.1)) != y.fmt.map fun f => (f.1, f.2.1) then
            storeRuns s (attrOf x.sc) x.ty (s.rv x.s) ys pre
          else
          match y.fmt with
          | some (f, frame, off) => storeBlocks s (attrOf x.sc) y f frame off (elems 16 (s.rv x.s)) pre
          | none => s.store (attrOf x.sc) false (joinPuts pre (storeLanes x.ty (s.rv x.s) ys)) .ok
        | [] => s.store (attrOf x.sc) false (joinPuts pre []) .ok

def runVst (x : VStA) (s : State) : Res := vstForm [] x s
def execVst (x : VStA) (s : State) : Out := (runVst x s).finish s

/-- VSTS and VSCAT: on a format page always subcode 1. -/
def vecStore (s : State) (t : Ty) (v : VReg) (sel : VSel) (sc : Option ScopePfx) (f : State → Nat → Word) : Res :=
  notRecordable s fun s => memOp s fun s =>
    let es := vecAddrs s t sel (f s)
    let first := (es.map (·.2)).headD 0
    let n := t.width / 8
    s.walked n (es.map (·.2)) fun s =>
      match checkElems (fun a => (s.check s.ctx .store false n first a n).bind fun y =>
          noFormat a y (1 ||| s.laterPage s.ctx first a)) none es with
      | .error t => .trap s t
      | .ok ys => s.store (attrOf sc) false (storeLanes t (s.rv v) ys) .ok

def runVsts (x : VStSA) (s : State) : Res := vecStore s x.ty x.s x.sel x.sc fun s i => strideAddr s x.a x.b x.ofs i
def execVsts (x : VStSA) (s : State) : Out := (runVsts x s).finish s

def runVscat (x : VScaA) (s : State) : Res := 
  vecStore s x.ty x.s x.sel x.sc fun s i => indexAddr s x.a x.x x.scale.val x.ofs x.ty i
def execVscat (x : VScaA) (s : State) : Out := (runVscat x s).finish s

/-- Each selected element is a RED of its own (R202). -/
def runVred (x : VRedA) (s : State) : Res :=
  notRecordable s fun s => memOp s fun s =>
    let es := vecAddrs s x.ty x.sel (indexAddr s x.a x.x x.scale.val x.ofs x.ty)
    let first := (es.map (·.2)).headD 0
    s.walked (x.ty.width / 8) (es.map (·.2)) fun s =>
      match checkElems (fun a => s.checkRed s.ctx first a (x.ty.width / 8)) none es with
      | .error t => .trap s t
      | .ok ys =>
        s.reduce (attrOf x.sc) x.op x.ty
          (ys.map fun (i, y) => ⟨y, BitVec.ofNat 64 (elem (s.rv x.s) i x.ty.width)⟩) .ok
def execVred (x : VRedA) (s : State) : Out := (runVred x s).finish s

end Sys2Proof.Machine
end

