-- ==== Sys2Proof/Machine/Landing.lean ====
section
/-! DEFINITION. Landing sets: tagged loads, their replies and faults, taking, resolving and counting (R206 to R223). -/

namespace Sys2Proof.Machine

/-! ## Order among entries (R208, R214, R216) -/

/-- Inserts by a key, ascending. -/
def insertBy {α : Type} (key : α → Nat) (x : α) : List α → List α
  | [] => [x]
  | y :: r => if key x < key y then x :: y :: r else y :: insertBy key x r

def sortBy {α : Type} (key : α → Nat) (l : List α) : List α := l.foldr (insertBy key) []

/-- Orders entries by stamp, and those stamped in one cycle by issue position (R208). -/
def Strand.stampKey (x : Strand) (e : LEntry) : Nat := e.stamp * (x.nextPos + 1) + e.pos

def LEntry.stamped (e : LEntry) : Bool := e.st == .landed || e.st == .faulted
def LEntry.waiting (e : LEntry) : Bool := e.st == .pending || e.st == .reissued

/-- The entries a TAKE may return now, in its order: by stamp, or with ORD set by issue position up to the first that has
not arrived. -/
def Strand.takeOrder (x : Strand) : List LEntry :=
  if x.lsctl.getLsbD 0 then (sortBy (·.pos) x.ls).takeWhile LEntry.stamped
  else sortBy x.stampKey (x.ls.filter LEntry.stamped)

/-- How many loads are outstanding. -/
def Strand.outstanding (x : Strand) : Nat := (x.ls.filter LEntry.waiting).length

def Strand.dropEntry (x : Strand) (i : Nat) : Strand := { x with ls := x.ls.filter fun e => e.idx != i }

/-- Entries leave the set to the program: the last of them is noted with the die's cycle (R208). -/
def Strand.takeEntries (x : Strand) (now : Word) (es : List LEntry) : Strand :=
  { es.foldl (fun (x : Strand) e => x.dropEntry e.idx) x with
    took := (es.getLast?.map fun e => (now, e.pos)).or x.took }

def Strand.setEntry (x : Strand) (e : LEntry) : Strand :=
  { x with ls := x.ls.map fun y => if y.idx = e.idx then e else y }

/-- Entry numbers not in use, ascending: the lowest is allocated first, which is the model's choice (log entry 130). -/
def Strand.freeEntries (x : Strand) : List Nat := (List.range 32).filter fun i => !x.ls.any fun e => e.idx == i

def Strand.epoch (x : Strand) (i : Nat) : BitVec 8 := x.epochs.toList.getD i 0

def Strand.bumpEpoch (x : Strand) (i : Nat) : Strand :=
  { x with epochs := if h : i < 32 then x.epochs.set i (x.epoch i + 1) h else x.epochs }

/-- Allocates an entry: pending, its epoch incremented, its issue position after every live entry (R211). -/
def Strand.allocate (x : Strand) (i : Nat) (tag : BitVec 16) (req : LReq) : Strand :=
  let x := x.bumpEpoch i
  { x with ls := x.ls ++ [⟨i, 0, tag, .pending, 0, x.nextPos, req, none⟩], nextPos := x.nextPos + 1 }

/-! ## Sending, landing and faulting (R208, R211, R213, R218, R222) -/

/-- The context of a strand's accesses, in the mode it is in at this moment: a load resent at restore or by LREISSUE is checked in
it (R220, R223; log entry 109). -/
def State.ctxOf (s : State) (k : StrandIx) : Ctx :=
  let x := s.strand k
  ⟨coreOf k, x.part, s.rootOf x.wid, x.wid, x.sys⟩

/-- The checks left after issue, once translation can be made: the request leaves, or its fault waits to be determined. -/
def State.checkTagged (s : State) (c : TagCheck) : State :=
  let n := c.ref.ty.width / 8
  match s.check { s.ctxOf c.strand with sys := c.sys } .load false n c.ref.addr c.ref.addr n with
  | .error t => s.modNet fun m => { m with checks := m.checks ++ [{ c with fault := some t }] }
  | .ok y =>
    let (id, s) := s.fresh
    s.modNet fun m => { m with reqs := m.reqs ++
      [{ id := id, core := coreOf c.strand, strand := c.strand, gen := c.ref.back.gen, seq := 0, scope := c.scope,
         kind := .load [(0, y)], tagged := some c.ref }] }

/-- Sends the load of an entry (R211); where its page is in no TLB and the access is not prompt, after a walk. -/
def State.sendEntry (s : State) (k : StrandIx) (i : Nat) (req : LReq) : State :=
  let x := s.strand k
  let c : TagCheck := ⟨⟨⟨k, x.gen, i, x.epoch i⟩, req.ty, req.addr⟩, k, x.sys, req.scope, req.acq, none⟩
  let cx := s.ctxOf k
  if !s.prompt && classAddr req.addr == .user && (s.cached cx req.addr.toNat).isNone then
    (s.modNet fun m => { m with checks := m.checks ++ [c] }).addWalk cx (req.addr &&& ~~~0x1FFF#64)
  else (s.meetWalk cx req.addr).checkTagged c

/-- Whether a reply's slot, entry and epoch still match (R222). -/
def State.entryFor (s : State) (r : ReplyTo) : Option LEntry :=
  let x := s.strand r.strand
  if x.live && x.gen == r.gen && x.epoch r.entry == r.epoch then
    x.ls.find? fun e => e.idx == r.entry && e.waiting
  else none

/-- An entry lands its value or takes its fault, stamped: every entry stamped in one cycle bears the same stamp, and issue
position orders them (R208, R211). -/
def Strand.stampEntry (x : Strand) (now : Word) (e : LEntry) : Strand :=
  if x.stampCyc = some now then x.setEntry { e with stamp := x.nextStamp - 1 }
  else { x.setEntry { e with stamp := x.nextStamp } with nextStamp := x.nextStamp + 1, stampCyc := some now }

/-- Whether an entry's reply or fault comes only in a later cycle: LSCNT has counted it in this one in its old state (R221); or one
with a later issue position has been taken, or met faulted, in this one, and of entries stamped in one cycle the earliest position
comes first (R208, R218, R220). -/
def State.landHeld (s : State) (r : ReplyTo) : Bool :=
  let x := s.strand r.strand
  let now := (s.dieRec (dieOf (coreOf r.strand))).cyc
  match s.entryFor r with
  | none => false
  | some e => x.counted == some now || x.took.any fun (c, p) => c == now && x.stampCyc == some c && decide (e.pos < p)

/-- An entry lands or faults; a reply without its entry is stale, and counted (R222). -/
def State.land (s : State) (r : ReplyTo) (val : Word) (fault : Option Trap) : State :=
  match s.entryFor r with
  | none => s.countCore (coreOf r.strand) 0x01
  | some e =>
    let now := (s.dieRec (dieOf (coreOf r.strand))).cyc
    s.modStrand r.strand fun x =>
      x.stampEntry now (match fault with
        | some t => { e with st := .faulted, fault := some t }
        | none => { e with st := .landed, val := val })

/-- The release tags a landing read returned (R236, R255). -/
def State.landTags (s : State) (r : ReplyTo) (ts : List SyncTag) : State :=
  match s.entryFor r with
  | none => s
  | some e =>
    if ts.isEmpty then s
    else
      s.modStrand r.strand fun x =>
        if e.req.acq then
          if ts.any (missed (coreOf r.strand) e.req.scope) then mergeFlags x Num.scm else x
        else { x with readTags := (x.readTags ++ ts).eraseDups }

/-! ## Issuing tagged loads (R210, R211) -/

/-- One request: its address, tag and what its entry keeps. -/
structure TagReq where
  addr : Word
  tag : BitVec 16
  deriving DecidableEq, Repr

/-- The first request that fails step 1 or 2 of R180, in order. -/
def State.tagIssueFault (s : State) (n : Nat) (first : Word) : List TagReq → Option Trap
  | [] => none
  | r :: rs =>
    match s.check s.ctx .load false n first r.addr n with
    | .error t => if t.cause = 0x13 ∨ t.cause = 0x14 then some t else s.tagIssueFault n first rs
    | .ok _ => s.tagIssueFault n first rs

def State.issueTagged (s : State) (ty : Ty) (a : Attr) (acq : Bool) (rs : List TagReq) : Res :=
  let n := ty.width / 8
  match s.tagIssueFault n ((rs.map (·.addr)).headD 0) rs with
  | some t => .trap s t
  | none =>
    let free := s.me.freeEntries
    if free.length < rs.length then trapOf s 0x21 0 0
    else
      let ks := rs.flatMap fun r =>
        match s.check s.ctx .load false n r.addr r.addr n with
        | .ok y => y.readKeys
        | .error _ => []
      if s.ownPosted (ks ++ s.pathKeys s.ctx (rs.map (·.addr))) then .wait s .drain
      else
        let req (r : TagReq) : LReq := ⟨r.addr, ty, a.scope, acq, false⟩
        .ok ((rs.zip free).foldl (fun s (r, i) =>
          ({ s with me := s.me.allocate i r.tag (req r) }).sendEntry s.cur i (req r)) s.sided)

/-- A tag operand (R210): the register's low 16 bits plus the immediate. -/
def tagOf (r : Word) (imm : BitVec 16) : BitVec 16 := r.extractLsb' 0 16 + imm

def runLdt (x : LdtA) (s : State) : Res :=
  memOp s fun s =>
    let a := attrOf x.sc
    s.issueTagged x.ty a (x.acq || a.acquires) [⟨s.rg x.a + sx x.ofs, tagOf (s.rg x.tr) x.ti⟩]
def execLdt (x : LdtA) (s : State) : Out := (runLdt x s).finish s

def runVgatht (x : VGatTA) (s : State) : Res :=
  afterPasses s <| memOp s fun s =>
    let a := attrOf x.sc
    let lanes := (List.range x.ty.count).filter fun i => s.sel x.ty x.mkr x.lane i
    s.issueTagged x.ty a (x.acq || a.acquires)
      (lanes.map fun i => ⟨indexAddr s x.a x.x x.scale.val x.ofs x.ty i, tagOf (s.rg x.tr) x.ti + BitVec.ofNat 16 i⟩)
def execVgatht (x : VGatTA) (s : State) : Out := (runVgatht x s).finish s

/-! ## Taking (R214, R215, R218) -/

/-- A landing fault: the entry stays, and no entry that lands later in this cycle comes before it (R218, R220). -/
def landingFault (s : State) (e : LEntry) : Res :=
  let s := { s with me := { s.me with took := some ((s.dieRec (dieOf s.core)).cyc, e.pos) } }
  match e.fault with
  | some t => .trap s ⟨0x20, t.cause, t.val, none, e.tag⟩
  | none => .trap s ⟨0x20, 0, e.req.addr, none, e.tag⟩

def takeForm (x : TakeA) (nb : Bool) (s : State) : Res :=
  match s.me.takeOrder with
  | [] =>
    let out := s.me.outstanding
    if 0 < out ∧ !nb then .wait s .take
    else .ok ((((s.wg x.d (BitVec.ofNat 64 out)).wg x.t 0xFFFF).wp x.p false).setNone true)
  | e :: _ =>
    if e.st = .faulted then landingFault s e
    else
      let s := { s with me := s.me.takeEntries (s.dieRec (dieOf s.core)).cyc [e] }
      .ok ((((s.wg x.d e.val).wg x.t (e.tag.setWidth 64)).wp x.p true).setNone false)

def runTake (x : TakeA) (s : State) : Res := takeForm x false s
def execTake (x : TakeA) (s : State) : Out := (runTake x s).finish s

def runTakeNb (x : TakeA) (s : State) : Res := takeForm x true s
def execTakeNb (x : TakeA) (s : State) : Out := (runTakeNb x s).finish s

/-- Lane by lane: the j-th value in the j-th selected lane, every other lane zeroed or kept. -/
def fillLanes (w : Nat) (zero : Bool) (lanes : List Nat) (vals : List Nat) (old : VecReg) : VecReg :=
  let put := lanes.zip vals
  ofElems w ((List.range (512 / w)).map fun i =>
    match put.find? fun p => p.1 = i with
    | some (_, y) => y
    | none => if zero then 0 else elem old i w)

def runVtake (x : VTakeA) (s : State) : Res :=
  afterPasses s <|
  let w := x.ty.width
  let lanes := (List.range x.ty.count).filter (s.vsel x.ty x.sel)
  let order := s.me.takeOrder
  let es := (order.takeWhile fun e => e.st == .landed).take (min (x.n1.val + 1) lanes.length)
  let finish (s : State) : Res :=
    let z := zeroing x.sel
    let s := (s.wv x.d (fillLanes w z lanes (es.map fun e => e.val.toNat) (s.rv x.d)))
    let s := (s.wv x.t (fillLanes w z lanes (es.map fun e => e.tag.toNat) (s.rv x.t)))
    .ok ((s.wg x.c (BitVec.ofNat 64 es.length)).setNone es.isEmpty)
  if es.isEmpty then
    match order.find? fun e => e.st == .faulted && order.head? == some e with
    | some e => landingFault s e
    | none => if 0 < s.me.outstanding ∧ !x.nb then .wait s .take else finish s
  else finish { s with me := s.me.takeEntries (s.dieRec (dieOf s.core)).cyc es }
def execVtake (x : VTakeA) (s : State) : Out := (runVtake x s).finish s

/-! ## Counting and resolving (R219, R221) -/

/-- LSCNT; no entry that it counts is stamped later in the cycle it reads in. -/
def runLscnt (d : GReg) (s : State) : Res :=
  let n (st : LState) : Nat := (s.me.ls.filter fun e => e.st = st).length
  let s := { s with me := { s.me with counted := some (s.dieRec (dieOf s.core)).cyc } }
  .ok (s.wg d (BitVec.ofNat 64 (n .pending + n .landed * 2 ^ 8 + n .faulted * 2 ^ 16 + n .reissued * 2 ^ 24
    + (32 - s.me.ls.length) * 2 ^ 32 + (if s.me.acqHold then 2 ^ 38 else 0))))
def execLscnt (d : GReg) (s : State) : Out := (runLscnt d s).finish s

/-- The faulted entry of a tag with the lowest stamp. -/
def Strand.faultedTag (x : Strand) (t : BitVec 16) : Option LEntry :=
  (sortBy x.stampKey (x.ls.filter fun e => e.st == .faulted)).find? fun e => e.tag = t

/-- The entry LREISSUE selects: never one that SEND.rq allocated (R274). -/
def Strand.reissuable (x : Strand) (t : BitVec 16) : Option LEntry :=
  (sortBy x.stampKey (x.ls.filter fun e => e.st == .faulted && !e.req.rq)).find? fun e => e.tag = t

/-- The live entry of a tag with the earliest issue position. -/
def Strand.liveTag (x : Strand) (t : BitVec 16) : Option LEntry := (sortBy (·.pos) x.ls).find? fun e => e.tag = t

/-- gd takes 1 if an entry was found, and 0 with no other effect if none was. -/
def resolving (s : State) (d : GReg) (e : Option LEntry) (f : State → LEntry → State) : Res :=
  match e with
  | some e => .ok ((f s e).wg d 1)
  | none => .ok (s.wg d 0)

/-- The load is sent anew where the LDT's read stands in program order (R228), and so without a wait for a posted write of the strand
that was issued after it; R235's wait of an overlapping access is the LDT's, which is the model's choice (log entry 134). -/
def runLreissue (x : TagA) (s : State) : Res :=
  resolving s x.d (s.me.reissuable (tagOf (s.rg x.tr) x.ti)) fun s e =>
    let m := (s.me.setEntry { e with st := .reissued, fault := none, stamp := 0 }).bumpEpoch e.idx
    ({ s with me := m }).sendEntry s.cur e.idx e.req
def execLreissue (x : TagA) (s : State) : Out := (runLreissue x s).finish s

def runLfill (x : TagFA) (s : State) : Res :=
  let v := s.rg x.b
  resolving s x.d (s.me.faultedTag (tagOf (s.rg x.tr) x.ti)) fun s e =>
    { s with me := s.me.setEntry { e with st := .landed, val := v, fault := none } }
def execLfill (x : TagFA) (s : State) : Out := (runLfill x s).finish s

def runLdrop (x : TagA) (s : State) : Res :=
  resolving s x.d (s.me.faultedTag (tagOf (s.rg x.tr) x.ti)) fun s e => { s with me := s.me.dropEntry e.idx }
def execLdrop (x : TagA) (s : State) : Out := (runLdrop x s).finish s

def runLdropAny (x : TagA) (s : State) : Res :=
  resolving s x.d (s.me.liveTag (tagOf (s.rg x.tr) x.ti)) fun s e => { s with me := s.me.dropEntry e.idx }
def execLdropAny (x : TagA) (s : State) : Out := (runLdropAny x s).finish s

end Sys2Proof.Machine
end

