-- ==== Sys2Proof/Machine/Vector.lean ====
section
/-! DEFINITION. Vector arithmetic, compares, moves and mask forms (R121 to R128). -/

namespace Sys2Proof.Machine

/-! ## The elementwise shape (R36, R124) -/

/-- The elements of a result, ascending, with the generator threaded through the selected ones and their flags joined. -/
def runLanes (sel : Nat → Bool) (other : Nat → Nat) (op : BitVec 32 → Nat → BitVec 32 × Nat × Num.Flags) :
    List Nat → BitVec 32 → List Nat × BitVec 32 × Num.Flags
  | [], g => ([], g, 0)
  | i :: r, g =>
    if sel i then
      let (g, y, fl) := op g i
      let (ys, g, fl') := runLanes sel other op r g
      (y :: ys, g, fl ||| fl')
    else
      let (ys, g, fl) := runLanes sel other op r g
      (other i :: ys, g, fl)

/-- What an unselected element of width w becomes (R124). -/
def keepOr (zero : Bool) (old : VecReg) (w i : Nat) : Nat := if zero then 0 else elem old i w

/-- An elementwise form that rounds nothing. -/
def lanewise (s : State) (t : Ty) (d : VReg) (sel : VSel) (op : Nat → Nat × Num.Flags) : Res :=
  let (ys, _, fl) := runLanes (s.vsel t sel) (keepOr (zeroing sel) (s.rv d) t.width) (fun g i => (g, op i))
    (List.range t.count) 0
  orException s fl fun s => .ok (s.wv d (ofElems t.width ys))

/-- A form that moves bits and sets no flag. -/
def bitLanes (s : State) (t : Ty) (d : VReg) (sel : VSel) (op : Nat → Nat) : Res :=
  let (ys, _, _) := runLanes (s.vsel t sel) (keepOr (zeroing sel) (s.rv d) t.width) (fun g i => (g, op i, 0))
    (List.range t.count) 0
  .ok (s.wv d (ofElems t.width ys))

/-- The rounding mode of a form: its own field, or %rmode.RM (R121). -/
def modeOf (s : State) (r : Option RMode) : RMode := r.getD s.rmode

/-- An elementwise float form: one generator step for each selected element in mode 5 (R36). -/
def roundLanes (s : State) (t : Ty) (d : VReg) (sel : VSel) (rnd : Option RMode)
    (op : RMode → Nat → Nat → Nat × Num.Flags) : Res :=
  let m := modeOf s rnd
  let (ys, g, fl) := runLanes (s.vsel t sel) (keepOr (zeroing sel) (s.rv d) t.width)
    (fun g i => let (g, u) := Num.draw m g; (g, op m u i)) (List.range t.count) s.srg
  orException s fl fun s => .ok ((s.setSrg g).wv d (ofElems t.width ys))

/-- Element i of a register as a float of the type. -/
def fval (t : Ty) (v : VecReg) (i : Nat) : Num.Val := Num.decode (Num.fmtOf t) (elem v i t.width)

/-- Element i of a register as an integer of the type. -/
def ival (t : Ty) (v : VecReg) (i : Nat) : Int := Num.readInt t.isI t.width (elem v i t.width)

/-- VADD, VSUB and VMUL. -/
def vecArith (x : VArS) (s : State) (int : Int → Int → Int)
    (flt : Num.Fmt → RMode → Nat → Num.Val → Num.Val → Nat × Num.Flags) : Res :=
  let a := s.rv x.a
  let b := s.rv x.b
  if x.ty.isFloat then
    roundLanes s x.ty x.d x.sel x.rnd fun m u i => flt (Num.fmtOf x.ty) m u (fval x.ty a i) (fval x.ty b i)
  else lanewise s x.ty x.d x.sel fun i => Num.narrow x.sat x.ty.isI x.ty.width (int (ival x.ty a i) (ival x.ty b i))

def vecUnary (x : VUnR) (s : State) (op : Num.Fmt → RMode → Nat → Num.Val → Nat × Num.Flags) : Res :=
  let a := s.rv x.a
  roundLanes s x.ty x.d x.sel x.rnd fun m u i => op (Num.fmtOf x.ty) m u (fval x.ty a i)

def vecMinMax (x : VBin) (s : State) (mx : Bool) : Res :=
  let a := s.rv x.a
  let b := s.rv x.b
  let w := x.ty.width
  if x.ty.isFloat then lanewise s x.ty x.d x.sel fun i => Num.fminmax mx (Num.fmtOf x.ty) (elem a i w) (elem b i w)
  else bitLanes s x.ty x.d x.sel fun i => if decide (ival x.ty a i ≤ ival x.ty b i) != mx then elem a i w else elem b i w

def vecBits (x : VBin) (s : State) (f : Nat → Nat → Nat) : Res :=
  let a := s.rv x.a
  let b := s.rv x.b
  bitLanes s x.ty x.d x.sel fun i => f (elem a i x.ty.width) (elem b i x.ty.width)

/-- VABS and VNEG: bit operations on floats, exact then narrowed on integers (R78, R125). -/
def vecSign (x : VUnS) (s : State) (bits : Nat → Nat) (int : Int → Int) : Res :=
  let a := s.rv x.a
  let w := x.ty.width
  if x.ty.isFloat then bitLanes s x.ty x.d x.sel fun i => bits (elem a i w)
  else lanewise s x.ty x.d x.sel fun i => Num.narrow x.sat true w (int (ival x.ty a i))

/-- Shift counts of a register form: Bits(b, 5, 0) mod w. -/
def laneCount (t : Ty) (b : VecReg) (i : Nat) : Nat := elem b i t.width % 64 % t.width

def vecShl (s : State) (t : Ty) (d a : VReg) (sel : VSel) (n : Nat → Nat) : Res :=
  let a := s.rv a
  lanewise s t d sel fun i => Num.wrap t.isI t.width (ival t a i * 2 ^ n i)

def vecShr (s : State) (t : Ty) (d a : VReg) (sel : VSel) (n : Nat → Nat) : Res :=
  let a := s.rv a
  bitLanes s t d sel fun i => shrPat (elem a i t.width) (n i)

def vecSra (s : State) (t : Ty) (d a : VReg) (sel : VSel) (n : Nat → Nat) : Res :=
  let a := s.rv a
  bitLanes s t d sel fun i => sraPat t.width (elem a i t.width) (n i)

/-- A mask result: the selected bits below n, the others zeroed or kept, and nothing from n up (R126). -/
def maskResult (n : Nat) (sel : Nat → Bool) (zero : Bool) (old : Word) (bit : Nat → Bool) : Word :=
  BitVec.ofNat 64 ((List.range n).foldl (fun k i =>
    if (if sel i then bit i else !zero && old.getLsbD i) then k + 2 ^ i else k) 0)

/-- An element index from an immediate or a register, as one number. -/
def extElem (s : State) (t : Ty) (a : VReg) (mkr : MReg) (lane : Option LanePfx) (i : Nat) : Word :=
  if i < t.count && s.sel t mkr lane i then
    if t.isFloat || t.isF8 then BitVec.ofNat 64 (elem (s.rv a) i t.width) else extTy t (elem (s.rv a) i t.width)
  else 0

def insElem (s : State) (t : Ty) (d : VReg) (a : GReg) (mkr : MReg) (lane : Option LanePfx) (i : Nat) : Res :=
  let old := s.rv d
  let y := (s.rg a).toNat % 2 ^ t.width
  .ok (s.wv d (ofElems t.width ((List.range t.count).map fun j =>
    if j = i && s.sel t mkr lane i then y else elem old j t.width)))

/-! ## Meanings -/

def runVadd (x : VArS) (s : State) : Res :=
  recordable (.vadd x) [] s fun s => vecArith x s (· + ·) fun f m u a b => Num.fadd f m u a b
def execVadd (x : VArS) (s : State) : Out := (runVadd x s).finish s

def runVsub (x : VArS) (s : State) : Res :=
  recordable (.vsub x) [] s fun s => vecArith x s (· - ·) fun f m u a b => Num.fadd f m u a b.negate
def execVsub (x : VArS) (s : State) : Out := (runVsub x s).finish s

def runVmul (x : VArS) (s : State) : Res :=
  recordable (.vmul x) [] s fun s => vecArith x s (· * ·) fun f m u a b => Num.fmul f m u a b
def execVmul (x : VArS) (s : State) : Out := (runVmul x s).finish s

def runVfma (x : VFmaA) (s : State) : Res :=
  recordable (.vfma x) [] s fun s => 
    let a := s.rv x.a
    let b := s.rv x.b
    let c := s.rv x.c
    roundLanes s x.ty x.d x.sel x.rnd fun m u i =>
      Num.ffma (Num.fmtOf x.ty) m u x.ns (fval x.ty a i) (fval x.ty b i) (fval x.ty c i)
def execVfma (x : VFmaA) (s : State) : Out := (runVfma x s).finish s

def runVdiv (x : VBinR) (s : State) : Res :=
  recordable (.vdiv x) [] s fun s => 
    let a := s.rv x.a
    let b := s.rv x.b
    roundLanes s x.ty x.d x.sel x.rnd fun m u i => Num.fdiv (Num.fmtOf x.ty) m u (fval x.ty a i) (fval x.ty b i)
def execVdiv (x : VBinR) (s : State) : Out := (runVdiv x s).finish s

def runVsqrt (x : VUnR) (s : State) : Res :=
  recordable (.vsqrt x) [] s fun s => vecUnary x s Num.fsqrt
def execVsqrt (x : VUnR) (s : State) : Out := (runVsqrt x s).finish s

def runVmin (x : VBin) (s : State) : Res :=
  recordable (.vmin x) [] s fun s => vecMinMax x s false
def execVmin (x : VBin) (s : State) : Out := (runVmin x s).finish s

def runVmax (x : VBin) (s : State) : Res :=
  recordable (.vmax x) [] s fun s => vecMinMax x s true
def execVmax (x : VBin) (s : State) : Out := (runVmax x s).finish s

def runVabs (x : VUnS) (s : State) : Res :=
  recordable (.vabs x) [] s fun s => vecSign x s (fun y => y % 2 ^ (x.ty.width - 1)) fun y => (y.natAbs : Int)
def execVabs (x : VUnS) (s : State) : Out := (runVabs x s).finish s

def runVneg (x : VUnS) (s : State) : Res :=
  recordable (.vneg x) [] s fun s => vecSign x s (fun y => y ^^^ 2 ^ (x.ty.width - 1)) fun y => -y
def execVneg (x : VUnS) (s : State) : Out := (runVneg x s).finish s

def runVand (x : VBin) (s : State) : Res :=
  recordable (.vand x) [] s fun s => vecBits x s (· &&& ·)
def execVand (x : VBin) (s : State) : Out := (runVand x s).finish s

def runVor (x : VBin) (s : State) : Res :=
  recordable (.vor x) [] s fun s => vecBits x s (· ||| ·)
def execVor (x : VBin) (s : State) : Out := (runVor x s).finish s

def runVxor (x : VBin) (s : State) : Res :=
  recordable (.vxor x) [] s fun s => vecBits x s (· ^^^ ·)
def execVxor (x : VBin) (s : State) : Out := (runVxor x s).finish s

def runVshl (x : VBin) (s : State) : Res :=
  recordable (.vshl x) [] s fun s => let b := s.rv x.b; vecShl s x.ty x.d x.a x.sel (laneCount x.ty b)
def execVshl (x : VBin) (s : State) : Out := (runVshl x s).finish s

def runVshlImm (x : VShI) (s : State) : Res :=
  recordable (.vshlImm x) [] s fun s => vecShl s x.ty x.d x.a x.sel fun _ => x.s.val
def execVshlImm (x : VShI) (s : State) : Out := (runVshlImm x s).finish s

def runVshr (x : VBin) (s : State) : Res :=
  recordable (.vshr x) [] s fun s => let b := s.rv x.b; vecShr s x.ty x.d x.a x.sel (laneCount x.ty b)
def execVshr (x : VBin) (s : State) : Out := (runVshr x s).finish s

def runVshrImm (x : VShI) (s : State) : Res :=
  recordable (.vshrImm x) [] s fun s => vecShr s x.ty x.d x.a x.sel fun _ => x.s.val
def execVshrImm (x : VShI) (s : State) : Out := (runVshrImm x s).finish s

def runVsra (x : VBin) (s : State) : Res :=
  recordable (.vsra x) [] s fun s => let b := s.rv x.b; vecSra s x.ty x.d x.a x.sel (laneCount x.ty b)
def execVsra (x : VBin) (s : State) : Out := (runVsra x s).finish s

def runVsraImm (x : VShI) (s : State) : Res :=
  recordable (.vsraImm x) [] s fun s => vecSra s x.ty x.d x.a x.sel fun _ => x.s.val
def execVsraImm (x : VShI) (s : State) : Out := (runVsraImm x s).finish s

def runVrcp (x : VUnR) (s : State) : Res :=
  recordable (.vrcp x) [] s fun s => vecUnary x s fun f m u a => Num.fdiv f m u (.fin false 1 0) a
def execVrcp (x : VUnR) (s : State) : Out := (runVrcp x s).finish s

def runVrsqrt (x : VUnR) (s : State) : Res :=
  recordable (.vrsqrt x) [] s fun s => vecUnary x s Num.frsqrt
def execVrsqrt (x : VUnR) (s : State) : Out := (runVrsqrt x s).finish s

def runVexp2 (x : VUnR) (s : State) : Res :=
  recordable (.vexp2 x) [] s fun s => vecUnary x s Num.fexp2
def execVexp2 (x : VUnR) (s : State) : Out := (runVexp2 x s).finish s

def runVcmp (x : VCmpA) (s : State) : Res :=
  recordable (.vcmp x) [] s fun s => 
    let a := s.rv x.a
    let b := s.rv x.b
    let one (i : Nat) : Bool × Num.Flags :=
      if x.ty.isFloat then Num.fcmp x.cond (fval x.ty a i) (fval x.ty b i)
      else (Num.icmp x.cond (ival x.ty a i) (ival x.ty b i), 0)
    let fl := (List.range x.ty.count).foldl (fun fl i => if s.vsel x.ty x.sel i then fl ||| (one i).2 else fl) 0
    orException s fl fun s =>
      .ok (s.wm x.d (maskResult x.ty.count (s.vsel x.ty x.sel) (zeroing x.sel) (s.me.m[x.d]) fun i => (one i).1))
def execVcmp (x : VCmpA) (s : State) : Out := (runVcmp x s).finish s

def runVsel (x : VBin) (s : State) : Res :=
  recordable (.vsel x) [] s fun s => 
    let a := s.rv x.a
    let b := s.rv x.b
    let old := s.rv x.d
    let mk := s.rm x.sel.mkr
    let w := x.ty.width
    .ok (s.wv x.d (ofElems w ((List.range x.ty.count).map fun i =>
      if laneSel (BitVec.allOnes 64) x.sel.lane (fun l => s.rm l.mask) i then
        (if mk.getLsbD i then elem a i w else elem b i w)
      else keepOr (zeroing x.sel) old w i)))
def execVsel (x : VBin) (s : State) : Out := (runVsel x s).finish s

def runVmov (x : VUn) (s : State) : Res :=
  recordable (.vmov x) [] s fun s => let a := s.rv x.a; bitLanes s x.ty x.d x.sel fun i => elem a i x.ty.width
def execVmov (x : VUn) (s : State) : Out := (runVmov x s).finish s

def runVbcast (x : VBcA) (s : State) : Res :=
  recordable (.vbcast x) [x.a] s fun s => let a := (s.rg x.a).toNat; bitLanes s x.ty x.d x.sel fun _ => a % 2 ^ x.ty.width
def execVbcast (x : VBcA) (s : State) : Out := (runVbcast x s).finish s

def runVbcastImm (x : VBcI) (s : State) : Res :=
  recordable (.vbcastImm x) [] s fun s => bitLanes s x.ty x.d x.sel fun _ => (sx x.imm).toNat % 2 ^ x.ty.width
def execVbcastImm (x : VBcI) (s : State) : Out := (runVbcastImm x s).finish s

def runVext (x : VExtI) (s : State) : Res :=
  notRecordable s fun s => .ok (s.wg x.d (extElem s x.ty x.a x.mkr x.lane x.idx.val))
def execVext (x : VExtI) (s : State) : Out := (runVext x s).finish s

def runVextReg (x : VExtR) (s : State) : Res :=
  notRecordable s fun s => .ok (s.wg x.d (extElem s x.ty x.a x.mkr x.lane (s.rg x.b).toNat))
def execVextReg (x : VExtR) (s : State) : Out := (runVextReg x s).finish s

def runVins (x : VInsI) (s : State) : Res :=
  recordable (.vins x) [x.a] s fun s => insElem s x.ty x.d x.a x.mkr x.lane x.idx.val
def execVins (x : VInsI) (s : State) : Out := (runVins x s).finish s

def runVinsReg (x : VInsR) (s : State) : Res :=
  recordable (.vinsReg x) [x.a, x.b] s fun s => 
    if (s.rg x.b).toNat < x.ty.count then insElem s x.ty x.d x.a x.mkr x.lane (s.rg x.b).toNat else .ok s
def execVinsReg (x : VInsR) (s : State) : Out := (runVinsReg x s).finish s

def runVperm (x : VPermA) (s : State) : Res :=
  recordable (.vperm x) [] s fun s => 
    let a := s.rv x.a
    let b := s.rv x.b
    let c := s.rv x.c
    let w := x.ty.width
    let n := x.ty.count
    bitLanes s x.ty x.d x.sel fun i =>
      let u := elem b i w
      if u < n then elem a u w else if u < 2 * n then elem c (u - n) w else 0
def execVperm (x : VPermA) (s : State) : Out := (runVperm x s).finish s

def runVrot (x : VShI) (s : State) : Res :=
  recordable (.vrot x) [] s fun s => 
    let a := s.rv x.a
    bitLanes s x.ty x.d x.sel fun i => elem a ((i + x.s.val) % x.ty.count) x.ty.width
def execVrot (x : VShI) (s : State) : Out := (runVrot x s).finish s

def runVcompress (x : VCompA) (s : State) : Res :=
  recordable (.vcompress x) [] s fun s => 
    let a := s.rv x.a
    let w := x.ty.width
    .ok (s.wv x.d (ofElems w
      (((List.range x.ty.count).filter fun i => s.sel x.ty x.mkr x.lane i).map fun i => elem a i w)))
def execVcompress (x : VCompA) (s : State) : Out := (runVcompress x s).finish s

/-- The number of selected elements below element i. -/
def rankBelow (sel : Nat → Bool) (i : Nat) : Nat := ((List.range i).filter sel).length

def runVexpand (x : VUn) (s : State) : Res :=
  recordable (.vexpand x) [] s fun s => 
    let a := s.rv x.a
    let sel := s.vsel x.ty x.sel
    bitLanes s x.ty x.d x.sel fun i => elem a (rankBelow sel i) x.ty.width
def execVexpand (x : VUn) (s : State) : Out := (runVexpand x s).finish s

def runViota (x : VIotaA) (s : State) : Res :=
  recordable (.viota x) [] s fun s => 
    let sel := s.vsel x.ty x.sel
    bitLanes s x.ty x.d x.sel fun i => rankBelow sel i % 2 ^ x.ty.width
def execViota (x : VIotaA) (s : State) : Out := (runViota x s).finish s

def runMand (x : MBin) (s : State) : Res :=
  recordable (.mand x) [] s fun s => .ok (s.wm x.d (s.rm x.a &&& s.rm x.b))
def execMand (x : MBin) (s : State) : Out := (runMand x s).finish s

def runMor (x : MBin) (s : State) : Res :=
  recordable (.mor x) [] s fun s => .ok (s.wm x.d (s.rm x.a ||| s.rm x.b))
def execMor (x : MBin) (s : State) : Out := (runMor x s).finish s

def runMxor (x : MBin) (s : State) : Res :=
  recordable (.mxor x) [] s fun s => .ok (s.wm x.d (s.rm x.a ^^^ s.rm x.b))
def execMxor (x : MBin) (s : State) : Out := (runMxor x s).finish s

def runMnot (x : MUn) (s : State) : Res :=
  recordable (.mnot x) [] s fun s => .ok (s.wm x.d (~~~s.rm x.a))
def execMnot (x : MUn) (s : State) : Out := (runMnot x s).finish s

def runMpopc (x : MPopA) (s : State) : Res :=
  notRecordable s fun s => .ok (s.wg x.d (BitVec.ofNat 64 (Num.popc 64 (s.rm x.a).toNat)))
def execMpopc (x : MPopA) (s : State) : Out := (runMpopc x s).finish s

end Sys2Proof.Machine
end

