-- ==== Sys2Proof/Machine/VCvt.lean ====
section
/-! DEFINITION. Conversions with and without an outlier ring, the dot of four, reductions, ranking, skipping and pruning (R82
to R87, R94 to R97, R129 to R135). -/

namespace Sys2Proof.Machine

def Ty.isFlt (t : Ty) : Bool := t.isFloat || t.isF8

/-! ## VCVT (R129) -/

/-- One element's conversion; sb is the scale byte of a .q4 side. -/
def convert (dt st : Ty) (sat : Bool) (sb : BitVec 8) (m : RMode) (u : Nat) (x : Nat) : Nat × Num.Flags :=
  if dt = .q4 then Num.encode4 (Num.scaleType sb) (Num.scaleExp sb) m u (Num.decode (Num.fmtOf st) x)
  else if st = .q4 then Num.cvtFloat (Num.fmtOf dt) m u (Num.decode4 sb x)
  else if Ty.isFlt st then
    if Ty.isFlt dt then Num.cvtFloat (Num.fmtOf dt) m u (Num.decode (Num.fmtOf st) x)
    else Num.cvtToInt dt.isI dt.width m u (Num.decode (Num.fmtOf st) x)
  else
    let i := Num.readInt st.isI st.width x
    if Ty.isFlt dt then Num.cvtFromInt (Num.fmtOf dt) m u i
    else if sat then Num.saturate dt.isI dt.width i
    else (Num.lowBits dt.width i, 0)

/-- The range of destination elements part p writes, its first and its length, and the first source element. -/
def cvtRange (dt st : Ty) (p : Nat) : Nat × Nat × Nat :=
  if dt.width < st.width then (p * st.count, st.count, 0)
  else if st.width < dt.width then (0, dt.count, p * dt.count)
  else (0, dt.count, 0)

/-- Whether a pair of types rounds, and so takes generator steps. -/
def cvtRounds (dt st : Ty) : Bool := !(dt.isInt && st.isInt)

def runVcvt (x : VCvtA) (s : State) : Res :=
  recordable (.vcvt x) [x.b] s fun s =>
    let q := x.dt == .q4 || x.st == .q4
    if q && (s.rg x.b).extractLsb' 8 56 != 0 then illegalHere s
    else
      let sb := (s.rg x.b).extractLsb' 0 8
      let src := s.rv x.a
      let old := s.rv x.d
      let (lo, len, from') := cvtRange x.dt x.st x.part.val
      let m := modeOf s x.rnd
      let w := x.dt.width
      let inside (i : Nat) : Bool := decide (lo ≤ i) && decide (i < lo + len)
      let (ys, g, fl) := runLanes (fun i => inside i && s.vsel x.dt x.sel i)
        (fun i => if inside i then keepOr (zeroing x.sel) old w i else elem old i w)
        (fun g i =>
          let (g, u) := if cvtRounds x.dt x.st then Num.draw m g else (g, 0)
          (g, convert x.dt x.st x.sat sb m u (elem src (from' + i - lo) x.st.width)))
        (List.range x.dt.count) s.srg
      orException s fl fun s => .ok ((s.setSrg g).wv x.d (ofElems w ys))
def execVcvt (x : VCvtA) (s : State) : Out := (runVcvt x s).finish s

/-! ## VCVTO (R94, R95, R130) -/

/-- A source value's f32 form in a ring entry: exact, a NaN with its bits and its quiet bit set (R94). -/
def widenF32 (st : Ty) (x : Nat) : Nat :=
  let f := Num.fmtOf st
  match Num.decode f x with
  | .nan _ =>
    let neg := decide (f.signBit ≤ x)
    Num.withSign .f32 neg (0xFF * 2 ^ 23 + (x % 2 ^ f.frac * 2 ^ (23 - f.frac)) ||| 0x7FC00000)
  | .inf n => Num.infOf .f32 n
  | .fin n m e => (Num.roundTo .f32 .nearestEven 0 ⟨n, m, e, false⟩).1

/-- A value divided by the scale. -/
def unscale (v : Num.Val) (e : Int) : Num.Val :=
  match v with
  | .fin n m k => .fin n m (k - e)
  | v => v

/-- One element under VCVTO: its code, its flags, and whether it is an outlier (R95). -/
def convertOut (dt st : Ty) (sb : BitVec 8) (m : RMode) (u : Nat) (x : Nat) : Nat × Num.Flags × Bool :=
  let v := Num.decode (Num.fmtOf st) x
  let e := Num.scaleExp sb
  let (y, fl) :=
    if dt = .q4 then Num.encode4 (Num.scaleType sb) e m u v
    else if dt = .i8 then Num.cvtToInt true 8 m u (unscale v e)
    else Num.cvtFloat (Num.fmtOf dt) m u (unscale v e)
  let past := if dt = .i8 then fl &&& Num.nv != 0 else fl &&& (Num.ovf ||| Num.sat) != 0
  if v.isNan || v.isInf || past then (0, 0, true) else (y, fl, false)

/-- The selected elements of VCVTO, ascending: destination element, source element, code, flags and outlier mark. -/
def outLanes (conv : Nat → Nat → Nat × Num.Flags × Bool) (m : RMode) :
    List (Nat × Nat) → BitVec 32 → List (Nat × Nat × Nat × Num.Flags × Bool) × BitVec 32
  | [], g => ([], g)
  | (d, i) :: r, g =>
    let (g, u) := Num.draw m g
    let (y, fl, o) := conv u i
    let (rs, g) := outLanes conv m r g
    ((d, i, y, fl, o) :: rs, g)

def runVcvto (x : VCvtoA) (s : State) : Res :=
  notRecordable s fun s => memOp s fun s =>
    let gb := s.rg x.b
    let sb := gb.extractLsb' 0 8
    let n1 : GReg := x.n + 1
    let base := s.rg x.n
    let ring := s.rg n1
    let cap := (ring.extractLsb' 48 16).toNat
    let head := (ring.extractLsb' 32 16).toNat
    let cnt := (ring.extractLsb' 16 16).toNat
    if gb.extractLsb' 8 24 ≠ 0 ∨ (x.dt ≠ .q4 ∧ sb.extractLsb' 6 2 ≠ 0) ∨ ring.extractLsb' 0 16 ≠ 0 then illegalHere s
    else
      let src := s.rv x.a
      let old := s.rv x.d
      let (lo, len, _) := cvtRange x.dt x.st x.part.val
      let m := modeOf s x.rnd
      let w := x.dt.width
      let sel (i : Nat) : Bool := s.vsel x.dt x.sel i
      let todo := (List.range len).filterMap fun j => if sel (lo + j) then some (lo + j, j) else none
      let (rs, g) := outLanes (fun u i => convertOut x.dt x.st sb m u (elem src i x.st.width)) m todo s.srg
      let outs := rs.filter fun r => r.2.2.2.2
      let k := outs.length
      if cap ≤ head ∧ cap ≠ 0 then .trap s { cause := 0x01, pc := some s.iss.own }
      else if cap < cnt + k then trapOf s 0x50 7 (BitVec.ofNat 64 k)
      else
        let at' (j : Nat) : Word := base + BitVec.ofNat 64 (8 * ((head + cnt + j) % cap))
        let es := (List.range k).map fun j => (j, at' j)
        s.walked 8 (es.map (·.2)) fun s =>
          match checkElems (fun a => (s.check s.ctx .store false 8 a a 8).bind fun y => noFormat a y 1) none es with
          | .error t => .trap s t
          | .ok ys =>
            let fl := rs.foldl (fun f r => f ||| r.2.2.2.1) (0 : Num.Flags)
            match enabledException s fl with
            | some sub => .trap (s.addFlags fl) ⟨0x50, sub, 0, none, 0⟩
            | none =>
              let puts := (outs.zip ys).map fun (r, _, y) =>
                let i := r.2.1
                (⟨y, layBytes y.keys (widenF32 x.st (elem src i x.st.width) * 2 ^ 32
                  + ((gb.extractLsb' 32 32).toNat + i) % 2 ^ 32), 0⟩ : Put)
              s.store {} false puts fun s =>
                let inside (i : Nat) : Bool := decide (lo ≤ i) && decide (i < lo + len)
                let ys := (List.range x.dt.count).map fun i =>
                  match rs.find? fun r => r.1 = i with
                  | some r => r.2.2.1
                  | none => if inside i then keepOr (zeroing x.sel) old w i else elem old i w
                let s := ((s.addFlags (fl ||| Num.flagIf (0 < k) Num.ola)).setSrg g).wv x.d (ofElems w ys)
                .ok (s.wg n1 (BitVec.ofNat 64 (cap * 2 ^ 48 + head * 2 ^ 32 + (cnt + k) * 2 ^ 16)))
def execVcvto (x : VCvtoA) (s : State) : Out := (runVcvto x s).finish s

/-! ## VDOT4 (R131) -/

def runVdot4 (x : VDotA) (s : State) : Res :=
  recordable (.vdot4 x) [] s fun s =>
    let a := s.rv x.a
    let b := s.rv x.b
    let c := s.rv x.c
    let four (j : Nat) : List Nat := (List.range 4).map (4 * j + ·)
    if x.ty.isInt then
      let dt : Ty := if x.ty.isI then .i32 else .z32
      lanewise s dt x.d x.sel fun j =>
        Num.wrap x.ty.isI 32 ((four j).foldl (fun t i => t + ival x.ty a i * ival x.ty b i) (ival dt c j))
    else
      roundLanes s .f32 x.d x.sel x.rnd fun m u j =>
        let ps := (four j).map fun i => Num.mulVal (fval x.ty a i) (fval x.ty b i)
        Num.sumVals .f32 m u (ps.any (·.2)) (ps.map (·.1) ++ [fval .f32 c j])
def execVdot4 (x : VDotA) (s : State) : Out := (runVdot4 x s).finish s

/-! ## Reductions (R96, R132) -/

/-- The elements that take part, lane by lane. -/
def activeLanes (s : State) (t : Ty) (a : VReg) (mkr : MReg) (lane : Option LanePfx) : List (Option Nat) :=
  (List.range t.count).map fun i => if s.sel t mkr lane i then some (elem (s.rv a) i t.width) else none

/-- How many times the lanes of a type halve. -/
def levels (t : Ty) : Nat := Nat.log2 t.count

def runVredsum (x : VRedSA) (s : State) : Res :=
  notRecordable s fun s =>
    let xs := activeLanes s x.ty x.a x.mkr x.lane
    if x.ty.isFloat then
      let f := Num.fmtOf x.ty
      let m := modeOf s x.rnd
      let ((g, fl), r) := Num.treeReduce (fun ((g, fl) : BitVec 32 × Num.Flags) a b =>
        let (g, u) := Num.draw m g
        let (y, fl') := Num.fadd f m u (Num.decode f a) (Num.decode f b)
        ((g, fl ||| fl'), y)) (levels x.ty) (s.srg, 0) xs
      orException s fl fun s => .ok ((s.setSrg g).wg x.d (BitVec.ofNat 64 (r.getD 0)))
    else
      intResult s x.ty false x.d (xs.foldl (fun t e => t + ((e.map (Num.readInt x.ty.isI x.ty.width)).getD 0)) 0)
def execVredsum (x : VRedSA) (s : State) : Out := (runVredsum x s).finish s

/-- What VREDMIN and VREDMAX give with nothing selected (R132). -/
def redEmpty (t : Ty) (mx : Bool) : Nat :=
  if t.isFloat then Num.infOf (Num.fmtOf t) mx
  else Num.lowBits t.width (if mx then Num.intMin t.isI t.width else Num.intMax t.isI t.width)

def vecRedMinMax (x : VRedMA) (s : State) (mx : Bool) : Res :=
  let xs := activeLanes s x.ty x.a x.mkr x.lane
  let (fl, r) := Num.treeReduce (fun (fl : Num.Flags) a b =>
    if x.ty.isFloat then
      let (y, fl') := Num.fminmax mx (Num.fmtOf x.ty) a b
      (fl ||| fl', y)
    else
      (fl, if decide (Num.readInt x.ty.isI x.ty.width a ≤ Num.readInt x.ty.isI x.ty.width b) != mx then a else b))
    (levels x.ty) 0 xs
  let y := r.getD (redEmpty x.ty mx)
  let fl := fl ||| Num.flagIf (x.ty.isFloat && (xs.filterMap id).any fun e => (Num.decode (Num.fmtOf x.ty) e).isSig) Num.nv
  orException s fl fun s => .ok (s.wg x.d (if x.ty.isFloat then BitVec.ofNat 64 y else extTy x.ty y))

def runVredmin (x : VRedMA) (s : State) : Res := notRecordable s fun s => vecRedMinMax x s false
def execVredmin (x : VRedMA) (s : State) : Out := (runVredmin x s).finish s

def runVredmax (x : VRedMA) (s : State) : Res := notRecordable s fun s => vecRedMinMax x s true
def execVredmax (x : VRedMA) (s : State) : Out := (runVredmax x s).finish s

/-! ## Ranking (R133) -/

/-- Inserts a lane after every lane that ranks at or above it. -/
def insertRank {α : Type} (above : α → α → Bool) (x : α) : List α → List α
  | [] => [x]
  | y :: r => if above x y then x :: y :: r else y :: insertRank above x r

/-- Lanes ranked first to last; lanes that rank equal keep their order. -/
def rankLanes {α : Type} (above : α → α → Bool) (l : List α) : List α := l.foldl (fun r x => insertRank above x r) []

/-- Whether one element's bits rank strictly above another's; every NaN ranks below −∞ (R133). -/
def ranksAbove (t : Ty) (a b : Nat) : Bool :=
  if t.isFloat then
    let x := Num.decode (Num.fmtOf t) a
    let y := Num.decode (Num.fmtOf t) b
    if x.isNan then false else if y.isNan then true else decide (0 < Num.cmpFin x y)
  else decide (Num.readInt t.isI t.width b < Num.readInt t.isI t.width a)

def runVtopk (x : VTopA) (s : State) : Res :=
  recordable (.vtopk x) [] s fun s =>
    let w := x.ty.width
    let a := s.rv x.a
    let lanes := (List.range x.ty.count).filter fun i => s.sel x.ty x.mkr x.lane i
    let ranked := (rankLanes (fun p q : Nat × Nat => ranksAbove x.ty p.2 q.2)
      (lanes.map fun i => (i, elem a i w))).take (x.k1.val + 1)
    let sig := x.ty.isFloat && lanes.any fun i => (fval x.ty a i).isSig
    let pad := List.replicate (x.ty.count - ranked.length) (2 ^ w - 1)
    orException s (Num.flagIf sig Num.nv) fun s =>
      .ok ((s.wv x.d (ofElems w (ranked.map (·.2)))).wv x.x (ofElems w (ranked.map (·.1) ++ pad)))
def execVtopk (x : VTopA) (s : State) : Out := (runVtopk x s).finish s

/-! ## Skipping (R134) -/

/-- ub < max − margin over the extended reals, exact, and whether max − margin is ∞ − ∞, which is so whatever ub is. -/
def skipBit (ub mx mg : Num.Val) : Bool × Bool :=
  if ub.isNan then (false, match mx, mg with | .inf a, .inf b => a == b | _, _ => false)
  else if mx.isNan || mg.isNan then (false, false)
  else
    match mx, mg with
    | .inf a, .inf b => if a = b then (false, true) else (decide (Num.cmpFin ub (.inf a) < 0), false)
    | .inf a, _ => (decide (Num.cmpFin ub (.inf a) < 0), false)
    | _, .inf b => (decide (Num.cmpFin ub (.inf (!b)) < 0), false)
    | .fin a m e, .fin b m' e' =>
      let q := min e e'
      let d := Num.atExp q a m e - Num.atExp q b m' e'
      (decide (Num.cmpFin ub (.fin (decide (d < 0)) d.natAbs q) < 0), false)
    | _, _ => (false, false)

def runVbskip (x : VBskA) (s : State) : Res :=
  notRecordable s fun s =>
    let a := s.rv x.a
    let b := s.rv x.b
    let mg := f32Of (s.rg x.c)
    let sel := s.vsel x.ty x.sel
    let lanes := (List.range x.ty.count).filter sel
    let bit (i : Nat) : Bool := (skipBit (fval x.ty a i) (fval x.ty b i) mg).1
    let bad := lanes.any fun i =>
      (skipBit (fval x.ty a i) (fval x.ty b i) mg).2 || (fval x.ty a i).isSig || (fval x.ty b i).isSig || mg.isSig
    orException s (Num.flagIf bad Num.nv) fun s =>
      .ok ((s.wm x.d (maskResult x.ty.count sel (zeroing x.sel) (s.me.m[x.d]) bit)).wp x.p
        (!lanes.isEmpty && lanes.all bit))
def execVbskip (x : VBskA) (s : State) : Out := (runVbskip x s).finish s

/-! ## Pruning (R135) -/

/-- Whether one element of a group ranks strictly above another: selected ones first, then magnitude, a NaN above all. -/
def pruneAbove (t : Ty) (p q : Bool × Nat) : Bool :=
  if p.1 != q.1 then p.1
  else if t.isInt then
    decide ((Num.readInt t.isI t.width q.2).natAbs < (Num.readInt t.isI t.width p.2).natAbs)
  else
    let mag (v : Num.Val) : Num.Val := if v.neg? then v.negate else v
    let x := Num.decode (Num.fmtOf t) p.2
    let y := Num.decode (Num.fmtOf t) q.2
    if y.isNan then false else if x.isNan then true else decide (0 < Num.cmpFin (mag x) (mag y))

/-- The four indices of a group that rank first, ascending. -/
def pruneGroup (t : Ty) (els : List (Nat × Bool × Nat)) : List Nat :=
  sortBy id (((rankLanes (fun p q => pruneAbove t p.2 q.2) els).take 4).map (·.1))

def runVprune48 (x : VPruneA) (s : State) : Res :=
  recordable (.vprune48 x) [] s fun s =>
    let w := x.ty.width
    let a := s.rv x.a
    let sel (i : Nat) : Bool := s.sel x.ty x.mkr x.lane i
    let groups := (List.range (x.ty.count / 8)).map fun g =>
      pruneGroup x.ty ((List.range 8).map fun k => (k, sel (8 * g + k), elem a (8 * g + k) w))
    let kept := (groups.zip (List.range groups.length)).flatMap fun (ks, g) =>
      ks.map fun k => if sel (8 * g + k) then elem a (8 * g + k) w else 0
    let meta' := groups.map fun ks =>
      ks.getD 0 0 + 8 * ks.getD 1 0 + 64 * ks.getD 2 0 + 512 * ks.getD 3 0
    .ok ((s.wv x.d (ofElems w kept)).wv x.m (ofElems 16 meta'))
def execVprune48 (x : VPruneA) (s : State) : Out := (runVprune48 x s).finish s

end Sys2Proof.Machine
end

