-- ==== Sys2Proof/Machine/Loom.lean ====
section
/-! DEFINITION. The loom: operands and their checks, gangs, claims, the update of an accumulator tile, and the accumulator
moves, waits and status (R28, R97, R145 to R166). -/

namespace Sys2Proof.Machine

/-! ## Accumulator tiles (R27, R28) -/

def tileElem (t : Tile) (i j : Nat) : Nat := (t.extractLsb' (32 * (16 * i + j)) 32).toNat

/-- A tile from its 256 words in order. -/
def tileOfWords (ws : List Nat) : Tile := BitVec.ofNat 8192 (packElems 32 ws)

def tileWords (t : Tile) : List Nat := (List.range 256).map fun k => (t.extractLsb' (32 * k) 32).toNat

/-- Whether the strand owns an accumulator name, and the physical tile it names. -/
def State.ownsTile (s : State) (a : AReg) : Bool := decide (a.val < ownedTiles s.me s.slot)
def State.physTile (s : State) (a : AReg) : Nat := s.slot * s.me.accDecl + a.val

def State.readTile (s : State) (a : AReg) : Tile := Tab.get 0 (s.coreRec s.core).acc (s.physTile a)
def State.writeTile (s : State) (a : AReg) (t : Tile) : State :=
  s.modCore s.core fun x => { x with acc := Tab.set x.acc (s.physTile a) t }

/-! ## Operands (R148 to R152, R158, R159) -/

/-- Element idx of a register block of width w. -/
def blockElem (v : Vector VecReg 32) (first w idx : Nat) : Nat :=
  elem (v.toList.getD ((first + idx * w / 512) % 32) 0) (idx % (512 / w)) w

/-- How many registers a block of n elements takes. -/
def blockRegs (n w : Nat) : Nat := (n * w + 511) / 512

/-- A scratchpad operand's descriptor. -/
structure ScrDesc where
  rc : Nat
  rot : Nat
  tp : Nat
  rp : Nat
  res : Bool
  deriving DecidableEq, Repr

def scrDesc (d : Word) : ScrDesc where
  rc := (d.extractLsb' 35 5).toNat
  rot := (d.extractLsb' 32 3).toNat
  tp := (d.extractLsb' 16 16).toNat
  rp := (d.extractLsb' 0 16).toNat
  res := d.extractLsb' 40 24 != 0

/-- The rotation unit U. -/
def ScrDesc.unit (d : ScrDesc) : Nat := if d.rot = 0 then 0 else 2 ^ (d.rot + 1)

/-- Subcode 3 of R150: a malformed descriptor for vectors of vb bytes. -/
def ScrDesc.bad (d : ScrDesc) (gb : Word) (vb : Nat) : Bool :=
  d.res || d.rc == 0 || decide (16 < d.rc) || decide (5 < d.rot) || gb.toNat % 4 != 0 || d.tp % 4 != 0 || d.rp % 4 != 0
    || (d.rot != 0 && vb % d.unit != 0)

/-- The address of byte e of vector j (R149). -/
def ScrDesc.addr (d : ScrDesc) (gb : Word) (vb j e : Nat) : Word :=
  gb + BitVec.ofNat 64 (j / d.rc * d.tp + j % d.rc * d.rp + (e + d.unit * j) % vb)

/-- Whether an address lies in the tile window of a core's own tile, within the scratchpad and in no allocation of swizzle 7
(R150). -/
def State.scrInside (s : State) (c : CoreIx) (S : Nat) (a : Word) : Bool :=
  classAddr a == .tile && winZero .tile a && winPkg a == ownPkg s && winDie a * 640 + winTile a == tileOf c
    && decide (winOff a < 16 * S) && !((allocAt (s.tileRec (tileOf c)).desc (winOff a)).any fun al => al.swz == 7)

/-- The operand's byte addresses, vector by vector. -/
def scrBytes (d : ScrDesc) (gb : Word) (vb : Nat) : List (List Word) :=
  (List.range 16).map fun j => (List.range vb).map fun e => d.addr gb vb j e

/-- A scratchpad operand's cause, if it has one: subcode 3, then subcode 2. -/
def State.scrFault (s : State) (k : StrandIx) (gb dw : Word) (vb : Nat) : Option (BitVec 8) :=
  let c := coreOf k
  let S := recS (s.weaveWords (s.strand k).wid)
  let d := scrDesc dw
  if d.bad gb vb then some 3
  else if (scrBytes d gb vb).any fun r => r.any fun a => !s.scrInside c S a then some 2
  else none

/-- The storage keys of an operand's bytes. -/
def State.scrKeys (s : State) (k : StrandIx) (gb dw : Word) (vb : Nat) : List (List Nat) :=
  let c := coreOf k
  let S := recS (s.weaveWords (s.strand k).wid)
  (scrBytes (scrDesc dw) gb vb).map fun r =>
    r.map fun a => scratchKey (s.tileRec (tileOf c)).desc S (tileOf c) (winOff a)

/-- The address of the first byte of an operand whose storage meets a condition. -/
def State.scrFirst (s : State) (k : StrandIx) (gb dw : Word) (vb : Nat) (p : Nat → Bool) : Option Word :=
  (((scrBytes (scrDesc dw) gb vb).flatten.zip (s.scrKeys k gb dw vb).flatten).find? fun z => p z.2).map (·.1)

/-- An operand whose read meets an uncorrectable error: an unusable word, or an error of a local memory that is past correction (R162,
R397). -/
def State.scrPoison (s : State) (k : StrandIx) (gb dw : Word) (vb : Nat) : Option Word := s.scrFirst k gb dw vb s.wordGone

/-- What a member takes for an operand it supplies: the cause of R150, or else, for a byte in a quarantined core, that of a plain load
there (R155, R399; log entry 135). -/
def State.operandFault (s : State) (k : StrandIx) (gb dw : Word) (vb : Nat) : Option Trap :=
  match s.scrFault k gb dw vb with
  | some sub => some ⟨0x40, sub, 0, none, 0⟩
  | none => (s.scrFirst k gb dw vb s.deadKey).map fun a => ⟨0x12, 16, a, none, 0⟩

/-- The vectors of an operand of L elements each, from registers or from the scratchpad. -/
def State.operand (s : State) (k : StrandIx) (scr : Bool) (first : Nat) (gb dw : Word) (w L : Nat) : List (List Nat) :=
  if scr then
    (s.scrKeys k gb dw (L * w / 8)).map fun ks =>
      let bs := ofBytes (ks.map s.mem.read)
      (List.range L).map fun e => bs / 2 ^ (e * w) % 2 ^ w
  else
    let v := (s.strand k).v
    (List.range 16).map fun j => (List.range L).map fun e => blockElem v first w (j * L + e)

/-- The metadata halfword of column j, group g. -/
def metaWord (v : Vector VecReg 32) (first k j g : Nat) : Nat := blockElem v first 16 (j * (k / 8) + g)

def metaIx (h : Nat) : List Nat := [h % 8, h / 8 % 8, h / 64 % 8, h / 512 % 8]

def metaBad (h : Nat) : Bool :=
  h / 4096 != 0 || !(decide (h % 8 < h / 8 % 8) && decide (h / 8 % 8 < h / 64 % 8) && decide (h / 64 % 8 < h / 512 % 8))

/-- The column of the lowest-numbered malformed halfword (R159). -/
def metaFault (v : Vector VecReg 32) (first k : Nat) : Option Nat :=
  ((List.range (16 * (k / 8))).find? fun n => metaBad (blockElem v first 16 n)).map fun n => n / (k / 8)

def GangReq.k (r : GangReq) : Nat := 8 * (r.kq + 1)
/-- Stored elements of a B column. -/
def GangReq.lb (r : GangReq) : Nat := if r.sparse then r.k / 2 else r.k

/-- The first cause a member meets among the operands it supplies, in the order of R150. -/
def State.memberFault (s : State) (r : GangReq) (lowest : Bool) : Option Trap :=
  let x := s.strand r.strand
  let w := r.ty.width
  let trap (c sub : BitVec 8) : Option Trap := some ⟨c, sub, 0, none, 0⟩
  let aOk := !lowest || r.asp || decide (blockRegs (16 * r.k) w ≤ 16)
  let bOk := r.bsp || decide (blockRegs (16 * r.lb) w ≤ 16)
  let mOk := !r.sparse || decide (blockRegs (2 * r.k) 16 ≤ 16)
  if ownedTiles x (slotOf r.strand) ≤ r.acc then trap 0x40 1
  else if !(aOk && bOk && mOk) then trap 0x40 4
  else
    match (if lowest && r.asp then s.operandFault r.strand r.ga r.da (r.k * w / 8) else none) with
    | some t => some t
    | none =>
      match (if r.bsp then s.operandFault r.strand r.gb r.db (r.lb * w / 8) else none) with
      | some t => some t
      | none =>
        if r.sparse then
          match metaFault x.v r.m r.k with
          | some j => trap 0x41 (BitVec.ofNat 8 j)
          | none => none
        else none

/-! ## Gangs (R145, R146, R154) -/

/-- What every member's gang descriptor must share. -/
def GangReq.descr (r : GangReq) : Bool × Ty × Nat × Nat × Bool × Bool := (r.sparse, r.ty, r.gw, r.kq, r.asp, r.bsp)

/-- The window span of a scratchpad operand: from its lowest to its highest byte address (R160). -/
def State.scrClaim (s : State) (k : StrandIx) (gb dw : Word) (vb id : Nat) : Nat × Claim :=
  let os := (scrBytes (scrDesc dw) gb vb).flatMap fun r => r.map winOff
  (tileOf (coreOf k), ⟨os.foldl min (os.headD 0), os.foldl max 0, recS (s.weaveWords (s.strand k).wid), id⟩)

/-- The scale byte of an element: A's by row, B's by column, at stored element e (R151). -/
def scaleA (x : Strand) (i e : Nat) : Nat := (x.sclA.extractLsb' (8 * (8 * i + e / 32)) 8).toNat
def scaleB (x : Strand) (j e : Nat) : Nat := (x.sclB.extractLsb' (8 * (4 * j + e / 32)) 8).toNat

/-- A member's formed operation: its operands as they stand now (R155). -/
def State.formOp (s : State) (id : Nat) (low r : GangReq) : LoomOp :=
  let x := s.strand r.strand
  let xa := s.strand low.strand
  let w := r.ty.width
  let K := r.k
  let av := s.operand low.strand low.asp low.a low.ga low.da w K
  let bv := s.operand r.strand r.bsp r.b r.gb r.db w r.lb
  let badA := if low.asp then s.scrPoison low.strand low.ga low.da (K * w / 8) else none
  let badB := if r.bsp then s.scrPoison r.strand r.gb r.db (r.lb * w / 8) else none
  let kept (j k : Nat) : Option Nat :=
    let ix := metaIx (metaWord x.v r.m K j (k / 8))
    (ix.findIdx? (· == k % 8)).map fun t => 4 * (k / 8) + t
  { id := id, strand := r.strand, gen := x.gen, tile := slotOf r.strand * x.accDecl + r.acc, acc := r.acc, ty := r.ty, k := K,
    a := (av.zip (List.range 16)).map fun (row, i) => (row.zip (List.range K)).map fun (c, e) => (c, scaleA xa i e),
    b := (bv.zip (List.range 16)).map fun (col, j) =>
      (List.range K).map fun k =>
        if r.sparse then
          match kept j k with
          | some e => (col.getD e 0, scaleB x j e)
          | none => (0, 0)
        else (col.getD k 0, scaleB x j k),
    present := if r.sparse then (List.range 16).map fun j => (List.range K).map fun k => (kept j k).isSome else [],
    bad := badA.or badB }

/-- The claims a gang needs: A's in the tile of the lowest member, each B's in its own member's. -/
def State.gangClaims (s : State) (id : Nat) (low : GangReq) (rs : List GangReq) : List (Nat × Claim) :=
  let w := low.ty.width
  (if low.asp then [s.scrClaim low.strand low.ga low.da (low.k * w / 8) id] else [])
    ++ rs.filterMap fun r => if r.bsp then some (s.scrClaim r.strand r.gb r.db (r.lb * w / 8) id) else none

/-- The storage keys a gang reads in scratchpads. -/
def State.gangKeys (s : State) (low : GangReq) (rs : List GangReq) : List Nat :=
  let w := low.ty.width
  (if low.asp then (s.scrKeys low.strand low.ga low.da (low.k * w / 8)).flatten else [])
    ++ rs.flatMap fun r => if r.bsp then (s.scrKeys r.strand r.gb r.db (r.lb * w / 8)).flatten else []

/-- The release tags that the scratchpad reads of a forming gang meet, each noted by the member that supplies the operand, as a
plain load at core scope (R155, R228, R255). -/
def State.noteGang (s : State) (low : GangReq) (rs : List GangReq) : State :=
  if s.relTags.isEmpty then s
  else
    let w := low.ty.width
    let note (s : State) (k : StrandIx) (ks : List Nat) : State :=
      s.modStrand k fun x => { x with readTags := (x.readTags ++ s.tagsOf ks).eraseDups }
    let s := if low.asp then note s low.strand (s.scrKeys low.strand low.ga low.da (low.k * w / 8)).flatten else s
    rs.foldl (fun s r => if r.bsp then note s r.strand (s.scrKeys r.strand r.gb r.db (r.lb * w / 8)).flatten else s) s

/-- Whether every comparator and every queue place is free, and no member's unacknowledged write touches what it supplies
(R154 step 5, R155, R160, R161). -/
def State.gangReady (s : State) (claims : List (Nat × Claim)) (low : GangReq) (rs : List GangReq) : Bool :=
  let w := low.ty.width
  let own (k : StrandIx) (ks : List Nat) : Bool :=
    (s.coreRec (coreOf k)).posted.any fun p => p.strand == k && keysMeet ks p.keys
  claims.all (fun (t, _) =>
      decide ((s.tileRec t).claims.length + (claims.filter fun c => c.1 == t).length ≤ 4))
    && rs.all (fun r => decide ((s.coreRec (coreOf r.strand)).loomq.length < 3))
    && !(low.asp && own low.strand (s.scrKeys low.strand low.ga low.da (low.k * w / 8)).flatten)
    && rs.all fun r => !(r.bsp && own r.strand (s.scrKeys r.strand r.gb r.db (r.lb * w / 8)).flatten)

/-- Tries to form the gang of a strand's waiting operation; a wait that can no longer end is ended for every waiting member
(R154). A member that still waits at an operation of width 1 has not issued its gang operation (R145). -/
def State.tryFormGang (s : State) (k : StrandIx) : State :=
  match s.gangs.find? fun r => r.strand = k with
  | none => s
  | some r =>
    let cores := r.cores
    let ks := cores.map fun c => strandAt c (slotOf k)
    let rs := ks.filterMap fun m => s.gangs.find? fun x => x.strand == m && (m == k || decide (1 < x.cores.length))
    let wid := (s.strand k).wid
    let broken := (cores.zip ks).any fun (c, m) =>
      !s.holds c wid || !(s.strand m).live || (s.strand m).wid != wid
    if broken then rs.foldl (fun s x => s.endGang x (gangTrap 2)) s
    else if rs.length < ks.length then s
    else if rs.any fun x => x.descr != r.descr then rs.foldl (fun s x => s.endGang x (gangTrap 1)) s
    else
      let low := rs.headD r
      let faults := rs.map fun x => (x, s.memberFault x (x.strand == low.strand))
      if faults.any fun f => f.2.isSome then
        faults.foldl (fun s (x, f) => s.endGang x (match f with | some t => .gangTrap t | none => gangTrap 3)) s
      else
        let (id, s1) := s.fresh
        let claims := s.gangClaims id low rs
        if !s.gangReady claims low rs then s
        else
          let s1 := (s1.meetUpsetsOf k (s.gangKeys low rs)).noteGang low rs
          let ops := rs.map fun x => (x, s1.formOp id low x)
          let s2 := claims.foldl (fun s (t, c) => s.modTile t fun u => { u with claims := u.claims ++ [c] }) s1
          ops.foldl (fun s (x, o) =>
            (s.modCore (coreOf x.strand) fun c => { c with loomq := c.loomq ++ [o] }).endGang x .gangFormed) s2

/-- An error held under R162 is taken at the next loom instruction. -/
def loomHeld (s : State) (k : Res) : Res :=
  match s.me.loomErr with
  | some a => .trap { s with me := { s.me with loomErr := none } } ⟨0x60, 0, a, none, 0⟩
  | none => k

/-- An MMA's turns: it joins the waiting operations, tries to form its gang, and goes on once that has formed (R154). -/
def mmaTurn (s : State) (r : GangReq) : Res :=
  match s.me.stage with
  | .gangFormed => .ok s
  | .gangTrap t => .trap s t
  | st =>
    let s' := if st = .gangOut then s
      else { s with gangs := s.gangs ++ [r], me := { s.me with stage := .gangOut } }
    let s' := s'.tryFormGang s.cur
    match s'.me.stage with
    | .gangFormed => .ok s'
    | .gangTrap t => .trap s' t
    | _ => .wait s' .gang

/-- Whether a member stands at the lowest position of its gang, and supplies A (R152). -/
def GangReq.lowest (r : GangReq) : Bool := loomPos (coreOf r.strand) % 2 ^ r.gw == 0

/-- MMA and MMA.S at an offset added to their scratchpad addresses (R140). An error held under R162 is taken as the operation
issues. Only a member that supplies a scratchpad operand makes a load (R155). -/
def mmaForm (s : State) (pass sparse : Bool) (x : MmaSA) (off : Word) : Res :=
  (if s.me.stage = .none then loomHeld s else fun k => k)
    (let r : GangReq :=
       { strand := s.cur, pass := pass, sparse := sparse, ty := x.ty, gw := x.gw.val, kq := x.kq.val, asp := x.asp,
         bsp := x.bsp, acc := x.acc.val, a := x.a.val, b := x.b.val, m := x.m.val,
         ga := if x.asp then s.rg x.a + off else 0, gb := if x.bsp then s.rg x.b + off else 0,
         da := s.rg x.adr, db := s.rg x.bdr }
     if (x.bsp || (x.asp && r.lowest)) && s.me.stage == .none then memOp s fun s => mmaTurn s r else mmaTurn s r)

def asSparse (x : MmaA) : MmaSA :=
  ⟨x.ty, x.acc, x.a, x.b, 0, x.gw, x.kq, x.asp, x.bsp, x.adr, x.bdr⟩

/-- The g registers an MMA reads. -/
def mmaReads (x : MmaSA) : List GReg :=
  (if x.asp then [x.a, x.adr] else []) ++ (if x.bsp then [x.b, x.bdr] else [])

def runMma (x : MmaA) (s : State) : Res :=
  recordable (.mma x) (mmaReads (asSparse x)) s fun s => mmaForm s false false (asSparse x) 0
def execMma (x : MmaA) (s : State) : Out := (runMma x s).finish s

def runMmaS (x : MmaSA) (s : State) : Res :=
  recordable (.mmaS x) (mmaReads x) s fun s => mmaForm s false true x 0
def execMmaS (x : MmaSA) (s : State) : Out := (runMmaS x s).finish s

/-! ## Completion (R97, R156 to R162) -/

def loomVal (t : Ty) (p : Nat × Nat) : Num.Val :=
  if t = .q4 then Num.decode4 (BitVec.ofNat 8 p.2) p.1 else Num.decode (Num.fmtOf t) p.1

/-- One group's products added to x with one rounding (R97, R157). -/
def loomGroup (ps : List (Num.Val × Bool)) (x : Nat) : Nat × Num.Flags :=
  let vs := ps.map (·.1)
  let bad := ps.any (·.2)
  let opp := (vs.any fun v => v == .inf false) && vs.any fun v => v == .inf true
  if vs.any Num.Val.isNan || opp then
    (Num.Fmt.nan .f32,
      Num.flagIf (bad || opp || vs.any Num.Val.isSig || (Num.decode .f32 x).isSig) Num.nv)
  else Num.sumVals .f32 .nearestEven 0 false (vs ++ [Num.decode .f32 x])

/-- The groups of four of one element's products, in ascending k. -/
def loomSum (t : Ty) : Nat → List ((Nat × Nat) × (Nat × Nat) × Bool) → Nat × Num.Flags → Nat × Num.Flags
  | 0, _, acc => acc
  | n + 1, ps, (x, fl) =>
    let g := (ps.take 4).filter fun p => p.2.2
    let (x, fl') := if g.isEmpty then (x, 0) else loomGroup (g.map fun p => Num.mulVal (loomVal t p.1) (loomVal t p.2.1)) x
    loomSum t n (ps.drop 4) (x, fl ||| fl')

/-- The new word of element (i, j) and its flags. -/
def LoomOp.elem (o : LoomOp) (x i j : Nat) : Nat × Num.Flags :=
  let row := o.a.getD i []
  let col := o.b.getD j []
  let pr := if o.present.isEmpty then List.replicate o.k true else o.present.getD j []
  let ps := row.zip (col.zip pr)
  if o.ty = .i8 then
    Num.wrap true 32 (ps.foldl (fun t (a, b, p) =>
      if p then t + Num.readInt true 8 a.1 * Num.readInt true 8 b.1 else t) (Num.readInt true 32 x))
  else loomSum o.ty (o.k / 4) ps (x, 0)

/-- A tile after the operation, with the flags of the update. -/
def LoomOp.update (o : LoomOp) (t : Tile) : Tile × Num.Flags :=
  let rs := (List.range 256).map fun n => o.elem (tileElem t (n / 16) (n % 16)) (n / 16) (n % 16)
  (tileOfWords (rs.map (·.1)), rs.foldl (fun f r => f ||| r.2) 0)

/-- The record of the strand of slot k and a generation: the slot's own, or one that a double fault has saved (R32, R114). -/
def State.modOwner (s : State) (k : StrandIx) (gen : BitVec 8) (f : Strand → Strand) : State :=
  let x := s.strand k
  if x.live && x.gen == gen then s.modStrand k f
  else
    { s with saves := s.saves.map fun (v : Save) =>
        if v.whole then v
        else { v with strands := v.strands.map fun y => if y.1 == k && y.2.gen == gen then (y.1, f y.2) else y } }

/-- The core's oldest loom operation completes: its tile, its strand's flags, and, with the gang's last update, its claims. Where
several operations of the strand have failed, the first one's address is reported, and A's before B's within one, which is the model's
choice (R162; log entry 123). -/
def State.completeLoom (s : State) (c : CoreIx) : State :=
  match (s.coreRec c).loomq with
  | [] => s
  | o :: rest =>
    let old := Tab.get 0 (s.coreRec c).acc o.tile
    let (t, fl) := if o.bad.isSome then (old, 0) else o.update old
    let s := s.modCore c fun x => { x with loomq := rest, acc := Tab.set x.acc o.tile t }
    let s := s.modOwner o.strand o.gen fun x => { mergeFlags x fl with loomErr := x.loomErr.or o.bad }
    let busy := (List.range 8).any fun p => (s.coreRec (loomCore c p)).loomq.any fun q => q.id == o.id
    if busy then s
    else [tileOf (loomCore c 0), tileOf (loomCore c 4)].foldl (fun s t =>
      s.modTile t fun u => { u with claims := u.claims.filter fun cl => cl.op != o.id }) s

/-! ## Moves, waits and status (R151, R164 to R166) -/

/-- An accumulator form: subcode 1 for a tile the strand does not own, then the wait for the strand's earlier operations that
name it. -/
def tileForm (s : State) (a : AReg) (k : State → Res) : Res :=
  loomHeld s
    (if !s.ownsTile a then trapOf s 0x40 1 0
     else if (s.coreRec s.core).loomq.any fun o => o.strand == s.cur && o.gen == s.me.gen && o.acc == a.val then
       .wait s .loom
     else k s)

def runMzero (a : AReg) (s : State) : Res :=
  recordable (.mzero a) [] s fun s => tileForm s a fun s => .ok (s.writeTile a 0)
def execMzero (a : AReg) (s : State) : Out := (runMzero a s).finish s

/-- The sixteen 64-byte accesses of MLD and MST (R164), after the alignment of the whole. -/
def tilePieces (s : State) (k : AccKind) (a : Word) (post : Word → Site → Except Trap Site) :
    Except Trap (List (Nat × Site)) :=
  if a.toNat % 1024 ≠ 0 then .error ⟨0x13, 0, a, none, 0⟩
  else
    checkElems (fun b => (s.check s.ctx k false 64 a b 64).bind (post b)) (some a)
      ((List.range 16).map fun i => (i, a + BitVec.ofNat 64 (64 * i)))

def mldForm (s : State) (x : MldA) (off : Word) : Res :=
  tileForm s x.acc fun s => memOp s fun s =>
    let a := s.rg x.a + sx x.imm + off
    s.walked 1024 [a] fun s =>
      s.load {} (tilePieces s .load a fun _ y => .ok y) fun s got =>
        .ok (s.writeTile x.acc (BitVec.ofNat 8192 (packElems 512 ((List.range 16).map fun i =>
          ((got.find? fun g => g.1 = i).map (·.2)).getD 0))))

def runMld (x : MldA) (s : State) : Res := recordable (.mld x) [x.a] s fun s => mldForm s x 0
def execMld (x : MldA) (s : State) : Out := (runMld x s).finish s

/-- MST's sixteen accesses are posted and counted each for itself (R164, R183). -/
def mstForm (s : State) (x : MldA) (off : Word) : Res :=
  tileForm s x.acc fun s => memOp s fun s =>
    let a := s.rg x.a + sx x.imm + off
    let t := s.readTile x.acc
    s.walked 1024 [a] fun s =>
      match tilePieces s .store a (fun b y => vstShape s a true a b y) with
      | .error e => .trap s e
      | .ok ys =>
        match ys with
        | (_, y) :: _ =>
          match y.fmt with
          | some _ =>
            storeEncoded s {} [] (ys.map fun (i, y) =>
              (i, y, (List.range 32).map fun j => (t.extractLsb' (512 * i + 16 * j) 16).toNat))
          | none =>
            s.store {} false (ys.map fun (i, y) => ⟨y, layBytes y.keys (t.extractLsb' (512 * i) 512).toNat, i⟩) .ok
        | [] => .ok s

def runMst (x : MldA) (s : State) : Res := recordable (.mst x) [x.a] s fun s => mstForm s x 0
def execMst (x : MldA) (s : State) : Out := (runMst x s).finish s

/-- MSCALE copies 64 bytes into part of the scale state. -/
def scaleForm (s : State) (f : Strand → Strand) : Res := loomHeld s (.ok { s with me := f s.me })

def runMscaleA0 (v : VReg) (s : State) : Res :=
  recordable (.mscaleA0 v) [] s fun s =>
    let y := s.rv v
    scaleForm s fun x => { x with sclA := x.sclA.extractLsb' 512 512 ++ y }
def execMscaleA0 (v : VReg) (s : State) : Out := (runMscaleA0 v s).finish s

def runMscaleA1 (v : VReg) (s : State) : Res :=
  recordable (.mscaleA1 v) [] s fun s =>
    let y := s.rv v
    scaleForm s fun x => { x with sclA := y ++ x.sclA.extractLsb' 0 512 }
def execMscaleA1 (v : VReg) (s : State) : Out := (runMscaleA1 v s).finish s

def runMscaleB (v : VReg) (s : State) : Res :=
  recordable (.mscaleB v) [] s fun s =>
    let y := s.rv v
    scaleForm s fun x => { x with sclB := y }
def execMscaleB (v : VReg) (s : State) : Out := (runMscaleB v s).finish s

def runMwait (s : State) : Res :=
  notRecordable s fun s => if s.loomBusy then .wait s .loom else loomHeld s (.ok s)
def execMwait (s : State) : Out := (runMwait s).finish s

def runMwaitTile (a : AReg) (s : State) : Res := notRecordable s fun s => tileForm s a .ok
def execMwaitTile (a : AReg) (s : State) : Out := (runMwaitTile a s).finish s

def runMmovv (x : MmvV) (s : State) : Res :=
  notRecordable s fun s => tileForm s x.acc fun s =>
    .ok (s.wv x.d ((s.readTile x.acc).extractLsb' (512 * x.i.val) 512))
def execMmovv (x : MmvV) (s : State) : Out := (runMmovv x s).finish s

def runMmova (x : MmvA) (s : State) : Res :=
  notRecordable s fun s => tileForm s x.acc fun s =>
    let ws := tileWords (s.readTile x.acc)
    let row := elems 32 (s.rv x.a)
    .ok (s.writeTile x.acc (tileOfWords (ws.take (16 * x.i.val) ++ row ++ ws.drop (16 * x.i.val + 16))))
def execMmova (x : MmvA) (s : State) : Out := (runMmova x s).finish s

def runMstat (d : GReg) (s : State) : Res :=
  notRecordable s fun s => loomHeld s
    (let q := (s.coreRec s.core).loomq
     let own := q.filter fun o => o.strand == s.cur && o.gen == s.me.gen
     .ok (s.wg d (BitVec.ofNat 64 (own.length + q.length * 2 ^ 4 + (s.tileRec (tileOf s.core)).claims.length * 2 ^ 8))))
def execMstat (d : GReg) (s : State) : Out := (runMstat d s).finish s

end Sys2Proof.Machine
end

