-- ==== Sys2Proof/Machine/Pair.lean ====
section
/-! DEFINITION. Pair words: two halves, each with the meaning of the single-word form it stands for (R57 to R59). -/

namespace Sys2Proof.Machine

def runScalarHalf (h : ScalarHalf) (s : State) : Res :=
  match h with
  | .none => .ok s
  | .add x => runAdd x s | .sub x => runSub x s | .and x => runAnd x s | .or x => runOr x s | .xor x => runXor x s
  | .shl x => runShl x s | .shr x => runShr x s | .sra x => runSra x s | .min x => runMin x s | .max x => runMax x s
  | .mul x => runMul x s | .cmp x => runCmp x s | .addi x => runAddi x s | .andi x => runAndi x s
  | .shli x => runShli x s | .shri x => runShri x s | .srai x => runSrai x s | .movi x => runMovi x s
  | .lea x => runLea x s | .ld x => runLd x s | .st x => runSt x s

def runVectorHalf (h : VectorHalf) (s : State) : Res :=
  match h with
  | .none => .ok s
  | .vadd x => runVadd x s | .vsub x => runVsub x s | .vmul x => runVmul x s | .vmin x => runVmin x s
  | .vmax x => runVmax x s | .vand x => runVand x s | .vor x => runVor x s | .vxor x => runVxor x s
  | .vshl x => runVshl x s | .vshlImm x => runVshlImm x s | .vshr x => runVshr x s | .vshrImm x => runVshrImm x s
  | .vsra x => runVsra x s | .vsraImm x => runVsraImm x s | .vcmp x => runVcmp x s | .vsel x => runVsel x s
  | .vmov x => runVmov x s | .vbcast x => runVbcast x s | .vbcastImm x => runVbcastImm x s | .vcvt x => runVcvt x s
  | .vld x => runVld x s | .vst x => runVst x s

/-- What the scalar half leaves beside memory. -/
def Strand.halfDone (x : Strand) : HalfDone := ⟨x.g, x.sysg, x.p, x.flags, x.rmode, x.side⟩

/-- The state the vector half runs in: the scalar half's memory access made and its rounding steps taken, its registers not
yet written (R59). -/
def beforeVector (s s1 : State) (h : HalfDone) : State :=
  { s1 with me := { s.me with rmode := h.rmode, readTags := s1.me.readTags } }

/-- Both halves done: the scalar half's g and p registers, and the sticky bits and side effects of both (R307). -/
def afterBoth (h : HalfDone) (s : State) : State :=
  { s with me := { s.me with g := h.g, sysg := h.sysg, p := h.p, flags := s.me.flags ||| (h.flags &&& 0x1FF),
                             side := s.me.side || h.side } }

/-- The vector half once the scalar half is done, s1 being the state with that half's access made. A trap leaves the state as
it was before the pair word, but for the sticky bits the vector half raised (R35). -/
def vectorHalf (vh : VectorHalf) (s s1 : State) (h : HalfDone) : Res :=
  match runVectorHalf vh (beforeVector s s1 h) with
  | .ok s2 => .ok (afterBoth h s2)
  | .trap s2 t => .trap { s2 with me := { s.me with flags := s2.me.flags } } t
  | .wait s2 w => .wait { s2 with me := { s2.me with rmode := s.me.rmode, half := some h } } w
  | .gone s2 => .gone s2

/-- The elements a vector half accesses, with their sites. -/
def halfSites (k : AccKind) (t : Ty) (sel : VSel) (a : GReg) (ofs : BitVec 40) (s : State) : List (Nat × Site) :=
  let es := vecAddrs s t sel (seqAddr s a ofs t)
  let first := (es.map (·.2)).headD 0
  match checkElems (fun a => s.check s.ctx k false (t.width / 8) first a (t.width / 8)) (some first) es with
  | .ok ys => ys
  | .error _ => []

/-- Whether the vector half, about to issue, loads a byte that the scalar half stores: itself, of a format page also one that it
decodes, or in a walk (R383). -/
def halfReads (vh : VectorHalf) (bs : List (Nat × Byte)) (s : State) : Bool :=
  match vh with
  | .vld x =>
    let own := (halfSites .load x.ty x.sel x.a x.ofs s).flatMap fun y => y.2.readKeys
    let walks := (s.past bs).pathKeys s.ctx ((vecAddrs s x.ty x.sel (seqAddr s x.a x.ofs x.ty)).map (·.2))
    s.me.stage == .none && (own ++ walks).any fun k => bs.any fun b => b.1 == k
  | _ => false

/-- Storage as a load made at once sees it that stands after a store in program order, the store not yet made (R59, R397). -/
def State.seeing (s : State) (bs : List (Nat × Byte)) : State := { s.past bs with prompt := true }

/-- Storage again as it was before such a load, s, but for what the load's own reads did to it. -/
def State.unseeing (s2 s : State) (bs : List (Nat × Byte)) : State :=
  let was := (s.meetUpsets (bs.map (·.1))).poison
  { s2 with mem := s.mem, poison := s2.poison ++ was.filter fun w => !s2.poison.contains w, prompt := s.prompt }

/-- The vector half of a pair whose scalar half stores bs, where it is no store: it sees them if it loads any of them. -/
def afterStore (vh : VectorHalf) (bs : List (Nat × Byte)) (s : State) : Res :=
  if halfReads vh bs s then
    match runVectorHalf vh (s.seeing bs) with
    | .ok s2 => .ok (s2.unseeing s bs)
    | .trap s2 t => .trap (s2.unseeing s bs) t
    | .wait s2 w => .wait (s2.unseeing s bs) w
    | .gone s2 => .gone s2
  else runVectorHalf vh s

/-- A vector half's access with the store before it, in one step: nothing is written if the vector half traps or the store waits. -/
def storeWith (p : Put) (vh : VectorHalf) (s : State) : Res :=
  match vh with
  | .vst y => vstForm [p] y s
  | vh =>
    match afterStore vh p.bytes s with
    | .ok s2 =>
      match s2.store {} false [p] .ok with
      | .ok s3 => .ok s3
      | .wait _ w => .wait s w
      | r => r
    | r => r

/-- A pair whose scalar half stores: that store is made in the step in which the vector half completes, so that neither takes
effect if the vector half traps. It precedes the vector half's access: a load sees its bytes, and a store overwrites them. -/
def storePair (x : MemS) (vh : VectorHalf) (s : State) : Res :=
  stChecked x s fun s1 p =>
    match storeWith p vh s1 with
    | .trap s2 t => .trap { s2 with me := { s.me with flags := s2.me.flags } } t
    | r => r

/-- The scalar half is done first, and what it has computed is kept while the vector half waits. -/
def halvesInTurn (sh : ScalarHalf) (vh : VectorHalf) (s : State) : Res :=
  match s.me.half with
  | some h => vectorHalf vh s s h
  | none =>
    match runScalarHalf sh s with
    | .ok s1 => vectorHalf vh { s with me := { s.me with stage := .none, waitSeq := none } } s1 s1.me.halfDone
    | r => r

def runPairWord (sh : ScalarHalf) (vh : VectorHalf) (s : State) : Res :=
  if vh ≠ .none ∧ s.me.tr.st = .running then .wait s .treadle
  else
    match sh with
    | .st x => if vh = .none then halvesInTurn sh vh s else storePair x vh s
    | _ => halvesInTurn sh vh s
def execPairWord (sh : ScalarHalf) (vh : VectorHalf) (s : State) : Out := (runPairWord sh vh s).finish s

end Sys2Proof.Machine
end

