-- ==== Sys2Proof/Machine/Treadle.lean ====
section
/-! DEFINITION. The treadle: recording, the passes with their renaming, stopping and status (R136 to R144). -/

namespace Sys2Proof.Machine

/-! ## TRREC, TRRUN, TRSTOP and TRSTAT -/

def runTrrec (x : TrrecA) (s : State) : Res :=
  let tr := s.me.tr
  match tr.st with
  | .running => .wait s .treadle
  | .suspended => trapOf s 0x48 1 0
  | _ =>
    .ok { s with me := { s.me with tr := { Treadle.idle with
      st := .recording, n := x.n1.val + 1, sv := x.sv.val, sa := x.sa.val, ads := x.ads, k := tr.k, done := tr.done } } }
def execTrrec (x : TrrecA) (s : State) : Out := (runTrrec x s).finish s

def runTrrun (a : GReg) (s : State) : Res :=
  let tr := s.me.tr
  match tr.st with
  | .running => .wait s .treadle
  | .suspended => trapOf s 0x48 1 0
  | .idle | .recording => trapOf s 0x48 3 0
  | .ready =>
    let k := (s.rg a).toNat
    if 65535 < k then trapOf s 0x48 4 0
    else
      .ok { s with me := { s.me with tr := { tr with
        st := if k = 0 then .ready else .running, k := k, done := 0, pass := 1, ix := 0, stage := .none,
        p := s.me.p, rmode := s.me.rmode, sys := s.me.sys } } }
def execTrrun (a : GReg) (s : State) : Out := (runTrrun a s).finish s

/-- The record discarded: K and DONE still stand for the last TRRUN (R143). -/
def Treadle.discard (tr : Treadle) : Treadle := { Treadle.idle with k := tr.k, done := tr.done }

/-- Whether the passes stand between two of them. -/
def Treadle.between (tr : Treadle) : Bool := tr.ix == 0 && tr.stage == .none

def runTrstop (d : GReg) (s : State) : Res :=
  let tr := s.me.tr
  let stop (n : Nat) : Res := .ok ({ s with me := { s.me with tr := tr.discard } }.wg d (BitVec.ofNat 64 n))
  match tr.st with
  | .idle | .recording | .ready => stop 0
  | .suspended => stop (tr.pass - 1)
  | .running =>
    if tr.between then stop tr.done
    else .wait { s with me := { s.me with tr := { tr with stop := true } } } .treadle
def execTrstop (d : GReg) (s : State) : Out := (runTrstop d s).finish s

def TrState.code : TrState → Nat
  | .idle => 0 | .recording => 1 | .ready => 2 | .running => 3 | .suspended => 4

def runTrstat (d : GReg) (s : State) : Res :=
  let tr := s.me.tr
  .ok (s.wg d (BitVec.ofNat 64 (tr.k * 2 ^ 48 + tr.done * 2 ^ 32 + tr.st.code * 2 ^ 21 + tr.entries.length * 2 ^ 6
    + (if tr.st = .idle then 0 else tr.n))))
def execTrstat (d : GReg) (s : State) : Out := (runTrstat d s).finish s

/-! ## Renaming (R140) -/

/-- A v register field, a register operand of the loom, and an accumulator field, as pass p names them. -/
def renV (n : Nat) (r : VReg) : VReg := ⟨(r.val + n) % 32, Nat.mod_lt _ (by decide)⟩
def renF (n : Nat) (scr : Bool) (r : Fin 64) : Fin 64 := if scr then r else ⟨(r.val + n) % 32, by omega⟩
def renA (n owned : Nat) (r : AReg) : AReg :=
  if owned = 0 then r else ⟨(r.val + n) % owned % 8, Nat.mod_lt _ (by decide)⟩

/-- A recordable form under a pass: f renames v registers, a renames accumulators, off is added to its addresses. Other forms
are never recorded. -/
def runRecorded (n na owned : Nat) (off : Word) (i : Instr) (s : State) : Res :=
  let f := renV n
  let g := renF n
  let a := renA na owned
  match i with
  | .vadd x => runVadd { x with d := f x.d, a := f x.a, b := f x.b } s
  | .vsub x => runVsub { x with d := f x.d, a := f x.a, b := f x.b } s
  | .vmul x => runVmul { x with d := f x.d, a := f x.a, b := f x.b } s
  | .vfma x => runVfma { x with d := f x.d, a := f x.a, b := f x.b, c := f x.c } s
  | .vdiv x => runVdiv { x with d := f x.d, a := f x.a, b := f x.b } s
  | .vsqrt x => runVsqrt { x with d := f x.d, a := f x.a } s
  | .vmin x => runVmin { x with d := f x.d, a := f x.a, b := f x.b } s
  | .vmax x => runVmax { x with d := f x.d, a := f x.a, b := f x.b } s
  | .vabs x => runVabs { x with d := f x.d, a := f x.a } s
  | .vneg x => runVneg { x with d := f x.d, a := f x.a } s
  | .vand x => runVand { x with d := f x.d, a := f x.a, b := f x.b } s
  | .vor x => runVor { x with d := f x.d, a := f x.a, b := f x.b } s
  | .vxor x => runVxor { x with d := f x.d, a := f x.a, b := f x.b } s
  | .vshl x => runVshl { x with d := f x.d, a := f x.a, b := f x.b } s
  | .vshlImm x => runVshlImm { x with d := f x.d, a := f x.a } s
  | .vshr x => runVshr { x with d := f x.d, a := f x.a, b := f x.b } s
  | .vshrImm x => runVshrImm { x with d := f x.d, a := f x.a } s
  | .vsra x => runVsra { x with d := f x.d, a := f x.a, b := f x.b } s
  | .vsraImm x => runVsraImm { x with d := f x.d, a := f x.a } s
  | .vrcp x => runVrcp { x with d := f x.d, a := f x.a } s
  | .vrsqrt x => runVrsqrt { x with d := f x.d, a := f x.a } s
  | .vexp2 x => runVexp2 { x with d := f x.d, a := f x.a } s
  | .vcmp x => runVcmp { x with a := f x.a, b := f x.b } s
  | .vsel x => runVsel { x with d := f x.d, a := f x.a, b := f x.b } s
  | .vmov x => runVmov { x with d := f x.d, a := f x.a } s
  | .vbcast x => runVbcast { x with d := f x.d } s
  | .vbcastImm x => runVbcastImm { x with d := f x.d } s
  | .vins x => runVins { x with d := f x.d } s
  | .vinsReg x => runVinsReg { x with d := f x.d } s
  | .vperm x => runVperm { x with d := f x.d, a := f x.a, b := f x.b, c := f x.c } s
  | .vrot x => runVrot { x with d := f x.d, a := f x.a } s
  | .vcompress x => runVcompress { x with d := f x.d, a := f x.a } s
  | .vexpand x => runVexpand { x with d := f x.d, a := f x.a } s
  | .viota x => runViota { x with d := f x.d } s
  | .mand x => runMand x s | .mor x => runMor x s | .mxor x => runMxor x s | .mnot x => runMnot x s
  | .vcvt x => runVcvt { x with d := f x.d, a := f x.a } s
  | .vprune48 x => runVprune48 { x with d := f x.d, m := f x.m, a := f x.a } s
  | .vtopk x => runVtopk { x with d := f x.d, x := f x.x, a := f x.a } s
  | .vdot4 x => runVdot4 { x with d := f x.d, a := f x.a, b := f x.b, c := f x.c } s
  | .mma x =>
    mmaForm s true false (asSparse { x with acc := a x.acc, a := g x.asp x.a, b := g x.bsp x.b }) off
  | .mmaS x => mmaForm s true true { x with acc := a x.acc, a := g x.asp x.a, b := g x.bsp x.b, m := f x.m } off
  | .mzero c => runMzero (a c) s
  | .mld x => mldForm s { x with acc := a x.acc } off
  | .mst x => mstForm s { x with acc := a x.acc } off
  | .mscaleA0 v => runMscaleA0 (f v) s
  | .mscaleA1 v => runMscaleA1 (f v) s
  | .mscaleB v => runMscaleB (f v) s
  | _ => .ok s

/-! ## TREADLE_ENTRY_ISSUE (R140 to R143) -/

/-- An entry of a pass has taken effect. -/
def Treadle.advance (tr : Treadle) : Treadle :=
  if tr.ix + 1 < tr.entries.length then { tr with ix := tr.ix + 1, stage := .none }
  else
    { tr with ix := 0, stage := .none, done := tr.pass, pass := tr.pass + 1,
              st := if tr.k ≤ tr.pass ∧ !tr.stop then .ready else .running }

/-- The strand a pass's entry executes in: the captured g values, the predicates, %rmode and mode of the passes' place in program
order, and the entry's own progress (R140, R141). -/
def Strand.passView (x : Strand) (e : TrEntry) : Strand :=
  let y := e.caps.foldl (fun (y : Strand) ((r, w) : GReg × Word) => y.writeG r w) (x.setSys x.tr.sys)
  { y with stage := x.tr.stage, tr := { x.tr with st := .idle, stage := .none }, p := x.tr.p, rmode := x.tr.rmode }

/-- The strand after it: its own g and p registers, %rmode, mode and progress again, with the generator as the passes left it where
they may step it. -/
def Strand.passBack (y x : Strand) (tr : Treadle) : Strand :=
  { y.setSys x.sys with
    g := x.g, sysg := x.sysg, p := x.p, stage := x.stage, waiting := x.waiting, waitSeq := x.waitSeq,
    rmode := if x.tr.mayDraw then y.rmode.extractLsb' 32 32 ++ x.rmode.extractLsb' 0 32 else x.rmode,
    tr := { tr with rmode := y.rmode } }

/-- Whether a pass fault may be taken: the strand stands at the oldest instruction that has not issued. One whose own trap waits for
the passes has not executed (R141, R142). -/
def Strand.atPassFault (x : Strand) : Bool :=
  x.half.isNone && (x.stage.atBoundary || x.waiting == some .treadle)

/-- The next entry of the current strand's passes. A pass fault stops them and is taken at the oldest instruction that has not
issued. -/
def State.issueEntry (s : State) (e : TrEntry) : State :=
  let x := s.me
  let tr := x.tr
  let owned := ownedTiles x s.slot
  let v := { s with me := x.passView e }
  if v.rp e.guard.p == e.guard.neg then { s with me := { x with tr := tr.advance } }
  else
    match runRecorded (tr.pass * tr.sv) (tr.pass * tr.sa) owned (BitVec.ofNat 64 tr.pass * sx tr.ads) e.instr v with
    | .ok s2 => { s2 with me := s2.me.passBack x tr.advance }
    | .wait s2 _ =>
      let st := if s2.me.tr.stage = .none then s2.me.stage else s2.me.tr.stage
      { s2 with me := s2.me.passBack x { tr with stage := st } }
    | .gone s2 => s2
    | .trap s2 t =>
      if x.atPassFault then
        let s3 := { s2 with me := s2.me.passBack x { tr with st := .suspended, stage := .none, susP := x.p } }
        let s3 := { s3 with me := { s3.me with tr := { s3.me.tr with susRmode := s3.me.rmode } } }
        let s4 := s3.takeTrap { t with pc := some x.pc } (BitVec.ofNat 64 (tr.ix * 2 ^ 16 + tr.pass))
        if s4.me.live then { s4 with me := { s4.me with tr := { s4.me.tr with susSys := entersSys x t.cause } } } else s4
      else s

/-- Whether a save of the weave holds a strand's passes between entries (R144). -/
def State.passHeld (s : State) (x : Strand) : Bool :=
  x.tr.stage == .none && ((s.weaveOf x.wid).map (·.stopping)).getD false

/-- TREADLE_ENTRY_ISSUE. -/
def execTreadleEntryIssue (k : StrandIx) (s : State) : Out :=
  let x := s.strand k
  if x.live && x.tr.st == .running && !(x.tr.stop && x.tr.between) && !s.passHeld x && !s.islandHeld (coreOf k) then
    match x.tr.entries[x.tr.ix]? with
    | some e => eventStep (((s.switchTo k).issueEntry e).switchTo s.cur)
    | none => eventStep s
  else eventStep s

end Sys2Proof.Machine
end

