-- ==== Sys2Proof/Machine/Life.lean ====
section
/-! DEFINITION. The life of strands, cores and weaves: starting a strand, what ends with it, and the release of cores and weaves
with the zeroing of what passes on (R40, R41, R110, R170, R269 to R275, R297, R344, R356, R363, R364, R371). -/

namespace Sys2Proof.Machine

/-! ## Messages that get no handler (R270, R274) -/

/-- A reply to a tagged load or SEND.rq sets out (R222, R274). -/
def State.reply (s : State) (r : ReplyTo) (val : Nat) (fault : Option Trap) : State :=
  s.modNet fun n => { n with tagReplies := n.tagReplies ++ [⟨r, val, fault, []⟩] }

/-- A fault reply reports access rights at the destination that the entry keeps (R274). -/
def State.faultReply (s : State) (r : ReplyTo) : State :=
  let a := (((s.strand r.strand).ls.find? fun e => e.idx == r.entry).map (·.req.addr)).getD 0
  s.reply r 0 (some ⟨0x12, 16, a, none, 0⟩)

/-- A request message is discarded and counted; an owed reply is answered with a fault reply (R270). -/
def State.dropMsg (s : State) (c : CoreIx) (m : Msg) : State :=
  let s := s.countCore c 0x02
  match m.reply with
  | some r => s.faultReply r
  | none => s

/-! ## Streams by handle and by number (R279, R335, R422) -/

def hChk (h : Word) : BitVec 16 := h.extractLsb' 48 16
def hDie (h : Word) : Nat := (h.extractLsb' 38 2).toNat
def hBlk (h : Word) : Nat := (h.extractLsb' 24 8).toNat

def strEnd (h : Word) : Bool := h.getLsbD 7
def strNum (h : Word) : Nat := (h.extractLsb' 8 16).toNat
def strGen (h : Word) : BitVec 7 := h.extractLsb' 0 7

/-- Streams of Ethernet port p are kept under block numbers from 10,000 up: a queue pair's transmit stream and, where the
strand's end is the receive end, its receive stream (R422). -/
def portBlk (p : Nat) (recv : Bool) : Nat := 10000 + 2 * p + (if recv then 1 else 0)

def Stream.sideOf (y : Stream) (recv : Bool) : SEnd := if recv then y.rcv else y.snd

/-- An end that is CLOSED or ORPHANED. -/
def SEnd.ended (e : SEnd) : Bool := e.st == .closed || e.st == .orphaned

def State.stream (s : State) (wid blk str : Nat) : Option Stream :=
  s.streams.find? fun x => x.wid == wid && x.blk == blk && x.str == str

def State.setStream (s : State) (y : Stream) : State :=
  { s with streams := s.streams.map fun x => if x.wid == y.wid && x.blk == y.blk && x.str == y.str then y else x }

/-- The weave number a stream's home keeps it under: Ethernet ports' streams belong to no weave (R422). -/
def streamWid (wid blk : Nat) : Nat := if 10000 ≤ blk then 0 else wid

/-- Notices to the homes of the stream ends a strand still holds (R344): F is the count of items sent, unless the holder was
quarantined. -/
def State.orphanEnds (s : State) (wid : Nat) (q : Vector QBind 8) (known : Bool) : State :=
  q.toList.foldl (fun s b =>
    match b with
    | .stream blk str recv _ =>
      let w := streamWid wid blk
      let fin := if known then (s.stream w blk str).map (·.ns) else none
      s.modNet fun n => { n with orphans := n.orphans ++ [⟨w, blk, str, recv, fin, 2, false⟩] }
    | _ => s) s

/-- The notice that an item discarded unreceived gives rise to: the end that a .h item's current handle names is orphaned, bound or not (R344). -/
def State.itemOrphan (s : State) (i : Item) (wid : Nat) : Option Orphan :=
  if !i.handle then none
  else
    let h := i.val
    let blk := if 160 ≤ hBlk h then portBlk (hBlk h - 160) (strEnd h) else hDie h * 160 + hBlk h
    let w := streamWid wid blk
    match s.stream w blk (strNum h) with
    | none => none
    | some y =>
      let e := y.sideOf (strEnd h)
      if e.chk == hChk h && e.gen == strGen h && !e.ended then
        some ⟨w, blk, strNum h, strEnd h, some y.ns, 3, false⟩
      else none

def State.dropItem (s : State) (i : Item) (wid : Nat) : State :=
  match s.itemOrphan i wid with
  | some o => s.modNet fun n => { n with orphans := n.orphans ++ [o] }
  | none => s

def State.dropItems (s : State) (wid : Nat) (is : List Item) : State := is.foldl (fun s i => s.dropItem i wid) s

/-- What a core's local queues hold, as items. -/
def Core.queued (x : Core) : List Item := x.lq.flatMap fun (_, l) => l.map fun (v, h) => ⟨0, v, h, 0⟩

/-- What a core's local queues hold is discarded unreceived as its weave leaves it (R340, R344). -/
def State.dropQueues (s : State) (c : CoreIx) : State :=
  match (s.coreRec c).wid with
  | some w => s.dropItems w (s.coreRec c).queued
  | none => s

/-! ## Zeroing (R371) -/

/-- Writes zero to a range of storage keys: nothing of the range stays. -/
def State.zeroRange (s : State) (lo n : Nat) : State :=
  let out (k : Nat) : Bool := !(decide (lo ≤ k) && decide (k < lo + n))
  { s with
    mem := s.mem.filter fun c => out c.1
    poison := s.poison.filter out
    upsets := s.upsets.filter fun u => out u.key
    relTags := s.relTags.filter fun t => out t.1 }

/-! ## Cores (R110, R111, R170, R297, R364) -/

def State.liveOn (s : State) (c : CoreIx) : Bool := (List.range 8).any fun k => (s.strand (strandAt c k)).live

/-- A core without a weave; a key under which it retains its banks is for its release to set. The instruction store, counters and
posted writes are the core's own, and the forwarding pointers a strand left go on forwarding until another weave takes the core (R342,
R371). -/
def Core.vacate (x : Core) : Core :=
  { x with wid := none, linger := false, leave := none, pinSeg := none, acc := [], handlers := [], inbox := [], ready := [], arrivals := [],
           shed := [], lq := [], lqWait := [], loomq := [] }

/-- Loom operations still queued at a core that its weave leaves are discarded with the claims they hold: no result reaches the
core's next owner (R41, R366). -/
def State.dropLoom (s : State) (c : CoreIx) : State :=
  let ids := ((s.coreRec c).loomq.map (·.id)).filter fun i =>
    !s.cores.any fun (d, x) => d != c && x.loomq.any fun o => o.id == i
  let s := s.modCore c fun x => { x with loomq := [] }
  if ids.isEmpty then s
  else { s with tiles := s.tiles.map fun (t, x) => (t, { x with claims := x.claims.filter fun cl => !ids.contains cl.op }) }

/-- A core that holds nothing of its weave any longer; what it held may stand in a save area. -/
def State.emptyCore (s : State) (c : CoreIx) : State := (s.dropLoom c).modCore c Core.vacate

/-- A core leaves its weave, and what waited there in local queues is discarded. -/
def State.freeCore (s : State) (c : CoreIx) : State := (s.dropQueues c).emptyCore c

/-- The system registers of a core's slots are cleared. -/
def State.clearSysg (s : State) (c : CoreIx) : State :=
  (List.range 8).foldl (fun s k => s.modStrand (strandAt c k) fun y => { y with sysg := Vector.replicate 4 0 }) s

/-- A core passes to a weave of a partition: no forwarding pointer of an earlier weave stays, and no system register of another
partition (R115, R371). -/
def State.passTo (s : State) (part : Nat) (c : CoreIx) : State :=
  let s := if (s.coreRec c).partLast = part then s else s.clearSysg c
  s.modCore c fun x => { x with fwd := [], partLast := part }

/-- The banks of a core that no strand of its weave is left on: zeroed, but where the strand that left last by HALT.K gave a key. -/
def State.leaveBanks (s : State) (c : CoreIx) : State :=
  if (s.coreRec c).leave.isSome then s else s.zeroRange (localKey c 0) localSize

/-- A core leaves its weave, and holds its banks under the key that the strand which left last gave (R111, R364). -/
def State.releaseCore (s : State) (c : CoreIx) : State :=
  let key := (s.coreRec c).leave
  ((s.leaveBanks c).freeCore c).modCore c fun x => { x with key := key }

/-- What follows once nothing more of a core's work may be left: with no strand, ring entry or lingering team its banks are zeroed, or
kept for the key of the last HALT.K; the core is free once no message waits and it pins no segment (R110, R111, R297, R364; log
entry 54). Its accumulator tiles stay while a ring entry stays, and are zeroed where only messages or a pinned segment hold the core,
which is the model's choice (R29, R41; log entry 120). -/
def State.coreIdle (s : State) (c : CoreIx) : State :=
  let x := s.coreRec c
  if s.liveOn c || x.linger || !x.ready.isEmpty then s
  else if x.inbox.isEmpty && x.pinSeg.isNone then (s.modCore c fun x => { x with acc := [] }).releaseCore c
  else (s.leaveBanks c).modCore c fun x => { x with acc := [] }

/-- A strand has left a core: the last to leave decides whether the banks are retained, and under which key (R111). -/
def State.coreLeft (s : State) (c : CoreIx) (key : Word) : State :=
  if s.liveOn c then s
  else (s.modCore c fun x => { x with leave := if key = 0 then none else some key }).coreIdle c

/-! ## Ending a strand (R110, R275) -/

/-- What every end of a strand does: its owed reply, its tag's BUSY bit, its bound stream ends, its slot. -/
def State.dropStrand (s : State) (k : StrandIx) (val : Word) : State :=
  let x := s.strand k
  let c := coreOf k
  let s := match x.owed with
    | some r => s.reply r val.toNat none
    | none => s
  let s := match x.htag with
    | some t => s.modCore c fun y => { y with handlers := Tab.set y.handlers t.toNat (setBit (y.handler t) 61 false) }
    | none => s
  let s := s.orphanEnds x.wid x.q true
  (s.freeSlot k).refresh c

/-- The waits of HALT, step 1, short of the send queue: loom operations and passes (R110, R275). -/
def workWait (s : State) (k : State → Res) : Res :=
  if s.me.tr.st = .running then .wait s .treadle
  else if s.loomBusy then .wait s .loom
  else loomHeld s (k s)

/-- HALT, steps 2 and 3, and the release of the core. -/
def State.haltStrand (s : State) (val key : Word) : State :=
  (s.dropStrand s.cur val).coreLeft s.core key

def haltForm (key : Word) (s : State) : Res :=
  workWait s fun s => if s.me.sendq.isEmpty then .gone (s.haltStrand 0 key) else .wait s .drain

def runHalt (s : State) : Res := haltForm 0 s
def execHalt (s : State) : Out := (runHalt s).finish s

def runHaltK (a : GReg) (s : State) : Res := haltForm (s.rg a) s
def execHaltK (a : GReg) (s : State) : Out := (runHaltK a s).finish s

/-! ## Starting a strand (R39, R40, R71) -/

/-- Bits 31:0 of %weave but GEN. -/
def weaveWord (w : Weave) (origin : Nat) (gen : BitVec 8) : Word :=
  let ws := w.words
  BitVec.ofNat 64 (w.wid * 2 ^ 32 + ((recWord ws 0).extractLsb' 35 4).toNat * 2 ^ 24 + (if recShm ws then 2 ^ 23 else 0)
    + origin * 2 ^ 21 + gen.toNat * 2 ^ 8)

/-- A new strand in a slot: every register at its reset value, then what the task's source gives. Its generation follows the newest
the slot has given, which a restored strand's may not be (R39, R222). -/
def State.freshStrand (s : State) (k : StrandIx) (w : Weave) (origin : Nat) (pc : Word) : Strand :=
  let old := s.strand k
  { Strand.empty with
    live := true
    pc := pc
    sysg := old.sysg
    epochs := old.epochs
    lastGen := old.lastGen + 1
    tvec := recWord w.words 2
    core := BitVec.ofNat 64 (w.part * 2 ^ 32) + s.posOf (coreOf k) (slotOf k)
    weave := weaveWord w origin (old.lastGen + 1)
    seg := if recShm w.words then BitVec.ofNat 64 ((segmentOf w.words pc).getD 0) else 0 }

/-- A strand comes to a core: no earlier one was its last (R111). -/
def State.occupy (s : State) (c : CoreIx) : State :=
  if (s.coreRec c).leave.isNone then s else s.modCore c fun x => { x with leave := none }

/-- Its start is a transfer; a fault is taken in its own slot with %tpc at the start address. -/
def State.startStrand (s : State) (k : StrandIx) (x : Strand) : State :=
  let s1 := ((s.occupy (coreOf k)).setStrand k x).switchTo k
  let s2 := match s1.enter x.pc false with
    | .ok s' => s'
    | .error t => (s1.metFetch x.pc).takeTrap { t with pc := some x.pc } 0
  s2.switchTo s.cur

/-- Argument words in g1 upward. -/
def Strand.withArgs (x : Strand) (ws : List Word) : Strand :=
  (ws.zip (List.range 63)).foldl (fun (x : Strand) ((w, i) : Word × Nat) =>
    if h : i + 1 < 64 then { x with g := x.g.set (i + 1) w h } else x) x

/-! ## Ending a weave (R356, R366, R371) -/

def State.copiesOf (s : State) (wid : Nat) : Bool := s.tiles.any fun (_, t) => t.copyq.any fun c => c.wid == wid

def State.postedOf (s : State) (wid : Nat) : Bool := s.cores.any fun (_, x) => x.posted.any fun p => p.wid == wid

/-- Shuttles of a weave, wherever they are. -/
def State.shuttlesOf (s : State) (wid : Nat) : List Shuttle :=
  (s.net.shuttles ++ (s.cores.flatMap fun (_, x) => x.arrivals ++ x.shed)
    ++ s.parts.flatMap fun (_, p) => p.overflow).filter fun h => h.wid == wid

def State.strandsOf (s : State) (wid : Nat) : List StrandIx :=
  s.allStrands.filter fun k => (s.strand k).live && (s.strand k).wid == wid

/-- The four conditions of R356. A strand that a double fault has stopped still belongs to its weave. -/
def State.weaveOver (s : State) (w : Weave) : Bool :=
  w.placed && !w.saved && (s.strandsOf w.wid).isEmpty && (s.shuttlesOf w.wid).isEmpty
    && !(s.cores.any fun (_, x) => (x.ready.any fun e => e.wid == w.wid) || x.inbox.any fun m => m.msg.wid == w.wid)
    && !(s.net.pushes.any fun p => p.wid == w.wid) && !s.postedOf w.wid && !s.copiesOf w.wid && !s.saves.any fun v => v.wid == w.wid

/-- The blocks of a weave. -/
def Weave.blocks (w : Weave) : List Nat := (w.cores.map blockOf).eraseDups

def State.zeroVault (s : State) (w : Weave) : State :=
  w.blocks.foldl (fun s b => s.zeroRange (vaultKey b w.vb) (recVault w.words)) s

/-- Phasers, rings and streams of a weave are zeroed. -/
def State.dropObjects (s : State) (wid : Nat) : State :=
  { s with
    phasers := s.phasers.filter fun (p : Phaser) => p.wid != wid
    members := s.members.filter fun (m : Member) => m.wid != wid
    rings := s.rings.filter fun (r : Ring) => r.wid != wid
    streams := s.streams.filter fun (x : Stream) => x.wid != wid }

/-- The completion word (R356). -/
def doneWord (how code : BitVec 8) : Word := BitVec.ofNat 64 (2 ^ 63 + how.toNat * 256 + code.toNat)

/-- A parent that waits in LAUNCH.W gets its child's completion word, in its save area if it is saved (R365, R370). -/
def State.childEnds (s : State) (wid : Nat) (v : Word) : State :=
  let out := Stage.childOut wid
  let f (st : Stage) : Option Stage := if st = out then some (.childDone v) else none
  let s := s.allStrands.foldl (fun s k =>
    if (s.strand k).waits.contains out then s.modStrand k fun x => x.rewait f else s) s
  let hits := s.saves.flatMap fun sv => sv.strands.filterMap fun (k, x) =>
    if x.waits.contains out then some (sv.addr, k) else none
  hits.foldl (fun s (a, k) =>
    match s.saves.find? fun sv => sv.addr = a with
    | some sv => s.recordWake sv k f
    | none => s) s

/-- The completion word is written and AWAKE performed on it; an address that fails its checks takes no word. -/
def State.writeDone (s : State) (w : Weave) (v : Word) : State :=
  let a := recWord w.words 14
  if a = 0 then s
  else
    let c := w.cores.headD (coreAt (w.part * 4 / s.nparts) 0 0)
    let x : Ctx := ⟨c, w.part, w.root, w.wid, false⟩
    let s := s.meetWalkAs s w.wid (s.posOf c 0) x a
    match s.check x .store false 8 a a 8 with
    | .error _ => s
    | .ok y =>
      if y.fmt.isSome then s
      else ((s.meetUpsetsAs w.wid (s.posOf c 0) y.keys).perform (layBytes y.keys v.toNat) none).wakeWord (y.keys.headD 0)

/-- A launch leaves the pool: an entry it has lent goes to the unplaced child that took it; one it has taken goes back. -/
def State.leavePool (s : State) (w : Weave) : State :=
  let ws := s.weaves.filter fun (x : Weave) => x.wid != w.wid
  { s with weaves := ws.map fun (x : Weave) =>
      if w.borrowed && !w.placed && w.parent == some x.wid then { x with lent := false }
      else if w.lent && x.borrowed && !x.placed && x.parent == some w.wid then { x with borrowed := false }
      else x }

/-- A weave ends: its cores, vault ranges and objects are zeroed, its pool entry is free, its end is reported. -/
def State.endWeave (s : State) (w : Weave) (how code : BitVec 8) : State :=
  let v := doneWord how code
  let s := w.cores.foldl (fun s c =>
    if (s.coreRec c).wid = some w.wid then s.releaseCore c else s) s
  ((((s.zeroVault w).dropObjects w.wid).leavePool w).writeDone w v).childEnds w.wid v

end Sys2Proof.Machine
end

