-- ==== Sys2Proof/Machine/Sync.lean ====
section
/-! DEFINITION. Phasers and wired phasers: handles and tokens, membership, signals, waits and boundaries (R279 to R284, R397).
Each request and its reply make one step of the strand. -/

namespace Sys2Proof.Machine

/-! ## Handles (R279, R316) -/

def hPkg (h : Word) : Nat := (h.extractLsb' 40 8).toNat
def hM (h : Word) : Bool := h.getLsbD 23
def hMem (h : Word) : Nat := (h.extractLsb' 12 11).toNat
def hIdx (h : Word) : Nat := (h.extractLsb' 0 12).toNat

def rights (sub : BitVec 8) (a : Word) : Trap := ⟨0x12, sub, a, none, 0⟩

/-- The engine a handle names and the number within the weave's allocation: an engine outside the weave's blocks has none
(R354). -/
def State.engine (s : State) (h : Word) (alloc : List Word → Nat) : Except Trap (Nat × Nat) :=
  let wid := s.me.wid
  if !s.inTeam wid (hPkg h) || !s.dieIn s.me.part (hDie h) then .error ⟨0x15, 0, h, none, 0⟩
  else if 159 < hBlk h || h.extractLsb' 32 6 != 0 then .error (rights 19 h)
  else if hPkg h ≠ ownPkg s then .error (rights 46 h)
  else
    let blk := hDie h * 160 + hBlk h
    let inWeave := ((s.weaveOf wid).map fun w => w.cores.any fun c => blockOf c == blk).getD false
    if !inWeave || alloc (s.weaveWords wid) ≤ hIdx h then .error (rights 16 h)
    else .ok (blk, hIdx h)

def recPhas (ws : List Word) : Nat := ((recWord ws 9).extractLsb' 0 13).toNat
def recRing (ws : List Word) : Nat := ((recWord ws 9).extractLsb' 13 8).toNat
def recStrm (ws : List Word) : Nat := ((recWord ws 9).extractLsb' 21 11).toNat

/-- The full handle of an object and the token of a member. -/
def fullHandle (h : Word) (chk : BitVec 16) : Word := (h &&& 0x0000FFFFFF000FFF) ||| (chk.setWidth 64 <<< 48)
def tokenOf (h : Word) (mem : Nat) : Word := h ||| BitVec.ofNat 64 (2 ^ 23 + mem * 2 ^ 12)

/-! ## Phasers (R280) -/

def State.phaser (s : State) (wid blk idx : Nat) : Option Phaser :=
  s.phasers.find? fun p => p.wid == wid && p.blk == blk && p.idx == idx

def State.setPhaser (s : State) (q : Phaser) : State :=
  { s with phasers := (s.phasers.filter fun p => !(p.wid == q.wid && p.blk == q.blk && p.idx == q.idx)) ++ [q] }

def State.membersOf (s : State) (p : Phaser) : List Member :=
  s.members.filter fun m => m.wid == p.wid && m.blk == p.blk && m.idx == p.idx

/-- Changes the record of a phaser's member. A block numbers its records across weaves; a weave restored among others keeps the
numbers its tokens name (R280, R370; log entry 112). -/
def State.modMember (s : State) (p : Phaser) (mem : Nat) (f : Member → Member) : State :=
  { s with members := s.members.map fun m => if m.wid == p.wid && m.blk == p.blk && m.mem == mem then f m else m }

def signals : PhMode → Bool
  | .waitOnly => false
  | _ => true

def waits : PhMode → Bool
  | .sigOnly => false
  | _ => true

/-- The members a phase waits for. -/
def Member.counts (m : Member) : Bool := signals m.mode && m.status != .joining

/-- Whether the current phase is complete: it has a member that counts, and each has signalled. -/
def State.phaseDone (s : State) (p : Phaser) : Bool :=
  let ms := (s.membersOf p).filter Member.counts
  !ms.isEmpty && ms.all (·.sig)

/-- The boundary's changes to a member record; none for a record it frees. -/
def Member.cross (m : Member) : Option Member :=
  match m.status with
  | .leaving => none
  | _ => some { m with status := .active, sig := false }

/-- The stage that a strand waiting for its held signal takes, by whether PHSW made it. -/
def heldTo (st : Bool → Stage) : Stage → Option Stage
  | .sigHeld sw => some (st sw)
  | _ => none

/-- The stage of a strand whose signal counts for phase x: PHSIG is done, and PHSW waits for the phase (R281). -/
def signalled (blk idx : Nat) (x : BitVec 32) (sw : Bool) : Stage := if sw then .phSw blk idx x else .sigDone x

/-- The held signals applied in arrival order to the new phase: a member's first signals, another is held again, and one whose
record is gone fails its check. -/
def State.applyHeld (s : State) (p : Phaser) : List (Nat × Nat) → State
  | [] => s
  | (mem, k) :: r =>
    let s := match (s.membersOf p).find? fun m => m.mem == mem with
      | none => s.modStrand k fun x => x.rewait (heldTo fun _ => .orphaned (rights 20 0))
      | some m =>
        if m.sig then
          match s.phaser p.wid p.blk p.idx with
          | some q => s.setPhaser { q with held := q.held ++ [(mem, k)] }
          | none => s
        else (s.modMember p mem fun m => { m with sig := true }).modStrand k fun x => x.rewait (heldTo (signalled p.blk p.idx p.p))
    s.applyHeld p r

/-- A wait for phase x is over once it has completed (R282). -/
def phaseOver (p x : BitVec 32) : Bool := 1 ≤ (p - x).toNat && (p - x).toNat ≤ 2 ^ 31

/-- The phaser and phase a stage waits for. -/
def Stage.phaserOf : Stage → Option (Nat × Nat × BitVec 32)
  | .phWait b i x => some (b, i, x)
  | .phSw b i x => some (b, i, x)
  | _ => Option.none

/-- A boundary wakes the strands whose wait it ends, each with the new phase (R280, R282). -/
def State.endWaits (s : State) (q : Phaser) : State :=
  let f (st : Stage) : Option Stage :=
    match st.phaserOf with
    | some (b, i, x) => if b == q.blk && i == q.idx && phaseOver q.p x then some (.phDone q.p) else none
    | none => none
  s.allStrands.foldl (fun s k =>
    if (s.strand k).wid == q.wid && (s.strand k).waits.any (fun st => (f st).isSome) then s.modStrand k fun y => y.rewait f
    else s) s

/-- Boundaries while the phase is complete; each but the last uses up a held signal. -/
def State.boundary (s : State) (wid blk idx : Nat) : Nat → State
  | 0 => s
  | n + 1 =>
    match s.phaser wid blk idx with
    | none => s
    | some p =>
      if !s.phaseDone p then s
      else
        let q : Phaser := { p with p := p.p + 1, held := [] }
        let mine (m : Member) : Bool := m.wid == wid && m.blk == blk && m.idx == idx
        let s := { s.setPhaser q with
          members := s.members.filterMap fun (m : Member) => if mine m then m.cross else some m }
        State.boundary ((s.endWaits q).applyHeld q p.held) wid blk idx n

/-- A signal of a member, by strand k in PHSIG or, with sw, PHSW: it counts now, or the engine holds it for the next boundary. -/
def State.signal (s : State) (p : Phaser) (m : Member) (k : StrandIx) (sw : Bool) : State :=
  if m.status = .active ∧ !m.sig then
    let s := (s.modMember p m.mem fun m => { m with sig := true }).modStrand k fun x => { x with stage := signalled p.blk p.idx p.p sw }
    s.boundary p.wid p.blk p.idx (p.held.length + 2)
  else
    (s.setPhaser { p with held := p.held ++ [(m.mem, k)] }).modStrand k fun x => { x with stage := .sigHeld sw }

/-- Whether a strand of the weave sleeps in a wait on a phaser. -/
def State.phWaits (s : State) (wid blk idx : Nat) : Bool :=
  s.allStrands.any fun k =>
    (s.strand k).wid == wid && (s.strand k).waits.any fun st => st.phaserOf.any fun (b, i, _) => b == blk && i == idx

/-! ## The phaser forms (R281) -/

/-- A handle's phaser; the checks stop at the first failure. -/
def State.phaserOf (s : State) (h : Word) : Except Trap Phaser :=
  match s.engine h recPhas with
  | .error t => .error t
  | .ok (blk, idx) =>
    match s.phaser s.me.wid blk idx with
    | none => .error (rights 20 h)
    | some p =>
      if p.poisoned then .error (rights 38 h)
      else if p.chk != hChk h then .error (rights 20 h)
      else .ok p

/-- A token's phaser and member. -/
def State.memberOf (s : State) (h : Word) : Except Trap (Phaser × Member) :=
  match s.phaserOf h with
  | .error t => .error t
  | .ok p =>
    match (if hM h then (s.membersOf p).find? fun m => m.mem == hMem h else none) with
    | none => .error (rights 20 h)
    | some m => .ok (p, m)

/-- A phaser operation is none of the operations that a .acq entry holds back (R212); a signal waits, as a release does, for
the scratchpad reads of the passes under way (R235). -/
def signalOp (s : State) (k : State → Res) : Res := afterMemPasses s (k s)

def runPhinit (x : DA) (s : State) : Res := Res.map State.sided <|
    let h := s.rg x.a
    match s.engine h recPhas with
    | .error t => .trap s t
    | .ok (blk, idx) =>
      let old := s.phaser s.me.wid blk idx
      if hChk h != 0 || hM h || hMem h != 0 then .trap s (rights 20 h)
      else if (old.map (·.poisoned)).getD false then .trap s (rights 38 h)
      else if old.any (fun p => !(s.membersOf p).isEmpty || !p.held.isEmpty) || s.phWaits s.me.wid blk idx then
        .trap s (rights 21 h)
      else
        let (n, s) := s.draw
        let chk := Config.freeChk n
        let p : Phaser := ⟨s.me.wid, blk, idx, chk, 0, [], false⟩
        .ok ((s.setPhaser p).wg x.d (fullHandle h chk))
def execPhinit (x : DA) (s : State) : Out := (runPhinit x s).finish s

/-- The record PHREG allocates is the block's lowest free one, a choice of the model: the token's MEM shows it (R281; log entry
112). -/
def runPhreg (x : PhRegA) (s : State) : Res := Res.map State.sided <|
    let h := s.rg x.a
    match s.phaserOf h with
    | .error t => .trap s t
    | .ok p =>
      if hM h || hMem h != 0 then .trap s (rights 20 h)
      else
        match (List.range 2048).find? fun n => !s.members.any fun m => m.blk == p.blk && m.mem == n with
        | none => .trap s (rights 23 h)
        | some n =>
          let st : MStatus := if (s.membersOf p).any Member.counts then .joining else .active
          let y : Member := ⟨p.blk, n, p.wid, p.idx, x.mode, st, false⟩
          .ok (({ s with members := s.members ++ [y] }).wg x.d (tokenOf h n))
def execPhreg (x : PhRegA) (s : State) : Out := (runPhreg x s).finish s

/-- A signalling PHDROP waits as a release does. -/
def runPhdrop (a : GReg) (s : State) : Res := Res.map State.sided <|
  signalOp s fun s =>
    let h := s.rg a
    match s.memberOf h with
    | .error t => .trap s t
    | .ok (p, m) =>
      let leave (s : State) : State := s.modMember p m.mem fun m => { m with status := .leaving, sig := true }
      match m.status with
      | .leaving => .trap s (rights 20 h)
      | .joining => .ok { s with members := s.members.filter fun y => !(y.wid == p.wid && y.blk == p.blk && y.mem == m.mem) }
      | .active =>
        if signals m.mode && !m.sig then
          releaseWait s fun s => .ok ((leave s).boundary p.wid p.blk p.idx (p.held.length + 2))
        else .ok (s.modMember p m.mem fun m => { m with status := .leaving })
def execPhdrop (a : GReg) (s : State) : Out := (runPhdrop a s).finish s

/-- A held signal goes with the instruction that gave it. -/
def State.withdraw (s : State) : State :=
  { s with phasers := s.phasers.map fun (p : Phaser) => { p with held := p.held.filter fun h => h.2 != s.cur } }

/-- A signal's turns: the waits of a release, the signal, and the wait for a boundary where it is held. gd takes the phase signalled
by PHSIG, and by PHSW, whose wait makes no check anew, the one that follows (R281, R282). -/
def signalTurn (s : State) (h : Word) (ok : PhMode → Bool) (sw : Bool) (d : GReg) : Res :=
  let done (s : State) (p : BitVec 32) : Res := .ok (s.wg d (p.setWidth 64))
  match s.me.stage with
  | .sigDone p => done s p
  | .orphaned t => .trap s { t with val := h }
  | .sigHeld _ =>
    match s.memberOf h with
    | .error t => .trap s.withdraw t
    | .ok _ => .wait s .signal
  | _ =>
    match s.memberOf h with
    | .error t => .trap s t
    | .ok (p, m) =>
      if !ok m.mode then .trap s (rights 22 h)
      else
        releaseWait s fun s =>
          let s' := s.signal p m s.cur sw
          match s'.me.stage with
          | .sigDone q => done s' q
          | .phDone q => done s' q
          | .phSw .. => .wait s' .phwait
          | _ => .wait s' .signal

/-- A wait's turns; its return acts as an acquire. A strand that sleeps has made its checks: its record may be gone when its
phase has completed. PHSW sleeps in a stage of its own: a notice does not wake it (R282, R401). -/
def waitTurn (s : State) (h : Word) (x : BitVec 32) (ok : PhMode → Bool) (sw : Bool) (d : GReg) : Res :=
  let go (p : Phaser) : Res :=
    if p.poisoned then .trap s (rights 38 h)
    else if phaseOver p.p x then .ok (s.wg d (p.p.setWidth 64))
    else .wait { s with me := { s.me with stage := if sw then .phSw p.blk p.idx x else .phWait p.blk p.idx x } } .phwait
  let again (blk idx : Nat) : Res :=
    match s.phaser s.me.wid blk idx with
    | some p => go p
    | none => .trap s (rights 20 h)
  match s.me.stage with
  | .phDone p => .ok (s.wg d (p.setWidth 64))
  | .phWait blk idx _ => again blk idx
  | .phSw blk idx _ => again blk idx
  | _ =>
    match s.memberOf h with
    | .error t => .trap s t
    | .ok (p, m) => if !ok m.mode then .trap s (rights 22 h) else go p

def runPhsig (x : DA) (s : State) : Res := Res.map State.sided <|
  signalOp s fun s => signalTurn s (s.rg x.a) signals false x.d
def execPhsig (x : DA) (s : State) : Out := (runPhsig x s).finish s

def runPhwait (x : DAB) (s : State) : Res := Res.map State.sided <|
    waitTurn s (s.rg x.a) ((s.rg x.b).setWidth 32) waits false x.d
def execPhwait (x : DAB) (s : State) : Out := (runPhwait x s).finish s

def runPhsw (x : DA) (s : State) : Res := Res.map State.sided <|
  signalOp s fun s =>
    let h := s.rg x.a
    let both (m : PhMode) : Bool := signals m && waits m
    match s.me.stage with
    | .phSw _ _ p => waitTurn s h p both true x.d
    | .phDone p => waitTurn s h p both true x.d
    | _ => signalTurn s h both true x.d
def execPhsw (x : DA) (s : State) : Out := (runPhsw x s).finish s

/-! ## Wired phasers (R283, R284) -/

def wiredNone : Wired := ⟨0, 0, [], []⟩

/-- The wire w of the current core, and its member number. -/
def State.wire (s : State) (w : Fin 16) : Wired × Nat :=
  let n := w.val % 8
  if w.val < 8 then (Tab.get wiredNone (s.tileRec (tileOf s.core)).tw n, Sys2Proof.Machine.memberOf s.core)
  else (Tab.get wiredNone (Tab.get [] s.rows (loomOf s.core)) n, loomPos s.core)

def State.setWire (s : State) (w : Fin 16) (y : Wired) : State :=
  let n := w.val % 8
  if w.val < 8 then s.modTile (tileOf s.core) fun t => { t with tw := Tab.set t.tw n y }
  else { s with rows := Tab.set s.rows (loomOf s.core) (Tab.set (Tab.get [] s.rows (loomOf s.core)) n y) }

/-- E + 1. -/
def Wired.quota (y : Wired) : Nat := (y.cfg.extractLsb' 16 3).toNat + 1

/-- A member core arrives; the boundary comes with the last arrival of the last member. -/
def Wired.arrive (y : Wired) (i : Nat) : Wired :=
  let c := Tab.set y.counts i (Tab.get 0 y.counts i + 1)
  let full := (List.range 16).all fun j => !y.cfg.getLsbD j || Tab.get 0 c j == y.quota
  if full then { y with phase := y.phase + 1, counts := [] } else { y with counts := c }

/-- The arrivals that wait enter the phase in the order they came, as far as their cores' counts have room; the strands that have
arrived, each with its phase (R284). -/
def Wired.enter : Nat → Wired → Wired × List (StrandIx × BitVec 32)
  | 0, y => (y, [])
  | n + 1, y =>
    match y.queue.find? fun q => decide (Tab.get 0 y.counts q.1 < y.quota) with
    | none => (y, [])
    | some (i, k) =>
      let r := Wired.enter n ({ y with queue := y.queue.filter fun q => q.2 != k }.arrive i)
      (r.1, (k, y.phase) :: r.2)

/-- An arrival at a wire, and the waiting ones that its boundary lets in. -/
def State.arriveAt (s : State) (w : Fin 16) (y : Wired) (i : Nat) : State :=
  let (y', in') := Wired.enter y.queue.length (y.arrive i)
  in'.foldl (fun s (k, p) => s.modStrand k fun x => x.rewait fun st => if st = .arrHeld then some (.arrDone p) else none)
    (s.setWire w y')

/-- Access rights, subcode 24: the form has no data address, and %tval reads 0, a choice of the model (R113, R284; log entry
113). -/
def wired (s : State) (w : Fin 16) (k : Wired → Nat → Res) : Res :=
  let (y, i) := s.wire w
  if !y.cfg.getLsbD 63 || !y.cfg.getLsbD i then trapOf s 0x12 24 0 else k y i

/-- WARR arrives in the current phase, or waits in the wire's order for the next one its core has room in. -/
def runWarr (x : WArrA) (s : State) : Res := Res.map State.sided <|
  match s.me.stage with
  | .arrHeld => .wait s .signal
  | .arrDone p => .ok (s.wg x.d (p.setWidth 64))
  | _ =>
    signalOp s fun s =>
      wired s x.w fun _ _ =>
        releaseWait s fun s =>
          let (y, i) := s.wire x.w
          if Tab.get 0 y.counts i < y.quota then .ok ((s.arriveAt x.w y i).wg x.d (y.phase.setWidth 64))
          else
            .wait { s.setWire x.w { y with queue := y.queue ++ [(i, s.cur)] } with me := { s.me with stage := .arrHeld } } .signal
def execWarr (x : WArrA) (s : State) : Out := (runWarr x s).finish s

def runWwait (x : WWaitA) (s : State) : Res := Res.map State.sided <|
    wired s x.w fun y _ =>
      if phaseOver y.phase ((s.rg x.b).setWidth 32) then .ok (s.wg x.d (y.phase.setWidth 64))
      else .wait { s with me := { s.me with stage := .wWait ((s.rg x.b).setWidth 32) } } .wwait
def execWwait (x : WWaitA) (s : State) : Out := (runWwait x s).finish s

end Sys2Proof.Machine
end

