-- ==== Sys2Proof/Machine/Msg.lean ====
section
/-! DEFINITION. Messages and handlers: SEND, SENDM, HRET, the handler entries' instructions, the send queue's drain and a
message's arrival (R268 to R278, R399). -/

namespace Sys2Proof.Machine

/-- The core a position names: PKG, DIE, ROW and COL of the %core layout (R39). -/
def posPkg (a : Word) : Nat := (a.extractLsb' 24 8).toNat
def posDie (a : Word) : Nat := (a.extractLsb' 22 2).toNat
def posRow (a : Word) : Nat := (a.extractLsb' 16 6).toNat
def posCol (a : Word) : Nat := (a.extractLsb' 8 8).toNat
def posCore (a : Word) : CoreIx := coreAt (posDie a) (posRow a) (posCol a)

/-- The payload: n words from register b on. -/
def payloadWords (s : State) (b : GReg) (n : Nat) : List Word :=
  (List.range n).map fun i => if h : b.val + i < 64 then s.rg ⟨b.val + i, h⟩ else 0

/-- The waits of a release before a message. Whether they include the replies to the strand's own earlier SEND.rq is free: a reply's
entry is a pending one like any other (R235, R274), and yet replies may be taken in another order than their requests' (R288; log entry
110). -/
def sendWait (s : State) (k : State → Res) : Res :=
  let s := s.markIssue
  let waiting := s.me.ls.filter fun e => e.st == .pending || e.st == .reissued
  if !s.postedDone s.issueSeq || waiting.any (fun e => !e.req.rq) then .wait s .drain
  else if waiting.isEmpty then k s
  else
    let (n, s) := s.draw
    if Config.freeBit n then k s else .wait s .drain

/-- Enqueues a message once those waits are over and the send queue has room; SEND.T and a handler trap on a full queue (R274). -/
def enqueue (s : State) (try' : Bool) (k : State → Res) : Res :=
  sendWait s fun s =>
    if 4 ≤ s.me.sendq.length then
      if try' || s.me.origin == 1 then trapOf s 0x28 0 0 else .wait s .room
    else k s

def pushSend (s : State) (m : Msg) : State := { s with me := { s.me with sendq := s.me.sendq ++ [m] } }

/-- SEND and SEND.T; rq gives the landing tag of a request that asks for a reply. -/
def sendForm (s : State) (a b : GReg) (n : Nat) (tag : BitVec 8) (rq : Option (BitVec 16)) (try' : Bool) : Res :=
  Res.map State.sided <| memOp s fun s =>
    let ga := s.rg a
    if ga.extractLsb' 34 30 != 0 || ga.extractLsb' 3 5 != 0 then illegalHere s
    else if !s.inTeam s.me.wid (posPkg ga) || !s.dieIn s.me.part (posDie ga) then trapOf s 0x15 0 ga
    else if 159 < posCol ga then trapOf s 0x12 19 ga
    else if posPkg ga ≠ ownPkg s then trapOf s 0x12 46 ga
    else if !s.holds (posCore ga) s.me.wid then trapOf s 0x12 16 ga
    else if rq.isSome && s.me.freeEntries.isEmpty then trapOf s 0x21 0 0
    else
      enqueue s try' fun s =>
        let m : Msg := ⟨tag, payloadWords s b n, s.me.core, s.me.wid, [posCore ga], none, ga⟩
        match rq, s.me.freeEntries with
        | some t, i :: _ =>
          let me := s.me.allocate i t ⟨ga, .z64, .fabric, false, true⟩
          .ok (pushSend { s with me := me } { m with reply := some ⟨s.cur, me.gen, i, me.epoch i⟩ })
        | _, _ => .ok (pushSend s m)

def runSend (x : SendA) (s : State) : Res := sendForm s x.a x.b x.n.val x.tag none false
def execSend (x : SendA) (s : State) : Out := (runSend x s).finish s

def runSendRq (x : SendRA) (s : State) : Res := sendForm s x.a x.b x.n.val x.tag (some (tagOf (s.rg x.c) x.ltag)) false
def execSendRq (x : SendRA) (s : State) : Out := (runSendRq x s).finish s

def runSendT (x : SendTA) (s : State) : Res :=
  sendForm s x.a x.b x.n.val x.tag (if x.rq then some (tagOf (s.rg x.c) x.ltag) else none) true
def execSendT (x : SendTA) (s : State) : Out := (runSendT x s).finish s

/-- SENDM: one queue entry, one copy to every core of the rectangle (R276). An empty rectangle has no effect but MEMPTY; like every
form of its row it is a side effect (R307; log entry 53). -/
def runSendm (x : SendA) (s : State) : Res :=
  let r := s.rg x.a
  let f (lo n : Nat) : Nat := (r.extractLsb' lo n).toNat
  let (pkg, die) := (f 48 8, f 46 2)
  let (rowHi, rowLo, colHi, colLo) := (f 40 6, f 34 6, f 26 8, f 18 8)
  if r.extractLsb' 56 8 != 0 || r.extractLsb' 0 18 != 0 then illegalHere s
  else if rowHi < rowLo || colHi < colLo then .ok (s.sided.setMempty true)
  else
    memOp s fun s =>
      if !s.inTeam s.me.wid pkg || !s.dieIn s.me.part die then trapOf s 0x29 1 0
      else if 159 < colHi then trapOf s 0x29 2 0
      else
        enqueue s false fun s =>
          let rows := (List.range 64).filter fun i => decide (rowLo ≤ i) && decide (i ≤ rowHi)
          let cols := (List.range 160).filter fun i => decide (colLo ≤ i) && decide (i ≤ colHi)
          let cores := if pkg = ownPkg s then rows.flatMap fun i => cols.map fun j => coreAt die i j else []
          .ok (pushSend (s.sided.setMempty false)
            ⟨x.tag, payloadWords s x.b x.n.val, s.me.core, s.me.wid, cores, none, r⟩)
def execSendm (x : SendA) (s : State) : Out := (runSendm x s).finish s

/-! ## Handlers (R271, R275, R277) -/

/-- HRET: after the handler's own work, the reply leaves once; then the send queue drains and the strand ends. -/
def runHret (a : GReg) (s : State) : Res :=
  if s.me.origin ≠ 1 then illegalHere s
  else
    let finish (s : State) : Res := if s.me.sendq.isEmpty then .gone (s.haltStrand 0 0) else .wait s .drain
    match s.me.stage with
    | .replied => finish s
    | _ =>
      workWait s fun s =>
        let s' := match s.me.owed with
          | some r => s.reply r (s.rg a).toNat none
          | none => s
        finish { s' with me := { s'.me with owed := none, stage := .replied } }
def execHret (a : GReg) (s : State) : Out := (runHret a s).finish s

/-- Changes a handler entry of the current core. -/
def State.setHandler (s : State) (tag : BitVec 8) (f : Word → Word) : State :=
  (s.modCore s.core fun x => { x with handlers := Tab.set x.handlers tag.toNat (f (x.handler tag)) }).refresh s.core

def routeTag (s : State) (b : GReg) (imm : BitVec 8) : BitVec 8 := (s.rg b).extractLsb' 0 8 + imm

/-- HMSG: the tag's waiting messages enter the class of the new priority afresh. -/
def runHmsg (x : HMsgA) (s : State) : Res :=
  let tag := routeTag s x.b x.tag
  let old := (s.coreRec s.core).handler tag
  let new := (old &&& 0xE700000000000000) ||| (s.rg x.a &&& 0x00FFFFFFFFFFFFFF) ||| BitVec.ofNat 64 (x.prio.val * 2 ^ 59)
  let s := s.modCore s.core fun y =>
    { y with inbox := y.inbox.map fun (m : InMsg) => if m.msg.tag = tag then { m with since := none } else m }
  .ok ((s.setHandler tag fun _ => new).sided.wg x.d (entAddr old))
def execHmsg (x : HMsgA) (s : State) : Out := (runHmsg x s).finish s

def runTagen (x : TagEA) (s : State) : Res := .ok (s.setHandler (routeTag s x.b x.tag) fun e => setBit e 63 true).sided
def execTagen (x : TagEA) (s : State) : Out := (runTagen x s).finish s

def runTagdis (x : TagEA) (s : State) : Res := .ok (s.setHandler (routeTag s x.b x.tag) fun e => setBit e 63 false).sided
def execTagdis (x : TagEA) (s : State) : Out := (runTagdis x s).finish s

/-- TAGPEND: PEND stands for the messages that wait. -/
def runTagpend (x : TagPA) (s : State) : Res :=
  let tag := routeTag s x.b x.tag
  let c := s.coreRec s.core
  let n := (c.inbox.filter fun m => m.msg.tag == tag).length
  let e := setBit (c.handler tag) 62 (n != 0)
  .ok (s.sided.wg x.d ((e &&& 0xF800000000000000) ||| BitVec.ofNat 64 n))
def execTagpend (x : TagPA) (s : State) : Out := (runTagpend x s).finish s

/-! ## The network's part (R268, R270, R274) -/

/-- SEND_QUEUE_DRAIN: a strand's oldest message enters the request network, one copy for each core it is addressed to. -/
def execSendQueueDrain (k : StrandIx) (s : State) : Out :=
  match (s.strand k).sendq with
  | [] => eventStep s
  | m :: r =>
    let s := s.modStrand k fun x => { x with sendq := r }
    eventStep (s.modNet fun n => { n with msgs := n.msgs ++ m.cores.map fun c => { m with cores := [c] } })

/-- A message that a slot is free for: discarded, or made to wait (R270, R399). -/
def State.takeMsg (s : State) (c : CoreIx) (m : Msg) : State :=
  let x := s.coreRec c
  let e := x.handler m.tag
  if !s.holds c m.wid || x.linger then s.dropMsg c m
  else if entEn e && entAddr e == 0 then s.dropMsg c m
  else (s.modCore c fun x => { x with inbox := x.inbox ++ [⟨m, none, prioClass e, none, prioClass e⟩] }).refresh c

/-- MESSAGE_ARRIVAL: the n-th message in the network reaches its core; with no free inbox slot it stays in the network. -/
def execMessageArrival (n : Nat) (s : State) : Out :=
  match s.net.msgs[n]? with
  | none => eventStep s
  | some m =>
    let c := m.cores.headD 0
    if 24 ≤ (s.coreRec c).inbox.length then eventStep s
    else eventStep ((s.modNet fun x => { x with msgs := x.msgs.eraseIdx n }).takeMsg c m)

end Sys2Proof.Machine
end

