-- ==== Sys2Proof/Machine/Codelet.lean ====
section
/-! DEFINITION. Codelets and futures: descriptors, pushes, SPAWN, DEC, FUTR and FUTW (R296 to R309). Requests to a descriptor's
owner or a cell's home and their replies make one step of the strand. -/

namespace Sys2Proof.Machine

/-! ## Pushes (R297) -/

/-- A descriptor goes on its owner's ring, or waits at the owner while the ring is full; a SPAWN's acknowledgement follows
it. -/
def State.push (s : State) (p : Push) : State :=
  let x := s.coreRec p.core
  if x.wid ≠ some p.wid ∨ x.linger = true then s.modNet fun n => { n with acks := n.acks ++ p.ack.toList }
  else if x.ready.length < 256 then
    let now := s.now p.core
    (s.modCore p.core fun x => { x with ready := x.ready ++ [⟨p.off, p.wid, p.pin, 5, now, now⟩] }).modNet fun n =>
      { n with acks := n.acks ++ p.ack.toList }
  else s.modNet fun n => { n with pushes := n.pushes ++ [p] }

/-- An entry of a core's ring has freed: the oldest push that waits for it enters (R297). -/
def State.refillRing (s : State) (c : CoreIx) : State :=
  if 256 ≤ (s.coreRec c).ready.length then s
  else
    match s.net.pushes.find? fun p => p.core == c with
    | none => s
    | some p => (s.modNet fun n => { n with pushes := n.pushes.eraseP fun q => q.core == c }).push p

/-- CODELET_PUSH: the n-th push that waits enters its owner's ring once an entry is free. -/
def execCodeletPush (n : Nat) (s : State) : Out :=
  match s.net.pushes[n]? with
  | none => eventStep s
  | some p =>
    if 256 ≤ (s.coreRec p.core).ready.length then eventStep s
    else eventStep ((s.modNet fun x => { x with pushes := x.pushes.eraseIdx n }).push p)

/-- The PIN bit of the descriptor at an offset. -/
def State.descPin (s : State) (c : CoreIx) (off : Nat) : Bool := (s.word (localKey c (off + 8))).getLsbD 59

/-! ## SPAWN (R298, R299) -/

/-- The eight words are one posted write. Coming after the waits of a release, they bear a release tag of fabric scope, which is the
model's choice (R236, R241; log entry 136). -/
def spawnForm (x : SpawnA) (pin : Bool) (s : State) : Res :=
  memOp s fun s =>
    let a := s.rg x.a
    if classAddr a ≠ .own ∧ classAddr a ≠ .core then .trap s (rights 26 a)
    else
      match s.check s.ctx .store true 64 a a 64 with
      | .error t => .trap s t
      | .ok y =>
        releaseWait s fun s =>
          let n := x.n.val
          let w1 := BitVec.ofNat 64 (n * 2 ^ 60 + (if pin then 2 ^ 59 else 0)) + ((s.rg x.b).extractLsb' 0 56).setWidth 64
          let ws := [x.count.setWidth 64, w1] ++ payloadWords s x.c n
          let bytes := layBytes y.keys (packElems 64 (ws.map BitVec.toNat))
          let push := x.count == 0
          if s.ownPosted y.keys || s.pendingRead y.keys then .wait s .drain
          else if !y.loc && !s.classRoom [y.home] then .wait s .room
          else if y.loc && y.keys.any s.claimed then .wait s .loom
          else if y.loc && s.brokenLocal y.keys then .wait s .load
          else if y.away then .ok (s.discarded s.cur (blockOf s.core) a s.me.wid).sided
          else
            let sync : Option SyncTag := some ⟨.core s.core, .fabric⟩
            let off := winOff a
            let (seq, s) := s.postOne y.home y.keys
            if y.loc then
              let s := (s.meetUpsets y.keys).perform bytes sync
              let done : Ack := ⟨s.core, seq⟩
              .ok (if push then s.push ⟨s.core, off, s.me.wid, pin, some done⟩
                else s.modNet fun m => { m with acks := m.acks ++ [done] }).sided
            else
              let c := coreAt (winDie a) (winRow a) (winCol a)
              let (id, s) := s.fresh
              .ok (s.modNet fun (m : Net) => { m with reqs := m.reqs ++
                [{ id := id, core := s.core, strand := s.cur, gen := s.me.gen, seq := seq, scope := .fabric,
                   kind := .spawn bytes c off push pin, tagged := none }] }).sided

def runSpawn (x : SpawnA) (s : State) : Res := spawnForm x false s
def execSpawn (x : SpawnA) (s : State) : Out := (runSpawn x s).finish s

def runSpawnPin (x : SpawnA) (s : State) : Res := spawnForm x true s
def execSpawnPin (x : SpawnA) (s : State) : Out := (runSpawnPin x s).finish s

/-! ## DEC (R300) -/

/-- What a decrement at the owner reads: the counter, and word 1 with the PIN bit where it comes to zero. -/
def State.decKeys (s : State) (c : CoreIx) (off : Nat) : List Nat :=
  let ks := keysFrom (localKey c off) 8
  if s.mem.value ks = 1 then ks ++ keysFrom (localKey c (off + 8)) 8 else ks

/-- A decrement at the owner, an access of the current strand: the old counter, refused and counted at zero. -/
def State.decAt (s : State) (c : CoreIx) (off wid : Nat) : Nat × State :=
  let s := s.touchKeys s.cur (s.decKeys c off)
  let ks := keysFrom (localKey c off) 8
  let old := s.mem.value ks
  if old = 0 then (0, s.countCore c 0x03)
  else
    let s := s.performRmw (layBytes ks (old - 1)) none
    (old, if old = 1 then s.push ⟨c, off, wid, s.descPin c off, none⟩ else s)

/-- The core of a window or alias address that has passed its checks. -/
def State.localCore (s : State) (a : Word) : CoreIx :=
  if classAddr a = .own then s.core else coreAt (winDie a) (winRow a) (winCol a)

def runDec (x : DAImm) (s : State) : Res :=
  memOp s fun s =>
    let a := s.rg x.a + sx x.imm
    if classAddr a ≠ .own ∧ classAddr a ≠ .core then .trap s (rights 26 a)
    else
      match s.check s.ctx .rmw true 64 a a 8 with
      | .error t => .trap s t
      | .ok y =>
        releaseWait s fun s =>
          let c := s.localCore a
          if s.ownPosted y.keys || s.pendingRead y.keys then .wait s .drain
          else if y.keys.any s.claimed then .wait s .loom
          else if s.brokenLocal (s.decKeys c (winOff a)) then .wait s .load
          else if s.mem.value y.keys = 1 ∧ 256 ≤ (s.coreRec c).ready.length then .wait s .room
          else if (s.meetUpsets y.keys).sitePoisoned y then .trap (s.meetUpsets y.keys) ⟨0x60, 0, a, none, 0⟩
          else
            let (old, s) := (s.meetUpsets y.keys).decAt c (winOff a) s.me.wid
            .ok (s.sided.wg x.d (BitVec.ofNat 64 old))
def execDec (x : DAImm) (s : State) : Out := (runDec x s).finish s

/-! ## Futures (R305 to R309) -/

/-- A state word with a nonzero Res bit, or a nonzero WADDR without WAIT. -/
def cellBad (st : Word) : Bool := st.extractLsb' 56 6 != 0 || (!st.getLsbD 62 && st.extractLsb' 0 56 != 0)

/-- A cell that has passed the checks of R306: its site, value and state word. -/
def withCell (s : State) (a : Word) (k : State → Site → Word → Word → Res) : Res :=
  memOp s fun s =>
    s.walked 16 [a] fun s =>
      match (s.check s.ctx .rmw true 16 a a 16).bind fun y => noFormat a y 2 with
      | .error t => .trap s t
      | .ok y =>
        if y.away then .trap s (rights 46 a)
        else if s.ownPosted y.keys || s.pendingRead y.keys then .wait s .drain
        else if y.keys.any s.claimed then .wait s .loom
        else if s.brokenLocal y.keys then .wait s .load
        else
          let s := s.meetUpsets y.keys
          if s.sitePoisoned y then .trap s ⟨0x60, 0, a, none, 0⟩
          else
            let v := BitVec.ofNat 64 (s.mem.value (y.keys.take 8))
            let st := BitVec.ofNat 64 (s.mem.value (y.keys.drop 8))
            if cellBad st then .trap s (rights 25 a) else k (s.fold y.keys) y v st

def fabricAcq : Attr := ⟨.acq, .fabric⟩

/-- The keys of the counter of the strand's own descriptor. -/
def State.ownCount (s : State) : List Nat := keysFrom (localKey (coreAt (winDie s.me.desc) (winRow s.me.desc) (winCol s.me.desc))
  (winOff s.me.desc)) 8

/-- What a DEC of the strand's own descriptor reads. -/
def State.ownDec (s : State) : List Nat :=
  s.decKeys (coreAt (winDie s.me.desc) (winRow s.me.desc) (winCol s.me.desc)) (winOff s.me.desc)

/-- The squash of an empty cell's reader, its first step: the counter of the strand's own descriptor rises at its owner, and the
strand waits for the reply (R308). An owner that no longer holds the weave, as of a stolen codelet, answers with access rights,
subcode 16, at the descriptor: the spec is silent there (log entry 111). -/
def squash (s : State) (a st : Word) : Res :=
  if s.me.origin ≠ 3 then trapOf s 0x32 1 a
  else if s.me.side then trapOf s 0x32 0 a
  else if st.getLsbD 62 then trapOf s 0x31 0 a
  else
    let d := s.me.desc
    let c := coreAt (winDie d) (winRow d) (winCol d)
    if !s.holds c s.me.wid then .trap s (rights 16 d)
    else
      let ks := s.ownCount
      if ks.any s.claimed then .wait s .loom
      else if s.brokenLocal ks then .wait s .load
      else
        let s := (s.meetUpsets ks).performRmw (layBytes ks (s.mem.value ks + 1)) none
        .wait { s with me := { s.me with stage := .cntUp } } .load

/-- The squashed strand ends: nothing of it remains. -/
def State.endSquash (s : State) : Res := .gone ((s.dropStrand s.cur 0).coreLeft s.core 0)

/-- The counter falls again without a push. -/
def State.lowerCount (s : State) : State := (s.meetUpsets s.ownCount).performRmw (layBytes s.ownCount (s.mem.value s.ownCount - 1)) none

/-- The squash's second step, at the cell: a cell filled meanwhile sends the descriptor a DEC, one that another waiter has taken
raises future busy, and an empty one takes the descriptor (R308). A check that fails only now lowers the counter as well. -/
def registerWaiter (s : State) (a : Word) : Res :=
  let no (s : State) (t : Trap) : Res :=
    if s.me.tr.st = .running then heldTrap s.lowerCount t else .trap s.lowerCount t
  if s.ownCount.any s.claimed then .wait s .loom
  else
    match (s.check s.ctx .rmw true 16 a a 16).bind fun y => noFormat a y 2 with
    | .error t => no s t
    | .ok y =>
      if y.keys.any s.claimed then .wait s .loom
      else if s.brokenLocal (y.keys ++ s.ownDec) then .wait s .load
      else
        let s := s.meetUpsets y.keys
        if s.sitePoisoned y then no s ⟨0x60, 0, a, none, 0⟩
        else
          let s := s.fold y.keys
          let st := BitVec.ofNat 64 (s.mem.value (y.keys.drop 8))
          let d := s.me.desc
          if cellBad st then no s (rights 25 a)
          else if st.getLsbD 63 then
            (s.decAt (coreAt (winDie d) (winRow d) (winCol d)) (winOff d) s.me.wid).2.endSquash
          else if st.getLsbD 62 then no s ⟨0x31, 0, a, none, 0⟩
          else
            (s.performRmw (layBytes (y.keys.drop 8) (2 ^ 62 + d.toNat % 2 ^ 56)) none).endSquash

def runFutr (x : FutRA) (s : State) : Res :=
  let a := s.rg x.a + sx x.ofs
  match s.me.stage with
  | .cntUp => registerWaiter s a
  | .orphaned u => if s.me.tr.st = .running then .wait s .treadle else .trap s u
  | _ =>
    withCell s a fun s y v st =>
      if st.getLsbD 63 then .ok ((s.noteTags fabricAcq (s.tagsOf y.keys)).wg x.d v) else squash s a st
def execFutr (x : FutRA) (s : State) : Out := (runFutr x s).finish s

def runFutrT (x : FutRtA) (s : State) : Res :=
  withCell s (s.rg x.a + sx x.ofs) fun s y v st =>
    if st.getLsbD 63 then .ok (((s.noteTags fabricAcq (s.tagsOf y.keys)).wg x.d v).wp x.p true)
    else .ok ((s.wg x.d 0).wp x.p false)
def execFutrT (x : FutRtA) (s : State) : Out := (runFutrT x s).finish s

/-- The DEC that a cell's home sends to the waiter it names; an address that fails the checks of R299 and R300 takes none. -/
def State.decWaiter (s : State) (w : Word) : State :=
  match s.check s.ctx .rmw true 64 w w 8 with
  | .error _ => s
  | .ok y => if y.away then s else (s.decAt (s.localCore w) (winOff w) s.me.wid).2

/-- Whether a claim holds back the DEC to the waiter that a cell names (R160). -/
def State.waiterClaimed (s : State) (w : Word) : Bool :=
  match s.check s.ctx .rmw true 64 w w 8 with
  | .error _ => false
  | .ok y => y.keys.any s.claimed || s.brokenLocal (s.decKeys (s.localCore w) (winOff w))

/-- The core-window address that a cell's state word names. -/
def waiterAddr (st : Word) : Word := 0xFE00000000000000 ||| (st &&& 0x00FFFFFFFFFFFFFF)

/-- FUTW: value and state change as one step, and a registered waiter's counter is decremented. -/
def runFutw (x : DABImm) (s : State) : Res :=
  withCell s (s.rg x.a + sx x.imm) fun s y _ st =>
    releaseWait s fun s =>
      if st.getLsbD 63 then .ok (s.sided.wg x.d 0)
      else if st.getLsbD 62 && s.waiterClaimed (waiterAddr st) then .wait s .loom
      else
        let bs := layBytes (y.keys.take 8) (s.rg x.b).toNat ++ layBytes (y.keys.drop 8) (2 ^ 63)
        let s := s.perform bs (some ⟨.core s.core, .fabric⟩)
        let s := if st.getLsbD 62 then s.decWaiter (waiterAddr st) else s
        .ok (s.sided.wg x.d 1)
def execFutw (x : DABImm) (s : State) : Out := (runFutw x s).finish s

end Sys2Proof.Machine
end

