-- ==== Sys2Proof/Machine/Copy.lean ====
section
/-! DEFINITION. The copy engine and slot rings: commands and their checks, the mapping of elements, COPY_COMMAND, and the ring
forms (R311 to R318). -/

namespace Sys2Proof.Machine

/-! ## Slot rings (R315 to R318) -/

def State.ring (s : State) (wid blk idx : Nat) : Option Ring :=
  s.rings.find? fun r => r.wid == wid && r.blk == blk && r.idx == idx

def State.setRing (s : State) (q : Ring) : State :=
  { s with rings := (s.rings.filter fun r => !(r.wid == q.wid && r.blk == q.blk && r.idx == q.idx)) ++ [q] }

/-- The ring a handle names. -/
def State.ringOf (s : State) (h : Word) : Except Trap Ring :=
  match s.engine h recRing with
  | .error t => .error t
  | .ok (blk, idx) =>
    match s.ring s.me.wid blk idx with
    | none => .error (rights 20 h)
    | some r =>
      if r.poisoned then .error (rights 38 h)
      else if hM h || hMem h != 0 || r.chk != hChk h then .error (rights 20 h)
      else .ok r

def Ring.filled (r : Ring) (n : BitVec 32) : Bool := phaseOver r.wp n
def Ring.held (r : Ring) (n : BitVec 32) : Bool := r.filled n && decide ((n - r.rp).toNat < r.size)
def Ring.slot (r : Ring) (n : BitVec 32) : Option RingSlot := r.slots.find? fun x => x.pos == n.toNat % r.size
def Ring.isReleased (r : Ring) (n : BitVec 32) : Bool := ((r.slot n).map (·.released)).getD false

/-- RP passes every consecutive released slot. -/
def Ring.advance (r : Ring) : Nat → Ring
  | 0 => r
  | k + 1 => if r.held r.rp && r.isReleased r.rp then Ring.advance { r with rp := r.rp + 1 } k else r

def Ring.setSlot (r : Ring) (x : RingSlot) : Ring := { r with slots := (r.slots.filter fun y => y.pos != x.pos) ++ [x] }

/-- A command's completion fills the slot numbered WP and gives back its reservation. -/
def Ring.fill (r : Ring) (status : Word) (sync : Option SyncTag) : Ring :=
  { r.setSlot ⟨r.wp.toNat % r.size, status, false, sync⟩ with wp := r.wp + 1, res := r.res - 1 }

/-- Whether a stage sleeps in AWAITF on a ring, and for which slot. -/
def Stage.onRingOf (r : Ring) : Stage → Option (BitVec 32)
  | .onRing b i n => if b = r.blk ∧ i = r.idx then some n else Option.none
  | _ => Option.none

/-- Strands asleep in AWAITF on a ring. -/
def State.ringSleepers (s : State) (r : Ring) : Nat :=
  (s.allStrands.filter fun k => (s.strand k).wid == r.wid && ((s.strand k).stage.onRingOf r).isSome).length

/-- The fill of the slot numbered WP wakes the strands that sleep on it, each with its status and release tag (R317, R318). -/
def State.fillRing (s : State) (r : Ring) (status : Word) (sync : Option SyncTag) : State :=
  s.allStrands.foldl (fun s k =>
    if (s.strand k).wid == r.wid then
      s.modStrand k (·.rewait fun st => if st.onRingOf r = some r.wp then some (.ringDone status sync.toList) else none)
    else s) (s.setRing (r.fill status sync))

def runRinginit (x : DAB) (s : State) : Res :=
  Res.map State.sided <|
    let h := s.rg x.a
    match s.engine h recRing with
    | .error t => .trap s t
    | .ok (blk, idx) =>
      let old := s.ring s.me.wid blk idx
      let size := ((s.rg x.b).extractLsb' 0 9).toNat
      if hChk h != 0 || hM h || hMem h != 0 then .trap s (rights 20 h)
      else if (old.map (·.poisoned)).getD false then .trap s (rights 38 h)
      else if size = 0 ∨ 256 < size then .trap s (rights 29 h)
      else if old.any fun r => r.res != 0 || s.ringSleepers r != 0 then .trap s (rights 21 h)
      else
        let (n, s) := s.draw
        let chk := Config.freeChk n
        let asks := (old.map (·.asks)).getD []
        let r : Ring := ⟨s.me.wid, blk, idx, chk, size, 0, 0, 0, [], asks, false⟩
        .ok ((s.setRing r).wg x.d (fullHandle h chk))
def execRinginit (x : DAB) (s : State) : Out := (runRinginit x s).finish s

/-- AWAITF wakes only on the fill of its slot; a slot filled under REL makes it a synchronising read (R238). -/
def runAwaitf (x : DAB) (s : State) : Res :=
  Res.map State.sided <|
    let h := s.rg x.a
    let n := (s.rg x.b).setWidth 32
    match s.me.stage with
    | .ringDone w ts => .ok ((s.noteTags fabricAcq ts).wg x.d w)
    | _ =>
      match s.ringOf h with
      | .error t => .trap s t
      | .ok r =>
        if !r.filled n then .wait { s with me := { s.me with stage := .onRing r.blk r.idx n } } .awaitf
        else
          match r.slot n with
          | some y =>
            if !r.held n || y.released then .trap s (rights 27 h)
            else .ok ((s.noteTags fabricAcq y.sync.toList).wg x.d y.status)
          | none => .trap s (rights 27 h)
def execAwaitf (x : DAB) (s : State) : Out := (runAwaitf x s).finish s

def runRelslot (x : AB) (s : State) : Res :=
  Res.map State.sided <| signalOp s fun s =>
    let h := s.rg x.a
    let n := (s.rg x.b).setWidth 32
    match s.ringOf h with
    | .error t => .trap s t
    | .ok _ =>
      releaseWait s fun s =>
        match s.ringOf h with
        | .error t => .trap s t
        | .ok r =>
          match r.slot n with
          | some y =>
            if !r.held n || y.released then .trap s (rights 28 h)
            else .ok (s.setRing ((r.setSlot { y with released := true }).advance 257))
          | none => .trap s (rights 28 h)
def execRelslot (x : AB) (s : State) : Out := (runRelslot x s).finish s

def runRingstat (x : DA) (s : State) : Res :=
    match s.ringOf (s.rg x.a) with
    | .error t => .trap s t
    | .ok r => .ok (s.wg x.d (r.wp ++ r.rp))
def execRingstat (x : DA) (s : State) : Out := (runRingstat x s).finish s

def runRingstatCfg (x : DA) (s : State) : Res :=
    match s.ringOf (s.rg x.a) with
    | .error t => .trap s t
    | .ok r => .ok (s.wg x.d (BitVec.ofNat 64 (r.size + r.res * 2 ^ 16 + s.ringSleepers r * 2 ^ 32)))
def execRingstatCfg (x : DA) (s : State) : Out := (runRingstatCfg x s).finish s

/-! ## Commands (R311) -/

/-- The fields of a command word by word. -/
structure CopyDesc where
  src : Word
  dst : Word
  dside : Bool
  ddim : Nat
  dd : Bool
  scope : Nat
  rel : Bool
  acq : Bool
  dims : Nat
  esz : Nat
  ext : List Nat
  ss : List Int
  ds : List Int
  lbase : Nat
  blk : Nat
  rowHi : Nat
  rowLo : Nat
  colHi : Nat
  colLo : Nat
  deriving DecidableEq, Repr

def copyDesc (ws : List Word) : CopyDesc :=
  let w (k : Nat) : Word := ws.getD k 0
  let f (k lo n : Nat) : Nat := ((w k).extractLsb' lo n).toNat
  let st (k lo : Nat) : Int := ((w k).extractLsb' lo 32).toInt
  let esz := 2 ^ f 2 16 2
  { src := w 0, dst := w 1, dside := (w 2).getLsbD 28, ddim := f 2 26 2, dd := (w 2).getLsbD 25, scope := f 2 22 3,
    rel := (w 2).getLsbD 21, acq := (w 2).getLsbD 20, dims := f 2 18 2 + 1, esz := esz,
    ext := [f 3 0 16, f 3 16 16, f 3 32 16, f 3 48 16],
    ss := [esz, st 4 0, st 4 32, st 5 0], ds := [esz, st 5 32, st 6 0, st 6 32],
    lbase := f 7 47 17, blk := f 7 31 16, rowHi := f 7 25 6, rowLo := f 7 19 6, colHi := f 7 11 8, colLo := f 7 3 8 }

/-- A malformed command, or one whose rectangle is empty. -/
def copyBad (ws : List Word) : Bool :=
  let d := copyDesc ws
  let w2 := ws.getD 2 0
  let w7 := ws.getD 7 0
  w2.extractLsb' 29 35 != 0 || w2.extractLsb' 0 16 != 0 || decide (5 < d.scope) || decide (d.dims ≤ d.ddim)
    || (List.range 4).any (fun k => if k < d.dims then d.ext.getD k 0 == 0 else d.ext.getD k 0 != 1)
    || (if d.dd then
        (if d.dside then d.src != 0 else d.dst != 0) || d.blk == 0 || decide (0x17FFF < d.lbase) || w7.extractLsb' 0 3 != 0
          || decide (d.rowHi < d.rowLo) || decide (d.colHi < d.colLo)
      else w7 != 0)

def scopeCode : Scope → Nat
  | .core => 0 | .tile => 1 | .block => 2 | .die => 3 | .package => 4 | .fabric => 5

/-- A SCOPE prefix replaces SCOPE and the flags; ordering code 0 keeps the flags (R313). -/
def scopedCopy (ws : List Word) (p : Option ScopePfx) : List Word :=
  match p with
  | none => ws
  | some q =>
    let w2 := ws.getD 2 0
    let fl : Word := match q.ord with
      | .own => w2 &&& 0x300000
      | .acq => 0x100000
      | .rel => 0x200000
      | .acqRel => 0x300000
    ws.set 2 ((w2 &&& ~~~0x1F00000#64) ||| fl ||| BitVec.ofNat 64 (scopeCode q.scope * 2 ^ 22))

/-! ## COPY (R313) -/

/-- COPY. Passes that touch no memory do not hold it, and vs is read as it stands then: a copy's row of R141 names memory entries alone,
which is the model's reading (R313; log entry 128). -/
def runCopy (x : CopyA) (s : State) : Res :=
  Res.map State.sided <| memOp s fun s =>
    let ws := (elems 64 (s.rv x.v)).map (BitVec.ofNat 64)
    let h := s.rg x.b
    if copyBad ws then illegalHere s
    else
      match s.ringOf h with
      | .error t => .trap s t
      | .ok _ =>
        let t := tileOf s.core
        if 16 ≤ (s.tileRec t).copyq.length then .wait s .copy
        else
          let ld := (s.me.ls.filter LEntry.waiting).map fun e => (e.idx, s.me.epoch e.idx)
          let c : CopyCmd :=
            { words := scopedCopy ws x.sc, ring := h, core := s.core, strand := s.cur, wid := s.me.wid, part := s.me.part,
              sys := s.me.sys, seq := (s.coreRec s.core).nextSeq, ld := ld, gen := s.me.gen, reserved := false,
              bad := false, late := none }
          .ok (s.modTile t fun u => { u with copyq := u.copyq ++ [c] })
def execCopy (x : CopyA) (s : State) : Out := (runCopy x s).finish s

/-! ## Elements (R312) -/

/-- The index tuples of a command in linear order. -/
def copyIndices (d : CopyDesc) : List (List Nat) :=
  let r (k : Nat) := List.range (d.ext.getD k 1)
  (r 3).flatMap fun i3 => (r 2).flatMap fun i2 => (r 1).flatMap fun i1 => (r 0).map fun i0 => [i0, i1, i2, i3]

def dotSum (ix : List Nat) (st : List Int) : Int := (ix.zip st).foldl (fun t (i, x) => t + i * x) 0

/-- An element's address on a side that is not distributed. -/
def plainAddr (b : Word) (st : List Int) (ix : List Nat) : Word := b + BitVec.ofInt 64 (dotSum ix st)

/-- An element's address on the distributed side; an offset that no window address can hold is a hole of the window. -/
def distAddr (pkg die : Nat) (d : CopyDesc) (st : List Int) (ix : List Nat) : Word :=
  let w := d.colHi - d.colLo + 1
  let m := w * (d.rowHi - d.rowLo + 1)
  let x := ix.getD d.ddim 0
  let c := x / d.blk
  let core := c % m
  let lx := c / m * d.blk + x % d.blk
  let off := d.lbase + dotSum (ix.set d.ddim lx) st
  let off := if 0 ≤ off ∧ off < 2 ^ 24 then off.toNat else 0xFFFFFF
  BitVec.ofNat 64 (0xFE * 2 ^ 56 + pkg * 2 ^ 40 + die * 2 ^ 38 + (d.rowLo + core / w) * 2 ^ 32 + (d.colLo + core % w) * 2 ^ 24
    + off)

/-- One element: its number, source and destination addresses, and its run's first destination address. -/
structure CopyElem where
  ix : Nat
  src : Word
  dst : Word
  run : Word
  deriving DecidableEq, Repr

def copyElems (pkg die : Nat) (d : CopyDesc) : List CopyElem :=
  let sa := if d.dd && d.dside then distAddr pkg die d d.ss else plainAddr d.src d.ss
  let da := if d.dd && !d.dside then distAddr pkg die d d.ds else plainAddr d.dst d.ds
  let is := copyIndices d
  (is.zip (List.range is.length)).map fun (i, n) => ⟨n, sa i, da i, da (i.set 0 0)⟩

/-! ## COPY_COMMAND (R314) -/

def copyStatus (ix : Nat) (dst : Bool) (t : Trap) : Word :=
  BitVec.ofNat 64 (ix * 2 ^ 24 + (if dst then 2 ^ 16 else 0) + t.sub.toNat * 256 + t.cause.toNat)

/-- An element with its sites. -/
structure CopyPart where
  ix : Nat
  src : Site
  dst : Site
  deriving DecidableEq, Repr

/-- The checks of every element, in order: the lowest failing one's status. An element that fails on both sides reports its source,
which is the model's choice (log entry 127). -/
def State.copyCheck (s : State) (x : Ctx) (d : CopyDesc) : List CopyElem → Except Word (List CopyPart)
  | [] => .ok []
  | e :: r =>
    match s.check x .load false d.esz e.src e.src d.esz with
    | .error t => .error (copyStatus e.ix false t)
    | .ok ys =>
      match s.check x .store false d.esz e.dst e.dst d.esz with
      | .error t => .error (copyStatus e.ix true t)
      | .ok yd =>
        let shape := match yd.fmt with
          | none => true
          | some (f, _, _) => d.esz == 2 && e.run.toNat % fmtBlock f == 0 && 2 * d.ext.getD 0 1 % fmtBlock f == 0
        let zero := match yd.fmt with
          | none => false
          | some (f, _, off) => decide (fmtZero f ≤ off)
        if !shape then .error (copyStatus e.ix true ⟨0x17, 1, e.dst, none, 0⟩)
        else if zero then .error (copyStatus e.ix true ⟨0x17, 3, e.dst, none, 0⟩)
        else (State.copyCheck s x d r).map fun ps => ⟨e.ix, ys, yd⟩ :: ps

/-- The words a format page's block is written to: its codes and its scale byte. -/
def blockKeys (f frame off : Nat) : List Nat := fmtKeys f frame off (fmtBlock f)

/-- Whether an element's write meets an uncorrectable word that it does not replace whole (R314, R397). -/
def State.dstGone (s : State) (y : Site) : Bool :=
  match y.fmt with
  | none => decide (y.n < 8) && y.keys.any s.poisoned
  | some (f, frame, off) => (blockKeys f frame (off / fmtBlock f * fmtBlock f)).any s.poisoned

/-- Writes the elements in order, blocks of a format page whole. -/
def State.copyWrite (s : State) (c : CopyCmd) : Nat → List (Site × Nat) → State
  | 0, _ => s
  | _, [] => s
  | k + 1, (y, v) :: r =>
    match y.fmt with
    | none =>
      if y.away then State.copyWrite (s.discarded c.strand (blockOf c.core) y.addr c.wid) c k r
      else State.copyWrite (s.landWrite c.strand (layBytes y.keys v) none c.wid) c k r
    | some (f, frame, off) =>
      let n := fmtBlock f / 2
      let vals := v :: (r.take (n - 1)).map (·.2)
      if vals.length < n then s
      else
        let (bs, _, _) := fmtEncode s.mem .nearestEven 0 f frame off vals
        State.copyWrite (s.landWrite c.strand bs none c.wid) c k (r.drop (n - 1))

/-- The keys an element's write reaches. -/
def Site.writeKeys (y : Site) : List Nat :=
  match y.fmt with
  | none => y.keys
  | some (f, frame, off) => blockKeys f frame (off / fmtBlock f * fmtBlock f)

/-- The position that a command's log records bear: its issuing strand's (R402). -/
def State.copyPos (s : State) (c : CopyCmd) : Word := s.posOf (coreOf c.strand) (slotOf c.strand)

/-- Upsets of the words that the walks of a command's elements read are met (R379, R396, R397). -/
def State.meetCopyWalks (s : State) (c : CopyCmd) (x : Ctx) (es : List CopyElem) : State :=
  if s.upsets.isEmpty && s.exact.isEmpty then s
  else
    let walk (s : State) (a : Word) : State := s.meetWalkAs s c.wid (s.copyPos c) x a
    es.foldl (fun s e => walk (walk s e.src) e.dst) s

/-- What the engine reads of a command once its slot is reserved and its waits are over: the status, what it will write, and the
state. The first element that meets an uncorrectable word ends it; the elements before it are written (R199, R314). -/
def State.readCopy (s : State) (c : CopyCmd) : Word × List (Nat × Site × Nat) × State :=
  let d := copyDesc c.words
  let x : Ctx := ⟨c.core, c.part, s.rootOf c.wid, c.wid, c.sys⟩
  if c.bad then (copyStatus 0 false ⟨0x60, 0, 0, none, 0⟩, [], s)
  else
    let es := copyElems (ownPkg s) (dieOf c.core) d
    let s := s.meetCopyWalks c x es
    match s.copyCheck x d es with
    | .error st => (st, [], s)
    | .ok ps =>
      let s := s.meetUpsetsAs c.wid (s.copyPos c) (ps.flatMap fun p => p.src.readKeys ++ p.dst.writeKeys)
      let good := ps.takeWhile fun p => !s.sitePoisoned p.src && !s.dstGone p.dst
      let writes := good.map fun p => (p.ix, p.dst, s.readSite p.src)
      let s := s.fold (good.flatMap fun p => p.src.readKeys)
      match ps[good.length]? with
      | some p => (copyStatus p.ix (!s.sitePoisoned p.src) ⟨0x60, 0, 0, none, 0⟩, writes, s)
      | none => (0, writes, s)

/-- The wait of the ACQ flag (R235, R238). -/
def State.copyAcquired (s : State) (c : CopyCmd) : Bool :=
  !(copyDesc c.words).acq ||
    ((s.coreRec c.core).posted.all (fun p => decide (c.seq ≤ p.seq)) &&
      (let x := s.strand c.strand
       x.gen != c.gen || c.ld.all fun (i, e) => !(x.ls.any fun y => y.idx == i && y.waiting) || x.epoch i != e))

/-- Whether a claim of a tile holds back one of the command's writes (R160), or a core whose memory it reaches is about to be
quarantined. -/
def State.copyHeld (s : State) (c : CopyCmd) : Bool :=
  let d := copyDesc c.words
  let x : Ctx := ⟨c.core, c.part, s.rootOf c.wid, c.wid, c.sys⟩
  let es := copyElems (ownPkg s) (dieOf c.core) d
  ((s.tiles.any fun (_, t) => !t.claims.isEmpty) || !s.upsets.isEmpty) &&
    es.any fun e =>
      (match s.check x .store false d.esz e.dst e.dst d.esz with
      | .ok y => y.keys.any s.claimed || s.brokenLocal y.keys
      | .error _ => false) ||
      match s.check x .load false d.esz e.src e.src d.esz with
      | .ok y => s.brokenLocal y.readKeys
      | .error _ => false

/-- The scope of a command's release flag. -/
def copyScope (d : CopyDesc) : Scope :=
  match d.scope with
  | 0 => .core | 1 => .tile | 2 => .block | 3 => .die | 4 => .package | _ => .fabric

/-- A lingering core is released once its posted writes of the weave are acknowledged and its tile's copies have filled their
slots (R366). -/
def State.lingerDone (s : State) (c : CoreIx) : State :=
  let x := s.coreRec c
  match x.wid with
  | some w =>
    if x.linger && !(x.posted.any fun p => p.wid == w) && !((s.tileRec (tileOf c)).copyq.any fun q => q.wid == w) then
      s.releaseCore c
    else s
  | none => s

/-- The head of a tile's queue is over. -/
def State.popCopy (s : State) (t : Nat) : State :=
  let s := s.modTile t fun u => { u with copyq := u.copyq.drop 1 }
  (List.range 16).foldl (fun s m => s.lingerDone (tileCore t m)) s

/-- A command with its slot reserved and its waits over: it reads, writes and fills its slot. With the release flag the writes come
before the fill, which is their release. Without it an AWAITF orders nothing: the writes come before the fill or may be seen only after
it, as a free value has it (R238, R257, R314; log entry 133). -/
def State.runCopy (s : State) (t : Nat) (c : CopyCmd) (r : Ring) : State :=
  let d := copyDesc c.words
  let (st, ws, s) := s.readCopy c
  let (n, s) := if d.rel then (0, s) else s.draw
  if d.rel || Config.freeBit n || ws.isEmpty then
    ((s.copyWrite c (ws.length + 1) (ws.map (·.2))).fillRing r st
      (if d.rel then some ⟨.engine t, copyScope d⟩ else none)).popCopy t
  else (s.fillRing r st none).modTile t fun u => { u with copyq := { c with late := some (ws.map (·.2)) } :: u.copyq.drop 1 }

/-- The writes of a command that has filled its slot are seen only now, but were made before the fill, whose status reports every error
they met (R314): one that has arisen in their words since is not theirs to meet. -/
def State.copyLate (s : State) (t : Nat) (c : CopyCmd) (ws : List (Site × Nat)) : State :=
  let u := { s with upsets := [] }.copyWrite c (ws.length + 1) ws
  { u with upsets := s.upsets }.popCopy t

/-- The engine's turn at its head command: it asks for a slot, and is granted one in the order of asking (R317); it waits; it
performs the command. -/
def State.copyTurn (s : State) (t : Nat) (c : CopyCmd) (r : Ring) : State :=
  let first := r.asks.all (· == t) || r.asks.head? == some t
  let room := decide ((r.wp - r.rp).toNat + r.res < r.size)
  if !c.reserved && !(first && room) then
    if r.asks.contains t then s else s.setRing { r with asks := r.asks ++ [t] }
  else
    let r' : Ring := if c.reserved then r else { r with res := r.res + 1, asks := r.asks.filter (· != t) }
    let s := (s.setRing r').modTile t fun u => { u with copyq := { c with reserved := true } :: u.copyq.drop 1 }
    if !s.copyAcquired c || s.copyHeld c then s else s.runCopy t c r'

/-- COPY_COMMAND: a tile's engine goes on with the command at the head of its queue. The ring that its handle names is used as it then
stands: one initialised anew, or poisoned, since the COPY's own check is not checked again, which is the model's choice (R316; log
entry 137). -/
def execCopyCommand (t : Nat) (s : State) : Out :=
  match (s.tileRec t).copyq with
  | [] => eventStep s
  | c :: _ =>
    match c.late, s.ring c.wid (hDie c.ring * 160 + hBlk c.ring) (hIdx c.ring) with
    | some ws, _ =>
      if (ws.flatMap fun w => w.1.writeKeys).any s.claimed then eventStep s else eventStep (s.copyLate t c ws)
    | none, some r => eventStep (s.copyTurn t c r)
    | none, none => eventStep s

end Sys2Proof.Machine
end

