-- ==== Sys2Proof/Machine/Stream.lean ====
section
/-! DEFINITION. Streams and local queues: handles, opening, binding, sending and receiving, closing, moves with their forwarding
pointers, and orphaned ends (R335 to R347, R397, R422). A request to a home and its reply make one step of the strand. -/

namespace Sys2Proof.Machine

/-! ## Handles (R335, R422) -/

/-- The die and the BLK field a handle of a stream shows. -/
def homeOf (blk : Nat) : Nat × Nat :=
  if 10000 ≤ blk then
    let p := (blk - 10000) / 2
    (if p < 3 then 2 else 3, 160 + p)
  else (blk / 160, blk % 160)

def Stream.setEnd (y : Stream) (recv : Bool) (e : SEnd) : Stream := if recv then { y with rcv := e } else { y with snd := e }

/-- The current handle of an end. A stream that its home has freed under a bound end is kept under a number above the home's 1,024,
which a handle does not show. -/
def streamHandle (pkg : Nat) (y : Stream) (recv : Bool) : Word :=
  let e := y.sideOf recv
  let (die, blk) := homeOf y.blk
  BitVec.ofNat 64 (e.chk.toNat * 2 ^ 48 + pkg * 2 ^ 40 + die * 2 ^ 38 + blk * 2 ^ 24 + y.str % 1024 * 2 ^ 8
    + (if recv then 128 else 0) + e.gen.toNat)

/-- QCFG(p, q): whether a queue pair is enabled for a partition (R422). -/
def State.portFor (s : State) (p q part : Nat) : Bool :=
  let w := Tab.get 0 s.host.qcfg (16 * p + q)
  decide (q < 16) && w.getLsbD 2 && (w.extractLsb' 0 2).toNat == part

/-- The home's checks of a handle, in their order, up to the end's state. -/
def State.endOf (s : State) (h : Word) (dir : Option Bool) : Except Trap Stream :=
  let bad (k : BitVec 8) : Except Trap Stream := .error ⟨0x2B, k, h, none, 0⟩
  let port := hBlk h - 160
  let isPort := decide (160 ≤ hBlk h) && decide (port < 6) && hDie h == (if port < 3 then 2 else 3)
  let own := if isPort then s.portFor port (strNum h) s.me.part else s.dieIn s.me.part (hDie h)
  let blk := if isPort then portBlk port (strEnd h) else hDie h * 160 + hBlk h
  if !s.inTeam s.me.wid (hPkg h) || !own then .error ⟨0x15, 0, h, none, 0⟩
  else if h.extractLsb' 32 6 != 0 || h.extractLsb' 18 6 != 0 then bad 1
  else if hPkg h ≠ ownPkg s then .error (rights 46 h)
  else
    match (if isPort || hBlk h ≤ 159 then s.stream (streamWid s.me.wid blk) blk (strNum h) else none) with
    | none => bad 3
    | some y =>
      let e := y.sideOf (strEnd h)
      if y.poisoned then .error (rights 38 h)
      else if e.chk != hChk h || e.gen != strGen h then bad 1
      else if dir.any fun r => r != strEnd h then bad 5
      else .ok y

/-- A handle that must name an UNBOUND end. -/
def State.freeEnd (s : State) (h : Word) : Except Trap Stream :=
  match s.endOf h none with
  | .error t => .error t
  | .ok y => if (y.sideOf (strEnd h)).st = .unbound then .ok y else .error ⟨0x2B, 2, h, none, 0⟩

/-! ## What a home does with ends and items -/

/-- An end that no strand or shuttle holds any longer. -/
def SEnd.over (e : SEnd) : Bool := e.st == .closed || (e.st == .orphaned && e.place.isNone && !e.away)

def FwdPtr.serves (p : FwdPtr) (y : Stream) : Bool := p.wid == y.wid && p.blk == y.blk && p.str == y.str

/-- A stream's pointers go, and what they hold is discarded. -/
def State.dropPtrs (s : State) (y : Stream) : State :=
  let items := s.cores.flatMap fun (_, x) => (x.fwd.filter fun p => p.serves y).flatMap (·.items)
  ({ s with cores := s.cores.map fun ((c, x) : Nat × Core) =>
      if x.fwd.any fun p => p.serves y then (c, { x with fwd := x.fwd.filter fun p => !p.serves y }) else (c, x) }).dropItems y.wid items

/-- A binding of a stream under another number. -/
def QBind.rename (y : Stream) (n : Nat) (b : QBind) : QBind :=
  match b with
  | .stream blk str r h => if blk = y.blk ∧ str = y.str then .stream blk n r h else b
  | b => b

/-- The bindings of a weave's strands and shuttles, with a stream under another number. -/
def State.renameStream (s : State) (y : Stream) (n : Nat) : State :=
  let f (q : Vector QBind 8) : Vector QBind 8 := q.map (QBind.rename y n)
  let sh (h : Shuttle) : Shuttle := if h.wid = y.wid then { h with q := f h.q } else h
  let s := s.allStrands.foldl (fun s k =>
    if streamWid (s.strand k).wid y.blk == y.wid && (s.strand k).live then s.modStrand k fun x => { x with q := f x.q } else s) s
  { s with
    streams := s.streams.map fun (x : Stream) => if x.wid == y.wid && x.blk == y.blk && x.str == y.str then { x with str := n } else x
    net := { s.net with
      shuttles := s.net.shuttles.map sh
      orphans := s.net.orphans.map fun (o : Orphan) =>
        if o.wid == y.wid && o.blk == y.blk && o.str == y.str then { o with str := n } else o }
    cores := s.cores.map fun ((c, x) : Nat × Core) => (c, { x with arrivals := x.arrivals.map sh, shed := x.shed.map sh })
    parts := s.parts.map fun ((p, x) : Nat × Part) => (p, { x with overflow := x.overflow.map sh }) }

/-- A stream's items and credits in flight go with it: none reaches the next stream of its number (R341, R344). -/
def State.dropFlight (s : State) (y : Stream) : State :=
  let mine (k : ItemPkt) : Bool := k.wid == y.wid && k.blk == y.blk && k.str == y.str
  let items := (s.net.items.filter mine).map (·.item)
  (s.modNet fun n => { n with
    items := n.items.filter fun k => !mine k
    credits := n.credits.filter (· != (y.wid, y.blk, y.str)) }).dropItems y.wid items

/-- A stream leaves its home: nothing of it stays, in flight or at rest. -/
def State.removeStream (s : State) (y : Stream) : State :=
  let s := (s.dropPtrs y).dropFlight y
  { s with
    streams := s.streams.filter fun (x : Stream) => !(x.wid == y.wid && x.blk == y.blk && x.str == y.str)
    net := { s.net with orphans := s.net.orphans.filter fun o => !(o.wid == y.wid && o.blk == y.blk && o.str == y.str) } }

/-- A stream whose ends are both CLOSED or ORPHANED is freed at its home, with its pointers (R336). Where a strand still
holds an end, what it holds stays readable to it under a number of its own (R344). -/
def State.freeStream (s : State) (y : Stream) : State :=
  if y.snd.over && y.rcv.over then s.removeStream y
  else if y.snd.ended && y.rcv.ended && decide (y.str < 1024) then
    let (id, s) := ((s.dropPtrs y).dropFlight y).fresh
    s.renameStream y (y.str + 1024 * (id + 1))
  else s

/-- Items set out for a place, or for the home. -/
def State.sendItems (s : State) (y : Stream) (dest : Option Nat) (is : List Item) : State :=
  s.modNet fun n => { n with items := n.items ++ is.map fun i => ⟨y.wid, y.blk, y.str, dest, i⟩ }

/-- The cores that hold a forwarding pointer of a stream. -/
def State.ptrCores (s : State) (y : Stream) : List CoreIx :=
  s.cores.filterMap fun (c, x) => if x.fwd.any fun p => p.serves y then some c else none

/-- A receive end leaves a core: the pointer it leaves there takes the items held. cut is set where the send end learns of it
at once. -/
def State.leavePtr (s : State) (c : CoreIx) (y : Stream) (cut : Option Nat) : State :=
  let p : FwdPtr := ⟨y.wid, y.blk, y.str, none, y.held, cut⟩
  s.modCore c fun x =>
    let olds := (x.fwd.filter fun q => q.serves y).flatMap (·.items)
    { x with fwd := (x.fwd.filter fun q => !q.serves y) ++ [{ p with items := olds ++ y.held }] }

/-- Whether a core can keep one more pointer for a stream (R342). -/
def State.ptrRoom (s : State) (c : CoreIx) (y : Stream) : Bool :=
  let f := (s.coreRec c).fwd
  decide (f.length < 64) || f.any fun p => p.serves y

/-- A receive end is placed: the send end learns it, waiting pointers forward, and items held at the home follow. A pointer that
the end once left at this very core gives way to it. -/
def State.placeRecv (s : State) (y : Stream) (p : Nat) : State :=
  let here := ((s.coreRec (coreOf p)).fwd.filter fun q => q.serves y).flatMap (·.items)
  let s := s.modCore (coreOf p) fun x => { x with fwd := x.fwd.filter fun (q : FwdPtr) => !q.serves y }
  let cs := s.ptrCores y
  let waiting := cs.flatMap fun c => ((s.coreRec c).fwd.filter fun q => q.serves y && q.dest.isNone).flatMap (·.items)
  let s := cs.foldl (fun s c => s.modCore c fun x =>
    { x with fwd := x.fwd.map fun (q : FwdPtr) =>
        if q.serves y && q.dest.isNone then { q with dest := some p, items := [], cut := q.cut.or (some y.ns) } else q }) s
  let e := { y.rcv with st := if cs.isEmpty && !y.rcv.away then .bound else .moving, place := some p }
  (s.setStream { y with rcv := e, toward := some p, held := y.held ++ here, home := [], moveR := none }).sendItems y (some p)
    (waiting ++ y.home)

/-- The home of a stream performs the moves that wait, the send end's first: nothing has been sent since its departure, so the cut
is the NS it carried (R343). An end stays MOVING while its shuttle is on its way (R347). -/
def State.homeMoves (s : State) (y : Stream) : State :=
  let y1 : Stream := match y.moveS with
    | some p => { y with snd := { y.snd with st := if y.snd.st = .moving ∧ y.snd.away = false then .bound else y.snd.st,
                                             place := some p },
                         moveS := none }
    | none => y
  match y1.moveR with
  | some p =>
    if y1.rcv.st = .moving then (s.setStream y1).placeRecv y1 p
    else s.setStream { y1 with moveR := none, rcv := { y1.rcv with place := some p } }
  | none => s.setStream y1

/-! ## The stream forms (R337 to R341, R344, R345) -/

def State.qreg (s : State) (q : QReg) : QBind := s.me.q[q]
def State.setQ (s : State) (q : QReg) (b : QBind) : State := { s with me := { s.me with q := s.me.q.set q b } }

def unbound (s : State) (q : QReg) (sub : BitVec 8) : Res := trapOf s 0x2C sub (BitVec.ofNat 64 q.val)

/-- The stream a q register's binding names. -/
def State.bound (s : State) (blk str : Nat) : Option Stream := s.stream (streamWid s.me.wid blk) blk str

/-- A request to a stream's home comes after the moves that wait there (R343). -/
def State.atHome (s : State) (blk str : Nat) : State :=
  match s.bound blk str with
  | some y => s.homeMoves y
  | none => s

def freshEnd (chk : BitVec 16) : SEnd := ⟨.unbound, 0, chk, none, 0, none, false⟩

def runSopen (x : SopenA) (s : State) : Res :=
  Res.map State.sided <|
    let h := s.rg x.a
    if h &&& 0xFFFF003F00FFFFFF != 0 then illegalHere s
    else if !s.inTeam s.me.wid (hPkg h) || !s.dieIn s.me.part (hDie h) then trapOf s 0x15 0 h
    else if 159 < hBlk h then .trap s (rights 19 h)
    else if hPkg h ≠ ownPkg s then .trap s (rights 46 h)
    else
      let blk := hDie h * 160 + hBlk h
      let w := s.me.wid
      let n := if s.blockHolds w blk then recStrm (s.weaveWords w) else 0
      match (List.range n).find? fun k => (s.stream w blk k).isNone with
      | none => .trap s (rights 23 h)
      | some k =>
        let (a, s) := s.draw
        let (b, s) := s.draw
        let y : Stream :=
          { wid := w, blk := blk, str := k, scope := x.scope, snd := freshEnd (Config.freeChk a),
            rcv := freshEnd (Config.freeChk b), ns := 0, nr := 0, out := 0, fin := none, lost := false, toward := none, held := [],
            home := [], moveS := none, moveR := none, poisoned := false }
        let s := { s with streams := s.streams ++ [y] }
        .ok ((s.wg x.d (streamHandle (ownPkg s) y false)).wg (x.d + 1) (streamHandle (ownPkg s) y true))
def execSopen (x : SopenA) (s : State) : Out := (runSopen x s).finish s

def runQbind (x : QBindA) (s : State) : Res :=
  Res.map State.sided <|
    let h := s.rg x.a
    if s.qreg x.q ≠ .unbound then unbound s x.q 1
    else
      match s.freeEnd h with
      | .error t => .trap s t
      | .ok y =>
        let s := s.setQ x.q (.stream y.blk y.str (strEnd h) h)
        if strEnd h then .ok (s.placeRecv y s.cur)
        else .ok (s.setStream { y with snd := { y.snd with st := .bound, place := some s.cur } })
def execQbind (x : QBindA) (s : State) : Out := (runQbind x s).finish s

def runQbindLoc (x : QBindLA) (s : State) : Res :=
  Res.map State.sided <|
    if s.qreg x.q ≠ .unbound then unbound s x.q 1 else .ok (s.setQ x.q (.loc x.lq.val x.recv))
def execQbindLoc (x : QBindLA) (s : State) : Out := (runQbindLoc x s).finish s

/-- QUNBIND gives the end a new handle; a receive end's items go to the home and a pointer stays. -/
def runQunbind (x : QDA) (s : State) : Res :=
  Res.map State.sided <|
    match s.qreg x.q with
    | .unbound => unbound s x.q 0
    | .loc _ _ => .ok ((s.setQ x.q .unbound).wg x.d 0)
    | .stream blk str recv _ =>
        let s := s.atHome blk str
        match s.bound blk str with
        | none => .ok ((s.setQ x.q .unbound).wg x.d 0)
        | some y =>
          let e := y.sideOf recv
          if y.poisoned then .trap s (rights 38 (streamHandle (ownPkg s) y recv))
          else if recv && !s.ptrRoom s.core y then .wait s .room
          else
            let (n, s) := s.draw
            let st : EState := if e.st = .orphaned then .orphaned else .unbound
            let e' : SEnd := { e with st := st, gen := e.gen + 1, chk := Config.freeChk n, place := none }
            let y' := y.setEnd recv e'
            let s := s.setQ x.q .unbound
            let s :=
              if recv then
                (s.leavePtr s.core { y with held := [] } (some y.ns)).setStream
                  { y' with toward := none, home := y.home ++ y.held, held := [] }
              else s.setStream y'
            .ok (s.wg x.d (streamHandle (ownPkg s) y' recv))
def execQunbind (x : QDA) (s : State) : Out := (runQunbind x s).finish s

def peerCode (e : SEnd) : Nat := match e.st with | .closed => 1 | .orphaned => 2 | _ => 0

/-- How many items are held in order from number n on. -/
def inOrder (is : List Item) (n : Nat) : Nat → Nat
  | 0 => 0
  | k + 1 => if is.any fun i => i.seq == n then inOrder is (n + 1) k + 1 else 0

def runQstat (x : QDA) (s : State) : Res :=
  let v := match s.qreg x.q with
    | .unbound => 0
    | .loc n recv =>
      let l := Tab.get [] (s.coreRec s.core).lq n
      2 * 2 ^ 62 + (if recv then 2 ^ 61 else 0) + (if (l.head?.map (·.2)).getD false then 2 ^ 58 else 0)
        + (16 - l.length) * 2 ^ 8 + l.length
    | .stream blk str recv _ =>
      match s.bound blk str with
      | none => 2 ^ 62 + (if recv then 2 ^ 61 else 0) + 2 * 2 ^ 59
      | some y =>
        let peer := peerCode (y.sideOf !recv)
        if recv then
          let head := (y.held.find? fun i => i.seq == y.nr).any (·.handle)
          2 ^ 62 + 2 ^ 61 + peer * 2 ^ 59 + (if head then 2 ^ 58 else 0) + inOrder y.held y.nr 32
        else 2 ^ 62 + peer * 2 ^ 59 + (32 - y.out) * 2 ^ 8
  .ok (s.sided.wg x.d (BitVec.ofNat 64 v))
def execQstat (x : QDA) (s : State) : Out := (runQstat x s).finish s

/-- A stream form on a binding whose stream is gone: only a lost peer, or a poisoned record, takes a stream from a bound end. %tval
is the handle that bound it (R113). -/
def streamGone (s : State) (h : Word) : Res := trapOf s 0x2A 2 h

/-- The strands that still wait on an end of a local queue of the core, in the order they issued (R340): one that has gone on to
something else, or to another word, is none. -/
def State.lqWaiters (s : State) : List (Nat × Bool × StrandIx × Word) :=
  (s.coreRec s.core).lqWait.filter fun e =>
    let x := s.strand e.2.2.1
    x.live && x.waiting == some (if e.2.1 then .qrecv else .qsend) && x.pc == e.2.2.2

/-- A local queue serves the strands that wait on one end of it in the order they issued (R340). -/
def lqTurn (s : State) (n : Nat) (recv ready : Bool) (k : State → Res) : Res :=
  let me := (n, recv, s.cur, s.me.pc)
  let others := s.lqWaiters.filter fun e => e.2.2.1 != s.cur
  let q := if s.lqWaiters.contains me then s.lqWaiters.filter fun e => e.2.2.1 != s.cur || e == me else others ++ [me]
  let first := (q.find? fun e => e.1 == n && e.2.1 == recv) == some me
  if ready && first then k (s.modCore s.core fun c => { c with lqWait := others })
  else .wait (s.modCore s.core fun c => { c with lqWait := q }) (if recv then .qrecv else .qsend)

/-- A sender that waits has made its .h check already: only the tests of the receive end repeat (R341). -/
def State.sending (s : State) : Bool := s.me.waiting == some .drain || s.me.waiting == some .qsend

/-- The .h mark is checked at the named end's own home. -/
def handleMark (s : State) (mark : Bool) (h : Word) (k : State → Res) : Res :=
  if !mark || s.sending then k s
  else
    match s.freeEnd h with
    | .error t => .trap s t
    | .ok _ => k s

def qsendForm (x : QSendA) (mark : Bool) (s : State) : Res :=
  Res.map State.sided <|
    match s.qreg x.q with
    | .unbound => unbound s x.q 0
    | .loc n recv =>
      signalOp s fun s =>
        if recv then
          let (k, s) := s.draw
          trapOf s 0x2B 5 (Config.freeWord k)
        else
          handleMark s mark (s.rg x.b) fun s =>
            releaseWait s fun s =>
              let l := Tab.get [] (s.coreRec s.core).lq n
              lqTurn s n false (decide (l.length < 16)) fun s =>
                .ok (s.modCore s.core fun c => { c with lq := Tab.set c.lq n (l ++ [(s.rg x.b, mark)]) })
    | .stream blk str recv bh =>
      signalOp s fun s =>
        match s.bound blk str with
        | none => streamGone s bh
        | some y =>
          let h := streamHandle (ownPkg s) y recv
          if y.poisoned then .trap s (rights 38 h)
          else if recv then trapOf s 0x2B 5 h
          else
            handleMark s mark (s.rg x.b) fun s =>
              if y.rcv.st = .closed then trapOf s 0x2A 1 h
              else if y.rcv.st = .orphaned then trapOf s 0x2A y.rcv.sub h
              else
                releaseWait s fun s =>
                  if 32 ≤ y.out then .wait s .qsend
                  else
                    let i : Item := ⟨y.ns, s.rg x.b, mark, s.core⟩
                    .ok ((s.setStream { y with ns := y.ns + 1, out := y.out + 1 }).sendItems y y.toward [i])

def runQsend (x : QSendA) (s : State) : Res := qsendForm x false s
def execQsend (x : QSendA) (s : State) : Out := (runQsend x s).finish s

def runQsendH (x : QSendA) (s : State) : Res := qsendForm x true s
def execQsendH (x : QSendA) (s : State) : Out := (runQsendH x s).finish s

def runQrecv (x : QRecvA) (s : State) : Res :=
  Res.map State.sided <|
    match s.qreg x.q with
    | .unbound => unbound s x.q 0
    | .loc n recv =>
        if !recv then
          let (k, s) := s.draw
          trapOf s 0x2B 5 (Config.freeWord k)
        else
          let l := Tab.get [] (s.coreRec s.core).lq n
          lqTurn s n true (!l.isEmpty) fun s =>
            .ok (((s.modCore s.core fun c => { c with lq := Tab.set c.lq n (l.drop 1) }).wg x.d ((l.map (·.1)).headD 0)).wp x.p true)
    | .stream blk str recv bh =>
        match s.bound blk str with
        | none => streamGone s bh
        | some y =>
          let h := streamHandle (ownPkg s) y recv
          let acq (c : CoreIx) (s : State) : State := s.noteTags ⟨.acq, y.scope⟩ [⟨.core c, y.scope⟩]
          if y.poisoned then .trap s (rights 38 h)
          else if !recv then trapOf s 0x2B 5 h
          else
            match y.held.find? fun i => i.seq == y.nr with
            | some i =>
              let s := s.setStream { y with nr := y.nr + 1, held := y.held.filter fun j => j.seq != y.nr }
              let s := s.modNet fun n => { n with credits := n.credits ++ [(y.wid, y.blk, y.str)] }
              .ok (((acq i.core s).wg x.d i.val).wp x.p true)
            | none =>
              if y.snd.st = .closed ∧ y.fin = some y.nr then
                let s := match y.snd.closer with
                  | some c => acq c s
                  | none => s
                .ok ((s.wg x.d 0).wp x.p false)
              else if y.lost ∨ (y.snd.st = .orphaned ∧ y.fin = some y.nr) then
                trapOf s 0x2A (if y.snd.st = .closed then 2 else y.snd.sub) h
              else .wait s .qrecv
def execQrecv (x : QRecvA) (s : State) : Out := (runQrecv x s).finish s

/-- An end closes: a send end's count is F, a receive end's items are discarded. -/
def State.closeEnd (s : State) (y : Stream) (recv : Bool) : State :=
  let e := { y.sideOf recv with st := .closed, place := none, closer := some s.core, away := false }
  let y' := y.setEnd recv e
  if recv then
    let y' := { y' with held := [], home := [] }
    (((s.setStream y').dropPtrs y').dropItems y.wid (y.held ++ y.home)).freeStream y'
  else
    let y' := { y' with fin := some y.ns }
    (s.setStream y').freeStream y'

/-- The close of a send end is the source of an edge: it waits as a release does (R346). -/
def closing (s : State) (recv : Bool) (k : State → Res) : Res := if recv then k s else releaseWait s k

def runSclose (q : QReg) (s : State) : Res :=
  Res.map State.sided <|
    match s.qreg q with
    | .unbound => unbound s q 0
    | .loc _ _ => .ok (s.setQ q .unbound)
    | .stream blk str recv _ =>
      signalOp s fun s =>
        let s := s.atHome blk str
        match s.bound blk str with
        | none => .ok (s.setQ q .unbound)
        | some y =>
          if y.poisoned then .trap s (rights 38 (streamHandle (ownPkg s) y recv))
          else closing s recv fun s => .ok ((s.setQ q .unbound).closeEnd y recv)
def execSclose (q : QReg) (s : State) : Out := (runSclose q s).finish s

def runScloseU (a : GReg) (s : State) : Res :=
  Res.map State.sided <| signalOp s fun s =>
    let h := s.rg a
    match s.freeEnd h with
    | .error t => .trap s t
    | .ok y => closing s (strEnd h) fun s => .ok (s.closeEnd y (strEnd h))
def execScloseU (a : GReg) (s : State) : Out := (runScloseU a s).finish s

/-! ## Departures (R347) -/

/-- A binding leaves with a shuttle for a core: the end moves, and a receive end leaves a pointer that keeps its items. -/
def State.departEnd (s : State) (b : QBind) (c target : CoreIx) : State :=
  match b with
  | .stream blk str recv _ =>
    match s.bound blk str with
    | none => s
    | some y =>
      let st (e : SEnd) : EState := if e.st = .orphaned then .orphaned else .moving
      if recv then
        (s.leavePtr c y none).setStream
          { y with rcv := { y.rcv with st := st y.rcv, place := none, away := true }, held := [], moveR := some (strandAt target 0) }
      else
        s.setStream { y with snd := { y.snd with st := st y.snd, place := none, away := true }, moveS := some (strandAt target 0) }
  | _ => s

/-- A shuttle has been placed in slot k: the moves it carried are performed if they still wait, and its ends are held there
(R347). -/
def State.arriveEnd (s : State) (k : StrandIx) (w : Nat) (b : QBind) : State :=
  match b with
  | .stream blk str recv _ =>
    match s.stream (streamWid w blk) blk str with
    | none => s
    | some y0 =>
      let s := s.homeMoves y0
      match s.stream (streamWid w blk) blk str with
      | none => s
      | some y =>
        let e := y.sideOf recv
        let free := !recv || (s.ptrCores y).isEmpty
        let st : EState := if e.st = .moving ∧ free = true then .bound else e.st
        s.setStream (y.setEnd recv { e with st := st, place := some k, away := false })
  | _ => s

/-- A shuttle goes to another core than it set out for: its ends' moves go there too. Items that wait at a quarantined core are
lost with it, and the home learns that the stream is orphaned with F unknown (R344, R347, R398, R399). -/
def State.redirectEnd (s : State) (w : Nat) (c new : CoreIx) (b : QBind) : State :=
  match b with
  | .stream blk str recv _ =>
    match s.stream (streamWid w blk) blk str with
    | none => s
    | some y =>
      let p := strandAt new 0
      let at' (d : Option Nat) : Option Nat := d.map fun q => if coreOf q = c then p else q
      if !recv then s.setStream { y with moveS := at' y.moveS, snd := { y.snd with place := at' y.snd.place } }
      else
        let dead := (s.coreRec c).quar && !y.held.isEmpty
        let s := if dead then
            (s.dropItems y.wid y.held).modNet fun n => { n with orphans := n.orphans ++ [⟨y.wid, blk, str, true, none, 2, true⟩] }
          else s
        let s := { s with cores := s.cores.map fun ((d, x) : Nat × Core) =>
          (d, { x with fwd := x.fwd.map fun (z : FwdPtr) => if z.serves y then { z with dest := at' z.dest } else z }) }
        s.setStream { y with moveR := at' y.moveR, toward := at' y.toward, rcv := { y.rcv with place := at' y.rcv.place },
                             held := if dead then [] else y.held }
  | _ => s

/-! ## Steps of the network and the homes (R341 to R344, R399) -/

/-- An item reaches a place, or the home. A quarantined core's router discards it, and the stream with it: what follows can no
longer be received in order (R344, R399). -/
def State.itemAt (s : State) (k : ItemPkt) : State :=
  match s.stream k.wid k.blk k.str with
  | none => s.dropItem k.item k.wid
  | some y =>
    if y.rcv.st = .closed ∨ y.rcv.st = .orphaned ∨ y.lost then s.dropItem k.item k.wid
    else
      match k.dest with
      | none =>
        match y.rcv.place with
        | some p => s.sendItems y (some p) [k.item]
        | none => s.setStream { y with home := y.home ++ [k.item] }
      | some p =>
        let c := coreOf p
        if (s.coreRec c).quar then
          (s.dropItem k.item k.wid).modNet fun n => { n with orphans := n.orphans ++ [⟨k.wid, k.blk, k.str, true, none, 2, true⟩] }
        else if y.rcv.place.any fun r => coreOf r == c then s.setStream { y with held := y.held ++ [k.item] }
        else
          match (s.coreRec c).fwd.find? fun q => q.serves y with
          | some q =>
            if q.dest.isSome then s.sendItems y q.dest [k.item]
            else s.modCore c fun x =>
              { x with fwd := x.fwd.map fun (z : FwdPtr) => if z.serves y then { z with items := z.items ++ [k.item] } else z }
          | none => s.sendItems y none [k.item]

def execStreamItemArrival (n : Nat) (s : State) : Out :=
  match s.net.items[n]? with
  | none => eventStep s
  | some k => eventStep ((s.modNet fun x => { x with items := x.items.eraseIdx n }).itemAt k)

/-! ## Frames that wait in an Ethernet port (R423) -/

/-- The area of a queue pair. -/
def State.ethArea (s : State) (p q : Nat) : Nat :=
  (((Tab.get 0 s.host.qcfg (16 * p + q)).extractLsb' 21 27).toNat) * 2 ^ 21

def State.pairOn (s : State) (p q : Nat) : Bool := (Tab.get 0 s.host.qcfg (16 * p + q)).getLsbD 2

/-- The core that stands for a port in orderings. -/
def portCore (p : Nat) : CoreIx := coreAt (if p < 3 then 2 else 3) 0 0

/-- The receive slot of a queue pair's item. -/
def State.rxSlot (s : State) (p q : Nat) (y : Stream) : Nat := s.ethArea p q + 16384 * (y.ns % 64)

/-- The receive stream of a queue pair that takes a frame of n bytes now: one with a credit and a slot within the host window (log
entry 115). -/
def State.pairTakes (s : State) (p q n : Nat) : Option Stream :=
  match s.stream 0 (portBlk p true) q with
  | some y =>
    if s.pairOn p q && !y.rcv.ended && decide (y.out < 32) && !y.poisoned && s.inWindow (s.rxSlot p q y) n then some y else none
  | none => none

/-- A frame goes to its slot, with an item for it. -/
def State.frameTo (s : State) (p q : Nat) (frame : List Byte) (y : Stream) : State :=
  let a := s.rxSlot p q y
  let ks := keysFrom a frame.length
  let i : Item := ⟨y.ns, BitVec.ofNat 64 (frame.length * 2 ^ 16 + y.ns % 64), false, portCore p⟩
  (((s.meetUpsetsAt (dieOf (portCore p)) ks).perform (ks.zip frame) none).setStream { y with ns := y.ns + 1, out := y.out + 1 }).sendItems
    y y.toward [i]

/-- The waiting frames of a queue pair among some go in their order, up to the first that it does not take. -/
def State.flushFrames (p q : Nat) : List (Nat × Nat × List Byte) → State → State
  | [], s => s
  | f :: r, s =>
    if f.1 ≠ p ∨ f.2.1 ≠ q then State.flushFrames p q r s
    else
      match s.pairTakes p q f.2.2.length with
      | some y => State.flushFrames p q r ({ s with framesIn := s.framesIn.erase f }.frameTo p q f.2.2 y)
      | none => s

/-- The frames that wait in a port for a queue pair go while it takes them (R423). -/
def State.flushPair (s : State) (p q : Nat) : State := State.flushFrames p q s.framesIn s

/-- STREAM_CREDIT_ARRIVAL: the send end may send one more item; a port's frame that waited for the credit goes. -/
def execStreamCreditArrival (n : Nat) (s : State) : Out :=
  match s.net.credits[n]? with
  | none => eventStep s
  | some (w, blk, str) =>
    let s := s.modNet fun x => { x with credits := x.credits.eraseIdx n }
    match s.stream w blk str with
    | none => eventStep s
    | some y =>
      let s := s.setStream { y with out := y.out - 1 }
      eventStep (if 10000 ≤ blk then s.flushPair ((blk - 10000) / 2) str else s)

/-- STREAM_MOVE: the home of the n-th stream performs its waiting moves (R343). -/
def execStreamMove (n : Nat) (s : State) : Out :=
  match s.streams[n]? with
  | none => eventStep s
  | some y => eventStep (s.homeMoves y)

/-- Whether an item numbered below a pointer's cut may still reach it. -/
def State.ptrBusy (s : State) (c : CoreIx) (p : FwdPtr) (cut : Nat) : Bool :=
  (s.net.items.any fun k => k.wid == p.wid && k.blk == p.blk && k.str == p.str && decide (k.item.seq < cut) &&
      k.dest.any fun d => coreOf d == c) ||
    s.cores.any fun (d, x) => d != c && x.fwd.any fun q =>
      q.wid == p.wid && q.blk == p.blk && q.str == p.str && q.dest.any fun e => coreOf e == c

/-- POINTER_RETIRE: the n-th pointer of a core retires once it has forwarded every item below its cut; with the last pointer
gone a moving end is bound. -/
def execPointerRetire (c : CoreIx) (n : Nat) (s : State) : Out :=
  match (s.coreRec c).fwd[n]? with
  | none => eventStep s
  | some p =>
    match p.dest, p.cut with
    | some _, some l =>
      if !p.items.isEmpty || s.ptrBusy c p l then eventStep s
      else
        let s := s.modCore c fun x => { x with fwd := x.fwd.eraseIdx n }
        match s.stream p.wid p.blk p.str with
        | none => eventStep s
        | some y =>
          if (s.ptrCores y).isEmpty && y.rcv.st == .moving && y.rcv.place.isSome && y.moveR.isNone && !y.rcv.away then
            eventStep (s.setStream { y with rcv := { y.rcv with st := .bound } })
          else eventStep s
    | _, _ => eventStep s

/-- A home takes a notice that an end's holder, or a core with one of its pointers, is gone. Once F is unknown it stays so. A later
notice's subcode replaces an earlier one's: an end orphaned as an item's, whose holder then ends, has subcode 2, which is the model's
choice (R344; log entry 138). -/
def State.orphan (s : State) (o : Orphan) : State :=
  match s.stream o.wid o.blk o.str with
  | none => s
  | some y =>
    let named := o.sub == 3
    let mark (e : SEnd) (gone : Bool) : SEnd :=
      if e.st = .closed then e
      else { e with st := .orphaned, sub := o.sub, place := if gone then none else e.place, away := e.away && !gone }
    let marked (y' : Stream) : State := (s.setStream y').freeStream y'
    if o.pointer then
      let y' := { y with snd := mark y.snd false, rcv := mark y.rcv false, lost := true, fin := none }
      ((s.setStream y').dropPtrs y').freeStream y'
    else if o.recv then
      if named && y.rcv.st != .unbound then marked { y with rcv := mark y.rcv false }
      else
        let y' := { y with rcv := mark y.rcv true, held := [], home := [], moveR := none }
        (((s.setStream y').dropPtrs y').dropItems y.wid (y.held ++ y.home)).freeStream y'
    else if y.snd.st = .closed then s
    else if named then marked { y with snd := mark y.snd false, fin := if y.lost then none else some y.ns }
    else
      let lost := y.lost || o.fin.isNone
      marked { y with snd := mark y.snd true, fin := if lost then none else o.fin, lost := lost, moveS := none }

def execStreamOrphan (n : Nat) (s : State) : Out :=
  match s.net.orphans[n]? with
  | none => eventStep s
  | some o => eventStep ((s.modNet fun x => { x with orphans := x.orphans.eraseIdx n }).orphan o)

end Sys2Proof.Machine
end

