-- ==== Sys2Proof/Machine/Shuttle.lean ====
section
/-! DEFINITION. Shuttle mode: the heddle copy, departures, what a shuttle carries, arrival queues with their shed rings and the
overflow area, heat counters, and the segment instructions (R320 to R334, R347). -/

namespace Sys2Proof.Machine

/-! ## The heddle copy (R321, R333) -/

/-- The core a replica code names; none for an unused code. -/
def codeCore (c : BitVec 16) : Option CoreIx :=
  if (c.extractLsb' 0 8).toNat = 0xFF then none
  else some (coreAt (c.extractLsb' 14 2).toNat (c.extractLsb' 8 6).toNat (c.extractLsb' 0 8).toNat)

def Segment.replicas (g : Segment) : List CoreIx := g.codes.filterMap codeCore

/-- An entry from its four words. -/
def segmentFrom (w0 w1 w2 w3 : Word) : Segment where
  codes := (List.range 8).map fun k => if k < 4 then w0.extractLsb' (16 * k) 16 else w1.extractLsb' (16 * (k - 4)) 16
  carry := w3.extractLsb' 0 24 ++ w2

/-- A CARRY field in the layout of the LIVE payload, at most 32 scalar bits set (R65). -/
def carrySet (c : BitVec 88) : Option LivePfx := (readLive (c.setWidth 96)).filter fun p => liveOk (some p)

/-- Segment k of a weave, from 1. -/
def Weave.segment (w : Weave) (k : Nat) : Option Segment := if k = 0 then none else w.heddle[k - 1]?

/-! ## Departure (R324 to R326) -/

/-- Whether a core pins a segment for a weave: one that a quarantine took from it does so no more (R398). -/
def State.pinsFor (s : State) (wid : Nat) (c : CoreIx) : Bool :=
  let x := s.coreRec c
  x.wid == some wid && x.pinSeg.isSome && !x.quar

/-- The replica of a weave's segment that a departing core chooses: the least reported occupancy, then the lowest code. A core that
has dropped out of the weave is none, whatever has become of it since. -/
def State.replica (s : State) (wid : Nat) (g : Segment) : Option CoreIx :=
  (g.replicas.filter (s.pinsFor wid)).foldl (fun best c =>
    match best with
    | none => some c
    | some b =>
      let rc := (s.coreRec c).reported
      let rb := (s.coreRec b).reported
      if rc < rb || (rc == rb && decide (c < b)) then some c else best) none

/-- The g registers of a carry set, with a link register added. -/
def carriedG (p : LivePfx) (link : Option GReg) : List GReg :=
  (List.finRange 64).filter fun r =>
    decide (r.val ≠ 0) && ((p.scal.getLsbD (r.val - 1)) || link == some r)

def carriedV (p : LivePfx) : List VReg := ([p.v0, p.v1, p.v2, p.v3].filterMap id).eraseDups

def isLocal : QBind → Bool
  | .loc _ _ => true
  | _ => false

/-- The stream ends a strand's q registers hold that need a pointer when they leave. -/
def State.recvEnds (s : State) : List Stream :=
  s.me.q.toList.filterMap fun b =>
    match b with
    | .stream blk str true _ => s.bound blk str
    | _ => none

/-- Whether a core has a pointer to spare for each receive end that would leave it (R342). -/
def State.ptrsFree (s : State) : Bool :=
  let f := (s.coreRec s.core).fwd
  let new := s.recvEnds.filter fun y => !f.any fun p => p.serves y
  decide (f.length + new.length ≤ 64)

/-- Sends a shuttle toward a core. Its number is the one that its departure gave it (R331). -/
def State.launchShuttle (s : State) (h : Shuttle) : State := s.modNet fun n => { n with shuttles := n.shuttles ++ [h] }

/-- A shuttle whose segment has no replica left that is not quarantined is held in the overflow area, or, while that is full, in the
network (R327, R398). -/
def State.holdShuttle (s : State) (h : Shuttle) : State :=
  let p := s.partOfDie (dieOf h.core)
  if (s.partRec p).overflow.length < (s.partRec p).ovs then s.modPart p fun x => { x with overflow := x.overflow ++ [h] }
  else s.launchShuttle { h with since := none }

/-- The effects of a departure. The shuttle is numbered as it becomes IN FLIGHT (R331). It carries what a fence before it left undone:
program order goes on across the journey (R229, R324, R325). The tiles of a core whose last strand departs stay as they are until the
weave leaves it, which is the model's choice (R29; log entry 120). -/
def State.depart (s : State) (t : Word) (seg : Nat) (target : CoreIx) (p : LivePfx) (link : Option GReg) : State :=
  let s := match link with
    | some d => s.wg d s.iss.next
    | none => s
  let x := s.me
  let h : Shuttle :=
    { wid := x.wid, target := t, seg := seg, core := target, g := (carriedG p link).map fun r => (r, x.readG r),
      v := (carriedV p).map fun r => (r, x.readV r), flags := x.flags, rmode := x.rmode, lsctl := x.lsctl, q := x.q,
      side := x.side, since := none, first := 0, cls := 1, order := s.order, poison := none, relFence := x.relFence,
      readTags := x.readTags }
  let s := x.q.toList.foldl (fun s b => s.departEnd b s.core target) { s with order := s.order + 1 }
  let c := s.core
  let s := if s.pinsFor x.wid target then s.launchShuttle h else s.holdShuttle h
  (s.freeSlot s.cur).refresh c

/-- JX, CALLX and RETX: BR, CALL or RET outside shuttle mode, and a departure in it. -/
def travel (s : State) (t : Word) (link : Option GReg) (live : Option LivePfx) : Res :=
  if !s.me.shm then
    (match link with
    | some d => s.wg d s.iss.next
    | none => s).transfer t false
  else
    match s.me.stage with
    | .orphaned u => if s.me.tr.st = .running then .wait s .treadle else .trap s u
    | _ =>
      let x := s.me
      let no (k : BitVec 8) : Res := trapOf s 0x3A k t
      if x.wt || x.sys then no 6
      else if x.origin == 1 then no 7
      else if !x.ls.isEmpty then no 1
      else if x.tr.st = .running then heldTrap s ⟨0x3A, 2, t, none, 0⟩
      else if x.tr.st = .recording ∨ x.tr.st = .suspended then no 2
      else if s.loomBusy then no 3
      else if x.q.toList.any isLocal then no 4
      else
        match segmentOf (s.weaveWords x.wid) t with
        | none => trapOf s 0x39 1 t
        | some k =>
          match (s.weaveOf x.wid).bind fun w => w.segment k with
          | none => trapOf s 0x39 2 t
          | some g =>
            match (s.replica x.wid g).or (g.replicas.foldl (fun b c => some (match b with | some d => min c d | none => c)) none),
              live.or (carrySet g.carry) with
            | none, _ => trapOf s 0x39 2 t
            | some c, p =>
              let p := p.getD ⟨none, none, none, none, 0⟩
              if 32 < (carriedG p link).length then no 5
              else if !x.sendq.isEmpty then .wait s .drain
              else
                fenceStWait s fun s =>
                  if !s.ptrsFree then .wait s .room else .gone (s.depart t k c p link)

def runJx (x : JxD) (s : State) : Res := travel s (targetOf s.iss.own x.disp) none x.live
def execJx (x : JxD) (s : State) : Out := (runJx x s).finish s

def runJxReg (x : JxR) (s : State) : Res := travel s (s.rg x.a) none x.live
def execJxReg (x : JxR) (s : State) : Out := (runJxReg x s).finish s

def runCallx (x : CallxD) (s : State) : Res := travel s (targetOf s.iss.own x.disp) (some x.d) x.live
def execCallx (x : CallxD) (s : State) : Out := (runCallx x s).finish s

def runCallxReg (x : CallxR) (s : State) : Res := travel s (s.rg x.a) (some x.d) x.live
def execCallxReg (x : CallxR) (s : State) : Out := (runCallxReg x s).finish s

def runRetx (x : JxR) (s : State) : Res := travel s (s.rg x.a) none x.live
def execRetx (x : JxR) (s : State) : Out := (runRetx x s).finish s

/-! ## Arrival (R325, R327, R328, R397) -/

/-- The strand a shuttle becomes in a slot. -/
def State.shuttleStrand (s : State) (k : StrandIx) (w : Weave) (h : Shuttle) : Strand :=
  let x := s.freshStrand k w 2 h.target
  let x := h.g.foldl (fun (x : Strand) ((r, v) : GReg × Word) => x.writeG r v) x
  let x := h.v.foldl (fun (x : Strand) ((r, v) : VReg × VecReg) => x.writeV r v) x
  { x with flags := h.flags, rmode := h.rmode, lsctl := h.lsctl, q := h.q, side := h.side, seg := BitVec.ofNat 64 h.seg,
           relFence := h.relFence, readTags := h.readTags }

/-- A shuttle is placed in a slot; one from the overflow area enters shuttle overflow, one whose shed-ring words were poisoned
an uncorrectable data error with every register zero. -/
def State.placeShuttle (s : State) (k : StrandIx) (h : Shuttle) (overflow : Bool) : State :=
  match s.weaveOf h.wid with
  | none => s
  | some w =>
    let c := coreOf k
    let s := s.modCore c fun x => { x with heatArr := satInc x.heatArr }
    let s := if h.poison.isSome then s.orphanEnds h.wid h.q true else h.q.toList.foldl (fun s b => s.arriveEnd k h.wid b) s
    let trapIn (x : Strand) (t : Trap) : State :=
      let s1 := ((s.occupy c).setStrand k x).switchTo k
      (s1.takeTrap { t with pc := some h.target } 0).switchTo s.cur
    match h.poison with
    | some a => trapIn (s.freshStrand k w 2 h.target) ⟨0x60, 0, a, none, 0⟩
    | none =>
      let x := s.shuttleStrand k w h
      if overflow then trapIn x ⟨0x38, 0, h.target, none, 0⟩ else s.startStrand k x

/-- SHUTTLE_ARRIVAL: the n-th shuttle in flight enters its core's arrival queue, or is seen to wait there. -/
def execShuttleArrival (n : Nat) (s : State) : Out :=
  match s.net.shuttles[n]? with
  | none => eventStep s
  | some h =>
    let c := h.core
    let x := s.coreRec c
    let now := s.now c
    if x.arrivals.length < 16 && x.shed.isEmpty && s.pinsFor h.wid c then
      let s := s.modNet fun m => { m with shuttles := m.shuttles.eraseIdx n }
      eventStep (s.modCore c fun x =>
        { x with arrivals := x.arrivals ++ [{ h with since := some now, first := now, cls := 1 }],
                 heatQmax := max x.heatQmax (x.arrivals.length + 1) })
    else
      eventStep (s.modNet fun m => { m with shuttles := m.shuttles.set n { h with since := h.since.or (some now) } })

/-! ### Shed rings (R322, R397) -/

/-- The vault bytes a pinning core's shed ring takes. -/
def shedBytes : Nat := 576 * 1024

/-- The pinning cores of a block. -/
def State.pinCores (s : State) (blk : Nat) : List CoreIx :=
  (s.cores.filter fun (c, x) => blockOf c == blk && x.pinSeg.isSome).map (·.1)

def State.pinsIn (s : State) (blk : Nat) : Nat := (s.pinCores blk).length

/-- The first storage key of a shed shuttle's record. System software reserves the rings; the model has them at the top of the
block's vault, a ring for each pinning core, and a record's entry follows from the shuttle's number (log entry 114). -/
def State.shedKey (s : State) (c : CoreIx) (h : Shuttle) : Nat :=
  let i := ((s.pinCores (blockOf c)).filter fun d => decide (d < c)).length
  vaultKey (blockOf c) (vaultSize - (i + 1) * shedBytes + 576 * (h.order % 1024))

/-- A shed ring's entry is written whole: nothing unusable stays in it. -/
def State.writeShed (s : State) (lo : Nat) : State :=
  let out (k : Nat) : Bool := !(decide (lo ≤ k) && decide (k < lo + 576))
  { s with poison := s.poison.filter out, upsets := s.upsets.filter fun u => out u.key }

/-- SHUTTLE_SHED: the n-th shuttle in flight has waited 2,048 cycles at its core and goes to the shed ring or the overflow
area; with both full it waits on. -/
def execShuttleShed (n : Nat) (s : State) : Out :=
  match s.net.shuttles[n]? with
  | none => eventStep s
  | some h =>
    match h.since with
    | none => eventStep s
    | some t =>
      let c := h.core
      let part := s.partOfDie (dieOf c)
      let out := s.modNet fun m => { m with shuttles := m.shuttles.eraseIdx n }
      if s.now c < t + 2048 then eventStep s
      else if (s.coreRec c).shed.length < 1024 && s.pinsFor h.wid c then
        eventStep ((out.writeShed (s.shedKey c h)).modCore c fun x =>
          { x with shed := x.shed ++ [h], heatShed := if x.heatShed < 65535 then x.heatShed + 1 else x.heatShed })
      else if (s.partRec part).overflow.length < (s.partRec part).ovs then
        eventStep (out.modPart part fun p => { p with overflow := p.overflow ++ [h] })
      else eventStep s

/-- SHED_REFILL: the oldest shed shuttle enters the arrival queue; one whose record holds an uncorrectable word bears the mark of
it (R397). -/
def execShedRefill (c : CoreIx) (s : State) : Out :=
  let x := s.coreRec c
  match x.shed with
  | [] => eventStep s
  | h :: r =>
    if 16 ≤ x.arrivals.length then eventStep s
    else
      let now := s.now c
      let lo := s.shedKey c h
      let s := s.meetRangeAs h.wid (s.posOf c 0) lo 576
      let bad : Option Word := if s.rangePoisoned lo 576 then some (s.keyLoc lo) else h.poison
      eventStep (s.modCore c fun x =>
        { x with shed := r, arrivals := x.arrivals ++ [{ h with since := some now, first := now, cls := 1, poison := bad }],
                 heatQmax := max x.heatQmax (x.arrivals.length + 1) })

/-- OCCUPANCY_REPORT: every 32 cycles a replica reports its arrival queue and shed ring (R326). -/
def execOccupancyReport (c : CoreIx) (s : State) : Out :=
  let now := s.now c
  if now < (s.coreRec c).report + 32 then eventStep s
  else eventStep (s.modCore c fun x => { x with report := now, reported := x.arrivals.length + x.shed.length })

/-! ## Heat and replication (R332 to R334) -/

/-- The segment bits 11:0 of ga name in the strand's own weave. -/
def withSegment (s : State) (ga : Word) (k : Segment → Res) : Res :=
  match (s.weaveOf s.me.wid).bind fun w => w.segment (ga.extractLsb' 0 12).toNat with
  | none => trapOf s 0x39 1 ga
  | some g => k g

/-- SEGHEAT and SEGHEAT.clr: the counters of the replicas that still pin the segment for the weave; NREP is the map's (log entry
60). -/
def segHeat (x : DA) (clr : Bool) (s : State) : Res :=
  withSegment s (s.rg x.a) fun g =>
    let cs := g.replicas.filter (s.pinsFor s.me.wid)
    let sum (f : Core → Nat) (cap : Nat) : Nat := min cap ((cs.map fun c => f (s.coreRec c)).foldl (· + ·) 0)
    let qmax := (cs.map fun c => (s.coreRec c).heatQmax).foldl max 0
    let v := g.replicas.length * 2 ^ 56 + qmax * 2 ^ 48 + sum (·.heatShed) 65535 * 2 ^ 32 + sum (·.heatArr) (2 ^ 32 - 1)
    let s := if clr then cs.foldl (fun s c => s.modCore c fun x => { x with heatArr := 0, heatShed := 0, heatQmax := 0 }) s
      else s
    .ok (s.wg x.d (BitVec.ofNat 64 v))

def runSegheat (x : DA) (s : State) : Res := segHeat x false s
def execSegheat (x : DA) (s : State) : Out := (runSegheat x s).finish s

def runSegheatClr (x : DA) (s : State) : Res := segHeat x true s
def execSegheatClr (x : DA) (s : State) : Out := (runSegheatClr x s).finish s

def codeWord (g : Segment) (k : Nat) : Word :=
  BitVec.ofNat 64 (packElems 16 (((List.range 4).map fun i => g.codes.getD (4 * k + i) 0xFF).map BitVec.toNat))

def runSegmap (x : DA) (s : State) : Res := withSegment s (s.rg x.a) fun g => .ok (s.wg x.d (codeWord g 0))
def execSegmap (x : DA) (s : State) : Out := (runSegmap x s).finish s

def runSegmapHi (x : DA) (s : State) : Res := withSegment s (s.rg x.a) fun g => .ok (s.wg x.d (codeWord g 1))
def execSegmapHi (x : DA) (s : State) : Out := (runSegmapHi x s).finish s

/-! ### Segment images (R322, R352) -/

/-- The vault ranges in use in a block. -/
def State.vaultUses (s : State) (blk : Nat) : List (Nat × Nat) :=
  s.weaves.filterMap fun w =>
    if w.placed && !w.saved && w.blocks.contains blk then some (w.vb, w.vb + recVault w.words) else none

/-- A line of a segment's image as a fetch under the weave's address space reads it. -/
def State.imageLine (s : State) (part root : Nat) (c : CoreIx) (wid : Nat) (base : Word) : Option Line :=
  match s.translate ⟨c, part, root, wid, false⟩ .fetch false 0 base 64 with
  | .error _ => none
  | .ok l =>
    let ks := keysFrom (physOf l base.toNat) 64
    if ks.any s.poisoned then none else some (BitVec.ofNat 512 (s.mem.value ks))

/-- The image of segment k as an instruction store holds it; lines that cannot be read are missing. -/
def State.image (s : State) (w : Weave) (c : CoreIx) (k : Nat) : List StoredLine :=
  (List.range 256).filterMap fun i =>
    let b := recCB w.words + BitVec.ofNat 64 (16384 * k + 64 * i)
    (s.imageLine w.part w.root c w.wid b).map fun l => ⟨b.toNat, l, guardPar l⟩

/-- The handler preloads of an extension block: pairs of a tag word and an entry. -/
def preloads : List Word → List (Word × Word)
  | t :: e :: r => (t, e) :: preloads r
  | _ => []

/-- A core takes a weave: everything of an earlier owner is gone; banks retained under the weave's key stay; the launch record's
handler entries and the segment's image are loaded, and the heat counters begin at zero (R269, R322, R332, R364, R371). -/
def State.takeCore (s : State) (w : Weave) (c : CoreIx) (pin : Option Nat) : State :=
  let s := if (s.coreRec c).key.isSome then s else s.zeroRange (localKey c 0) localSize
  let s := s.passTo w.part c
  let hs := (preloads (w.ext.drop 20)).foldl (fun (h : Tab Word) ((t, e) : Word × Word) => Tab.set h (t.toNat % 256) e) []
  let img := match pin with | some k => s.image w c k | none => []
  s.modCore c fun x =>
    { x.vacate with wid := some w.wid, key := none, pinSeg := pin, store := img, handlers := hs,
                    heatArr := 0, heatShed := 0, heatQmax := 0 }

/-- Upsets of the lines of a segment's image are met before a core loads it (R396, R397). -/
def State.touchImage (s : State) (w : Weave) (c : CoreIx) (k : Nat) : State :=
  if s.upsets.isEmpty && s.exact.isEmpty then s
  else (List.range 256).foldl (fun s i =>
    let b := recCB w.words + BitVec.ofNat 64 (16384 * k + 64 * i)
    let x : Ctx := ⟨c, w.part, w.root, w.wid, false⟩
    let s := s.meetWalkAs s w.wid (s.posOf c 0) x b
    match s.resolve x .fetch false 0 b 64 with
    | .ok y => s.touchAs w.wid (s.posOf c 0) y.readKeys
    | .error _ => s) s

/-! ### Wired phasers of a core (R283) -/

/-- The wired phaser a configuration word sets up. -/
def wireOf (w : Word) : Wired := ⟨w, 0, [], []⟩

/-- A tile takes a weave's descriptors and wired configurations. -/
def TileUnit.take (u : TileUnit) (ext : List Word) : TileUnit :=
  { u with desc := (List.range 8).map fun i => recWord ext i, claims := [],
           tw := (List.range 8).map fun i => (i, wireOf (recWord ext (8 + i))) }

/-- The wired phasers of a weave's loom rows. -/
def rowWires (ext : List Word) : Tab Wired := (List.range 3).map fun i => (i + 1, wireOf (recWord ext (16 + i)))

/-- The tile and the loom row of a core that is the only one there to hold a weave take the wired phasers of its launch record. -/
def State.wireCore (s : State) (w : Weave) (c : CoreIx) : State :=
  let alone (d : CoreIx) : Bool := d == c || (s.coreRec d).wid.isNone
  let s := if (List.range 16).all fun m => alone (tileCore (tileOf c) m) then s.modTile (tileOf c) (·.take w.ext) else s
  if (List.range 8).all fun p => alone (loomCore c p) then { s with rows := Tab.set s.rows (loomOf c) (rowWires w.ext) } else s

/-! ### SEGREP (R334) -/

/-- Whether every strand and shuttle of a placed weave is held in a save area: its own, or those of double faults (R114). -/
def State.weaveQuiet (s : State) (w : Weave) : Bool :=
  w.saved || (w.placed && (s.strandsOf w.wid).isEmpty && (s.shuttlesOf w.wid).isEmpty)

/-- A core that a delete takes from its weave: what waits there is discarded, and its banks are zeroed. -/
def State.detach (s : State) (w : Weave) (c : CoreIx) : State :=
  if (s.coreRec c).wid = some w.wid then
    ((((s.coreRec c).inbox.foldl (fun s m => s.dropMsg c m.msg) s).zeroRange (localKey c 0) localSize).freeCore c)
  else s

/-- What an area holds of such a core goes too; an item in a local queue orphans the end that it names (R344). -/
def State.detachSaved (s : State) (w : Weave) (c : CoreIx) : State :=
  let lost (v : Save) : List Orphan :=
    if v.wid = w.wid then
      ((v.cores.filter fun y => y.1 == c).flatMap fun y => y.2.queued).filterMap fun i =>
        { s with streams := v.streams ++ s.streams }.itemOrphan i w.wid
    else []
  { s.modNet fun n => { n with orphans := n.orphans ++ (s.saves.flatMap lost).filter fun o => o.wid != w.wid } with
    saves := s.saves.map fun (v : Save) =>
      if v.wid = w.wid then
        { v with cores := v.cores.filter fun y => y.1 != c, orphans := v.orphans ++ (lost v).filter fun o => o.wid == w.wid }
      else v }

/-- SEGREP and SEGREP.del on a quiescent weave of the partition. The model's choices: the cause of a weave that is not placed or of
another partition, subcode 30; that of an add of a quarantined core, or of one that the weave still lists though it holds nothing,
subcode 31; bits 31:12 of ga and 63:16 of gb are ignored; and every unused code of the entry comes to read 0x00FF (log entries 60,
129). -/
def segRep (x : AB) (del : Bool) (s : State) : Res :=
  requireSys s
    (let ga := s.rg x.a
     let code := (s.rg x.b).setWidth 16
     let k := (ga.extractLsb' 0 12).toNat
     let no (sub : BitVec 8) : Res := .trap s (rights sub ga)
     match s.weaveOf (ga.extractLsb' 32 32).toNat with
     | none => no 30
     | some w =>
       if !s.weaveQuiet w || w.part ≠ s.me.part then no 30
       else
         match w.segment k with
         | none => trapOf s 0x39 1 ga
         | some g =>
           let used := g.codes.filter fun c => (codeCore c).isSome
           let put (cs : List (BitVec 16)) : List Segment :=
             w.heddle.set (k - 1) { g with codes := (cs ++ List.replicate 8 0xFF).take 8 }
           match codeCore code with
           | none => no (if del then 33 else 31)
           | some c =>
             let cr := s.coreRec c
             if del then
               if !used.contains code then no 33
               else if used.length ≤ 1 then no 34
               else
                 let w' := { w with heddle := put (used.filter (· != code)), cores := w.cores.filter (· != c) }
                 .ok (((s.detach w c).detachSaved w c).setWeave w')
             else
               let blk := blockOf c
               let top := (s.vaultUses blk).foldl (fun t u => max t u.2) 0
               if 159 < (code.extractLsb' 0 8).toNat || !s.dieIn s.me.part (dieOf c) || cr.wid.isSome || cr.pinSeg.isSome
                   || cr.key.isSome || cr.quar || w.cores.contains c then no 31
               else if vaultSize < top + (s.pinsIn blk + 1) * shedBytes then no 32
               else if 8 ≤ used.length then no 33
               else
                 .ok ((((s.touchImage w c k).takeCore w c (some k)).wireCore w c).setWeave
                   { w with heddle := put (used ++ [code]), cores := w.cores ++ [c] }))

def runSegrep (x : AB) (s : State) : Res := segRep x false s
def execSegrep (x : AB) (s : State) : Out := (runSegrep x s).finish s

def runSegrepDel (x : AB) (s : State) : Res := segRep x true s
def execSegrepDel (x : AB) (s : State) : Out := (runSegrepDel x s).finish s

end Sys2Proof.Machine
end

