-- ==== Sys2Proof/Machine/Events.lean ====
section
/-! DEFINITION. What homes, networks and timers do of themselves: refetches, the accesses performed at their homes, replies,
acknowledgements, wakes, merged reductions, and the loom's steps (R47, R112, R154, R156, R178, R182 to R184, R190 to R199, R211,
R222, R399). -/

namespace Sys2Proof.Machine

/-! ## A strand's own timers (R47, R112) -/

/-- LINE_REFETCH: the refetch of the line a strand waits for ends; its fault is taken in the strand. -/
def execLineRefetch (k : StrandIx) (s : State) : Out :=
  let x := s.strand k
  match x.refetch with
  | none => eventStep s
  | some (t, checked) =>
    let s1 := s.switchTo k
    let done (s2 : State) : State := { s2 with me := { s2.me with refetch := none } }
    let s2 : State :=
      match s1.refetchLine t with
      | (s2, .error u) => if x.tr.st = .running then s1 else (done s2).takeTrap { u with pc := u.pc.or (some t) } 0
      | (s2, .ok l) =>
        match targetMiss t (!checked) l with
        | some u => if x.tr.st = .running then s1 else (done s2).takeTrap u 0
        | none => (done s2).keepLine (lineBase t).toNat l
    eventStep (s2.switchTo s.cur)

/-- SLEEP_EXPIRY: the cycles of a sleeping strand have passed. -/
def execSleepExpiry (k : StrandIx) (s : State) : Out :=
  match (s.strand k).stage with
  | .sleeping t =>
    if t ≤ s.now (coreOf k) then eventStep (s.modStrand k fun x => { x with stage := .sleepOver }) else eventStep s
  | _ => eventStep s

/-! ## Accesses at their homes (R178, R190, R399) -/

def State.takeReq (s : State) (n : Nat) : State := s.modNet fun m => { m with reqs := m.reqs.eraseIdx n }

def State.ack (s : State) (a : Ack) : State := s.modNet fun m => { m with acks := m.acks ++ [a] }

/-- A packet's posted writes are acknowledged, each to its own class (R183, R184). -/
def State.ackReq (s : State) (r : NetReq) : State := (r.seq :: r.also).foldl (fun s q => s.ack ⟨r.core, q⟩) s

/-- Whether a request is an element of the same posted write as another. -/
def NetReq.pieceOf (q r : NetReq) : Bool := q.core == r.core && q.seq == r.seq && match q.kind with | .store .. => true | _ => false

/-- Whether further elements of a store's packet are still on their way (R202). -/
def State.morePieces (s : State) (r : NetReq) : Bool := s.net.reqs.any fun q => q.pieceOf r

/-- A write some of whose bytes have met a quarantined core is counted: its further elements are not counted again (R399, R404). -/
def State.noteDropped (s : State) (r : NetReq) (bs : List (Nat × Byte)) : State :=
  if bs.any fun b => s.deadKey b.1 then
    s.modNet fun m => { m with reqs := m.reqs.map fun q => if q.pieceOf r then { q with dropped := true } else q }
  else s

/-- The strand and weave a posted write belongs to. -/
def State.seqStrand (s : State) (c : CoreIx) (seq : Nat) : StrandIx × Nat :=
  (((s.coreRec c).posted.find? fun p => p.seq == seq).map fun p => (p.strand, p.wid)).getD (strandAt c 0, 0)

/-- The weave a posted write belongs to. -/
def State.seqWid (s : State) (c : CoreIx) (seq : Nat) : Nat :=
  (((s.coreRec c).posted.find? fun p => p.seq == seq).map (·.wid)).getD 0

/-- A quarantined core's router answers with access rights, subcode 16, at the part's address. -/
def deadFault (x : Site) : Trap := ⟨0x12, 16, x.addr, none, 0⟩

/-- HOME_ACCESS: the n-th request, a load or a write, is performed at its home. A write waits for an active claim. -/
def execHomeAccess (n : Nat) (s : State) : Out :=
  match s.net.reqs[n]? with
  | none => eventStep s
  | some r =>
    match r.kind with
    | .atom .. => eventStep s
    | .load parts =>
      if s.brokenLocal (parts.flatMap fun p => p.2.readKeys) then eventStep s else
      let live := parts.filter fun p => !p.2.readKeys.any s.deadKey
      let dead := (parts.filter fun p => p.2.readKeys.any s.deadKey).map fun p => (p.1, deadFault p.2)
      let (s1, got, tags, f) := (s.takeReq n).serveOf r.strand live
      let fault := (dead ++ f.toList).foldl (fun (b : Option (Nat × Trap)) (x : Nat × Trap) =>
        match b with
        | some y => if x.1 < y.1 then some x else some y
        | none => some x) none
      match r.tagged with
      | some t =>
        let v := extTy t.ty ((got.map (·.2)).headD 0)
        eventStep (s1.modNet fun m => { m with tagReplies := m.tagReplies ++ [⟨t.back, v.toNat, fault.map (·.2), tags⟩] })
      | none =>
        eventStep (s1.modNet fun m => { m with replies := m.replies ++ [⟨r.id, r.strand, r.gen, got, 0, tags, fault⟩] })
    | .store bs sync =>
      if (bs.any fun b => s.claimed b.1) || s.brokenLocal (bs.map (·.1)) then eventStep s
      else
        let s1 := ((s.takeReq n).noteDropped r bs).landWrite r.strand bs sync (s.seqWid r.core r.seq) r.dropped
        eventStep (if s1.morePieces r then s1 else s1.ackReq r)
    | .spawn bs c off push pin =>
      if (bs.any fun b => s.claimed b.1) || s.brokenLocal (bs.map (·.1)) then eventStep s
      else
        let wid := s.seqWid r.core r.seq
        let dead := (s.coreRec c).quar
        let s1 := (s.takeReq n).landWrite r.strand bs (some ⟨.core r.core, .fabric⟩) wid
        if push && !dead then eventStep (s1.push ⟨c, off, wid, pin, some ⟨r.core, r.seq⟩⟩)
        else eventStep (s1.ack ⟨r.core, r.seq⟩)

/-- ATOMIC_AT_HOME: the n-th request, an atomic, is performed at its home as one step, and its reply sets out. -/
def execAtomicAtHome (n : Nat) (s : State) : Out :=
  match s.net.reqs[n]? with
  | none => eventStep s
  | some r =>
    match r.kind with
    | .atom op ty x b c sync =>
      if x.keys.any s.claimed || s.brokenLocal x.keys then eventStep s
      else
        let s0 := s.takeReq n
        let put (s : State) (y : Reply) : Out := eventStep (s.modNet fun m => { m with replies := m.replies ++ [y] })
        if x.keys.any s.deadKey then put s0 ⟨r.id, r.strand, r.gen, [], 0, [], some (0, deadFault x)⟩
        else
          let (s1, old, fl, tags, f) := s0.doAtomOf r.strand op ty x b c sync
          put s1 ⟨r.id, r.strand, r.gen, [(0, old)], fl, tags, f.map fun t => (0, t)⟩
    | _ => eventStep s

/-! ## Replies, acknowledgements and wakes (R182, R184, R193, R211, R222) -/

/-- A stage that waits for replies, with one more of them. -/
def stageReply (st : Stage) (r : Reply) : Option Stage :=
  match st with
  | .loadOut id left got tags fault =>
    if id ≠ r.id then none
    else
      let fault := match fault, r.fault with
        | some a, some b => some (if b.1 < a.1 then b else a)
        | a, b => a.or b
      let got := got ++ r.got
      let tags := tags ++ r.tags
      if 1 < left then some (.loadOut id (left - 1) got tags fault)
      else
        match fault with
        | some (_, t) => some (.loadFault t)
        | none => some (.loadDone got tags r.flags)
  | _ => none

/-- LOAD_REPLY: a plain load's or an atomic's reply reaches the strand, or the treadle entry, that waits for it. -/
def execLoadReply (n : Nat) (s : State) : Out :=
  match s.net.replies[n]? with
  | none => eventStep s
  | some r =>
    let s := s.modNet fun m => { m with replies := m.replies.eraseIdx n }
    let x := s.strand r.strand
    if !x.live || x.gen != r.gen then eventStep s
    else
      match stageReply x.stage r, stageReply x.tr.stage r with
      | some st, _ => eventStep (s.setStrand r.strand { x with stage := st })
      | none, some st => eventStep (s.setStrand r.strand { x with tr := { x.tr with stage := st } })
      | none, none => eventStep s

/-- POSTED_WRITE_ACK: the counter of the write's class falls; a lingering core whose last write this was is released. -/
def execPostedWriteAck (n : Nat) (s : State) : Out :=
  match s.net.acks[n]? with
  | none => eventStep s
  | some a =>
    let s := s.modNet fun m => { m with acks := m.acks.eraseIdx n }
    let s := s.modCore a.core fun x => { x with posted := x.posted.filter fun p => p.seq != a.seq }
    eventStep (s.lingerDone a.core)

/-- WAITA_WAKE: a wake reaches its strand. -/
def execWaitaWake (n : Nat) (s : State) : Out :=
  match s.net.wakes[n]? with
  | none => eventStep s
  | some w =>
    let s := s.modNet fun m => { m with wakes := m.wakes.eraseIdx n }
    let x := s.strand w.strand
    if x.live && x.gen == w.gen then
      eventStep (s.setStrand w.strand (x.rewait fun st => if st = .wakeSent then some (.woken w.val w.tags w.bad) else none))
    else eventStep s

/-- TAGGED_LOAD_REPLY: a reply lands in its entry, or is stale. -/
def execTaggedLoadReply (n : Nat) (s : State) : Out :=
  match s.net.tagReplies[n]? with
  | none => eventStep s
  | some r =>
    if s.landHeld r.ref then eventStep s
    else
    let s := s.modNet fun m => { m with tagReplies := m.tagReplies.eraseIdx n }
    eventStep ((s.landTags r.ref r.tags).land r.ref (BitVec.ofNat 64 r.val) r.fault)

/-- TAGGED_LOAD_FAULT: a tagged load's check has ended in a fault, which its entry takes. No reply was sent, so none is stale if
the entry is gone (R222, R224). -/
def execTaggedLoadFault (n : Nat) (s : State) : Out :=
  match s.net.checks[n]? with
  | none => eventStep s
  | some c =>
    match c.fault with
    | none => eventStep s
    | some t =>
      if s.landHeld c.ref.back then eventStep s
      else
        let s := s.modNet fun m => { m with checks := m.checks.eraseIdx n }
        eventStep (if (s.entryFor c.ref.back).isSome then s.land c.ref.back 0 (some t) else s)

/-! ## Reductions in the network and at their homes (R98, R196 to R199) -/

/-- A word's exact accumulator with a packet's contributions added; a first one takes the stored value for I. -/
def ExactAcc.add (old : Option ExactAcc) (ty : Ty) (stored : Nat) (p : RedPkt) : ExactAcc :=
  let a : ExactAcc :=
    match old with
    | some a => a
    | none =>
      let (i, pi, ni, nan, nz) := redUnits ty stored
      ⟨ty, i, pi, ni, nan, nz⟩
  ⟨ty, a.sum + p.sum, a.pinf || p.pinf, a.ninf || p.ninf, a.nan || p.nan, a.allNegZero && p.allNegZero⟩

/-- The word an accumulator shows (R98). -/
def ExactAcc.value (a : ExactAcc) : Nat :=
  let f : Num.Fmt := if a.ty = .bf16 then .bf16 else .f32
  if a.nan || (a.pinf && a.ninf) then Num.Fmt.nan f
  else if a.pinf then (Num.cvtFloat f .nearestEven 0 (.inf false)).1
  else if a.ninf then (Num.cvtFloat f .nearestEven 0 (.inf true)).1
  else (Num.roundTo f .nearestEven 0 ⟨if a.sum = 0 then a.allNegZero else a.sum < 0, a.sum.natAbs, -149, false⟩).1

/-- The strand and weave of a packet's first contribution. -/
def State.redSource (s : State) (p : RedPkt) : StrandIx × Nat :=
  match p.srcs with
  | (c, q) :: _ => s.seqStrand c q
  | [] => (0, 0)

/-- A float contribution to a reduction window is added exactly; an accumulator of another type is folded first. -/
def State.redExact (s : State) (p : RedPkt) : State :=
  let (st, wid) := s.redSource p
  let s := s.meetUpsetsAs wid (s.posOf (coreOf st) (slotOf st)) p.keys
  let k := p.keys.headD 0
  if p.keys.any s.poisoned then s.discarded st (keyDie k * 160) (s.keyLoc k) wid
  else
    let old := (s.exact.find? fun e => e.1 == k).map (·.2)
    let old := match old with
      | some a => if a.ty = p.ty then some a else none
      | none => none
    let a := ExactAcc.add old p.ty (s.mem.value p.keys) p
    let s := s.perform (layBytes p.keys a.value) (p.sync.getLast?)
    { s with exact := Tab.set s.exact k a }

/-- RED_AT_HOME: the n-th contribution is added at its home, and every core it stands for is acknowledged. -/
def execRedAtHome (n : Nat) (s : State) : Out :=
  match s.net.reds[n]? with
  | none => eventStep s
  | some p =>
    if p.keys.any s.claimed || s.brokenLocal p.keys then eventStep s
    else
      let s := s.modNet fun m => { m with reds := m.reds.eraseIdx n }
      let s :=
        if p.keys.any s.deadKey then
          match localOf (p.keys.headD 0) with
          | some (c, _) => s.discarded (s.redSource p).1 (blockOf c) (s.keyLoc (p.keys.headD 0)) (s.redSource p).2
          | none => s
        else if p.rwin && p.op == .add && Ty.isFlt p.ty then s.redExact p
        else s.redWord (s.redSource p) p.op p.ty p.keys p.val p.sync.getLast?
      eventStep (p.srcs.foldl (fun s (c, q) => s.ack ⟨c, q⟩) s)

/-- Whether a unit may still merge a packet: it holds one for at most 64 cycles. -/
def RedPkt.open (p : RedPkt) (now : Nat) : Bool :=
  match p.held with
  | some t => decide (now ≤ t + 64)
  | none => true

/-- The earlier of two holds' beginnings. -/
def holdSince (a b : Option Nat) (now : Nat) : Nat :=
  match a, b with
  | some x, some y => min x y
  | some x, none => x
  | none, some y => y
  | none, none => now

/-- RED_MERGE: two contributions to one word of a reduction window, of one operation and type, become one. -/
def execRedMerge (n m : Nat) (s : State) : Out :=
  match s.net.reds[n]?, s.net.reds[m]? with
  | some p, some q =>
    let now := s.cycle (keyDie (p.keys.headD 0))
    if n = m ∨ !(p.rwin && q.rwin) ∨ p.keys ≠ q.keys ∨ p.op ≠ q.op ∨ p.ty ≠ q.ty ∨ !p.open now ∨ !q.open now then eventStep s
    else
      let val := if Ty.isFlt p.ty then 0 else BitVec.ofNat 64 (redNew p.op p.ty (patTy p.ty p.val) q.val)
      let r : RedPkt :=
        { p with val := val, sum := p.sum + q.sum, pinf := p.pinf || q.pinf, ninf := p.ninf || q.ninf, nan := p.nan || q.nan,
                 allNegZero := p.allNegZero && q.allNegZero, srcs := p.srcs ++ q.srcs, sync := p.sync ++ q.sync,
                 held := some (holdSince p.held q.held now) }
      eventStep (s.modNet fun x => { x with reds := (x.reds.set n r).eraseIdx m })
  | _, _ => eventStep s

/-- RED_HOLD_EXPIRY: a unit sends on a packet whose hold has ended. -/
def execRedHoldExpiry (n : Nat) (s : State) : Out :=
  match s.net.reds[n]? with
  | none => eventStep s
  | some p =>
    match p.held with
    | none => eventStep s
    | some t =>
      if s.cycle (keyDie (p.keys.headD 0)) < t + 64 then eventStep s
      else eventStep (s.modNet fun x => { x with reds := x.reds.set n { p with held := none } })

/-! ## The loom (R154, R156) -/

/-- GANG_FORM: the gang of a strand's waiting operation forms, or is broken up, if it can be. -/
def execGangForm (k : StrandIx) (s : State) : Out := eventStep (s.tryFormGang k)

/-- LOOM_OP_COMPLETE: the operation at the head of a core's queue completes. -/
def execLoomOpComplete (c : CoreIx) (s : State) : Out := eventStep (s.completeLoom c)

end Sys2Proof.Machine
end

