-- ==== Sys2Proof/Machine/Tasks.lean ====
section
/-! DEFINITION. The dispatcher: task classes, promotion, the landing berth, steals, and the starts of handlers and codelets
(R270, R271, R296, R301 to R303, R327, R328). -/

namespace Sys2Proof.Machine

/-! ## Promotion (R301) -/

/-- A task's class and the moment its age in it counts from, after the promotions due by now. -/
def promoted (cls since now : Nat) : Nat × Nat :=
  let n := min cls ((now - since) / 4096)
  (cls - n, since + 4096 * n)

def InMsg.promote (now : Nat) (m : InMsg) : InMsg :=
  match m.since with
  | some t => { m with cls := (promoted m.cls t now).1, since := some (promoted m.cls t now).2 }
  | none => m

def RingEntry.promote (now : Nat) (e : RingEntry) : RingEntry :=
  { e with cls := (promoted e.cls e.since now).1, since := (promoted e.cls e.since now).2 }

def Shuttle.promote (now : Nat) (h : Shuttle) : Shuttle :=
  match h.since with
  | some t => { h with cls := (promoted h.cls t now).1, since := some (promoted h.cls t now).2 }
  | none => h

def State.promoteTasks (s : State) (c : CoreIx) : State :=
  let now := s.now c
  s.modCore c fun x =>
    { x with inbox := x.inbox.map (·.promote now), ready := x.ready.map (·.promote now),
             arrivals := x.arrivals.map (·.promote now) }

/-- TASK_PROMOTION: every task that has waited 4,096 cycles moves to the next lower class. -/
def execTaskPromotion (c : CoreIx) (s : State) : Out := eventStep (s.promoteTasks c)

/-! ## The order of tasks (R301, R327) -/

inductive Task where
  | msg (i : Nat) | shuttle (i : Nat) | overflow (i : Nat) | ring (i : Nat) | steal (victim : CoreIx) (i : Nat)
  deriving DecidableEq, Repr

def Task.isShuttle : Task → Bool
  | .shuttle _ | .overflow _ => true
  | _ => false

/-- A task with its place in the order: the class, then promoted tasks by first moment, the class first entered and native order,
then the class's own in native order. -/
structure Cand where
  task : Task
  key : List Nat
  deriving DecidableEq, Repr

def cand (t : Task) (cls native entered first pos : Nat) : Cand :=
  ⟨t, if cls = native then [2 * cls, 1, 0, 0, pos] else [2 * cls, 0, first, entered, pos]⟩

def keyLt : List Nat → List Nat → Bool
  | a :: r, b :: t => a < b || (a == b && keyLt r t)
  | _, _ => false

def firstCand (cs : List Cand) : Option Cand :=
  cs.foldl (fun b c => match b with | some x => if keyLt c.key x.key then some c else some x | none => some c) none

/-- A list with the positions of its elements. -/
def indexed {α : Type} (l : List α) : List (Nat × α) := (List.range l.length).zip l

/-- A core's own tasks of classes 0 to 5, and the partition's overflow shuttles for it, between class 0 and class 1; one that waits
for a core which has dropped out of its weave is held (R398). -/
def State.ownTasks (s : State) (c : CoreIx) : List Cand :=
  let x := s.coreRec c
  let p := s.partRec (s.partOfDie (dieOf c))
  ((indexed x.inbox).filterMap fun (i, m) =>
      if m.since.isSome then some (cand (.msg i) m.cls (prioClass (x.handler m.msg.tag)) m.fcls (m.first.getD 0) i)
      else none)
    ++ ((indexed x.arrivals).map fun (i, h) => cand (.shuttle i) h.cls 1 1 h.first i)
    ++ ((indexed p.overflow).filterMap fun (i, h) => if h.core = c ∧ s.pinsFor h.wid c then some ⟨.overflow i, [1, 0, 0, 0, i]⟩ else none)
    ++ ((indexed x.ready).map fun (i, e) => cand (.ring i) e.cls 5 5 e.first (x.ready.length - i))

/-- The steal a core would make: the other cores of its tile round-robin from the last victim on, their oldest entry that is
not pinned and whose weave the thief holds (R302). -/
def State.stealTask (s : State) (c : CoreIx) : Option Task :=
  let t := tileOf c
  let v0 := (s.coreRec c).victim.getD (Sys2Proof.Machine.memberOf c)
  let tries := ((List.range 16).map fun i => (v0 + 1 + i) % 16).filter fun m => m != Sys2Proof.Machine.memberOf c
  tries.findSome? fun m =>
    let v := tileCore t m
    let es := (indexed (s.coreRec v).ready).filter fun (_, e) => !e.pin && s.holds c e.wid
    (es.foldl (fun (b : Option (Nat × RingEntry)) e =>
      match b with
      | some y => if e.2.first < y.2.first then some e else some y
      | none => some e) none).map fun e => .steal v e.1

/-! ## Slots -/

/-- A pinning core's landing berth (R322). -/
def State.isBerth (s : State) (c : CoreIx) (slot : Nat) : Bool := slot == 7 && (s.coreRec c).pinSeg.isSome

/-- The lowest free slot of a core other than the berth. -/
def State.freeSlotOf (s : State) (c : CoreIx) : Option Nat :=
  (List.range 8).find? fun k => !(s.strand (strandAt c k)).live && !s.isBerth c k

/-- The landing berth, while it is free. -/
def State.freeBerth (s : State) (c : CoreIx) : Option Nat :=
  if s.isBerth c 7 && !(s.strand (strandAt c 7)).live then some 7 else none

/-- Whether a core starts tasks: not while it is quarantined, its island is held (R418), or its weave stops for a save. -/
def State.starts (s : State) (c : CoreIx) : Bool :=
  let x := s.coreRec c
  !x.quar && !x.linger && !s.islandHeld c && !((x.wid.bind s.weaveOf).map (·.stopping)).getD false

/-! ## Starting a task (R271, R303, R328) -/

/-- A handler starts: BUSY is set, and the inbox slot is free. -/
def State.startMsg (s : State) (k : StrandIx) (i : Nat) : State :=
  let c := coreOf k
  let x := s.coreRec c
  match x.inbox[i]? with
  | none => s
  | some im =>
    let m := im.msg
    match s.weaveOf m.wid with
    | none => s
    | some w =>
      let e := x.handler m.tag
      let s := (s.modCore c fun y =>
        { y with inbox := y.inbox.eraseIdx i, handlers := Tab.set y.handlers m.tag.toNat (setBit e 61 true) }).refresh c
      let y := (s.freshStrand k w 1 (entAddr e)).withArgs m.payload
      let g8 := BitVec.ofNat 64 (m.tag.toNat + m.payload.length * 2 ^ 8 + (if m.reply.isSome then 2 ^ 16 else 0))
      s.startStrand k { (y.writeG 7 m.sender).writeG 8 g8 with owed := m.reply, htag := some m.tag }

/-- Whether word 1 of a descriptor is malformed. -/
def descBad (w1 : Word) : Bool := decide (6 < (w1.extractLsb' 60 4).toNat) || w1.extractLsb' 56 3 != 0

/-- A codelet starts from the entry i of a victim's ring, which is the core's own unless it steals. Errors of its descriptor's words
are met first; one past correction quarantines the owner, and the entry with it (R395, R396, R398). A malformed descriptor is counted
at the core that starts it, a thief too, which is the model's choice (R303; log entry 57). -/
def State.startCodelet (s : State) (k : StrandIx) (v : CoreIx) (i : Nat) : State :=
  match (s.coreRec v).ready[i]? with
  | none => s
  | some e =>
    let ks := keysFrom (localKey v e.off) 64
    if s.brokenLocal ks then s
    else
    let s := (s.modCore v fun y => { y with ready := y.ready.eraseIdx i }).refillRing v
    let s := (s.meetUpsetsAs e.wid (s.posOf (coreOf k) (slotOf k)) ks).fold ks
    let word (j : Nat) : Word := s.word (localKey v (e.off + 8 * j))
    let w1 := word 1
    let d := s.coreWindow v e.off
    match s.weaveOf e.wid with
    | none => s
    | some w =>
      if descBad w1 then (s.countCore (coreOf k) 0x02).coreIdle v
      else
        let args := (List.range (w1.extractLsb' 60 4).toNat).map fun j => word (2 + j)
        let y := (s.freshStrand k w 3 ((w1.extractLsb' 0 56).setWidth 64)).withArgs args
        (s.startStrand k { y.writeG 8 d with desc := d }).coreIdle v

def State.startTask (s : State) (c : CoreIx) (slot : Nat) : Task → State
  | .msg i => s.startMsg (strandAt c slot) i
  | .shuttle i =>
    match (s.coreRec c).arrivals[i]? with
    | none => s
    | some h => (s.modCore c fun x => { x with arrivals := x.arrivals.eraseIdx i }).placeShuttle (strandAt c slot) h false
  | .overflow i =>
    let p := s.partOfDie (dieOf c)
    match (s.partRec p).overflow[i]? with
    | none => s
    | some h => (s.modPart p fun x => { x with overflow := x.overflow.eraseIdx i }).placeShuttle (strandAt c slot) h true
  | .ring i => s.startCodelet (strandAt c slot) c i
  | .steal v i => (s.modCore c fun x => { x with victim := some (Sys2Proof.Machine.memberOf v) }).startCodelet (strandAt c slot) v i

/-- The task a core starts next, and its slot. -/
def State.nextTask (s : State) (c : CoreIx) : Option (Nat × Task) :=
  let own := s.ownTasks c
  let shuttles := own.filter fun x => x.task.isShuttle
  match s.freeSlotOf c with
  | some k =>
    match firstCand own with
    | some x => some (k, x.task)
    | none => (s.stealTask c).map fun t => (k, t)
  | none =>
    match s.freeBerth c, firstCand shuttles with
    | some k, some x => some (k, x.task)
    | _, _ => none

/-- DISPATCH: a core starts one task in a free slot. -/
def execDispatch (c : CoreIx) (s : State) : Out :=
  if !s.starts c then eventStep s
  else
    let s := s.promoteTasks c
    match s.nextTask c with
    | some (k, t) => eventStep (s.startTask c k t)
    | none => eventStep s

end Sys2Proof.Machine
end

