-- ==== Sys2Proof/Machine/Launch.lean ====
section
/-! DEFINITION. Launches: reading and checking a record, the pool, placement, host queues, LAUNCH and EXIT, and the end of a weave
(R17, R22, R174, R283, R320 to R322, R352 to R366, R371, R412). -/

namespace Sys2Proof.Machine

/-! ## Reading a launch's structures (R352, R355) -/

/-- One word at a user virtual address, read byte by byte where it is not aligned. None where a translation, a right, a spilled
page or an uncorrectable word stops it. -/
def State.readWord (s : State) (x : Ctx) (a : Word) : Option Word :=
  let part (b : Word) (n : Nat) : Option Nat :=
    if classAddr b ≠ .user then none
    else
      match s.resolve x .load false 0 b n with
      | .error _ => none
      | .ok y => if s.sitePoisoned y then none else some (s.readSite y)
  if a.toNat % 8 = 0 then (part a 8).map (BitVec.ofNat 64)
  else ((List.range 8).mapM fun i => part (a + BitVec.ofNat 64 i) 1).map fun bs => BitVec.ofNat 64 (packElems 8 bs)

def State.readWords (s : State) (x : Ctx) (a : Word) (n : Nat) : Option (List Word) :=
  (List.range n).mapM fun i => s.readWord x (a + BitVec.ofNat 64 (8 * i))

/-- The agent that reads a weave's structures: its partition's first die, under its own address space. -/
def State.launchCtx (s : State) (part root wid : Nat) : Ctx :=
  ⟨coreAt ((s.partDies part).headD 0) 0 0, part, root, wid, false⟩

/-- Upsets of n bytes about to be read, and of the words their walk reads, are met first, and exact accumulators among them fold
(R199). The records name the weave of the context and the agent's position. -/
def State.touchAt (s : State) (x : Ctx) (pos : Word) (k : AccKind) (a : Word) (n : Nat) : State :=
  let s := s.meetWalkAs s x.wid pos x a
  match s.resolve x k false 0 a n with
  | .ok y => s.touchAs x.wid pos y.readKeys
  | .error _ => s

/-- Upsets of n words about to be read are met first; one word more covers an address that is not a multiple of 8. -/
def State.touch (s : State) (x : Ctx) (pos : Word) (a : Word) (n : Nat) : State :=
  if s.upsets.isEmpty && s.exact.isEmpty then s
  else (List.range (if a.toNat % 8 = 0 then n else n + 1)).foldl (fun s i =>
    s.touchAt x pos .load (a &&& ~~~7#64 + BitVec.ofNat 64 (8 * i)) 8) s

/-! ## A record's fields (R352) -/

structure Shape where
  spc : Nat
  cpt : Nat
  tpb : Nat
  bpd : Nat
  dies : Nat
  pkgs : Nat
  deriving DecidableEq, Repr

def recField (ws : List Word) (k lo n : Nat) : Nat := (((recWord ws k) >>> lo).toNat) % 2 ^ n

def shapeOf (ws : List Word) : Shape where
  spc := recField ws 0 3 4
  cpt := recField ws 0 7 5
  tpb := recField ws 0 12 3
  bpd := recField ws 0 15 8
  dies := recField ws 0 23 3
  pkgs := recField ws 0 26 9

def Shape.cores (h : Shape) : Nat := h.cpt * h.tpb * h.bpd * h.dies

def recAcc (ws : List Word) : Nat := recField ws 0 35 4
def recArgc (ws : List Word) : Nat := recField ws 0 0 3

/-! ## The checks of R355 -/

/-- Code 1: the shape breaks R17. -/
def shapeBad (ws : List Word) (dies : Nat) (launch : Bool) : Bool :=
  let h := shapeOf ws
  let out (x m : Nat) : Bool := x == 0 || decide (m < x)
  out h.spc 8 || out h.cpt 16 || out h.tpb 4 || out h.bpd 160 || out h.dies 4 || out h.pkgs 256
    || decide (8 < h.spc * recAcc ws) || decide (dies < h.dies) || (launch && decide (1 < h.pkgs))

/-- Code 2: reserved bits, a word that must be zero, a field out of range, or a misaligned address. -/
def fieldsBad (ws : List Word) : Bool :=
  let w (k : Nat) : Word := recWord ws k
  recField ws 0 56 8 != 0 || recField ws 0 39 3 != 0 || recField ws 9 45 19 != 0 || recField ws 11 12 2 != 0 || w 15 != 0
    || (!recShm ws && (w 11 != 0 || w 12 != 0)) || !([0, 1, 2, 4, 8].contains (recAcc ws)) || decide (6 < recArgc ws)
    || decide (16 < recField ws 0 43 5) || !validCode (w 1) || (w 13).toNat % 8 != 0 || (w 14).toNat % 8 != 0

/-- A scratchpad descriptor in use that breaks R174 for a portion of S bytes per core. -/
def descBroken (S : Nat) (d : Word) : Bool :=
  match allocOf d with
  | none => false
  | some a =>
    d.extractLsb' 35 28 != 0 || a.size == 0 || decide (2 ^ 20 < a.size) || decide (1023 * 1024 < a.base)
      || decide (16 * S < a.base + a.size)
      || (decide (1 ≤ a.swz) && decide (a.swz ≤ 6)
          && (a.base % 2 ^ (2 * a.swz + 4) != 0 || a.size % 2 ^ (2 * a.swz + 4) != 0))

/-- Two allocations overlap. -/
def allocsMeet : List Alloc → Bool
  | [] => false
  | a :: r => (r.any fun b => decide (a.base < b.base + b.size) && decide (b.base < a.base + a.size)) || allocsMeet r

/-- Code 3: an extension block, as its words from 0 on, breaks R174, R283 or R353. -/
def extBad (ext : List Word) (S : Nat) : Bool :=
  let descs := ext.take 8
  let wires := (ext.drop 8).take 11
  !ext.isEmpty &&
    (descs.any (descBroken S) || allocsMeet (descs.filterMap allocOf)
      || (wires.any fun c => c.extractLsb' 19 44 != 0) || ((wires.drop 8).any fun c => c.extractLsb' 8 8 != 0)
      || decide (256 < (recWord ext 19).toNat)
      || (preloads (ext.drop 20)).any fun (t, e) =>
          t.extractLsb' 8 56 != 0 || e.extractLsb' 61 2 != 0 || e.extractLsb' 56 3 != 0)

/-- An entry of the heddle map: reserved bits, a carry set that is not well formed, a code that names no core, or a used code
after an unused one. -/
def heddleEntryBad (w3 : Word) (g : Segment) : Bool :=
  let col (c : BitVec 16) : Nat := (c.extractLsb' 0 8).toNat
  w3.extractLsb' 24 40 != 0 || (carrySet g.carry).isNone || (g.codes.any fun c => 160 ≤ col c && col c != 255)
    || ((g.codes.dropWhile fun c => col c != 255).any fun c => col c != 255)

/-- How many of some cores lie in a block. -/
def coresIn (cs : List CoreIx) (blk : Nat) : Nat := (cs.filter fun c => blockOf c == blk).length

/-- Code 4 for a map that was read, as its entries' last words and entries. -/
def heddleBad (n : Nat) (segs : List (Word × Segment)) : Bool :=
  let cs := segs.flatMap fun x => x.2.replicas
  (segs.any fun x => heddleEntryBad x.1 x.2) || cs.eraseDups.length != cs.length || cs.length != n
    || cs.any fun c => decide (7 < coresIn cs (blockOf c))

/-- Whether a core of a partition retains banks under a key (R364). -/
def State.retaining (s : State) (part : Nat) (key : Word) : List CoreIx :=
  (s.cores.filter fun (c, x) => x.key == some key && x.wid.isNone && s.dieIn part (dieOf c)).map (·.1)

/-- Code 6: the partition can never supply the weave. -/
def State.neverFits (s : State) (part : Nat) (ws : List Word) (cs : List CoreIx) : Bool :=
  decide (4096 < recPhas ws) || decide (256 < recRing ws) || decide (1024 < recStrm ws)
    || decide (vaultSize < recVault ws)
    || cs.any fun c => !s.dieIn part (dieOf c) || (s.coreRec c).quar
        || decide (vaultSize < recVault ws + coresIn cs (blockOf c) * shedBytes)

/-- A launch's structures as one reading finds them: the extension block and the heddle map. -/
structure Extras where
  ext : Option (List Word)
  map : Option (List (Word × Segment))
  deriving DecidableEq, Repr

/-- Reads the extension block and, in shuttle mode, the heddle map. -/
def State.readExtras (s : State) (x : Ctx) (ws : List Word) : Extras where
  ext :=
    let a := recWord ws 13
    if a = 0 then some []
    else
      match s.readWords x a 20 with
      | none => none
      | some h =>
        let n := (recWord h 19).toNat
        if 256 < n then some h else (s.readWords x (a + 160) (2 * n)).map fun r => h ++ r
  map :=
    if recShm ws then
      (List.range (recNseg ws)).mapM fun i =>
        (s.readWords x (recWord ws 12 + BitVec.ofNat 64 (32 * (i + 1))) 4).map fun e =>
          (recWord e 3, segmentFrom (recWord e 0) (recWord e 1) (recWord e 2) (recWord e 3))
    else some []

/-- Upsets of a launch's extension block and heddle map are met before they are read, and exact accumulators among them fold. -/
def State.touchExtras (s : State) (x : Ctx) (pos : Word) (ws : List Word) : State :=
  if s.upsets.isEmpty && s.exact.isEmpty then s
  else
    let a := recWord ws 13
    let s :=
      if a = 0 then s
      else
        let s := s.touch x pos a 20
        match s.readWord x (a + 152) with
        | some h => if 256 < h.toNat then s else s.touch x pos (a + 160) (2 * h.toNat)
        | none => s
    if recShm ws then s.touch x pos (recWord ws 12 + 32) (4 * recNseg ws) else s

/-- The lowest rejection code of R355 that applies, if any. At placement the retaining cores must be as many as the shape's,
and imgBad says that a segment image could not be read. -/
def State.launchCode (s : State) (part : Nat) (ws : List Word) (e : Extras) (launch placing imgBad : Bool) : Option Nat :=
  let n := (shapeOf ws).cores
  let segs := e.map.getD []
  let kept := (s.retaining part (recWord ws 10)).length
  if shapeBad ws (s.partDies part).length launch then some 1
  else if fieldsBad ws then some 2
  else if (e.ext.map fun b => extBad b (recS ws)).getD false then some 3
  else if recShm ws && (recNseg ws == 0 || (shapeOf ws).pkgs != 1 || decide (7 < (shapeOf ws).spc)
      || (e.map.isSome && heddleBad n segs)) then some 4
  else if recWord ws 10 != 0 && (kept == 0 || (placing && kept != n)) then some 5
  else if s.neverFits part ws (segs.flatMap fun x => x.2.replicas) then some 6
  else if e.ext.isNone || e.map.isNone || imgBad then some 7
  else none

/-! ## The pool (R358 to R360) -/

def State.poolFree (s : State) : Nat := 4096 - (s.weaves.filter fun (w : Weave) => !w.borrowed).length

/-- A launch as it enters the pool. -/
def newWeave (wid part root : Nat) (ws : List Word) (parent : Option Nat) (borrowed : Bool) (order queue : Nat) : Weave where
  wid := wid
  part := part
  root := root
  words := ws
  ext := []
  parent := parent
  borrowed := borrowed
  lent := false
  placed := false
  saved := false
  stopping := false
  cores := []
  vb := 0
  heddle := []
  how := 0
  code := 0
  exiting := false
  order := order
  queue := queue

/-- The next weave number: the first from nextWid on, modulo 2^32, that is not 0 and that no weave has (R39). -/
def State.freshWid (s : State) : Nat :=
  (((List.range (s.weaves.length + 2)).map fun i => (s.nextWid + i) % 2 ^ 32).find? fun n =>
    n != 0 && !s.weaves.any fun w => w.wid == n).getD s.nextWid

/-- Adds a launch to the pool. -/
def State.enterPool (s : State) (part root : Nat) (ws : List Word) (parent : Option Nat) (borrowed : Bool) (queue : Nat) :
    Nat × State :=
  let wid := s.freshWid
  (wid, { s with
    weaves := s.weaves ++ [newWeave wid part root ws parent borrowed s.order queue]
    nextWid := wid + 1
    order := s.order + 1 })

/-- A rejected launch writes its completion word (R356). -/
def State.rejectLaunch (s : State) (w : Weave) (code : Nat) : State :=
  let v := doneWord 3 (BitVec.ofNat 8 code)
  ((s.leavePool w).writeDone w v).childEnds w.wid v

/-- A rejected record that never entered the pool. -/
def State.rejectRecord (s : State) (part root : Nat) (ws : List Word) (code : Nat) : State :=
  s.writeDone (newWeave 0 part root ws none false 0 0) (doneWord 3 (BitVec.ofNat 8 code))

/-! ## Host queues (R357, R358, R412) -/

def queueDesc (p : Part) (q : Nat) : Nat := p.qtab.toNat + 32 * q

/-- What the device reads by physical address: it lies within the host's window where it is host memory, and no word of it is
past correction (R397, R411). -/
def State.deviceReads (s : State) (pa n : Nat) : Bool := s.inWindow pa n && !(keysFrom pa n).any s.poisoned

/-- The agent of a partition's own reads of its queues: weave 0 at the partition's first core (R402; log entry 132). -/
def State.partPos (s : State) (part : Nat) : Word := s.posOf (s.launchCtx part 0 0).core 0

/-- Errors of the descriptors of a partition's rung queues are met before they are read. -/
def State.touchQueues (s : State) (part : Nat) : State :=
  let p := s.partRec part
  p.rung.foldl (fun s r => s.touchAs 0 (s.partPos part) (keysFrom (queueDesc p r.1) 32)) s

/-- A queue with entries published at its last doorbell that are still to take. -/
def State.queueReady (s : State) (part q : Nat) : Bool :=
  let d := queueDesc (s.partRec part) q
  match (s.partRec part).rung.find? fun r => r.1 == q with
  | some (_, tail) => s.deviceReads d 32 && (s.word (d + 16)).toNat % 2 ^ 32 != tail
  | none => false

/-- Takes one entry: checks its record, gives it a pool entry or rejects it, and advances HEAD. A record or an entry that the
device cannot read is rejected with code 7; its DONE address is then not known (log entry 115). -/
def State.takeEntry (s : State) (part q : Nat) : State :=
  let d := queueDesc (s.partRec part) q
  let head := (s.word (d + 16)).toNat % 2 ^ 32
  let a := (s.word d).toNat + 32 * (head % (s.word (d + 8)).toNat)
  let rec' := (s.word a).toNat
  let root := (s.word (a + 8)).toNat
  let s := s.touchAs 0 (s.partPos part) (keysFrom a 32 ++ keysFrom rec' 128)
  let ws := (List.range 16).map fun i => s.word (rec' + 8 * i)
  let lost := !s.deviceReads a 32 || !s.deviceReads rec' 128
  let done (s : State) : State := s.perform (layBytes (keysFrom (d + 16) 8) ((head + 1) % 2 ^ 32)) none
  if lost then done (s.rejectRecord part root (List.replicate 16 0) 7)
  else
    let x := s.launchCtx part root 0
    let s := s.touchExtras x (s.partPos part) ws
    let e := s.readExtras x ws
    let code :=
      if s.word (a + 16) != 0 || s.word (a + 24) != 0 then
        (if shapeBad ws (s.partDies part).length false then some 1 else some 2)
      else s.launchCode part ws e false false false
    match code with
    | some c => done (s.rejectRecord part root ws c)
    | none => done (s.enterPool part root ws none false q).2

/-- Takes entries, queue after queue round-robin, while the pool has an entry a host launch may take. -/
def State.takeEntries (s : State) (part : Nat) : Nat → State
  | 0 => s
  | n + 1 =>
    let p := s.partRec part
    if s.poolFree ≤ 1 then s
    else
      let s := s.touchQueues part
      match ((List.range p.nq).map fun i => (p.rr + i) % p.nq).find? (s.queueReady part) with
      | none => s
      | some q => State.takeEntries ((s.takeEntry part q).modPart part fun p => { p with rr := (q + 1) % p.nq }) part n

/-- How many entries a partition's queues still hold. -/
def State.entriesLeft (s : State) (part : Nat) : Nat :=
  let p := s.partRec part
  (p.rung.map fun (q, tail) => (tail + 2 ^ 32 - (s.word (queueDesc p q + 16)).toNat % 2 ^ 32) % 2 ^ 32).foldl (· + ·) 0

/-- Taking goes on in every partition: partition 0's queues come before partition 1's, and so on, which is the model's choice (R361;
log entry 75). -/
def State.takeQueues (s : State) : State :=
  (List.range 4).foldl (fun s p => if (s.partRec p).on then s.takeEntries p (s.entriesLeft p) else s) s

/-- DBQ: the launch doorbell, bits 5:4 the partition, bits 3:0 the queue. The queue's TAIL is read now, after every write the host
issued before (R412). A descriptor the device cannot read has no entries to take (log entry 115). -/
def execDbq (v : BitVec 6) (s : State) : Out :=
  let part := v.toNat / 16
  let q := v.toNat % 16
  let p := s.partRec part
  if ¬(part < s.nparts ∧ p.on ∧ q < p.nq) then eventStep s
  else
    let s := s.touchAs 0 (s.partPos part) (keysFrom (queueDesc p q) 32)
    if s.deviceReads (queueDesc p q) 32 then
      let tail := (s.word (queueDesc p q + 24)).toNat % 2 ^ 32
      let s := s.modPart part fun p => { p with rung := Tab.set p.rung q tail }
      eventStep (s.takeEntries part (s.entriesLeft part))
    else eventStep s

/-! ## Placement (R354, R361 to R364) -/

/-- The cores of a choice, in its order: cores 0 to CPT − 1 of each tile, as R362 has it; R292 traces a placement on other cores of
their tiles, which no launch of the model has (log entry 126). -/
def choiceCores (cpt : Nat) (choice : List DieChoice) : List CoreIx :=
  choice.flatMap fun d => d.blocks.flatMap fun b => b.2.flatMap fun t =>
    (List.range cpt).map fun m => tileCore (d.die * 640 + t) m

/-- Whether a choice has the shape: DIES dies of the partition, BPD blocks of each, TPB tiles of each. -/
def State.choiceFits (s : State) (part : Nat) (h : Shape) (choice : List DieChoice) : Bool :=
  let dies := choice.map (·.die)
  dies.length == h.dies && dies.eraseDups.length == h.dies && dies.all (fun d => decide (d < 4) && s.dieIn part d)
    && choice.all fun d =>
      let bs := d.blocks.map (·.1)
      bs.length == h.bpd && bs.eraseDups.length == h.bpd && bs.all (· < 160)
        && d.blocks.all fun (b, ts) =>
          ts.length == h.tpb && ts.eraseDups.length == h.tpb
            && ts.all fun t => decide (t < 640) && tileBlock (d.die * 640 + t) == d.die * 160 + b

def sameCores (a b : List CoreIx) : Bool := a.length == b.length && a.all b.contains

/-- Whether a core may take the weave: free, or retained under its key. -/
def State.coreFree (s : State) (key : Word) (c : CoreIx) : Bool :=
  let x := s.coreRec c
  x.wid.isNone && !x.quar && (x.key.isNone || (key != 0 && x.key == some key))

/-- A tile whose scratchpad no other weave has. -/
def State.tileFree (s : State) (t : Nat) : Bool := (List.range 16).all fun m => (s.coreRec (tileCore t m)).wid.isNone

/-- Allocation room of a block's sync engine (R281, R318, R338). -/
def State.engineFree (s : State) (ws : List Word) (blk : Nat) : Bool :=
  let used (f : List Word → Nat) : Nat :=
    ((s.weaves.filter fun (w : Weave) => w.placed && !w.saved && w.blocks.contains blk).map fun w => f w.words).foldl (· + ·) 0
  decide (used recPhas + recPhas ws ≤ 4096) && decide (used recRing + recRing ws ≤ 256)
    && decide (used recStrm + recStrm ws ≤ 1024)

/-- Whether a block's vault has a range for the weave at VB, and its shed rings beside it. -/
def State.vaultFree (s : State) (ws : List Word) (vb pins blk : Nat) : Bool :=
  let uses := (s.vaultUses blk).filter fun u => u.1 < u.2
  let top := vaultSize - (s.pinsIn blk + pins) * shedBytes
  decide ((s.pinsIn blk + pins) * shedBytes ≤ vaultSize) && uses.all (fun u => decide (u.2 ≤ top))
    && (recVault ws == 0 || (decide (vb + recVault ws ≤ top)
      && uses.all fun u => decide (u.2 ≤ vb) || decide (vb + recVault ws ≤ u.1)))

/-- Whether everything the weave needs is free on some cores. -/
def State.fits (s : State) (ws : List Word) (cores : List CoreIx) (vb : Nat) : Bool :=
  let blks := (cores.map blockOf).eraseDups
  cores.all (s.coreFree (recWord ws 10)) && (cores.map tileOf).eraseDups.all s.tileFree
    && blks.all (s.engineFree ws)
    && blks.all fun b => s.vaultFree ws vb (if recShm ws then coresIn cores b else 0) b

/-- The tiles and loom rows of a weave's cores take the wired phasers of its launch record (R283). -/
def State.wireUp (s : State) (w : Weave) : State :=
  let s := (w.cores.map tileOf).eraseDups.foldl (fun s t => s.modTile t (·.take w.ext)) s
  (w.cores.map loomOf).eraseDups.foldl (fun s l =>
    { s with rows := Tab.set s.rows l (rowWires w.ext) }) s

/-- Where the launched strands of a core start (R362, R363). -/
def State.entryOf (s : State) (w : Weave) (c : CoreIx) : Word :=
  let e := recWord w.words 1
  match (s.coreRec c).pinSeg with
  | some k => recCB w.words + BitVec.ofNat 64 (16384 * k + (e - recCB w.words).toNat % 16384)
  | none => e

/-- The launched strands of a core start in slots 0 to SPC − 1. -/
def State.startTeam (s : State) (w : Weave) (c : CoreIx) : State :=
  let blk := blockOf c
  let g7 : Word := if recVault w.words = 0 then 0
    else BitVec.ofNat 64 (0xFB * 2 ^ 56 + s.host.pkg.toNat * 2 ^ 40 + blk / 160 * 2 ^ 38 + blk % 160 * 2 ^ 24 + w.vb)
  let args := (List.range (recArgc w.words)).map fun i => recWord w.words (3 + i)
  let pc := s.entryOf w c
  (List.range (shapeOf w.words).spc).foldl (fun s k =>
    let k := strandAt c k
    s.startStrand k (((s.freshStrand k w 0 pc).withArgs args).writeG 7 g7)) s

/-- Places a weave on cores: everything is cleared and loaded, and then the strands start. -/
def State.placeWeave (s : State) (w : Weave) : State :=
  let pins : List (CoreIx × Option Nat) :=
    if recShm w.words then
      (indexed w.heddle).flatMap fun (i, g) => g.replicas.map fun c => (c, some (i + 1))
    else w.cores.map fun c => (c, none)
  let s := match w.parent with
    | some p => if w.borrowed then
        { s with weaves := s.weaves.map fun (x : Weave) => if x.wid = p then { x with lent := false } else x } else s
    | none => s
  let s := s.setWeave { w with borrowed := false }
  let s := s.zeroVault w
  let s := pins.foldl (fun s (c, p) => s.takeCore w c p) s
  let s := s.wireUp w
  w.cores.foldl (fun s c => s.startTeam w c) s

/-- The oldest pool entry of the first class that has one (R361). A draining partition's launches are passed over (R367). -/
def State.nextLaunch (s : State) : Option Weave :=
  let waiting := s.weaves.filter fun (w : Weave) => !w.placed && (s.partRec w.part).draining.isNone
  let kids := waiting.filter fun w => w.parent.isSome
  (if kids.isEmpty then waiting else kids).foldl (fun (b : Option Weave) w =>
    match b with
    | some x => if w.order < x.order then some w else some x
    | none => some w) none

/-- Whether a segment image of the map has a line that cannot be read. -/
def State.imagesBad (s : State) (w : Weave) (segs : List Segment) : Bool :=
  (indexed segs).any fun (i, g) => g.replicas.any fun c => (s.image w c (i + 1)).length != 256

/-- Upsets of the segment images that a heddle map names are met before they are read. -/
def State.touchImages (s : State) (w : Weave) (segs : List Segment) : State :=
  if s.upsets.isEmpty && s.exact.isEmpty then s
  else (indexed segs).foldl (fun s (i, g) => g.replicas.foldl (fun s c => (List.range 256).foldl (fun s j =>
    s.touchAt ⟨c, w.part, w.root, w.wid, false⟩ (s.posOf c 0) .fetch (recCB w.words + BitVec.ofNat 64 (16384 * (i + 1) + 64 * j)) 64) s) s) s

/-- LAUNCH_PLACEMENT: the oldest entry is rejected, or placed where the device chooses if all it needs is free there. -/
def execLaunchPlacement (choice : List DieChoice) (vb : Nat) (s : State) : Out :=
  match s.nextLaunch with
  | none => eventStep s
  | some w =>
    let ws := w.words
    let h := shapeOf ws
    let x := s.launchCtx w.part w.root w.wid
    let s := s.touchExtras x (s.posOf x.core 0) ws
    let e := s.readExtras x ws
    let segs := (e.map.getD []).map (·.2)
    let w1 := { w with ext := e.ext.getD [], heddle := segs }
    let s := s.touchImages w1 segs
    match s.launchCode w.part ws e w.parent.isSome true (recShm ws && s.imagesBad w1 segs) with
    | some c => eventStep (s.rejectLaunch w c).takeQueues
    | none =>
      let cores := if recShm ws then segs.flatMap Segment.replicas else choiceCores h.cpt choice
      let vb := if recVault ws = 0 then 0 else vb
      let keyed := recWord ws 10 == 0 || sameCores cores (s.retaining w.part (recWord ws 10))
      if s.inTeam w.wid (ownPkg s) && (recShm ws || s.choiceFits w.part h choice) && keyed && s.fits ws cores vb then
        eventStep ((s.placeWeave { w1 with placed := true, cores := cores, vb := vb }).takeQueues)
      else eventStep s

/-! ## LAUNCH and EXIT (R365, R366) -/

/-- The record at an address as MemRead finds it: its words, or none for an uncorrectable error. -/
def State.readRecord (s : State) (ga : Word) : Except Trap (Option (List Word)) :=
  match (List.range 16).mapM (m := Except Trap) fun i =>
    let a := ga + BitVec.ofNat 64 (8 * i)
    s.check s.ctx .load false 8 ga a 8 with
  | .error t => .error { t with val := ga }
  | .ok ys =>
    .ok (if ys.any s.sitePoisoned then none else some (ys.map fun y => BitVec.ofNat 64 (s.readSite y)))

/-- A pool entry for a LAUNCH: a free one, or its weave's reserved entry (R360). -/
def State.launchEntry (s : State) : Option (Bool × State) :=
  if 0 < s.poolFree then some (false, s)
  else
    match s.weaveOf s.me.wid with
    | some w => if w.borrowed || w.lent then none else some (true, s.setWeave { w with lent := true })
    | none => none

def launchForm (x : DA) (wait : Bool) (s : State) : Res :=
  match s.me.stage with
  | .childOut _ => .wait s .launchW
  | .childDone v => .ok (s.wg x.d v)
  | _ =>
    memOp s fun s =>
      let ga := s.rg x.a
      if ga.toNat % 64 ≠ 0 then trapOf s 0x13 0 ga
      else
        releaseWait s fun s =>
          s.walked 1 [ga, ga + 64] fun s =>
            let pos := s.posOf s.core s.slot
            let s := s.touch s.ctx pos ga 16
            match s.readRecord ga with
            | .error t => .trap s t
            | .ok none => .ok (s.sided.wg x.d (BitVec.ofNat 64 (2 ^ 63 + 7)))
            | .ok (some ws) =>
              let part := s.me.part
              let root := s.rootOf s.me.wid
              let c := s.launchCtx part root s.me.wid
              let s := s.touchExtras c pos ws
              match s.launchCode part ws (s.readExtras c ws) true false false with
              | some k => .ok (s.sided.wg x.d (BitVec.ofNat 64 (2 ^ 63 + k)))
              | none =>
                match s.launchEntry with
                | none => trapOf s 0x58 0 0
                | some (borrowed, s) =>
                  let (wid, s) := s.enterPool part root ws (some s.me.wid) borrowed 0
                  let s := s.sided.wg x.d (BitVec.ofNat 64 wid)
                  if wait then .wait { s with me := { s.me with stage := .childOut wid } } .launchW else .ok s

def runLaunch (x : DA) (s : State) : Res := launchForm x false s
def execLaunch (x : DA) (s : State) : Out := (runLaunch x s).finish s

def runLaunchW (x : DA) (s : State) : Res := launchForm x true s
def execLaunchW (x : DA) (s : State) : Out := (runLaunchW x s).finish s

/-- A strand stops and its state is discarded: its owed reply is a fault reply, its stream ends are orphaned. -/
def State.discardStrand (s : State) (k : StrandIx) : State :=
  let x := s.strand k
  let s := match x.owed with
    | some r => s.faultReply r
    | none => s
  let s := s.orphanEnds x.wid x.q true
  s.freeSlot k

/-- Every shuttle of a weave is discarded, its stream ends orphaned. -/
def State.discardShuttles (s : State) (wid : Nat) : State :=
  let gone := s.shuttlesOf wid
  let keep (l : List Shuttle) : List Shuttle := l.filter fun h => h.wid != wid
  let s := gone.foldl (fun s h => s.orphanEnds wid h.q true) s
  { s with
    net := { s.net with shuttles := keep s.net.shuttles }
    cores := s.cores.map fun (c, x) => (c, { x with arrivals := keep x.arrivals, shed := keep x.shed })
    parts := s.parts.map fun (p, x) => (p, { x with overflow := keep x.overflow }) }

/-- A core of an ended weave lingers: its messages and ring entries are discarded, its loom operations too. -/
def State.linger (s : State) (c : CoreIx) : State :=
  let x := s.coreRec c
  let s := x.inbox.foldl (fun s m => s.dropMsg c m.msg) s
  let ops := x.loomq.map (·.id)
  let s := ops.foldl (fun s id => [tileOf (loomCore c 0), tileOf (loomCore c 4)].foldl (fun s t =>
    s.modTile t fun u => { u with claims := u.claims.filter fun cl => cl.op != id }) s) s
  s.modCore c fun x => { x with linger := true, pinSeg := none, inbox := [], ready := [], loomq := [] }

/-- A push of the weave that waits is dropped with its acknowledgement sent. -/
def State.dropPushes (s : State) (wid : Nat) : State :=
  let gone := s.net.pushes.filter fun p => p.wid == wid
  s.modNet fun n => { n with pushes := n.pushes.filter fun p => p.wid != wid, acks := n.acks ++ gone.filterMap (·.ack) }

/-- Every strand, shuttle, message and ring entry of a weave ends, and its cores linger. -/
def State.stopWeave (s : State) (w : Weave) : State :=
  let s := (s.strandsOf w.wid).foldl (fun s k => s.discardStrand k) s
  let s := (s.discardShuttles w.wid).dropPushes w.wid
  let owed := (s.saves.filter fun (v : Save) => v.wid == w.wid).flatMap fun v => v.strands.filterMap fun x => x.2.owed
  let s := owed.foldl (fun s r => s.reply r 0 none) s
  let s := { s with saves := s.saves.filter fun (v : Save) => v.wid != w.wid }
  let held := w.cores.filter fun c => (s.coreRec c).wid = some w.wid
  held.foldl (fun s c => (s.linger c).lingerDone c) s

/-- EXIT: the whole weave ends with a code; a handler's own owed reply carries 0. -/
def runExit (code : BitVec 8) (s : State) : Res :=
  afterMemPasses s
    (releaseWait s fun s =>
      let s := match s.me.owed with
        | some r => { s.reply r 0 none with me := { s.me with owed := none } }
        | none => s
      match s.weaveOf s.me.wid with
      | none => .gone (s.haltStrand 0 0)
      | some w =>
        let w' := { w with exiting := true, how := 2, code := code }
        .gone ((s.setWeave w').stopWeave w'))
def execExit (code : BitVec 8) (s : State) : Out := (runExit code s).finish s

/-! ## The end of a weave (R356) -/

/-- WEAVE_END: a weave that is over ends, and the pool entry it frees may let host launches in. -/
def execWeaveEnd (wid : Nat) (s : State) : Out :=
  match s.weaveOf wid with
  | none => eventStep s
  | some w =>
    if s.weaveOver w then
      eventStep (s.endWeave w (if w.exiting then 2 else 1) (if w.exiting then w.code else 0)).takeQueues
    else eventStep s

end Sys2Proof.Machine
end

