-- ==== Sys2Proof/Machine/Context.lean ====
section
/-! DEFINITION. Saving and restoring weaves: the forced save, sleep-swap, the drain of a partition, and restore (R112, R144, R163,
R223, R331, R367 to R371). -/

namespace Sys2Proof.Machine

/-! ## Stopping a weave (R368) -/

/-- A stage in which a treadle's entry, or a member of a gang not yet formed, may be saved. -/
def Stage.unformed : Stage → Bool
  | .none | .gangOut => true
  | _ => false

/-- Whether a strand stands where a save may take it: not with a wake of its wait, resumed or parked, on its way (R370). -/
def Strand.atRest (x : Strand) : Bool :=
  (x.stage.atSave || x.stage == .gangOut) && x.half.isNone && x.refetch.isNone && x.tr.stage.unformed
    && !x.waits.contains .wakeSent

/-- A posted write that waits only for a full ring is saved with its push. -/
def State.settledPost (s : State) (c : CoreIx) (p : Posted) : Bool :=
  s.net.pushes.any fun q => q.ack == some ⟨c, p.seq⟩

/-- The local memories and vault ranges of a weave, as first key and length. -/
def State.weaveRanges (s : State) (w : Weave) : List (Nat × Nat) :=
  ((w.cores.filter fun c => (s.coreRec c).wid == some w.wid).map fun c => (localKey c 0, localSize))
    ++ w.blocks.map fun b => (vaultKey b w.vb, recVault w.words)

def inRanges (rs : List (Nat × Nat)) (k : Nat) : Bool := rs.any fun (lo, n) => decide (lo ≤ k) && decide (k < lo + n)

/-- Whether a local memory of the weave holds an error past correction, which its save would read: the core is quarantined first
(R395, R398). -/
def State.localsGone (s : State) (w : Weave) : Bool :=
  s.upsets.any fun u => u.fatal && (localOf u.key).isSome && inRanges (s.weaveRanges w) u.key

/-- Steps 2 and 3 of a forced save are over: every strand but the one that saves is at rest, posted writes are acknowledged,
copies have filled their slots, and every operation of the partition's looms has completed (R163). -/
def State.saveReady (s : State) (w : Weave) (self : Option StrandIx) : Bool :=
  ((s.strandsOf w.wid).all fun k => self == some k || (s.strand k).atRest)
    && (s.cores.all fun (c, x) => x.posted.all fun p => p.wid != w.wid || s.settledPost c p)
    && !s.copiesOf w.wid
    && (s.cores.all fun (c, x) => !s.dieIn w.part (dieOf c) || x.loomq.isEmpty)
    && !s.localsGone w

/-! ## Writing an area -/

/-- A strand as an area holds it: a waiting gang operation is withdrawn, and a SLEEP keeps the cycles left. -/
def Strand.packed (x : Strand) (now : Nat) : Strand :=
  let st := match x.stage with
    | .gangOut => .none
    | .sleeping t => .sleeping (t - now)
    | st => st
  let tr := if x.tr.stage = .gangOut then { x.tr with stage := .none } else x.tr
  { x with stage := st, issued := if st = .none then none else x.issued, tr := tr, waiting := none, waitSeq := none }

/-- A core as an area holds it: its shuttles go into the area's own list. -/
def Core.packed (x : Core) : Core := { x with arrivals := [], shed := [], lqWait := [], posted := [], copies := [] }

/-- The area of a weave as it stands. A poisoned sync object does not outlive the save (R397). -/
def State.areaOf (s : State) (w : Weave) (addr len : Nat) (swapped : Bool) : Save :=
  let ks := s.strandsOf w.wid
  let rs := s.weaveRanges w
  let mine (r : ReplyTo) : Bool :=
    ks.contains r.strand && ((s.entryFor r).map (·.req.rq)).getD false
  { wid := w.wid
    addr := addr
    len := len
    whole := true
    swapped := swapped
    notify := false
    strands := ks.map fun k => (k, (s.strand k).packed (s.now (coreOf k)))
    cores := (w.cores.filter fun c => (s.coreRec c).wid == some w.wid).map fun c => (c, (s.coreRec c).packed)
    bytes := s.mem.filter fun b => inRanges rs b.1
    phasers := s.phasers.filter fun p => p.wid == w.wid && !p.poisoned
    members := s.members.filter fun m => m.wid == w.wid && !s.phasers.any fun p => p.poisoned && p.wid == m.wid && p.blk == m.blk && p.idx == m.idx
    rings := s.rings.filter fun r => r.wid == w.wid && !r.poisoned
    streams := s.streams.filter fun y => y.wid == w.wid && !y.poisoned
    tiles := (w.cores.map tileOf).eraseDups.map fun t => (t, (s.tileRec t).tw)
    rows := (w.cores.map loomOf).eraseDups.map fun l => (l, Tab.get [] s.rows l)
    shuttles := sortBy (·.order) (s.shuttlesOf w.wid)
    poison := s.poison.filter (inRanges rs)
    relTags := s.relTags.filter fun t => inRanges rs t.1
    msgs := s.net.msgs.filter fun m => m.wid == w.wid
    pushes := s.net.pushes.filter fun p => p.wid == w.wid
    replies := s.net.tagReplies.filter fun r => mine r.ref
    items := s.net.items.filter fun i => i.wid == w.wid
    credits := s.net.credits.filter fun c => c.1 == w.wid
    orphans := s.net.orphans.filter fun o => o.wid == w.wid
    wakes := 0 }

/-- A strand's slot is emptied into an area. -/
def State.saveStrand (s : State) (k : StrandIx) : State :=
  s.freeSlot k

/-- Everything of the weave that an area holds leaves the machine, zeroed (R371). -/
def State.clearWeave (s : State) (w : Weave) (sv : Save) : State :=
  let acks := sv.pushes.filterMap (·.ack)
  let ks := sv.strands.map (·.1)
  let keep (l : List Shuttle) : List Shuttle := l.filter fun h => h.wid != w.wid
  let s := { s with
    net := { s.net with
      shuttles := keep s.net.shuttles
      msgs := s.net.msgs.filter fun m => m.wid != w.wid
      pushes := s.net.pushes.filter fun p => p.wid != w.wid
      acks := s.net.acks ++ acks
      tagReplies := s.net.tagReplies.filter fun r => !sv.replies.contains r
      checks := s.net.checks.filter fun c => !ks.contains c.strand
      items := s.net.items.filter fun i => i.wid != w.wid
      credits := s.net.credits.filter fun c => c.1 != w.wid
      orphans := s.net.orphans.filter fun o => o.wid != w.wid }
    cores := s.cores.map fun (c, x) => (c, { x with arrivals := keep x.arrivals, shed := keep x.shed })
    parts := s.parts.map fun (p, x) => (p, { x with overflow := keep x.overflow }) }
  let s := ks.foldl State.saveStrand s
  let s := sv.cores.foldl (fun s (c, _) => (s.zeroRange (localKey c 0) localSize).emptyCore c) s
  (s.zeroVault w).dropObjects w.wid

/-- Shed shuttles of a weave are read from their rings as they are saved: one with an unusable word bears the mark of it (R397). -/
def State.readShed (s : State) (w : Weave) : State :=
  w.cores.foldl (fun s c =>
    (s.coreRec c).shed.foldl (fun s h =>
      let lo := s.shedKey c h
      let s := s.meetRangeAs w.wid (s.posOf c 0) lo 576
      if s.rangePoisoned lo 576 then
        s.modCore c fun x => { x with shed := x.shed.map fun g => if g.order = h.order then { g with poison := some (s.keyLoc lo) } else g }
      else s) s) s

/-- Step 4 of a forced save, and the release of the weave's resources. An area it overwrites is lost. What it meets is logged with the
weave and its first core (log entry 132). -/
def State.performSave (s : State) (w : Weave) (addr : Nat) (swapped : Bool) : State :=
  let us := s.upsets.filter fun u => inRanges (s.weaveRanges w) u.key
  let pos := s.posOf (w.cores.headD 0) 0
  let s := us.foldl (State.meetUpsetAs w.wid pos) s
  let s := s.readShed w
  let len := s.saveLength w.wid (s.strandsOf w.wid).length
  let s := s.loseSaves addr len
  let sv := s.areaOf w addr len swapped
  let s := s.writeArea addr w.wid len (if swapped then 1 else 0) pos
  let s := s.clearWeave w sv
  ({ s with saves := s.saves ++ [sv] }).setWeave { w with saved := true, stopping := false }

/-! ## SAVECTX (R369) -/

/-- Whether an area of a length lies in the partition's context region on a 4 KiB boundary. -/
def State.areaOk (s : State) (part a len : Nat) : Bool :=
  let p := s.partRec part
  a % 4096 == 0 && decide (p.ctxr.toNat ≤ a) && decide (a + len ≤ p.ctxr.toNat + p.ctxs.toNat)

/-- The resident weaves of a partition. -/
def State.resident (s : State) (part : Nat) : List Weave :=
  s.weaves.filter fun (w : Weave) => w.placed && !w.saved && !w.exiting && w.part == part

/-- Whether every strand of a weave sleeps as a sleep-swap asks, in PHSW too (R282), with no shuttle in flight and no message or
ready-ring entry waiting, a message or push under way among them (R369; log entry 78). -/
def State.asleep (s : State) (w : Weave) : Bool :=
  ((s.strandsOf w.wid).all fun k =>
      match (s.strand k).stage with
      | .waiter .. | .phWait .. | .phSw .. | .wWait _ | .childOut _ => true
      | _ => false)
    && !(s.net.shuttles.any fun h => h.wid == w.wid)
    && !(s.net.msgs.any fun m => m.wid == w.wid) && !(s.net.pushes.any fun p => p.wid == w.wid)
    && w.cores.all fun c => let x := s.coreRec c; x.wid != some w.wid || (x.inbox.isEmpty && x.ready.isEmpty)

/-- The weave ga names: resident in the own partition. -/
def State.saveTarget (s : State) (ga : Word) : Option Weave :=
  (s.resident s.me.part).find? fun w => w.wid == (ga.extractLsb' 32 32).toNat

def saveLen (s : State) (w : Weave) : Nat := s.saveLength w.wid (s.strandsOf w.wid).length

/-- SAVECTX and SAVECTX.swap: the weave stops, and once it is at rest it is saved. A strand that saves its own weave is saved
at the next instruction. -/
def saveForm (x : DAB) (swap : Bool) (s : State) : Res :=
  requireSys s
    (match s.saveTarget (s.rg x.a) with
     | none => .trap s (rights 36 (s.rg x.a))
     | some w =>
       let addr := (s.rg x.b).toNat
       let len := saveLen s w
       let mine := w.stopping && s.me.waiting == some .save
       if !s.areaOk s.me.part addr len then .trap s (rights 37 (s.rg x.b))
       else if !s.inWindow addr len then .trap s (rights 17 (s.rg x.b))
       else if swap && !mine && !s.asleep w then .ok (s.wg x.d 0)
       else
         let own := s.me.wid == w.wid
         let w1 := { w with stopping := true }
         let s := s.setWeave w1
         if !s.saveReady w1 (if own then some s.cur else none) then .wait s .save
         else if own then
           let y := (s.wg x.d (BitVec.ofNat 64 len)).me
           let s := { s with me := { y.settle with pc := s.iss.next } }
           .gone (s.performSave w1 addr swap)
         else .ok ((s.performSave w1 addr swap).wg x.d (BitVec.ofNat 64 len)))

def runSavectx (x : DAB) (s : State) : Res := saveForm x false s
def execSavectx (x : DAB) (s : State) : Out := (runSavectx x s).finish s

def runSavectxSwap (x : DAB) (s : State) : Res := saveForm x true s
def execSavectxSwap (x : DAB) (s : State) : Out := (runSavectxSwap x s).finish s

/-- SAVECTX.drain: no launch of the partition is placed from now on, and the drain count runs. An operand other than 0 is an
illegal instruction (R369; log entry 79). -/
def runSavectxDrain (x : DAB) (s : State) : Res :=
  requireSys s
    (if s.rg x.a ≠ 0 ∨ s.rg x.b ≠ 0 then illegalHere s
     else
     let part := s.me.part
     let n := (s.resident part).length
     let now := s.cycle ((s.partDies part).headD 0)
     .ok ((s.modPart part fun p => { p with draining := p.draining.or (some now) }).wg x.d (BitVec.ofNat 64 n)))
def execSavectxDrain (x : DAB) (s : State) : Out := (runSavectxDrain x s).finish s

def runSavectxSize (x : DAB) (s : State) : Res :=
  requireSys s
    (match s.saveTarget (s.rg x.a) with
     | none => .trap s (rights 36 (s.rg x.a))
     | some w => .ok (s.wg x.d (BitVec.ofNat 64 (saveLen s w))))
def execSavectxSize (x : DAB) (s : State) : Out := (runSavectxSize x s).finish s

/-- DRAIN_EXPIRY: once the drain count has passed DRAIN, the resident weave of lowest WID stops, and is saved when it is at
rest; not into an area in host memory outside the host's window (R411; log entry 115). -/
def execDrainExpiry (part : Nat) (s : State) : Out :=
  match (s.partRec part).draining with
  | none => eventStep s
  | some t =>
    let now := s.cycle ((s.partDies part).headD 0)
    if now ≤ t + (s.partRec part).drain.toNat then eventStep s
    else
      let low := (s.resident part).foldl (fun (b : Option Weave) w =>
        match b with
        | some y => if w.wid < y.wid then some w else some y
        | none => some w) none
      match low with
      | none => eventStep s
      | some w =>
        let w1 := { w with stopping := true }
        let s := s.setWeave w1
        if !s.saveReady w1 none then eventStep s
        else
          let (addr, s1) := s.takeArea part (saveLen s w1)
          if !s.inWindow addr (saveLen s w1) then eventStep s else eventStep (s1.performSave w1 addr false)

/-! ## Restore (R223, R331, R369, R370) -/

/-- Whether the positions an area was saved from are free. An area of one strand that a double fault stopped needs only its
slot. -/
def State.areaFree (s : State) (w : Weave) (sv : Save) : Bool :=
  if sv.whole then
    let cs := (w.cores.filter fun c => (s.coreRec c).wid == some w.wid) ++ sv.cores.map (·.1)
    let mine (c : CoreIx) : Bool := (s.coreRec c).wid == some w.wid
    w.saved && (cs.all fun c => mine c || s.coreFree 0 c)
      && ((cs.map tileOf).eraseDups.all fun t => (List.range 16).all fun m =>
            let c := tileCore t m
            (s.coreRec c).wid.isNone || mine c)
      && ((cs.map blockOf).eraseDups.all fun b => s.engineFree w.words b
            && s.vaultFree w.words w.vb (coresIn (sv.cores.filterMap fun (c, x) =>
                if x.pinSeg.isSome && !mine c then some c else none) b) b)
  else sv.strands.all fun (k, _) => !(s.strand k).live && (s.coreRec (coreOf k)).wid == some w.wid

/-- A core takes back what it held; its counters, posted writes and health are its own. -/
def Core.restored (now old : Core) : Core :=
  { old with
    quar := now.quar
    posted := now.posted
    nextSeq := now.nextSeq
    copies := now.copies
    mtlb := now.mtlb
    cnt := now.cnt
    report := now.report
    reported := now.reported
    victim := now.victim
    partLast := now.partLast
    loomq := [] }

/-- The epochs a restored strand finds: the slot's own, but for an entry whose reply a SEND.rq is still owed, which keeps the
epoch its request bears (R222, R223, R275; log entry 108). -/
def restoredEpochs (x now : Strand) : Vector (BitVec 8) 32 :=
  Vector.ofFn fun i => if x.ls.any fun e => e.idx == i.val && e.waiting && e.req.rq then x.epochs[i] else now.epochs[i]

/-- A strand takes its slot again: its sleep goes on, and its outstanding loads are sent again, each entry with a new epoch
(R223). -/
def State.restoreStrand (s : State) (k : StrandIx) (x : Strand) : State :=
  let st := match x.stage with
    | .sleeping n => .sleeping (s.now (coreOf k) + n)
    | st => st
  let s := s.setStrand k { x with stage := st, refetch := none, epochs := restoredEpochs x (s.strand k),
                                  lastGen := (s.strand k).lastGen, stampCyc := none, took := none, counted := none }
  let es := x.ls.filter fun e => e.waiting && !e.req.rq
  es.foldl (fun s e => (s.modStrand k (·.bumpEpoch e.idx)).sendEntry k e.idx e.req) s

/-- Forced save is entered first; what the strand waits for is parked, and the ERET resumes it (R282, R365, R370). -/
def State.notifyStrand (s : State) (k : StrandIx) : State :=
  let x := s.strand k
  if x.sys then s
  else
    let park := if x.stage = .none then x.parked else some (x.pc, x.stage, x.issued)
    let s := s.setStrand k { x with stage := .none, parked := park }
    ((s.switchTo k).takeTrap ⟨0x78, 0, 0, some x.pc, 0⟩ 0).switchTo s.cur

/-- A saved shuttle is sent again by replica choice, and its stream ends' moves with it (R331, R347). With no replica left it is
held (R398). -/
def State.resend (s : State) (w : Weave) (h : Shuttle) : State :=
  match (w.segment h.seg).bind (s.replica w.wid) with
  | some c =>
    let s := h.q.toList.foldl (fun s b => s.redirectEnd h.wid h.core c b) s
    s.launchShuttle { h with core := c, since := none, first := 0, cls := 1 }
  | none => s.holdShuttle { h with since := none, first := 0, cls := 1 }

/-- Puts an area's weave back. A core that SEGREP added since finds the launch record's wired words in its tile and loom row (R283).
A strand saved on a core that SEGREP.del removed takes its slot there again, which is the model's choice (R334; log entry 129). -/
def State.performLoad (s : State) (w : Weave) (sv : Save) : State :=
  let notify := s.mem.read (sv.addr + 16) &&& 2 != 0
  let s := { s with saves := s.saves.filter fun (v : Save) => v.addr != sv.addr }
  let s := if sv.whole then
      let s := s.setWeave { w with saved := false }
      let s := sv.cores.foldl (fun s (c, x) =>
        ((s.zeroRange (localKey c 0) localSize).passTo w.part c).modCore c fun now => Core.restored now x) s
      let s := s.zeroVault w
      let back : List Push := sv.pushes.map fun (p : Push) => { p with ack := none }
      let s := { s with
        mem := s.mem.writeAll sv.bytes
        poison := sv.poison ++ s.poison
        relTags := sv.relTags ++ s.relTags
        phasers := s.phasers ++ sv.phasers
        members := s.members ++ sv.members
        rings := s.rings ++ sv.rings
        streams := s.streams ++ sv.streams
        net := { s.net with
          msgs := s.net.msgs ++ sv.msgs
          pushes := s.net.pushes ++ back
          tagReplies := s.net.tagReplies ++ sv.replies
          items := s.net.items ++ sv.items
          credits := s.net.credits ++ sv.credits
          orphans := s.net.orphans ++ sv.orphans } }
      let s := s.wireUp w
      let s := sv.tiles.foldl (fun s (t, tw) => s.modTile t fun u => { u.take w.ext with tw := tw }) s
      let s := { s with rows := sv.rows.foldl (fun r (l, x) => Tab.set r l x) s.rows }
      sv.shuttles.foldl (fun s h => s.resend w h) s
    else s
  let s := sv.strands.foldl (fun s (k, x) => s.restoreStrand k x) s
  if notify then sv.strands.foldl (fun s (k, _) => s.notifyStrand k) s else s

/-- LOADCTX. It reads its area, and a word past correction there raises an uncorrectable data error (R397; log entry 115). The
identifier of an area that holds no weave's context is a value the spec does not give. -/
def runLoadctx (x : DAB) (s : State) : Res :=
  requireSys s
    (let gb := s.rg x.b
     let found := s.saves.find? fun (v : Save) => v.addr == gb.toNat
     let len := (found.map (·.len)).getD 32
     if !s.areaOk s.me.part gb.toNat len then .trap s (rights 37 gb)
     else if !s.inWindow gb.toNat len then .trap s (rights 17 gb)
     else
       let s := (s.meetRange gb.toNat len).foldRange gb.toNat len
       if s.rangePoisoned gb.toNat len then .trap s ⟨0x60, 0, gb, none, 0⟩
       else
       match found with
       | none => let (n, s) := s.draw; .ok (s.wg x.d (Config.freeWord n))
       | some sv =>
         match s.weaveOf sv.wid with
         | none => let (n, s) := s.draw; .ok (s.wg x.d (Config.freeWord n))
         | some w =>
           if s.areaFree w sv then .ok ((s.performLoad w sv).wg x.d (BitVec.ofNat 64 sv.wid)) else .ok (s.wg x.d 0))
def execLoadctx (x : DAB) (s : State) : Out := (runLoadctx x s).finish s

end Sys2Proof.Machine
end

