-- ==== Sys2Proof/Machine/Paging.lean ====
section
/-! DEFINITION. Page walks and TLB fills, page-in with its frame rings and completion words, TLB invalidation, and the copy of a
page to flash (R200, R381 to R393). -/

namespace Sys2Proof.Machine

/-! ## Invalidation (R390, R391) -/

/-- Whether an invalidation removes a cached leaf. -/
def Inval.hitsLeaf (v : Inval) (e : TlbEntry) : Bool :=
  e.part == v.part &&
    match v.kind with
    | .page va root => e.root == root && decide (e.base ≤ va) && decide (va < e.base + e.size)
    | .root root => e.root == root
    | .all => true

/-- Whether an invalidation removes a cached table entry: one on the page's path. -/
def Inval.hitsTable (v : Inval) (e : WalkEntry) : Bool :=
  e.part == v.part &&
    match v.kind with
    | .page va root => e.root == root && e.pre == va / 2 ^ (13 + 10 * e.lvl)
    | .root root => e.root == root
    | .all => true

/-- An invalidation is sent to every micro-TLB, tile TLB and walk cache of the partition that holds an entry it removes. -/
def State.sendInvals (s : State) (kind : InvKind) : State :=
  let part := s.me.part
  let (id, s) := s.fresh
  let v (t : InvTarget) : Inval := ⟨id, part, kind, t⟩
  let probe : Inval := v (.core 0)
  let cs := (s.cores.filter fun (c, x) => s.dieIn part (dieOf c) && x.mtlb.any probe.hitsLeaf).map fun x => v (.core x.1)
  let ts := (s.tiles.filter fun (t, x) => s.dieIn part (t / 640) && x.tlb.any probe.hitsLeaf).map fun x => v (.tile x.1)
  let bs := (s.blocks.filter fun (b, x) => s.dieIn part (b / 160) && x.walkc.any probe.hitsTable).map fun x => v (.block x.1)
  { s.modNet (fun n => { n with invals := n.invals ++ cs ++ ts ++ bs }) with me := { s.me with invs := s.me.invs ++ [id] } }

/-- TLB_INVALIDATE_APPLY: the n-th invalidation reaches its target. -/
def execTlbInvalidateApply (n : Nat) (s : State) : Out :=
  match s.net.invals[n]? with
  | none => eventStep s
  | some v =>
    let s := s.modNet fun m => { m with invals := m.invals.eraseIdx n }
    let s := match v.target with
      | .core c => s.modCore c fun x => { x with mtlb := x.mtlb.filter fun e => !v.hitsLeaf e }
      | .tile t => s.modTile t fun x => { x with tlb := x.tlb.filter fun e => !v.hitsLeaf e }
      | .block b => s.modBlock b fun x => { x with walkc := x.walkc.filter fun e => !v.hitsTable e }
    eventStep s

/-- An invalidation acts as a release: it waits for treadle passes that access memory (R141, R235, R391). -/
def tlbinvForm (s : State) (ok : Bool) (kind : InvKind) : Res :=
  requireSys s (if ok then afterMemPasses s (releaseWait s fun s => .ok (s.sendInvals kind)) else illegalHere s)

def goodRoot (gb : Word) : Bool := gb.toNat % 65536 == 0
def goodPage (ga gb : Word) : Bool := ga.extractLsb' 56 8 == 0 && goodRoot gb

def runTlbinv (x : AB) (s : State) : Res :=
  tlbinvForm s (goodPage (s.rg x.a) (s.rg x.b)) (.page (s.rg x.a).toNat (s.rg x.b).toNat)
def execTlbinv (x : AB) (s : State) : Out := (runTlbinv x s).finish s

def runTlbinvAs (b : GReg) (s : State) : Res := tlbinvForm s (goodRoot (s.rg b)) (.root (s.rg b).toNat)
def execTlbinvAs (b : GReg) (s : State) : Out := (runTlbinvAs b s).finish s

def runTlbinvAll (s : State) : Res := tlbinvForm s true .all
def execTlbinvAll (s : State) : Out := (runTlbinvAll s).finish s

/-! ## TLBSYNC (R392) -/

/-- The accesses of a partition under way whose translations have been made: its posted writes by core and number, its requests
on their way to a home, its page-ins by their completion words, and the copy commands with writes still to make. -/
structure UnderWay where
  posted : List (Nat × Nat)
  reqs : List Nat
  pageins : List Nat
  copies : List Nat
  deriving DecidableEq, Repr

def State.underWay (s : State) (part : Nat) : UnderWay where
  posted := (s.cores.filter fun (c, _) => s.dieIn part (dieOf c)).flatMap fun (c, x) => x.posted.map fun p => (c, p.seq)
  reqs := (s.net.reqs.filter fun r => s.dieIn part (dieOf r.core)).map (·.id)
  pageins := (s.net.pageins.filter fun p => p.part == part).map (·.word)
  copies := s.tiles.flatMap fun (_, t) => (t.copyq.filter fun c => c.part == part && c.late.isSome).map fun c => c.seq * 2 ^ 24 + c.core

/-- Whether any of a list of accesses is still under way. -/
def State.stillOut (s : State) (part : Nat) (o : UnderWay) : Bool :=
  let now := s.underWay part
  o.posted.any now.posted.contains || o.reqs.any now.reqs.contains || o.pageins.any now.pageins.contains
    || o.copies.any now.copies.contains

/-- Waits until every invalidation the strand has sent is applied, and then until every access that was under way at that
moment has been performed. -/
def tlbWaits (s : State) (page : Nat) (k : State → Res) : Res :=
  match s.me.stage with
  | .tlbWait _ posted reqs pageins copies =>
    if s.stillOut s.me.part ⟨posted, reqs, pageins, copies⟩ then .wait s .sync
    else k { s with me := { s.me with invs := [] } }
  | _ =>
    if s.net.invals.any fun v => s.me.invs.contains v.id then .wait s .sync
    else
      let o := s.underWay s.me.part
      if !s.stillOut s.me.part o then k { s with me := { s.me with invs := [] } }
      else .wait { s with me := { s.me with stage := .tlbWait page o.posted o.reqs o.pageins o.copies } } .sync

def runTlbsync (s : State) : Res := requireSys s (afterMemPasses s (tlbWaits s 0 fun s => fence .full .package s))
def execTlbsync (s : State) : Out := (runTlbsync s).finish s

/-! ## TLBINV.out and the copy to flash (R387, R393) -/

/-- The entry of a page, resident or spilled, that a walk under a root ends in. -/
def State.entryAt (s : State) (root : Nat) (va : Word) : Except WalkFail Leaf := s.walk root va

def runTlbinvOut (x : DABC) (s : State) : Res :=
  let ga := s.rg x.a
  let gb := s.rg x.b
  let gc := s.rg x.c
  let copy (page : Nat) (s : State) : Res :=
    let (id, s) := s.fresh
    .wait { s.modNet (fun n => { n with flash := n.flash ++ [(id, gc.toNat, page, s.cur)] }) with
      me := { s.me with stage := .flashOut id } } .flash
  requireSys s
    (match s.me.stage with
     | .flashOut _ => .wait s .flash
     | .flashDone w => .ok (s.wg x.d w)
     | .tlbSent page => tlbWaits s page (copy page)
     | .tlbWait page .. => tlbWaits s page (copy page)
     | _ =>
       if s.isP || !goodPage ga gb || 0x7FFFFFF < gc.toNat then illegalHere s
       else
         afterMemPasses s (releaseWait s fun s =>
           let s := s.touchWalk s.me.wid (s.posOf s.core s.slot) (upTo s.wordGone (s.walkWords ga.toNat 3 gb.toNat))
           match s.entryAt gb.toNat ga with
           | .error .poison => .trap s ⟨0x60, 0, ga, none, 0⟩
           | .error .window => .trap s (rights 17 ga)
           | .error (.sub _) => .trap s (rights 5 ga)
           | .ok l =>
             if pteST l.pte ≠ 1 then .trap s (rights 5 ga)
             else
               let page := pteFrame l.pte % 2 ^ 32
               let s := s.sendInvals (.page ga.toNat gb.toNat)
               tlbWaits { s with me := { s.me with stage := .tlbSent page } } page (copy page)))
def execTlbinvOut (x : DABC) (s : State) : Out := (runTlbinvOut x s).finish s

/-- Copies n bytes of storage verbatim; a poisoned word's place in the copy is unusable as well. -/
def State.copyStorage (s : State) (src dst n : Nat) : State :=
  let inside (k : Nat) : Bool := decide (src ≤ k) && decide (k < src + n)
  let bytes := (s.mem.filter fun c => inside c.1).map fun c => (c.1 - src + dst, c.2)
  let bad := (s.poison.filter inside).map fun k => k - src + dst
  let s := (s.fold (keysFrom dst n ++ keysFrom src n)).zeroRange dst n
  { s with mem := s.mem.writeAll bytes, poison := bad ++ s.poison }

/-- The words of n storage keys from lo on that an unmet error leaves past correction. -/
def State.deadWords (s : State) (lo n : Nat) : List Nat :=
  ((s.upsets.filter fun u => u.fatal && decide (lo ≤ u.key) && decide (u.key < lo + n)).map fun u => u.key / 8 * 8).eraseDups

/-- Errors in a flash page that the flash controller corrects as it is read: logged, and counted nowhere (R395, R396, R404). -/
def State.meetFlash (s : State) (src die : Nat) (loc : Word) (wid : Nat) (pos : Word) : State :=
  let mine (u : Upset) : Bool := !u.fatal && decide (src ≤ u.key) && decide (u.key < src + 8192)
  (s.upsets.filter mine).foldl (fun s u => s.logCorrected die 0x0D u.bit.val loc wid pos)
    { s with upsets := s.upsets.filter fun u => !mine u }

/-- FLASH_COPY_COMPLETE: the old frame is in its flash page; or an error met in the frame or the flash leaves the copy unusable,
and it is logged (R393), in the log of the die that TLBINV.out was issued on: no rule names the log (R14; log entry 132). -/
def execFlashCopyComplete (n : Nat) (s : State) : Out :=
  match s.net.flash[n]? with
  | none => eventStep s
  | some (id, frame, page, k) =>
    let s := s.modNet fun m => { m with flash := m.flash.eraseIdx n }
    let src := frame * 8192
    let dst := flashKey page 0
    let dead := s.deadWords dst 8192
    let s := s.meetRangeAs (s.strand k).wid (s.posOf (coreOf k) (slotOf k)) src 8192
    let bad := s.rangePoisoned src 8192 || !dead.isEmpty
    let s := s.copyStorage src dst 8192
    let s := { s with poison := dead ++ s.poison }
    let x := s.strand k
    let s := if bad then
        s.logRec (dieOf (coreOf k)) 8 0x0D 0xFF (BitVec.ofNat 64 src) x.wid (s.posOf (coreOf k) (slotOf k))
      else s
    if x.stage = .flashOut id then
      eventStep (s.setStrand k { x with stage := .flashDone (if bad then 2 else 1) })
    else eventStep s

/-! ## Page walks (R375, R382, R383) -/

/-- A list's last n elements: a full translation cache drops its oldest entry, which is the model's choice (R382; log entry 131). -/
def lastOf {α : Type} (n : Nat) (l : List α) : List α := l.drop (l.length - n)

/-- The table entries a block's walk cache serves a walk with: none that an invalidation on its way removes. -/
def State.tableHits (s : State) (b : Nat) (w : Walk) : List WalkEntry :=
  (s.blockRec b).walkc.filter fun e =>
    e.part == w.part && e.root == w.root && e.pre == w.va.toNat / 2 ^ (13 + 10 * e.lvl)
      && !s.net.invals.any fun v => v.target == .block b && v.hitsTable e

/-- A walk with the walk cache's table entries in place of those in memory. -/
def State.walkWith (s : State) (b : Nat) (w : Walk) : Except WalkFail Leaf :=
  let bytes := (s.tableHits b w).flatMap fun e => layBytes (keysFrom e.pa 8) e.word.toNat
  ({ s with mem := s.mem.writeAll bytes }).walk w.root w.va

/-- The table entries a walk has read, from level 3 down. -/
def State.tablesRead (s : State) (w : Walk) (l : Leaf) : List WalkEntry :=
  let pas := l.reads.take (l.reads.length - 2)
  (indexed pas).map fun (i, pa) => ⟨w.part, w.root, 3 - i, w.va.toNat / 2 ^ (13 + 10 * (3 - i)), pa, s.word pa⟩

/-- The words a walk reads from memory: those the walk cache does not serve. -/
def State.memWords (s : State) (b : Nat) (w : Walk) : List Nat :=
  let hits := s.tableHits b w
  let bytes := hits.flatMap fun (e : WalkEntry) => layBytes (keysFrom e.pa 8) e.word.toNat
  (({ s with mem := s.mem.writeAll bytes }).walkWords w.va.toNat 3 w.root).filter fun pa => !hits.any fun e => e.pa == pa

/-- Whether a walk is one of the 16 that its block's walker runs at once (R382). -/
def State.walkRuns (s : State) (w : Walk) : Bool :=
  ((s.net.walks.filter fun v => !v.failed && blockOf v.core == blockOf w.core).take 16).contains w

/-- Tagged loads that wait for a walk start one where their tile now has room for a further miss. -/
def State.refillWalks (s : State) : State :=
  s.net.checks.foldl (fun s c =>
    let cx := s.ctxOf c.strand
    if c.fault.isSome || s.net.walks.any fun w => w.serves cx c.ref.addr then s
    else s.addWalk cx (c.ref.addr &&& ~~~0x1FFF#64)) s

/-- Whether a context and address lie in the page that a walk has found. -/
def Walk.inPage (w : Walk) (l : Leaf) (tile part root va : Nat) : Bool :=
  w.tile == tile && w.part == part && w.root == root && decide (l.base ≤ va) && decide (va < l.base + l.size)

/-- The tagged loads that a completed walk lets go on: with a leaf, all that wait for its page (R383). -/
def State.resumeChecks (s : State) (w : Walk) (l : Option Leaf) : State :=
  let mine (c : TagCheck) : Bool :=
    let x := s.ctxOf c.strand
    c.fault.isNone && match l with
      | some l => w.inPage l (tileOf x.core) x.part x.root c.ref.addr.toNat
      | none => w.serves x c.ref.addr
  let cs := s.net.checks.filter mine
  let s := s.modNet fun m => { m with checks := m.checks.filter fun c => !mine c }
  (cs.foldl State.checkTagged s).refillWalks

/-- A walk that ended without a leaf to cache: its mark stays for the access that waits on it. -/
def State.failWalk (s : State) (n : Nat) (w : Walk) : State :=
  let f := { w with failed := true }
  s.modNet fun m => { m with walks := (m.walks.eraseIdx n).filter (· != f) ++ [f] }

/-- PAGE_WALK_COMPLETE: the n-th walk ends. A resident leaf is cached, and serves every walk and access that waits for its page; a
fault is left to each access that waits. -/
def execPageWalkComplete (n : Nat) (s : State) : Out :=
  match s.net.walks[n]? with
  | none => eventStep s
  | some w =>
    if w.failed || !s.walkRuns w then eventStep s
    else
      let b := blockOf w.core
      let ws := upTo s.wordGone (s.memWords b w)
      let s := s.touchWalk (((s.coreRec w.core).wid).getD 0) (s.posOf w.core 0) ws
      match s.walkWith b w with
      | .ok l =>
        if pteST l.pte = 0 then
          let e : TlbEntry := ⟨w.part, w.root, l.base, l.size, l.pte⟩
          let ts := s.tablesRead w l
          let s := s.modNet fun m => { m with walks := m.walks.filter fun v => !w.inPage l v.tile v.part v.root v.va.toNat }
          let s := s.modCore w.core fun x => { x with mtlb := lastOf 32 (x.mtlb ++ [e]) }
          let s := s.modTile w.tile fun x => { x with tlb := lastOf 1024 (x.tlb ++ [e]) }
          let s := s.modBlock b fun x =>
            { x with walkc := lastOf 512 ((x.walkc.filter fun y => !ts.any fun t => t.pa == y.pa && t.root == y.root) ++ ts) }
          eventStep (s.resumeChecks w (some l))
        else eventStep ((s.failWalk n w).resumeChecks w none)
      | .error _ => eventStep ((s.failWalk n w).resumeChecks w none)

/-! ## Page-in (R200, R381, R384) -/

/-- Word k of an address-space block. -/
def State.asWord (s : State) (root k : Nat) : Word := s.word (root + 65536 + 8 * k)

/-- The physical address of the completion words: CWVA's page is a resident ordinary main-memory page readable in user mode, or
else the PGIN of address a fails (R384). An error past correction met by the walk is its own cause (R379). -/
def State.wordBase (s : State) (root : Nat) (a : Word) : Except Trap Nat :=
  let cw := s.asWord root 0
  let bad : Except Trap Nat := .error ⟨0x10, 7, a, none, 0⟩
  if cw.toNat % 512 ≠ 0 ∨ classAddr cw ≠ .user then bad
  else
    match s.translate { s.ctx with root := root, sys := false } .load true 0 cw 8 with
    | .ok l => if pteFmt l.pte = 0 then .ok (physOf l cw.toNat) else bad
    | .error t => if t.cause = 0x60 then .error t else bad

/-- The free completion slot of a root that completed longest ago. -/
def State.freeWordSlot (s : State) (root : Nat) : Option Nat :=
  let last (k : Nat) : Nat := ((s.slots.find? fun x => x.1 == root && x.2.1 == k).map (·.2.2)).getD 0
  let free := (List.range 64).filter fun k => !s.net.pageins.any fun p => p.root == root && p.slot == k
  free.foldl (fun (b : Option Nat) k =>
    match b with
    | some j => if last k < last j then some k else some j
    | none => some k) none

/-- Whether a Res word of the address-space block, word 1 or one of words 18 to 1,023, is not zero (R381). -/
def State.blockBad (s : State) (root : Nat) : Bool :=
  let res (k : Nat) : Bool := (decide (8 ≤ k) && decide (k < 16)) || (decide (144 ≤ k) && decide (k < 8192))
  s.mem.any fun c => decide (root + 65536 ≤ c.1) && res (c.1 - (root + 65536)) && s.mem.read c.1 != 0

/-- Whether the strand has an unacknowledged posted write in n storage keys from lo on (R235). -/
def State.ownPostedIn (s : State) (lo n : Nat) : Bool :=
  s.posted.any fun p => p.strand == s.cur && p.keys.any fun r => decide (r.1 < lo + n) && decide (lo < r.1 + r.2)

/-- A page-in starts: a slot, a frame of the entry's die, and the completion word at 0. The address-space block is read whole. A
block with a nonzero Res word is rejected as one with a bad CWVA is, and a word past correction is an uncorrectable data error, with
nothing taken (R7, R381; log entry 116); one of host memory outside the window is access rights, subcode 17 (R411). The walk of CWVA
and these reads stand after the strand's own writes (R383). -/
def State.startPageIn (s : State) (d : GReg) (root : Nat) (l : Leaf) (a : Word) : Res :=
  let hdh := (l.pte.extractLsb' 47 2).toNat
  let at' (j : Nat) : Nat := 2 + 4 * hdh + j
  let gone (s : State) : Res := .trap s ⟨0x60, 0, a, none, 0⟩
  let block := root + 65536
  let x := { s.ctx with root := root }
  if !s.inWindow block 8192 then .trap s (rights 17 a)
  else if s.ownPostedIn block 8192 || s.ownPosted (s.pathKeys x [s.asWord root 0]) then .wait s .drain
  else
  let s := (s.meetRange block 8192).foldRange block 8192
  if s.rangePoisoned block 8192 then gone s
  else if s.blockBad root then .trap s ⟨0x10, 7, a, none, 0⟩
  else
  let s := s.meetWalk x (s.asWord root 0)
  match s.wordBase root a with
  | .error t => .trap s t
  | .ok base =>
    let frh := (s.asWord root (at' 2)).toNat % 2 ^ 32
    let frt := (s.asWord root (at' 3)).toNat % 2 ^ 32
    if frh = frt then .trap s ⟨0x10, 6, a, none, 0⟩
    else
      match s.freeWordSlot root with
      | none => .wait s .room
      | some k =>
        let frb := (s.asWord root (at' 0)).toNat
        let frs := (s.asWord root (at' 1)).toNat
        let ring := frb + 8 * (frh % frs)
        if !s.inWindow ring 8 then .trap s (rights 17 a)
        else if s.ownPosted (keysFrom ring 8) then .wait s .drain
        else
        let s := s.touchKeys s.cur (keysFrom ring 8)
        if s.poisoned ring then gone s
        else
        let f := pteFrame (s.word ring)
        let vword := s.asWord root 0 + BitVec.ofNat 64 (8 * k)
        let word := base + 8 * k
        let s := (s.meetUpsets (keysFrom word 8)).perform (layBytes (keysFrom word 8) 0) none
        let s := s.performRmw (layBytes (keysFrom (root + 65536 + 8 * at' 2) 8) ((frh + 1) % 2 ^ 32)) none
        let p : PageIn :=
          { part := s.me.part, root := root, va := l.base, group := l.group, pte := l.pte, frame := f, word := word,
            vword := vword, slot := k, strand := s.cur, wid := s.me.wid }
        .ok ((s.modNet fun n => { n with pageins := n.pageins ++ [p] }).sided.wg d vword)

def runPgin (x : DAImm) (s : State) : Res :=
  afterMemPasses s
   (let a := s.rg x.a + sx x.imm
    match classAddr a with
    | .none => .trap s ⟨0x14, 5, a, none, 0⟩
    | .user =>
      s.walked 1 [a] fun s =>
        match s.translate s.ctx .load false 0 a 1 true with
        | .error t => .trap s t
        | .ok l =>
          if !s.me.sys && !l.pte.getLsbD 56 then trapOf s 0x05 0 0
          else if pteST l.pte = 0 then .ok (s.sided.wg x.d 0)
          else
            let root := s.rootOf s.me.wid
            match s.net.pageins.find? fun p => p.root == root && p.part == s.me.part && p.va == l.base with
            | some p => .ok (s.sided.wg x.d p.vword)
            | none => s.startPageIn x.d root l a
    | _ => .ok (s.sided.wg x.d 0))
def execPgin (x : DAImm) (s : State) : Out := (runPgin x s).finish s

/-- The entry of a page read in: resident in frame f, other fields kept. -/
def pagedIn (e : Word) (f : Nat) : Word :=
  (e &&& 0x9FFE7FF800000000) ||| BitVec.ofNat 64 (f / 2 ^ 25 % 4 * 2 ^ 47 + f)

/-- PAGE_IN_COMPLETE: the flash page is in its frame, verbatim, and the entries still as the agent read them name it; or its flash
copy is unusable, and the entries stay. The completion word is written, 1 as a release at fabric scope, and its waiters wake (R231,
R384, R385). The flash's errors are logged on the frame's die, and each word of the frame they leave poisoned is counted there: no
rule names the log (R14, R404; log entry 132). -/
def execPageInComplete (n : Nat) (s : State) : Out :=
  match s.net.pageins[n]? with
  | none => eventStep s
  | some p =>
    let s := s.modNet fun m => { m with pageins := m.pageins.eraseIdx n }
    let src := flashKey (pteFrame p.pte % 2 ^ 32) 0
    let pos := s.posOf (coreOf p.strand) (slotOf p.strand)
    let die := p.frame / 2 ^ 25 % 4
    let loc := BitVec.ofNat 64 (pteFrame p.pte % 2 ^ 32)
    let s := { s with poison := s.deadWords src 8192 ++ s.poison }
    let s := s.meetFlash src die loc p.wid pos
    let dead := (s.poison.filter fun k => decide (src ≤ k) && decide (k < src + 8192)).eraseDups
    let fatal := !dead.isEmpty
    let s := s.copyStorage src (p.frame * 8192) 8192
    let s := dead.foldl (fun s _ => s.countDie die 0x21) s
    let s :=
      if fatal then s.logRec die 8 0x0D 0xFF loc p.wid pos
      else
        p.group.foldl (fun s g =>
          let s := (s.meetUpsetsAs p.wid pos (keysFrom g 8)).fold (keysFrom g 8)
          if !s.poisoned g && s.word g == p.pte then s.performRmw (layBytes (keysFrom g 8) (pagedIn p.pte p.frame).toNat) none else s) s
    let s := s.meetUpsetsAs p.wid pos (keysFrom p.word 8)
    let s := s.perform (layBytes (keysFrom p.word 8) (if fatal then 2 else 1)) (if fatal then none else some ⟨.pageIn, .fabric⟩)
    let s := { s with slots := (s.slots.filter fun (x : Nat × Nat × Nat) => !(x.1 == p.root && x.2.1 == p.slot)) ++ [(p.root, p.slot, s.order + 1)],
                      order := s.order + 1 }
    eventStep (s.wakeWord p.word)

end Sys2Proof.Machine
end

