-- ==== Sys2Proof/Machine/Crypto.lean ====
section
/-! DEFINITION. The algorithms R416 and R417 name: SHA-256, SHA-384 and SHA-512 (FIPS 180-4), RSASSA-PSS verification with SHA-384
(RFC 8017), and SLH-DSA-SHA2-192s verification (FIPS 205). The standards are not in the spec: log entry 85. -/

namespace Sys2Proof.Machine

/-! ## Octet strings -/

/-- The n octets of a number, most significant first, and back. -/
def beBytes (n x : Nat) : List Byte := (List.range n).map fun i => BitVec.ofNat 8 (x / 256 ^ (n - 1 - i))
def beNat (bs : List Byte) : Nat := bs.foldl (fun a b => a * 256 + b.toNat) 0

def slice (l : List Byte) (lo n : Nat) : List Byte := (l.drop lo).take n

/-- An octet string cut into pieces of n octets. -/
def pieces (n : Nat) (l : List Byte) : List (List Byte) := (List.range (l.length / n)).map fun i => slice l (n * i) n

/-! ## SHA-2 -/

def primes80 : List Nat := (List.range 410).filter fun n => 2 ≤ n && (List.range n).all fun d => d < 2 || n % d != 0

/-- The greatest r below 2^68 with r^e at most x. -/
def floorRoot (e x : Nat) : Nat :=
  (List.range 68).foldl (fun r i => let c := r + 2 ^ (67 - i); if c ^ e ≤ x then c else r) 0

/-- The first 64 fractional bits of the cube roots and the square roots of the primes. -/
def shaCubes : List (BitVec 64) := primes80.map fun p => BitVec.ofNat 64 (floorRoot 3 (p * 2 ^ 192))
def shaSquares : List (BitVec 64) := (primes80.take 16).map fun p => BitVec.ofNat 64 (floorRoot 2 (p * 2 ^ 128))

/-- The rotations of one SHA-2 function: Σ0, Σ1, and σ0, σ1, whose last entry is a shift. -/
structure ShaRots where
  big0 : Nat × Nat × Nat
  big1 : Nat × Nat × Nat
  small0 : Nat × Nat × Nat
  small1 : Nat × Nat × Nat
  deriving DecidableEq, Repr

def rots32 : ShaRots := ⟨(2, 13, 22), (6, 11, 25), (7, 18, 3), (17, 19, 10)⟩
def rots64 : ShaRots := ⟨(28, 34, 39), (14, 18, 41), (1, 8, 7), (19, 61, 6)⟩

def bigSigma {w : Nat} (r : Nat × Nat × Nat) (x : BitVec w) : BitVec w :=
  x.rotateRight r.1 ^^^ x.rotateRight r.2.1 ^^^ x.rotateRight r.2.2

def smallSigma {w : Nat} (r : Nat × Nat × Nat) (x : BitVec w) : BitVec w :=
  x.rotateRight r.1 ^^^ x.rotateRight r.2.1 ^^^ (x >>> r.2.2)

/-- The padded message in blocks of b octets, the length in the last b/8 octets. -/
def shaBlocks (b : Nat) (m : List Byte) : List (List Byte) :=
  let zeros := (2 * b - (m.length + 1 + b / 8) % b) % b
  pieces b (m ++ [0x80] ++ List.replicate zeros 0 ++ beBytes (b / 8) (8 * m.length))

/-- The message schedule, newest word first, extended by n words. -/
def shaSchedule {w : Nat} (r : ShaRots) : Nat → List (BitVec w) → List (BitVec w)
  | 0, l => l
  | n + 1, l =>
    let at' (i : Nat) : BitVec w := l.getD i 0
    shaSchedule r n ((smallSigma r.small1 (at' 1) + at' 6 + smallSigma r.small0 (at' 14) + at' 15) :: l)

/-- One round on the eight working words a to h, with the round's constant and schedule word. -/
def shaRound {w : Nat} (r : ShaRots) (v : List (BitVec w)) (kw : BitVec w × BitVec w) : List (BitVec w) :=
  match v with
  | [a, b, c, d, e, f, g, h] =>
    let t1 := h + bigSigma r.big1 e + ((e &&& f) ^^^ (~~~e &&& g)) + kw.1 + kw.2
    let t2 := bigSigma r.big0 a + ((a &&& b) ^^^ (a &&& c) ^^^ (b &&& c))
    [t1 + t2, a, b, c, d + t1, e, f, g]
  | v => v

/-- The hash value after the blocks of a message: words of w bits, a round for each constant. -/
def shaHash {w : Nat} (r : ShaRots) (ks init : List (BitVec w)) (m : List Byte) : List Byte :=
  let block (h : List (BitVec w)) (b : List Byte) : List (BitVec w) :=
    let first := ((pieces (w / 8) b).map fun x => BitVec.ofNat w (beNat x)).reverse
    let ws := (shaSchedule r (ks.length - 16) first).reverse
    List.zipWith (· + ·) h ((ks.zip ws).foldl (shaRound r) h)
  ((shaBlocks (2 * w) m).foldl block init).flatMap fun x => beBytes (w / 8) x.toNat

/-- A 64-bit constant's first 32 bits. -/
def top32 (x : BitVec 64) : BitVec 32 := x.extractLsb' 32 32

def shaCubes32 : List (BitVec 32) := (shaCubes.take 64).map top32
def shaSquares32 : List (BitVec 32) := (shaSquares.take 8).map top32

def sha256 (m : List Byte) : List Byte := shaHash rots32 shaCubes32 shaSquares32 m
def sha512 (m : List Byte) : List Byte := shaHash rots64 shaCubes (shaSquares.take 8) m
def sha384 (m : List Byte) : List Byte := (shaHash rots64 shaCubes (shaSquares.drop 8) m).take 48

/-- MGF1 over a hash of a length: n octets. -/
def mgf1 (hash : List Byte → List Byte) (hlen : Nat) (seed : List Byte) (n : Nat) : List Byte :=
  ((List.range ((n + hlen - 1) / hlen)).flatMap fun i => hash (seed ++ beBytes 4 i)).take n

/-! ## RSASSA-PSS -/

/-- s^65537 modulo n. -/
def rsaPublic (n s : Nat) : Nat := (List.range 16).foldl (fun x _ => x * x % n) s * s % n

/-- RSASSA-PSS verification with a 3,072-bit modulus, exponent 65,537, SHA-384 and a salt of 48 octets. -/
def rsaVerifies (modulus message signature : List Byte) : Bool :=
  let n := beNat modulus
  let s := beNat signature
  if n = 0 ∨ n ≤ s then false
  else
    let em := beBytes 384 (rsaPublic n s)
    let masked := em.take 335
    let h := slice em 335 48
    let db := beBytes 335 (beNat (List.zipWith (· ^^^ ·) masked (mgf1 sha384 48 h 335)) % 2 ^ 2679)
    em.getLastD 0 == 0xBC && (masked.headD 0).toNat < 128
      && beNat (db.take 287) == 1
      && sha384 (List.replicate 8 0 ++ sha384 message ++ db.drop 287) == h

/-! ## SLH-DSA-SHA2-192s: n = 24, h = 63, d = 7, h' = 9, a = 14, k = 17, w = 16 -/

/-- An address in its compressed form: layer, tree, type, and the type's three words. -/
structure SlhAddr where
  layer : Nat
  tree : Nat
  type : Nat
  w1 : Nat
  w2 : Nat
  w3 : Nat
  deriving DecidableEq, Repr

def SlhAddr.bytes (a : SlhAddr) : List Byte :=
  beBytes 1 a.layer ++ beBytes 8 a.tree ++ beBytes 1 a.type ++ beBytes 4 a.w1 ++ beBytes 4 a.w2 ++ beBytes 4 a.w3

/-- The one-block hash F, and the hashes of two or more values H and T. -/
def slhF (seed : List Byte) (a : SlhAddr) (m : List Byte) : List Byte :=
  (sha256 (seed ++ List.replicate 40 0 ++ a.bytes ++ m)).take 24
def slhT (seed : List Byte) (a : SlhAddr) (m : List Byte) : List Byte :=
  (sha512 (seed ++ List.replicate 104 0 ++ a.bytes ++ m)).take 24

/-- The first n digits of b bits of an octet string, most significant first. -/
def digits (b n : Nat) (x : List Byte) : List Nat :=
  (List.range n).map fun i => beNat x / 2 ^ (8 * x.length - b * (i + 1)) % 2 ^ b

/-- The chain function: steps i to i + n - 1. -/
def slhChain (seed : List Byte) (a : SlhAddr) : Nat → Nat → List Byte → List Byte
  | _, 0, x => x
  | i, n + 1, x => slhChain seed a (i + 1) n (slhF seed { a with w3 := i } x)

/-- The root that a leaf at an index reaches over an authentication path; node heights are counted from 1, and the address keeps
the tree's offset in its last word. -/
def slhRoot (seed : List Byte) (a : SlhAddr) : Nat → Nat → List (List Byte) → List Byte → List Byte
  | _, _, [], node => node
  | ht, ix, p :: ps, node =>
    let a' := { a with w2 := ht + 1, w3 := ix / 2 }
    slhRoot seed a (ht + 1) (ix / 2) ps (slhT seed a' (if ix % 2 = 0 then node ++ p else p ++ node))

/-- The one-time public key from a signature of 51 values. -/
def slhWots (seed : List Byte) (a : SlhAddr) (sig m : List Byte) : List Byte :=
  let ms := digits 4 48 m
  let sum := (ms.map (15 - ·)).foldl (· + ·) 0
  let all := ms ++ digits 4 3 (beBytes 2 (sum * 16))
  let tops := (all.zip (pieces 24 sig)).zip (List.range 51) |>.map fun ((d, x), i) =>
    slhChain seed { a with w2 := i } d (15 - d) x
  slhT seed { a with type := 1, w2 := 0, w3 := 0 } tops.flatten

/-- The root of one layer's tree from its signature: 51 values and a path of 9. -/
def slhXmss (seed : List Byte) (layer tree leaf : Nat) (sig m : List Byte) : List Byte :=
  let pk := slhWots seed ⟨layer, tree, 0, leaf, 0, 0⟩ (sig.take 1224) m
  slhRoot seed ⟨layer, tree, 2, 0, 0, 0⟩ 0 leaf (pieces 24 (sig.drop 1224)) pk

/-- The seven layers, from the message up. -/
def slhTop (seed : List Byte) : Nat → Nat → Nat → List (List Byte) → List Byte → List Byte
  | _, _, _, [], node => node
  | layer, tree, leaf, sig :: sigs, node =>
    slhTop seed (layer + 1) (tree / 512) (tree % 512) sigs (slhXmss seed layer tree leaf sig node)

/-- The FORS public key of a digest from its signature: 17 values, each with a path of 14. -/
def slhFors (seed : List Byte) (tree leaf : Nat) (sig md : List Byte) : List Byte :=
  let a : SlhAddr := ⟨0, tree, 3, leaf, 0, 0⟩
  let roots := ((digits 14 17 md).zip (pieces 360 sig)).zip (List.range 17) |>.flatMap fun ((d, x), i) =>
    let ix := i * 2 ^ 14 + d
    slhRoot seed a 0 ix (pieces 24 (x.drop 24)) (slhF seed { a with w3 := ix } (x.take 24))
  slhT seed { a with type := 4 } roots

/-- SLH-DSA-SHA2-192s verification, pure mode, with an empty context. -/
def slhVerifies (key message signature : List Byte) : Bool :=
  let seed := key.take 24
  let root := slice key 24 24
  let r := signature.take 24
  let m := [0, 0] ++ message
  let digest := mgf1 sha512 64 (r ++ seed ++ sha512 (r ++ seed ++ root ++ m)) 39
  let tree := beNat (slice digest 30 7) % 2 ^ 54
  let leaf := beNat (slice digest 37 2) % 2 ^ 9
  let pk := slhFors seed tree leaf (slice signature 24 6120) (digest.take 30)
  signature.length == 16224 && slhTop seed 0 tree leaf (pieces 1440 (signature.drop 6144)) pk == root

end Sys2Proof.Machine
end

