-- ==== Sys2Proof/Machine/Repair.lean ====
section
/-! DEFINITION. Containing a core, repair and telemetry: quarantine, failed links, QUAR, REMAP and ELOGRD (R398 to R407). -/

namespace Sys2Proof.Machine

/-! ## Quarantine (R344, R398, R399, R401) -/

/-- A strand of a quarantined core is discarded: an owed reply is a fault reply, its stream ends are orphaned with F unknown. -/
def State.loseStrand (s : State) (k : StrandIx) : State :=
  let x := s.strand k
  let s := match x.owed with
    | some r => s.faultReply r
    | none => s
  let s := s.orphanEnds x.wid x.q false
  s.freeSlot k

/-- The unretired pointers of a core: their streams are orphaned, their items discarded (R344). -/
def State.losePointers (s : State) (c : CoreIx) : State :=
  (s.coreRec c).fwd.foldl (fun s p =>
    (s.dropItems p.wid p.items).modNet fun n => { n with orphans := n.orphans ++ [⟨p.wid, p.blk, p.str, true, none, 2, true⟩] }) s

/-- The slices of loom operations a core holds are lost; a claim ends once no core of its loom has a slice left. -/
def State.loseLoom (s : State) (c : CoreIx) : State :=
  let ids := (s.coreRec c).loomq.map (·.id)
  let s := s.modCore c fun x => { x with loomq := [] }
  ids.foldl (fun s id =>
    if (List.range 8).any fun p => (s.coreRec (loomCore c p)).loomq.any fun q => q.id == id then s
    else [tileOf (loomCore c 0), tileOf (loomCore c 4)].foldl (fun s t =>
      s.modTile t fun u => { u with claims := u.claims.filter fun cl => cl.op != id }) s) s

/-- The replica that a shuttle bound for a lost core goes to, if its segment has one left. -/
def State.otherReplica (s : State) (h : Shuttle) : Option CoreIx :=
  ((s.weaveOf h.wid).bind fun w => w.segment h.seg).bind (s.replica h.wid)

/-- A shuttle's stream ends move with it to another core. -/
def State.redirectEnds (s : State) (h : Shuttle) (d : CoreIx) : State :=
  h.q.toList.foldl (fun s b => s.redirectEnd h.wid h.core d b) s

/-- A shuttle bound for a core that is lost goes to another replica of its segment, or is held in the overflow area (R347, R398). -/
def State.rebound (s : State) (h : Shuttle) : State :=
  match s.otherReplica h with
  | some d => (s.redirectEnds h d).launchShuttle { h with core := d, since := none }
  | none => s.holdShuttle h

/-- Shuttles in flight toward a lost core, and those in an overflow area that wait for it, go elsewhere. -/
def State.reboundAll (s : State) (c : CoreIx) : State :=
  let hs := s.net.shuttles.filter fun h => h.core == c
  let s := s.modNet fun n => { n with shuttles := n.shuttles.filter fun h => h.core != c }
  let s := hs.foldl State.rebound s
  let p := s.partOfDie (dieOf c)
  ((s.partRec p).overflow.filter fun h => h.core == c).foldl (fun s h =>
    match s.otherReplica h with
    | some d => (s.redirectEnds h d).modPart p fun x =>
        { x with overflow := x.overflow.map fun g => if g.order = h.order then { g with core := d } else g }
    | none => s) s

/-- The strands that learn of a lost core: those of its weave in its block, or else the one at the lowest position. -/
def State.notified (s : State) (wid : Nat) (c : CoreIx) : List StrandIx :=
  let ks := s.strandsOf wid
  let near := ks.filter fun k => blockOf (coreOf k) == blockOf c
  if near.isEmpty then (ks.foldl (fun (b : Option StrandIx) k => some (match b with | some j => min j k | none => k)) none).toList
  else near

/-- The core drops out of its weave, and is quarantined: what it holds, handles in its local queues among it, is discarded. -/
def State.loseCore (s : State) (c : CoreIx) : State :=
  let x := s.coreRec c
  let s := ((List.range 8).filter fun k => (s.strand (strandAt c k)).live).foldl (fun s k => s.loseStrand (strandAt c k)) s
  let s := (x.arrivals ++ x.shed).foldl (fun s h => s.orphanEnds h.wid h.q false) s
  let s := x.inbox.foldl (fun s m => s.dropMsg c m.msg) s
  let gone := s.net.pushes.filter fun p => p.core == c
  let s := s.modNet fun n => { n with pushes := n.pushes.filter fun p => p.core != c, acks := n.acks ++ gone.filterMap (·.ack) }
  let s := ((s.losePointers c).dropQueues c).loseLoom c
  let s := s.modCore c fun x => { x.vacate with quar := true, key := none, store := [], fwd := [] }
  s.reboundAll c

/-- The address that the log gives an error of a core's arrays: a local memory's failing word, where one is known; for the other
arrays, whose words have no address, the base of the core's window (R402; log entry 132). -/
def State.failedAt (s : State) (c : CoreIx) (array : BitVec 8) : Word :=
  match s.upsets.find? fun u => u.fatal && (localOf u.key).any fun y => y.1 == c with
  | some u => if array = 0x03 then s.keyLoc (u.key / 8 * 8) else s.coreWindow c 0
  | none => s.coreWindow c 0

/-- An uncorrectable error in a core's own arrays (R398, R401). -/
def State.quarantine (s : State) (c : CoreIx) (array : BitVec 8) : State :=
  let loc := s.failedAt c array
  let wid := ((s.coreRec c).wid).getD 0
  let part := s.partOfDie (dieOf c)
  let pos := s.posOf c 0
  let s := (s.loseCore c).logRec (dieOf c) 3 array.toNat 0xFF loc wid pos
  let t : Trap := ⟨0x61, array, BitVec.ofNat 64 (part * 2 ^ 32) + pos, none, 0⟩
  if wid = 0 then s
  else (s.notified wid c).foldl (fun s k => s.modStrand k fun x => { x with pend := x.pend ++ [t] }) s

/-- The array codes of the first row of R395, whose errors past correction quarantine their core (R403). -/
def privateArrays : List Nat := [0x01, 0x02, 0x03, 0x05, 0x06]

/-- CORE_QUARANTINE. Only an error in one of a core's own arrays is one. -/
def execCoreQuarantine (c : CoreIx) (array : BitVec 8) (s : State) : Out :=
  if (s.coreRec c).quar || !privateArrays.contains array.toNat then eventStep s else eventStep (s.quarantine c array)

/-- The router, as die and block, at the far end of a router's link (R18): links 0 to 18 lead to the other routers of its block row,
19 to 25 to those of its block column, and 26 to 28 to the router at its place on the other dies, each in ascending order. The spec
names the links and not their numbers (log entry 117). -/
def linkPeer (die block port : Nat) : Option (Nat × Nat) :=
  let other (n x : Nat) : Nat := if n < x then n else n + 1
  let row := block / 20
  let col := block % 20
  if 4 ≤ die ∨ 160 ≤ block then none
  else if port < 19 then some (die, row * 20 + other port col)
  else if port < 26 then some (die, other (port - 19) row * 20 + col)
  else if port < 29 then some (other (port - 26) die, block)
  else none

/-- A Worholt port of a die (R14), named as a link of block 160. -/
def worholtPort (die block port : Nat) : Bool := block == 160 && ((die < 2 && port < 5) || (2 ≤ die && die < 4 && port < 4))

/-- Whether a link is marked failed, from either of its ends. -/
def State.linkFailed (s : State) (die block port : Nat) : Bool :=
  s.failed.any fun (d, b, p) => (d, b, p) == (die, block, port)
    || (linkPeer d b p == some (die, block) && linkPeer die block port == some (d, b))

/-- LINK_FAIL: a link whose flit has failed 8 resends is marked failed, counted and logged (R400, R420) with the position of its
router, its block's first core, or of the die's first core for a Worholt port (log entry 132). A port that is no link's end cannot
fail. -/
def execLinkFail (die block port : Nat) (s : State) : Out :=
  if s.linkFailed die block port then eventStep s
  else if worholtPort die block port then
    eventStep ({ s with failed := s.failed ++ [(die, block, port)] }.logRec die 5 0x0B 0xFF (BitVec.ofNat 64 (block * 256 + port)) 0
      (s.posOf (coreAt die 0 0) 0))
  else if (linkPeer die block port).isNone then eventStep s
  else
    let b := die * 160 + block
    let s := (List.range 8).foldl (fun s _ => s.countBlock b 0x12) s
    let s := { (s.countBlock b 0x13) with failed := s.failed ++ [(die, block, port)] }
    eventStep (s.logRec die 5 0x0B 0xFF (BitVec.ofNat 64 (block * 256 + port)) 0 (s.posOf (blockCore b) 0))

/-! ## Position operands (R405) -/

/-- A position operand's checks; whole forms need bits 7:0 zero. -/
def withPos (s : State) (ga : Word) (whole : Bool) (k : CoreIx → Res) : Res :=
  if ga.extractLsb' 32 32 != 0 || (whole && ga.extractLsb' 0 8 != 0) then illegalHere s
  else if posPkg ga ≠ ownPkg s ∨ !s.dieIn s.me.part (posDie ga) then trapOf s 0x15 0 ga
  else if 159 < posCol ga then .trap s (rights 19 ga)
  else k (posCore ga)

/-- A core that holds no weave, no retained banks and no pinned segment (R406). -/
def State.quiescent (s : State) (c : CoreIx) : Bool :=
  let x := s.coreRec c
  x.wid.isNone && x.key.isNone && x.pinSeg.isNone && !x.linger

def runQuar (x : DA) (s : State) : Res :=
  requireSys s
    (let ga := s.rg x.a
     withPos s ga true fun c =>
       if (s.coreRec c).quar then .ok (s.wg x.d 0)
       else if !s.quiescent c then .trap s (rights 39 ga)
       else
         let s := s.modCore c fun y => { y with quar := true }
         .ok ((s.logRec (dieOf c) 4 0x00 0xFF 0 0 (s.posOf c 0)).wg x.d 1))
def execQuar (x : DA) (s : State) : Out := (runQuar x s).finish s

/-- A core's arrays, zeroed. -/
def State.zeroCore (s : State) (c : CoreIx) : State :=
  let s := s.zeroRange (localKey c 0) localSize
  let s := s.clearSysg c
  s.modCore c fun y => { y.vacate with key := none, store := [], fwd := [], mtlb := [] }

def runQuarClr (x : DA) (s : State) : Res :=
  requireSys s
    (withPos s (s.rg x.a) true fun c =>
      if (s.coreRec c).quar then .ok (((s.zeroCore c).modCore c fun y => { y with quar := false }).wg x.d 1)
      else .ok (s.wg x.d 0))
def execQuarClr (x : DA) (s : State) : Out := (runQuarClr x s).finish s

/-! ## Remaps (R406, R407) -/

/-- The cores of a core's row. -/
def rowCores (c : CoreIx) : List CoreIx := (List.range 160).map fun j => coreAt (dieOf c) (rowOf c) j

/-- The retired column of a row, plus 1; 0 where it is not remapped. -/
def State.remapOf (s : State) (c : CoreIx) : Nat := Tab.get 0 (s.dieRec (dieOf c)).remaps (rowOf c)

/-- REMAP. Whether the spare core passes its test is open to the device. -/
def runRemap (x : DA) (s : State) : Res :=
  requireSys s
    (let ga := s.rg x.a
     withPos s ga true fun c =>
       let row := rowCores c
       if row.any fun d => !s.quiescent d then .trap s (rights 39 ga)
       else if s.remapOf c ≠ 0 then .trap s (rights 40 ga)
       else if row.any fun d => d != c && (s.coreRec d).quar then .trap s (rights 41 ga)
       else
         let (n, s) := s.draw
         if Config.freeBit n then .trap (s.logRec (dieOf c) 9 0x00 0xFF 0 0 (s.posOf c 0)) (rights 42 ga)
         else
           let s := s.modDie (dieOf c) fun y => { y with remaps := Tab.set y.remaps (rowOf c) (colOf c + 1) }
           .ok ((s.modCore c fun y => { y with quar := false }).wg x.d 1))
def execRemap (x : DA) (s : State) : Out := (runRemap x s).finish s

def runRemapStat (x : DA) (s : State) : Res :=
  requireSys s
    (withPos s (s.rg x.a) false fun c =>
      let r := s.remapOf c
      .ok (s.wg x.d (if r = 0 then 0 else BitVec.ofNat 64 (2 ^ 63 + (r - 1)))))
def execRemapStat (x : DA) (s : State) : Out := (runRemapStat x s).finish s

/-! ## The error log and the counters (R402, R404, R405) -/

/-- The die operand of ELOGRD and ELOGRD.pop. -/
def withDie (s : State) (ga : Word) (k : Nat → Res) : Res :=
  let d := (ga.extractLsb' 0 2).toNat
  if ga.extractLsb' 2 62 != 0 then illegalHere s
  else if !s.dieIn s.me.part d then trapOf s 0x15 0 ga
  else k d

def runElogrd (x : ElogA) (s : State) : Res :=
  requireSys s
    (withDie s (s.rg x.a) fun d =>
      let ws := match (s.dieRec d).log with
        | [] => []
        | r :: _ => [r.w0, r.w1, r.w2, r.w3]
      .ok (s.wv x.v (ofElems 64 (ws.map BitVec.toNat))))
def execElogrd (x : ElogA) (s : State) : Out := (runElogrd x s).finish s

def runElogrdPop (a : GReg) (s : State) : Res :=
  requireSys s (withDie s (s.rg a) fun d => .ok (s.modDie d fun y => { y with log := y.log.drop 1 }))
def execElogrdPop (a : GReg) (s : State) : Out := (runElogrdPop a s).finish s

/-- Whose counter a number names. -/
inductive CounterOf where
  | core | block | die
  deriving DecidableEq, Repr

def counterOf (n : Nat) : Option CounterOf :=
  if n ≤ 0x04 then some .core
  else if 0x10 ≤ n ∧ n ≤ 0x14 then some .block
  else if 0x20 ≤ n ∧ n ≤ 0x23 then some .die
  else none

/-- A counter's operand: the position and a listed number. -/
def withCounter (s : State) (ga : Word) (k : CoreIx → Nat → CounterOf → Res) : Res :=
  withPos s ga false fun c =>
    let n := (ga.extractLsb' 0 8).toNat
    match counterOf n with
    | some w => k c n w
    | none => .trap s (rights 43 ga)

def State.counter (s : State) (c : CoreIx) (n : Nat) : CounterOf → Nat
  | .core => Tab.get 0 (s.coreRec c).cnt n
  | .block => Tab.get 0 (s.blockRec (blockOf c)).cnt n
  | .die => Tab.get 0 (s.dieRec (dieOf c)).cnt n

def State.zeroCounter (s : State) (c : CoreIx) (n : Nat) : CounterOf → State
  | .core => s.modCore c fun x => { x with cnt := Tab.set x.cnt n 0 }
  | .block => s.modBlock (blockOf c) fun x => { x with cnt := Tab.set x.cnt n 0 }
  | .die => s.modDie (dieOf c) fun x => { x with cnt := Tab.set x.cnt n 0 }

def runElogrdCnt (x : DA) (s : State) : Res :=
  requireSys s (withCounter s (s.rg x.a) fun c n w => .ok (s.wg x.d (BitVec.ofNat 64 (s.counter c n w))))
def execElogrdCnt (x : DA) (s : State) : Out := (runElogrdCnt x s).finish s

def runElogrdZc (a : GReg) (s : State) : Res :=
  requireSys s (withCounter s (s.rg a) fun c n w => .ok (s.zeroCounter c n w))
def execElogrdZc (a : GReg) (s : State) : Out := (runElogrdZc a s).finish s

end Sys2Proof.Machine
end

