-- ==== Sys2Proof/Machine/Platform.lean ====
section
/-! DEFINITION. Power, the host's register page, bring-up and secure boot, attestation, and the Ethernet ports (R369, R372, R410 to
R424). -/

namespace Sys2Proof.Machine

/-! ## Power (R24, R418, R419) -/

/-- The die of an island; none for islands 36 to 39. -/
def islandDie (i : Nat) : Option Nat := if i < 32 then some (i / 8) else if i < 36 then some (i - 32) else none

/-- The cores of a compute island that hold a weave, a lingering team or retained banks. -/
def State.islandBusy (s : State) (i : Nat) : Bool :=
  s.cores.any fun (c, x) => islandOf c == i && (x.wid.isSome || x.linger || x.key.isSome)

def State.pointRefused (s : State) (i p : Nat) : Bool :=
  if i < 32 then p == 0 && s.islandBusy i
  else if i < 36 then decide (p < 3)
  else p != 5

/-- The island operand of PWRSET and PWRSET.rd. -/
def withIsland (s : State) (ga : Word) (k : Nat → Res) : Res :=
  let i := ga.toNat
  if 39 < i then illegalHere s
  else
    match islandDie i with
    | some d => if s.dieIn s.me.part d then k i else trapOf s 0x15 0 ga
    | none => k i

/-- A new point holds the island's issue until the change is complete; the change is timed by its die's clock, by die 0's for islands 36
to 39. -/
def State.setPoint (s : State) (i p : Nat) : State :=
  if s.point i = p then s
  else { s with points := Tab.set s.points i p, pointMoves := (s.pointMoves.filter fun m => m.1 != i) ++ [(i, s.cycle ((islandDie i).getD 0))] }

def runPwrset (x : DAB) (s : State) : Res :=
  requireSys s
    (let ga := s.rg x.a
     let p := (s.rg x.b).toNat
     if 5 < p then illegalHere s
     else
       withIsland s ga fun i =>
         if (islandDie i).isNone && s.host.split != 0 then .trap s (rights 45 ga)
         else if s.pointRefused i p then .trap s (rights 44 ga)
         else .ok ((s.setPoint i p).wg x.d (BitVec.ofNat 64 (s.point i))))
def execPwrset (x : DAB) (s : State) : Out := (runPwrset x s).finish s

/-- PWRSET.rd: the point, and a measured power the spec gives no value for. -/
def runPwrsetRd (x : DA) (s : State) : Res :=
  requireSys s
    (withIsland s (s.rg x.a) fun i =>
      let (n, s) := s.draw
      .ok (s.wg x.d (BitVec.ofNat 64 ((Config.freeWord n).toNat % 2 ^ 32 * 2 ^ 8 + s.point i))))
def execPwrsetRd (x : DA) (s : State) : Out := (runPwrsetRd x s).finish s

/-- POINT_CHANGE_COMPLETE. -/
def execPointChangeComplete (island : Nat) (s : State) : Out :=
  eventStep { s with pointMoves := s.pointMoves.filter fun m => m.1 != island }

/-- A type-3 event: an island and its new point. -/
def State.powerEvent (s : State) (i p : Nat) : State :=
  let d := i / 8
  (s.hostEvent 3 (s.partOfDie d) d 0 (BitVec.ofNat 64 (i * 256 + p))).1

/-- POWER_THROTTLE: the hottest compute island goes down one step. -/
def execPowerThrottle (island : Nat) (s : State) : Out :=
  let p := s.point island
  if island < 32 ∧ 2 ≤ p then eventStep ((s.setPoint island (p - 1)).powerEvent island (p - 1)) else eventStep s

/-- THERMAL_TRIP: every compute island of a die goes to point 1. -/
def execThermalTrip (die : Nat) (s : State) : Out :=
  if die < 4 then eventStep (((List.range 8).foldl (fun s j => s.setPoint (8 * die + j) 1) s).powerEvent (8 * die) 1)
  else eventStep s

/-! ## Events to the host (R413, R414) -/

def runHostsig (x : HostsigA) (s : State) : Res :=
  requireSys s
    (releaseWait s fun s =>
      let (s', b) := s.hostEvent 1 s.me.part (dieOf s.core) x.code.toNat (s.rg x.a)
      .ok (s'.wg x.d (if b then 1 else 0)))
def execHostsig (x : HostsigA) (s : State) : Out := (runHostsig x s).finish s

def State.setStage (s : State) (st : BitVec 8) : State :=
  ({ s with host := { s.host with stage := st } }.hostEvent 4 0 0 0 (st.setWidth 64)).1

/-! ## Bring-up (R415, R416) -/

/-- The words of a die's reduction descriptor, which reset to 0 (R388). -/
def rdescByte (k : Nat) : Bool := decide (k < hostBase) && decide (k % 2 ^ 38 < 24)

/-- DEVICE_RESET: everything on the package but the contents of host memory, main memory and flash, the dies' reduction descriptors
apart, and the quarantine of cores, which only QUAR.clr and REMAP end. What the Ethernet ports have sent stays sent. -/
def execDeviceReset (s : State) : Out :=
  let kept (k : Nat) : Bool := (localOf k).isNone && (vaultOf k).isNone && !rdescByte k
  eventStep { State.reset with
    agenda := s.agenda
    prompt := s.prompt
    freeCtr := s.freeCtr
    mem := s.mem.filter fun b => kept b.1
    poison := s.poison.filter kept
    upsets := s.upsets.filter fun u => kept u.key
    sent := s.sent
    cores := s.cores.filterMap fun (c, x) => if x.quar then some (c, { Core.empty with quar := true }) else none
    host := { HostPage.reset with form := s.host.form, plim := if s.host.form = 1 then 3760 else 4000 } }

/-- LINK_TRAIN: the Bamlas link has trained. -/
def execLinkTrain (s : State) : Out :=
  if s.host.stage = 0 then eventStep ({ s with host := { s.host with trained := true } }.setStage 1) else eventStep s

/-- GO: verification starts, in stage 1 or after a failure. -/
def execGo (s : State) : Out :=
  if s.host.stage = 1 ∨ 0x80 ≤ s.host.stage then eventStep (s.setStage 2) else eventStep s

/-- The bytes of host memory from a host address on. -/
def State.hostBytes (s : State) (a n : Nat) : List Byte := (keysFrom (hostBase + a) n).map s.mem.read

/-- The failure reason of an image, or none (R416). -/
def imageFault (img : List Byte) : Option (BitVec 8) :=
  let head := slice img 0 16
  let modulus := slice img 16 384
  let slhKey := slice img 400 48
  let signed := head ++ img.drop 17408
  let slot := Config.imageSlot head
  if !Config.imageMagic head || decide (1 < slot) || (slice img 17056 352).any (· != 0) then some 0x81
  else if Config.fuseRevoked slot || beNat (sha384 modulus) != Config.fuseRsaHash slot
      || beNat (sha384 slhKey) != Config.fuseSlhHash slot then some 0x82
  else if !rsaVerifies modulus signed (slice img 448 384) then some 0x83
  else if !slhVerifies slhKey signed (slice img 832 16224) then some 0x84
  else if Config.imageSvn head < Config.fuseSvn then some 0x85
  else none

/-- IMAGE_VERIFY: the image runs, or bring-up fails with its reason. -/
def execImageVerify (s : State) : Out :=
  if s.host.stage ≠ 2 then eventStep s
  else
    let a := s.host.fwb.toNat
    let n := s.host.fwl.toNat
    if a % 4096 ≠ 0 ∨ n < 17408 ∨ 2 ^ 24 < n then eventStep (s.setStage 0x81)
    else
      let s := (s.meetRangeAs 0 (s.posOf 0 0) (hostBase + a) n).foldRange (hostBase + a) n
      if s.rangePoisoned (hostBase + a) n then eventStep (s.setStage 0x86)
      else
        match imageFault (s.hostBytes a n) with
        | some f => eventStep (s.setStage f)
        | none =>
          let s := { s with host := { s.host with image := beNat (sha384 (s.hostBytes a n)) } }
          eventStep (s.setStage 3)

/-- A die's controllers read its reduction descriptor (R388, R389); one with a word past correction names no range (log entry
116). -/
def State.readRdesc (s : State) (d : Nat) : State :=
  let a := d * 2 ^ 38
  let s := (s.meetUpsetsAt d (keysFrom a 24)).fold (keysFrom a 24)
  let w := if (keysFrom a 24).any s.poisoned then (0, 0, 0) else (s.word a, s.word (a + 8), s.word (a + 16))
  s.modDie d fun x => { x with rdesc := w }

/-- A core that fails its test is quarantined and logged, without a weave. -/
def State.failTest (s : State) (c : CoreIx) : State :=
  (s.modCore c fun x => { x with quar := true }).logRec (dieOf c) 3 0x00 0xFF (s.coreWindow c 0) 0 (s.posOf c 0)

/-- BRINGUP_COMPLETE: the firmware's stage ends ready or failed. -/
def execBringupComplete (f : BringupFacts) (s : State) : Out :=
  if s.host.stage ≠ 3 then eventStep s
  else if f.peerClash then eventStep (s.setStage 0x87)
  else if f.stackFails then eventStep (s.setStage 0x88)
  else
    let s := f.badCores.foldl State.failTest s
    eventStep (((List.range 4).foldl State.readRdesc s).setStage 4)

/-! ## Attestation (R417) -/

/-- The rows remapped, as die, row and retired column (R407). -/
def State.rowRemaps (s : State) : List (Nat × Nat × Nat) :=
  (List.range 4).flatMap fun d => ((s.dieRec d).remaps.filter fun r => r.2 != 0).map fun r => (d, r.1, r.2 - 1)

/-- A report for the nonce at ATTB: its contents in the device's own layout, and their two signatures, all within the 64 KiB area
(R410, R417; log entry 86). -/
def State.attReport (s : State) : List Byte :=
  let h := s.host
  let nonce := beNat (s.hostBytes h.attb.toNat 48)
  let body := Config.attLayout [Config.serial, Config.fuseSvn, h.image, nonce, h.split.toNat, h.form.toNat] s.rowRemaps
  (body ++ Config.attRsa body ++ Config.attSlh body).take 65472

/-- ATT: the report is written at ATTB + 64, and a type-4 event ends it. -/
def execAtt (s : State) : Out :=
  if s.host.stage = 3 ∨ s.host.stage = 4 then
    let a := hostBase + s.host.attb.toNat
    let s := s.touchAs 0 (s.posOf 0 0) (keysFrom a 48)
    let r := s.attReport
    let s := s.perform ((keysFrom (a + 64) r.length).zip r) none
    eventStep (s.setStage s.host.stage)
  else eventStep s

/-! ## The register page (R372, R410) -/

/-- Whether the package holds no weave, no lingering team and no retained bank (R372). A split written while a core keeps banks under a
key is therefore ignored, and does not end their retention, as R364 could be read (log entry 139). -/
def State.noWeave (s : State) : Bool :=
  s.weaves.all (fun (w : Weave) => !w.placed || w.saved) && s.cores.all fun (_, x) => x.wid.isNone && !x.linger && x.key.isNone

/-- The place a port's own end stands at. -/
def portPlace (p : Nat) : Nat := 8 * 10 ^ 9 + p

/-- The streams of a queue pair go, with what is on its way in them. -/
def State.closePair (s : State) (p q : Nat) : State :=
  let mine (y : Stream) : Bool := y.str == q && (y.blk == portBlk p false || y.blk == portBlk p true)
  (s.streams.filter mine).foldl State.removeStream s

/-- A port binds the far ends of a queue pair's two streams; their near ends wait for a strand under new handles. -/
def State.openPair (s : State) (p q : Nat) : State :=
  let s := s.closePair p q
  let (a, s) := s.draw
  let (b, s) := s.draw
  let far (n : Nat) : SEnd := { freshEnd (Config.freeChk n) with st := .bound, place := some (portPlace p) }
  let base (blk : Nat) (snd rcv : SEnd) (toward : Option Nat) : Stream :=
    { wid := 0, blk := blk, str := q, scope := .fabric, snd := snd, rcv := rcv, ns := 0, nr := 0, out := 0, fin := none,
      lost := false, toward := toward, held := [], home := [], moveS := none, moveR := none, poisoned := false }
  let tx := base (portBlk p false) (freshEnd (Config.freeChk a)) (far b) (some (portPlace p))
  let rx := base (portBlk p true) (far a) (freshEnd (Config.freeChk b)) none
  { s with streams := s.streams ++ [tx, rx] }

/-- A change of the split releases every key and zeroes every core, its slots' system registers too (R115, R371, R372). -/
def State.resplit (s : State) (v : BitVec 2) : State :=
  if v = s.host.split then s
  else
    let s := s.cores.foldl (fun s (c, _) => s.zeroCore c) s
    { s with host := { s.host with split := v } }

/-- HOST_REGISTER_WRITE: a field of the page that only holds what the host writes, or that sets up the package. A failed device
takes none. -/
def execHostRegisterWrite (word : Nat) (value : BitVec 64) (s : State) : Out :=
  let h := s.host
  let put (h : HostPage) : Out := eventStep { s with host := h }
  let free := decide (h.stage < 4) || s.noWeave
  if !h.trained || 0x80 ≤ h.stage then eventStep s
  else if word = 2 then put { h with fwb := value }
  else if word = 3 then put { h with fwl := value }
  else if word = 5 then put { h with attb := value }
  else if word = 6 then (if free then put { h with pkg := value.setWidth 8 } else eventStep s)
  else if word = 7 then
    (if free && value.extractLsb' 0 2 != 3 then eventStep (s.resplit (value.extractLsb' 0 2)) else eventStep s)
  else if 8 ≤ word ∧ word < 12 then put { h with pcb := Tab.set h.pcb (word - 8) value }
  else if word = 12 then put { h with wlo := value }
  else if word = 13 then put { h with whi := value }
  else if word = 16 then put { h with evb := value }
  else if word = 17 then put { h with evs := value }
  else if word = 18 then put { h with evh := value.setWidth 32 }
  else if word = 20 then put { h with plim := value.setWidth 16 }
  else if 32 ≤ word ∧ word < 128 then
    let i := word - 32
    if free then
      let s := { s with host := { h with qcfg := Tab.set h.qcfg i value } }
      eventStep (if value.getLsbD 2 then (s.openPair (i / 16) (i % 16)).flushPair (i / 16) (i % 16) else s.closePair (i / 16) (i % 16))
    else eventStep s
  else eventStep s

/-- A handle of a queue pair as the host reads it. -/
def State.pairHandle (s : State) (p q : Nat) (recv : Bool) : Word :=
  match s.stream 0 (portBlk p recv) q with
  | some y => streamHandle (ownPkg s) y recv
  | none => 0

/-- A word of the register page as the host reads it; doorbells read zero. -/
def State.hostWord (s : State) (n : Nat) : Word :=
  let h := s.host
  if n = 0 then BitVec.ofNat 64 (0x0400 * 2 ^ 48 + h.form.toNat * 2 ^ 40)
  else if n = 1 then h.stage.setWidth 64
  else if n = 2 then h.fwb
  else if n = 3 then h.fwl
  else if n = 5 then h.attb
  else if n = 6 then h.pkg.setWidth 64
  else if n = 7 then h.split.setWidth 64
  else if 8 ≤ n ∧ n < 12 then Tab.get 0 h.pcb (n - 8)
  else if n = 12 then h.wlo
  else if n = 13 then h.whi
  else if n = 16 then h.evb
  else if n = 17 then h.evs
  else if n = 18 then h.evh.setWidth 64
  else if n = 19 then h.evt.setWidth 64
  else if n = 20 then h.plim.setWidth 64
  else if 32 ≤ n ∧ n < 128 then Tab.get 0 h.qcfg (n - 32)
  else if 128 ≤ n ∧ n < 320 then s.pairHandle ((n - 128) / 32) ((n - 128) % 32 / 2) (n % 2 == 1)
  else if 320 ≤ n ∧ n < 368 then Tab.get 0 h.ecnt (n - 320)
  else 0

/-- DBR: the device reads a partition's control block, starting it, and its dies' reduction descriptors (R357, R389). Bits 63:16 of
word 6 must be zero, or the block is rejected and starts nothing (R7; log entry 116). Nor does a block the device cannot read (log
entry 115). -/
def execDbr (p : BitVec 2) (s : State) : Out :=
  let part := p.toNat
  let a := (Tab.get 0 s.host.pcb part).toNat
  if ¬(s.host.stage = 4 ∧ part < s.nparts) then eventStep s
  else
    let s := s.touchAs 0 (s.partPos part) (keysFrom a 56)
    if s.deviceReads a 56 ∧ (s.word (a + 48)).toNat < 2 ^ 16 then
      let w (k : Nat) : Word := s.word (a + 8 * k)
      let s := s.modPart part fun x =>
        { x with on := true, sysvec := w 0, drain := w 1, qtab := w 2 &&& ~~~15#64, nq := (w 2).toNat % 16 + 1, ctxr := w 3,
                 ctxs := w 4, ovb := w 5, ovs := (w 6).toNat, draining := none }
      eventStep ((s.partDies part).foldl State.readRdesc s)
    else eventStep s

/-! ## Ethernet ports (R422 to R424) -/

def State.countEth (s : State) (p i n : Nat) : State :=
  let k := 8 * p + i
  { s with host := { s.host with ecnt := Tab.set s.host.ecnt k (Tab.get 0 s.host.ecnt k + BitVec.ofNat 64 n) } }

/-- A frame of n bytes before its FCS has a length from 64 to 9,216 bytes with it. -/
def frameLen (n : Nat) : Bool := decide (64 ≤ n + 4) && decide (n + 4 ≤ 9216)

/-- ETH_FRAME_RECEIVE: a frame, without its FCS, is dropped and counted, or goes to its slot with an item for it. A port is trained in
stage 3, and takes frames in stage 4 alone (R415). A frame with no
stream, credit or slot waits in the port behind those of its queue pair, or is dropped where the buffer is full: the spec gives the
buffer no size, and a free bit tells (log entry 115). -/
def execEthFrameReceive (port queue : Nat) (frame : List Byte) (fcsGood : Bool) (s : State) : Out :=
  let n := frame.length
  if 6 ≤ port ∨ 16 ≤ queue ∨ s.host.stage ≠ 4 then eventStep s
  else if !fcsGood then eventStep (s.countEth port 4 1)
  else
    let s := (s.countEth port 1 1).countEth port 3 (n + 4)
    if !frameLen n then eventStep (s.countEth port 5 1)
    else
      let s := s.flushPair port queue
      let behind := s.framesIn.any fun f => f.1 == port && f.2.1 == queue
      match if behind then none else s.pairTakes port queue n with
      | some y => eventStep (s.frameTo port queue frame y)
      | none =>
        let (k, s) := s.draw
        eventStep (if Config.freeBit k then s.countEth port 6 1 else { s with framesIn := s.framesIn ++ [(port, queue, frame)] })

/-- A frame as port p reads it from a transmit slot. The bytes of a word past correction are no bytes the spec gives. -/
def State.frameAt (s : State) (p a n : Nat) : List Byte × State :=
  let ks := keysFrom a n
  let s := (s.meetUpsetsAt (dieOf (portCore p)) ks).fold ks
  let (d, s) := s.draw
  ((indexed ks).map fun (i, k) => if s.poisoned k then Config.freeArea d i else s.mem.read k, s)

/-- ETH_TRANSMIT: pair n of the 96 takes its next item: the frame it names leaves, or a bad item is dropped. Of a slot outside the host
window nothing is read and nothing leaves (log entry 115). Outside stage 4 a port is idle (R415). -/
def execEthTransmit (n : Nat) (s : State) : Out :=
  let p := n / 16
  if s.host.stage ≠ 4 then eventStep s
  else
  match s.stream 0 (portBlk p false) (n % 16) with
  | none => eventStep s
  | some y =>
    match y.held.find? fun i => i.seq == y.nr with
    | none => eventStep s
    | some i =>
      let s := s.setStream { y with nr := y.nr + 1, held := y.held.filter fun j => j.seq != y.nr }
      let s := s.modNet fun m => { m with credits := m.credits ++ [(y.wid, y.blk, y.str)] }
      let len := (i.val.extractLsb' 16 14).toNat
      if i.val &&& 0xFFFFFFFFC000FFC0 != 0 || !frameLen len then eventStep (s.countEth p 7 1)
      else if !s.inWindow (s.ethArea p (n % 16) + 16384 * (64 + (i.val.extractLsb' 0 6).toNat)) len then eventStep s
      else
        let (frame, s) := s.frameAt p (s.ethArea p (n % 16) + 16384 * (64 + (i.val.extractLsb' 0 6).toNat)) len
        eventStep (({ s with sent := s.sent ++ [(p, frame)] }.countEth p 0 1).countEth p 2 (len + 4))

end Sys2Proof.Machine
end

