-- ==== Sys2Proof/Machine/Dispatch.lean ====
section
/-! DEFINITION. One arm for each constructor of Instr: a direct call of its meaning. -/

namespace Sys2Proof.Machine

def exec (i : Instr) (s : State) : Host.Outcome State Fault Refusal :=
  match i with
  | .add x => Sys2Proof.Machine.execAdd x s
  | .sub x => Sys2Proof.Machine.execSub x s
  | .mul x => Sys2Proof.Machine.execMul x s
  | .mulh x => Sys2Proof.Machine.execMulh x s
  | .div x => Sys2Proof.Machine.execDiv x s
  | .rem x => Sys2Proof.Machine.execRem x s
  | .and x => Sys2Proof.Machine.execAnd x s
  | .or x => Sys2Proof.Machine.execOr x s
  | .xor x => Sys2Proof.Machine.execXor x s
  | .shl x => Sys2Proof.Machine.execShl x s
  | .shr x => Sys2Proof.Machine.execShr x s
  | .sra x => Sys2Proof.Machine.execSra x s
  | .min x => Sys2Proof.Machine.execMin x s
  | .max x => Sys2Proof.Machine.execMax x s
  | .cmp x => Sys2Proof.Machine.execCmp x s
  | .addi x => Sys2Proof.Machine.execAddi x s
  | .muli x => Sys2Proof.Machine.execMuli x s
  | .andi x => Sys2Proof.Machine.execAndi x s
  | .ori x => Sys2Proof.Machine.execOri x s
  | .xori x => Sys2Proof.Machine.execXori x s
  | .shli x => Sys2Proof.Machine.execShli x s
  | .shri x => Sys2Proof.Machine.execShri x s
  | .srai x => Sys2Proof.Machine.execSrai x s
  | .cmpi x => Sys2Proof.Machine.execCmpi x s
  | .movi x => Sys2Proof.Machine.execMovi x s
  | .lea x => Sys2Proof.Machine.execLea x s
  | .sel x => Sys2Proof.Machine.execSel x s
  | .clz x => Sys2Proof.Machine.execClz x s
  | .popc x => Sys2Proof.Machine.execPopc x s
  | .br disp => Sys2Proof.Machine.execBr disp s
  | .call x => Sys2Proof.Machine.execCall x s
  | .callReg x => Sys2Proof.Machine.execCallReg x s
  | .ret a => Sys2Proof.Machine.execRet a s
  | .jr a => Sys2Proof.Machine.execJr a s
  | .loop x => Sys2Proof.Machine.execLoop x s
  | .halt => Sys2Proof.Machine.execHalt s
  | .haltK a => Sys2Proof.Machine.execHaltK a s
  | .yield => Sys2Proof.Machine.execYield s
  | .nop => Sys2Proof.Machine.execNop s
  | .sleep a => Sys2Proof.Machine.execSleep a s
  | .trap n => Sys2Proof.Machine.execTrap n s
  | .trapBrk n => Sys2Proof.Machine.execTrapBrk n s
  | .eret => Sys2Proof.Machine.execEret s
  | .eretN => Sys2Proof.Machine.execEretN s
  | .pairWord sh vh => Sys2Proof.Machine.execPairWord sh vh s
  | .mfcr x => Sys2Proof.Machine.execMfcr x s
  | .mtcr x => Sys2Proof.Machine.execMtcr x s
  | .mtcrSet x => Sys2Proof.Machine.execMtcrSet x s
  | .mtcrClr x => Sys2Proof.Machine.execMtcrClr x s
  | .mtcrEnt x => Sys2Proof.Machine.execMtcrEnt x s
  | .ld x => Sys2Proof.Machine.execLd x s
  | .st x => Sys2Proof.Machine.execSt x s
  | .stOf x => Sys2Proof.Machine.execStOf x s
  | .fence x => Sys2Proof.Machine.execFence x s
  | .fenceSt => Sys2Proof.Machine.execFenceSt s
  | .aadd x => Sys2Proof.Machine.execAadd x s
  | .aaddt x => Sys2Proof.Machine.execAaddt x s
  | .amin x => Sys2Proof.Machine.execAmin x s
  | .amax x => Sys2Proof.Machine.execAmax x s
  | .aand x => Sys2Proof.Machine.execAand x s
  | .aor x => Sys2Proof.Machine.execAor x s
  | .axor x => Sys2Proof.Machine.execAxor x s
  | .aswap x => Sys2Proof.Machine.execAswap x s
  | .acas x => Sys2Proof.Machine.execAcas x s
  | .waita x => Sys2Proof.Machine.execWaita x s
  | .awake x => Sys2Proof.Machine.execAwake x s
  | .red x => Sys2Proof.Machine.execRed x s
  | .pgin x => Sys2Proof.Machine.execPgin x s
  | .vld x => Sys2Proof.Machine.execVld x s
  | .vst x => Sys2Proof.Machine.execVst x s
  | .vlds x => Sys2Proof.Machine.execVlds x s
  | .vsts x => Sys2Proof.Machine.execVsts x s
  | .vgath x => Sys2Proof.Machine.execVgath x s
  | .vscat x => Sys2Proof.Machine.execVscat x s
  | .vred x => Sys2Proof.Machine.execVred x s
  | .ldt x => Sys2Proof.Machine.execLdt x s
  | .vgatht x => Sys2Proof.Machine.execVgatht x s
  | .take x => Sys2Proof.Machine.execTake x s
  | .takeNb x => Sys2Proof.Machine.execTakeNb x s
  | .vtake x => Sys2Proof.Machine.execVtake x s
  | .lscnt d => Sys2Proof.Machine.execLscnt d s
  | .lreissue x => Sys2Proof.Machine.execLreissue x s
  | .lfill x => Sys2Proof.Machine.execLfill x s
  | .ldrop x => Sys2Proof.Machine.execLdrop x s
  | .ldropAny x => Sys2Proof.Machine.execLdropAny x s
  | .phinit x => Sys2Proof.Machine.execPhinit x s
  | .phreg x => Sys2Proof.Machine.execPhreg x s
  | .phdrop a => Sys2Proof.Machine.execPhdrop a s
  | .phsig x => Sys2Proof.Machine.execPhsig x s
  | .phwait x => Sys2Proof.Machine.execPhwait x s
  | .phsw x => Sys2Proof.Machine.execPhsw x s
  | .warr x => Sys2Proof.Machine.execWarr x s
  | .wwait x => Sys2Proof.Machine.execWwait x s
  | .send x => Sys2Proof.Machine.execSend x s
  | .sendRq x => Sys2Proof.Machine.execSendRq x s
  | .sendT x => Sys2Proof.Machine.execSendT x s
  | .sendm x => Sys2Proof.Machine.execSendm x s
  | .hmsg x => Sys2Proof.Machine.execHmsg x s
  | .hret a => Sys2Proof.Machine.execHret a s
  | .tagen x => Sys2Proof.Machine.execTagen x s
  | .tagdis x => Sys2Proof.Machine.execTagdis x s
  | .tagpend x => Sys2Proof.Machine.execTagpend x s
  | .spawn x => Sys2Proof.Machine.execSpawn x s
  | .spawnPin x => Sys2Proof.Machine.execSpawnPin x s
  | .dec x => Sys2Proof.Machine.execDec x s
  | .futr x => Sys2Proof.Machine.execFutr x s
  | .futrT x => Sys2Proof.Machine.execFutrT x s
  | .futw x => Sys2Proof.Machine.execFutw x s
  | .launch x => Sys2Proof.Machine.execLaunch x s
  | .launchW x => Sys2Proof.Machine.execLaunchW x s
  | .exit code => Sys2Proof.Machine.execExit code s
  | .jx x => Sys2Proof.Machine.execJx x s
  | .jxReg x => Sys2Proof.Machine.execJxReg x s
  | .callx x => Sys2Proof.Machine.execCallx x s
  | .callxReg x => Sys2Proof.Machine.execCallxReg x s
  | .retx x => Sys2Proof.Machine.execRetx x s
  | .segheat x => Sys2Proof.Machine.execSegheat x s
  | .segheatClr x => Sys2Proof.Machine.execSegheatClr x s
  | .segrep x => Sys2Proof.Machine.execSegrep x s
  | .segrepDel x => Sys2Proof.Machine.execSegrepDel x s
  | .segmap x => Sys2Proof.Machine.execSegmap x s
  | .segmapHi x => Sys2Proof.Machine.execSegmapHi x s
  | .sopen x => Sys2Proof.Machine.execSopen x s
  | .sclose q => Sys2Proof.Machine.execSclose q s
  | .scloseU a => Sys2Proof.Machine.execScloseU a s
  | .qbind x => Sys2Proof.Machine.execQbind x s
  | .qbindLoc x => Sys2Proof.Machine.execQbindLoc x s
  | .qunbind x => Sys2Proof.Machine.execQunbind x s
  | .qstat x => Sys2Proof.Machine.execQstat x s
  | .qsend x => Sys2Proof.Machine.execQsend x s
  | .qsendH x => Sys2Proof.Machine.execQsendH x s
  | .qrecv x => Sys2Proof.Machine.execQrecv x s
  | .copy x => Sys2Proof.Machine.execCopy x s
  | .ringinit x => Sys2Proof.Machine.execRinginit x s
  | .awaitf x => Sys2Proof.Machine.execAwaitf x s
  | .relslot x => Sys2Proof.Machine.execRelslot x s
  | .ringstat x => Sys2Proof.Machine.execRingstat x s
  | .ringstatCfg x => Sys2Proof.Machine.execRingstatCfg x s
  | .vadd x => Sys2Proof.Machine.execVadd x s
  | .vsub x => Sys2Proof.Machine.execVsub x s
  | .vmul x => Sys2Proof.Machine.execVmul x s
  | .vfma x => Sys2Proof.Machine.execVfma x s
  | .vdiv x => Sys2Proof.Machine.execVdiv x s
  | .vsqrt x => Sys2Proof.Machine.execVsqrt x s
  | .vmin x => Sys2Proof.Machine.execVmin x s
  | .vmax x => Sys2Proof.Machine.execVmax x s
  | .vabs x => Sys2Proof.Machine.execVabs x s
  | .vneg x => Sys2Proof.Machine.execVneg x s
  | .vand x => Sys2Proof.Machine.execVand x s
  | .vor x => Sys2Proof.Machine.execVor x s
  | .vxor x => Sys2Proof.Machine.execVxor x s
  | .vshl x => Sys2Proof.Machine.execVshl x s
  | .vshlImm x => Sys2Proof.Machine.execVshlImm x s
  | .vshr x => Sys2Proof.Machine.execVshr x s
  | .vshrImm x => Sys2Proof.Machine.execVshrImm x s
  | .vsra x => Sys2Proof.Machine.execVsra x s
  | .vsraImm x => Sys2Proof.Machine.execVsraImm x s
  | .vrcp x => Sys2Proof.Machine.execVrcp x s
  | .vrsqrt x => Sys2Proof.Machine.execVrsqrt x s
  | .vexp2 x => Sys2Proof.Machine.execVexp2 x s
  | .vcmp x => Sys2Proof.Machine.execVcmp x s
  | .vsel x => Sys2Proof.Machine.execVsel x s
  | .vmov x => Sys2Proof.Machine.execVmov x s
  | .vbcast x => Sys2Proof.Machine.execVbcast x s
  | .vbcastImm x => Sys2Proof.Machine.execVbcastImm x s
  | .vext x => Sys2Proof.Machine.execVext x s
  | .vextReg x => Sys2Proof.Machine.execVextReg x s
  | .vins x => Sys2Proof.Machine.execVins x s
  | .vinsReg x => Sys2Proof.Machine.execVinsReg x s
  | .vperm x => Sys2Proof.Machine.execVperm x s
  | .vrot x => Sys2Proof.Machine.execVrot x s
  | .vcompress x => Sys2Proof.Machine.execVcompress x s
  | .vexpand x => Sys2Proof.Machine.execVexpand x s
  | .viota x => Sys2Proof.Machine.execViota x s
  | .mand x => Sys2Proof.Machine.execMand x s
  | .mor x => Sys2Proof.Machine.execMor x s
  | .mxor x => Sys2Proof.Machine.execMxor x s
  | .mnot x => Sys2Proof.Machine.execMnot x s
  | .mpopc x => Sys2Proof.Machine.execMpopc x s
  | .vcvt x => Sys2Proof.Machine.execVcvt x s
  | .vcvto x => Sys2Proof.Machine.execVcvto x s
  | .vprune48 x => Sys2Proof.Machine.execVprune48 x s
  | .vredsum x => Sys2Proof.Machine.execVredsum x s
  | .vredmin x => Sys2Proof.Machine.execVredmin x s
  | .vredmax x => Sys2Proof.Machine.execVredmax x s
  | .vtopk x => Sys2Proof.Machine.execVtopk x s
  | .vbskip x => Sys2Proof.Machine.execVbskip x s
  | .vdot4 x => Sys2Proof.Machine.execVdot4 x s
  | .mma x => Sys2Proof.Machine.execMma x s
  | .mmaS x => Sys2Proof.Machine.execMmaS x s
  | .mzero acc => Sys2Proof.Machine.execMzero acc s
  | .mld x => Sys2Proof.Machine.execMld x s
  | .mst x => Sys2Proof.Machine.execMst x s
  | .mscaleA0 v => Sys2Proof.Machine.execMscaleA0 v s
  | .mscaleA1 v => Sys2Proof.Machine.execMscaleA1 v s
  | .mscaleB v => Sys2Proof.Machine.execMscaleB v s
  | .mwait => Sys2Proof.Machine.execMwait s
  | .mwaitTile acc => Sys2Proof.Machine.execMwaitTile acc s
  | .mmovv x => Sys2Proof.Machine.execMmovv x s
  | .mmova x => Sys2Proof.Machine.execMmova x s
  | .mstat d => Sys2Proof.Machine.execMstat d s
  | .trrec x => Sys2Proof.Machine.execTrrec x s
  | .trrun a => Sys2Proof.Machine.execTrrun a s
  | .trstop d => Sys2Proof.Machine.execTrstop d s
  | .trstat d => Sys2Proof.Machine.execTrstat d s
  | .tlbinv x => Sys2Proof.Machine.execTlbinv x s
  | .tlbinvAs b => Sys2Proof.Machine.execTlbinvAs b s
  | .tlbinvAll => Sys2Proof.Machine.execTlbinvAll s
  | .tlbinvOut x => Sys2Proof.Machine.execTlbinvOut x s
  | .tlbsync => Sys2Proof.Machine.execTlbsync s
  | .savectx x => Sys2Proof.Machine.execSavectx x s
  | .savectxSwap x => Sys2Proof.Machine.execSavectxSwap x s
  | .savectxDrain x => Sys2Proof.Machine.execSavectxDrain x s
  | .savectxSize x => Sys2Proof.Machine.execSavectxSize x s
  | .loadctx x => Sys2Proof.Machine.execLoadctx x s
  | .quar x => Sys2Proof.Machine.execQuar x s
  | .quarClr x => Sys2Proof.Machine.execQuarClr x s
  | .remap x => Sys2Proof.Machine.execRemap x s
  | .remapStat x => Sys2Proof.Machine.execRemapStat x s
  | .elogrd x => Sys2Proof.Machine.execElogrd x s
  | .elogrdPop a => Sys2Proof.Machine.execElogrdPop a s
  | .elogrdCnt x => Sys2Proof.Machine.execElogrdCnt x s
  | .elogrdZc a => Sys2Proof.Machine.execElogrdZc a s
  | .pwrset x => Sys2Proof.Machine.execPwrset x s
  | .pwrsetRd x => Sys2Proof.Machine.execPwrsetRd x s
  | .hostsig x => Sys2Proof.Machine.execHostsig x s
  | .lineRefetch k => Sys2Proof.Machine.execLineRefetch k s
  | .sleepExpiry k => Sys2Proof.Machine.execSleepExpiry k s
  | .homeAccess n => Sys2Proof.Machine.execHomeAccess n s
  | .loadReply n => Sys2Proof.Machine.execLoadReply n s
  | .atomicAtHome n => Sys2Proof.Machine.execAtomicAtHome n s
  | .redAtHome n => Sys2Proof.Machine.execRedAtHome n s
  | .redMerge n m => Sys2Proof.Machine.execRedMerge n m s
  | .redHoldExpiry n => Sys2Proof.Machine.execRedHoldExpiry n s
  | .postedWriteAck n => Sys2Proof.Machine.execPostedWriteAck n s
  | .waitaWake n => Sys2Proof.Machine.execWaitaWake n s
  | .taggedLoadReply n => Sys2Proof.Machine.execTaggedLoadReply n s
  | .taggedLoadFault n => Sys2Proof.Machine.execTaggedLoadFault n s
  | .pageWalkComplete n => Sys2Proof.Machine.execPageWalkComplete n s
  | .pageInComplete n => Sys2Proof.Machine.execPageInComplete n s
  | .tlbInvalidateApply n => Sys2Proof.Machine.execTlbInvalidateApply n s
  | .sendQueueDrain k => Sys2Proof.Machine.execSendQueueDrain k s
  | .messageArrival n => Sys2Proof.Machine.execMessageArrival n s
  | .dispatch c => Sys2Proof.Machine.execDispatch c s
  | .taskPromotion c => Sys2Proof.Machine.execTaskPromotion c s
  | .codeletPush n => Sys2Proof.Machine.execCodeletPush n s
  | .gangForm k => Sys2Proof.Machine.execGangForm k s
  | .loomOpComplete c => Sys2Proof.Machine.execLoomOpComplete c s
  | .treadleEntryIssue k => Sys2Proof.Machine.execTreadleEntryIssue k s
  | .copyCommand t => Sys2Proof.Machine.execCopyCommand t s
  | .shuttleArrival n => Sys2Proof.Machine.execShuttleArrival n s
  | .shuttleShed n => Sys2Proof.Machine.execShuttleShed n s
  | .shedRefill c => Sys2Proof.Machine.execShedRefill c s
  | .occupancyReport c => Sys2Proof.Machine.execOccupancyReport c s
  | .streamItemArrival n => Sys2Proof.Machine.execStreamItemArrival n s
  | .streamMove n => Sys2Proof.Machine.execStreamMove n s
  | .pointerRetire c n => Sys2Proof.Machine.execPointerRetire c n s
  | .streamOrphan n => Sys2Proof.Machine.execStreamOrphan n s
  | .launchPlacement choice vb => Sys2Proof.Machine.execLaunchPlacement choice vb s
  | .weaveEnd wid => Sys2Proof.Machine.execWeaveEnd wid s
  | .drainExpiry part => Sys2Proof.Machine.execDrainExpiry part s
  | .coreQuarantine c array => Sys2Proof.Machine.execCoreQuarantine c array s
  | .linkFail die block port => Sys2Proof.Machine.execLinkFail die block port s
  | .deviceReset => Sys2Proof.Machine.execDeviceReset s
  | .linkTrain => Sys2Proof.Machine.execLinkTrain s
  | .go => Sys2Proof.Machine.execGo s
  | .imageVerify => Sys2Proof.Machine.execImageVerify s
  | .bringupComplete f => Sys2Proof.Machine.execBringupComplete f s
  | .att => Sys2Proof.Machine.execAtt s
  | .dbq v => Sys2Proof.Machine.execDbq v s
  | .dbr p => Sys2Proof.Machine.execDbr p s
  | .hostRegisterWrite word value => Sys2Proof.Machine.execHostRegisterWrite word value s
  | .powerThrottle island => Sys2Proof.Machine.execPowerThrottle island s
  | .thermalTrip die => Sys2Proof.Machine.execThermalTrip die s
  | .ethFrameReceive port queue frame fcsGood => Sys2Proof.Machine.execEthFrameReceive port queue frame fcsGood s
  | .ethTransmit n => Sys2Proof.Machine.execEthTransmit n s
  | .streamCreditArrival n => Sys2Proof.Machine.execStreamCreditArrival n s
  | .flashCopyComplete n => Sys2Proof.Machine.execFlashCopyComplete n s
  | .pointChangeComplete island => Sys2Proof.Machine.execPointChangeComplete island s

end Sys2Proof.Machine
end

