-- ==== Sys2Proof/Machine/Outside.lean ====
section
/-! DEFINITION. What the outside world does of itself, and whose turn a step is (R23, R194, R395 to R397, R403, R404, R411,
R412). -/

namespace Sys2Proof.Machine

/-! ## The host's memory writes (R411, R412) -/

/-- Whether the host can write at a physical address: its own memory always, the device's while the link is trained and the device has
not failed (R415). -/
def State.hostReaches (s : State) (pa : Nat) : Bool :=
  decide (hostBase ≤ pa) || (s.host.trained && decide (s.host.stage.toNat < 0x80))

/-- A write of the host arrives over its link and is performed at its home, in the order the host issued it. -/
def State.hostWrite (s : State) (pa : Nat) (bytes : List Byte) : State :=
  if s.hostReaches pa && decide (pa + bytes.length ≤ 2 ^ 64) then
    let ks := keysFrom pa bytes.length
    (s.meetUpsetsAt (keyDie pa) ks).perform (ks.zip bytes) none
  else s

/-! ## Array errors (R395, R396) -/

/-- An error arises in a stored word of the package, which has none yet: host memory is no array of it (R395). -/
def State.hit (s : State) (u : Upset) : State :=
  let host := decide (hostBase ≤ u.key) && (localOf u.key).isNone && (vaultOf u.key).isNone && decide (u.key < flashKey 0 0)
  if host || s.wordGone u.key || s.upsets.any fun v => v.key / 8 == u.key / 8 then s else { s with upsets := s.upsets ++ [u] }

/-- A corrected error in one of a core's private arrays is counted and logged with the core's weave (R396, R404). -/
def State.correctedIn (s : State) (array : Nat) (c : CoreIx) (bit : Fin 72) : State :=
  if privateArrays.contains array then
    (s.countCore c 0x00).logCorrected (dieOf c) array bit.val (s.coreWindow c 0) (((s.coreRec c).wid).getD 0) (s.posOf c 0)
  else s

/-- A bit of the n-th line a core's instruction store holds changes, or the line's guard bit: the next fetch of it finds the parity wrong
(R45, R47). A line with one error yet to be found takes no second. -/
def State.lineUpset (s : State) (c : CoreIx) (n : Nat) (bit : Fin 513) : State :=
  s.modCore c fun x =>
    match x.store[n]? with
    | none => x
    | some y =>
      if !(parOk y.line && guardPar y.line == y.guard) then x else
      let y := if bit.val < 512 then { y with line := y.line ^^^ BitVec.ofNat 512 (2 ^ bit.val) } else { y with guard := !y.guard }
      { x with store := x.store.set n y }

/-- The parity of a cached translation fails: the entry is discarded, and the walk is made again when it is needed. No counter of R404
counts it but a core's, for its micro-TLB (log entry 118). -/
def State.tlbParity (s : State) (t : InvTarget) (i : Nat) : State :=
  match t with
  | .core c =>
    ((s.modCore c fun x => { x with mtlb := x.mtlb.eraseIdx i }).countCore c 0x00).logCorrected (dieOf c) 0x07 0xFF 0 0 (s.posOf c 0)
  | .tile t =>
    (s.modTile t fun x => { x with tlb := x.tlb.eraseIdx i }).logCorrected (t / 640) 0x07 0xFF 0 0 (s.posOf (tileCore t 0) 0)
  | .block b =>
    (s.modBlock b fun x => { x with walkc := x.walkc.eraseIdx i }).logCorrected (b / 160) 0x07 0xFF 0 0 (s.posOf (blockCore b) 0)

/-- The block of a sync engine's record, and its weave; a watch table has none. -/
def SyncObj.place : SyncObj → Nat × Nat
  | .phaser w b _ => (b, w)
  | .ring w b _ => (b, w)
  | .stream w b _ => (b, w)
  | .watch b => (b, 0)

/-- A sync engine's object is poisoned as a whole: its waiters find it so and take its cause (R397). A watch table only filters wakes
(R194), and nothing of it is an object. -/
def State.poisonObj (s : State) (o : SyncObj) : State :=
  match o with
  | .phaser w b i =>
    { s with phasers := s.phasers.map fun p => if p.wid == w && p.blk == b && p.idx == i then { p with poisoned := true } else p }
  | .ring w b i =>
    { s with rings := s.rings.map fun r => if r.wid == w && r.blk == b && r.idx == i then { r with poisoned := true } else r }
  | .stream w b i =>
    { s with streams := s.streams.map fun y => if y.wid == w && y.blk == b && y.str == i then { y with poisoned := true } else y }
  | .watch _ => s

/-- An error in a sync engine's record: corrected and counted, or past correction, and the object is poisoned and logged (R395 to R397,
R403). -/
def State.syncError (s : State) (o : SyncObj) (fatal : Bool) (bit : Fin 72) : State :=
  let (b, w) := o.place
  let pos := s.posOf (blockCore b) 0
  if fatal then (s.poisonObj o).logRec (b / 160) 7 0x09 0xFF 0 w pos
  else (s.countBlock b 0x10).logCorrected (b / 160) 0x09 bit.val 0 w pos

/-- An error in a queued copy command: corrected, or the command will end with CAUSE 0x60 (R314, R395). -/
def State.copyError (s : State) (t i : Nat) (fatal : Bool) (bit : Fin 72) : State :=
  match (s.tileRec t).copyq[i]? with
  | none => s
  | some c =>
    if fatal then s.modTile t fun x => { x with copyq := x.copyq.set i { c with bad := true } }
    else s.logCorrected (t / 640) 0x0A bit.val 0 c.wid (s.posOf c.core (slotOf c.strand))

/-- A link resends a flit, which then passes: a corrected error, counted at its router (R395, R404). -/
def State.flitResend (s : State) (die block port : Nat) : State :=
  if (linkPeer die block port).isNone || s.linkFailed die block port then s
  else
    let b := die * 160 + block
    (s.countBlock b 0x12).logCorrected die 0x0B 0xFF (BitVec.ofNat 64 (block * 256 + port)) 0 (s.posOf (blockCore b) 0)

/-- One act of the outside world. -/
def State.outside (s : State) : Outside → State
  | .hostWrite pa bytes => s.hostWrite pa bytes
  | .upset u => s.hit u
  | .corrected a c bit => s.correctedIn a.toNat c bit
  | .lineUpset c n bit => s.lineUpset c n bit
  | .tlbParity t i => s.tlbParity t i
  | .syncError o fatal bit => s.syncError o fatal bit
  | .copyError t i fatal bit => s.copyError t i fatal bit
  | .flitResend d b p => s.flitResend d b p

/-! ## Whose turn it is (R8, R23) -/

/-- Who acts next, and the state once its turn has begun. With no turn to come the strand last named goes on, a cycle later. -/
def State.nextTurn (s : State) : Except Fault Ready :=
  match s.agenda with
  | [] => .ok (s.tick 1).begin
  | t :: rest =>
    let s := { s with agenda := rest }.tickDies t.dt t.skew
    match t.who with
    | .strand k => .ok (s.switchTo k).begin
    | .event i => if i.isEvent then .ok (.run i s) else .error .scheduleNotAnEvent
    | .outside o => .ok (.idle (s.outside o))

end Sys2Proof.Machine
end

