-- ==== Sys2Proof/Machine/Place.lean ====
section
/-! DEFINITION. A line built from one word, and the placing of a word for the next fetch: the model's stand-in for a launch. -/

namespace Sys2Proof.Machine

/-- The PAR bits that make a line of five slots and a line word sound (R45). -/
def withParity (l : Line) : Line :=
  l ||| BitVec.ofNat 512 ((List.range 8).foldl (fun n k =>
    n + (Num.popc 60 (l.extractLsb' (60 * k) 60).toNat % 2) * 2 ^ (504 + k)) 0)

/-- NOP's word (R60). -/
def nopWord : Nat := 0x28 * 2 ^ 84

/-- A line of one single word and four NOPs, its first slot a target. -/
def lineOf (w : Nat) : Line :=
  withParity (BitVec.ofNat 512 (w % 2 ^ 96 + nopWord * 2 ^ 96 + nopWord * 2 ^ 192 + nopWord * 2 ^ 288 + nopWord * 2 ^ 384
    + 1 * 2 ^ 480))

/-- A strand in slot 0 of core 0 that stands at the line's first slot, the line in core 0's instruction store, and a user-mode
executable page over the line's address in the core's micro-TLB, which the fetch checks read. -/
def State.placeWord (s : State) (nbits w : Nat) : State :=
  let x : Strand := { Strand.empty with live := true, pc := 0x1000, g := s.me.g, v := s.me.v, p := s.me.p, m := s.me.m }
  let s := (s.switchTo 0).setStrand 0 x
  let l := lineOf (w % 2 ^ nbits)
  let page : TlbEntry := ⟨x.part, s.rootOf x.wid, 0, 8192, BitVec.ofNat 64 (2 ^ 63 + 2 ^ 58 + 2 ^ 57 + 5)⟩
  { s.modCore 0 fun c => { c with store := ⟨0x1000, l, guardPar l⟩ :: c.store.filter fun y => y.base != 0x1000,
                                  mtlb := page :: c.mtlb } with
    agenda := [], points := s.points.filter fun p => p.1 != 0, pointMoves := s.pointMoves.filter fun p => p.1 != 0 }

end Sys2Proof.Machine
end

