-- ==== Sys2Proof/Machine/Step.lean ====
section
/-! DEFINITION. One step of the machine, and a word placed where the next step fetches. -/

namespace Sys2Proof.Machine

/-- One step: the strand or the event whose turn it is. -/
def step (s : State) : Host.Outcome State Fault Refusal :=
  match s.nextTurn with
  | .error f => .fault f
  | .ok (.idle t) => .next t
  | .ok (.run i t) => exec i t

/-- s with a single word in the line that strand 0 of core 0 executes next. -/
def State.withFetchWord (s : State) (nbits w : Nat) : State := s.placeWord nbits w

end Sys2Proof.Machine
end

