-- ==== Sys2Proof/Safety.lean ====
section
/-! DEFINITION. The terms the statements use: what counts as a safe state and a safe step, how an instruction's completion and its
trap are said, and the range rule of integer results. -/

namespace Sys2Proof.Machine

/-! ## Safe states and steps -/

/-- Whether a turn of the agenda names a strand, a step of the device or an act of the outside world. -/
def Turn.sound (t : Turn) : Bool :=
  match t.who with
  | .strand _ => true
  | .event i => i.isEvent
  | .outside _ => true

/-- Storage lists each byte once, in order, and no byte that reads as an unlisted one. -/
def State.memoryOk (s : State) : Bool := s.mem.wf

/-- Every event of the agenda is a step of the device. -/
def State.agendaOk (s : State) : Bool := s.agenda.all Turn.sound

/-- What every step keeps. -/
def State.Inv (s : State) : Prop := s.memoryOk = true ∧ s.agendaOk = true

/-- A step that takes a next state. -/
def stepsOn (s : State) : Prop := ∃ t, step s = .next t

/-! ## Completion and traps -/

/-- The current instruction has completed and u holds its effects: the strand stands at the next slot, with nothing of the
instruction under way, and all else is as in u (R42). -/
def State.goesOn (u : State) : State := { u with me := { u.me.settle with refetch := u.me.refetch, pc := u.iss.next } }

/-- Trap entry with the current instruction's own address, in a strand with no passes of its own running (R114, R141). -/
def State.traps (u : State) (cause sub : BitVec 8) (val : Word) : State := u.takeTrap ⟨cause, sub, val, none, 0⟩ 0

/-- Illegal instruction for an operand's value: the slot that holds the instruction, and its bits 95:32 (R62, R70). -/
def State.illegal (u : State) : State :=
  u.takeTrap ⟨0x01, 0, u.iss.word.extractLsb' 32 64, some u.iss.own, 0⟩ 0

/-- The strand waits at its instruction: nothing but the kind of wait is noted. -/
def State.waits (u : State) (w : WaitKind) : State := { u with me := { u.me with waiting := some w } }

/-! ## When an instruction is not held back -/

/-- Nothing of the instruction is under way, and no pass of the strand's runs. -/
def State.begins (s : State) : Prop := s.me.stage = .none ∧ s.me.tr.st ≠ .running

/-- The strand's vector, loom and memory forms are neither held by its passes, nor recorded, nor held by a tagged acquire (R138,
R141, R212). -/
def State.unheld (s : State) : Prop := s.begins ∧ s.recording = false ∧ s.me.acqHold = false

/-- A memory operation comes to issue: nothing of it is under way, no pass that accesses memory runs, and no tagged acquire holds
it (R141, R212). -/
def State.memFree (s : State) : Prop :=
  s.me.stage = .none ∧ s.me.acqHold = false ∧
    ¬(s.me.tr.st = .running ∧ s.me.tr.entries.any (fun e => entryTouchesMem e.instr) = true)

/-- The walks of an access's addresses may be made at once: no posted write of the strand's own to an entry they read is on its way,
and blocking accesses are answered within their step (R383). -/
def State.walkable (s : State) (n : Nat) (as : List Word) : Prop :=
  s.prompt = true ∧ s.ownPosted (s.pathKeys s.ctx (as.takeWhile fun a => a.toNat % n == 0)) = false

/-- The state in which an access is checked: the errors of the entries its walks read are met (R379, R396). -/
def State.walkedTo (s : State) (n : Nat) (as : List Word) : State :=
  (as.takeWhile fun a => a.toNat % n == 0).foldl (fun s a => s.meetWalk s.ctx a) s

/-- The waits of a release are over (R235). -/
def State.drained (s : State) : Prop := s.postedDone s.issueSeq = true ∧ s.me.lsQuiet = true

/-- A read of a site need not wait for a posted write of the strand's own, and meets no unusable word (R182, R397). -/
def State.readable (s : State) (y : Site) : Prop :=
  s.ownPosted (y.readKeys ++ y.reads.flatMap fun r => keysFrom r 8) = false ∧
    s.brokenLocal (y.readKeys ++ y.reads.flatMap fun r => keysFrom r 8) = false ∧
    (s.meetUpsets y.readKeys).sitePoisoned y = false

/-- The home's side of a read: errors of its words are met, and exact accumulators of its words end (R199, R396). -/
def State.readAt (s : State) (y : Site) : State := (s.meetUpsets y.readKeys).fold y.readKeys

/-- What the issue of a store or atomic notes where it waits by count (R185, R235). -/
def State.marked (s : State) (b : Bool) : State := if b then s.markIssue else s

/-- Stores that have passed their checks need not wait (R183, R186, R235, R160, R398). -/
def State.storable (s : State) (a : Attr) (of : Bool) (puts : List Put) : Prop :=
  (a.releases = true → s.drained) ∧
  s.ownPosted ((puts.flatMap fun p => p.bytes.map (·.1)) ++ puts.flatMap fun p => p.site.reads.flatMap fun r => keysFrom r 8)
    = false ∧
  s.pendingRead (puts.flatMap fun p => p.bytes.map (·.1)) = false ∧
  (of = true → ∀ p ∈ puts, s.classDone p.site.home = true) ∧
  s.brokenLocal ((puts.filter fun p => p.site.loc).flatMap fun p => p.bytes.map (·.1)) = false ∧
  s.classRoom ((putPackets (outPuts puts)).flatMap (·.1)) = true ∧
  (∀ p ∈ puts, p.site.loc = true → ∀ b ∈ p.bytes, s.claimed b.1 = false)

/-- An atomic that has passed its checks need not wait. -/
def State.atomReady (s : State) (a : Attr) (y : Site) : Prop :=
  (a.releases = true → s.drained) ∧
  s.ownPosted (y.keys ++ y.reads.flatMap fun r => keysFrom r 8) = false ∧ s.pendingRead y.keys = false ∧
  s.brokenLocal y.keys = false ∧ (∀ k ∈ y.keys, s.claimed k = false)

/-- Reductions that have passed their checks need not wait. -/
def State.reducible (s : State) (a : Attr) (puts : List RedPut) : Prop :=
  (a.releases = true → s.drained) ∧
  s.ownPosted ((puts.flatMap fun p => p.site.keys) ++ puts.flatMap fun p => p.site.reads.flatMap fun r => keysFrom r 8)
    = false ∧
  s.pendingRead (puts.flatMap fun p => p.site.keys) = false ∧
  s.brokenLocal ((puts.filter fun p => p.site.loc).flatMap fun p => p.site.keys) = false ∧
  s.classRoom ((puts.filter fun p => !p.site.loc).map fun p => p.site.home) = true ∧
  (∀ p ∈ puts, p.site.loc = true → ∀ k ∈ p.site.keys, s.claimed k = false)

/-- A read or write of %flags or %rmode need not wait: for %flags, nothing is under way that merges flags (R32); for %rmode, no
pass runs that draws random numbers (R36, R141). -/
def State.rmodeReady (s : State) : Prop := s.me.tr.mayDraw = false
def State.flagsReady (s : State) : Prop :=
  s.me.tr.st ≠ .running ∧ s.loomBusy = false ∧ ∀ e ∈ s.me.ls, e.req.acq = true → e.st = .landed ∨ e.st = .faulted

/-! ## The halves of a pair word (R58) -/

/-- The single-word form a half stands for. -/
def scalarSingle : ScalarHalf → Option Instr
  | .none => none
  | .add x => some (.add x) | .sub x => some (.sub x) | .and x => some (.and x) | .or x => some (.or x)
  | .xor x => some (.xor x) | .shl x => some (.shl x) | .shr x => some (.shr x) | .sra x => some (.sra x)
  | .min x => some (.min x) | .max x => some (.max x) | .mul x => some (.mul x) | .cmp x => some (.cmp x)
  | .addi x => some (.addi x) | .andi x => some (.andi x) | .shli x => some (.shli x) | .shri x => some (.shri x)
  | .srai x => some (.srai x) | .movi x => some (.movi x) | .lea x => some (.lea x) | .ld x => some (.ld x)
  | .st x => some (.st x)

def vectorSingle : VectorHalf → Option Instr
  | .none => none
  | .vadd x => some (.vadd x) | .vsub x => some (.vsub x) | .vmul x => some (.vmul x) | .vmin x => some (.vmin x)
  | .vmax x => some (.vmax x) | .vand x => some (.vand x) | .vor x => some (.vor x) | .vxor x => some (.vxor x)
  | .vshl x => some (.vshl x) | .vshlImm x => some (.vshlImm x) | .vshr x => some (.vshr x)
  | .vshrImm x => some (.vshrImm x) | .vsra x => some (.vsra x) | .vsraImm x => some (.vsraImm x)
  | .vcmp x => some (.vcmp x) | .vsel x => some (.vsel x) | .vmov x => some (.vmov x) | .vbcast x => some (.vbcast x)
  | .vbcastImm x => some (.vbcastImm x) | .vcvt x => some (.vcvt x) | .vld x => some (.vld x) | .vst x => some (.vst x)

/-- The halves that move and compute without memory and without floating point. -/
def plainScalar : ScalarHalf → Bool
  | .add x | .sub x | .mul x => x.ty != .f32
  | .min x | .max x => x.ty != .f32
  | .cmp x => x.ty != .f32
  | .ld _ | .st _ => false
  | _ => true

def plainVector : VectorHalf → Bool
  | .vadd x | .vsub x | .vmul x => !x.ty.isFloat
  | .vmin x | .vmax x => !x.ty.isFloat
  | .vcmp x => !x.ty.isFloat
  | .vcvt _ | .vld _ | .vst _ => false
  | _ => true

/-- A half's single-word form on its own; a half that is coded none only goes on. -/
def halfAlone (i : Option Instr) (s : State) : Host.Outcome State Fault Refusal :=
  match i with
  | some i => exec i s
  | none => .next s.goesOn

/-! ## Recording (R138) -/

/-- The forms of rows 8 to A that write only vector or mask registers, with the tile and scale forms that need nothing but the
strand's own: what a recording treadle takes up at once, and the g registers each reads. -/
def recordsAtOnce : Instr → Option (List GReg)
  | .vadd _ | .vsub _ | .vmul _ | .vfma _ | .vdiv _ | .vsqrt _ | .vmin _ | .vmax _ | .vabs _ | .vneg _ => some []
  | .vand _ | .vor _ | .vxor _ | .vshl _ | .vshlImm _ | .vshr _ | .vshrImm _ | .vsra _ | .vsraImm _ => some []
  | .vrcp _ | .vrsqrt _ | .vexp2 _ | .vcmp _ | .vsel _ | .vmov _ | .vbcastImm _ => some []
  | .vperm _ | .vrot _ | .vcompress _ | .vexpand _ | .viota _ => some []
  | .mand _ | .mor _ | .mxor _ | .mnot _ | .vdot4 _ | .vtopk _ | .vprune48 _ => some []
  | .mzero _ | .mscaleA0 _ | .mscaleA1 _ | .mscaleB _ => some []
  | .vbcast x => some [x.a]
  | .vins x => some [x.a]
  | .vinsReg x => some [x.a, x.b]
  | .vcvt x => some [x.b]
  | .mld x => some [x.a]
  | .mst x => some [x.a]
  | _ => none

/-- The vector and loom forms that a recording treadle refuses. -/
def notRecorded : Instr → Bool
  | .vext _ | .vextReg _ | .mpopc _ | .vredsum _ | .vredmin _ | .vredmax _ | .vbskip _ | .vcvto _ => true
  | .vld _ | .vst _ | .vlds _ | .vsts _ | .vgath _ | .vscat _ | .vred _ => true
  | .mwait | .mwaitTile _ | .mmovv _ | .mmova _ | .mstat _ => true
  | _ => false

/-- The state with its treadle's state another. -/
def State.withTr (s : State) (tr : Treadle) : State := { s with me := { s.me with tr := tr } }

/-- A recordable form appended to the record with its guard and the g registers it read. -/
def State.recorded (s : State) (i : Instr) (gs : List GReg) : Treadle :=
  s.me.tr.append ⟨i, guardOf s.iss.word, gs.map fun g => (g, s.rg g)⟩

/-! ## Landing sets, phasers and messages -/

/-- Tagged loads issued in order, each into the lowest free entry (log entry 130), and sent; even with no lane selected a
side effect (R210, R211, R307). -/
def State.tagged (s : State) (ty : Ty) (sc : Scope) (acq : Bool) (rs : List TagReq) : State :=
  (rs.zip s.me.freeEntries).foldl (fun s (r, i) =>
    ({ s with me := s.me.allocate i r.tag ⟨r.addr, ty, sc, acq, false⟩ }).sendEntry s.cur i ⟨r.addr, ty, sc, acq, false⟩)
    s.sided

/-- Tagged loads come to issue: their addresses pass the checks made at issue, the set has room, and no posted write of the
strand's own is in their way. -/
def State.taggable (s : State) (ty : Ty) (rs : List TagReq) : Prop :=
  s.tagIssueFault (ty.width / 8) ((rs.map (·.addr)).headD 0) rs = none ∧ rs.length ≤ s.me.freeEntries.length ∧
    s.ownPosted ((rs.flatMap fun r =>
      match s.check s.ctx .load false (ty.width / 8) r.addr r.addr (ty.width / 8) with
      | .ok y => y.readKeys
      | .error _ => []) ++ s.pathKeys s.ctx (rs.map (·.addr))) = false

/-- A core position that a message may be sent to: in the layout, of the weave's team and partition, on this package, and
holding the weave (R272, R273). -/
def State.reaches (s : State) (a : Word) : Prop :=
  a.extractLsb' 34 30 = 0 ∧ a.extractLsb' 3 5 = 0 ∧ s.inTeam s.me.wid (posPkg a) = true ∧
    s.dieIn s.me.part (posDie a) = true ∧ posCol a ≤ 159 ∧ posPkg a = ownPkg s ∧ s.holds (posCore a) s.me.wid = true

/-- A message may be queued: the release's waits are over and the send queue has room (R273, R274). -/
def State.sendable (s : State) : Prop := s.memFree ∧ s.drained ∧ s.me.sendq.length < 4

/-- What the strand started is done: no pass runs, and no loom operation of its own is under way (R110). -/
def State.workOver (s : State) : Prop := s.me.tr.st ≠ .running ∧ s.loomBusy = false ∧ s.me.loomErr = none

/-! ## The loom (R154, R155, R160) -/

/-- A gang that strand k completes starts its operation: its operands as they stand, with the errors of their words met and their
release tags noted, its claims, and each member's place in its core's queue; every member's wait is over. -/
def State.startGang (s : State) (k : StrandIx) (low : GangReq) (rs : List GangReq) : State :=
  let id := s.fresh.1
  let u := (s.fresh.2.meetUpsetsOf k (s.gangKeys low rs)).noteGang low rs
  let v := (s.gangClaims id low rs).foldl (fun s (t, c) => s.modTile t fun u => { u with claims := u.claims ++ [c] }) u
  rs.foldl (fun s r =>
    (s.modCore (coreOf r.strand) fun c => { c with loomq := c.loomq ++ [u.formOp id low r] }).endGang r .gangFormed) v

/-! ## Local queues (R340) -/

/-- No other strand waits on an end of a local queue before this one. -/
def State.lqFirst (s : State) (n : Nat) (recv : Bool) : Prop :=
  ∀ e ∈ s.lqWaiters, e.2.2.1 = s.cur ∨ ¬(e.1 = n ∧ e.2.1 = recv)

/-- The strand waits at no local queue any longer. -/
def State.lqServed (s : State) : State :=
  s.modCore s.core fun c => { c with lqWait := s.lqWaiters.filter fun e => e.2.2.1 != s.cur }

/-! ## Future cells (R305, R306) -/

/-- The value and the state word of a cell at a site. -/
def State.cellVal (s : State) (y : Site) : Word := BitVec.ofNat 64 ((s.meetUpsets y.keys).mem.value (y.keys.take 8))
def State.cellState (s : State) (y : Site) : Word := BitVec.ofNat 64 ((s.meetUpsets y.keys).mem.value (y.keys.drop 8))

/-- A future operation's cell has passed its checks, and the operation need not wait. -/
def State.cellReady (s : State) (a : Word) (y : Site) : Prop :=
  s.memFree ∧ s.check s.ctx .rmw true 16 a a 16 = .ok y ∧ y.fmt = none ∧ y.away = false ∧
    s.ownPosted y.keys = false ∧ s.pendingRead y.keys = false ∧ (∀ k ∈ y.keys, s.claimed k = false) ∧
    s.brokenLocal y.keys = false ∧ (s.meetUpsets y.keys).sitePoisoned y = false ∧ cellBad (s.cellState y) = false

/-! ## Transfers (R71, R73, R108) -/

/-- A transfer to t finds line l: inside the current segment, fetched whole, legal, and marked as a target or exempt. -/
def State.lands (s : State) (t : Word) (exempt : Bool) (l : Line) : Prop :=
  s.leavesSegment t = false ∧ (s.meetFetch t).fetchLine t = .line l ∧ lineIllegal l = none ∧ validCode t = true ∧
    (exempt = true ∨ isTgt l (slotIx t) = true)

/-- A transfer to t has been made from u: the line is held, and the strand stands at t. -/
def State.jumped (u : State) (t : Word) (l : Line) : State :=
  let u := (u.meetFetch t).keepLine (lineBase t).toNat l
  { u with iss := { u.iss with next := t } }.goesOn

/-- Trap entry as R114 writes it, at one level: the trap registers, the mode, the entry record, and the strand at the vector. -/
def Strand.trappedW (x : Strand) (pc : Word) (t : Trap) : Strand :=
  { x with
    tpc := pc, tcause := BitVec.ofNat 64 (t.sub.toNat * 256 + t.cause.toNat), tval := t.val, ttag := t.tag.setWidth 64,
    entW := some pc, flags := x.flags ||| 1#64 <<< 62, trcnt := 0, pc := x.tvec }

def Strand.trappedS (x : Strand) (vec pc : Word) (t : Trap) : Strand :=
  { x with
    stpc := pc,
    stcause := BitVec.ofNat 64 (t.sub.toNat * 256 + t.cause.toNat) ||| (if x.sys then 0x4000000000000000 else 0), stval := t.val,
    sttag := t.tag.setWidth 64, entS := some pc, flags := x.flags ||| 1#64 <<< 63, trcnt := 0, pc := vec }

/-! ## Integer results (R74, R75, R99) -/

def intLo (t : Ty) : Int := if t.isI then -(2 ^ (t.width - 1)) else 0
def intHi (t : Ty) : Int := if t.isI then 2 ^ (t.width - 1) - 1 else 2 ^ t.width - 1

/-- x modulo 2^w in the type's range. -/
def intWrap (t : Ty) (x : Int) : Int := if t.isI then x.bmod (2 ^ t.width) else x % 2 ^ t.width

/-- An integer form whose exact result is x has completed: a wrapping form sets IV out of range, a saturating one clamps and
sets SAT. -/
def State.intDone (s : State) (t : Ty) (sat : Bool) (d : GReg) (x : Int) : State :=
  let fits := intLo t ≤ x ∧ x ≤ intHi t
  let y := if sat then max (intLo t) (min (intHi t) x) else intWrap t x
  let fl := if fits then 0 else if sat then Num.sat else Num.iv
  ((s.addFlags fl).wg d (BitVec.ofInt 64 y)).goesOn

/-- The condition of R103 on two integers. -/
def intHolds (c : Cond) (a b : Int) : Bool :=
  match c with
  | .eq => a == b
  | .ne => a != b
  | .lt => decide (a < b)
  | .le => !decide (b < a)
  | .gt => decide (b < a)
  | .ge => !decide (a < b)
  | .un => false

/-! ## Vector results (R36, R124) -/

/-- A vector result lane by lane: f at the selected lanes, zero or the old element at the others. -/
def laneVec (s : State) (t : Ty) (sel : VSel) (d : VReg) (f : Nat → Nat) : VecReg :=
  ofElems t.width ((List.range t.count).map fun i =>
    if s.vsel t sel i then f i else if zeroing sel then 0 else elem (s.rv d) i t.width)

/-- The flags the selected lanes raise. -/
def laneFlags (s : State) (t : Ty) (sel : VSel) (f : Nat → Num.Flags) : Num.Flags :=
  ((List.range t.count).filter (s.vsel t sel)).foldl (fun a i => a ||| f i) 0

/-- The generator after k steps of a rounding in mode m (R36). -/
def gens (m : RMode) (g : BitVec 32) : Nat → BitVec 32
  | 0 => g
  | k + 1 => (Num.draw m (gens m g k)).1

/-- The random number of lane i: one step for each selected lane below it, and its own. -/
def laneRand (s : State) (t : Ty) (sel : VSel) (m : RMode) (i : Nat) : Nat :=
  (Num.draw m (gens m s.srg (rankBelow (s.vsel t sel) i))).2

/-- An integer lane's exact value narrowed, as a bit pattern, and the flag it raises. -/
def intLane (t : Ty) (sat : Bool) (e : Int) : Nat × Num.Flags :=
  (((if sat then max (intLo t) (min (intHi t) e) else e) % 2 ^ t.width).toNat,
    if intLo t ≤ e ∧ e ≤ intHi t then 0 else if sat then Num.sat else Num.iv)

/-- A form whose flags raise no enabled exception has completed: the flags merge, and f is the rest of its effect. -/
def State.flagged (s : State) (fl : Num.Flags) (f : State → State) : State := (f (s.addFlags fl)).goesOn

/-- A form whose flags raise an enabled exception: the sticky bits are set, nothing else is written, and enabled arithmetic exception is
raised with the lowest such bit (R35). -/
def State.raises (s : State) (fl : Num.Flags) (i : Instr) : Prop :=
  ∀ sub, enabledException s fl = some sub → exec i s = .next ((s.addFlags fl).traps 0x50 sub 0)

end Sys2Proof.Machine
end

