-- ==== Sys2Proof/Certificates/Slice0/Obligations.lean ====
section
/-! DEFINITION. The statements for the provers. A statement of several parts is the conjunction of the definitions of
Sys2Proof.Statements before it. -/

open Sys2Proof Sys2Proof.Machine

/-- ADD, SUB, MUL, MULH, ADDI, MULI, SHL and SHLI on integer types complete with the exact result narrowed as R99 and R102 say, and change
nothing else. -/
def Obligations.IntegerArithmetic : Prop :=
  ∀ s : State,
    (∀ x : AluS, x.ty.isInt = true →
      let a := readTy x.ty (s.rg x.a)
      let b := readTy x.ty (s.rg x.b)
      exec (.add x) s = .next (s.intDone x.ty x.sat x.d (a + b)) ∧
      exec (.sub x) s = .next (s.intDone x.ty x.sat x.d (a - b)) ∧
      exec (.mul x) s = .next (s.intDone x.ty x.sat x.d (a * b))) ∧
    (∀ x : Alu, x.ty.isInt = true →
      exec (.mulh x) s = .next ((s.wg x.d (BitVec.ofInt 64
        (readTy x.ty (s.rg x.a) * readTy x.ty (s.rg x.b) / 2 ^ x.ty.width))).goesOn)) ∧
    (∀ x : Alu, x.ty.isBits = true →
      exec (.shl x) s = .next (s.intDone x.ty false x.d
        (readTy x.ty (s.rg x.a) * 2 ^ ((s.rg x.b).toNat % 64 % x.ty.width)))) ∧
    (∀ x : AluI, x.ty.isInt = true →
      exec (.addi x) s = .next (s.intDone x.ty false x.d (readTy x.ty (s.rg x.a) + (immWord x.imm).toInt)) ∧
      exec (.muli x) s = .next (s.intDone x.ty false x.d (readTy x.ty (s.rg x.a) * (immWord x.imm).toInt))) ∧
    (∀ x : ShI, x.ty.isBits = true →
      exec (.shli x) s = .next (s.intDone x.ty false x.d (readTy x.ty (s.rg x.a) * 2 ^ x.s.val)))

/-- DIV and REM on integer types: a zero divisor gives 0 or the dividend and sets DZ; otherwise the quotient truncates toward zero, wraps
with IV, and the remainder takes the dividend's sign (R75, R102). -/
def Sys2Proof.Statements.IntegerDivision : Prop :=
  ∀ (x : Alu) (s : State), x.ty.isInt = true →
    let a := readTy x.ty (s.rg x.a)
    let b := readTy x.ty (s.rg x.b)
    (b ≠ 0 → exec (.div x) s = .next (s.intDone x.ty false x.d (a.tdiv b)) ∧
      exec (.rem x) s = .next (s.intDone x.ty false x.d (a.tmod b))) ∧
    (b = 0 → exec (.div x) s = .next ((s.addFlags Num.dz).wg x.d 0).goesOn ∧
      exec (.rem x) s = .next ((s.addFlags Num.dz).wg x.d (BitVec.ofInt 64 a)).goesOn)

/-- CMP and CMPI on integer types write their predicate and nothing else; the order is that of the type's values (R103). -/
def Sys2Proof.Statements.IntegerCompare : Prop :=
  ∀ s : State,
    (∀ x : CmpR, x.ty.isInt = true → x.cond ≠ .un →
      exec (.cmp x) s = .next (s.wp x.p (intHolds x.cond (readTy x.ty (s.rg x.a)) (readTy x.ty (s.rg x.b)))).goesOn) ∧
    (∀ x : CmpI, x.ty.isInt = true → x.cond ≠ .un →
      exec (.cmpi x) s = .next (s.wp x.p (intHolds x.cond (readTy x.ty (s.rg x.a)) (immWord x.imm).toInt)).goesOn)

/-- Integer division, remainder and comparison. -/
def Obligations.IntegerDivisionAndCompare : Prop :=
  Statements.IntegerDivision ∧ Statements.IntegerCompare

/-- Bitwise forms, right shifts, minimum, maximum, counts, moves, LEA and SEL write their result, set no flag and change nothing else
(R102, R104). -/
def Obligations.ScalarNoFlagForms : Prop :=
  ∀ s : State,
    (∀ x : Alu, x.ty.isBits = true →
      let n := (s.rg x.b).toNat % 64 % x.ty.width
      let p := (s.rg x.a).toNat % 2 ^ x.ty.width
      exec (.and x) s = .next (s.wg x.d (extTy x.ty (s.rg x.a &&& s.rg x.b).toNat)).goesOn ∧
      exec (.or x) s = .next (s.wg x.d (extTy x.ty (s.rg x.a ||| s.rg x.b).toNat)).goesOn ∧
      exec (.xor x) s = .next (s.wg x.d (extTy x.ty (s.rg x.a ^^^ s.rg x.b).toNat)).goesOn ∧
      exec (.shr x) s = .next (s.wg x.d (extTy x.ty (p >>> n))).goesOn ∧
      exec (.sra x) s = .next (s.wg x.d (BitVec.ofInt 64 (intWrap x.ty (Num.readInt true x.ty.width p / 2 ^ n)))).goesOn) ∧
    (∀ x : Alu, x.ty.isInt = true →
      let a := readTy x.ty (s.rg x.a)
      let b := readTy x.ty (s.rg x.b)
      exec (.min x) s = .next (s.wg x.d (BitVec.ofInt 64 (min a b))).goesOn ∧
      exec (.max x) s = .next (s.wg x.d (BitVec.ofInt 64 (max a b))).goesOn) ∧
    (∀ x : AluI, x.ty.isBits = true →
      exec (.andi x) s = .next (s.wg x.d (extTy x.ty (s.rg x.a &&& immWord x.imm).toNat)).goesOn ∧
      exec (.ori x) s = .next (s.wg x.d (extTy x.ty (s.rg x.a ||| immWord x.imm).toNat)).goesOn ∧
      exec (.xori x) s = .next (s.wg x.d (extTy x.ty (s.rg x.a ^^^ immWord x.imm).toNat)).goesOn) ∧
    (∀ x : ShI, x.ty.isBits = true →
      let p := (s.rg x.a).toNat % 2 ^ x.ty.width
      exec (.shri x) s = .next (s.wg x.d (extTy x.ty (p >>> x.s.val))).goesOn ∧
      exec (.srai x) s = .next
        (s.wg x.d (BitVec.ofInt 64 (intWrap x.ty (Num.readInt true x.ty.width p / 2 ^ x.s.val)))).goesOn) ∧
    (∀ x : Un,
      exec (.clz x) s = .next (s.wg x.d (BitVec.ofNat 64 (Num.clz x.ty.width ((s.rg x.a).toNat % 2 ^ x.ty.width)))).goesOn ∧
      exec (.popc x) s = .next (s.wg x.d (BitVec.ofNat 64 (Num.popc x.ty.width ((s.rg x.a).toNat % 2 ^ x.ty.width)))).goesOn) ∧
    (∀ x : MovI, x.ty.isInt = true →
      exec (.movi x) s = .next (s.wg x.d (extTy x.ty (immWord x.imm).toNat)).goesOn) ∧
    (∀ x : MovI, x.ty = .f32 → exec (.movi x) s = .next (s.wg x.d ((x.imm.lo.setWidth 32).setWidth 64)).goesOn) ∧
    (∀ x : LeaA, exec (.lea x) s =
      .next (s.wg x.d (s.rg x.a + (s.rg x.b <<< x.sc.val) + immWord x.imm)).goesOn) ∧
    (∀ x : SelA, exec (.sel x) s = .next (s.wg x.d (if s.me.readP x.c then s.rg x.a else s.rg x.b)).goesOn)

/-- The .f32 forms of ADD, SUB, MUL and DIV take one generator step, in mode 5 after those of passes still running, and write the rounded
result; MIN, MAX and CMP take none, which for MIN and MAX is the model's choice (log entry 25). With no enabled exception raised, the
sticky bits merge, and nothing else changes (R35, R36, R93, R100, R102, R103). -/
def Sys2Proof.Statements.FloatScalarCompletes : Prop :=
  ∀ s : State,
    (∀ x : AluS, x.ty = .f32 → (s.rmode = .stochastic → s.rmodeReady) →
      let q := Num.draw s.rmode s.srg
      let a := f32Of (s.rg x.a)
      let b := f32Of (s.rg x.b)
      let done (r : Nat × Num.Flags) : State := (((s.addFlags r.2).setSrg q.1).wg x.d (BitVec.ofNat 64 r.1)).goesOn
      (enabledException s (Num.fadd .f32 s.rmode q.2 a b).2 = none →
        exec (.add x) s = .next (done (Num.fadd .f32 s.rmode q.2 a b))) ∧
      (enabledException s (Num.fadd .f32 s.rmode q.2 a b.negate).2 = none →
        exec (.sub x) s = .next (done (Num.fadd .f32 s.rmode q.2 a b.negate))) ∧
      (enabledException s (Num.fmul .f32 s.rmode q.2 a b).2 = none →
        exec (.mul x) s = .next (done (Num.fmul .f32 s.rmode q.2 a b)))) ∧
    (∀ x : Alu, x.ty = .f32 →
      let q := Num.draw s.rmode s.srg
      let r := Num.fdiv .f32 s.rmode q.2 (f32Of (s.rg x.a)) (f32Of (s.rg x.b))
      let lo := Num.fminmax false .f32 ((s.rg x.a).toNat % 2 ^ 32) ((s.rg x.b).toNat % 2 ^ 32)
      let hi := Num.fminmax true .f32 ((s.rg x.a).toNat % 2 ^ 32) ((s.rg x.b).toNat % 2 ^ 32)
      ((s.rmode = .stochastic → s.rmodeReady) → enabledException s r.2 = none →
        exec (.div x) s = .next (((s.addFlags r.2).setSrg q.1).wg x.d (BitVec.ofNat 64 r.1)).goesOn) ∧
      (enabledException s lo.2 = none → exec (.min x) s = .next ((s.addFlags lo.2).wg x.d (BitVec.ofNat 64 lo.1)).goesOn) ∧
      (enabledException s hi.2 = none → exec (.max x) s = .next ((s.addFlags hi.2).wg x.d (BitVec.ofNat 64 hi.1)).goesOn)) ∧
    (∀ x : CmpR, x.ty = .f32 →
      let r := Num.fcmp x.cond (f32Of (s.rg x.a)) (f32Of (s.rg x.b))
      enabledException s r.2 = none → exec (.cmp x) s = .next ((s.addFlags r.2).wp x.p r.1).goesOn)

/-- An exception both raised and enabled: the sticky bits are set, no register is written, the generator stays, and enabled arithmetic
exception is raised with the lowest such bit as its subcode (R35).
Model choices: log entry 24. -/
def Sys2Proof.Statements.EnabledExceptionTraps : Prop :=
  ∀ (s : State) (sub : BitVec 8), s.me.tr.st ≠ .running →
    let q := Num.draw s.rmode s.srg
    let on (r : Nat × Num.Flags) (i : Instr) : Prop :=
      enabledException s r.2 = some sub → exec i s = .next ((s.addFlags r.2).traps 0x50 sub 0)
    (∀ x : AluS, x.ty = .f32 →
      let a := f32Of (s.rg x.a)
      let b := f32Of (s.rg x.b)
      on (Num.fadd .f32 s.rmode q.2 a b) (.add x) ∧ on (Num.fadd .f32 s.rmode q.2 a b.negate) (.sub x) ∧
      on (Num.fmul .f32 s.rmode q.2 a b) (.mul x)) ∧
    (∀ x : Alu, x.ty = .f32 →
      let a := (s.rg x.a).toNat % 2 ^ 32
      let b := (s.rg x.b).toNat % 2 ^ 32
      on (Num.fdiv .f32 s.rmode q.2 (f32Of (s.rg x.a)) (f32Of (s.rg x.b))) (.div x) ∧
      on (Num.fminmax false .f32 a b) (.min x) ∧ on (Num.fminmax true .f32 a b) (.max x)) ∧
    (∀ x : CmpR, x.ty = .f32 →
      let c := Num.fcmp x.cond (f32Of (s.rg x.a)) (f32Of (s.rg x.b))
      enabledException s c.2 = some sub → exec (.cmp x) s = .next ((s.addFlags c.2).traps 0x50 sub 0)) ∧
    (∀ f : Num.Flags, enabledException s f = some sub →
      (enabledOf s.me.rmode f).getLsbD sub.toNat = true ∧
        ∀ k, k < sub.toNat → (enabledOf s.me.rmode f).getLsbD k = false)

/-- Scalar .f32 forms complete with the rounded result, or trap on an enabled exception. -/
def Obligations.FloatScalarForms : Prop :=
  Statements.FloatScalarCompletes ∧ Statements.EnabledExceptionTraps

/-- A transfer to a marked slot of a legal line, inside the current segment, moves the strand there; CALL first writes its link register,
and the register form reads its target before (R71, R106, R108). -/
def Sys2Proof.Statements.TransfersComplete : Prop :=
  ∀ (s : State) (t : Word) (l : Line),
    (∀ d : BitVec 48, targetOf s.iss.own d = t → s.lands t false l → exec (.br d) s = .next (s.jumped t l)) ∧
    (∀ x : LinkD, targetOf s.iss.own x.disp = t → (s.wg x.d s.iss.next).lands t false l →
      exec (.call x) s = .next ((s.wg x.d s.iss.next).jumped t l)) ∧
    (∀ x : DA, s.rg x.a = t → (s.wg x.d s.iss.next).lands t false l →
      exec (.callReg x) s = .next ((s.wg x.d s.iss.next).jumped t l)) ∧
    (∀ a : GReg, s.rg a = t → s.lands t false l →
      exec (.ret a) s = .next (s.jumped t l) ∧ exec (.jr a) s = .next (s.jumped t l))

/-- A transfer by BR, CALL, RET or JR that may not be made raises the first cause its checks find, with CALL's link write kept: outside
the segment in shuttle mode segment not mapped, before anything is fetched; then the fetch's own cause; then an illegal line; then
target not marked. Each is reported at the target (R71, R73, R106, R108, R109).
Model choices: log entries 17, 18, 64. -/
def Sys2Proof.Statements.TransferFaults : Prop :=
  ∀ (s : State) (t : Word), s.me.tr.st ≠ .running →
    (∀ f : Trap, s.enter t false = .error f →
      (∀ d : BitVec 48, targetOf s.iss.own d = t → exec (.br d) s = .next ((s.metFetch t).takeTrap f 0)) ∧
      (∀ a : GReg, s.rg a = t → exec (.ret a) s = .next ((s.metFetch t).takeTrap f 0) ∧
        exec (.jr a) s = .next ((s.metFetch t).takeTrap f 0))) ∧
    (∀ (r : GReg) (f : Trap), (s.wg r s.iss.next).enter t false = .error f →
      (∀ d : BitVec 48, targetOf s.iss.own d = t →
        exec (.call ⟨r, d⟩) s = .next (((s.wg r s.iss.next).metFetch t).takeTrap f 0)) ∧
      (∀ a : GReg, s.rg a = t →
        exec (.callReg ⟨r, a⟩) s = .next (((s.wg r s.iss.next).metFetch t).takeTrap f 0))) ∧
    (s.leavesSegment t = true → s.enter t false = .error ⟨0x39, 3, t, some t, 0⟩) ∧
    (s.leavesSegment t = false →
      (∀ f, (s.meetFetch t).fetchLine t = .fault f → s.enter t false = .error f) ∧
      (∀ l k, (s.meetFetch t).fetchLine t = .line l → lineIllegal l = some k →
        s.enter t false = .error ⟨0x02, k, lineBase t, some t, 0⟩) ∧
      (∀ l, (s.meetFetch t).fetchLine t = .line l → lineIllegal l = none → validCode t = false ∨ isTgt l (slotIx t) = false →
        s.enter t false = .error ⟨0x03, 0, t, some t, 0⟩))

/-- Branches, calls and returns move the strand to a marked target, or raise the cause at the target. -/
def Obligations.TransfersAndTheirFaults : Prop :=
  Statements.TransfersComplete ∧ Statements.TransferFaults

/-- LOOP decrements its counter modulo 2^64, sets no flag, and transfers unless the result is zero; the decrement is kept if the transfer
faults. -/
def Obligations.LoopDecrementsThenTests : Prop :=
  ∀ (x : LinkD) (s : State),
    let c := s.rg x.d - 1
    let t := targetOf s.iss.own x.disp
    (c = 0 → exec (.loop x) s = .next (s.wg x.d c).goesOn) ∧
    (∀ l, c ≠ 0 → (s.wg x.d c).lands t false l → exec (.loop x) s = .next ((s.wg x.d c).jumped t l)) ∧
    (∀ f : Trap, c ≠ 0 → s.me.tr.st ≠ .running → (s.wg x.d c).enter t false = .error f →
      exec (.loop x) s = .next (((s.wg x.d c).metFetch t).takeTrap f 0))

/-- TRAP n raises system call and TRAP.BRK n breakpoint, n in the subcode, and the program counter saved at the level that takes it is the
TRAP's own address; ERET.N at that level goes on after it, and back in user mode it gives up a wait that a notice had interrupted,
which is the model's choice (log entry 72). A TRAP in system mode with its record full is left to the statement of trap entry (R72,
R114, R117, R118). -/
def Obligations.TrapForms : Prop :=
  ∀ (n : BitVec 8) (s : State), s.me.tr.st ≠ .running →
    exec (.trap n) s = .next (s.traps 0x70 n 0) ∧ exec (.trapBrk n) s = .next (s.traps 0x71 n 0) ∧
    (∀ c ∈ [(0x70 : BitVec 8), 0x71], ∀ l,
      let t : Trap := ⟨c, n, 0, none, 0⟩
      let vec := (s.partRec s.me.part).sysvec
      (s.me.sys = false → s.me.wt = false → s.me.tvec ≠ 0 → levelS c = false →
        State.lands { s with me := s.me.settle.trappedW s.iss.first t } s.me.tvec false l →
        (s.traps c n 0).me.tpc = s.iss.first ∧ (s.traps c n 0).me.tcause = BitVec.ofNat 64 (n.toNat * 256 + c.toNat)) ∧
      (s.me.sys = false → s.me.wt = true ∨ s.me.tvec = 0 ∨ levelS c = true →
        State.lands { s with me := s.me.settle.trappedS vec s.iss.first t } vec false l →
        (s.traps c n 0).me.stpc = s.iss.first ∧ (s.traps c n 0).me.stcause = BitVec.ofNat 64 (n.toNat * 256 + c.toNat))) ∧
    (∀ (u : State) (l l' : Line), u.me.tr.st ≠ .suspended → (∀ t, u.me.stage ≠ .orphaned t) → lineIllegal l' = none →
      chainEnd s.iss.first l' = s.iss.first →
      let sysOut : State := State.meetFetch { u with me := (Strand.keepParked { u.me with
        flags := if u.me.stcause.getLsbD 62 then u.me.flags ||| 1#64 <<< 63 else u.me.flags &&& ~~~(1#64 <<< 63), entS := none } s.iss.first false) } s.iss.first
      let weaveOut : State := State.meetFetch { u with me := (Strand.keepParked { u.me with
        flags := u.me.flags &&& ~~~(1#64 <<< 62), entW := none } s.iss.first false) } s.iss.first
      (u.me.sys = false → u.me.wt = true → u.me.tpc = s.iss.first → weaveOut.fetchLine s.iss.first = .line l' →
        weaveOut.lands (succAddr s.iss.first) (u.me.entW = some s.iss.first) l →
        exec .eretN u = .next (weaveOut.jumped (succAddr s.iss.first) l)) ∧
      (u.me.sys = true → u.me.stpc = s.iss.first → sysOut.fetchLine s.iss.first = .line l' →
        sysOut.lands (succAddr s.iss.first) (u.me.entS = some s.iss.first) l →
        exec .eretN u = .next (sysOut.jumped (succAddr s.iss.first) l)))

/-- Trap entry: the level is the cause's, the system's in system mode, and the system's where WT is set or the weave has no vector. The
level's registers, entry record and mode are written, and the strand stands at the vector; the other level's registers are kept. In
system mode with SR clear the cause is a double fault (R33, R114, R116). -/
def Sys2Proof.Statements.TrapEntryWrites : Prop :=
  ∀ (s : State) (t : Trap) (l : Line),
    let pc := t.pc.getD s.iss.first
    let vec := (s.partRec s.me.part).sysvec
    let w : State := { s with me := s.me.settle.trappedW pc t }
    let y : State := { s with me := s.me.settle.trappedS vec pc t }
    (s.me.sys = false → s.me.wt = false → s.me.tvec ≠ 0 → levelS t.cause = false → w.lands s.me.tvec false l →
      s.takeTrap t 0 = (w.meetFetch s.me.tvec).keepLine (lineBase s.me.tvec).toNat l) ∧
    (s.me.sys = false → s.me.wt = true ∨ s.me.tvec = 0 ∨ levelS t.cause = true → y.lands vec false l →
      s.takeTrap t 0 = (y.meetFetch vec).keepLine (lineBase vec).toNat l) ∧
    (s.me.sys = true → s.me.stcause.getLsbD 63 = true → y.lands vec false l →
      s.takeTrap t 0 = (y.meetFetch vec).keepLine (lineBase vec).toNat l) ∧
    (s.me.sys = true → s.me.stcause.getLsbD 63 = false → s.takeTrap t 0 = s.doubleFault)

/-- ERET leaves the current trap level: SYS takes PS, or WT clears, the level's entry record is cleared, and the strand goes on at the
saved address, exempt from the target check where the record names it; a wait that a notice interrupted there is kept. ERET.N goes on
after the instruction there. Passes that were suspended at the level left run again from the entry that faulted, with the %rmode and
predicates that log entry 122 names as the model's choice; a transfer that faults takes its cause, once those passes have completed.
Outside a trap both are illegal (R72, R118, R141, R142).
Model choices: log entries 22, 72. -/
def Sys2Proof.Statements.ReturnsComplete : Prop :=
  ∀ (s : State) (l l' : Line),
    let resumes : Bool := s.me.tr.st == .suspended && s.me.tr.susSys == s.me.sys
    let tr : Treadle := if resumes then
        { s.me.tr with st := .running, p := if s.me.p = s.me.tr.susP then s.me.tr.p else s.me.p,
                       rmode := if s.me.rmode = s.me.tr.susRmode then s.me.tr.rmode else s.me.rmode }
      else s.me.tr
    let sysOut (keep : Bool) : State := { s with me := (Strand.keepParked { s.me with
      flags := if s.me.stcause.getLsbD 62 then s.me.flags ||| 1#64 <<< 63 else s.me.flags &&& ~~~(1#64 <<< 63), entS := none,
      tr := tr } s.me.stpc keep) }
    let weaveOut (keep : Bool) : State := { s with me := (Strand.keepParked { s.me with
      flags := s.me.flags &&& ~~~(1#64 <<< 62), entW := none, tr := tr } s.me.tpc keep) }
    let faults (u : State) (b : Word) (f : Trap) (i : Instr) : Prop :=
      (resumes = true → exec i s =
        .next (State.waits { u with me := { u.me with pc := f.pc.getD b, stage := .orphaned f } } .treadle)) ∧
      (resumes = false → s.me.tr.st ≠ .running → exec i s = .next (u.takeTrap f 0))
    (∀ t, s.me.stage = .orphaned t → ∀ i ∈ [Instr.eret, .eretN],
      (s.me.tr.st = .running → exec i s = .next (s.waits .treadle)) ∧ (s.me.tr.st ≠ .running → exec i s = .next (s.takeTrap t 0))) ∧
    ((∀ t, s.me.stage ≠ .orphaned t) →
    let exS := decide (s.me.entS = some s.me.stpc)
    let exW := decide (s.me.entW = some s.me.tpc)
    let sysN := (sysOut false).meetFetch s.me.stpc
    let weaveN := (weaveOut false).meetFetch s.me.tpc
    (s.me.sys = true → (sysOut exS).lands s.me.stpc exS l → exec .eret s = .next ((sysOut exS).jumped s.me.stpc l)) ∧
    (s.me.sys = false → s.me.wt = true → (weaveOut exW).lands s.me.tpc exW l →
      exec .eret s = .next ((weaveOut exW).jumped s.me.tpc l)) ∧
    (s.me.sys = true → sysN.fetchLine s.me.stpc = .line l' → lineIllegal l' = none →
      sysN.lands (succAddr (chainEnd s.me.stpc l')) exS l →
      exec .eretN s = .next (sysN.jumped (succAddr (chainEnd s.me.stpc l')) l)) ∧
    (s.me.sys = false → s.me.wt = true → weaveN.fetchLine s.me.tpc = .line l' → lineIllegal l' = none →
      weaveN.lands (succAddr (chainEnd s.me.tpc l')) exW l →
      exec .eretN s = .next (weaveN.jumped (succAddr (chainEnd s.me.tpc l')) l)) ∧
    (∀ f, s.me.sys = true → (sysOut exS).enter s.me.stpc exS = .error f →
      faults ((sysOut exS).metFetch s.me.stpc) s.me.stpc f .eret) ∧
    (∀ f, s.me.sys = false → s.me.wt = true → (weaveOut exW).enter s.me.tpc exW = .error f →
      faults ((weaveOut exW).metFetch s.me.tpc) s.me.tpc f .eret) ∧
    (∀ f, s.me.sys = true → sysN.fetchLine s.me.stpc = .line l' → lineIllegal l' = none →
      sysN.enter (succAddr (chainEnd s.me.stpc l')) exS = .error f →
      faults (sysN.metFetch (succAddr (chainEnd s.me.stpc l'))) s.me.stpc f .eretN) ∧
    (∀ f, s.me.sys = false → s.me.wt = true → weaveN.fetchLine s.me.tpc = .line l' → lineIllegal l' = none →
      weaveN.enter (succAddr (chainEnd s.me.tpc l')) exW = .error f →
      faults (weaveN.metFetch (succAddr (chainEnd s.me.tpc l'))) s.me.tpc f .eretN) ∧
    (s.me.sys = false → s.me.wt = false → s.me.tr.st ≠ .running →
      exec .eret s = .next (s.traps 0x01 0 0) ∧ exec .eretN s = .next (s.traps 0x01 0 0)))

/-- Trap entry with the registers it writes, and the returns from a trap, with treadle passes suspended as well. -/
def Obligations.TrapEntryAndReturn : Prop :=
  Statements.TrapEntryWrites ∧ Statements.ReturnsComplete

/-- NOP, YIELD and SLEEP 0 change nothing; SLEEP ga waits until the die has counted ga cycles, and then goes on (R112). -/
def Obligations.PausingForms : Prop :=
  ∀ (a : GReg) (s : State),
    exec .nop s = .next s.goesOn ∧ exec .yield s = .next s.goesOn ∧
    (s.me.stage = .none → s.rg a = 0 → exec (.sleep a) s = .next s.goesOn) ∧
    (s.me.stage = .none → s.rg a ≠ 0 →
      exec (.sleep a) s = .next (State.waits { s with me := { s.me with
        stage := .sleeping (s.cycle (dieOf s.core) + (s.rg a).toNat) } } .sleep)) ∧
    (∀ n, s.me.stage = .sleeping n → n ≤ s.cycle (dieOf s.core) → exec (.sleep a) s = .next s.goesOn) ∧
    (∀ n, s.me.stage = .sleeping n → s.cycle (dieOf s.core) < n → exec (.sleep a) s = .next (s.waits .sleep))

/-- MFCR reads a control register; the trap registers of the system level only in system mode, %flags once nothing earlier can still set a
sticky bit, and %rmode once no earlier pass can still step the generator (R30, R32, R36, R119). -/
def Sys2Proof.Statements.ControlRegisterReads : Prop :=
  ∀ (x : McrA) (s : State),
    (CReg.isSystem x.cr = false ∨ s.me.sys = true → (x.cr = .rmode → s.rmodeReady) → (x.cr = .flags → s.flagsReady) →
      exec (.mfcr x) s = .next (s.wg x.d (s.readCR x.cr)).goesOn) ∧
    (CReg.isSystem x.cr = true → s.me.sys = false → s.me.tr.st ≠ .running → exec (.mfcr x) s = .next (s.traps 0x05 0 0))

/-- MTCR, MTCR.SET and MTCR.CLR write the writable fields of a control register and keep the others; no register a user may not write
changes in user mode, and no read-only register in either. A rounding mode of 6 or 7 is illegal and changes nothing, and a generator
state of zero is stored as 1 (R30 to R38, R119). -/
def Sys2Proof.Statements.ControlRegisterWrites : Prop :=
  ∀ (x : MtcA) (s : State),
    let old := s.readCR x.cr
    let m := CReg.mask x.cr
    let a := s.rg x.a
    let put (w : Word) : State := s.writeCR x.cr ((old &&& ~~~m) ||| (w &&& m))
    let allowed := (CReg.isSystem x.cr = false ∧ CReg.isFixed x.cr = false) ∨ s.me.sys = true
    let legal (w : Word) : Prop := x.cr = .rmode → w.extractLsb' 0 3 ≠ 6 ∧ w.extractLsb' 0 3 ≠ 7
    (allowed → (x.cr = .rmode → s.rmodeReady) → (x.cr = .flags → s.flagsReady) →
      (legal a → exec (.mtcr x) s = .next (put a).goesOn) ∧
      (legal (old ||| a) → exec (.mtcrSet x) s = .next (put (old ||| a)).goesOn) ∧
      (legal (old &&& ~~~a) → exec (.mtcrClr x) s = .next (put (old &&& ~~~a)).goesOn)) ∧
    (¬ allowed → s.me.tr.st ≠ .running →
      exec (.mtcr x) s = .next (s.traps 0x05 0 0) ∧ exec (.mtcrSet x) s = .next (s.traps 0x05 0 0) ∧
      exec (.mtcrClr x) s = .next (s.traps 0x05 0 0)) ∧
    (x.cr = .rmode → s.me.tr.st ≠ .running →
      (¬ legal a → exec (.mtcr x) s = .next s.illegal) ∧ (¬ legal (old ||| a) → exec (.mtcrSet x) s = .next s.illegal) ∧
      (¬ legal (old &&& ~~~a) → exec (.mtcrClr x) s = .next s.illegal))

/-- MTCR.ENT writes as MTCR does, and with %tpc or %stpc also the entry record of that level; it requires system mode. A rounding mode of
6 or 7 is illegal here too (R34, R72, R119). -/
def Sys2Proof.Statements.EntryRecordWrites : Prop :=
  ∀ (x : MtcA) (s : State),
    let old := s.readCR x.cr
    let m := CReg.mask x.cr
    let w := (old &&& ~~~m) ||| (s.rg x.a &&& m)
    (s.me.sys = true →
      (x.cr = .tpc → exec (.mtcrEnt x) s = .next (State.goesOn { s with me := { s.me with tpc := s.rg x.a, entW := some (s.rg x.a) } })) ∧
      (x.cr = .stpc → exec (.mtcrEnt x) s =
        .next (State.goesOn { s with me := { s.me with stpc := s.rg x.a, entS := some (s.rg x.a) } })) ∧
      (x.cr ≠ .tpc → x.cr ≠ .stpc → (x.cr = .rmode → (s.rg x.a).extractLsb' 0 3 ≠ 6 ∧ (s.rg x.a).extractLsb' 0 3 ≠ 7) →
        (x.cr = .rmode → s.rmodeReady) → (x.cr = .flags → s.flagsReady) →
        exec (.mtcrEnt x) s = .next (s.writeCR x.cr w).goesOn) ∧
      (x.cr = .rmode → (s.rg x.a).extractLsb' 0 3 = 6 ∨ (s.rg x.a).extractLsb' 0 3 = 7 → s.me.tr.st ≠ .running →
        exec (.mtcrEnt x) s = .next s.illegal)) ∧
    (s.me.sys = false → s.me.tr.st ≠ .running → exec (.mtcrEnt x) s = .next (s.traps 0x05 0 0))

/-- MFCR and the MTCR forms read and write control registers by their fields and modes. -/
def Obligations.ControlRegisterForms : Prop :=
  Statements.ControlRegisterReads ∧ Statements.ControlRegisterWrites ∧ Statements.EntryRecordWrites

/-- A pair word runs its scalar half, then its vector half on the registers as they stood before the word; each half has the meaning of
its single-word form. The scalar half's g and p registers and the sticky bits and side effects of both are kept, with the vector
half's v and m registers and the memory both leave (R307). A scalar store beside a vector half is made as that half completes, before
its access in program order: its load takes the stored bytes, also where a walk of its reads them, and its store goes out with the
scalar one and overwrites it. A half that is coded none does nothing. A pair of halves that compute on registers alone, without
floating point, completes in every state in which no pass of the strand's runs (R57 to R59).
Model choices: log entries 25, 34. -/
def Sys2Proof.Statements.PairWordCompletes : Prop :=
  (∀ (sh : ScalarHalf) (vh : VectorHalf) (s : State), plainScalar sh = true → plainVector vh = true → s.me.half = none →
    s.me.tr.st ≠ .running →
    ∃ a b t, halfAlone (scalarSingle sh) s = .next a ∧ halfAlone (vectorSingle vh) s = .next b ∧
      exec (.pairWord sh vh) s = .next t ∧ t.me.g = a.me.g ∧ t.me.sysg = a.me.sysg ∧ t.me.p = a.me.p ∧ t.me.v = b.me.v ∧
      t.me.m = b.me.m ∧ t.me.flags = a.me.flags ||| b.me.flags ∧ t.me.pc = s.iss.next ∧ t.mem = s.mem) ∧
  ∀ (sh : ScalarHalf) (vh : VectorHalf) (s s2 : State),
    let both (h : HalfDone) : State := State.goesOn { s2 with me := { s2.me with
      g := h.g, sysg := h.sysg, p := h.p, flags := s2.me.flags ||| (h.flags &&& 0x1FF), side := s2.me.side || h.side } }
    let s0 : State := { s with me := { s.me with stage := .none, waitSeq := none } }
    (vh ≠ .none → s.me.tr.st ≠ .running) →
      (∀ s1, s.me.half = none → (∀ x, sh = .st x → vh = .none) → runScalarHalf sh s = .ok s1 → runVectorHalf vh (beforeVector s0 s1 s1.me.halfDone) = .ok s2 →
        exec (.pairWord sh vh) s = .next (both s1.me.halfDone) ∧ (vh = .none → s2.me.v = s.me.v ∧ s2.me.m = s.me.m)) ∧
      (∀ h, s.me.half = some h → (∀ x, sh = .st x → vh = .none) → runVectorHalf vh (beforeVector s s h) = .ok s2 →
        exec (.pairWord sh vh) s = .next (both h)) ∧
      (∀ x, vh ≠ .none → stChecked x s (fun u p => storeWith p vh u) = .ok s2 → exec (.pairWord (.st x) vh) s = .next s2.goesOn) ∧
      (∀ x u, exec (.st x) u = (stChecked x u fun u p => u.store (attrOf x.sc) false [p] .ok).finish u) ∧
      (∀ p y, storeWith p (.vst y) s = vstForm [p] y s) ∧ (∀ y u, exec (.vst y) u = (vstForm [] y u).finish u) ∧
      (∀ p s3, (∀ y, vh ≠ .vst y) → afterStore vh p.bytes s = .ok s2 → s2.store {} false [p] .ok = .ok s3 →
        storeWith p vh s = .ok s3) ∧
      (∀ bs, (halfReads vh bs s = false → afterStore vh bs s = runVectorHalf vh s) ∧
        (halfReads vh bs s = true → runVectorHalf vh (s.seeing bs) = .ok s2 → afterStore vh bs s = .ok (s2.unseeing s bs))) ∧
      (∀ i u, scalarSingle sh = some i → exec i u = (runScalarHalf sh u).finish u) ∧
      (∀ i u, vectorSingle vh = some i → exec i u = (runVectorHalf vh u).finish u) ∧
      runScalarHalf .none s = .ok s ∧ runVectorHalf .none s = .ok s

/-- A half of a pair word that traps: the scalar half's trap is taken first, and neither half takes effect but for the sticky bits the
trapping half raised, which an enabled exception leaves set (R35, R43, R59).
Model choices: log entries 24, 34. -/
def Sys2Proof.Statements.PairWordTraps : Prop :=
  ∀ (sh : ScalarHalf) (vh : VectorHalf) (s : State), s.me.half = none → s.me.tr.st ≠ .running →
    let s0 : State := { s with me := { s.me with stage := .none, waitSeq := none } }
    (∀ s1 t, runScalarHalf sh s = .trap s1 t → exec (.pairWord sh vh) s = .next (s1.takeTrap t 0)) ∧
    (∀ s1 s2 t, (∀ x, sh = .st x → vh = .none) → runScalarHalf sh s = .ok s1 →
      runVectorHalf vh (beforeVector s0 s1 s1.me.halfDone) = .trap s2 t →
      exec (.pairWord sh vh) s = .next (State.takeTrap { s2 with me := { s0.me with flags := s2.me.flags } } t 0)) ∧
    (∀ x s1 t, vh ≠ .none → stChecked x s (fun u _ => .ok u) = .trap s1 t → exec (.pairWord (.st x) vh) s = .next (s1.takeTrap t 0)) ∧
    (∀ x s1 s2 p t, vh ≠ .none → (∀ k : State → Put → Res, stChecked x s k = k s1 p) → storeWith p vh s1 = .trap s2 t →
      exec (.pairWord (.st x) vh) s = .next (State.takeTrap { s2 with me := { s.me with flags := s2.me.flags } } t 0)) ∧
    (∀ p s2 t, (∀ y, vh ≠ .vst y) → afterStore vh p.bytes s = .trap s2 t → storeWith p vh s = .trap s2 t)

/-- A pair word runs both halves on the registers as they stood, or neither. -/
def Obligations.PairWords : Prop :=
  Statements.PairWordCompletes ∧ Statements.PairWordTraps

/-- LD whose checks pass, once its walk's own errors are met, writes the value of its site, extended as its type says; nothing else of the
strand changes but what a met release tag notes. The first clause is a load answered at once, the second one whose reply has come
(R182, R188, R236).
Model choices: log entry 3. -/
def Sys2Proof.Statements.LoadCompletes : Prop :=
  ∀ (x : MemL) (s : State),
    let a := s.rg x.a + immWord x.imm
    let n := x.ty.width / 8
    let w := s.walkedTo n [a]
    (∀ y, s.memFree → s.walkable n [a] → w.check w.ctx .load false n a a n = .ok y → w.readable y →
      exec (.ld x) s = .next (((w.readAt y).noteTags (attrOf x.sc) ((w.meetUpsets y.readKeys).tagsOf y.readKeys)).wg x.d
        (extTy x.ty ((w.meetUpsets y.readKeys).readSite y))).goesOn) ∧
    (∀ v tags fl, s.me.stage = .loadDone [(0, v)] tags fl → s.me.acqHold = false → s.me.tr.st ≠ .running →
      exec (.ld x) s = .next ((s.noteTags (attrOf x.sc) tags).wg x.d (extTy x.ty v)).goesOn)

/-- ST and ST.OF whose checks pass and waits are over: a store to the core's own memory is performed, any other is posted toward its home
with the bytes it writes; an ordered one is a synchronising write (R182, R183, R186, R188).
Model choices: log entry 3. -/
def Sys2Proof.Statements.StoreCompletes : Prop :=
  ∀ (x : MemS) (s : State) (y : Site),
    let a := s.rg x.a + immWord x.imm
    let n := x.ty.width / 8
    let w := s.walkedTo n [a]
    let puts : List Put := [⟨y, layBytes y.keys (w.rg x.b).toNat, 0⟩]
    s.memFree → s.walkable n [a] → w.check w.ctx .store false n a a n = .ok y → y.fmt = none →
      (w.storable (attrOf x.sc) false puts →
        exec (.st x) s = .next (((w.marked (attrOf x.sc).releases).putAll (w.syncOf (attrOf x.sc) false)
          (attrOf x.sc).scope puts).sided).goesOn) ∧
      (w.storable (attrOf x.sc) true puts →
        exec (.stOf x) s = .next (((w.marked true).putAll (w.syncOf (attrOf x.sc) true) (attrOf x.sc).scope puts).sided).goesOn)

/-- A misaligned LD, ST or ST.OF raises misaligned with the data address, a store to a format page raises format-page store shape, and
neither has any other effect (R178, R180, R203).
Model choices: log entry 3. -/
def Sys2Proof.Statements.MemoryShapeTraps : Prop :=
  ∀ (x : MemL) (z : MemS) (s : State), s.memFree → s.prompt = true → s.me.tr.st ≠ .running →
    let n := z.ty.width / 8
    let a := s.rg x.a + immWord x.imm
    let b := s.rg z.a + immWord z.imm
    (a.toNat % (x.ty.width / 8) ≠ 0 → exec (.ld x) s = .next (s.traps 0x13 0 a)) ∧
    (b.toNat % n ≠ 0 →
      exec (.st z) s = .next (s.traps 0x13 0 b) ∧ exec (.stOf z) s = .next (s.traps 0x13 0 b)) ∧
    (∀ y, s.walkable n [b] → (s.walkedTo n [b]).check s.ctx .store false n b b n = .ok y → y.fmt.isSome = true →
      exec (.st z) s = .next ((s.walkedTo n [b]).traps 0x17 1 b) ∧ exec (.stOf z) s = .next ((s.walkedTo n [b]).traps 0x17 1 b))

/-- LD writes the value at its address, ST and ST.OF write or post theirs; misaligned forms and stores to format pages trap. -/
def Obligations.LoadsAndStores : Prop :=
  Statements.LoadCompletes ∧ Statements.StoreCompletes ∧ Statements.MemoryShapeTraps

/-- The frame and effect of a store to the core's own memory, in a state whose storage has its canonical form: its bytes take the
register's low bytes in order, every other byte reads as before, and no register, flag or control register changes (R3, R182, R188).
Model choices: log entry 3. -/
def Obligations.LocalStoreFrame : Prop :=
  ∀ (x : MemS) (s : State) (y : Site),
    let a := s.rg x.a + immWord x.imm
    let n := x.ty.width / 8
    s.memoryOk = true → s.memFree → s.walkable n [a] → s.upsets = [] → s.check s.ctx .store false n a a n = .ok y → y.fmt = none → y.loc = true →
      s.storable (attrOf x.sc) false [⟨y, layBytes y.keys (s.rg x.b).toNat, 0⟩] → y.keys.Nodup →
      ∃ t, exec (.st x) s = .next t ∧
        (∀ i, i < y.keys.length → t.mem.read (y.keys.getD i 0) = (s.rg x.b).extractLsb' (8 * i) 8) ∧
        (∀ k, k ∉ y.keys → t.mem.read k = s.mem.read k) ∧
        t.me.g = s.me.g ∧ t.me.v = s.me.v ∧ t.me.p = s.me.p ∧ t.me.m = s.me.m ∧ t.me.q = s.me.q ∧
        t.me.flags = s.me.flags ∧ t.me.rmode = s.me.rmode ∧ t.me.pc = s.iss.next ∧ t.net = s.net ∧ t.strands = s.strands

/-- FENCE and FENCE.ST: an acquire fence checks and forgets the release tags read before it, a release fence makes later writes
synchronising at its scope, a full fence does both, and FENCE.ST waits for earlier stores alone (R185, R189, R235, R236). -/
def Obligations.FencesComplete : Prop :=
  ∀ (x : FenceA) (s : State), ¬(s.me.tr.st = .running ∧ s.me.tr.entries.any (fun e => entryTouchesMem e.instr) = true) →
    let met : State := { (if s.me.readTags.any (missed s.core x.scope) then s.addFlags Num.scm else s) with me :=
      { (if s.me.readTags.any (missed s.core x.scope) then s.addFlags Num.scm else s).me with readTags := [] } }
    (x.kind = .acquire → s.me.lsQuiet = true → exec (.fence x) s = .next met.goesOn) ∧
    (x.kind = .release → s.drained →
      exec (.fence x) s = .next (State.goesOn { s with me := { s.me with relFence := some x.scope } })) ∧
    (x.kind = .full → s.drained →
      exec (.fence x) s = .next (State.goesOn { met with me := { met.me with relFence := some x.scope } })) ∧
    (s.postedDone s.issueSeq = true →
      exec .fenceSt s = .next (State.goesOn { s with me := { s.me with relFence := some .fabric } })) ∧
    (s.postedDone s.issueSeq = false → exec .fenceSt s = .next (s.markIssue.waits .drain))

/-- The nine atomics: the home replaces the word by the operation's new value in one step, and gd takes the old value extended; the home's
flags merge (R190, R191, R192).
Model choices: log entries 3, 106. -/
def Obligations.AtomicsComplete : Prop :=
  ∀ (s : State) (y : Site), s.memFree →
    let at' (ty : Ty) (a : Word) : State := s.walkedTo (ty.width / 8) [a]
    let done (w : State) (sc : Option ScopePfx) (op : AtomOp) (ty : Ty) (d : GReg) (b c : Word) : State :=
      let r := (w.marked (attrOf sc).releases).doAtom op ty y b c (w.syncOf (attrOf sc) false)
      (((sidedAtom op ty b r.2.1 (r.1.noteTags (attrOf sc) r.2.2.2.1)).addFlags r.2.2.1).wg d (extTy ty r.2.1)).goesOn
    let sound (sc : Option ScopePfx) (ty : Ty) (a : Word) : Prop :=
      let w := at' ty a
      s.walkable (ty.width / 8) [a] ∧ w.checkAtom w.ctx .rmw a (ty.width / 8) = .ok y ∧ w.atomReady (attrOf sc) y ∧
        ((w.marked (attrOf sc).releases).meetUpsets y.keys).sitePoisoned y = false
    (∀ x : Atom, sound x.sc x.ty (s.rg x.a + sx x.imm) →
      exec (.aadd x) s = .next (done (at' x.ty (s.rg x.a + sx x.imm)) x.sc .add x.ty x.d (s.rg x.b) 0) ∧
      exec (.amin x) s = .next (done (at' x.ty (s.rg x.a + sx x.imm)) x.sc .min x.ty x.d (s.rg x.b) 0) ∧
      exec (.amax x) s = .next (done (at' x.ty (s.rg x.a + sx x.imm)) x.sc .max x.ty x.d (s.rg x.b) 0) ∧
      exec (.aand x) s = .next (done (at' x.ty (s.rg x.a + sx x.imm)) x.sc .and x.ty x.d (s.rg x.b) 0) ∧
      exec (.aor x) s = .next (done (at' x.ty (s.rg x.a + sx x.imm)) x.sc .or x.ty x.d (s.rg x.b) 0) ∧
      exec (.axor x) s = .next (done (at' x.ty (s.rg x.a + sx x.imm)) x.sc .xor x.ty x.d (s.rg x.b) 0) ∧
      exec (.aswap x) s = .next (done (at' x.ty (s.rg x.a + sx x.imm)) x.sc .swap x.ty x.d (s.rg x.b) 0)) ∧
    (∀ x : Atom3, sound x.sc x.ty (s.rg x.a + sx x.imm) →
      exec (.aaddt x) s = .next (done (at' x.ty (s.rg x.a + sx x.imm)) x.sc .addt x.ty x.d (s.rg x.b) (s.rg x.c)) ∧
      exec (.acas x) s = .next (done (at' x.ty (s.rg x.a + sx x.imm)) x.sc .cas x.ty x.d (s.rg x.b) (s.rg x.c)))

/-- What an atomic leaves in memory, in a state whose storage has its canonical form: integers add, compare and combine at the word's
width, floats add in mode 0 and take the minimum or maximum, ACAS writes only where its comparison succeeds, and no other byte
changes; the flags are those of the home's operation. AADDT wakes the word's waiters where it crosses its threshold, and at no other
time; where no save area stands, that changes no byte either (R190, R191, R192).
Model choices: log entry 28. -/
def Obligations.AtomicMemory : Prop :=
  ∀ (s : State) (op : AtomOp) (ty : Ty) (y : Site) (b c : Word) (sync : Option SyncTag),
    s.memoryOk = true → s.upsets = [] → s.sitePoisoned y = false → y.fmt = none → y.keys.Nodup → y.keys.length = ty.width / 8 →
    ty ∈ [Ty.i32, .i64, .z32, .z64, .f32] →
      let r := s.doAtom op ty y b c sync
      let old := s.mem.value y.keys
      let bv := b.toNat % 2 ^ ty.width
      let sum := readTy ty (BitVec.ofNat 64 old) + readTy ty b
      let float : Nat × Num.Flags := match op with
        | .min => Num.fminmax false .f32 old bv
        | .max => Num.fminmax true .f32 old bv
        | _ => Num.fadd .f32 .nearestEven 0 (Num.decode .f32 old) (Num.decode .f32 bv)
      let next : Nat := if ty = .f32 ∧ op ∈ [AtomOp.add, .min, .max] then float.1 % 2 ^ 32 else
        match op with
        | .add | .addt => (old + bv) % 2 ^ ty.width
        | .min => if readTy ty (BitVec.ofNat 64 old) ≤ readTy ty b then old else bv
        | .max => if readTy ty b ≤ readTy ty (BitVec.ofNat 64 old) then old else bv
        | .and => old &&& bv
        | .or => old ||| bv
        | .xor => old ^^^ bv
        | .swap => bv
        | .cas => if old = bv then c.toNat % 2 ^ ty.width else old
      let signed (n : Nat) : Int := Num.readInt true ty.width n
      r.2.1 = old ∧ r.2.2.2.2 = none ∧
      r.2.2.1 = (if ty = .f32 ∧ op ∈ [AtomOp.add, .min, .max] then float.2
        else if op = .add ∧ Num.inRange ty.isI ty.width sum = false then Num.iv else 0) ∧
      (op ≠ .addt ∨ s.saves = [] → r.1.mem.value y.keys = next ∧ ∀ k, k ∉ y.keys → r.1.mem.read k = s.mem.read k) ∧
      (op = .addt →
        let m := s.performRmw (layBytes y.keys ((old + bv) % 2 ^ ty.width)) sync
        r.1 = if signed old < signed c.toNat ∧ signed c.toNat ≤ signed ((old + bv) % 2 ^ ty.width) then m.wakeWord (y.keys.headD 0)
          else m)

/-- WAITA returns at once where the word differs from gb, and otherwise waits on it; AWAKE wakes the strands that wait on its word,
resident or saved, once the errors of the word it reads are met; a woken WAITA returns the value its wake carried, with the release
tags that value bore, or raises uncorrectable data error where that word was past correction (R193, R194, R228, R397).
Model choices: log entries 3, 13, 38, 106. -/
def Sys2Proof.Statements.WaitAndWake : Prop :=
  ∀ (s : State),
    (∀ (x : WaitAA) y,
      let n := x.ty.width / 8
      let a := s.rg x.a + sx x.imm
      let w := s.walkedTo n [a]
      s.memFree → s.walkable n [a] → w.checkAtom w.ctx .load a n = .ok y → w.ownPosted y.keys = false →
      w.brokenLocal y.keys = false → (w.meetUpsets y.keys).sitePoisoned y = false →
      let u := (w.meetUpsets y.keys).fold y.keys
      let cur := (w.meetUpsets y.keys).mem.value y.keys
      (cur ≠ patTy x.ty (s.rg x.b) →
        exec (.waita x) s = .next ((u.sided.noteTags {} ((w.meetUpsets y.keys).tagsOf y.keys)).wg x.d (extTy x.ty cur)).goesOn) ∧
      (cur = patTy x.ty (s.rg x.b) →
        exec (.waita x) s = .next (State.waits { u with me := { u.me with stage := .waiter y.keys } } .waita))) ∧
    (∀ (x : WaitAA) v ts, s.me.stage = .woken v ts false →
      exec (.waita x) s = .next ((s.sided.noteTags {} ts).wg x.d (extTy x.ty v)).goesOn) ∧
    (∀ (x : WaitAA) v ts, s.me.stage = .woken v ts true → s.me.tr.st ≠ .running →
      exec (.waita x) s = .next (s.traps 0x60 0 (s.rg x.a + sx x.imm))) ∧
    (∀ (x : AImm) y,
      let a := s.rg x.a + sx x.imm
      let w := s.walkedTo 4 [a]
      ¬(s.me.tr.st = .running ∧ s.me.tr.entries.any (fun e => entryTouchesMem e.instr) = true) → s.me.stage = .none →
      s.walkable 4 [a] → w.checkAtom w.ctx .load a 4 = .ok y → w.brokenLocal y.keys = false →
      exec (.awake x) s = .next (((w.touchKeys w.cur y.keys).wakeWord (y.keys.headD 0)).sided).goesOn)

/-- RED contributes gb to its word without a reply, and VRED each selected element to its own, in ascending order (R195, R196, R202).
Model choices: log entries 3, 39, 94, 107. -/
def Sys2Proof.Statements.ReductionsComplete : Prop :=
  ∀ (s : State),
    let tag (w : State) (sc : Option ScopePfx) : Option SyncTag :=
      if (attrOf sc).releases then some ⟨.core w.core, (attrOf sc).scope⟩ else w.me.relFence.map fun k => ⟨.core w.core, k⟩
    (∀ (x : RedA) y,
      let n := x.ty.width / 8
      let a := s.rg x.a + sx x.imm
      let w := s.walkedTo n [a]
      s.memFree → s.walkable n [a] → w.checkRed w.ctx a a n = .ok y →
      let puts : List RedPut := [⟨y, BitVec.ofNat 64 (patTy x.ty (w.rg x.b))⟩]
      w.reducible (attrOf x.sc) puts →
        exec (.red x) s = .next ((w.marked (attrOf x.sc).releases).sided.redAll x.op x.ty (tag w x.sc) puts).goesOn) ∧
    (∀ (x : VRedA) ys, s.unheld →
      let es := vecAddrs s x.ty x.sel (indexAddr s x.a x.x x.scale.val x.ofs x.ty)
      let first := (es.map (·.2)).headD 0
      let n := x.ty.width / 8
      let w := s.walkedTo n (es.map (·.2))
      s.walkable n (es.map (·.2)) → checkElems (fun a => w.checkRed w.ctx first a n) none es = .ok ys →
      let puts : List RedPut := ys.map fun (i, y) => ⟨y, BitVec.ofNat 64 (elem (w.rv x.s) i x.ty.width)⟩
      w.reducible (attrOf x.sc) puts →
        let u := w.marked (attrOf x.sc).releases
        exec (.vred x) s = .next ((if puts.isEmpty then u else u.sided).redAll x.op x.ty (tag w x.sc) puts).goesOn)

/-- WAITA, AWAKE, RED and VRED. -/
def Obligations.WaitsAndReductions : Prop :=
  Statements.WaitAndWake ∧ Statements.ReductionsComplete

/-- PGIN on a resident page or a window gives 0; on a page whose page-in is under way, its completion word; and on a spilled page it
starts the page-in: the completion word is cleared, the free ring's head advances, and gd takes the word's address. A block with a Res
word that is not zero is rejected, nothing taken, with page fault subcode 7, which is the model's choice of its fate (log entry 116)
(R200, R381, R384).
Model choices: log entries 3, 42, 91, 116. -/
def Sys2Proof.Statements.PageInForms : Prop :=
  ∀ (x : DAImm) (s : State),
    ¬(s.me.tr.st = .running ∧ s.me.tr.entries.any (fun e => entryTouchesMem e.instr) = true) → s.me.stage = .none →
    let a := s.rg x.a + sx x.imm
    let w := s.walkedTo 1 [a]
    let root := w.rootOf w.me.wid
    (classAddr a ≠ .user → classAddr a ≠ .none → exec (.pgin x) s = .next (s.sided.wg x.d 0).goesOn) ∧
    (∀ l, classAddr a = .user → s.walkable 1 [a] → w.translate w.ctx .load false 0 a 1 true = .ok l →
      w.me.sys = true ∨ l.pte.getLsbD 56 = true →
      let running := w.net.pageins.find? fun p => p.root == root && p.part == w.me.part && p.va == l.base
      (pteST l.pte = 0 → exec (.pgin x) s = .next (w.sided.wg x.d 0).goesOn) ∧
      (∀ p, pteST l.pte ≠ 0 → running = some p → exec (.pgin x) s = .next (w.sided.wg x.d p.vword).goesOn) ∧
      (∀ base k, pteST l.pte ≠ 0 → running = none →
        let h := 2 + 4 * (l.pte.extractLsb' 47 2).toNat
        let block := root + 65536
        let y := { w.ctx with root := root }
        let v1 := (w.meetRange block 8192).foldRange block 8192
        let v2 := v1.meetWalk y (v1.asWord root 0)
        w.inWindow block 8192 = true → w.ownPostedIn block 8192 = false → w.ownPosted (w.pathKeys y [w.asWord root 0]) = false →
        v1.rangePoisoned block 8192 = false →
        (v1.blockBad root = true → s.me.tr.st ≠ .running → exec (.pgin x) s = .next (v1.traps 0x10 7 a)) ∧
        (v1.blockBad root = false → v2.wordBase root a = .ok base → v2.freeWordSlot root = some k →
        let frh := (v2.asWord root (h + 2)).toNat % 2 ^ 32
        let ring := (v2.asWord root h).toNat + 8 * (frh % (v2.asWord root (h + 1)).toNat)
        frh ≠ (v2.asWord root (h + 3)).toNat % 2 ^ 32 →
        let v3 := v2.touchKeys v2.cur (keysFrom ring 8)
        v2.inWindow ring 8 = true → v2.ownPosted (keysFrom ring 8) = false →
        v3.poisoned ring = false →
        let word := base + 8 * k
        let vw := v3.asWord root 0 + BitVec.ofNat 64 (8 * k)
        let u := ((v3.meetUpsets (keysFrom word 8)).perform (layBytes (keysFrom word 8) 0) none).performRmw
          (layBytes (keysFrom (root + 65536 + 8 * (h + 2)) 8) ((frh + 1) % 2 ^ 32)) none
        exec (.pgin x) s = .next ((((u.modNet fun n => { n with pageins := n.pageins ++
          [{ part := u.me.part, root := root, va := l.base, group := l.group, pte := l.pte, frame := pteFrame (v3.word ring),
             word := word, vword := vw, slot := k,
             strand := u.cur, wid := u.me.wid }] }).sided).wg x.d vw)).goesOn)))

/-- TLBINV, TLBINV.AS and TLBINV.ALL, once the release's waits and the passes that access memory are over, send their invalidation to
every cache of the partition that holds an entry it removes; TLBSYNC goes on as a full fence once they are applied and the partition's
accesses then under way are performed; TLBINV.OUT on a page that is not spilled out raises access rights, and its copy's end gives its
word (R390 to R393).
Model choices: log entry 80. -/
def Sys2Proof.Statements.InvalidationForms : Prop :=
  ∀ (s : State), s.me.sys = true →
    let free := ¬(s.me.tr.st = .running ∧ s.me.tr.entries.any (fun e => entryTouchesMem e.instr) = true)
    (∀ x : AB, (s.rg x.a).extractLsb' 56 8 = 0 → (s.rg x.b).toNat % 65536 = 0 → free → s.drained →
      exec (.tlbinv x) s = .next (s.markIssue.sendInvals (.page (s.rg x.a).toNat (s.rg x.b).toNat)).goesOn) ∧
    (∀ b, (s.rg b).toNat % 65536 = 0 → free → s.drained →
      exec (.tlbinvAs b) s = .next (s.markIssue.sendInvals (.root (s.rg b).toNat)).goesOn) ∧
    (free → s.drained → exec .tlbinvAll s = .next (s.markIssue.sendInvals .all).goesOn) ∧
    (∀ b, (s.rg b).toNat % 65536 ≠ 0 → s.me.tr.st ≠ .running →
      exec (.tlbinvAs b) s = .next s.illegal) ∧
    (¬free → exec .tlbinvAll s = .next (s.waits .treadle) ∧ exec .tlbsync s = .next (s.waits .treadle)) ∧
    (free → s.me.stage = .none → (∀ v ∈ s.net.invals, v.id ∉ s.me.invs) → s.stillOut s.me.part (s.underWay s.me.part) = false → s.drained →
      let u : State := if s.me.readTags.any (missed s.core .package) then s.addFlags Num.scm else s
      exec .tlbsync s = .next (State.goesOn { u with me := { u.me with invs := [], readTags := [], relFence := some .package } })) ∧
    (free → s.me.stage = .none → (∃ v ∈ s.net.invals, v.id ∈ s.me.invs) → exec .tlbsync s = .next (s.waits .sync)) ∧
    (∀ (x : DABC), s.me.stage = .none → s.isP = false → (s.rg x.a).extractLsb' 56 8 = 0 → (s.rg x.b).toNat % 65536 = 0 →
      (s.rg x.c).toNat ≤ 0x7FFFFFF → free → s.drained →
      let m := s.markIssue
      let w := m.touchWalk s.me.wid (s.posOf s.core s.slot) (upTo m.wordGone (m.walkWords (s.rg x.a).toNat 3 (s.rg x.b).toNat))
      (s.me.tr.st ≠ .running → (∀ l, w.walk (s.rg x.b).toNat (s.rg x.a) = .ok l → pteST l.pte ≠ 1 →
          exec (.tlbinvOut x) s = .next (w.takeTrap (rights 5 (s.rg x.a)) 0)) ∧
        ∀ k, w.walk (s.rg x.b).toNat (s.rg x.a) = .error (.sub k) →
          exec (.tlbinvOut x) s = .next (w.takeTrap (rights 5 (s.rg x.a)) 0)) ∧
      (∀ l, w.walk (s.rg x.b).toNat (s.rg x.a) = .ok l → pteST l.pte = 1 →
        let v := w.sendInvals (.page (s.rg x.a).toNat (s.rg x.b).toNat)
        (∃ i ∈ v.net.invals, i.id ∈ v.me.invs) → exec (.tlbinvOut x) s =
          .next (State.waits { v with me := { v.me with stage := .tlbSent (pteFrame l.pte % 2 ^ 32) } } .sync))) ∧
    (∀ (x : DABC) page, s.me.stage = .tlbSent page → (∀ v ∈ s.net.invals, v.id ∉ s.me.invs) →
      s.stillOut s.me.part (s.underWay s.me.part) = false → exec (.tlbinvOut x) s = .next (State.waits { s with
        net := { s.net with nextId := s.net.nextId + 1,
                            flash := s.net.flash ++ [(s.net.nextId, (s.rg x.c).toNat, page, s.cur)] },
        me := { s.me with invs := [], stage := .flashOut s.net.nextId } } .flash)) ∧
    (∀ (x : DABC) w, s.me.stage = .flashDone w → exec (.tlbinvOut x) s = .next (s.wg x.d w).goesOn)

/-- PGIN, TLBINV and its forms, and TLBSYNC. -/
def Obligations.PagingForms : Prop :=
  Statements.PageInForms ∧ Statements.InvalidationForms

/-- The vector loads read every selected element and write its lane; an unselected lane is zeroed or kept (R124, R201, R202).
Model choices: log entries 3, 94. -/
def Sys2Proof.Statements.VectorLoadsComplete : Prop :=
  ∀ (s : State), s.unheld →
    let sound (t : Ty) (es : List (Nat × Word)) (fixed : Bool) (ys : List (Nat × Site)) : Prop :=
      let n := t.width / 8
      let w := s.walkedTo n (es.map (·.2))
      let ks := ys.flatMap fun p => p.2.readKeys ++ p.2.reads.flatMap fun r => keysFrom r 8
      s.walkable n (es.map (·.2)) ∧
        checkElems (fun a => w.check w.ctx .load false n ((es.map (·.2)).headD 0) a n)
          (if fixed then some ((es.map (·.2)).headD 0) else none) es = .ok ys ∧
        w.ownPosted ks = false ∧ w.brokenLocal ks = false ∧ (w.serve ys).2.2.2 = none
    let done (t : Ty) (sel : VSel) (d : VReg) (sc : Option ScopePfx) (es : List (Nat × Word)) (ys : List (Nat × Site)) : State :=
      let r := (s.walkedTo (t.width / 8) (es.map (·.2))).serve ys
      (loadLanes (r.1.noteTags (attrOf sc) r.2.2.1) t sel d r.2.1).goesOn
    (∀ (x : VLdA) ys,
      let es := vecAddrs s x.ty x.sel (seqAddr s x.a x.ofs x.ty)
      sound x.ty es true ys → exec (.vld x) s = .next (done x.ty x.sel x.d x.sc es ys)) ∧
    (∀ (x : VLdSA) ys,
      let es := vecAddrs s x.ty x.sel (strideAddr s x.a x.b x.ofs)
      sound x.ty es false ys → exec (.vlds x) s = .next (done x.ty x.sel x.d x.sc es ys)) ∧
    (∀ (x : VGatA) ys,
      let es := vecAddrs s x.ty x.sel (indexAddr s x.a x.x x.scale.val x.ofs x.ty)
      sound x.ty es false ys → exec (.vgath x) s = .next (done x.ty x.sel x.d x.sc es ys))

/-- A read of parts whose words hold neither error, release tag nor accumulator gives each part's value and changes nothing (R181, R182). -/
def Sys2Proof.Statements.CleanReadsServe : Prop :=
  ∀ (s : State) (ys : List (Nat × Site)), s.upsets = [] → s.exact = [] → s.relTags = [] →
    (∀ p ∈ ys, s.sitePoisoned p.2 = false) → s.serve ys = (s, ys.map (fun p => (p.1, s.readSite p.2)), [], none)

/-- The vector stores write every selected element's bytes, in one packet for each home; with nothing selected they store nothing. A
whole-block VST to a format page encodes its blocks, and one that meets an ordinary page and a format page does each part as its page
asks (R91, R201 to R203).
Model choices: log entries 3, 94. -/
def Sys2Proof.Statements.VectorStoresComplete : Prop :=
  ∀ (s : State), s.unheld →
    let done (w : State) (sc : Option ScopePfx) (puts : List Put) : State :=
      let u := (w.marked (attrOf sc).releases).putAll (w.syncOf (attrOf sc) false) (attrOf sc).scope puts
      (if puts.isEmpty then u else u.sided).goesOn
    (∀ (x : VStA) ys,
      let es := vecAddrs s x.ty x.sel (seqAddr s x.a x.ofs x.ty)
      let first := (es.map (·.2)).headD 0
      let n := x.ty.width / 8
      let w := s.walkedTo n (es.map (·.2))
      s.walkable n (es.map (·.2)) →
      checkElems (fun a => (w.check w.ctx .store false n first a n).bind
        (vstShape w (s.rg x.a + sx x.ofs) (decide (es.length = x.ty.count)) first a)) (some first) es = .ok ys →
      ((∀ y ∈ ys, y.2.fmt = none) → w.storable (attrOf x.sc) false (storeLanes x.ty (w.rv x.s) ys) →
        exec (.vst x) s = .next (done w x.sc (storeLanes x.ty (w.rv x.s) ys))) ∧
      (∀ f frame off, (∀ y ∈ ys, y.2.fmt.map (fun z => (z.1, z.2.1)) = some (f, frame)) →
        (ys.head?.bind fun y => y.2.fmt) = some (f, frame, off) →
        let e := encodeBlocks w f frame off (elems 16 (w.rv x.s))
        let puts : List Put := (ys.head?.map fun y => ⟨y.2, e.1, 0⟩).toList
        enabledException w e.2.2 = none → w.storable (attrOf x.sc) false puts →
        exec (.vst x) s = .next (((((w.marked (attrOf x.sc).releases).putAll (w.syncOf (attrOf x.sc) false) (attrOf x.sc).scope
          puts).sided).addFlags e.2.2).setSrg e.2.1).goesOn) ∧
      ((∃ y ∈ ys, ∃ z ∈ ys, y.2.fmt.map (fun f => (f.1, f.2.1)) ≠ z.2.fmt.map fun f => (f.1, f.2.1)) →
        exec (.vst x) s = (storeRuns w (attrOf x.sc) x.ty (w.rv x.s) ys).finish s)) ∧
    (∀ (x : VStSA) ys,
      let es := vecAddrs s x.ty x.sel (strideAddr s x.a x.b x.ofs)
      let first := (es.map (·.2)).headD 0
      let n := x.ty.width / 8
      let w := s.walkedTo n (es.map (·.2))
      s.walkable n (es.map (·.2)) →
      checkElems (fun a => (w.check w.ctx .store false n first a n).bind fun y =>
        noFormat a y (1 ||| w.laterPage w.ctx first a)) none es = .ok ys →
      w.storable (attrOf x.sc) false (storeLanes x.ty (w.rv x.s) ys) →
        exec (.vsts x) s = .next (done w x.sc (storeLanes x.ty (w.rv x.s) ys))) ∧
    (∀ (x : VScaA) ys,
      let es := vecAddrs s x.ty x.sel (indexAddr s x.a x.x x.scale.val x.ofs x.ty)
      let first := (es.map (·.2)).headD 0
      let n := x.ty.width / 8
      let w := s.walkedTo n (es.map (·.2))
      s.walkable n (es.map (·.2)) →
      checkElems (fun a => (w.check w.ctx .store false n first a n).bind fun y =>
        noFormat a y (1 ||| w.laterPage w.ctx first a)) none es = .ok ys →
      w.storable (attrOf x.sc) false (storeLanes x.ty (w.rv x.s) ys) →
        exec (.vscat x) s = .next (done w x.sc (storeLanes x.ty (w.rv x.s) ys)))

/-- The vector loads read, and the vector stores write, every selected element. -/
def Obligations.VectorMemoryForms : Prop :=
  Statements.VectorLoadsComplete ∧ Statements.CleanReadsServe ∧ Statements.VectorStoresComplete

/-- LDT and VGATHT allocate an entry for each request in order, the lowest free first, which is the model's choice (log entry 130), and
send its load (R210, R211).
Model choices: log entries 3, 109. -/
def Sys2Proof.Statements.TaggedLoadsIssue : Prop :=
  ∀ (s : State), s.memFree →
    (∀ (x : LdtA),
      let rs : List TagReq := [⟨s.rg x.a + sx x.ofs, tagOf (s.rg x.tr) x.ti⟩]
      s.taggable x.ty rs → exec (.ldt x) s =
        .next (s.tagged x.ty (attrOf x.sc).scope (x.acq || (attrOf x.sc).acquires) rs).goesOn) ∧
    (∀ (x : VGatTA),
      let rs : List TagReq := ((List.range x.ty.count).filter fun i => s.sel x.ty x.mkr x.lane i).map fun i =>
        ⟨indexAddr s x.a x.x x.scale.val x.ofs x.ty i, tagOf (s.rg x.tr) x.ti + BitVec.ofNat 16 i⟩
      s.me.tr.st ≠ .running → s.taggable x.ty rs → exec (.vgatht x) s =
        .next (s.tagged x.ty (attrOf x.sc).scope (x.acq || (attrOf x.sc).acquires) rs).goesOn) ∧
    (∀ (x : LdtA), s.me.tr.st ≠ .running →
      s.tagIssueFault (x.ty.width / 8) (s.rg x.a + sx x.ofs) [⟨s.rg x.a + sx x.ofs, tagOf (s.rg x.tr) x.ti⟩] = none →
      s.me.freeEntries = [] → exec (.ldt x) s = .next (s.traps 0x21 0 0))

/-- LSCNT counts the entries by state, and notes the cycle it counts in; LREISSUE, LFILL, LDROP and LDROP.ANY act on the entry of their
tag and give 1, or give 0 with no other effect where there is none (R219, R221).
Model choices: log entries 43, 109, 134. -/
def Sys2Proof.Statements.EntryResolution : Prop :=
  ∀ (s : State),
    (∀ d, exec (.lscnt d) s = .next (State.wg { s with me := { s.me with counted := some (s.dieRec (dieOf s.core)).cyc } } d (BitVec.ofNat 64
      ((s.me.ls.filter fun e => e.st = .pending).length + (s.me.ls.filter fun e => e.st = .landed).length * 2 ^ 8
        + (s.me.ls.filter fun e => e.st = .faulted).length * 2 ^ 16 + (s.me.ls.filter fun e => e.st = .reissued).length * 2 ^ 24
        + (32 - s.me.ls.length) * 2 ^ 32 + (if s.me.acqHold then 2 ^ 38 else 0)))).goesOn) ∧
    (∀ (x : TagA) e, s.me.reissuable (tagOf (s.rg x.tr) x.ti) = some e →
      let t : State := { s with me := (s.me.setEntry { e with st := .reissued, fault := none, stamp := 0 }).bumpEpoch e.idx }
      exec (.lreissue x) s = .next ((t.sendEntry s.cur e.idx e.req).wg x.d 1).goesOn) ∧
    (∀ (x : TagFA) e, s.me.faultedTag (tagOf (s.rg x.tr) x.ti) = some e →
      exec (.lfill x) s = .next (State.wg { s with me := s.me.setEntry { e with st := .landed, val := s.rg x.b, fault := none } } x.d
        1).goesOn) ∧
    (∀ (x : TagA) e, s.me.faultedTag (tagOf (s.rg x.tr) x.ti) = some e →
      exec (.ldrop x) s = .next (State.wg { s with me := s.me.dropEntry e.idx } x.d 1).goesOn) ∧
    (∀ (x : TagA) e, s.me.liveTag (tagOf (s.rg x.tr) x.ti) = some e →
      exec (.ldropAny x) s = .next (State.wg { s with me := s.me.dropEntry e.idx } x.d 1).goesOn) ∧
    (∀ (x : TagA), s.me.faultedTag (tagOf (s.rg x.tr) x.ti) = none → exec (.ldrop x) s = .next (s.wg x.d 0).goesOn) ∧
    (∀ (x : TagFA), s.me.faultedTag (tagOf (s.rg x.tr) x.ti) = none → exec (.lfill x) s = .next (s.wg x.d 0).goesOn) ∧
    (∀ (x : TagA), s.me.reissuable (tagOf (s.rg x.tr) x.ti) = none → exec (.lreissue x) s = .next (s.wg x.d 0).goesOn) ∧
    (∀ (x : TagA), s.me.liveTag (tagOf (s.rg x.tr) x.ti) = none → exec (.ldropAny x) s = .next (s.wg x.d 0).goesOn)

/-- LDT and VGATHT allocate landing entries; LSCNT, LREISSUE, LFILL and LDROP act on them. -/
def Obligations.TaggedLoadsAndTheirEntries : Prop :=
  Statements.TaggedLoadsIssue ∧ Statements.EntryResolution

/-- TAKE and TAKE.NB return the first entry of the taking order and free it; with nothing arrived, TAKE waits while loads are outstanding,
and otherwise both set NONE, give the count of outstanding loads, the tag FFFF and a false predicate; a faulted entry raises landing
fault and stays, noted so that nothing of this cycle comes before it (R214, R215, R218). -/
def Sys2Proof.Statements.TakesComplete : Prop :=
  ∀ (x : TakeA) (s : State),
    let none' : State := ((((s.wg x.d (BitVec.ofNat 64 s.me.outstanding)).wg x.t 0xFFFF).wp x.p false).setNone true).goesOn
    (∀ e r, s.me.takeOrder = e :: r → e.st ≠ .faulted →
      let t : State := { s with me := s.me.takeEntries (s.dieRec (dieOf s.core)).cyc [e] }
      let u := ((((t.wg x.d e.val).wg x.t (e.tag.setWidth 64)).wp x.p true).setNone false).goesOn
      exec (.take x) s = .next u ∧ exec (.takeNb x) s = .next u) ∧
    (s.me.takeOrder = [] →
      exec (.takeNb x) s = .next none' ∧
      (s.me.outstanding = 0 → exec (.take x) s = .next none') ∧
      (s.me.outstanding ≠ 0 → exec (.take x) s = .next (s.waits .take))) ∧
    (∀ e r f, s.me.takeOrder = e :: r → e.st = .faulted → e.fault = some f → s.me.tr.st ≠ .running →
      let u : State := { s with me := { s.me with took := some ((s.dieRec (dieOf s.core)).cyc, e.pos) } }
      exec (.take x) s = .next (u.takeTrap ⟨0x20, f.cause, f.val, none, e.tag⟩ 0) ∧
      exec (.takeNb x) s = .next (u.takeTrap ⟨0x20, f.cause, f.val, none, e.tag⟩ 0))

/-- VTAKE takes landed entries in the taking order, at most N of them and one for each selected lane, into those lanes, ascending; gc
takes their number. With none taken it waits while loads are outstanding, also with no lane selected, and raises landing fault where
the next entry is faulted. It stands after the passes that run (R141, R215 to R217).
Model choices: log entry 92. -/
def Sys2Proof.Statements.VectorTakeCompletes : Prop :=
  ∀ (x : VTakeA) (s : State),
    let lanes := (List.range x.ty.count).filter (s.vsel x.ty x.sel)
    let es := (s.me.takeOrder.takeWhile fun e => e.st == .landed).take (min (x.n1.val + 1) lanes.length)
    let z := zeroing x.sel
    let w := x.ty.width
    let next := s.me.takeOrder.head?
    s.me.tr.st ≠ .running →
    (es = [] → (∀ e, next = some e → e.st ≠ .faulted) → s.me.outstanding ≠ 0 → x.nb = false →
      exec (.vtake x) s = .next (s.waits .take)) ∧
    (∀ e f, es = [] → next = some e → e.st = .faulted → e.fault = some f →
      exec (.vtake x) s = .next (State.takeTrap { s with me := { s.me with took := some ((s.dieRec (dieOf s.core)).cyc, e.pos) } }
        ⟨0x20, f.cause, f.val, none, e.tag⟩ 0)) ∧
    (es ≠ [] ∨ ((∀ e, next = some e → e.st ≠ .faulted) ∧ (s.me.outstanding = 0 ∨ x.nb = true)) →
      let t : State := if es = [] then s else { s with me := s.me.takeEntries (s.dieRec (dieOf s.core)).cyc es }
      let t1 := t.wv x.d (fillLanes w z lanes (es.map fun e => e.val.toNat) (s.rv x.d))
      let t2 := t1.wv x.t (fillLanes w z lanes (es.map fun e => e.tag.toNat) (t1.rv x.t))
      exec (.vtake x) s = .next ((t2.wg x.c (BitVec.ofNat 64 es.length)).setNone es.isEmpty).goesOn)

/-- TAKE, TAKE.NB and VTAKE take landed entries in the taking order. -/
def Obligations.Takes : Prop :=
  Statements.TakesComplete ∧ Statements.VectorTakeCompletes

/-- PHINIT makes a phaser at phase 0 with a fresh check value, which is free, and gives its handle; PHREG adds a member, active at once
where no member counts, and gives its token; PHDROP takes a member away: a joining one at once, a signaller's absence standing for its
signal, at the boundary (R279 to R281).
Model choices: log entry 112. -/
def Obligations.PhaserMembership : Prop :=
  ∀ (s : State),
    (∀ (x : DA) blk idx, s.engine (s.rg x.a) recPhas = .ok (blk, idx) →
      hChk (s.rg x.a) = 0 → hM (s.rg x.a) = false → hMem (s.rg x.a) = 0 →
      (∀ p, s.phaser s.me.wid blk idx = some p → p.poisoned = false ∧ s.membersOf p = [] ∧ p.held = []) →
      s.phWaits s.me.wid blk idx = false →
      let c := Config.freeChk s.freeCtr
      let u : State := { s with freeCtr := s.freeCtr + 1 }
      exec (.phinit x) s =
        .next (((u.setPhaser ⟨s.me.wid, blk, idx, c, 0, [], false⟩).wg x.d (fullHandle (s.rg x.a) c)).sided).goesOn) ∧
    (∀ (x : PhRegA) p n, s.phaserOf (s.rg x.a) = .ok p → hM (s.rg x.a) = false → hMem (s.rg x.a) = 0 →
      (List.range 2048).find? (fun n => !s.members.any fun m => m.blk == p.blk && m.mem == n) = some n →
      let st : MStatus := if (s.membersOf p).any Member.counts then .joining else .active
      exec (.phreg x) s = .next ((State.wg { s with members := s.members ++ [⟨p.blk, n, p.wid, p.idx, x.mode, st, false⟩] } x.d
        (tokenOf (s.rg x.a) n)).sided).goesOn) ∧
    (∀ a p m, ¬(s.me.tr.st = .running ∧ s.me.tr.entries.any (fun e => entryTouchesMem e.instr) = true) →
      s.memberOf (s.rg a) = .ok (p, m) →
      (m.status = .joining → exec (.phdrop a) s =
        .next (State.sided { s with
          members := s.members.filter fun y => !(y.wid == p.wid && y.blk == p.blk && y.mem == m.mem) }).goesOn) ∧
      (m.status = .active → (signals m.mode && !m.sig) = false → exec (.phdrop a) s =
        .next ((s.modMember p m.mem fun m => { m with status := .leaving }).sided).goesOn) ∧
      (m.status = .active → (signals m.mode && !m.sig) = true → s.drained → exec (.phdrop a) s =
        .next (((s.markIssue.modMember p m.mem fun m => { m with status := .leaving, sig := true }).boundary p.wid p.blk p.idx
          (p.held.length + 2)).sided).goesOn))

/-- PHSIG, PHWAIT and PHSW: a signal is counted and gives the phase it signalled, a wait ends with the current phase once its own has
completed, and PHSW signals and waits for the phase it signalled: its own boundary ends its wait at once (R281, R282). -/
def Sys2Proof.Statements.PhaserSignalsAndWaits : Prop :=
  ∀ (s : State), s.me.stage = .none →
    ¬(s.me.tr.st = .running ∧ s.me.tr.entries.any (fun e => entryTouchesMem e.instr) = true) →
    (∀ (x : DA) p m q, s.memberOf (s.rg x.a) = .ok (p, m) → signals m.mode = true → s.drained →
      (s.markIssue.signal p m s.cur false).me.stage = .sigDone q →
      exec (.phsig x) s = .next (((s.markIssue.signal p m s.cur false).wg x.d (q.setWidth 64)).sided).goesOn) ∧
    (∀ (x : DA) p m, s.memberOf (s.rg x.a) = .ok (p, m) → signals m.mode = true → s.drained →
      m.status = .active → m.sig = false →
      let u := (s.markIssue.modMember p m.mem fun m => { m with sig := true }).modStrand s.cur fun y =>
        { y with stage := .sigDone p.p }
      s.phaser p.wid p.blk p.idx = some p → u.phaseDone p = false →
      exec (.phsig x) s = .next ((u.wg x.d (p.p.setWidth 64)).sided).goesOn) ∧
    (∀ (x : DAB) p m, s.memberOf (s.rg x.a) = .ok (p, m) → waits m.mode = true → p.poisoned = false →
      (phaseOver p.p ((s.rg x.b).setWidth 32) = true →
        exec (.phwait x) s = .next ((s.wg x.d (p.p.setWidth 64)).sided).goesOn) ∧
      (phaseOver p.p ((s.rg x.b).setWidth 32) = false → exec (.phwait x) s =
        .next (State.waits { s with me := { s.me with stage := .phWait p.blk p.idx ((s.rg x.b).setWidth 32) } } .phwait))) ∧
    (∀ (x : DA) p m, s.memberOf (s.rg x.a) = .ok (p, m) → signals m.mode = true → waits m.mode = true → s.drained →
      let v := s.markIssue.signal p m s.cur true
      (∀ q, v.me.stage = .phDone q → exec (.phsw x) s = .next ((v.wg x.d (q.setWidth 64)).sided).goesOn) ∧
      (∀ b i q, v.me.stage = .phSw b i q → exec (.phsw x) s = .next (v.waits .phwait)) ∧
      (∀ sw, v.me.stage = .sigHeld sw → exec (.phsw x) s = .next (v.waits .signal)) ∧
      (m.status = .active → m.sig = false →
        let u := (s.markIssue.modMember p m.mem fun m => { m with sig := true }).modStrand s.cur fun y =>
          { y with stage := .phSw p.blk p.idx p.p }
        s.phaser p.wid p.blk p.idx = some p → u.phaseDone p = false → exec (.phsw x) s = .next (u.waits .phwait))) ∧
    (∀ (x : DA) p m, s.memberOf (s.rg x.a) = .ok (p, m) → (signals m.mode && waits m.mode) = false → s.me.tr.st ≠ .running →
      exec (.phsw x) s = .next (s.takeTrap (rights 22 (s.rg x.a)) 0))

/-- A strand whose wait on a phaser a boundary has ended, by PHWAIT or PHSW, takes the new phase and goes on (R282). -/
def Sys2Proof.Statements.PhaserWaitEnds : Prop :=
  ∀ (s : State) (p : BitVec 32), s.me.stage = .phDone p →
    (∀ x : DAB, exec (.phwait x) s = .next ((s.wg x.d (p.setWidth 64)).sided).goesOn) ∧
    (∀ x : DA, ¬(s.me.tr.st = .running ∧ s.me.tr.entries.any (fun e => entryTouchesMem e.instr) = true) →
      exec (.phsw x) s = .next ((s.wg x.d (p.setWidth 64)).sided).goesOn)

/-- A boundary advances the phase by one; every member that stays becomes active and unsignalled, and a leaving one is gone (R280). -/
def Sys2Proof.Statements.BoundaryAdvances : Prop :=
  ∀ (s : State) (p : Phaser), s.phaser p.wid p.blk p.idx = some p → p.held = [] → s.phaseDone p = true →
    let t := s.boundary p.wid p.blk p.idx 1
    t.phaser p.wid p.blk p.idx = some { p with p := p.p + 1 } ∧
    t.members = s.members.filterMap fun m =>
      if m.wid == p.wid && m.blk == p.blk && m.idx == p.idx then
        if m.status = .leaving then none else some { m with status := .active, sig := false }
      else some m

/-- WARR arrives at a wired phaser and gives the phase it arrived in, at once or, where its core's count is full, once a boundary has made
room; WWAIT gives the phase once its own has completed; a wire that is not the core's raises access rights (R283, R284).
Model choices: log entries 55, 113. -/
def Sys2Proof.Statements.WiredForms : Prop :=
  ∀ (s : State), ¬(s.me.tr.st = .running ∧ s.me.tr.entries.any (fun e => entryTouchesMem e.instr) = true) →
    let member (w : Fin 16) : Prop := (s.wire w).1.cfg.getLsbD 63 = true ∧ (s.wire w).1.cfg.getLsbD (s.wire w).2 = true
    (∀ x : WArrA, member x.w → s.drained → s.me.stage = .none →
      (Tab.get 0 (s.wire x.w).1.counts (s.wire x.w).2 < (s.wire x.w).1.quota →
        exec (.warr x) s = .next (((s.markIssue.arriveAt x.w (s.wire x.w).1 (s.wire x.w).2).wg x.d
          ((s.wire x.w).1.phase.setWidth 64)).sided).goesOn) ∧
      ((s.wire x.w).1.quota ≤ Tab.get 0 (s.wire x.w).1.counts (s.wire x.w).2 →
        let y : Wired := { (s.wire x.w).1 with queue := (s.wire x.w).1.queue ++ [((s.wire x.w).2, s.cur)] }
        let u := s.markIssue.setWire x.w y
        exec (.warr x) s = .next (State.waits { u with me := { s.markIssue.me with stage := .arrHeld } } .signal))) ∧
    (∀ (x : WArrA) p, s.me.stage = .arrDone p → exec (.warr x) s = .next ((s.wg x.d (p.setWidth 64)).sided).goesOn) ∧
    (∀ x : WWaitA, member x.w →
      (phaseOver (s.wire x.w).1.phase ((s.rg x.b).setWidth 32) = true →
        exec (.wwait x) s = .next ((s.wg x.d ((s.wire x.w).1.phase.setWidth 64)).sided).goesOn) ∧
      (phaseOver (s.wire x.w).1.phase ((s.rg x.b).setWidth 32) = false → exec (.wwait x) s =
        .next (State.waits { s with me := { s.me with stage := .wWait ((s.rg x.b).setWidth 32) } } .wwait))) ∧
    (∀ (x : WArrA) (y : WWaitA), ¬ member x.w → ¬ member y.w → s.me.tr.st ≠ .running → s.me.stage = .none →
      exec (.warr x) s = .next (s.traps 0x12 24 0) ∧ exec (.wwait y) s = .next (s.traps 0x12 24 0))

/-- Signals, waits and boundaries of phasers and wired phasers. -/
def Obligations.PhaserSignalsWaitsAndWires : Prop :=
  Statements.PhaserSignalsAndWaits ∧ Statements.PhaserWaitEnds ∧ Statements.BoundaryAdvances ∧ Statements.WiredForms

/-- SEND, SEND.RQ and SEND.T queue a message of N words at a core that holds the weave; a request for a reply allocates a landing entry,
which the message names. SEND.T on a full queue raises send queue full, and SEND waits, but for a handler's, which raises it too.
Where only the replies to the strand's own requests are outstanding, a free bit says whether a SEND waits for them, which is the
model's choice (log entry 110) (R272 to R274).
Model choices: log entry 110. -/
def Sys2Proof.Statements.SendsComplete : Prop :=
  ∀ (s : State),
    let msg (a b : GReg) (n : Nat) (tag : BitVec 8) : Msg := ⟨tag, payloadWords s b n, s.me.core, s.me.wid, [posCore (s.rg a)], none, s.rg a⟩
    let asks (a b : GReg) (n : Nat) (tag : BitVec 8) (t : BitVec 16) (i : Nat) : State :=
      let me := s.me.allocate i t ⟨s.rg a, .z64, .fabric, false, true⟩
      pushSend { s with me := me } { msg a b n tag with reply := some ⟨s.cur, me.gen, i, me.epoch i⟩ }
    (∀ x : SendA, s.sendable → s.reaches (s.rg x.a) →
      exec (.send x) s = .next ((pushSend s (msg x.a x.b x.n.val x.tag)).sided).goesOn) ∧
    (∀ (x : SendRA) i is, s.sendable → s.reaches (s.rg x.a) → s.me.freeEntries = i :: is →
      exec (.sendRq x) s = .next ((asks x.a x.b x.n.val x.tag (tagOf (s.rg x.c) x.ltag) i).sided).goesOn) ∧
    (∀ (x : SendTA), s.sendable → s.reaches (s.rg x.a) → x.rq = false →
      exec (.sendT x) s = .next ((pushSend s (msg x.a x.b x.n.val x.tag)).sided).goesOn) ∧
    (∀ (x : SendTA) i is, s.sendable → s.reaches (s.rg x.a) → x.rq = true → s.me.freeEntries = i :: is →
      exec (.sendT x) s = .next ((asks x.a x.b x.n.val x.tag (tagOf (s.rg x.c) x.ltag) i).sided).goesOn) ∧
    (∀ (y : SendTA), s.memFree → s.drained → 4 ≤ s.me.sendq.length → s.me.tr.st ≠ .running → y.rq = false →
      s.reaches (s.rg y.a) → exec (.sendT y) s = .next (s.markIssue.traps 0x28 0 0)) ∧
    (∀ (x : SendA), s.memFree → s.drained → 4 ≤ s.me.sendq.length → s.reaches (s.rg x.a) →
      (s.me.origin ≠ 1 → exec (.send x) s = .next (s.markIssue.waits .room)) ∧
      (s.me.origin = 1 → s.me.tr.st ≠ .running → exec (.send x) s = .next (s.markIssue.traps 0x28 0 0))) ∧
    (∀ x : SendA, s.memFree → s.postedDone s.issueSeq = true → s.me.lsQuiet = false →
      (∀ e ∈ s.me.ls, e.st = .pending ∨ e.st = .reissued → e.req.rq = true) → s.me.sendq.length < 4 → s.reaches (s.rg x.a) →
      exec (.send x) s = .next (if Config.freeBit s.freeCtr then ((pushSend s.draw.2 (msg x.a x.b x.n.val x.tag)).sided).goesOn
        else s.markIssue.draw.2.waits .drain)) ∧
    (∀ (x : SendRA) i is, s.memFree → s.drained → 4 ≤ s.me.sendq.length → s.reaches (s.rg x.a) → s.me.freeEntries = i :: is →
      (s.me.origin ≠ 1 → exec (.sendRq x) s = .next (s.markIssue.waits .room)) ∧
      (s.me.origin = 1 → s.me.tr.st ≠ .running → exec (.sendRq x) s = .next (s.markIssue.traps 0x28 0 0)))

/-- SENDM queues one message for every core of its rectangle, and an empty rectangle only sets MEMPTY; either is a side effect (R276,
R307).
Model choices: log entries 53, 110. -/
def Sys2Proof.Statements.SendmCompletes : Prop :=
  ∀ (x : SendA) (s : State),
    let r := s.rg x.a
    let f (lo n : Nat) : Nat := (r.extractLsb' lo n).toNat
    r.extractLsb' 56 8 = 0 → r.extractLsb' 0 18 = 0 →
    (f 40 6 < f 34 6 ∨ f 26 8 < f 18 8 → exec (.sendm x) s = .next (s.sided.setMempty true).goesOn) ∧
    (f 34 6 ≤ f 40 6 → f 18 8 ≤ f 26 8 → s.sendable → s.inTeam s.me.wid (f 48 8) = true → s.dieIn s.me.part (f 46 2) = true →
      f 26 8 ≤ 159 → f 48 8 = ownPkg s →
      let cores := ((List.range 64).filter fun i => decide (f 34 6 ≤ i) && decide (i ≤ f 40 6)).flatMap fun i =>
        ((List.range 160).filter fun j => decide (f 18 8 ≤ j) && decide (j ≤ f 26 8)).map fun j => coreAt (f 46 2) i j
      exec (.sendm x) s = .next (pushSend (s.sided.setMempty false)
        ⟨x.tag, payloadWords s x.b x.n.val, s.me.core, s.me.wid, cores, none, r⟩).goesOn)

/-- HMSG sets a handler's address and priority and gives the old address; TAGEN and TAGDIS set and clear its enable; TAGPEND gives the
entry with the number of messages that wait (R269, R271, R277). -/
def Sys2Proof.Statements.HandlerForms : Prop :=
  ∀ (s : State),
    (∀ x : HMsgA,
      let tag := (s.rg x.b).extractLsb' 0 8 + x.tag
      let old := (s.coreRec s.core).handler tag
      let u := s.modCore s.core fun y =>
        { y with inbox := y.inbox.map fun (m : InMsg) => if m.msg.tag = tag then { m with since := none } else m }
      exec (.hmsg x) s = .next (((u.setHandler tag fun _ => (old &&& 0xE700000000000000) ||| (s.rg x.a &&& 0x00FFFFFFFFFFFFFF)
        ||| BitVec.ofNat 64 (x.prio.val * 2 ^ 59)).sided.wg x.d (old &&& 0x00FFFFFFFFFFFFFF))).goesOn) ∧
    (∀ x : TagEA,
      let tag := (s.rg x.b).extractLsb' 0 8 + x.tag
      exec (.tagen x) s = .next ((s.setHandler tag fun e => e ||| 1#64 <<< 63).sided).goesOn ∧
      exec (.tagdis x) s = .next ((s.setHandler tag fun e => e &&& ~~~(1#64 <<< 63)).sided).goesOn) ∧
    (∀ x : TagPA,
      let tag := (s.rg x.b).extractLsb' 0 8 + x.tag
      let n := ((s.coreRec s.core).inbox.filter fun m => m.msg.tag == tag).length
      exec (.tagpend x) s = .next (s.sided.wg x.d
        ((setBit ((s.coreRec s.core).handler tag) 62 (n != 0) &&& 0xF800000000000000) ||| BitVec.ofNat 64 n)).goesOn)

/-- SEND, SENDM and the handler entries' forms. -/
def Obligations.MessagesAndHandlers : Prop :=
  Statements.SendsComplete ∧ Statements.SendmCompletes ∧ Statements.HandlerForms

/-- HALT and HALT.K end the strand once its work is over and its send queue is empty, and HRET first sends the handler's reply: the slot
is free, and the core is released when the last strand leaves it (R110, R111, R275).
Model choices: log entry 54. -/
def Sys2Proof.Statements.EndsOfAStrand : Prop :=
  ∀ (s : State), s.workOver → s.me.sendq = [] →
    exec .halt s = .next (s.haltStrand 0 0) ∧
    (∀ a, exec (.haltK a) s = .next (s.haltStrand 0 (s.rg a))) ∧
    (∀ a, s.me.origin = 1 → s.me.stage = .none →
      let u := match s.me.owed with
        | some r => s.reply r (s.rg a).toNat none
        | none => s
      exec (.hret a) s = .next (State.haltStrand { u with me := { u.me with owed := none, stage := .replied } } 0 0)) ∧
    (∀ a, s.me.origin ≠ 1 → exec (.hret a) s = .next s.illegal)

/-- A strand that has halted leaves its slot without a strand: every register at its reset value, the system registers, the generation
and, which is the model's choice (log entry 108), the entries' epochs and the last restored generation kept (R39, R110, R115, R222). -/
def Sys2Proof.Statements.HaltFreesTheSlot : Prop :=
  ∀ (s : State) (key : Word), s.gangs = [] →
    (s.haltStrand 0 key).me = { Strand.empty with weave := s.me.weave &&& 0xFF00, sysg := s.me.sysg, epochs := s.me.epochs, lastGen := s.me.lastGen }

/-- HALT, HALT.K and HRET end the strand and free its slot. -/
def Obligations.EndsOfAStrand : Prop :=
  Statements.EndsOfAStrand ∧ Statements.HaltFreesTheSlot

/-- SPAWN and SPAWN.PIN write a descriptor: its counter, its entry word with the number of inputs, and the inputs; either is counted as a
posted write. On the core's own memory it is written at once and, with a counter of 0, put on the ready ring, which acknowledges it;
toward another core it is posted; toward a package without a path it is discarded. That the words bear a release tag is the model's
choice (log entry 136) (R183, R297 to R299).
Model choices: log entries 3, 136. -/
def Sys2Proof.Statements.SpawnCompletes : Prop :=
  ∀ (x : SpawnA) (s : State) (y : Site), s.memFree → s.drained →
    let a := s.rg x.a
    let n := x.n.val
    let entry (pin : Bool) : Word := BitVec.ofNat 64 (n * 2 ^ 60 + (if pin then 2 ^ 59 else 0)) + ((s.rg x.b).extractLsb' 0 56).setWidth 64
    let bytes (pin : Bool) := layBytes y.keys
      (packElems 64 (([x.count.setWidth 64, entry pin] ++ payloadWords s x.c n).map BitVec.toNat))
    let sync : Option SyncTag := some ⟨.core s.core, .fabric⟩
    let here (pin : Bool) : State :=
      let u := s.markIssue.postOne y.home y.keys
      let v := (u.2.meetUpsets y.keys).perform (bytes pin) sync
      (if x.count = 0 then v.push ⟨v.core, winOff a, v.me.wid, pin, some ⟨v.core, u.1⟩⟩
        else v.modNet fun m => { m with acks := m.acks ++ [⟨v.core, u.1⟩] }).sided.goesOn
    let there (pin : Bool) : State :=
      let u := s.markIssue.postOne y.home y.keys
      let v := u.2.fresh
      ((v.2.modNet fun (m : Net) => { m with reqs := m.reqs ++
        [{ id := v.1, core := s.core, strand := s.cur, gen := s.me.gen, seq := u.1, scope := .fabric,
           kind := .spawn (bytes pin) (coreAt (winDie a) (winRow a) (winCol a)) (winOff a) (x.count == 0) pin,
           tagged := none }] }).sided).goesOn
    (classAddr a = .own ∨ classAddr a = .core) → s.check s.ctx .store true 64 a a 64 = .ok y →
    s.ownPosted y.keys = false → s.pendingRead y.keys = false → (y.loc = false → s.classRoom [y.home] = true) →
      (y.away = true → y.loc = false →
        let u := (s.markIssue.discarded s.cur (blockOf s.core) a s.me.wid).sided.goesOn
        exec (.spawn x) s = .next u ∧ exec (.spawnPin x) s = .next u) ∧
      (y.away = false → y.loc = true → (∀ k ∈ y.keys, s.claimed k = false) → s.brokenLocal y.keys = false →
        exec (.spawn x) s = .next (here false) ∧ exec (.spawnPin x) s = .next (here true)) ∧
      (y.away = false → y.loc = false →
        exec (.spawn x) s = .next (there false) ∧ exec (.spawnPin x) s = .next (there true))

/-- DEC gives the counter as it was and lowers it by one; at 1 the descriptor goes on its owner's ready ring, and at 0 nothing changes but
a count of the refusal (R300).
Model choices: log entry 3. -/
def Sys2Proof.Statements.DecCompletes : Prop :=
  ∀ (x : DAImm) (s : State) (y : Site), s.memFree → s.drained →
    let a := s.rg x.a + sx x.imm
    let u := s.markIssue.meetUpsets y.keys
    (classAddr a = .own ∨ classAddr a = .core) → s.check s.ctx .rmw true 64 a a 8 = .ok y →
    s.ownPosted y.keys = false → s.pendingRead y.keys = false → (∀ k ∈ y.keys, s.claimed k = false) →
    s.brokenLocal (s.decKeys (s.localCore a) (winOff a)) = false → u.sitePoisoned y = false → ¬(s.mem.value y.keys = 1 ∧ 256 ≤ (s.coreRec (s.localCore a)).ready.length) →
      let r := u.decAt (s.localCore a) (winOff a) u.me.wid
      exec (.dec x) s = .next (r.2.sided.wg x.d (BitVec.ofNat 64 r.1)).goesOn

/-- A decrement in a state whose storage has its canonical form, once the errors of the words it reads are met: the counter's word
lowered, its old value answered. At 1 the descriptor goes on its owner's ready ring, or waits there for room; at 0 the refusal is
counted. No other byte changes (R297, R300, R396). -/
def Sys2Proof.Statements.DecrementLowersTheCounter : Prop :=
  ∀ (s : State) (c : CoreIx) (off wid : Nat), s.memoryOk = true →
    let ks := keysFrom (localKey c off) 8
    let r := s.decAt c off wid
    let t := s.touchKeys s.cur (s.decKeys c off)
    let old := t.mem.value ks
    r.1 = old ∧ (s.upsets = [] → t.mem = s.mem) ∧
    (old = 0 → r.2 = t.countCore c 0x03) ∧
    (1 < old → r.2.mem.value ks = old - 1 ∧ r.2.cores = t.cores) ∧
    (old = 1 →
      let u := t.performRmw (layBytes ks 0) none
      let x := t.coreRec c
      r.2.mem.value ks = 0 ∧
      (x.wid = some wid → x.linger = false → x.ready.length < 256 →
        (r.2.coreRec c).ready = x.ready ++ [⟨off, wid, u.descPin c off, 5, t.now c, t.now c⟩]) ∧
      (x.wid = some wid → x.linger = false → 256 ≤ x.ready.length →
        r.2.net.pushes = t.net.pushes ++ [⟨c, off, wid, u.descPin c off, none⟩])) ∧
    (∀ k, k ∉ ks → r.2.mem.read k = t.mem.read k)

/-- SPAWN writes a descriptor and DEC lowers its counter. -/
def Obligations.Codelets : Prop :=
  Statements.SpawnCompletes ∧ Statements.DecCompletes ∧ Statements.DecrementLowersTheCounter

/-- FUTR and FUTR.T on a full cell give its value as an acquire does; FUTR.T on an empty one gives 0 and a false predicate. FUTR on an
empty one squashes a codelet that has had no side effect, in two steps: its own descriptor's counter rises, and then the cell takes
the descriptor as its waiter, or, filled meanwhile, sends the descriptor a DEC; either way the strand's slot is free, and a waiter
that came between lowers the counter again and traps (R306 to R308).
Model choices: log entries 3, 58, 111. -/
def Sys2Proof.Statements.FutureReads : Prop :=
  ∀ (s : State) (a : Word) (y : Site),
    let w := s.walkedTo 16 [a]
    let u := (w.meetUpsets y.keys).fold y.keys
    let got := u.noteTags fabricAcq (u.tagsOf y.keys)
    (∀ x : FutRA, s.rg x.a + sx x.ofs = a → s.walkable 16 [a] → w.cellReady a y → (w.cellState y).getLsbD 63 = true →
      exec (.futr x) s = .next (got.wg x.d (w.cellVal y)).goesOn) ∧
    (∀ x : FutRtA, s.rg x.a + sx x.ofs = a → s.walkable 16 [a] → w.cellReady a y →
      ((w.cellState y).getLsbD 63 = true → exec (.futrT x) s = .next ((got.wg x.d (w.cellVal y)).wp x.p true).goesOn) ∧
      ((w.cellState y).getLsbD 63 = false → exec (.futrT x) s = .next ((u.wg x.d 0).wp x.p false).goesOn)) ∧
    (∀ x : FutRA, s.rg x.a + sx x.ofs = a → s.walkable 16 [a] → w.cellReady a y → (w.cellState y).getLsbD 63 = false →
      s.me.tr.st ≠ .running →
      (u.me.origin ≠ 3 → exec (.futr x) s = .next (u.traps 0x32 1 a)) ∧
      (u.me.origin = 3 → u.me.side = true → exec (.futr x) s = .next (u.traps 0x32 0 a)) ∧
      (u.me.origin = 3 → u.me.side = false → (w.cellState y).getLsbD 62 = true → exec (.futr x) s = .next (u.traps 0x31 0 a)) ∧
      (u.me.origin = 3 → u.me.side = false → (w.cellState y).getLsbD 62 = false →
        u.holds (coreAt (winDie u.me.desc) (winRow u.me.desc) (winCol u.me.desc)) u.me.wid = true →
        (∀ k ∈ u.ownCount, u.claimed k = false) → u.brokenLocal u.ownCount = false →
        let v := (u.meetUpsets u.ownCount).performRmw (layBytes u.ownCount (u.mem.value u.ownCount + 1)) none
        exec (.futr x) s = .next (State.waits { v with me := { v.me with stage := .cntUp } } .load))) ∧
    (∀ x : FutRA, s.rg x.a + sx x.ofs = a → s.me.stage = .cntUp → s.check s.ctx .rmw true 16 a a 16 = .ok y → y.fmt = none →
      (∀ k ∈ s.ownCount ++ y.keys, s.claimed k = false) → s.brokenLocal (y.keys ++ s.ownDec) = false →
      (s.meetUpsets y.keys).sitePoisoned y = false → cellBad (s.cellState y) = false →
      let t := (s.meetUpsets y.keys).fold y.keys
      let d := t.me.desc
      let ends (v : State) : State := (v.dropStrand v.cur 0).coreLeft v.core 0
      ((s.cellState y).getLsbD 63 = true →
        exec (.futr x) s = .next (ends (t.decAt (coreAt (winDie d) (winRow d) (winCol d)) (winOff d) t.me.wid).2)) ∧
      ((s.cellState y).getLsbD 63 = false → (s.cellState y).getLsbD 62 = true → s.me.tr.st ≠ .running →
        exec (.futr x) s = .next (t.lowerCount.traps 0x31 0 a)) ∧
      ((s.cellState y).getLsbD 63 = false → (s.cellState y).getLsbD 62 = false →
        exec (.futr x) s = .next (ends (t.performRmw (layBytes (y.keys.drop 8) (2 ^ 62 + d.toNat % 2 ^ 56)) none))))

/-- FUTW on an empty cell writes value and state as one step and gives 1, decrementing the counter of the waiter it names; on a full cell
it gives 0 and changes nothing (R309).
Model choices: log entry 3. -/
def Sys2Proof.Statements.FutureWrites : Prop :=
  ∀ (x : DABImm) (s : State) (y : Site),
    let a := s.rg x.a + sx x.imm
    let w := s.walkedTo 16 [a]
    let t := (w.meetUpsets y.keys).fold y.keys
    let u := t.markIssue
    let st := w.cellState y
    let bytes := layBytes (y.keys.take 8) (u.rg x.b).toNat ++ layBytes (y.keys.drop 8) (2 ^ 63)
    s.walkable 16 [a] → w.cellReady a y → t.drained →
      (st.getLsbD 63 = true → exec (.futw x) s = .next (u.sided.wg x.d 0).goesOn) ∧
      (st.getLsbD 63 = false → st.getLsbD 62 = false →
        exec (.futw x) s = .next ((u.perform bytes (some ⟨.core u.core, .fabric⟩)).sided.wg x.d 1).goesOn) ∧
      (st.getLsbD 63 = false → st.getLsbD 62 = true → u.waiterClaimed (waiterAddr st) = false →
        exec (.futw x) s = .next (((u.perform bytes (some ⟨.core u.core, .fabric⟩)).decWaiter (waiterAddr st)).sided.wg
          x.d 1).goesOn)

/-- FUTR, FUTR.T and FUTW. -/
def Obligations.Futures : Prop :=
  Statements.FutureReads ∧ Statements.FutureWrites

/-- COPY queues its command at the tile's engine; RINGINIT makes a ring of the size given, empty, with a free check value; AWAITF gives
the status of a filled slot that is held, or sleeps until the fill of its slot wakes it with the status; RELSLOT releases one and lets
RP pass released slots; RINGSTAT and RINGSTAT.CFG read the ring (R313, R315 to R318).
Model choices: log entries 58, 59, 105, 137. -/
def Obligations.CopyAndRings : Prop :=
  ∀ (s : State),
    (∀ (x : CopyA) r, s.memFree →
      let ws := (elems 64 (s.rv x.v)).map (BitVec.ofNat 64)
      copyBad ws = false → s.ringOf (s.rg x.b) = .ok r → (s.tileRec (tileOf s.core)).copyq.length < 16 →
      let c : CopyCmd :=
        { words := scopedCopy ws x.sc, ring := s.rg x.b, core := s.core, strand := s.cur, wid := s.me.wid, part := s.me.part,
          sys := s.me.sys, seq := (s.coreRec s.core).nextSeq,
          ld := (s.me.ls.filter LEntry.waiting).map fun e => (e.idx, s.me.epoch e.idx), gen := s.me.gen, reserved := false,
          bad := false, late := none }
      exec (.copy x) s = .next ((s.modTile (tileOf s.core) fun u => { u with copyq := u.copyq ++ [c] }).sided).goesOn) ∧
    (∀ (x : DAB) blk idx, s.engine (s.rg x.a) recRing = .ok (blk, idx) →
      hChk (s.rg x.a) = 0 → hM (s.rg x.a) = false → hMem (s.rg x.a) = 0 →
      1 ≤ ((s.rg x.b).extractLsb' 0 9).toNat → ((s.rg x.b).extractLsb' 0 9).toNat ≤ 256 →
      (∀ r, s.ring s.me.wid blk idx = some r → r.poisoned = false ∧ r.res = 0 ∧ s.ringSleepers r = 0) →
      let c := Config.freeChk s.freeCtr
      let u : State := { s with freeCtr := s.freeCtr + 1 }
      exec (.ringinit x) s = .next (((u.setRing ⟨s.me.wid, blk, idx, c, ((s.rg x.b).extractLsb' 0 9).toNat, 0, 0, 0, [],
        ((s.ring s.me.wid blk idx).map (·.asks)).getD [], false⟩).wg x.d (fullHandle (s.rg x.a) c)).sided).goesOn) ∧
    (∀ (x : DAB) w ts, s.me.stage = .ringDone w ts → exec (.awaitf x) s = .next (((s.noteTags fabricAcq ts).wg x.d w).sided).goesOn) ∧
    (∀ (x : DAB) r y, s.me.stage = .none → s.ringOf (s.rg x.a) = .ok r → r.slot ((s.rg x.b).setWidth 32) = some y →
      r.filled ((s.rg x.b).setWidth 32) = true → r.held ((s.rg x.b).setWidth 32) = true → y.released = false →
      exec (.awaitf x) s = .next (((s.noteTags fabricAcq y.sync.toList).wg x.d y.status).sided).goesOn) ∧
    (∀ (x : DAB) r, s.me.stage = .none → s.ringOf (s.rg x.a) = .ok r → r.filled ((s.rg x.b).setWidth 32) = false →
      exec (.awaitf x) s =
        .next (State.waits { s with me := { s.me with stage := .onRing r.blk r.idx ((s.rg x.b).setWidth 32) } } .awaitf)) ∧
    (∀ (x : AB) r y, ¬(s.me.tr.st = .running ∧ s.me.tr.entries.any (fun e => entryTouchesMem e.instr) = true) → s.drained →
      s.ringOf (s.rg x.a) = .ok r → r.slot ((s.rg x.b).setWidth 32) = some y →
      r.held ((s.rg x.b).setWidth 32) = true → y.released = false →
      exec (.relslot x) s = .next ((s.setRing ((r.setSlot { y with released := true }).advance 257)).sided).goesOn) ∧
    (∀ (x : DA) r, s.ringOf (s.rg x.a) = .ok r →
      exec (.ringstat x) s = .next (s.wg x.d (r.wp ++ r.rp)).goesOn ∧
      exec (.ringstatCfg x) s =
        .next (s.wg x.d (BitVec.ofNat 64 (r.size + r.res * 2 ^ 16 + s.ringSleepers r * 2 ^ 32))).goesOn)

/-- LAUNCH whose record passes the checks enters the pool and gives its weave number; a record that fails gives bit 63 and the code;
LAUNCH.W waits for its child, and gives the completion word once the child has ended (R355, R360, R365).
Model choices: log entries 3, 70, 71, 72. -/
def Sys2Proof.Statements.LaunchCompletes : Prop :=
  ∀ (x : DA) (s : State),
    (∀ ws, s.memFree → s.drained → s.markIssue.walkable 1 [s.rg x.a, s.rg x.a + 64] → (s.rg x.a).toNat % 64 = 0 →
      let w := s.markIssue.walkedTo 1 [s.rg x.a, s.rg x.a + 64]
      let pos := w.posOf w.core w.slot
      let u := w.touch w.ctx pos (s.rg x.a) 16
      let c := u.launchCtx u.me.part (u.rootOf u.me.wid) u.me.wid
      let v := u.touchExtras c pos ws
      u.readRecord (s.rg x.a) = .ok (some ws) →
      let code := v.launchCode u.me.part ws (v.readExtras c ws) true false false
      let e := v.enterPool u.me.part (u.rootOf u.me.wid) ws (some v.me.wid) false 0
      (code = none → 0 < v.poolFree →
        exec (.launch x) s = .next (e.2.sided.wg x.d (BitVec.ofNat 64 e.1)).goesOn ∧
        exec (.launchW x) s = .next (State.waits { (e.2.sided.wg x.d (BitVec.ofNat 64 e.1)) with
          me := { (e.2.sided.wg x.d (BitVec.ofNat 64 e.1)).me with stage := .childOut e.1 } } .launchW)) ∧
      (∀ k, code = some k →
        exec (.launch x) s = .next (v.sided.wg x.d (BitVec.ofNat 64 (2 ^ 63 + k))).goesOn ∧
        exec (.launchW x) s = .next (v.sided.wg x.d (BitVec.ofNat 64 (2 ^ 63 + k))).goesOn)) ∧
    (∀ w, s.me.stage = .childDone w → exec (.launchW x) s = .next (s.wg x.d w).goesOn) ∧
    (s.memFree → (s.rg x.a).toNat % 64 ≠ 0 → s.me.tr.st ≠ .running →
      exec (.launch x) s = .next (s.traps 0x13 0 (s.rg x.a)) ∧ exec (.launchW x) s = .next (s.traps 0x13 0 (s.rg x.a)))

/-- EXIT ends the whole weave with its code once its release's waits are over: every strand, shuttle, message and ring entry of the weave
goes, and a handler's owed reply carries 0 (R366). -/
def Sys2Proof.Statements.ExitCompletes : Prop :=
  ∀ (code : BitVec 8) (s : State),
    ¬(s.me.tr.st = .running ∧ s.me.tr.entries.any (fun e => entryTouchesMem e.instr) = true) → s.drained →
    let u := match s.me.owed with
      | some r => { s.markIssue.reply r 0 none with me := { s.markIssue.me with owed := none } }
      | none => s.markIssue
    (∀ w, s.weaveOf s.me.wid = some w →
      exec (.exit code) s = .next (State.stopWeave (u.setWeave { w with exiting := true, how := 2, code := code })
        { w with exiting := true, how := 2, code := code })) ∧
    (s.weaveOf s.me.wid = none → exec (.exit code) s = .next (u.haltStrand 0 0))

/-- LAUNCH, LAUNCH.W and EXIT. -/
def Obligations.LaunchAndExit : Prop :=
  Statements.LaunchCompletes ∧ Statements.ExitCompletes

/-- Outside shuttle mode JX and RETX transfer as BR and RET do, and CALLX also writes its link register (R323). -/
def Sys2Proof.Statements.TravelFormsOutsideShuttleMode : Prop :=
  ∀ (s : State) (t : Word) (l : Line), s.me.shm = false →
    (∀ x : JxD, targetOf s.iss.own x.disp = t → s.lands t false l → exec (.jx x) s = .next (s.jumped t l)) ∧
    (∀ x : JxR, s.rg x.a = t → s.lands t false l →
      exec (.jxReg x) s = .next (s.jumped t l) ∧ exec (.retx x) s = .next (s.jumped t l)) ∧
    (∀ x : CallxD, targetOf s.iss.own x.disp = t → (s.wg x.d s.iss.next).lands t false l →
      exec (.callx x) s = .next ((s.wg x.d s.iss.next).jumped t l)) ∧
    (∀ x : CallxR, s.rg x.a = t → (s.wg x.d s.iss.next).lands t false l →
      exec (.callxReg x) s = .next ((s.wg x.d s.iss.next).jumped t l))

/-- A departure: the strand leaves its slot, and a shuttle with its carry set sets out for the chosen replica of the target's segment
(R324, R325). -/
def Sys2Proof.Statements.DeparturesComplete : Prop :=
  ∀ (s : State) (t : Word) (k : Nat) (g : Segment) (c : CoreIx) (p : LivePfx),
    s.me.shm = true → s.me.stage = .none → s.me.wt = false → s.me.sys = false → s.me.origin ≠ 1 → s.me.ls = [] →
    s.me.tr.st = .idle ∨ s.me.tr.st = .ready → s.loomBusy = false → s.me.q.toList.any isLocal = false →
    segmentOf (s.weaveWords s.me.wid) t = some k → ((s.weaveOf s.me.wid).bind fun w => w.segment k) = some g →
    s.replica s.me.wid g = some c → s.me.sendq = [] → s.postedDone s.issueSeq = true → s.ptrsFree = true →
    let carries (live : Option LivePfx) (link : Option GReg) : Prop :=
      live.or (carrySet g.carry) = some p ∧ (carriedG p link).length ≤ 32
    (∀ x : JxD, targetOf s.iss.own x.disp = t → carries x.live none →
      exec (.jx x) s = .next (s.markIssue.depart t k c p none)) ∧
    (∀ x : JxR, s.rg x.a = t → carries x.live none →
      exec (.jxReg x) s = .next (s.markIssue.depart t k c p none) ∧ exec (.retx x) s = .next (s.markIssue.depart t k c p none)) ∧
    (∀ x : CallxD, targetOf s.iss.own x.disp = t → carries x.live (some x.d) →
      exec (.callx x) s = .next (s.markIssue.depart t k c p (some x.d))) ∧
    (∀ x : CallxR, s.rg x.a = t → carries x.live (some x.d) →
      exec (.callxReg x) s = .next (s.markIssue.depart t k c p (some x.d)))

/-- What a departing strand leaves: nothing in its slot but the system registers, the generation and, which is the model's choice (log
entry 108), the entries' epochs and the last generation given, and in flight a shuttle with the registers of its carry set as they
stood, and what a fence before it left to order (R222, R229, R324, R325). -/
def Sys2Proof.Statements.DepartureCarriesTheSet : Prop :=
  ∀ (s : State) (t : Word) (k : Nat) (c : CoreIx) (p : LivePfx), s.gangs = [] → s.me.q = Vector.replicate 8 .unbound →
    s.pinsFor s.me.wid c = true →
    let u := s.depart t k c p none
    u.me = { Strand.empty with weave := s.me.weave &&& 0xFF00, sysg := s.me.sysg, epochs := s.me.epochs, lastGen := s.me.lastGen } ∧
    ∃ h, u.net.shuttles = s.net.shuttles ++ [h] ∧ h.target = t ∧ h.core = c ∧ h.seg = k ∧ h.order = s.order ∧ h.flags = s.me.flags ∧
      h.relFence = s.me.relFence ∧ h.readTags = s.me.readTags ∧
      h.g = (carriedG p none).map (fun r => (r, s.rg r)) ∧ h.v = (carriedV p).map fun r => (r, s.rv r)

/-- JX, CALLX and RETX branch outside shuttle mode, and depart with their carry set in it. -/
def Obligations.Travel : Prop :=
  Statements.TravelFormsOutsideShuttleMode ∧ Statements.DeparturesComplete ∧ Statements.DepartureCarriesTheSet

/-- SEGMAP and SEGMAP.HI read the two words of their segment's entry in the heddle copy, four replica codes each; a segment outside 1 to N
raises segment not mapped, subcode 1. -/
def Obligations.SegmapReads : Prop :=
  ∀ (x : DA) (s : State),
    let k := ((s.rg x.a).extractLsb' 0 12).toNat
    (∀ w, s.weaveOf s.me.wid = some w →
      (∀ g, 1 ≤ k → w.heddle[k - 1]? = some g →
        (∀ i, i < 4 → (codeWord g 0).extractLsb' (16 * i) 16 = g.codes.getD i 0xFF ∧
          (codeWord g 1).extractLsb' (16 * i) 16 = g.codes.getD (4 + i) 0xFF) ∧
        exec (.segmap x) s = .next (s.wg x.d (codeWord g 0)).goesOn ∧
        exec (.segmapHi x) s = .next (s.wg x.d (codeWord g 1)).goesOn) ∧
      (k = 0 ∨ w.heddle.length < k → s.me.tr.st ≠ .running →
        exec (.segmap x) s = .next (s.traps 0x39 1 (s.rg x.a)) ∧ exec (.segmapHi x) s = .next (s.traps 0x39 1 (s.rg x.a)))) ∧
    (s.weaveOf s.me.wid = none → s.me.tr.st ≠ .running →
      exec (.segmap x) s = .next (s.traps 0x39 1 (s.rg x.a)) ∧ exec (.segmapHi x) s = .next (s.traps 0x39 1 (s.rg x.a)))

/-- SEGHEAT reads the number of a segment's replicas and the heat of those that still pin it, and SEGHEAT.CLR also clears it; SEGMAP and
SEGMAP.HI read the segment's replica codes; SEGREP and SEGREP.DEL on a weave that is held in save areas add and take away a replica,
and require system mode; that every unused code is rewritten as 0x00FF, and the operands' other bits ignored, is the model's choice
(log entries 60, 129; R332 to R334). -/
def Obligations.SegmentForms : Prop :=
  ∀ (s : State),
    (∀ (x : DA) g, ((s.weaveOf s.me.wid).bind fun w => w.segment ((s.rg x.a).extractLsb' 0 12).toNat) = some g →
      let cs := g.replicas.filter (s.pinsFor s.me.wid)
      let sum (f : Core → Nat) (cap : Nat) : Nat := min cap ((cs.map fun c => f (s.coreRec c)).foldl (· + ·) 0)
      let v := g.replicas.length * 2 ^ 56 + (cs.map fun c => (s.coreRec c).heatQmax).foldl max 0 * 2 ^ 48
        + sum (·.heatShed) 65535 * 2 ^ 32 + sum (·.heatArr) (2 ^ 32 - 1)
      exec (.segheat x) s = .next (s.wg x.d (BitVec.ofNat 64 v)).goesOn ∧
      exec (.segheatClr x) s = .next (State.wg (cs.foldl (fun s c => s.modCore c fun y =>
        { y with heatArr := 0, heatShed := 0, heatQmax := 0 }) s) x.d (BitVec.ofNat 64 v)).goesOn ∧
      exec (.segmap x) s = .next (s.wg x.d (codeWord g 0)).goesOn ∧
      exec (.segmapHi x) s = .next (s.wg x.d (codeWord g 1)).goesOn) ∧
    (∀ (x : DA), ((s.weaveOf s.me.wid).bind fun w => w.segment ((s.rg x.a).extractLsb' 0 12).toNat) = none →
      s.me.tr.st ≠ .running → exec (.segmap x) s = .next (s.traps 0x39 1 (s.rg x.a)) ∧
        exec (.segheat x) s = .next (s.traps 0x39 1 (s.rg x.a))) ∧
    (∀ (x : AB) w g c, s.me.sys = true → s.weaveOf ((s.rg x.a).extractLsb' 32 32).toNat = some w → s.weaveQuiet w = true →
      w.part = s.me.part → w.segment ((s.rg x.a).extractLsb' 0 12).toNat = some g → codeCore ((s.rg x.b).setWidth 16) = some c →
      let code : BitVec 16 := (s.rg x.b).setWidth 16
      let k := ((s.rg x.a).extractLsb' 0 12).toNat
      let used := g.codes.filter fun c => (codeCore c).isSome
      let put (cs : List (BitVec 16)) : List Segment := w.heddle.set (k - 1) { g with codes := (cs ++ List.replicate 8 0xFF).take 8 }
      let top := (s.vaultUses (blockOf c)).foldl (fun t u => max t u.2) 0
      ((code.extractLsb' 0 8).toNat ≤ 159 → s.dieIn s.me.part (dieOf c) = true → (s.coreRec c).wid = none →
        (s.coreRec c).pinSeg = none → (s.coreRec c).key = none → (s.coreRec c).quar = false → w.cores.contains c = false →
        top + (s.pinsIn (blockOf c) + 1) * shedBytes ≤ vaultSize → used.length < 8 →
        exec (.segrep x) s = .next ((((s.touchImage w c k).takeCore w c (some k)).wireCore w c).setWeave
          { w with heddle := put (used ++ [code]), cores := w.cores ++ [c] }).goesOn) ∧
      (used.contains code = true → 1 < used.length →
        let u := if (s.coreRec c).wid = some w.wid then
            (((s.coreRec c).inbox.foldl (fun s m => s.dropMsg c m.msg) s).zeroRange (localKey c 0) localSize).freeCore c
          else s
        exec (.segrepDel x) s = .next ((u.detachSaved w c).setWeave
          { w with heddle := put (used.filter (· != code)), cores := w.cores.filter (· != c) }).goesOn ∧
        ∀ v ∈ (u.detachSaved w c).saves, v.wid = w.wid → ∀ y ∈ v.cores, y.1 ≠ c)) ∧
    (∀ x : AB, s.me.sys = false → s.me.tr.st ≠ .running →
      exec (.segrep x) s = .next (s.traps 0x05 0 0) ∧ exec (.segrepDel x) s = .next (s.traps 0x05 0 0))

/-- SOPEN opens the lowest free stream of a block for the weave, both ends unbound with free check values, and gives the two handles
(R337, R338). -/
def Sys2Proof.Statements.StreamOpens : Prop :=
  ∀ (x : SopenA) (s : State) (k : Nat),
    let h := s.rg x.a
    let blk := hDie h * 160 + hBlk h
    h &&& 0xFFFF003F00FFFFFF = 0 → s.inTeam s.me.wid (hPkg h) = true → s.dieIn s.me.part (hDie h) = true → hBlk h ≤ 159 →
    hPkg h = ownPkg s → s.blockHolds s.me.wid blk = true →
    (List.range (recStrm (s.weaveWords s.me.wid))).find? (fun k => (s.stream s.me.wid blk k).isNone) = some k →
      let y : Stream :=
        { wid := s.me.wid, blk := blk, str := k, scope := x.scope, snd := freshEnd (Config.freeChk s.freeCtr),
          rcv := freshEnd (Config.freeChk (s.freeCtr + 1)), ns := 0, nr := 0, out := 0, fin := none, lost := false, toward := none,
          held := [], home := [], moveS := none, moveR := none, poisoned := false }
      let u : State := { s with freeCtr := s.freeCtr + 2, streams := s.streams ++ [y] }
      exec (.sopen x) s = .next ((((u.wg x.d (streamHandle (ownPkg s) y false)).wg (x.d + 1)
        (streamHandle (ownPkg s) y true))).sided).goesOn

/-- QBIND binds an unbound end to an unbound queue register, and QBIND.LOC a local queue; QUNBIND frees the register and gives the end's
new handle; QSTAT reads the state of what the register is bound to; SCLOSE and SCLOSE.U close an end. The close of a send end waits as
a release, the home's waiting moves come first, and a QUNBIND takes the items held to the home: the model's choices (log entry 65;
R339, R340, R344, R345). -/
def Sys2Proof.Statements.StreamBinding : Prop :=
  ∀ (s : State),
    (∀ (x : QBindA) y, s.qreg x.q = .unbound → s.freeEnd (s.rg x.a) = .ok y →
      let u := s.setQ x.q (.stream y.blk y.str (strEnd (s.rg x.a)) (s.rg x.a))
      (strEnd (s.rg x.a) = true → exec (.qbind x) s = .next ((u.placeRecv y s.cur).sided).goesOn) ∧
      (strEnd (s.rg x.a) = false → exec (.qbind x) s =
        .next ((u.setStream { y with snd := { y.snd with st := .bound, place := some s.cur } }).sided).goesOn)) ∧
    (∀ (x : QBindLA), s.qreg x.q = .unbound →
      exec (.qbindLoc x) s = .next ((s.setQ x.q (.loc x.lq.val x.recv)).sided).goesOn) ∧
    (∀ (x : QBindLA), s.qreg x.q ≠ .unbound → s.me.tr.st ≠ .running →
      exec (.qbindLoc x) s = .next (s.traps 0x2C 1 (BitVec.ofNat 64 x.q.val))) ∧
    (∀ (x : QDA) n recv, s.qreg x.q = .loc n recv →
      exec (.qunbind x) s = .next ((State.wg (s.setQ x.q .unbound) x.d 0).sided).goesOn) ∧
    (∀ (x : QDA) blk str bh y, s.qreg x.q = .stream blk str false bh → (s.atHome blk str).bound blk str = some y → y.poisoned = false →
      let h := s.atHome blk str
      let st : EState := if y.snd.st = .orphaned then .orphaned else .unbound
      let y' := { y with snd := { y.snd with st := st, gen := y.snd.gen + 1, chk := Config.freeChk h.freeCtr, place := none } }
      exec (.qunbind x) s = .next ((State.wg ((State.setQ { h with freeCtr := h.freeCtr + 1 } x.q .unbound).setStream y') x.d
        (streamHandle (ownPkg h) y' false)).sided).goesOn) ∧
    (∀ (x : QDA), s.qreg x.q = .unbound → exec (.qstat x) s = .next (s.sided.wg x.d 0).goesOn) ∧
    (∀ (x : QDA) n recv, s.qreg x.q = .loc n recv →
      let l := Tab.get [] (s.coreRec s.core).lq n
      exec (.qstat x) s = .next (s.sided.wg x.d (BitVec.ofNat 64 (2 * 2 ^ 62 + (if recv then 2 ^ 61 else 0)
        + (if (l.head?.map (·.2)).getD false then 2 ^ 58 else 0) + (16 - l.length) * 2 ^ 8 + l.length))).goesOn) ∧
    (∀ (x : QDA) blk str bh y, s.qreg x.q = .stream blk str false bh → s.bound blk str = some y →
      exec (.qstat x) s =
        .next (s.sided.wg x.d (BitVec.ofNat 64 (2 ^ 62 + peerCode y.rcv * 2 ^ 59 + (32 - y.out) * 2 ^ 8))).goesOn) ∧
    (∀ (x : QDA) blk str bh y, s.qreg x.q = .stream blk str true bh → s.bound blk str = some y →
      exec (.qstat x) s = .next (s.sided.wg x.d (BitVec.ofNat 64 (2 ^ 62 + 2 ^ 61 + peerCode y.snd * 2 ^ 59
        + (if (y.held.find? fun i => i.seq == y.nr).any (·.handle) then 2 ^ 58 else 0) + inOrder y.held y.nr 32))).goesOn) ∧
    (∀ (x : QDA) blk str bh y, s.qreg x.q = .stream blk str true bh → (s.atHome blk str).bound blk str = some y → y.poisoned = false →
      (s.atHome blk str).ptrRoom (s.atHome blk str).core y = true →
      let h := s.atHome blk str
      let st : EState := if y.rcv.st = .orphaned then .orphaned else .unbound
      let y' := { y with rcv := { y.rcv with st := st, gen := y.rcv.gen + 1, chk := Config.freeChk h.freeCtr, place := none },
                         toward := none, home := y.home ++ y.held, held := [] }
      let u : State := State.setQ { h with freeCtr := h.freeCtr + 1 } x.q .unbound
      exec (.qunbind x) s = .next ((State.wg ((u.leavePtr u.core { y with held := [] } (some y.ns)).setStream y') x.d
        (streamHandle (ownPkg h) y' true)).sided).goesOn) ∧
    (∀ q n recv, s.qreg q = .loc n recv → exec (.sclose q) s = .next ((s.setQ q .unbound).sided).goesOn) ∧
    (¬(s.me.tr.st = .running ∧ s.me.tr.entries.any (fun e => entryTouchesMem e.instr) = true) →
      (∀ q blk str bh y, s.qreg q = .stream blk str false bh → (s.atHome blk str).bound blk str = some y → y.poisoned = false →
        (s.atHome blk str).drained →
        exec (.sclose q) s = .next ((((s.atHome blk str).markIssue.setQ q .unbound).closeEnd y false).sided).goesOn) ∧
      (∀ q blk str bh y, s.qreg q = .stream blk str true bh → (s.atHome blk str).bound blk str = some y → y.poisoned = false →
        exec (.sclose q) s = .next ((((s.atHome blk str).setQ q .unbound).closeEnd y true).sided).goesOn) ∧
      (∀ a y, s.freeEnd (s.rg a) = .ok y →
        (strEnd (s.rg a) = false → s.drained → exec (.scloseU a) s = .next ((s.markIssue.closeEnd y false).sided).goesOn) ∧
        (strEnd (s.rg a) = true → exec (.scloseU a) s = .next ((s.closeEnd y true).sided).goesOn)))

/-- QSEND and QSEND.H append an item to a local queue, or send the next item of a bound stream; QRECV takes the oldest item of a local
queue, or the next in order of a stream, and gives a false predicate at the end of a closed stream (R340, R341, R346). -/
def Sys2Proof.Statements.StreamItems : Prop :=
  ∀ (s : State), ¬(s.me.tr.st = .running ∧ s.me.tr.entries.any (fun e => entryTouchesMem e.instr) = true) →
    (∀ (x : QSendA) n, s.qreg x.q = .loc n false → s.drained → s.lqFirst n false →
      (Tab.get [] (s.coreRec s.core).lq n).length < 16 →
      let put (b : Bool) : State :=
        (s.lqServed.modCore s.core fun c =>
          { c with lq := Tab.set c.lq n (Tab.get [] (s.coreRec s.core).lq n ++ [(s.rg x.b, b)]) }).sided.goesOn
      exec (.qsend x) s = .next (put false) ∧
      (∀ y, s.freeEnd (s.rg x.b) = .ok y → exec (.qsendH x) s = .next (put true))) ∧
    (∀ (x : QSendA) blk str bh y, s.qreg x.q = .stream blk str false bh → s.bound blk str = some y → y.poisoned = false →
      y.rcv.st ≠ .closed → y.rcv.st ≠ .orphaned → s.drained → y.out < 32 →
      let put (b : Bool) : State :=
        ((s.markIssue.setStream { y with ns := y.ns + 1, out := y.out + 1 }).sendItems y y.toward [⟨y.ns, s.rg x.b, b, s.core⟩]).sided.goesOn
      exec (.qsend x) s = .next (put false) ∧
      (∀ z, s.freeEnd (s.rg x.b) = .ok z → exec (.qsendH x) s = .next (put true))) ∧
    (∀ (x : QRecvA) n v b r, s.qreg x.q = .loc n true → s.lqFirst n true → Tab.get [] (s.coreRec s.core).lq n = (v, b) :: r →
      exec (.qrecv x) s = .next ((((s.lqServed.modCore s.core fun c => { c with lq := Tab.set c.lq n r }).wg x.d v).wp x.p true).sided).goesOn) ∧
    (∀ (x : QRecvA) blk str bh y i, s.qreg x.q = .stream blk str true bh → s.bound blk str = some y → y.poisoned = false →
      y.held.find? (fun i => i.seq == y.nr) = some i →
      let u := (s.setStream { y with nr := y.nr + 1, held := y.held.filter fun j => j.seq != y.nr }).modNet fun n =>
        { n with credits := n.credits ++ [(y.wid, y.blk, y.str)] }
      exec (.qrecv x) s =
        .next ((((u.noteTags ⟨.acq, y.scope⟩ [⟨.core i.core, y.scope⟩]).wg x.d i.val).wp x.p true).sided).goesOn) ∧
    (∀ (x : QRecvA) blk str bh y, s.qreg x.q = .stream blk str true bh → s.bound blk str = some y → y.poisoned = false →
      y.held.find? (fun i => i.seq == y.nr) = none → y.snd.st = .closed → y.fin = some y.nr →
      let u : State := match y.snd.closer with
        | some c => s.noteTags ⟨.acq, y.scope⟩ [⟨.core c, y.scope⟩]
        | none => s
      exec (.qrecv x) s = .next (((u.wg x.d 0).wp x.p false).sided).goesOn) ∧
    (∀ (x : QRecvA) (z : QSendA), s.qreg x.q = .unbound → s.qreg z.q = .unbound → s.me.tr.st ≠ .running →
      exec (.qrecv x) s = .next (s.traps 0x2C 0 (BitVec.ofNat 64 x.q.val)) ∧
      exec (.qsend z) s = .next (s.traps 0x2C 0 (BitVec.ofNat 64 z.q.val)))

/-- Streams and local queues: open, bind, send, receive, read and close. -/
def Obligations.Streams : Prop :=
  Statements.StreamOpens ∧ Statements.StreamBinding ∧ Statements.StreamItems

/-- VADD, VSUB, VMUL, VABS, VNEG, VSHL on integer types: each selected lane takes the exact result narrowed as R75 says, the others zero
or what they held, and the flags of the selected lanes merge (R124, R125). -/
def Obligations.VectorIntegerArithmetic : Prop :=
  ∀ s : State, s.unheld →
    let done (t : Ty) (d : VReg) (sel : VSel) (sat : Bool) (f : Nat → Int) : State :=
      ((s.addFlags (laneFlags s t sel fun i => (intLane t sat (f i)).2)).wv d
        (laneVec s t sel d fun i => (intLane t sat (f i)).1)).goesOn
    (∀ x : VArS, x.ty.isInt = true →
      let a (i : Nat) := ival x.ty (s.rv x.a) i
      let b (i : Nat) := ival x.ty (s.rv x.b) i
      exec (.vadd x) s = .next (done x.ty x.d x.sel x.sat fun i => a i + b i) ∧
      exec (.vsub x) s = .next (done x.ty x.d x.sel x.sat fun i => a i - b i) ∧
      exec (.vmul x) s = .next (done x.ty x.d x.sel x.sat fun i => a i * b i)) ∧
    (∀ x : VUnS, x.ty.isI = true →
      let a (i : Nat) := ival x.ty (s.rv x.a) i
      exec (.vabs x) s = .next (done x.ty x.d x.sel x.sat fun i => (a i).natAbs) ∧
      exec (.vneg x) s = .next (done x.ty x.d x.sel x.sat fun i => -a i)) ∧
    (∀ x : VBin, exec (.vshl x) s =
      .next (done x.ty x.d x.sel false fun i => ival x.ty (s.rv x.a) i * 2 ^ (elem (s.rv x.b) i x.ty.width % 64 % x.ty.width))) ∧
    (∀ x : VShI, exec (.vshlImm x) s = .next (done x.ty x.d x.sel false fun i => ival x.ty (s.rv x.a) i * 2 ^ x.s.val))

/-- Vector forms that move bits set no flag: bitwise forms, right shifts, integer minimum and maximum, float sign changes, moves,
broadcasts, permutations and rotations, lane by lane under the selection (R124, R125, R127). -/
def Obligations.VectorBitForms : Prop :=
  ∀ s : State, s.unheld →
    let done (t : Ty) (d : VReg) (sel : VSel) (f : Nat → Nat) : State := (s.wv d (laneVec s t sel d f)).goesOn
    (∀ x : VBin,
      let w := x.ty.width
      let a (i : Nat) := elem (s.rv x.a) i w
      let b (i : Nat) := elem (s.rv x.b) i w
      let n (i : Nat) := b i % 64 % w
      exec (.vand x) s = .next (done x.ty x.d x.sel fun i => a i &&& b i) ∧
      exec (.vor x) s = .next (done x.ty x.d x.sel fun i => a i ||| b i) ∧
      exec (.vxor x) s = .next (done x.ty x.d x.sel fun i => a i ^^^ b i) ∧
      exec (.vshr x) s = .next (done x.ty x.d x.sel fun i => a i / 2 ^ n i) ∧
      exec (.vsra x) s = .next (done x.ty x.d x.sel fun i => Num.lowBits w (Num.readInt true w (a i) / 2 ^ n i)) ∧
      (x.ty.isInt = true →
        exec (.vmin x) s = .next (done x.ty x.d x.sel fun i =>
          if ival x.ty (s.rv x.a) i ≤ ival x.ty (s.rv x.b) i then a i else b i) ∧
        exec (.vmax x) s = .next (done x.ty x.d x.sel fun i =>
          if ival x.ty (s.rv x.a) i ≤ ival x.ty (s.rv x.b) i then b i else a i))) ∧
    (∀ x : VShI,
      let w := x.ty.width
      let a (i : Nat) := elem (s.rv x.a) i w
      exec (.vshrImm x) s = .next (done x.ty x.d x.sel fun i => a i / 2 ^ x.s.val) ∧
      exec (.vsraImm x) s = .next (done x.ty x.d x.sel fun i => Num.lowBits w (Num.readInt true w (a i) / 2 ^ x.s.val)) ∧
      exec (.vrot x) s = .next (done x.ty x.d x.sel fun i => a ((i + x.s.val) % x.ty.count))) ∧
    (∀ x : VUnS, x.ty.isFloat = true →
      let a (i : Nat) := elem (s.rv x.a) i x.ty.width
      exec (.vabs x) s = .next (done x.ty x.d x.sel fun i => a i % 2 ^ (x.ty.width - 1)) ∧
      exec (.vneg x) s = .next (done x.ty x.d x.sel fun i => a i ^^^ 2 ^ (x.ty.width - 1))) ∧
    (∀ x : VUn,
      exec (.vmov x) s = .next (done x.ty x.d x.sel fun i => elem (s.rv x.a) i x.ty.width) ∧
      exec (.vexpand x) s = .next (done x.ty x.d x.sel fun i =>
        elem (s.rv x.a) (((List.range i).filter (s.vsel x.ty x.sel)).length) x.ty.width)) ∧
    (∀ x : VBcA, exec (.vbcast x) s = .next (done x.ty x.d x.sel fun _ => (s.rg x.a).toNat % 2 ^ x.ty.width)) ∧
    (∀ x : VBcI, exec (.vbcastImm x) s = .next (done x.ty x.d x.sel fun _ => (sx x.imm).toNat % 2 ^ x.ty.width)) ∧
    (∀ x : VPermA,
      let w := x.ty.width
      let n := x.ty.count
      exec (.vperm x) s = .next (done x.ty x.d x.sel fun i =>
        let u := elem (s.rv x.b) i w
        if u < n then elem (s.rv x.a) u w else if u < 2 * n then elem (s.rv x.c) (u - n) w else 0)) ∧
    (∀ x : VIotaA, exec (.viota x) s = .next (done x.ty x.d x.sel fun i =>
      ((List.range i).filter (s.vsel x.ty x.sel)).length % 2 ^ x.ty.width))

/-- The float forms that round: every selected lane, ascending, takes one generator step in mode 5 and the operation's rounded result;
with no enabled exception raised the flags merge. The minimum and maximum take no step. An exception both raised and enabled sets the
sticky bits and writes nothing else, the generator included (R35, R36, R121, R125).
Model choices: log entry 25. -/
def Obligations.VectorFloatForms : Prop :=
  ∀ s : State, s.unheld →
    let on (t : Ty) (d : VReg) (sel : VSel) (rnd : Option RMode) (i : Instr) (f : RMode → Nat → Nat → Nat × Num.Flags) : Prop :=
      let m := rnd.getD s.rmode
      let y (i : Nat) := f m (laneRand s t sel m i) i
      let fl := laneFlags s t sel fun i => (y i).2
      (enabledException s fl = none → exec i s = .next (((s.addFlags fl).setSrg
        (gens m s.srg (((List.range t.count).filter (s.vsel t sel)).length))).wv d (laneVec s t sel d fun i => (y i).1)).goesOn) ∧
      s.raises fl i
    (∀ x : VArS, x.ty.isFloat = true →
      let f := Num.fmtOf x.ty
      let a (i : Nat) := fval x.ty (s.rv x.a) i
      let b (i : Nat) := fval x.ty (s.rv x.b) i
      on x.ty x.d x.sel x.rnd (.vadd x) (fun m u i => Num.fadd f m u (a i) (b i)) ∧
      on x.ty x.d x.sel x.rnd (.vsub x) (fun m u i => Num.fadd f m u (a i) (b i).negate) ∧
      on x.ty x.d x.sel x.rnd (.vmul x) (fun m u i => Num.fmul f m u (a i) (b i))) ∧
    (∀ x : VFmaA, on x.ty x.d x.sel x.rnd (.vfma x) fun m u i =>
      Num.ffma (Num.fmtOf x.ty) m u x.ns (fval x.ty (s.rv x.a) i) (fval x.ty (s.rv x.b) i) (fval x.ty (s.rv x.c) i)) ∧
    (∀ x : VBinR, on x.ty x.d x.sel x.rnd (.vdiv x) fun m u i =>
      Num.fdiv (Num.fmtOf x.ty) m u (fval x.ty (s.rv x.a) i) (fval x.ty (s.rv x.b) i)) ∧
    (∀ x : VUnR,
      let f := Num.fmtOf x.ty
      let a (i : Nat) := fval x.ty (s.rv x.a) i
      on x.ty x.d x.sel x.rnd (.vsqrt x) (fun m u i => Num.fsqrt f m u (a i)) ∧
      on x.ty x.d x.sel x.rnd (.vrcp x) (fun m u i => Num.fdiv f m u (.fin false 1 0) (a i)) ∧
      on x.ty x.d x.sel x.rnd (.vrsqrt x) (fun m u i => Num.frsqrt f m u (a i)) ∧
      on x.ty x.d x.sel x.rnd (.vexp2 x) (fun m u i => Num.fexp2 f m u (a i))) ∧
    (∀ x : VBin, x.ty.isFloat = true →
      let pick (mx : Bool) (i : Nat) := Num.fminmax mx (Num.fmtOf x.ty) (elem (s.rv x.a) i x.ty.width) (elem (s.rv x.b) i x.ty.width)
      let fl (mx : Bool) := laneFlags s x.ty x.sel fun i => (pick mx i).2
      let done (mx : Bool) := s.flagged (fl mx) fun u => u.wv x.d (laneVec s x.ty x.sel x.d fun i => (pick mx i).1)
      (enabledException s (fl false) = none → exec (.vmin x) s = .next (done false)) ∧
      (enabledException s (fl true) = none → exec (.vmax x) s = .next (done true)) ∧
      s.raises (fl false) (.vmin x) ∧ s.raises (fl true) (.vmax x))

/-- VCMP writes the selected bits of a mask register, or raises an enabled exception (R35); VSEL chooses by the mask; VEXT and VINS move
one element, and do nothing to an index past the last; VCOMPRESS packs the selected elements; the mask forms combine and count mask
registers (R126 to R128). -/
def Sys2Proof.Statements.VectorCompareAndMaskForms : Prop :=
  ∀ s : State, s.unheld →
    (∀ x : VCmpA,
      let one (i : Nat) : Bool × Num.Flags :=
        if x.ty.isFloat then Num.fcmp x.cond (fval x.ty (s.rv x.a) i) (fval x.ty (s.rv x.b) i)
        else (Num.icmp x.cond (ival x.ty (s.rv x.a) i) (ival x.ty (s.rv x.b) i), 0)
      let fl := laneFlags s x.ty x.sel fun i => (one i).2
      (enabledException s fl = none → exec (.vcmp x) s = .next (s.flagged fl fun u => u.wm x.d
        (maskResult x.ty.count (s.vsel x.ty x.sel) (zeroing x.sel) s.me.m[x.d] fun i => (one i).1))) ∧
      s.raises fl (.vcmp x)) ∧
    (∀ x : VBin, exec (.vsel x) s = .next (s.wv x.d (ofElems x.ty.width ((List.range x.ty.count).map fun i =>
      if laneSel (BitVec.allOnes 64) x.sel.lane (fun l => s.rm l.mask) i then
        (if (s.rm x.sel.mkr).getLsbD i then elem (s.rv x.a) i x.ty.width else elem (s.rv x.b) i x.ty.width)
      else if zeroing x.sel then 0 else elem (s.rv x.d) i x.ty.width))).goesOn) ∧
    (∀ x : VExtI, exec (.vext x) s = .next (s.wg x.d (extElem s x.ty x.a x.mkr x.lane x.idx.val)).goesOn) ∧
    (∀ x : VExtR, exec (.vextReg x) s = .next (s.wg x.d (extElem s x.ty x.a x.mkr x.lane (s.rg x.b).toNat)).goesOn) ∧
    (∀ x : VInsI, exec (.vins x) s = .next (s.wv x.d (ofElems x.ty.width ((List.range x.ty.count).map fun j =>
      if j = x.idx.val ∧ s.sel x.ty x.mkr x.lane j = true then (s.rg x.a).toNat % 2 ^ x.ty.width else elem (s.rv x.d) j x.ty.width))).goesOn) ∧
    (∀ x : VInsR, (s.rg x.b).toNat < x.ty.count →
      exec (.vinsReg x) s = .next (s.wv x.d (ofElems x.ty.width ((List.range x.ty.count).map fun j =>
        if j = (s.rg x.b).toNat ∧ s.sel x.ty x.mkr x.lane j = true then (s.rg x.a).toNat % 2 ^ x.ty.width
        else elem (s.rv x.d) j x.ty.width))).goesOn) ∧
    (∀ x : VInsR, x.ty.count ≤ (s.rg x.b).toNat → exec (.vinsReg x) s = .next s.goesOn) ∧
    (∀ x : VCompA, exec (.vcompress x) s = .next (s.wv x.d (ofElems x.ty.width
      (((List.range x.ty.count).filter fun i => s.sel x.ty x.mkr x.lane i).map fun i => elem (s.rv x.a) i x.ty.width))).goesOn) ∧
    (∀ x : MBin,
      exec (.mand x) s = .next (s.wm x.d (s.rm x.a &&& s.rm x.b)).goesOn ∧
      exec (.mor x) s = .next (s.wm x.d (s.rm x.a ||| s.rm x.b)).goesOn ∧
      exec (.mxor x) s = .next (s.wm x.d (s.rm x.a ^^^ s.rm x.b)).goesOn) ∧
    (∀ x : MUn, exec (.mnot x) s = .next (s.wm x.d (~~~s.rm x.a)).goesOn) ∧
    (∀ x : MPopA, exec (.mpopc x) s = .next (s.wg x.d (BitVec.ofNat 64 (Num.popc 64 (s.rm x.a).toNat))).goesOn)

/-- A mask register written by VCMP or VBSKIP: bit i is the comparison at a selected element, zero or the old bit at another, and zero
beyond the last element (R126). -/
def Sys2Proof.Statements.MaskResultBits : Prop :=
  ∀ (n : Nat) (sel bit : Nat → Bool) (zero : Bool) (old : Word) (i : Nat), n ≤ 64 → i < 64 →
    (maskResult n sel zero old bit).getLsbD i =
      (decide (i < n) && (if sel i then bit i else !zero && old.getLsbD i))

/-- VCMP, VSEL, element moves, VCOMPRESS and the mask register forms. -/
def Obligations.VectorCompareAndMaskForms : Prop :=
  Statements.VectorCompareAndMaskForms ∧ Statements.MaskResultBits

/-- VCVT: the destination elements its part covers take the converted source elements, the others of the register are kept; each selected
one takes a generator step where the pair of types rounds. An exception both raised and enabled sets the sticky bits and writes
nothing else (R35, R129).
Model choices: log entry 105. -/
def Sys2Proof.Statements.ConversionCompletes : Prop :=
  ∀ (x : VCvtA) (s : State), s.unheld →
    ((x.dt = .q4 ∨ x.st = .q4) → (s.rg x.b).extractLsb' 8 56 = 0) →
    let sb := (s.rg x.b).extractLsb' 0 8
    let r := cvtRange x.dt x.st x.part.val
    let m := x.rnd.getD s.rmode
    let inside (i : Nat) : Bool := decide (r.1 ≤ i) && decide (i < r.1 + r.2.1)
    let on (i : Nat) : Bool := inside i && s.vsel x.dt x.sel i
    let k (i : Nat) : Nat := ((List.range i).filter on).length
    let g (i : Nat) : BitVec 32 := if cvtRounds x.dt x.st then gens m s.srg (k i) else s.srg
    let u (i : Nat) : Nat := if cvtRounds x.dt x.st then (Num.draw m (g i)).2 else 0
    let y (i : Nat) := convert x.dt x.st x.sat sb m (u i) (elem (s.rv x.a) (r.2.2 + i - r.1) x.st.width)
    let fl : Num.Flags := ((List.range x.dt.count).filter on).foldl (fun a i => a ||| (y i).2) 0
    (enabledException s fl = none →
      exec (.vcvt x) s = .next (((s.addFlags fl).setSrg (g x.dt.count)).wv x.d (ofElems x.dt.width ((List.range x.dt.count).map fun i =>
        if on i then (y i).1 else if inside i then (if zeroing x.sel then 0 else elem (s.rv x.d) i x.dt.width)
        else elem (s.rv x.d) i x.dt.width))).goesOn) ∧
    s.raises fl (.vcvt x)

/-- VCVTO writes its codes and appends its outliers, each with its f32 form and its element's number, to the ring, whose count it raises;
outliers that do not fit the ring raise its trap with their number, and change nothing; an exception both raised and enabled sets the
sticky bits and writes nothing else (R35, R94, R95, R130).
Model choices: log entries 3, 33, 105. -/
def Sys2Proof.Statements.OutlierConversion : Prop :=
  ∀ (x : VCvtoA) (s : State), s.unheld →
    let sb := (s.rg x.b).extractLsb' 0 8
    let ring := s.rg (x.n + 1)
    let cap := (ring.extractLsb' 48 16).toNat
    let head := (ring.extractLsb' 32 16).toNat
    let cnt := (ring.extractLsb' 16 16).toNat
    let r := cvtRange x.dt x.st x.part.val
    let m := x.rnd.getD s.rmode
    let todo := (List.range r.2.1).filterMap fun j => if s.vsel x.dt x.sel (r.1 + j) then some (r.1 + j, j) else none
    let o := outLanes (fun u i => convertOut x.dt x.st sb m u (elem (s.rv x.a) i x.st.width)) m todo s.srg
    let outs := o.1.filter fun q => q.2.2.2.2
    let k := outs.length
    let fl := o.1.foldl (fun f q => f ||| q.2.2.2.1) (0 : Num.Flags)
    let at' (j : Nat) : Word := s.rg x.n + BitVec.ofNat 64 (8 * ((head + cnt + j) % cap))
    let as := (List.range k).map at'
    let w := s.walkedTo 8 as
    (s.rg x.b).extractLsb' 8 24 = 0 → (x.dt = .q4 ∨ sb.extractLsb' 6 2 = 0) → ring.extractLsb' 0 16 = 0 → head < cap ∨ cap = 0 →
      (cap < cnt + k → exec (.vcvto x) s = .next (s.traps 0x50 7 (BitVec.ofNat 64 k))) ∧
      (∀ ys, cnt + k ≤ cap → s.walkable 8 as →
        checkElems (fun a => (w.check w.ctx .store false 8 a a 8).bind fun y => noFormat a y 1) none
          ((List.range k).map fun j => (j, at' j)) = .ok ys →
        (∀ sub, enabledException s fl = some sub → exec (.vcvto x) s = .next ((w.addFlags fl).traps 0x50 sub 0)) ∧
        (enabledException s fl = none →
        let puts : List Put := (outs.zip ys).map fun (q, _, y) =>
          ⟨y, layBytes y.keys (widenF32 x.st (elem (s.rv x.a) q.2.1 x.st.width) * 2 ^ 32
            + (((s.rg x.b).extractLsb' 32 32).toNat + q.2.1) % 2 ^ 32), 0⟩
        w.storable {} false puts →
        let u := w.putAll (w.syncOf {} false) .fabric puts
        let v := if puts.isEmpty then u else u.sided
        exec (.vcvto x) s = .next (State.wg (((v.addFlags (fl ||| Num.flagIf (0 < k) Num.ola)).setSrg o.2).wv x.d
          (ofElems x.dt.width ((List.range x.dt.count).map fun i =>
            match o.1.find? fun q => q.1 = i with
            | some q => q.2.2.1
            | none => if r.1 ≤ i ∧ i < r.1 + r.2.1 then (if zeroing x.sel then 0 else elem (s.rv x.d) i x.dt.width)
              else elem (s.rv x.d) i x.dt.width))) (x.n + 1)
          (BitVec.ofNat 64 (cap * 2 ^ 48 + head * 2 ^ 32 + (cnt + k) * 2 ^ 16))).goesOn))

/-- VCVT converts its part; VCVTO appends its outliers to their ring. -/
def Obligations.Conversions : Prop :=
  Statements.ConversionCompletes ∧ Statements.OutlierConversion

/-- VDOT4, VREDSUM, VREDMIN, VREDMAX, VTOPK, VBSKIP and VPRUNE48 complete with the results of R131 to R135; an exception both raised and
enabled sets the sticky bits and writes nothing else (R35). That a float VREDSUM takes a generator step at each addition of its tree
is the model's choice (log entry 25). -/
def Obligations.ReductionAndRankingForms : Prop :=
  ∀ s : State, s.unheld →
    (∀ x : VDotA, x.ty.isInt = true →
      let dt : Ty := if x.ty.isI then .i32 else .z32
      let e (j : Nat) : Int := ival dt (s.rv x.c) j + (List.range 4).foldl (fun t i =>
        t + ival x.ty (s.rv x.a) (4 * j + i) * ival x.ty (s.rv x.b) (4 * j + i)) 0
      exec (.vdot4 x) s = .next ((s.addFlags (laneFlags s dt x.sel fun j => (intLane dt false (e j)).2)).wv x.d
        (laneVec s dt x.sel x.d fun j => (intLane dt false (e j)).1)).goesOn) ∧
    (∀ x : VRedSA, x.ty.isInt = true →
      exec (.vredsum x) s = .next (s.intDone x.ty false x.d
        (((List.range x.ty.count).filter fun i => s.sel x.ty x.mkr x.lane i).foldl (fun t i => t + ival x.ty (s.rv x.a) i) 0))) ∧
    (∀ x : VRedSA, x.ty.isFloat = true →
      let f := Num.fmtOf x.ty
      let m := x.rnd.getD s.rmode
      let r := Num.treeReduce (fun ((g, fl) : BitVec 32 × Num.Flags) a b =>
        let q := Num.draw m g
        let y := Num.fadd f m q.2 (Num.decode f a) (Num.decode f b)
        ((q.1, fl ||| y.2), y.1)) (levels x.ty) (s.srg, 0) (activeLanes s x.ty x.a x.mkr x.lane)
      (enabledException s r.1.2 = none →
        exec (.vredsum x) s = .next (((s.addFlags r.1.2).setSrg r.1.1).wg x.d (BitVec.ofNat 64 (r.2.getD 0))).goesOn) ∧
      s.raises r.1.2 (.vredsum x)) ∧
    (∀ x : VRedMA, x.ty.isInt = true →
      let es := ((List.range x.ty.count).filter fun i => s.sel x.ty x.mkr x.lane i).map fun i => ival x.ty (s.rv x.a) i
      exec (.vredmin x) s = .next (s.wg x.d (BitVec.ofInt 64 (es.foldl min (intHi x.ty)))).goesOn ∧
      exec (.vredmax x) s = .next (s.wg x.d (BitVec.ofInt 64 (es.foldl max (intLo x.ty)))).goesOn) ∧
    (∀ x : VRedMA, x.ty.isFloat = true →
      let es := ((List.range x.ty.count).filter fun i => s.sel x.ty x.mkr x.lane i).map fun i => elem (s.rv x.a) i x.ty.width
      let sig := Num.flagIf (es.any fun e => (Num.decode (Num.fmtOf x.ty) e).isSig) Num.nv
      let tree (mx : Bool) := Num.treeReduce (fun (fl : Num.Flags) a b =>
        (fl ||| (Num.fminmax mx (Num.fmtOf x.ty) a b).2, (Num.fminmax mx (Num.fmtOf x.ty) a b).1)) (levels x.ty) 0
        (activeLanes s x.ty x.a x.mkr x.lane)
      let red (mx : Bool) : Num.Flags × Option Nat := ((tree mx).1 ||| sig, (tree mx).2)
      (enabledException s (red false).1 = none → exec (.vredmin x) s = .next (s.flagged (red false).1 fun u =>
        u.wg x.d (BitVec.ofNat 64 ((red false).2.getD (Num.infOf (Num.fmtOf x.ty) false))))) ∧
      (enabledException s (red true).1 = none → exec (.vredmax x) s = .next (s.flagged (red true).1 fun u =>
        u.wg x.d (BitVec.ofNat 64 ((red true).2.getD (Num.infOf (Num.fmtOf x.ty) true))))) ∧
      s.raises (red false).1 (.vredmin x) ∧ s.raises (red true).1 (.vredmax x)) ∧
    (∀ x : VDotA, x.ty.isInt = false →
      let m := x.rnd.getD s.rmode
      let y (j : Nat) : Nat × Num.Flags :=
        let ps := ((List.range 4).map (4 * j + ·)).map fun i => Num.mulVal (fval x.ty (s.rv x.a) i) (fval x.ty (s.rv x.b) i)
        Num.sumVals .f32 m (laneRand s .f32 x.sel m j) (ps.any (·.2)) (ps.map (·.1) ++ [fval .f32 (s.rv x.c) j])
      (enabledException s (laneFlags s .f32 x.sel fun j => (y j).2) = none →
        exec (.vdot4 x) s = .next (s.flagged (laneFlags s .f32 x.sel fun j => (y j).2) fun u =>
          (u.setSrg (gens m s.srg (((List.range 16).filter (s.vsel .f32 x.sel)).length))).wv x.d
            (laneVec s .f32 x.sel x.d fun j => (y j).1))) ∧
      s.raises (laneFlags s .f32 x.sel fun j => (y j).2) (.vdot4 x)) ∧
    (∀ x : VTopA,
      let w := x.ty.width
      let lanes := (List.range x.ty.count).filter fun i => s.sel x.ty x.mkr x.lane i
      let ranked := (rankLanes (fun p q : Nat × Nat => ranksAbove x.ty p.2 q.2)
        (lanes.map fun i => (i, elem (s.rv x.a) i w))).take (x.k1.val + 1)
      let fl := Num.flagIf (x.ty.isFloat && lanes.any fun i => (fval x.ty (s.rv x.a) i).isSig) Num.nv
      (enabledException s fl = none → exec (.vtopk x) s = .next (s.flagged fl fun u =>
        (u.wv x.d (ofElems w (ranked.map (·.2)))).wv x.x
          (ofElems w (ranked.map (·.1) ++ List.replicate (x.ty.count - ranked.length) (2 ^ w - 1))))) ∧
      s.raises fl (.vtopk x)) ∧
    (∀ x : VBskA,
      let mg := f32Of (s.rg x.c)
      let lanes := (List.range x.ty.count).filter (s.vsel x.ty x.sel)
      let at' (i : Nat) := skipBit (fval x.ty (s.rv x.a) i) (fval x.ty (s.rv x.b) i) mg
      let fl := Num.flagIf (lanes.any fun i => (at' i).2 || (fval x.ty (s.rv x.a) i).isSig || (fval x.ty (s.rv x.b) i).isSig
        || mg.isSig) Num.nv
      (enabledException s fl = none → exec (.vbskip x) s = .next (s.flagged fl fun u =>
        (u.wm x.d (maskResult x.ty.count (s.vsel x.ty x.sel) (zeroing x.sel) s.me.m[x.d] fun i => (at' i).1)).wp x.p
          (!lanes.isEmpty && lanes.all fun i => (at' i).1))) ∧
      s.raises fl (.vbskip x)) ∧
    (∀ x : VPruneA,
      let w := x.ty.width
      let sel (i : Nat) : Bool := s.sel x.ty x.mkr x.lane i
      let groups := (List.range (x.ty.count / 8)).map fun g =>
        pruneGroup x.ty ((List.range 8).map fun k => (k, sel (8 * g + k), elem (s.rv x.a) (8 * g + k) w))
      exec (.vprune48 x) s = .next ((s.wv x.d (ofElems w ((groups.zip (List.range groups.length)).flatMap fun (ks, g) =>
        ks.map fun k => if sel (8 * g + k) then elem (s.rv x.a) (8 * g + k) w else 0))).wv x.m (ofElems 16 (groups.map fun ks =>
          ks.getD 0 0 + 8 * ks.getD 1 0 + 64 * ks.getD 2 0 + 512 * ks.getD 3 0))).goesOn)

/-- A recordable form while the strand records takes effect as pass 0, with no renaming, and is appended to the record with its guard and
the g registers it read; where it traps it is not appended. An MMA is appended once its gang has formed. A vector or loom form that is
not recordable raises treadle, subcode 2, and is not executed (R138, R139). -/
def Sys2Proof.Statements.RecordingForms : Prop :=
  ∀ s : State, s.me.tr.st = .recording → s.me.sys = false → s.me.wt = false →
    (∀ i gs, recordsAtOnce i = some gs →
      let alone := runRecorded 0 0 0 0 i (s.withTr { s.me.tr with st := .idle })
      (∀ u, alone = .ok u → exec i s = .next (u.withTr (s.recorded i gs)).goesOn) ∧
      (∀ u t, alone = .trap u t → exec i s = .next ((u.withTr s.me.tr).takeTrap t 0))) ∧
    (s.me.stage = .gangFormed →
      (∀ x, exec (.mma x) s = .next (s.withTr (s.recorded (.mma x) (mmaReads (asSparse x)))).goesOn) ∧
      (∀ x, exec (.mmaS x) s = .next (s.withTr (s.recorded (.mmaS x) (mmaReads x))).goesOn)) ∧
    (∀ i, notRecorded i = true → exec i s = .next (s.traps 0x48 2 0))

/-- TRREC starts a record of N entries, TRRUN starts the passes of a complete one, TRSTOP ends recording or passes with the number done,
waiting for the end of a pass that runs, and TRSTAT reads the state. That TRREC and TRSTOP keep K and DONE, and that TRSTOP waits for
the pass in progress although R143 says it never waits, are the model's choices (log entry 46), as is that TRREC, TRSTOP and TRSTAT
are taken while a record is being made (log entry 45); TRRUN without a record, or of more than 65,535 passes, and TRREC or TRRUN on
suspended passes raise treadle (R137, R139, R142, R143). -/
def Sys2Proof.Statements.TreadleForms : Prop :=
  ∀ (s : State),
    let tr := s.me.tr
    (tr.st = .running →
      (∀ d, (tr.between = true → exec (.trstop d) s = .next (State.goesOn (State.wg { s with me := { s.me with tr :=
          { Treadle.idle with k := tr.k, done := tr.done } } } d (BitVec.ofNat 64 tr.done)))) ∧
        (tr.between = false →
          exec (.trstop d) s = .next (State.waits { s with me := { s.me with tr := { tr with stop := true } } } .treadle))) ∧
      (∀ x, exec (.trrec x) s = .next (s.waits .treadle)) ∧ (∀ a, exec (.trrun a) s = .next (s.waits .treadle))) ∧
    (∀ d, exec (.trstat d) s = .next (s.wg d (BitVec.ofNat 64 (tr.k * 2 ^ 48 + tr.done * 2 ^ 32 + tr.st.code * 2 ^ 21
      + tr.entries.length * 2 ^ 6 + (if tr.st = .idle then 0 else tr.n)))).goesOn) ∧
    (tr.st ≠ .running →
    (∀ x : TrrecA, tr.st ≠ .suspended → exec (.trrec x) s = .next (State.goesOn { s with me := { s.me with tr :=
      { Treadle.idle with
        st := .recording, n := x.n1.val + 1, sv := x.sv.val, sa := x.sa.val, ads := x.ads, k := tr.k, done := tr.done } } })) ∧
    (∀ a, tr.st = .ready → (s.rg a).toNat ≤ 65535 → exec (.trrun a) s = .next (State.goesOn { s with me := { s.me with tr :=
      { tr with
        st := if (s.rg a).toNat = 0 then .ready else .running, k := (s.rg a).toNat, done := 0, pass := 1, ix := 0,
        stage := .none, p := s.me.p, rmode := s.me.rmode, sys := s.me.sys } } })) ∧
    (∀ a, (tr.st = .idle ∨ tr.st = .recording → exec (.trrun a) s = .next (s.traps 0x48 3 0)) ∧
      (tr.st = .ready → 65535 < (s.rg a).toNat → exec (.trrun a) s = .next (s.traps 0x48 4 0)) ∧
      (tr.st = .suspended → exec (.trrun a) s = .next (s.traps 0x48 1 0))) ∧
    (∀ x : TrrecA, tr.st = .suspended → exec (.trrec x) s = .next (s.traps 0x48 1 0)) ∧
    (∀ d, exec (.trstop d) s = .next (State.goesOn (State.wg { s with me := { s.me with tr :=
      { Treadle.idle with k := tr.k, done := tr.done } } } d
        (BitVec.ofNat 64 (if tr.st = .suspended then tr.pass - 1 else 0))))))

/-- Recording, running, stopping and reading the treadle. -/
def Obligations.TreadleForms : Prop :=
  Statements.RecordingForms ∧ Statements.TreadleForms

/-- MZERO, MLD, MST, MSCALE, MWAIT, MMOVV, MMOVA and MSTAT on a tile the strand owns, with no operation of its own under way on it: MZERO
clears it, MLD and MST move its 1024 bytes, MMOVV and MMOVA one row, MSCALE its scales, and MSTAT counts. MST to a format page encodes
its pieces in ascending order, in the strand's mode and with its generator, merges their flags, and stores nothing if one of them is
an enabled exception. A tile not owned raises loom operand, subcode 1, an address that is no multiple of 1024 misaligned (R28, R91,
R151, R164 to R166).
Model choices: log entries 3, 103. -/
def Sys2Proof.Statements.AccumulatorForms : Prop :=
  ∀ (s : State), s.unheld → s.me.loomErr = none →
    let quiet (a : AReg) : Prop := s.ownsTile a = true ∧
      ∀ o ∈ (s.coreRec s.core).loomq, ¬(o.strand = s.cur ∧ o.gen = s.me.gen ∧ o.acc = a.val)
    (∀ a, quiet a → exec (.mzero a) s = .next (s.writeTile a 0).goesOn ∧ exec (.mwaitTile a) s = .next s.goesOn) ∧
    (∀ (x : MldA) ys, quiet x.acc → s.walkable 1024 [s.rg x.a + sx x.imm] →
      let w := s.walkedTo 1024 [s.rg x.a + sx x.imm]
      let keys := ys.flatMap fun p => p.2.readKeys ++ p.2.reads.flatMap fun r => keysFrom r 8
      tilePieces w .load (s.rg x.a + sx x.imm) (fun _ y => .ok y) = .ok ys →
      w.ownPosted keys = false → w.brokenLocal keys = false → (w.serve ys).2.2.2 = none →
      let r := w.serve ys
      exec (.mld x) s = .next ((r.1.noteTags {} r.2.2.1).writeTile x.acc (BitVec.ofNat 8192 (packElems 512
        ((List.range 16).map fun i => ((r.2.1.find? fun g => g.1 = i).map (·.2)).getD 0)))).goesOn) ∧
    (∀ (x : MldA) i y ys, quiet x.acc → s.walkable 1024 [s.rg x.a + sx x.imm] →
      let a := s.rg x.a + sx x.imm
      let w := s.walkedTo 1024 [a]
      tilePieces w .store a (fun b y => vstShape w a true a b y) = .ok ((i, y) :: ys) → y.fmt = none →
      let puts : List Put := ((i, y) :: ys).map fun (i, y) =>
        ⟨y, layBytes y.keys ((s.readTile x.acc).extractLsb' (512 * i) 512).toNat, i⟩
      w.storable {} false puts →
        exec (.mst x) s = .next ((w.putAll (w.syncOf {} false) .fabric puts).sided).goesOn) ∧
    (∀ (x : MldA) i y f ys, quiet x.acc → s.walkable 1024 [s.rg x.a + sx x.imm] →
      let a := s.rg x.a + sx x.imm
      let w := s.walkedTo 1024 [a]
      let vals (i : Nat) : List Nat := (List.range 32).map fun j => ((s.readTile x.acc).extractLsb' (512 * i + 16 * j) 16).toNat
      tilePieces w .store a (fun b y => vstShape w a true a b y) = .ok ((i, y) :: ys) → y.fmt = some f →
      let code (c : List Put × BitVec 32 × Num.Flags) (p : Nat × Site) : List Put × BitVec 32 × Num.Flags :=
        match p.2.fmt with
        | some (g, frame, off) =>
          let b := encodeBlocks (w.setSrg c.2.1) g frame off (vals p.1)
          (c.1 ++ [⟨p.2, b.1, p.1⟩], b.2.1, c.2.2 ||| b.2.2)
        | none => c
      let e := ((i, y) :: ys).foldl code ([], w.srg, 0)
      (enabledException w e.2.2 = none → w.storable {} false e.1 →
        let u := w.putAll (w.syncOf {} false) .fabric e.1
        exec (.mst x) s = .next ((((if e.1.isEmpty then u else u.sided).addFlags e.2.2).setSrg e.2.1)).goesOn) ∧
      (∀ sub, enabledException w e.2.2 = some sub → exec (.mst x) s = .next ((w.addFlags e.2.2).traps 0x50 sub 0))) ∧
    (∀ (x : MldA) (t : Trap), quiet x.acc → s.walkable 1024 [s.rg x.a + sx x.imm] →
      let a := s.rg x.a + sx x.imm
      let w := s.walkedTo 1024 [a]
      (tilePieces w .load a (fun _ y => .ok y) = .error t → exec (.mld x) s = .next (w.takeTrap t 0)) ∧
      (tilePieces w .store a (fun b y => vstShape w a true a b y) = .error t → exec (.mst x) s = .next (w.takeTrap t 0)) ∧
      (a.toNat % 1024 ≠ 0 → tilePieces w .load a (fun _ y => .ok y) = .error ⟨0x13, 0, a, none, 0⟩ ∧
        tilePieces w .store a (fun b y => vstShape w a true a b y) = .error ⟨0x13, 0, a, none, 0⟩)) ∧
    (∀ v, exec (.mscaleA0 v) s = .next (State.goesOn
        { s with me := { s.me with sclA := s.me.sclA.extractLsb' 512 512 ++ s.rv v } }) ∧
      exec (.mscaleA1 v) s = .next (State.goesOn { s with me := { s.me with sclA := s.rv v ++ s.me.sclA.extractLsb' 0 512 } }) ∧
      exec (.mscaleB v) s = .next (State.goesOn { s with me := { s.me with sclB := s.rv v } })) ∧
    (s.loomBusy = false → exec .mwait s = .next s.goesOn) ∧
    (∀ x : MmvV, quiet x.acc →
      exec (.mmovv x) s = .next (s.wv x.d ((s.readTile x.acc).extractLsb' (512 * x.i.val) 512)).goesOn) ∧
    (∀ x : MmvA, quiet x.acc →
      exec (.mmova x) s = .next (s.writeTile x.acc (tileOfWords ((tileWords (s.readTile x.acc)).take (16 * x.i.val)
        ++ elems 32 (s.rv x.a) ++ (tileWords (s.readTile x.acc)).drop (16 * x.i.val + 16)))).goesOn) ∧
    (∀ d, exec (.mstat d) s = .next (s.wg d (BitVec.ofNat 64
      (((s.coreRec s.core).loomq.filter fun o => o.strand == s.cur && o.gen == s.me.gen).length
        + (s.coreRec s.core).loomq.length * 2 ^ 4 + (s.tileRec (tileOf s.core)).claims.length * 2 ^ 8))).goesOn) ∧
    (∀ a, s.ownsTile a = false → exec (.mzero a) s = .next (s.traps 0x40 1 0) ∧ exec (.mwaitTile a) s = .next (s.traps 0x40 1 0))

/-- MMA and MMA.S of a gang of one core with no cause among its operands start their operation: its operands are read as it starts, its
scratchpad spans are claimed and it is queued. In a wider gang a member waits until the others have arrived, and a member whose gang
is complete but whose descriptors differ takes gang mismatch, subcode 1, as every other member does (R145, R154, R155, R160).
Model choices: log entry 48. -/
def Sys2Proof.Statements.GangFormsIssue : Prop :=
  ∀ (s : State), s.unheld → s.me.loomErr = none → s.me.live = true → s.holds s.core s.me.wid = true →
    let req (sparse : Bool) (x : MmaSA) : GangReq :=
      { strand := s.cur, pass := false, sparse := sparse, ty := x.ty, gw := x.gw.val, kq := x.kq.val, asp := x.asp, bsp := x.bsp,
        acc := x.acc.val, a := x.a.val, b := x.b.val, m := x.m.val, ga := if x.asp then s.rg x.a else 0,
        gb := if x.bsp then s.rg x.b else 0, da := s.rg x.adr, db := s.rg x.bdr }
    let started (r : GangReq) : State := s.startGang s.cur r [r]
    let waiting (r : GangReq) : State :=
      State.waits { s with gangs := s.gangs ++ [r], me := { s.me with stage := .gangOut } } .gang
    let all : List ((Bool × MmaSA) × Instr) → Prop := fun is => ∀ p ∈ is,
      let r := req p.1.1 p.1.2
      (s.gangs = [] → p.1.2.gw.val = 0 → s.memberFault r true = none →
        s.gangReady (s.gangClaims s.fresh.1 r [r]) r [r] = true → exec p.2 s = .next (started r).goesOn) ∧
      (s.gangs = [] → p.1.2.gw.val = 0 → ∀ t, s.memberFault r true = some t → exec p.2 s = .next (s.takeTrap t 0)) ∧
      (s.gangs = [] → 1 ≤ p.1.2.gw.val →
        (∀ c ∈ r.cores, s.holds c s.me.wid = true ∧ (s.strand (strandAt c (slotOf s.cur))).live = true ∧
          (s.strand (strandAt c (slotOf s.cur))).wid = s.me.wid) → exec p.2 s = .next (waiting r)) ∧
      (let w : State := { s with gangs := s.gangs ++ [r], me := { s.me with stage := .gangOut } }
       let ks := r.cores.map fun c => strandAt c (slotOf s.cur)
       let rs := ks.filterMap fun m => w.gangs.find? fun q => q.strand == m && (m == s.cur || decide (1 < q.cores.length))
       (∀ q ∈ s.gangs, q.strand ≠ s.cur) → s.cur ∈ ks → 1 ≤ p.1.2.gw.val → rs.length = ks.length → (∃ q ∈ rs, q.descr ≠ r.descr) →
        (∀ c ∈ r.cores, s.holds c s.me.wid = true ∧ (w.strand (strandAt c (slotOf s.cur))).live = true ∧
          (w.strand (strandAt c (slotOf s.cur))).wid = s.me.wid) →
        exec p.2 s = .next (State.takeTrap (rs.foldl (fun u q => u.endGang q (gangTrap 1)) w) ⟨0x42, 1, 0, none, 0⟩ 0))
    ∀ (x : MmaA) (y : MmaSA), all [((false, asSparse x), .mma x), ((true, y), .mmaS y)]

/-- The accumulator forms, and MMA and MMA.S with their gangs. -/
def Obligations.LoomForms : Prop :=
  Statements.AccumulatorForms ∧ Statements.GangFormsIssue

/-- SAVECTX.SIZE, SAVECTX.DRAIN, SAVECTX and SAVECTX.SWAP of another weave of the partition, and LOADCTX of its area: the save writes the
area and frees what the weave held, and the restore puts it back; where the positions are not free LOADCTX gives 0, and where a word
of the area is past correction it raises uncorrectable data error, whose %tval is the model's choice (log entry 115; R368 to R371,
R397).
Model choices: log entries 77, 78, 79, 108, 115. -/
def Obligations.ContextForms : Prop :=
  ∀ (s : State), s.me.sys = true → ∀ (x : DAB),
    (∀ w, s.saveTarget (s.rg x.a) = some w →
      let len := s.saveLength w.wid (s.strandsOf w.wid).length
      exec (.savectxSize x) s = .next (s.wg x.d (BitVec.ofNat 64 len)).goesOn ∧
      (s.areaOk s.me.part (s.rg x.b).toNat len = true → s.inWindow (s.rg x.b).toNat len = true → w.wid ≠ s.me.wid →
        (s.setWeave { w with stopping := true }).saveReady { w with stopping := true } none = true →
        let u (swap : Bool) : State := ((s.setWeave { w with stopping := true }).performSave { w with stopping := true }
          (s.rg x.b).toNat swap).wg x.d (BitVec.ofNat 64 len)
        exec (.savectx x) s = .next (u false).goesOn ∧
        (s.asleep w = true → exec (.savectxSwap x) s = .next (u true).goesOn)) ∧
      (s.areaOk s.me.part (s.rg x.b).toNat len = true → s.inWindow (s.rg x.b).toNat len = true → s.asleep w = false → s.me.waiting ≠ some .save →
        exec (.savectxSwap x) s = .next (s.wg x.d 0).goesOn)) ∧
    (s.saveTarget (s.rg x.a) = none → s.me.tr.st ≠ .running →
      exec (.savectx x) s = .next (s.takeTrap (rights 36 (s.rg x.a)) 0) ∧
      exec (.savectxSize x) s = .next (s.takeTrap (rights 36 (s.rg x.a)) 0)) ∧
    (s.rg x.a = 0 → s.rg x.b = 0 → exec (.savectxDrain x) s = .next ((s.modPart s.me.part fun p => { p with
      draining := p.draining.or (some (s.cycle ((s.partDies s.me.part).headD 0))) }).wg x.d (BitVec.ofNat 64 (s.resident s.me.part).length)).goesOn) ∧
    (let found := s.saves.find? fun v => v.addr == (s.rg x.b).toNat
     let len := (found.map (·.len)).getD 32
     let r := (s.meetRange (s.rg x.b).toNat len).foldRange (s.rg x.b).toNat len
     s.areaOk s.me.part (s.rg x.b).toNat len = true → s.inWindow (s.rg x.b).toNat len = true →
      (r.rangePoisoned (s.rg x.b).toNat len = false →
        (∀ sv w, found = some sv → s.weaveOf sv.wid = some w →
          (r.areaFree w sv = true → exec (.loadctx x) s = .next ((r.performLoad w sv).wg x.d (BitVec.ofNat 64 sv.wid)).goesOn) ∧
          (r.areaFree w sv = false → exec (.loadctx x) s = .next (r.wg x.d 0).goesOn)) ∧
        (found = none → exec (.loadctx x) s = .next (State.wg { r with freeCtr := r.freeCtr + 1 } x.d (Config.freeWord r.freeCtr)).goesOn)) ∧
      (r.rangePoisoned (s.rg x.b).toNat len = true → s.me.tr.st ≠ .running →
        exec (.loadctx x) s = .next (r.traps 0x60 0 (s.rg x.b)))) ∧
    (s.rg x.a ≠ 0 ∨ s.rg x.b ≠ 0 → s.me.tr.st ≠ .running →
      exec (.savectxDrain x) s = .next s.illegal) ∧
    (let len := ((s.saves.find? fun v => v.addr == (s.rg x.b).toNat).map (·.len)).getD 32
     s.me.tr.st ≠ .running →
      (s.areaOk s.me.part (s.rg x.b).toNat len = false → exec (.loadctx x) s = .next (s.takeTrap (rights 37 (s.rg x.b)) 0)) ∧
      (s.areaOk s.me.part (s.rg x.b).toNat len = true → s.inWindow (s.rg x.b).toNat len = false →
        exec (.loadctx x) s = .next (s.takeTrap (rights 17 (s.rg x.b)) 0)))

/-- QUAR and QUAR.CLR set and clear a core's quarantine, the one logging and the other zeroing the core; REMAP puts the spare core in a
core's place, or, where its test fails, which the spec leaves open, logs that and raises access rights; REMAP.STAT names the column
remapped; the ELOGRD forms read, drop and clear the log and the counters (R402 to R407).
Model choices: log entries 81, 82, 83. -/
def Sys2Proof.Statements.RepairForms : Prop :=
  ∀ (s : State), s.me.sys = true →
    let sound (a : Word) (whole : Bool) : Prop := a.extractLsb' 32 32 = 0 ∧ (whole = true → a.extractLsb' 0 8 = 0) ∧
      posPkg a = ownPkg s ∧ s.dieIn s.me.part (posDie a) = true ∧ posCol a ≤ 159
    (∀ (x : DA), sound (s.rg x.a) true →
      let c := posCore (s.rg x.a)
      let healthy := (s.coreRec c).quar = false
      let none' := s.modCore c fun y => { y with quar := true }
      (healthy → s.quiescent c = true → exec (.quar x) s =
        .next ((none'.logRec (dieOf c) 4 0x00 0xFF 0 0 (s.posOf c 0)).wg x.d 1).goesOn) ∧
      (healthy → exec (.quarClr x) s = .next (s.wg x.d 0).goesOn) ∧
      (¬healthy → exec (.quar x) s = .next (s.wg x.d 0).goesOn ∧
        exec (.quarClr x) s = .next (((s.zeroCore c).modCore c fun y => { y with quar := false }).wg x.d 1).goesOn) ∧
      ((∀ d ∈ rowCores c, s.quiescent d = true) → s.remapOf c = 0 → (∀ d ∈ rowCores c, d ≠ c → (s.coreRec d).quar = false) →
        s.me.tr.st ≠ .running →
        let u : State := { s with freeCtr := s.freeCtr + 1 }
        exec (.remap x) s = .next (if Config.freeBit s.freeCtr then
            (u.logRec (dieOf c) 9 0x00 0xFF 0 0 (s.posOf c 0)).takeTrap (rights 42 (s.rg x.a)) 0
          else (State.wg ((u.modDie (dieOf c) fun y => { y with remaps := Tab.set y.remaps (rowOf c) (colOf c + 1) }).modCore
            c fun y => { y with quar := false }) x.d 1).goesOn))) ∧
    (∀ (x : DA), sound (s.rg x.a) false →
      let c := posCore (s.rg x.a)
      let n := ((s.rg x.a).extractLsb' 0 8).toNat
      exec (.remapStat x) s = .next (s.wg x.d (if s.remapOf c = 0 then 0 else BitVec.ofNat 64 (2 ^ 63 + (s.remapOf c - 1)))).goesOn ∧
      (∀ w, counterOf n = some w →
        exec (.elogrdCnt x) s = .next (s.wg x.d (BitVec.ofNat 64 (s.counter c n w))).goesOn ∧
        exec (.elogrdZc x.a) s = .next (s.zeroCounter c n w).goesOn)) ∧
    (∀ (x : ElogA), (s.rg x.a).extractLsb' 2 62 = 0 → s.dieIn s.me.part ((s.rg x.a).extractLsb' 0 2).toNat = true →
      let d := ((s.rg x.a).extractLsb' 0 2).toNat
      (∀ r rs, (s.dieRec d).log = r :: rs →
        exec (.elogrd x) s = .next (s.wv x.v (ofElems 64 ([r.w0, r.w1, r.w2, r.w3].map BitVec.toNat))).goesOn) ∧
      ((s.dieRec d).log = [] → exec (.elogrd x) s = .next (s.wv x.v (ofElems 64 [])).goesOn) ∧
      exec (.elogrdPop x.a) s = .next (s.modDie d fun y => { y with log := y.log.drop 1 }).goesOn)

/-- PWRSET sets an island's operating point and gives it, PWRSET.RD reads it beside the measured power, which is free, and HOSTSIG writes
an event to the host's ring, giving whether it was written (R24, R413, R414, R418).
Model choices: log entries 87, 104. -/
def Sys2Proof.Statements.PowerAndHostForms : Prop :=
  ∀ (s : State), s.me.sys = true →
    (∀ (x : DAB) d, (s.rg x.b).toNat ≤ 5 → islandDie (s.rg x.a).toNat = some d → s.dieIn s.me.part d = true →
      s.pointRefused (s.rg x.a).toNat (s.rg x.b).toNat = false →
      exec (.pwrset x) s = .next ((s.setPoint (s.rg x.a).toNat (s.rg x.b).toNat).wg x.d
        (BitVec.ofNat 64 (s.point (s.rg x.a).toNat))).goesOn) ∧
    (∀ (x : DAB), s.rg x.b = 5 → 36 ≤ (s.rg x.a).toNat → (s.rg x.a).toNat ≤ 39 → s.host.split = 0 →
      exec (.pwrset x) s = .next ((s.setPoint (s.rg x.a).toNat 5).wg x.d (BitVec.ofNat 64 (s.point (s.rg x.a).toNat))).goesOn) ∧
    (∀ (x : DA) d, islandDie (s.rg x.a).toNat = some d → s.dieIn s.me.part d = true →
      exec (.pwrsetRd x) s = .next (State.wg { s with freeCtr := s.freeCtr + 1 } x.d
        (BitVec.ofNat 64 ((Config.freeWord s.freeCtr).toNat % 2 ^ 32 * 2 ^ 8 + s.point (s.rg x.a).toNat))).goesOn) ∧
    (∀ (x : HostsigA), s.drained →
      let r := s.markIssue.hostEvent 1 s.me.part (dieOf s.core) x.code.toNat (s.rg x.a)
      exec (.hostsig x) s = .next (r.1.wg x.d (if r.2 then 1 else 0)).goesOn)

/-- QUAR, REMAP, ELOGRD, PWRSET and HOSTSIG. -/
def Obligations.RepairAndPowerForms : Prop :=
  Statements.RepairForms ∧ Statements.PowerAndHostForms

/-- Every system form raises privilege in user mode, at its own address, and does nothing else (R42, R120). -/
def Obligations.PrivilegedFormsTrap : Prop :=
  ∀ (s : State), s.me.sys = false → s.me.tr.st ≠ .running →
    ∀ (a : GReg) (x : DA) (y : DAB) (z : AB) (t : DABC) (e : ElogA) (h : HostsigA),
      ∀ i ∈ [Instr.segrep z, .segrepDel z, .tlbinv z, .tlbinvAs a, .tlbinvAll, .tlbinvOut t, .tlbsync, .savectx y, .savectxSwap y,
          .savectxDrain y, .savectxSize y, .loadctx y, .quar x, .quarClr x, .remap x, .remapStat x, .elogrd e, .elogrdPop a,
          .elogrdCnt x, .elogrdZc a, .pwrset y, .pwrsetRd x, .hostsig h],
        exec i s = .next (s.traps 0x05 0 0)

/-- Steps of homes and networks for plain accesses: a load, a posted write or an atomic is performed at its home and its reply or
acknowledgement sets out, a write's with the last of its elements; a reply, an acknowledgement, a wake, a sleep's end and a line's
refetch reach the strand or core that waits (R47, R112, R178, R182 to R184, R190, R193, R202).
Model choices: log entries 1, 44. -/
def Sys2Proof.Statements.HomeStepsComplete : Prop :=
  ∀ (s : State) (n : Nat),
    (∀ r parts, s.net.reqs[n]? = some r → r.kind = .load parts → r.tagged = none →
      s.brokenLocal (parts.flatMap fun p => p.2.readKeys) = false → (∀ p ∈ parts, ∀ k ∈ p.2.readKeys, s.deadKey k = false) →
      let u := (s.takeReq n).serveOf r.strand parts
      exec (.homeAccess n) s = .next (u.1.modNet fun m => { m with
        replies := m.replies ++ [⟨r.id, r.strand, r.gen, u.2.1, 0, u.2.2.1, u.2.2.2⟩] })) ∧
    (∀ r bs y, s.net.reqs[n]? = some r → r.kind = .store bs y → bs ≠ [] → s.brokenLocal (bs.map (·.1)) = false →
      (∀ b ∈ bs, s.claimed b.1 = false ∧ s.deadKey b.1 = false) →
      let u := ((s.takeReq n).meetUpsetsAs (s.seqWid r.core r.seq) (s.posOf (coreOf r.strand) (slotOf r.strand)) (bs.map (·.1))).perform bs y
      exec (.homeAccess n) s = .next (if u.morePieces r then u else u.ackReq r)) ∧
    (∀ r op ty y b c sync, s.net.reqs[n]? = some r → r.kind = .atom op ty y b c sync → s.brokenLocal y.keys = false →
      (∀ k ∈ y.keys, s.claimed k = false ∧ s.deadKey k = false) →
      let u := (s.takeReq n).doAtomOf r.strand op ty y b c sync
      exec (.atomicAtHome n) s = .next (u.1.modNet fun m => { m with
        replies := m.replies ++ [⟨r.id, r.strand, r.gen, [(0, u.2.1)], u.2.2.1, u.2.2.2.1, u.2.2.2.2.map fun t => (0, t)⟩] })) ∧
    (∀ r st, s.net.replies[n]? = some r → (s.strand r.strand).live = true → (s.strand r.strand).gen = r.gen →
      stageReply (s.strand r.strand).stage r = some st → exec (.loadReply n) s =
        .next ((s.modNet fun m => { m with replies := m.replies.eraseIdx n }).modStrand r.strand fun x => { x with stage := st })) ∧
    (∀ a, s.net.acks[n]? = some a → exec (.postedWriteAck n) s =
      .next (((s.modNet fun m => { m with acks := m.acks.eraseIdx n }).modCore a.core fun x =>
        { x with posted := x.posted.filter fun p => p.seq != a.seq }).lingerDone a.core)) ∧
    (∀ w, s.net.wakes[n]? = some w → (s.strand w.strand).live = true → (s.strand w.strand).gen = w.gen →
      (s.strand w.strand).stage = .wakeSent → exec (.waitaWake n) s =
        .next ((s.modNet fun m => { m with wakes := m.wakes.eraseIdx n }).modStrand w.strand fun x =>
          { x with stage := .woken w.val w.tags w.bad })) ∧
    (∀ k t, (s.strand k).stage = .sleeping t → t ≤ s.now (coreOf k) → exec (.sleepExpiry k) s =
      .next (s.modStrand k fun x => { x with stage := .sleepOver })) ∧
    (∀ t b u l, s.me.refetch = some (t, b) → s.refetchLine t = (u, .ok l) → targetMiss t (!b) l = none →
      exec (.lineRefetch s.cur) s = .next (State.keepLine { u with me := { u.me with refetch := none } } (lineBase t).toNat l))

/-- A tagged load's reply lands in its entry, which takes the value, or its fault, and is stamped; a reply whose entry is gone is counted.
The fault of a tagged load's check lands the same way. Entries stamped in one cycle bear one stamp, and an entry stamped in a later
cycle a greater one (R208, R211, R218, R222). -/
def Sys2Proof.Statements.TaggedRepliesLand : Prop :=
  ∀ (s : State) (n : Nat),
    (∀ r, s.net.tagReplies[n]? = some r → s.landHeld r.ref = false → r.tags = [] → exec (.taggedLoadReply n) s =
      .next ((s.modNet fun m => { m with tagReplies := m.tagReplies.eraseIdx n }).land r.ref (BitVec.ofNat 64 r.val) r.fault)) ∧
    (∀ r, s.net.tagReplies[n]? = some r → s.landHeld r.ref = true → exec (.taggedLoadReply n) s = .next s) ∧
    (∀ c t, s.net.checks[n]? = some c → c.fault = some t → s.landHeld c.ref.back = false → (s.entryFor c.ref.back).isSome = true → exec (.taggedLoadFault n) s =
      .next ((s.modNet fun m => { m with checks := m.checks.eraseIdx n }).land c.ref.back 0 (some t))) ∧
    (∀ r v f, s.entryFor r = none → s.land r v f = s.countCore (coreOf r.strand) 0x01) ∧
    (∀ r v e, s.entryFor r = some e → s.land r v none = s.modStrand r.strand fun x =>
      x.stampEntry (s.dieRec (dieOf (coreOf r.strand))).cyc { e with st := .landed, val := v }) ∧
    (∀ r v e t, s.entryFor r = some e → s.land r v (some t) = s.modStrand r.strand fun x =>
      x.stampEntry (s.dieRec (dieOf (coreOf r.strand))).cyc { e with st := .faulted, fault := some t }) ∧
    (∀ (x : Strand) now e, x.stampCyc ≠ some now →
      x.stampEntry now e = { x.setEntry { e with stamp := x.nextStamp } with nextStamp := x.nextStamp + 1, stampCyc := some now } ∧
      ∀ e', (x.stampEntry now e).stampEntry now e' = (x.stampEntry now e).setEntry { e' with stamp := x.nextStamp })

/-- A contribution is added at its home and every core it stands for is acknowledged: a float to a reduction window exactly, any other as
an atomic without a reply. Two contributions to one word of a reduction window merge into one that stands for both, integers by their
operation and floats by their exact sums, and the unit that merged them sends on a packet it has held for 64 cycles (R98, R196 to
R199). The release that a merged contribution leaves at its word, the newest of those it stands for, is the model's choice (log entry
41). -/
def Sys2Proof.Statements.ReductionSteps : Prop :=
  ∀ (s : State) (n m : Nat),
    (∀ p, s.net.reds[n]? = some p → s.brokenLocal p.keys = false → (∀ k ∈ p.keys, s.claimed k = false ∧ s.deadKey k = false) →
      let u := s.modNet fun m => { m with reds := m.reds.eraseIdx n }
      ((p.rwin && p.op == .add && Ty.isFlt p.ty) = false → exec (.redAtHome n) s =
        .next (p.srcs.foldl (fun s q => s.ack ⟨q.1, q.2⟩) (u.redWord (u.redSource p) p.op p.ty p.keys p.val p.sync.getLast?))) ∧
      (p.rwin = true → p.op = .add → Ty.isFlt p.ty = true → exec (.redAtHome n) s =
        .next (p.srcs.foldl (fun s q => s.ack ⟨q.1, q.2⟩) (u.redExact p)))) ∧
    (∀ (old : ExactAcc) p stored, ExactAcc.add (some old) p.ty stored p =
      ⟨p.ty, old.sum + p.sum, old.pinf || p.pinf, old.ninf || p.ninf, old.nan || p.nan, old.allNegZero && p.allNegZero⟩) ∧
    (∀ a : ExactAcc, a.nan = false → a.pinf = false → a.ninf = false → a.value =
      (Num.roundTo (if a.ty = .bf16 then .bf16 else .f32) .nearestEven 0
        ⟨if a.sum = 0 then a.allNegZero else decide (a.sum < 0), a.sum.natAbs, -149, false⟩).1) ∧
    (∀ p q, s.net.reds[n]? = some p → s.net.reds[m]? = some q → n ≠ m → p.rwin = true → q.rwin = true → p.keys = q.keys →
      p.op = q.op → p.ty = q.ty →
      let now := s.cycle (keyDie (p.keys.headD 0))
      p.open now = true → q.open now = true →
      exec (.redMerge n m) s = .next (s.modNet fun x => { x with reds := (x.reds.set n { p with
        val := if Ty.isFlt p.ty then 0 else BitVec.ofNat 64 (redNew p.op p.ty (patTy p.ty p.val) q.val), sum := p.sum + q.sum, pinf := p.pinf || q.pinf,
        ninf := p.ninf || q.ninf, nan := p.nan || q.nan, allNegZero := p.allNegZero && q.allNegZero, srcs := p.srcs ++ q.srcs,
        sync := p.sync ++ q.sync, held := some (holdSince p.held q.held now) }).eraseIdx m })) ∧
    (∀ p t, s.net.reds[n]? = some p → p.held = some t → t + 64 ≤ s.cycle (keyDie (p.keys.headD 0)) → exec (.redHoldExpiry n) s =
      .next (s.modNet fun x => { x with reds := x.reds.set n { p with held := none } }))

/-- Steps of homes and replies: accesses, atomics, waits, tagged loads and reductions. -/
def Obligations.HomeSteps : Prop :=
  Statements.HomeStepsComplete ∧ Statements.TaggedRepliesLand ∧ Statements.ReductionSteps

/-- A walk that ends in a resident leaf serves every walk for its page and is cached in the micro-TLB, the tile's TLB and the block's walk
cache; one that fails leaves its fault to the access; an invalidation removes what it names from its target (R375, R382, R383, R390,
R391). That every completed walk fills all three caches, and that a full one drops its oldest entry, are the model's choices (log
entries 93 and 131). -/
def Sys2Proof.Statements.WalkAndInvalidateSteps : Prop :=
  ∀ (s : State) (n : Nat),
    (∀ w l, s.net.walks[n]? = some w → w.failed = false → s.walkRuns w = true → s.upsets = [] → s.exact = [] → s.walkWith (blockOf w.core) w = .ok l →
      pteST l.pte = 0 →
      let e : TlbEntry := ⟨w.part, w.root, l.base, l.size, l.pte⟩
      let ts := s.tablesRead w l
      exec (.pageWalkComplete n) s = .next (State.resumeChecks
        ((((s.modNet fun m => { m with
            walks := m.walks.filter fun v => !w.inPage l v.tile v.part v.root v.va.toNat }).modCore w.core fun x =>
          { x with mtlb := lastOf 32 (x.mtlb ++ [e]) }).modTile w.tile fun x => { x with tlb := lastOf 1024 (x.tlb ++ [e]) }).modBlock
          (blockOf w.core) fun x => { x with
            walkc := lastOf 512 ((x.walkc.filter fun y => !ts.any fun t => t.pa == y.pa && t.root == y.root) ++ ts) }) w (some l))) ∧
    (∀ w e, s.net.walks[n]? = some w → w.failed = false → s.walkRuns w = true → s.upsets = [] → s.exact = [] →
      s.walkWith (blockOf w.core) w = .error e → exec (.pageWalkComplete n) s = .next ((s.failWalk n w).resumeChecks w none)) ∧
    (∀ v, s.net.invals[n]? = some v →
      let u := s.modNet fun m => { m with invals := m.invals.eraseIdx n }
      exec (.tlbInvalidateApply n) s = .next (match v.target with
        | .core c => u.modCore c fun x => { x with mtlb := x.mtlb.filter fun e => !v.hitsLeaf e }
        | .tile t => u.modTile t fun x => { x with tlb := x.tlb.filter fun e => !v.hitsLeaf e }
        | .block b => u.modBlock b fun x => { x with walkc := x.walkc.filter fun e => !v.hitsTable e }))

/-- A page-in ends with its page in the frame, the entries that still read as before made resident, its completion word 1 and its waiters
woken; a copy to flash ends with the frame's bytes in the flash page and 1 for the strand that waits (R381, R384, R387, R393).
Model choices: log entries 91, 132. -/
def Sys2Proof.Statements.PageMoveSteps : Prop :=
  ∀ (s : State) (n : Nat),
    (∀ p, s.net.pageins[n]? = some p → s.upsets = [] → s.poison = [] →
      let src := flashKey (pteFrame p.pte % 2 ^ 32) 0
      let u := s.modNet fun m => { m with pageins := m.pageins.eraseIdx n }
      let v := p.group.foldl (fun s g =>
        let s := s.fold (keysFrom g 8)
        if s.word g = p.pte then s.performRmw (layBytes (keysFrom g 8) (pagedIn p.pte p.frame).toNat) none else s)
        (u.copyStorage src (p.frame * 8192) 8192)
      let w := v.perform (layBytes (keysFrom p.word 8) 1) (some ⟨.pageIn, .fabric⟩)
      exec (.pageInComplete n) s = .next (State.wakeWord { w with
        slots := (w.slots.filter fun (x : Nat × Nat × Nat) => !(x.1 == p.root && x.2.1 == p.slot)) ++ [(p.root, p.slot, w.order + 1)],
        order := w.order + 1 } p.word)) ∧
    (∀ id frame page k, s.net.flash[n]? = some (id, frame, page, k) → s.upsets = [] → s.poison = [] →
      (s.strand k).stage = .flashOut id →
      exec (.flashCopyComplete n) s = .next (((s.modNet fun m => { m with flash := m.flash.eraseIdx n }).copyStorage (frame * 8192)
        (flashKey page 0) 8192).modStrand k fun x => { x with stage := .flashDone 1 }))

/-- Walks, invalidations, page-ins and the copies to flash. -/
def Obligations.PagingSteps : Prop :=
  Statements.WalkAndInvalidateSteps ∧ Statements.PageMoveSteps

/-- A strand's oldest message enters the network once for each core it is addressed to; a message reaches the inbox of its core, in the
class of its handler; a codelet push enters its ring, and the copy engine performs the command at its queue's head and fills its slot,
under the release flag after its writes (R268, R270, R297, R313, R314, R316). Without that flag a free value says whether the writes
are seen before the fill or after it; those seen after it meet no error that has arisen since the command read their words: the
model's choices (log entry 133). That the ring's handle is not checked again is one too (log entry 137).
Model choices: log entry 102. -/
def Sys2Proof.Statements.QueueSteps : Prop :=
  ∀ (s : State) (n : Nat),
    (∀ k m r, (s.strand k).sendq = m :: r → exec (.sendQueueDrain k) s =
      .next ((s.modStrand k fun x => { x with sendq := r }).modNet fun y =>
        { y with msgs := y.msgs ++ m.cores.map fun c => { m with cores := [c] } })) ∧
    (∀ m c, s.net.msgs[n]? = some m → m.cores = [c] → (s.coreRec c).inbox.length < 24 → s.holds c m.wid = true →
      (s.coreRec c).linger = false → (entEn ((s.coreRec c).handler m.tag) && entAddr ((s.coreRec c).handler m.tag) == 0) = false →
      exec (.messageArrival n) s = .next (((s.modNet fun x => { x with msgs := x.msgs.eraseIdx n }).modCore c fun x =>
        { x with inbox := x.inbox ++ [⟨m, none, prioClass ((s.coreRec c).handler m.tag), none,
          prioClass ((s.coreRec c).handler m.tag)⟩] }).refresh c)) ∧
    (∀ p, s.net.pushes[n]? = some p → (s.coreRec p.core).ready.length < 256 → exec (.codeletPush n) s =
      .next ((s.modNet fun x => { x with pushes := x.pushes.eraseIdx n }).push p)) ∧
    (∀ c rest r, (s.tileRec n).copyq = c :: rest → c.late = none →
      s.ring c.wid (hDie c.ring * 160 + hBlk c.ring) (hIdx c.ring) = some r → c.reserved = false → (∀ t ∈ r.asks, t = n) →
      (r.wp - r.rp).toNat + r.res < r.size →
      let r' : Ring := { r with res := r.res + 1, asks := r.asks.filter (· != n) }
      let u := (s.setRing r').modTile n fun x => { x with copyq := { c with reserved := true } :: x.copyq.drop 1 }
      let d := copyDesc c.words
      let w := u.readCopy c
      u.copyAcquired c = true → u.copyHeld c = false →
      (d.rel = true → exec (.copyCommand n) s =
        .next (((w.2.2.copyWrite c (w.2.1.length + 1) (w.2.1.map (·.2))).fillRing r' w.1 (some ⟨.engine n, copyScope d⟩)).popCopy n)) ∧
      (d.rel = false →
        let v := w.2.2.draw
        exec (.copyCommand n) s = .next (if (Config.freeBit v.1 || w.2.1.isEmpty) = true then
            ((v.2.copyWrite c (w.2.1.length + 1) (w.2.1.map (·.2))).fillRing r' w.1 none).popCopy n
          else (v.2.fillRing r' w.1 none).modTile n fun x =>
            { x with copyq := { c with late := some (w.2.1.map (·.2)) } :: x.copyq.drop 1 }))) ∧
    (∀ c rest ws, (s.tileRec n).copyq = c :: rest → c.late = some ws →
      (∀ w ∈ ws, ∀ k ∈ w.1.writeKeys, s.claimed k = false) →
      let u := State.copyWrite { s with upsets := [] } c (ws.length + 1) ws
      exec (.copyCommand n) s = .next (State.popCopy { u with upsets := s.upsets } n))

/-- DISPATCH starts, in the lowest free slot, the task that comes first by class and age; a handler starts at its entry's address with the
message in its registers and its BUSY bit set, a codelet with its descriptor's inputs. A task that has waited 4,096 cycles is promoted
one class (R271, R301 to R303). That the slot is the lowest free one is the model's choice (log entry 57). -/
def Sys2Proof.Statements.DispatcherStarts : Prop :=
  ∀ (s : State) (c : CoreIx),
    (exec (.taskPromotion c) s = .next (s.modCore c fun x =>
      { x with inbox := x.inbox.map (·.promote (s.now c)), ready := x.ready.map (·.promote (s.now c)),
               arrivals := x.arrivals.map (·.promote (s.now c)) })) ∧
    (∀ cls since now, promoted cls since now =
      (cls - min cls ((now - since) / 4096), since + 4096 * min cls ((now - since) / 4096))) ∧
    (∀ k t, s.starts c = true → (s.promoteTasks c).nextTask c = some (k, t) →
      exec (.dispatch c) s = .next ((s.promoteTasks c).startTask c k t)) ∧
    (∀ k i m w, (s.coreRec c).inbox[i]? = some m → s.weaveOf m.msg.wid = some w → k < 8 →
      let e := (s.coreRec c).handler m.msg.tag
      let u := (s.modCore c fun y => { y with inbox := y.inbox.eraseIdx i,
                                              handlers := Tab.set y.handlers m.msg.tag.toNat (setBit e 61 true) }).refresh c
      s.startTask c k (.msg i) = u.startStrand (strandAt c k)
        { (((u.freshStrand (strandAt c k) w 1 (entAddr e)).withArgs m.msg.payload).writeG 7 m.msg.sender).writeG 8
            (BitVec.ofNat 64 (m.msg.tag.toNat + m.msg.payload.length * 2 ^ 8 + (if m.msg.reply.isSome then 2 ^ 16 else 0))) with
          owed := m.msg.reply, htag := some m.msg.tag }) ∧
    (∀ k i e w, (s.coreRec c).ready[i]? = some e → s.weaveOf e.wid = some w → k < 8 →
      let ks := keysFrom (localKey c e.off) 64
      s.brokenLocal ks = false → s.upsets = [] →
      let u := (State.refillRing (s.modCore c fun y => { y with ready := y.ready.eraseIdx i }) c).fold ks
      let w1 := u.word (localKey c (e.off + 8))
      descBad w1 = false →
      let args := (List.range (w1.extractLsb' 60 4).toNat).map fun j => u.word (localKey c (e.off + 8 * (2 + j)))
      s.startTask c k (.ring i) = ((u.startStrand (strandAt c k)
        { ((u.freshStrand (strandAt c k) w 3 ((w1.extractLsb' 0 56).setWidth 64)).withArgs args).writeG 8 (s.coreWindow c e.off) with
          desc := s.coreWindow c e.off }).coreIdle c))

/-- Messages, copies and pushes arrive, and the dispatcher starts tasks. -/
def Obligations.QueueAndDispatcherSteps : Prop :=
  Statements.QueueSteps ∧ Statements.DispatcherStarts

/-- The oldest loom operation of a core updates its tile, its flags merge into its strand, and with a gang's last update its claims end;
an int8 element adds its products modulo 2^32, a float element each group of four with one rounding, the specials first; a gang whose
members have all arrived forms. A running treadle's next entry takes effect in its pass, or not at all where its guard is not met: its
v registers, its accumulators and its address step with the pass (R97, R140, R154, R156, R157). That the guard is evaluated anew in
each pass is the model's reading (log entry 47), and that an operation completes in one step is its choice (log entry 103). -/
def Obligations.LoomAndTreadleSteps : Prop :=
  ∀ (s : State) (c : CoreIx) (k : StrandIx),
    (∀ o rest, (s.coreRec c).loomq = o :: rest → o.bad = none → (s.strand o.strand).live = true → (s.strand o.strand).gen = o.gen →
      let r := o.update (Tab.get 0 (s.coreRec c).acc o.tile)
      let u := (s.modCore c fun x => { x with loomq := rest, acc := Tab.set x.acc o.tile r.1 }).modStrand o.strand fun x =>
        { mergeFlags x r.2 with loomErr := x.loomErr }
      (∀ p, p < 8 → ∀ q ∈ (u.coreRec (loomCore c p)).loomq, q.id ≠ o.id) →
      exec (.loomOpComplete c) s = .next ([tileOf (loomCore c 0), tileOf (loomCore c 4)].foldl (fun s t =>
        s.modTile t fun u => { u with claims := u.claims.filter fun cl => cl.op != o.id }) u)) ∧
    (∀ o : LoomOp, ∀ t : Tile, o.ty = .i8 → o.present = [] → ∀ i, i < 16 → ∀ j, j < 16 →
      (o.update t).1.extractLsb' (32 * (16 * i + j)) 32 = BitVec.ofNat 32 (Num.wrap true 32
        (((o.a.getD i []).zip ((o.b.getD j []).zip (List.replicate o.k true))).foldl
          (fun x (a, b, _) => x + Num.readInt true 8 a.1 * Num.readInt true 8 b.1)
          (Num.readInt true 32 (t.extractLsb' (32 * (16 * i + j)) 32).toNat))).1) ∧
    (∀ r low rs, s.gangs.find? (fun r => r.strand = k) = some r → rs.head? = some low →
      rs.map (·.strand) = r.cores.map (fun c => strandAt c (slotOf k)) →
      (∀ c ∈ r.cores, s.holds c (s.strand k).wid = true ∧ (s.strand (strandAt c (slotOf k))).live = true ∧
        (s.strand (strandAt c (slotOf k))).wid = (s.strand k).wid) →
      (∀ x ∈ rs, s.gangs.find? (fun y => y.strand = x.strand) = some x ∧ 1 < x.cores.length ∧ x.descr = r.descr ∧
        s.memberFault x (x.strand == low.strand) = none) →
      s.gangReady (s.gangClaims s.fresh.1 low rs) low rs = true →
      exec (.gangForm k) s = .next (s.startGang k low rs)) ∧
    (∀ (o : LoomOp) (t : Tile), o.ty ≠ .i8 → o.present = [] → ∀ i, i < 16 → ∀ j, j < 16 →
      (o.update t).1.extractLsb' (32 * (16 * i + j)) 32 = BitVec.ofNat 32 (loomSum o.ty (o.k / 4)
        ((o.a.getD i []).zip ((o.b.getD j []).zip (List.replicate o.k true)))
        ((t.extractLsb' (32 * (16 * i + j)) 32).toNat, 0)).1) ∧
    (∀ ty m ps x f, loomSum ty 0 ps (x, f) = (x, f) ∧
      ((∀ p ∈ ps.take 4, p.2.2 = false) → loomSum ty (m + 1) ps (x, f) = loomSum ty m (ps.drop 4) (x, f)) ∧
      (ps ≠ [] → (∀ p ∈ ps.take 4, p.2.2 = true) → loomSum ty (m + 1) ps (x, f) =
        let g := loomGroup ((ps.take 4).map fun p => Num.mulVal (loomVal ty p.1) (loomVal ty p.2.1)) x
        loomSum ty m (ps.drop 4) (g.1, f ||| g.2))) ∧
    (∀ ps x, let vs := ps.map (·.1) ++ [Num.decode .f32 x]
      ((∃ v ∈ vs, v.isNan = true) → (loomGroup ps x).1 = Num.Fmt.nan .f32) ∧
      (.inf false ∈ vs → .inf true ∈ vs → (loomGroup ps x).1 = Num.Fmt.nan .f32) ∧
      ((∀ v ∈ vs, v.isNan = false ∧ v ≠ .inf true) → .inf false ∈ vs → loomGroup ps x = (Num.infOf .f32 false, 0)) ∧
      ((∀ v ∈ vs, v.isNan = false ∧ v ≠ .inf false) → .inf true ∈ vs → loomGroup ps x = (Num.infOf .f32 true, 0)) ∧
      ((∀ v ∈ vs, v.isNan = false ∧ v ≠ .inf false ∧ v ≠ .inf true) →
        loomGroup ps x = Num.roundTo .f32 .nearestEven 0 (Num.sumExact .nearestEven (Num.finTerms vs)))) ∧
    (∀ e, k = s.cur → s.me.live = true → s.me.tr.st = .running → (s.me.tr.stop = false ∨ s.me.tr.between = false) →
      s.me.tr.entries[s.me.tr.ix]? = some e → s.passHeld s.me = false → s.islandHeld s.core = false →
      let tr := s.me.tr
      let v := { s with me := s.me.passView e }
      (State.rp v e.guard.p = e.guard.neg → exec (.treadleEntryIssue k) s = .next { s with me := { s.me with tr := tr.advance } }) ∧
      (∀ u, State.rp v e.guard.p ≠ e.guard.neg → u.cur = s.cur →
        runRecorded (tr.pass * tr.sv) (tr.pass * tr.sa) (ownedTiles s.me s.slot) (BitVec.ofNat 64 tr.pass * sx tr.ads) e.instr v = .ok u →
        exec (.treadleEntryIssue k) s = .next { u with me := u.me.passBack s.me tr.advance })) ∧
    (∀ m na owned off u,
      let f := renV m
      let a := renA na owned
      (∀ r, (f r).val = (r.val + m) % 32) ∧ (∀ r, 0 < owned → owned ≤ 8 → (a r).val = (r.val + na) % owned) ∧
      (∀ x, runRecorded m na owned off (.vfma x) u = runVfma { x with d := f x.d, a := f x.a, b := f x.b, c := f x.c } u) ∧
      (∀ x, runRecorded m na owned off (.vand x) u = runVand { x with d := f x.d, a := f x.a, b := f x.b } u) ∧
      (∀ x, runRecorded m na owned off (.vcmp x) u = runVcmp { x with a := f x.a, b := f x.b } u) ∧
      (∀ x, runRecorded m na owned off (.vcvt x) u = runVcvt { x with d := f x.d, a := f x.a } u) ∧
      (∀ x, runRecorded m na owned off (.vtopk x) u = runVtopk { x with d := f x.d, x := f x.x, a := f x.a } u) ∧
      (∀ x, runRecorded m na owned off (.mand x) u = runMand x u) ∧
      (∀ x, runRecorded m na owned off (.mzero x) u = runMzero (a x) u) ∧
      (∀ x, runRecorded m na owned off (.mscaleB x) u = runMscaleB (f x) u) ∧
      (∀ x, runRecorded m na owned off (.mld x) u = mldForm u { x with acc := a x.acc } off) ∧
      (∀ x, runRecorded m na owned off (.mst x) u = mstForm u { x with acc := a x.acc } off) ∧
      (∀ x, runRecorded m na owned off (.mma x) u =
        mmaForm u true false (asSparse { x with acc := a x.acc, a := renF m x.asp x.a, b := renF m x.bsp x.b }) off)) ∧
    (∀ x : VBin, ∀ g : Guard, k = s.cur → s.me.live = true → s.me.tr.st = .running → s.me.tr.stop = false → s.me.tr.ix = 0 →
      s.me.tr.stage = .none → s.me.tr.sys = s.me.sys → s.me.tr.entries = [⟨.vand x, g, []⟩] → s.passHeld s.me = false →
      s.islandHeld s.core = false → s.me.tr.mayDraw = false → State.rp { s with me := s.me.passView ⟨.vand x, g, []⟩ } g.p ≠ g.neg →
      let f := renV (s.me.tr.pass * s.me.tr.sv)
      exec (.treadleEntryIssue k) s = .next
        { s with me := { (s.wv (f x.d) (laneVec s x.ty x.sel (f x.d) fun i =>
          elem (s.rv (f x.a)) i x.ty.width &&& elem (s.rv (f x.b)) i x.ty.width)).me with tr := s.me.tr.advance } })

/-- A shuttle enters the arrival queue of its core while that core pins its segment, or is seen to wait there; one that has waited 2,048
cycles is shed; the oldest shed one comes back; a core reports its queue every 32 cycles (R326, R329, R330, R398).
Model choices: log entries 61, 114. -/
def Sys2Proof.Statements.ShuttleSteps : Prop :=
  ∀ (s : State) (n : Nat),
    (∀ h, s.net.shuttles[n]? = some h →
      let x := s.coreRec h.core
      let out := s.modNet fun m => { m with shuttles := m.shuttles.eraseIdx n }
      (x.arrivals.length < 16 → x.shed = [] → s.pinsFor h.wid h.core = true → exec (.shuttleArrival n) s = .next (out.modCore h.core fun x =>
        { x with arrivals := x.arrivals ++ [{ h with since := some (s.now h.core), first := s.now h.core, cls := 1 }],
                 heatQmax := max x.heatQmax (x.arrivals.length + 1) })) ∧
      (16 ≤ x.arrivals.length ∨ s.pinsFor h.wid h.core = false → exec (.shuttleArrival n) s = .next (s.modNet fun m =>
        { m with shuttles := m.shuttles.set n { h with since := h.since.or (some (s.now h.core)) } })) ∧
      (∀ t, h.since = some t → t + 2048 ≤ s.now h.core → x.shed.length < 1024 → s.pinsFor h.wid h.core = true → exec (.shuttleShed n) s =
        .next ((out.writeShed (s.shedKey h.core h)).modCore h.core fun x =>
          { x with shed := x.shed ++ [h], heatShed := if x.heatShed < 65535 then x.heatShed + 1 else x.heatShed }))) ∧
    (∀ c h r, (s.coreRec c).shed = h :: r → (s.coreRec c).arrivals.length < 16 →
      let lo := s.shedKey c h
      let u := s.meetRangeAs h.wid (s.posOf c 0) lo 576
      let bad := if u.rangePoisoned lo 576 then some (u.keyLoc lo) else h.poison
      exec (.shedRefill c) s = .next (u.modCore c fun x =>
        { x with shed := r, heatQmax := max x.heatQmax (x.arrivals.length + 1),
                 arrivals := x.arrivals ++ [{ h with since := some (s.now c), first := s.now c, cls := 1, poison := bad }] })) ∧
    (∀ c, (s.coreRec c).report + 32 ≤ s.now c → exec (.occupancyReport c) s = .next (s.modCore c fun x =>
      { x with report := s.now c, reported := x.arrivals.length + x.shed.length }))

/-- Steps of streams: an item joins those held where its receive end is, or at its home; a credit lets the send end send one more item,
and a frame that waited in a port for it goes; the home performs a waiting move; a pointer that has forwarded every item below its cut
retires; an end whose holder is gone is orphaned (R341 to R344).
Model choices: log entry 65. -/
def Sys2Proof.Statements.StreamSteps : Prop :=
  ∀ (s : State) (n : Nat),
    (∀ k y, s.net.items[n]? = some k → s.stream k.wid k.blk k.str = some y →
      y.rcv.st ≠ .closed → y.rcv.st ≠ .orphaned → y.lost = false →
      let u := s.modNet fun x => { x with items := x.items.eraseIdx n }
      (∀ p q, k.dest = some p → y.rcv.place = some q → coreOf q = coreOf p → (s.coreRec (coreOf p)).quar = false →
        exec (.streamItemArrival n) s = .next (u.setStream { y with held := y.held ++ [k.item] })) ∧
      (k.dest = none → y.rcv.place = none →
        exec (.streamItemArrival n) s = .next (u.setStream { y with home := y.home ++ [k.item] }))) ∧
    (∀ w blk str y, s.net.credits[n]? = some (w, blk, str) → s.stream w blk str = some y → blk < 10000 → exec (.streamCreditArrival n) s =
      .next ((s.modNet fun x => { x with credits := x.credits.eraseIdx n }).setStream { y with out := y.out - 1 })) ∧
    (∀ w p str y, s.net.credits[n]? = some (w, portBlk p true, str) → s.stream w (portBlk p true) str = some y →
      exec (.streamCreditArrival n) s = .next (State.flushPair
        ((s.modNet fun x => { x with credits := x.credits.eraseIdx n }).setStream { y with out := y.out - 1 }) p str)) ∧
    (∀ y p, s.streams[n]? = some y → y.moveS = some p → y.moveR = none →
      let st : EState := if y.snd.st = .moving ∧ y.snd.away = false then .bound else y.snd.st
      exec (.streamMove n) s = .next (s.setStream { y with snd := { y.snd with st := st, place := some p }, moveS := none })) ∧
    (∀ y p, s.streams[n]? = some y → y.moveS = none → y.moveR = some p →
      (y.rcv.st = .moving → exec (.streamMove n) s = .next ((s.setStream y).placeRecv y p)) ∧
      (y.rcv.st ≠ .moving → exec (.streamMove n) s =
        .next (s.setStream { y with moveR := none, rcv := { y.rcv with place := some p } }))) ∧
    (∀ c p d l y, (s.coreRec c).fwd[n]? = some p → p.dest = some d → p.cut = some l → p.items = [] → s.ptrBusy c p l = false →
      let u := s.modCore c fun x => { x with fwd := x.fwd.eraseIdx n }
      s.stream p.wid p.blk p.str = some y → u.ptrCores y = [] → y.rcv.st = .moving → y.rcv.place.isSome = true → y.moveR = none →
      y.rcv.away = false → exec (.pointerRetire c n) s = .next (u.setStream { y with rcv := { y.rcv with st := .bound } })) ∧
    (∀ o y, s.net.orphans[n]? = some o → s.stream o.wid o.blk o.str = some y → o.pointer = false → o.recv = false →
      y.snd.st ≠ .closed → o.sub ≠ 3 →
      let y' := { y with snd := { y.snd with st := .orphaned, sub := o.sub, place := none, away := false }, 
                         fin := if y.lost || o.fin.isNone then none else o.fin, lost := y.lost || o.fin.isNone, moveS := none }
      exec (.streamOrphan n) s =
        .next (((s.modNet fun x => { x with orphans := x.orphans.eraseIdx n }).setStream y').freeStream y'))

/-- Shuttles arrive, shed and refill; stream items, credits, moves and orphans. -/
def Obligations.ShuttleAndStreamSteps : Prop :=
  Statements.ShuttleSteps ∧ Statements.StreamSteps

/-- A doorbell takes a queue's entries up to its tail; the oldest launch is placed where its shape and resources are free, or rejected
with its code; a weave that is over ends with its completion word; a partition that has drained long enough saves its lowest weave,
but not into host memory outside the window; a core in error and a failed link are contained and logged (R356 to R366, R398 to R401,
R411). The address of a lost core's record where no failing word is known, and the position of a link's, are the model's choices (log
entry 132), as is the fate of a drained weave whose area lies outside the window (log entry 115).
Model choices: log entries 74, 75, 77, 81, 115, 117. -/
def Sys2Proof.Statements.WeaveSteps : Prop :=
  ∀ (s : State),
    (∀ v : BitVec 6, v.toNat / 16 < s.nparts → (s.partRec (v.toNat / 16)).on = true →
      v.toNat % 16 < (s.partRec (v.toNat / 16)).nq →
      let part := v.toNat / 16
      let d := queueDesc (s.partRec part) (v.toNat % 16)
      let r := s.touchAs 0 (s.partPos part) (keysFrom d 32)
      r.deviceReads d 32 = true →
      let tail := (r.word (d + 24)).toNat % 2 ^ 32
      let u := r.modPart part fun p => { p with rung := Tab.set p.rung (v.toNat % 16) tail }
      exec (.dbq v) s = .next (u.takeEntries part (u.entriesLeft part))) ∧
    (∀ (w : Weave) choice vb, s.nextLaunch = some w →
      let x := s.launchCtx w.part w.root w.wid
      let r := s.touchExtras x (s.posOf x.core 0) w.words
      let e : Extras := r.readExtras x w.words
      let segs := (e.map.getD []).map fun (p : Word × Segment) => p.2
      let w1 := { w with ext := e.ext.getD [], heddle := segs }
      let v := r.touchImages w1 segs
      let bad := recShm w.words && v.imagesBad w1 segs
      (∀ c, v.launchCode w.part w.words e w.parent.isSome true bad = some c →
        exec (.launchPlacement choice vb) s = .next (v.rejectLaunch w c).takeQueues) ∧
      (v.launchCode w.part w.words e w.parent.isSome true bad = none →
        let cores := if recShm w.words then segs.flatMap Segment.replicas else choiceCores (shapeOf w.words).cpt choice
        let vb' := if recVault w.words = 0 then 0 else vb
        v.inTeam w.wid (ownPkg v) = true → recShm w.words = true ∨ v.choiceFits w.part (shapeOf w.words) choice = true →
        (recWord w.words 10 = 0 ∨ sameCores cores (v.retaining w.part (recWord w.words 10)) = true) →
        v.fits w.words cores vb' = true → exec (.launchPlacement choice vb) s =
          .next (v.placeWeave { w1 with placed := true, cores := cores, vb := vb' }).takeQueues)) ∧
    (∀ wid w, s.weaveOf wid = some w → s.weaveOver w = true →
      exec (.weaveEnd wid) s = .next (s.endWeave w (if w.exiting then 2 else 1) (if w.exiting then w.code else 0)).takeQueues) ∧
    (∀ part t w rest, (s.partRec part).draining = some t → s.resident part = w :: rest → (∀ y ∈ rest, w.wid < y.wid) →
      t + (s.partRec part).drain.toNat < s.cycle ((s.partDies part).headD 0) →
      let w1 := { w with stopping := true }
      let u := s.setWeave w1
      (u.saveReady w1 none = false → exec (.drainExpiry part) s = .next u) ∧
      (u.saveReady w1 none = true →
        let area := u.takeArea part (saveLen u w1)
        exec (.drainExpiry part) s = .next (if u.inWindow area.1 (saveLen u w1) then area.2.performSave w1 area.1 false else u))) ∧
    (∀ c a, a.toNat ∈ privateArrays → (s.coreRec c).quar = false → (s.coreRec c).wid = none → exec (.coreQuarantine c a) s =
      .next ((s.loseCore c).logRec (dieOf c) 3 a.toNat 0xFF (s.failedAt c a) 0 (s.posOf c 0))) ∧
    (∀ c a w, a.toNat ∈ privateArrays → (s.coreRec c).quar = false → (s.coreRec c).wid = some w → w ≠ 0 →
      let u := (s.loseCore c).logRec (dieOf c) 3 a.toNat 0xFF (s.failedAt c a) w (s.posOf c 0)
      let t : Trap := ⟨0x61, a, BitVec.ofNat 64 (s.partOfDie (dieOf c) * 2 ^ 32) + s.posOf c 0, none, 0⟩
      exec (.coreQuarantine c a) s = .next ((u.notified w c).foldl (fun (v : State) k =>
        v.modStrand k fun x => { x with pend := x.pend ++ [t] }) u)) ∧
    (∀ die b p, s.linkFailed die b p = false → worholtPort die b p = true → exec (.linkFail die b p) s =
      .next (State.logRec { s with failed := s.failed ++ [(die, b, p)] } die 5 0x0B 0xFF (BitVec.ofNat 64 (b * 256 + p)) 0
        (s.posOf (coreAt die 0 0) 0))) ∧
    (∀ die b p q, s.linkFailed die b p = false → worholtPort die b p = false → linkPeer die b p = some q →
      let u := (List.range 8).foldl (fun s _ => s.countBlock (die * 160 + b) 0x12) s
      let v := u.countBlock (die * 160 + b) 0x13
      exec (.linkFail die b p) s =
        .next (State.logRec { v with failed := v.failed ++ [(die, b, p)] } die 5 0x0B 0xFF (BitVec.ofNat 64 (b * 256 + p)) 0
          (v.posOf (blockCore (die * 160 + b)) 0)))

/-- Bring-up: reset, link training, the start of verification, an image verified or refused with its reason, and the firmware's end; a
stage is written with its event to the host (R415, R416).
Model choices: log entries 84, 85. -/
def Sys2Proof.Statements.BringUpSteps : Prop :=
  ∀ (s : State),
    (s.memoryOk = true → (s.cores.map (·.1)).Nodup → ∃ t, exec .deviceReset s = .next t ∧ t.host.stage = 0 ∧ t.host.trained = false ∧ t.weaves = [] ∧ t.parts = [] ∧
      t.me = Strand.empty ∧ t.strands = [] ∧ (∀ c, (t.coreRec c).wid = none ∧ (t.coreRec c).quar = (s.coreRec c).quar) ∧
      (∀ k, localOf k = none → vaultOf k = none → rdescByte k = false → t.mem.read k = s.mem.read k)) ∧
    (s.host.stage = 0 → exec .linkTrain s = .next (State.setStage { s with host := { s.host with trained := true } } 1)) ∧
    (s.host.stage = 1 ∨ 0x80 ≤ s.host.stage → exec .go s = .next (s.setStage 2)) ∧
    (s.host.stage = 2 → let a := s.host.fwb.toNat
      let n := s.host.fwl.toNat
      (a % 4096 ≠ 0 ∨ n < 17408 ∨ 2 ^ 24 < n → exec .imageVerify s = .next (s.setStage 0x81)) ∧
      (a % 4096 = 0 → 17408 ≤ n → n ≤ 2 ^ 24 → s.upsets = [] → s.exact = [] → s.rangePoisoned (hostBase + a) n = false →
        (∀ f, imageFault (s.hostBytes a n) = some f → exec .imageVerify s = .next (s.setStage f)) ∧
        (imageFault (s.hostBytes a n) = none → exec .imageVerify s =
          .next (State.setStage { s with host := { s.host with image := beNat (sha384 (s.hostBytes a n)) } } 3)))) ∧
    (s.host.stage = 3 → ∀ f : BringupFacts, f.peerClash = false → f.stackFails = false → exec (.bringupComplete f) s =
      .next (((List.range 4).foldl State.readRdesc (f.badCores.foldl State.failTest s)).setStage 4)) ∧
    (s.host.stage = 3 → ∀ f : BringupFacts,
      (f.peerClash = true → exec (.bringupComplete f) s = .next (s.setStage 0x87)) ∧
      (f.peerClash = false → f.stackFails = true → exec (.bringupComplete f) s = .next (s.setStage 0x88)))

/-- The host's page and the platform's own steps: a register write, the run doorbell that starts a partition from its control block,
unless bits 63:16 of its word 6 are nonzero, an attestation report, in a layout of the device's own, a lowered or tripped operating
point and its completion, and the Ethernet ports' frames, which stage 4 alone moves (R7, R357, R372, R410, R415, R417 to R419, R422 to
R424). A frame that finds no credit waits in its port or is dropped, as a free value has it; a slot outside the host window is neither
read nor written: the model's choices (log entry 115). So is it that a rejected control block starts nothing and tells no one (log
entry 116).
Model choices: log entries 68, 86, 87, 88, 89, 115, 116. -/
def Sys2Proof.Statements.PlatformSteps : Prop :=
  ∀ (s : State),
    (∀ v, s.host.trained = true → s.host.stage < 0x80 →
      exec (.hostRegisterWrite 2 v) s = .next { s with host := { s.host with fwb := v } } ∧
      exec (.hostRegisterWrite 18 v) s = .next { s with host := { s.host with evh := v.setWidth 32 } }) ∧
    (∀ w v, s.host.trained = false ∨ 0x80 ≤ s.host.stage → exec (.hostRegisterWrite w v) s = .next s) ∧
    (∀ p : BitVec 2, s.host.stage = 4 → p.toNat < s.nparts →
      let a := (Tab.get 0 s.host.pcb p.toNat).toNat
      let r := s.touchAs 0 (s.partPos p.toNat) (keysFrom a 56)
      r.deviceReads a 56 = true →
      let w (k : Nat) : Word := r.word (a + 8 * k)
      let u := r.modPart p.toNat fun x => { x with
        on := true, sysvec := w 0, drain := w 1, qtab := w 2 &&& ~~~15#64, nq := (w 2).toNat % 16 + 1, ctxr := w 3, ctxs := w 4,
        ovb := w 5, ovs := (w 6).toNat, draining := none }
      ((w 6).toNat < 2 ^ 16 → exec (.dbr p) s = .next ((u.partDies p.toNat).foldl State.readRdesc u)) ∧
      (2 ^ 16 ≤ (w 6).toNat → exec (.dbr p) s = .next r)) ∧
    (s.host.stage = 3 ∨ s.host.stage = 4 → s.upsets = [] → s.exact = [] → exec .att s = .next (State.setStage (s.perform
      ((keysFrom (hostBase + s.host.attb.toNat + 64) s.attReport.length).zip s.attReport) none) s.host.stage)) ∧
    (∀ i, i < 32 → 2 ≤ s.point i → exec (.powerThrottle i) s = .next ((s.setPoint i (s.point i - 1)).powerEvent i (s.point i - 1))) ∧
    (∀ d, d < 4 → exec (.thermalTrip d) s =
      .next (((List.range 8).foldl (fun s j => s.setPoint (8 * d + j) 1) s).powerEvent (8 * d) 1)) ∧
    (∀ i, exec (.pointChangeComplete i) s = .next { s with pointMoves := s.pointMoves.filter fun m => m.1 != i }) ∧
    (∀ p q f, s.host.stage = 4 → p < 6 → q < 16 → exec (.ethFrameReceive p q f false) s = .next (s.countEth p 4 1)) ∧
    (∀ p q f good, s.host.stage ≠ 4 → exec (.ethFrameReceive p q f good) s = .next s) ∧
    (∀ n, s.host.stage ≠ 4 → exec (.ethTransmit n) s = .next s) ∧
    (∀ p q f, s.host.stage = 4 → p < 6 → q < 16 → 64 ≤ f.length + 4 → f.length + 4 ≤ 9216 →
      let c := ((s.countEth p 1 1).countEth p 3 (f.length + 4)).flushPair p q
      (∀ y, c.framesIn.any (fun g => g.1 == p && g.2.1 == q) = false → c.stream 0 (portBlk p true) q = some y → c.pairOn p q = true →
        y.rcv.ended = false → y.out < 32 → y.poisoned = false →
        let a := c.ethArea p q + 16384 * (y.ns % 64)
        c.inWindow a f.length = true →
        let u := (c.meetUpsetsAt (dieOf (portCore p)) (keysFrom a f.length)).perform ((keysFrom a f.length).zip f) none
        exec (.ethFrameReceive p q f true) s = .next ((u.setStream { y with ns := y.ns + 1, out := y.out + 1 }).sendItems y y.toward
          [⟨y.ns, BitVec.ofNat 64 (f.length * 2 ^ 16 + y.ns % 64), false, portCore p⟩])) ∧
      (c.framesIn.any (fun g => g.1 == p && g.2.1 == q) = true ∨ c.pairTakes p q f.length = none →
        exec (.ethFrameReceive p q f true) s = .next (if Config.freeBit c.draw.1 then c.draw.2.countEth p 6 1
          else { c.draw.2 with framesIn := c.draw.2.framesIn ++ [(p, q, f)] }))) ∧
    (∀ p q, s.framesIn.any (fun g => g.1 == p && g.2.1 == q) = false → s.flushPair p q = s) ∧
    (∀ p q f r y, s.framesIn = (p, q, f) :: r → s.pairTakes p q f.length = some y →
      s.flushPair p q = State.flushFrames p q r (State.frameTo { s with framesIn := r } p q f y)) ∧
    (∀ p q f, s.host.stage = 4 → p < 6 → q < 16 → ¬(64 ≤ f.length + 4 ∧ f.length + 4 ≤ 9216) → exec (.ethFrameReceive p q f true) s =
      .next (((s.countEth p 1 1).countEth p 3 (f.length + 4)).countEth p 5 1)) ∧
    (∀ n y i, s.host.stage = 4 → s.stream 0 (portBlk (n / 16) false) (n % 16) = some y → y.held.find? (fun i => i.seq == y.nr) = some i →
      let u := (s.setStream { y with nr := y.nr + 1, held := y.held.filter fun j => j.seq != y.nr }).modNet fun m =>
        { m with credits := m.credits ++ [(y.wid, y.blk, y.str)] }
      let len := (i.val.extractLsb' 16 14).toNat
      let a := u.ethArea (n / 16) (n % 16) + 16384 * (64 + (i.val.extractLsb' 0 6).toNat)
      i.val &&& 0xFFFFFFFFC000FFC0 = 0 → 64 ≤ len + 4 → len + 4 ≤ 9216 →
        let f := u.frameAt (n / 16) a len
        (u.inWindow a len = true → exec (.ethTransmit n) s = .next
          ((State.countEth { f.2 with sent := f.2.sent ++ [(n / 16, f.1)] } (n / 16) 0 1).countEth (n / 16) 2 (len + 4))) ∧
        (u.inWindow a len = false → exec (.ethTransmit n) s = .next u))

/-- Weaves are placed and ended, the device comes up, and the platform acts. -/
def Obligations.WeaveAndPlatformSteps : Prop :=
  Statements.WeaveSteps ∧ Statements.BringUpSteps ∧ Statements.PlatformSteps

/-- Right after device reset no strand is live, every core is idle and healthy, every die's cycle counter and every telemetry counter is
zero, the host's page stands at its reset values in stage 0, and memory lists nothing (R23, R404, R410, R415).
Model choices: log entries 7, 8. -/
def Sys2Proof.Statements.ResetValues : Prop :=
  (∀ k, (State.reset.strand k).live = false) ∧
  (∀ c, (State.reset.coreRec c).wid = none ∧ (State.reset.coreRec c).quar = false ∧ (State.reset.coreRec c).cnt = []) ∧
  (∀ d, (State.reset.dieRec d).cyc = 0 ∧ (State.reset.dieRec d).cnt = [] ∧ (State.reset.dieRec d).log = []) ∧
  (∀ b, (State.reset.blockRec b).cnt = []) ∧
  State.reset.host.stage = 0 ∧ State.reset.host.trained = false ∧ State.reset.host.fwb = 0 ∧ State.reset.host.fwl = 0 ∧
  State.reset.host.split = 0 ∧ State.reset.host.evt = 0 ∧ State.reset.weaves = [] ∧ State.reset.mem = []

/-- A strand that takes a slot starts with every register it is not given at its reset value: g, v and m registers and predicates zero,
every queue register unbound, nothing landed, queued or recorded, %flags zero and the generator 1; the slot's system registers are as
they stood (R38 to R40, R115). That its entries' epochs are too, and that its generation follows the newest the slot has given, is the
model's choice (log entry 108). -/
def Sys2Proof.Statements.NewStrandState : Prop :=
  ∀ (s : State) (k : StrandIx) (w : Weave) (origin : Nat) (pc : Word),
    let x := s.freshStrand k w origin pc
    x.pc = pc ∧ x.g = Vector.replicate 64 0 ∧ x.v = Vector.replicate 32 0 ∧ x.p = 0 ∧ x.m = Vector.replicate 8 0 ∧
    x.q = Vector.replicate 8 .unbound ∧ x.sysg = (s.strand k).sysg ∧ x.epochs = (s.strand k).epochs ∧ x.lastGen = (s.strand k).lastGen + 1 ∧
    x.weave = weaveWord w origin x.lastGen ∧ x.ls = [] ∧ x.sendq = [] ∧ x.tr.entries = [] ∧ x.tr.st = .idle ∧
    x.flags = 0 ∧ x.rmode = 0x0000000100000000 ∧ x.lsctl = 0 ∧ x.tvec = recWord w.words 2 ∧ x.tpc = 0 ∧ x.tcause = 0 ∧ x.tval = 0 ∧
    x.ttag = 0 ∧ x.stpc = 0 ∧ x.stcause = 0 ∧ x.stval = 0 ∧ x.sttag = 0 ∧ x.trcnt = 0 ∧ x.entW = none ∧ x.entS = none

/-- What device reset leaves, and the state of a strand that takes a slot. -/
def Obligations.ResetAndNewStrands : Prop :=
  Statements.ResetValues ∧ Statements.NewStrandState

/-- The register files: g0 reads zero, p0 reads 1 and m0 reads all ones, and writes to them are discarded; every other register reads as
it was last written, and writing one leaves the others. In system mode g60 to g63 are the slot's own, and the strand's are kept (R25,
R115). -/
def Sys2Proof.Statements.RegisterFiles : Prop :=
  ∀ (x : Strand),
    x.readG 0 = 0 ∧ x.readP 0 = true ∧ x.readM 0 = BitVec.allOnes 64 ∧
    (∀ w b, x.writeG 0 w = x ∧ x.writeP 0 b = x ∧ x.writeM 0 w = x) ∧
    (∀ (r q : GReg) w, r ≠ 0 → (x.writeG r w).readG q = if q = r then w else x.readG q) ∧
    (∀ (r q : PReg) b, r ≠ 0 → (x.writeP r b).readP q = if q = r then b else x.readP q) ∧
    (∀ (r q : MReg) w, r ≠ 0 → (x.writeM r w).readM q = if q = r then w else x.readM q) ∧
    (∀ (r q : VReg) w, (x.writeV r w).readV q = if q = r then w else x.readV q) ∧
    (∀ (r : GReg) w, (x.sys = true → 60 ≤ r.val → (x.writeG r w).g = x.g) ∧
      (x.sys = false ∨ r.val < 60 → (x.writeG r w).sysg = x.sysg))

/-- A packed vector reads back: element i of what a vector result writes is the value laid at i (R26). -/
def Sys2Proof.Statements.VectorElementsReadBack : Prop :=
  ∀ (w : Nat) (xs : List Nat) (i : Nat), w = 8 ∨ w = 16 ∨ w = 32 ∨ w = 64 → xs.length ≤ 512 / w → i < 512 / w →
    elem (ofElems w xs) i w = (xs.getD i 0) % 2 ^ w

/-- Register files: the fixed registers, reads after writes, the system registers, and vector elements. -/
def Obligations.RegisterFiles : Prop :=
  Statements.RegisterFiles ∧ Statements.VectorElementsReadBack

/-- What a write leaves in storage: a byte written reads as the last value written to it, every other byte as before, the value laid on
distinct keys reads back modulo its width, and zeroing a range zeroes its bytes and no other (R3, R182). -/
def Obligations.StorageReadsBack : Prop :=
  (∀ (m : Memory) (k j : Nat) (b : Byte), m.wf = true → (m.write k b).read j = if j = k then b else m.read j) ∧
  (∀ (m : Memory) (ks : List Nat) (x : Nat), m.wf = true → ks.Nodup → (m.writeAll (layBytes ks x)).value ks = x % 256 ^ ks.length) ∧
  (∀ (m : Memory) (ks : List Nat) (x j : Nat), m.wf = true → j ∉ ks → (m.writeAll (layBytes ks x)).read j = m.read j) ∧
  (∀ (s : State) (lo n j : Nat), s.mem.wf = true →
    (s.zeroRange lo n).mem.read j = if lo ≤ j ∧ j < lo + n then 0 else s.mem.read j)

/-- Rounding is exact where it can be: in every mode a finite code's own value rounds to that code, with no flag; and zero keeps its sign
(R76, R79). -/
def Obligations.ExactRounding : Prop :=
  ∀ (f : Num.Fmt) (m : RMode) (u c : Nat) (n : Bool) (k : Nat) (e : Int), c < 2 ^ f.width → Num.decode f c = .fin n k e →
    Num.roundTo f m u ⟨n, k, e, false⟩ = (c, 0)

/-- Words written out bit by bit from the spec's encodings decode to the instructions they stand for: one or more of each family, one
under a scope prefix, one under a live prefix, one guarded and one pair word; a word with operation code 0 decodes to nothing (R51 to
R68). -/
def Obligations.DecodeWords : Prop :=
  decodeTableWord 96 0 = none ∧
  decodeTableWord 96 0x0011461C0004000000000000 = some (.add ⟨.i64, false, 5, 6, 7⟩) ∧
  decodeTableWord 96 0x028000000000000000000000 = some .nop ∧
  decodeTableWord 96 0x024100000000FFFFFFFFFFFD = some (.loop ⟨4, 0xFFFFFFFFFFFD⟩) ∧
  decodeTableWord 96 0x0A2102005001000000000000 = some (.vprune48 ⟨.i8, 4, 5, 2, 0, none⟩) ∧
  decodeTableWord 96 0x0C0040400009C60000000000 = some (.mma ⟨.bf16, 1, 0, 16, 3, 3, false, false, 0, 0⟩) ∧
  decodeTableWord 96 0x0C1008414001060000000000 = some (.mmaS ⟨.i8, 0, 8, 16, 20, 0, 3, false, false, 0, 0⟩) ∧
  decodeTableWord 96 0x032008240004000000000010 = some (.stOf ⟨.i64, 8, 9, ⟨none, 0x10⟩, none⟩) ∧
  decodeTableWord 96 0x031004140004000000000800 = some (.st ⟨.i64, 4, 5, ⟨none, 0x800⟩, none⟩) ∧
  decodeTableWord 96 0x040002000003000000080005 = some (.ldt ⟨.i32, false, 2, 0, 8, 5, none⟩) ∧
  decodeTableWord 96 0x04228000B000000000000001 = some (.take ⟨10, 11, 1⟩) ∧
  decodeTableWord 96 0x05800528000000000000030C = some (.send ⟨5, 10, 3, 12⟩) ∧
  decodeTableWord 96 0x058014557010000000000101 = some (.sendRq ⟨20, 21, 23, 1, 1, 0⟩) ∧
  decodeTableWord 96 0x055149000000000000000000 = some (.phsw ⟨5, 9⟩) ∧
  decodeTableWord 96 0x03A30B007008000000000000 = some (.acas ⟨.z64, 12, 11, 0, 7, 0, none⟩) ∧
  decodeTableWord 96 0x06000414A000000000030002 = some (.spawn ⟨4, 5, 10, 3, 2⟩) ∧
  decodeTableWord 96 0x077006240000000000000000 = some (.copy ⟨6, 9, none⟩) ∧
  decodeTableWord 96 0x0763C0000000000000000021 = some (.qrecv ⟨15, 1, 2⟩) ∧
  decodeTableWord 96 0x064146000000000000000000 = some (.launch ⟨5, 6⟩) ∧
  decodeTableWord 96 0x066000000000000000000007 = some (.exit 7) ∧
  decodeTableWord 96 0x0D2005180000000000000000 = some (.tlbinv ⟨5, 6⟩) ∧
  decodeTableWord 96 0x0D8146000020000000000000 = some (.elogrdCnt ⟨5, 6⟩) ∧
  decodeTableWord 96 0x0DA146000000000000000003 = some (.hostsig ⟨5, 6, 3⟩) ∧
  decodeSlots [(.pfx, 0x02000000000000000000000D), (.single, 0x030102000004000000000010)] =
    .ok ⟨⟨false, 0⟩, .ld ⟨.i64, 4, 2, ⟨none, 0x10⟩, some ⟨.acq, .fabric⟩⟩, 2⟩ ∧
  decodeSlots [(.pfx, 0x014800000000000000000007), (.single, 0x067000000000FFFFFFFFFFFD)] =
    .ok ⟨⟨false, 0⟩, .jx ⟨0xFFFFFFFFFFFD, some ⟨some 4, none, none, none, 7⟩⟩, 2⟩ ∧
  decodeSlots [(.single, 0xA011461C0004000000000000)] = .ok ⟨⟨true, 2⟩, .add ⟨.i64, false, 5, 6, 7⟩, 1⟩ ∧
  decodeSlots [(.pair, 0x004518740000061051a01800)] = .ok ⟨⟨false, 0⟩, .pairWord (.add ⟨.i64, false, 5, 6, 7⟩) (.vand ⟨.z64, 4, 5, 6, ⟨false, 3, none⟩⟩), 1⟩

/-- What the terms of the completion statements leave alone: writing a g, v, p or m register, merging flags, storing the generator and
going on change no memory, no special register, no other strand and nothing in flight; merging flags only sets sticky bits (R32, R42). -/
def Obligations.CompletionFrame : Prop :=
  ∀ (s : State) (g : GReg) (v : VReg) (p : PReg) (m : MReg) (w : Word) (x : VecReg) (b : Bool) (f : Num.Flags) (r : BitVec 32),
    ∀ t ∈ [(s.wg g w).goesOn, (s.wv v x).goesOn, (s.wp p b).goesOn, (s.wm m w).goesOn, (s.addFlags f).goesOn, (s.setSrg r).goesOn],
      t.mem = s.mem ∧ t.net = s.net ∧ t.strands = s.strands ∧ t.cores = s.cores ∧ t.tiles = s.tiles ∧ t.dies = s.dies ∧
      t.parts = s.parts ∧ t.streams = s.streams ∧ t.rings = s.rings ∧ t.phasers = s.phasers ∧ t.members = s.members ∧
      t.weaves = s.weaves ∧ t.host = s.host ∧ t.me.pc = s.iss.next ∧ t.me.q = s.me.q ∧ t.me.ls = s.me.ls ∧
      t.me.tvec = s.me.tvec ∧ t.me.tpc = s.me.tpc ∧ t.me.tcause = s.me.tcause ∧ t.me.tval = s.me.tval ∧ t.me.ttag = s.me.ttag ∧
      t.me.stpc = s.me.stpc ∧ t.me.stcause = s.me.stcause ∧ t.me.stval = s.me.stval ∧ t.me.sttag = s.me.sttag ∧
      t.me.entW = s.me.entW ∧ t.me.entS = s.me.entS ∧ t.me.lsctl = s.me.lsctl ∧ t.me.core = s.me.core ∧ t.me.weave = s.me.weave ∧
      t.me.seg = s.me.seg ∧ t.me.trcnt = s.me.trcnt ∧ t.me.tr.n = s.me.tr.n ∧ t.me.tr.entries = s.me.tr.entries ∧
      (∀ k, 9 ≤ k → t.me.flags.getLsbD k = s.me.flags.getLsbD k) ∧ (∀ k, s.me.flags.getLsbD k = true → t.me.flags.getLsbD k = true) ∧
      t.me.rmode.extractLsb' 0 32 = s.me.rmode.extractLsb' 0 32

/-- Reset is a safe state: its storage is in canonical form and each turn of its agenda, which lists none, is sound. That storage is a
list which omits zero bytes, and that an agenda picks the next turn, is the model's own way (log entries 1 and 7). -/
def Obligations.ResetIsSafe : Prop := State.reset.Inv

/-- Every step from a safe state leaves a safe state: storage keeps its canonical form, and the agenda names strands and steps of the
device only.
Model choices: log entries 1, 7. -/
def Obligations.StepKeepsSafety : Prop := ∀ s t : State, s.Inv → step s = .next t → t.Inv

/-- A strand's turn executes the chain its program counter names: where its line is found whole and legal, and its slots decode to an
instruction, the step is that instruction's meaning, or only passes to the next slot where its guard is false; slots that decode to
nothing raise illegal instruction or prefix misuse. A strand that waits in an instruction goes on with it and fetches nothing, which
is the model's choice (log entry 51). With no turn set a cycle passes on every die and the current strand has its turn; a set turn is
taken from the agenda, and a step of the device is its meaning (R23, R49, R55, R62, R69, R73).
Model choices: log entries 1, 2, 18. -/
def Obligations.StepRunsDecoded : Prop :=
  (∀ (s u : State) (l : Line), (s.agenda = [] ∧ u = s.tick 1) ∨
      (∃ k n sk r, s.agenda = ⟨.strand k, n, sk⟩ :: r ∧ u = (State.tickDies { s with agenda := r } n sk).switchTo k) →
    u.me.live = true → u.me.refetch = none → u.islandHeld u.core = false → u.stopped = false → u.me.pend = [] → u.me.parked = none →
    u.me.issued = none →
    let f := u.meetFetch u.me.pc
    u.leavesSegment u.me.pc = false → f.fetchLine u.me.pc = .line l → lineIllegal l = none → validCode u.me.pc = true →
    (∀ d, decodeSlots (slotsFrom l (slotIx u.me.pc)) = .ok d →
      let own := u.me.pc + BitVec.ofNat 64 (12 * (d.len - 1))
      let v : State := { f.keepLine (lineBase u.me.pc).toNat l with
        iss := ⟨u.me.pc, own, succAddr own, lineSlot l (slotIx own)⟩ }
      (v.rp d.guard.p ≠ d.guard.neg → step s = exec d.instr { v with me := { v.me with issued := some (d.instr, v.iss) } }) ∧
      (v.rp d.guard.p = d.guard.neg →
        step s = .next { v with me := { v.me.settle with pc := succAddr own } })) ∧
    (∀ j, decodeSlots (slotsFrom l (slotIx u.me.pc)) = .error (.illegal j) → u.me.tr.st ≠ .running →
      step s = .next (f.takeTrap ⟨0x01, 0, (lineSlot l (slotIx u.me.pc + j)).extractLsb' 32 64,
        some (u.me.pc + BitVec.ofNat 64 (12 * j)), 0⟩ 0)) ∧
    (∀ sub j, decodeSlots (slotsFrom l (slotIx u.me.pc)) = .error (.misuse sub j) → u.me.tr.st ≠ .running →
      step s = .next (f.takeTrap ⟨0x04, BitVec.ofNat 8 sub, u.me.pc, some (u.me.pc + BitVec.ofNat 64 (12 * j)), 0⟩ 0))) ∧
  (∀ (s u : State) (i : Instr) iss, (s.agenda = [] ∧ u = s.tick 1) ∨
      (∃ k n sk r, s.agenda = ⟨.strand k, n, sk⟩ :: r ∧ u = (State.tickDies { s with agenda := r } n sk).switchTo k) →
    u.me.live = true → u.me.refetch = none → u.islandHeld u.core = false → u.stopped = false → u.me.pend = [] → u.me.parked = none →
    u.me.issued = some (i, iss) → step s = exec i { u with iss := iss }) ∧
  (∀ (s : State) (i : Instr) (n : Nat) sk (r : List Turn), s.agenda = ⟨.event i, n, sk⟩ :: r → i.isEvent = true →
    step s = exec i (State.tickDies { s with agenda := r } n sk)) ∧
  (∀ (s : State) o (n : Nat) sk (r : List Turn), s.agenda = ⟨.outside o, n, sk⟩ :: r →
    step s = .next ((State.tickDies { s with agenda := r } n sk).outside o)) ∧
  (∀ (s : State) (d : Nat), d < 4 → ((s.tick 1).dieRec d).cyc = (s.dieRec d).cyc + 1)

/-- Decoding what an instruction encodes gives the instruction back, under its guard and whatever follows it in its line: for every
well-formed instruction of the instruction set, single, prefixed or pair, with every operand at every value (R51 to R70). -/
def Obligations.EncodeDecodeRoundTrip : Prop :=
  ∀ (g : Guard) (i : Instr) (rest : List (SlotKind × SlotWord)), i.wf = true → i.isEvent = false →
    ∃ ws, encode g i = some ws ∧ decodeSlots (ws ++ rest) = .ok ⟨g, i, ws.length⟩
end

