-- ==== Sys2Proof/Laws/State.lean ====
section
/-! SUPPORT. What each named update of the state and of a strand's record leaves in every field, so that no proof unfolds a
record update. -/

namespace Sys2Proof.Machine

/-! ### State.wg -/

@[simp] theorem State.wg_cur (s : State) (r : GReg) (w : Word) : (s.wg r w).cur = s.cur := rfl
@[simp] theorem State.wg_me (s : State) (r : GReg) (w : Word) : (s.wg r w).me = s.me.writeG r w := rfl
@[simp] theorem State.wg_iss (s : State) (r : GReg) (w : Word) : (s.wg r w).iss = s.iss := rfl
@[simp] theorem State.wg_agenda (s : State) (r : GReg) (w : Word) : (s.wg r w).agenda = s.agenda := rfl
@[simp] theorem State.wg_prompt (s : State) (r : GReg) (w : Word) : (s.wg r w).prompt = s.prompt := rfl
@[simp] theorem State.wg_freeCtr (s : State) (r : GReg) (w : Word) : (s.wg r w).freeCtr = s.freeCtr := rfl
@[simp] theorem State.wg_strands (s : State) (r : GReg) (w : Word) : (s.wg r w).strands = s.strands := rfl
@[simp] theorem State.wg_cores (s : State) (r : GReg) (w : Word) : (s.wg r w).cores = s.cores := rfl
@[simp] theorem State.wg_tiles (s : State) (r : GReg) (w : Word) : (s.wg r w).tiles = s.tiles := rfl
@[simp] theorem State.wg_rows (s : State) (r : GReg) (w : Word) : (s.wg r w).rows = s.rows := rfl
@[simp] theorem State.wg_blocks (s : State) (r : GReg) (w : Word) : (s.wg r w).blocks = s.blocks := rfl
@[simp] theorem State.wg_dies (s : State) (r : GReg) (w : Word) : (s.wg r w).dies = s.dies := rfl
@[simp] theorem State.wg_parts (s : State) (r : GReg) (w : Word) : (s.wg r w).parts = s.parts := rfl
@[simp] theorem State.wg_mem (s : State) (r : GReg) (w : Word) : (s.wg r w).mem = s.mem := rfl
@[simp] theorem State.wg_poison (s : State) (r : GReg) (w : Word) : (s.wg r w).poison = s.poison := rfl
@[simp] theorem State.wg_upsets (s : State) (r : GReg) (w : Word) : (s.wg r w).upsets = s.upsets := rfl
@[simp] theorem State.wg_exact (s : State) (r : GReg) (w : Word) : (s.wg r w).exact = s.exact := rfl
@[simp] theorem State.wg_relTags (s : State) (r : GReg) (w : Word) : (s.wg r w).relTags = s.relTags := rfl
@[simp] theorem State.wg_net (s : State) (r : GReg) (w : Word) : (s.wg r w).net = s.net := rfl
@[simp] theorem State.wg_gangs (s : State) (r : GReg) (w : Word) : (s.wg r w).gangs = s.gangs := rfl
@[simp] theorem State.wg_phasers (s : State) (r : GReg) (w : Word) : (s.wg r w).phasers = s.phasers := rfl
@[simp] theorem State.wg_members (s : State) (r : GReg) (w : Word) : (s.wg r w).members = s.members := rfl
@[simp] theorem State.wg_rings (s : State) (r : GReg) (w : Word) : (s.wg r w).rings = s.rings := rfl
@[simp] theorem State.wg_streams (s : State) (r : GReg) (w : Word) : (s.wg r w).streams = s.streams := rfl
@[simp] theorem State.wg_weaves (s : State) (r : GReg) (w : Word) : (s.wg r w).weaves = s.weaves := rfl
@[simp] theorem State.wg_saves (s : State) (r : GReg) (w : Word) : (s.wg r w).saves = s.saves := rfl
@[simp] theorem State.wg_nextWid (s : State) (r : GReg) (w : Word) : (s.wg r w).nextWid = s.nextWid := rfl
@[simp] theorem State.wg_order (s : State) (r : GReg) (w : Word) : (s.wg r w).order = s.order := rfl
@[simp] theorem State.wg_host (s : State) (r : GReg) (w : Word) : (s.wg r w).host = s.host := rfl
@[simp] theorem State.wg_points (s : State) (r : GReg) (w : Word) : (s.wg r w).points = s.points := rfl
@[simp] theorem State.wg_pointMoves (s : State) (r : GReg) (w : Word) : (s.wg r w).pointMoves = s.pointMoves := rfl
@[simp] theorem State.wg_failed (s : State) (r : GReg) (w : Word) : (s.wg r w).failed = s.failed := rfl
@[simp] theorem State.wg_slots (s : State) (r : GReg) (w : Word) : (s.wg r w).slots = s.slots := rfl
@[simp] theorem State.wg_sent (s : State) (r : GReg) (w : Word) : (s.wg r w).sent = s.sent := rfl
@[simp] theorem State.wg_framesIn (s : State) (r : GReg) (w : Word) : (s.wg r w).framesIn = s.framesIn := rfl

/-! ### State.wv -/

@[simp] theorem State.wv_cur (s : State) (r : VReg) (w : VecReg) : (s.wv r w).cur = s.cur := rfl
@[simp] theorem State.wv_me (s : State) (r : VReg) (w : VecReg) : (s.wv r w).me = s.me.writeV r w := rfl
@[simp] theorem State.wv_iss (s : State) (r : VReg) (w : VecReg) : (s.wv r w).iss = s.iss := rfl
@[simp] theorem State.wv_agenda (s : State) (r : VReg) (w : VecReg) : (s.wv r w).agenda = s.agenda := rfl
@[simp] theorem State.wv_prompt (s : State) (r : VReg) (w : VecReg) : (s.wv r w).prompt = s.prompt := rfl
@[simp] theorem State.wv_freeCtr (s : State) (r : VReg) (w : VecReg) : (s.wv r w).freeCtr = s.freeCtr := rfl
@[simp] theorem State.wv_strands (s : State) (r : VReg) (w : VecReg) : (s.wv r w).strands = s.strands := rfl
@[simp] theorem State.wv_cores (s : State) (r : VReg) (w : VecReg) : (s.wv r w).cores = s.cores := rfl
@[simp] theorem State.wv_tiles (s : State) (r : VReg) (w : VecReg) : (s.wv r w).tiles = s.tiles := rfl
@[simp] theorem State.wv_rows (s : State) (r : VReg) (w : VecReg) : (s.wv r w).rows = s.rows := rfl
@[simp] theorem State.wv_blocks (s : State) (r : VReg) (w : VecReg) : (s.wv r w).blocks = s.blocks := rfl
@[simp] theorem State.wv_dies (s : State) (r : VReg) (w : VecReg) : (s.wv r w).dies = s.dies := rfl
@[simp] theorem State.wv_parts (s : State) (r : VReg) (w : VecReg) : (s.wv r w).parts = s.parts := rfl
@[simp] theorem State.wv_mem (s : State) (r : VReg) (w : VecReg) : (s.wv r w).mem = s.mem := rfl
@[simp] theorem State.wv_poison (s : State) (r : VReg) (w : VecReg) : (s.wv r w).poison = s.poison := rfl
@[simp] theorem State.wv_upsets (s : State) (r : VReg) (w : VecReg) : (s.wv r w).upsets = s.upsets := rfl
@[simp] theorem State.wv_exact (s : State) (r : VReg) (w : VecReg) : (s.wv r w).exact = s.exact := rfl
@[simp] theorem State.wv_relTags (s : State) (r : VReg) (w : VecReg) : (s.wv r w).relTags = s.relTags := rfl
@[simp] theorem State.wv_net (s : State) (r : VReg) (w : VecReg) : (s.wv r w).net = s.net := rfl
@[simp] theorem State.wv_gangs (s : State) (r : VReg) (w : VecReg) : (s.wv r w).gangs = s.gangs := rfl
@[simp] theorem State.wv_phasers (s : State) (r : VReg) (w : VecReg) : (s.wv r w).phasers = s.phasers := rfl
@[simp] theorem State.wv_members (s : State) (r : VReg) (w : VecReg) : (s.wv r w).members = s.members := rfl
@[simp] theorem State.wv_rings (s : State) (r : VReg) (w : VecReg) : (s.wv r w).rings = s.rings := rfl
@[simp] theorem State.wv_streams (s : State) (r : VReg) (w : VecReg) : (s.wv r w).streams = s.streams := rfl
@[simp] theorem State.wv_weaves (s : State) (r : VReg) (w : VecReg) : (s.wv r w).weaves = s.weaves := rfl
@[simp] theorem State.wv_saves (s : State) (r : VReg) (w : VecReg) : (s.wv r w).saves = s.saves := rfl
@[simp] theorem State.wv_nextWid (s : State) (r : VReg) (w : VecReg) : (s.wv r w).nextWid = s.nextWid := rfl
@[simp] theorem State.wv_order (s : State) (r : VReg) (w : VecReg) : (s.wv r w).order = s.order := rfl
@[simp] theorem State.wv_host (s : State) (r : VReg) (w : VecReg) : (s.wv r w).host = s.host := rfl
@[simp] theorem State.wv_points (s : State) (r : VReg) (w : VecReg) : (s.wv r w).points = s.points := rfl
@[simp] theorem State.wv_pointMoves (s : State) (r : VReg) (w : VecReg) : (s.wv r w).pointMoves = s.pointMoves := rfl
@[simp] theorem State.wv_failed (s : State) (r : VReg) (w : VecReg) : (s.wv r w).failed = s.failed := rfl
@[simp] theorem State.wv_slots (s : State) (r : VReg) (w : VecReg) : (s.wv r w).slots = s.slots := rfl
@[simp] theorem State.wv_sent (s : State) (r : VReg) (w : VecReg) : (s.wv r w).sent = s.sent := rfl
@[simp] theorem State.wv_framesIn (s : State) (r : VReg) (w : VecReg) : (s.wv r w).framesIn = s.framesIn := rfl

/-! ### State.wp -/

@[simp] theorem State.wp_cur (s : State) (r : PReg) (b : Bool) : (s.wp r b).cur = s.cur := rfl
@[simp] theorem State.wp_me (s : State) (r : PReg) (b : Bool) : (s.wp r b).me = s.me.writeP r b := rfl
@[simp] theorem State.wp_iss (s : State) (r : PReg) (b : Bool) : (s.wp r b).iss = s.iss := rfl
@[simp] theorem State.wp_agenda (s : State) (r : PReg) (b : Bool) : (s.wp r b).agenda = s.agenda := rfl
@[simp] theorem State.wp_prompt (s : State) (r : PReg) (b : Bool) : (s.wp r b).prompt = s.prompt := rfl
@[simp] theorem State.wp_freeCtr (s : State) (r : PReg) (b : Bool) : (s.wp r b).freeCtr = s.freeCtr := rfl
@[simp] theorem State.wp_strands (s : State) (r : PReg) (b : Bool) : (s.wp r b).strands = s.strands := rfl
@[simp] theorem State.wp_cores (s : State) (r : PReg) (b : Bool) : (s.wp r b).cores = s.cores := rfl
@[simp] theorem State.wp_tiles (s : State) (r : PReg) (b : Bool) : (s.wp r b).tiles = s.tiles := rfl
@[simp] theorem State.wp_rows (s : State) (r : PReg) (b : Bool) : (s.wp r b).rows = s.rows := rfl
@[simp] theorem State.wp_blocks (s : State) (r : PReg) (b : Bool) : (s.wp r b).blocks = s.blocks := rfl
@[simp] theorem State.wp_dies (s : State) (r : PReg) (b : Bool) : (s.wp r b).dies = s.dies := rfl
@[simp] theorem State.wp_parts (s : State) (r : PReg) (b : Bool) : (s.wp r b).parts = s.parts := rfl
@[simp] theorem State.wp_mem (s : State) (r : PReg) (b : Bool) : (s.wp r b).mem = s.mem := rfl
@[simp] theorem State.wp_poison (s : State) (r : PReg) (b : Bool) : (s.wp r b).poison = s.poison := rfl
@[simp] theorem State.wp_upsets (s : State) (r : PReg) (b : Bool) : (s.wp r b).upsets = s.upsets := rfl
@[simp] theorem State.wp_exact (s : State) (r : PReg) (b : Bool) : (s.wp r b).exact = s.exact := rfl
@[simp] theorem State.wp_relTags (s : State) (r : PReg) (b : Bool) : (s.wp r b).relTags = s.relTags := rfl
@[simp] theorem State.wp_net (s : State) (r : PReg) (b : Bool) : (s.wp r b).net = s.net := rfl
@[simp] theorem State.wp_gangs (s : State) (r : PReg) (b : Bool) : (s.wp r b).gangs = s.gangs := rfl
@[simp] theorem State.wp_phasers (s : State) (r : PReg) (b : Bool) : (s.wp r b).phasers = s.phasers := rfl
@[simp] theorem State.wp_members (s : State) (r : PReg) (b : Bool) : (s.wp r b).members = s.members := rfl
@[simp] theorem State.wp_rings (s : State) (r : PReg) (b : Bool) : (s.wp r b).rings = s.rings := rfl
@[simp] theorem State.wp_streams (s : State) (r : PReg) (b : Bool) : (s.wp r b).streams = s.streams := rfl
@[simp] theorem State.wp_weaves (s : State) (r : PReg) (b : Bool) : (s.wp r b).weaves = s.weaves := rfl
@[simp] theorem State.wp_saves (s : State) (r : PReg) (b : Bool) : (s.wp r b).saves = s.saves := rfl
@[simp] theorem State.wp_nextWid (s : State) (r : PReg) (b : Bool) : (s.wp r b).nextWid = s.nextWid := rfl
@[simp] theorem State.wp_order (s : State) (r : PReg) (b : Bool) : (s.wp r b).order = s.order := rfl
@[simp] theorem State.wp_host (s : State) (r : PReg) (b : Bool) : (s.wp r b).host = s.host := rfl
@[simp] theorem State.wp_points (s : State) (r : PReg) (b : Bool) : (s.wp r b).points = s.points := rfl
@[simp] theorem State.wp_pointMoves (s : State) (r : PReg) (b : Bool) : (s.wp r b).pointMoves = s.pointMoves := rfl
@[simp] theorem State.wp_failed (s : State) (r : PReg) (b : Bool) : (s.wp r b).failed = s.failed := rfl
@[simp] theorem State.wp_slots (s : State) (r : PReg) (b : Bool) : (s.wp r b).slots = s.slots := rfl
@[simp] theorem State.wp_sent (s : State) (r : PReg) (b : Bool) : (s.wp r b).sent = s.sent := rfl
@[simp] theorem State.wp_framesIn (s : State) (r : PReg) (b : Bool) : (s.wp r b).framesIn = s.framesIn := rfl

/-! ### State.wm -/

@[simp] theorem State.wm_cur (s : State) (r : MReg) (w : Word) : (s.wm r w).cur = s.cur := rfl
@[simp] theorem State.wm_me (s : State) (r : MReg) (w : Word) : (s.wm r w).me = s.me.writeM r w := rfl
@[simp] theorem State.wm_iss (s : State) (r : MReg) (w : Word) : (s.wm r w).iss = s.iss := rfl
@[simp] theorem State.wm_agenda (s : State) (r : MReg) (w : Word) : (s.wm r w).agenda = s.agenda := rfl
@[simp] theorem State.wm_prompt (s : State) (r : MReg) (w : Word) : (s.wm r w).prompt = s.prompt := rfl
@[simp] theorem State.wm_freeCtr (s : State) (r : MReg) (w : Word) : (s.wm r w).freeCtr = s.freeCtr := rfl
@[simp] theorem State.wm_strands (s : State) (r : MReg) (w : Word) : (s.wm r w).strands = s.strands := rfl
@[simp] theorem State.wm_cores (s : State) (r : MReg) (w : Word) : (s.wm r w).cores = s.cores := rfl
@[simp] theorem State.wm_tiles (s : State) (r : MReg) (w : Word) : (s.wm r w).tiles = s.tiles := rfl
@[simp] theorem State.wm_rows (s : State) (r : MReg) (w : Word) : (s.wm r w).rows = s.rows := rfl
@[simp] theorem State.wm_blocks (s : State) (r : MReg) (w : Word) : (s.wm r w).blocks = s.blocks := rfl
@[simp] theorem State.wm_dies (s : State) (r : MReg) (w : Word) : (s.wm r w).dies = s.dies := rfl
@[simp] theorem State.wm_parts (s : State) (r : MReg) (w : Word) : (s.wm r w).parts = s.parts := rfl
@[simp] theorem State.wm_mem (s : State) (r : MReg) (w : Word) : (s.wm r w).mem = s.mem := rfl
@[simp] theorem State.wm_poison (s : State) (r : MReg) (w : Word) : (s.wm r w).poison = s.poison := rfl
@[simp] theorem State.wm_upsets (s : State) (r : MReg) (w : Word) : (s.wm r w).upsets = s.upsets := rfl
@[simp] theorem State.wm_exact (s : State) (r : MReg) (w : Word) : (s.wm r w).exact = s.exact := rfl
@[simp] theorem State.wm_relTags (s : State) (r : MReg) (w : Word) : (s.wm r w).relTags = s.relTags := rfl
@[simp] theorem State.wm_net (s : State) (r : MReg) (w : Word) : (s.wm r w).net = s.net := rfl
@[simp] theorem State.wm_gangs (s : State) (r : MReg) (w : Word) : (s.wm r w).gangs = s.gangs := rfl
@[simp] theorem State.wm_phasers (s : State) (r : MReg) (w : Word) : (s.wm r w).phasers = s.phasers := rfl
@[simp] theorem State.wm_members (s : State) (r : MReg) (w : Word) : (s.wm r w).members = s.members := rfl
@[simp] theorem State.wm_rings (s : State) (r : MReg) (w : Word) : (s.wm r w).rings = s.rings := rfl
@[simp] theorem State.wm_streams (s : State) (r : MReg) (w : Word) : (s.wm r w).streams = s.streams := rfl
@[simp] theorem State.wm_weaves (s : State) (r : MReg) (w : Word) : (s.wm r w).weaves = s.weaves := rfl
@[simp] theorem State.wm_saves (s : State) (r : MReg) (w : Word) : (s.wm r w).saves = s.saves := rfl
@[simp] theorem State.wm_nextWid (s : State) (r : MReg) (w : Word) : (s.wm r w).nextWid = s.nextWid := rfl
@[simp] theorem State.wm_order (s : State) (r : MReg) (w : Word) : (s.wm r w).order = s.order := rfl
@[simp] theorem State.wm_host (s : State) (r : MReg) (w : Word) : (s.wm r w).host = s.host := rfl
@[simp] theorem State.wm_points (s : State) (r : MReg) (w : Word) : (s.wm r w).points = s.points := rfl
@[simp] theorem State.wm_pointMoves (s : State) (r : MReg) (w : Word) : (s.wm r w).pointMoves = s.pointMoves := rfl
@[simp] theorem State.wm_failed (s : State) (r : MReg) (w : Word) : (s.wm r w).failed = s.failed := rfl
@[simp] theorem State.wm_slots (s : State) (r : MReg) (w : Word) : (s.wm r w).slots = s.slots := rfl
@[simp] theorem State.wm_sent (s : State) (r : MReg) (w : Word) : (s.wm r w).sent = s.sent := rfl
@[simp] theorem State.wm_framesIn (s : State) (r : MReg) (w : Word) : (s.wm r w).framesIn = s.framesIn := rfl

/-! ### State.setSrg -/

@[simp] theorem State.setSrg_cur (s : State) (x : BitVec 32) : (s.setSrg x).cur = s.cur := rfl
@[simp] theorem State.setSrg_iss (s : State) (x : BitVec 32) : (s.setSrg x).iss = s.iss := rfl
@[simp] theorem State.setSrg_agenda (s : State) (x : BitVec 32) : (s.setSrg x).agenda = s.agenda := rfl
@[simp] theorem State.setSrg_prompt (s : State) (x : BitVec 32) : (s.setSrg x).prompt = s.prompt := rfl
@[simp] theorem State.setSrg_freeCtr (s : State) (x : BitVec 32) : (s.setSrg x).freeCtr = s.freeCtr := rfl
@[simp] theorem State.setSrg_strands (s : State) (x : BitVec 32) : (s.setSrg x).strands = s.strands := rfl
@[simp] theorem State.setSrg_cores (s : State) (x : BitVec 32) : (s.setSrg x).cores = s.cores := rfl
@[simp] theorem State.setSrg_tiles (s : State) (x : BitVec 32) : (s.setSrg x).tiles = s.tiles := rfl
@[simp] theorem State.setSrg_rows (s : State) (x : BitVec 32) : (s.setSrg x).rows = s.rows := rfl
@[simp] theorem State.setSrg_blocks (s : State) (x : BitVec 32) : (s.setSrg x).blocks = s.blocks := rfl
@[simp] theorem State.setSrg_dies (s : State) (x : BitVec 32) : (s.setSrg x).dies = s.dies := rfl
@[simp] theorem State.setSrg_parts (s : State) (x : BitVec 32) : (s.setSrg x).parts = s.parts := rfl
@[simp] theorem State.setSrg_mem (s : State) (x : BitVec 32) : (s.setSrg x).mem = s.mem := rfl
@[simp] theorem State.setSrg_poison (s : State) (x : BitVec 32) : (s.setSrg x).poison = s.poison := rfl
@[simp] theorem State.setSrg_upsets (s : State) (x : BitVec 32) : (s.setSrg x).upsets = s.upsets := rfl
@[simp] theorem State.setSrg_exact (s : State) (x : BitVec 32) : (s.setSrg x).exact = s.exact := rfl
@[simp] theorem State.setSrg_relTags (s : State) (x : BitVec 32) : (s.setSrg x).relTags = s.relTags := rfl
@[simp] theorem State.setSrg_net (s : State) (x : BitVec 32) : (s.setSrg x).net = s.net := rfl
@[simp] theorem State.setSrg_gangs (s : State) (x : BitVec 32) : (s.setSrg x).gangs = s.gangs := rfl
@[simp] theorem State.setSrg_phasers (s : State) (x : BitVec 32) : (s.setSrg x).phasers = s.phasers := rfl
@[simp] theorem State.setSrg_members (s : State) (x : BitVec 32) : (s.setSrg x).members = s.members := rfl
@[simp] theorem State.setSrg_rings (s : State) (x : BitVec 32) : (s.setSrg x).rings = s.rings := rfl
@[simp] theorem State.setSrg_streams (s : State) (x : BitVec 32) : (s.setSrg x).streams = s.streams := rfl
@[simp] theorem State.setSrg_weaves (s : State) (x : BitVec 32) : (s.setSrg x).weaves = s.weaves := rfl
@[simp] theorem State.setSrg_saves (s : State) (x : BitVec 32) : (s.setSrg x).saves = s.saves := rfl
@[simp] theorem State.setSrg_nextWid (s : State) (x : BitVec 32) : (s.setSrg x).nextWid = s.nextWid := rfl
@[simp] theorem State.setSrg_order (s : State) (x : BitVec 32) : (s.setSrg x).order = s.order := rfl
@[simp] theorem State.setSrg_host (s : State) (x : BitVec 32) : (s.setSrg x).host = s.host := rfl
@[simp] theorem State.setSrg_points (s : State) (x : BitVec 32) : (s.setSrg x).points = s.points := rfl
@[simp] theorem State.setSrg_pointMoves (s : State) (x : BitVec 32) : (s.setSrg x).pointMoves = s.pointMoves := rfl
@[simp] theorem State.setSrg_failed (s : State) (x : BitVec 32) : (s.setSrg x).failed = s.failed := rfl
@[simp] theorem State.setSrg_slots (s : State) (x : BitVec 32) : (s.setSrg x).slots = s.slots := rfl
@[simp] theorem State.setSrg_sent (s : State) (x : BitVec 32) : (s.setSrg x).sent = s.sent := rfl
@[simp] theorem State.setSrg_framesIn (s : State) (x : BitVec 32) : (s.setSrg x).framesIn = s.framesIn := rfl

/-! ### State.addFlags -/

@[simp] theorem State.addFlags_cur (s : State) (f : Num.Flags) : (s.addFlags f).cur = s.cur := rfl
@[simp] theorem State.addFlags_me (s : State) (f : Num.Flags) : (s.addFlags f).me = mergeFlags s.me f := rfl
@[simp] theorem State.addFlags_iss (s : State) (f : Num.Flags) : (s.addFlags f).iss = s.iss := rfl
@[simp] theorem State.addFlags_agenda (s : State) (f : Num.Flags) : (s.addFlags f).agenda = s.agenda := rfl
@[simp] theorem State.addFlags_prompt (s : State) (f : Num.Flags) : (s.addFlags f).prompt = s.prompt := rfl
@[simp] theorem State.addFlags_freeCtr (s : State) (f : Num.Flags) : (s.addFlags f).freeCtr = s.freeCtr := rfl
@[simp] theorem State.addFlags_strands (s : State) (f : Num.Flags) : (s.addFlags f).strands = s.strands := rfl
@[simp] theorem State.addFlags_cores (s : State) (f : Num.Flags) : (s.addFlags f).cores = s.cores := rfl
@[simp] theorem State.addFlags_tiles (s : State) (f : Num.Flags) : (s.addFlags f).tiles = s.tiles := rfl
@[simp] theorem State.addFlags_rows (s : State) (f : Num.Flags) : (s.addFlags f).rows = s.rows := rfl
@[simp] theorem State.addFlags_blocks (s : State) (f : Num.Flags) : (s.addFlags f).blocks = s.blocks := rfl
@[simp] theorem State.addFlags_dies (s : State) (f : Num.Flags) : (s.addFlags f).dies = s.dies := rfl
@[simp] theorem State.addFlags_parts (s : State) (f : Num.Flags) : (s.addFlags f).parts = s.parts := rfl
@[simp] theorem State.addFlags_mem (s : State) (f : Num.Flags) : (s.addFlags f).mem = s.mem := rfl
@[simp] theorem State.addFlags_poison (s : State) (f : Num.Flags) : (s.addFlags f).poison = s.poison := rfl
@[simp] theorem State.addFlags_upsets (s : State) (f : Num.Flags) : (s.addFlags f).upsets = s.upsets := rfl
@[simp] theorem State.addFlags_exact (s : State) (f : Num.Flags) : (s.addFlags f).exact = s.exact := rfl
@[simp] theorem State.addFlags_relTags (s : State) (f : Num.Flags) : (s.addFlags f).relTags = s.relTags := rfl
@[simp] theorem State.addFlags_net (s : State) (f : Num.Flags) : (s.addFlags f).net = s.net := rfl
@[simp] theorem State.addFlags_gangs (s : State) (f : Num.Flags) : (s.addFlags f).gangs = s.gangs := rfl
@[simp] theorem State.addFlags_phasers (s : State) (f : Num.Flags) : (s.addFlags f).phasers = s.phasers := rfl
@[simp] theorem State.addFlags_members (s : State) (f : Num.Flags) : (s.addFlags f).members = s.members := rfl
@[simp] theorem State.addFlags_rings (s : State) (f : Num.Flags) : (s.addFlags f).rings = s.rings := rfl
@[simp] theorem State.addFlags_streams (s : State) (f : Num.Flags) : (s.addFlags f).streams = s.streams := rfl
@[simp] theorem State.addFlags_weaves (s : State) (f : Num.Flags) : (s.addFlags f).weaves = s.weaves := rfl
@[simp] theorem State.addFlags_saves (s : State) (f : Num.Flags) : (s.addFlags f).saves = s.saves := rfl
@[simp] theorem State.addFlags_nextWid (s : State) (f : Num.Flags) : (s.addFlags f).nextWid = s.nextWid := rfl
@[simp] theorem State.addFlags_order (s : State) (f : Num.Flags) : (s.addFlags f).order = s.order := rfl
@[simp] theorem State.addFlags_host (s : State) (f : Num.Flags) : (s.addFlags f).host = s.host := rfl
@[simp] theorem State.addFlags_points (s : State) (f : Num.Flags) : (s.addFlags f).points = s.points := rfl
@[simp] theorem State.addFlags_pointMoves (s : State) (f : Num.Flags) : (s.addFlags f).pointMoves = s.pointMoves := rfl
@[simp] theorem State.addFlags_failed (s : State) (f : Num.Flags) : (s.addFlags f).failed = s.failed := rfl
@[simp] theorem State.addFlags_slots (s : State) (f : Num.Flags) : (s.addFlags f).slots = s.slots := rfl
@[simp] theorem State.addFlags_sent (s : State) (f : Num.Flags) : (s.addFlags f).sent = s.sent := rfl
@[simp] theorem State.addFlags_framesIn (s : State) (f : Num.Flags) : (s.addFlags f).framesIn = s.framesIn := rfl

/-! ### State.setMempty -/

@[simp] theorem State.setMempty_cur (s : State) (b : Bool) : (s.setMempty b).cur = s.cur := rfl
@[simp] theorem State.setMempty_iss (s : State) (b : Bool) : (s.setMempty b).iss = s.iss := rfl
@[simp] theorem State.setMempty_agenda (s : State) (b : Bool) : (s.setMempty b).agenda = s.agenda := rfl
@[simp] theorem State.setMempty_prompt (s : State) (b : Bool) : (s.setMempty b).prompt = s.prompt := rfl
@[simp] theorem State.setMempty_freeCtr (s : State) (b : Bool) : (s.setMempty b).freeCtr = s.freeCtr := rfl
@[simp] theorem State.setMempty_strands (s : State) (b : Bool) : (s.setMempty b).strands = s.strands := rfl
@[simp] theorem State.setMempty_cores (s : State) (b : Bool) : (s.setMempty b).cores = s.cores := rfl
@[simp] theorem State.setMempty_tiles (s : State) (b : Bool) : (s.setMempty b).tiles = s.tiles := rfl
@[simp] theorem State.setMempty_rows (s : State) (b : Bool) : (s.setMempty b).rows = s.rows := rfl
@[simp] theorem State.setMempty_blocks (s : State) (b : Bool) : (s.setMempty b).blocks = s.blocks := rfl
@[simp] theorem State.setMempty_dies (s : State) (b : Bool) : (s.setMempty b).dies = s.dies := rfl
@[simp] theorem State.setMempty_parts (s : State) (b : Bool) : (s.setMempty b).parts = s.parts := rfl
@[simp] theorem State.setMempty_mem (s : State) (b : Bool) : (s.setMempty b).mem = s.mem := rfl
@[simp] theorem State.setMempty_poison (s : State) (b : Bool) : (s.setMempty b).poison = s.poison := rfl
@[simp] theorem State.setMempty_upsets (s : State) (b : Bool) : (s.setMempty b).upsets = s.upsets := rfl
@[simp] theorem State.setMempty_exact (s : State) (b : Bool) : (s.setMempty b).exact = s.exact := rfl
@[simp] theorem State.setMempty_relTags (s : State) (b : Bool) : (s.setMempty b).relTags = s.relTags := rfl
@[simp] theorem State.setMempty_net (s : State) (b : Bool) : (s.setMempty b).net = s.net := rfl
@[simp] theorem State.setMempty_gangs (s : State) (b : Bool) : (s.setMempty b).gangs = s.gangs := rfl
@[simp] theorem State.setMempty_phasers (s : State) (b : Bool) : (s.setMempty b).phasers = s.phasers := rfl
@[simp] theorem State.setMempty_members (s : State) (b : Bool) : (s.setMempty b).members = s.members := rfl
@[simp] theorem State.setMempty_rings (s : State) (b : Bool) : (s.setMempty b).rings = s.rings := rfl
@[simp] theorem State.setMempty_streams (s : State) (b : Bool) : (s.setMempty b).streams = s.streams := rfl
@[simp] theorem State.setMempty_weaves (s : State) (b : Bool) : (s.setMempty b).weaves = s.weaves := rfl
@[simp] theorem State.setMempty_saves (s : State) (b : Bool) : (s.setMempty b).saves = s.saves := rfl
@[simp] theorem State.setMempty_nextWid (s : State) (b : Bool) : (s.setMempty b).nextWid = s.nextWid := rfl
@[simp] theorem State.setMempty_order (s : State) (b : Bool) : (s.setMempty b).order = s.order := rfl
@[simp] theorem State.setMempty_host (s : State) (b : Bool) : (s.setMempty b).host = s.host := rfl
@[simp] theorem State.setMempty_points (s : State) (b : Bool) : (s.setMempty b).points = s.points := rfl
@[simp] theorem State.setMempty_pointMoves (s : State) (b : Bool) : (s.setMempty b).pointMoves = s.pointMoves := rfl
@[simp] theorem State.setMempty_failed (s : State) (b : Bool) : (s.setMempty b).failed = s.failed := rfl
@[simp] theorem State.setMempty_slots (s : State) (b : Bool) : (s.setMempty b).slots = s.slots := rfl
@[simp] theorem State.setMempty_sent (s : State) (b : Bool) : (s.setMempty b).sent = s.sent := rfl
@[simp] theorem State.setMempty_framesIn (s : State) (b : Bool) : (s.setMempty b).framesIn = s.framesIn := rfl

/-! ### State.setNone -/

@[simp] theorem State.setNone_cur (s : State) (b : Bool) : (s.setNone b).cur = s.cur := rfl
@[simp] theorem State.setNone_iss (s : State) (b : Bool) : (s.setNone b).iss = s.iss := rfl
@[simp] theorem State.setNone_agenda (s : State) (b : Bool) : (s.setNone b).agenda = s.agenda := rfl
@[simp] theorem State.setNone_prompt (s : State) (b : Bool) : (s.setNone b).prompt = s.prompt := rfl
@[simp] theorem State.setNone_freeCtr (s : State) (b : Bool) : (s.setNone b).freeCtr = s.freeCtr := rfl
@[simp] theorem State.setNone_strands (s : State) (b : Bool) : (s.setNone b).strands = s.strands := rfl
@[simp] theorem State.setNone_cores (s : State) (b : Bool) : (s.setNone b).cores = s.cores := rfl
@[simp] theorem State.setNone_tiles (s : State) (b : Bool) : (s.setNone b).tiles = s.tiles := rfl
@[simp] theorem State.setNone_rows (s : State) (b : Bool) : (s.setNone b).rows = s.rows := rfl
@[simp] theorem State.setNone_blocks (s : State) (b : Bool) : (s.setNone b).blocks = s.blocks := rfl
@[simp] theorem State.setNone_dies (s : State) (b : Bool) : (s.setNone b).dies = s.dies := rfl
@[simp] theorem State.setNone_parts (s : State) (b : Bool) : (s.setNone b).parts = s.parts := rfl
@[simp] theorem State.setNone_mem (s : State) (b : Bool) : (s.setNone b).mem = s.mem := rfl
@[simp] theorem State.setNone_poison (s : State) (b : Bool) : (s.setNone b).poison = s.poison := rfl
@[simp] theorem State.setNone_upsets (s : State) (b : Bool) : (s.setNone b).upsets = s.upsets := rfl
@[simp] theorem State.setNone_exact (s : State) (b : Bool) : (s.setNone b).exact = s.exact := rfl
@[simp] theorem State.setNone_relTags (s : State) (b : Bool) : (s.setNone b).relTags = s.relTags := rfl
@[simp] theorem State.setNone_net (s : State) (b : Bool) : (s.setNone b).net = s.net := rfl
@[simp] theorem State.setNone_gangs (s : State) (b : Bool) : (s.setNone b).gangs = s.gangs := rfl
@[simp] theorem State.setNone_phasers (s : State) (b : Bool) : (s.setNone b).phasers = s.phasers := rfl
@[simp] theorem State.setNone_members (s : State) (b : Bool) : (s.setNone b).members = s.members := rfl
@[simp] theorem State.setNone_rings (s : State) (b : Bool) : (s.setNone b).rings = s.rings := rfl
@[simp] theorem State.setNone_streams (s : State) (b : Bool) : (s.setNone b).streams = s.streams := rfl
@[simp] theorem State.setNone_weaves (s : State) (b : Bool) : (s.setNone b).weaves = s.weaves := rfl
@[simp] theorem State.setNone_saves (s : State) (b : Bool) : (s.setNone b).saves = s.saves := rfl
@[simp] theorem State.setNone_nextWid (s : State) (b : Bool) : (s.setNone b).nextWid = s.nextWid := rfl
@[simp] theorem State.setNone_order (s : State) (b : Bool) : (s.setNone b).order = s.order := rfl
@[simp] theorem State.setNone_host (s : State) (b : Bool) : (s.setNone b).host = s.host := rfl
@[simp] theorem State.setNone_points (s : State) (b : Bool) : (s.setNone b).points = s.points := rfl
@[simp] theorem State.setNone_pointMoves (s : State) (b : Bool) : (s.setNone b).pointMoves = s.pointMoves := rfl
@[simp] theorem State.setNone_failed (s : State) (b : Bool) : (s.setNone b).failed = s.failed := rfl
@[simp] theorem State.setNone_slots (s : State) (b : Bool) : (s.setNone b).slots = s.slots := rfl
@[simp] theorem State.setNone_sent (s : State) (b : Bool) : (s.setNone b).sent = s.sent := rfl
@[simp] theorem State.setNone_framesIn (s : State) (b : Bool) : (s.setNone b).framesIn = s.framesIn := rfl

/-! ### State.setCore -/

@[simp] theorem State.setCore_cur (s : State) (c : CoreIx) (x : Core) : (s.setCore c x).cur = s.cur := rfl
@[simp] theorem State.setCore_me (s : State) (c : CoreIx) (x : Core) : (s.setCore c x).me = s.me := rfl
@[simp] theorem State.setCore_iss (s : State) (c : CoreIx) (x : Core) : (s.setCore c x).iss = s.iss := rfl
@[simp] theorem State.setCore_agenda (s : State) (c : CoreIx) (x : Core) : (s.setCore c x).agenda = s.agenda := rfl
@[simp] theorem State.setCore_prompt (s : State) (c : CoreIx) (x : Core) : (s.setCore c x).prompt = s.prompt := rfl
@[simp] theorem State.setCore_freeCtr (s : State) (c : CoreIx) (x : Core) : (s.setCore c x).freeCtr = s.freeCtr := rfl
@[simp] theorem State.setCore_strands (s : State) (c : CoreIx) (x : Core) : (s.setCore c x).strands = s.strands := rfl
@[simp] theorem State.setCore_cores (s : State) (c : CoreIx) (x : Core) : (s.setCore c x).cores = Tab.set s.cores c x := rfl
@[simp] theorem State.setCore_tiles (s : State) (c : CoreIx) (x : Core) : (s.setCore c x).tiles = s.tiles := rfl
@[simp] theorem State.setCore_rows (s : State) (c : CoreIx) (x : Core) : (s.setCore c x).rows = s.rows := rfl
@[simp] theorem State.setCore_blocks (s : State) (c : CoreIx) (x : Core) : (s.setCore c x).blocks = s.blocks := rfl
@[simp] theorem State.setCore_dies (s : State) (c : CoreIx) (x : Core) : (s.setCore c x).dies = s.dies := rfl
@[simp] theorem State.setCore_parts (s : State) (c : CoreIx) (x : Core) : (s.setCore c x).parts = s.parts := rfl
@[simp] theorem State.setCore_mem (s : State) (c : CoreIx) (x : Core) : (s.setCore c x).mem = s.mem := rfl
@[simp] theorem State.setCore_poison (s : State) (c : CoreIx) (x : Core) : (s.setCore c x).poison = s.poison := rfl
@[simp] theorem State.setCore_upsets (s : State) (c : CoreIx) (x : Core) : (s.setCore c x).upsets = s.upsets := rfl
@[simp] theorem State.setCore_exact (s : State) (c : CoreIx) (x : Core) : (s.setCore c x).exact = s.exact := rfl
@[simp] theorem State.setCore_relTags (s : State) (c : CoreIx) (x : Core) : (s.setCore c x).relTags = s.relTags := rfl
@[simp] theorem State.setCore_net (s : State) (c : CoreIx) (x : Core) : (s.setCore c x).net = s.net := rfl
@[simp] theorem State.setCore_gangs (s : State) (c : CoreIx) (x : Core) : (s.setCore c x).gangs = s.gangs := rfl
@[simp] theorem State.setCore_phasers (s : State) (c : CoreIx) (x : Core) : (s.setCore c x).phasers = s.phasers := rfl
@[simp] theorem State.setCore_members (s : State) (c : CoreIx) (x : Core) : (s.setCore c x).members = s.members := rfl
@[simp] theorem State.setCore_rings (s : State) (c : CoreIx) (x : Core) : (s.setCore c x).rings = s.rings := rfl
@[simp] theorem State.setCore_streams (s : State) (c : CoreIx) (x : Core) : (s.setCore c x).streams = s.streams := rfl
@[simp] theorem State.setCore_weaves (s : State) (c : CoreIx) (x : Core) : (s.setCore c x).weaves = s.weaves := rfl
@[simp] theorem State.setCore_saves (s : State) (c : CoreIx) (x : Core) : (s.setCore c x).saves = s.saves := rfl
@[simp] theorem State.setCore_nextWid (s : State) (c : CoreIx) (x : Core) : (s.setCore c x).nextWid = s.nextWid := rfl
@[simp] theorem State.setCore_order (s : State) (c : CoreIx) (x : Core) : (s.setCore c x).order = s.order := rfl
@[simp] theorem State.setCore_host (s : State) (c : CoreIx) (x : Core) : (s.setCore c x).host = s.host := rfl
@[simp] theorem State.setCore_points (s : State) (c : CoreIx) (x : Core) : (s.setCore c x).points = s.points := rfl
@[simp] theorem State.setCore_pointMoves (s : State) (c : CoreIx) (x : Core) : (s.setCore c x).pointMoves = s.pointMoves := rfl
@[simp] theorem State.setCore_failed (s : State) (c : CoreIx) (x : Core) : (s.setCore c x).failed = s.failed := rfl
@[simp] theorem State.setCore_slots (s : State) (c : CoreIx) (x : Core) : (s.setCore c x).slots = s.slots := rfl
@[simp] theorem State.setCore_sent (s : State) (c : CoreIx) (x : Core) : (s.setCore c x).sent = s.sent := rfl
@[simp] theorem State.setCore_framesIn (s : State) (c : CoreIx) (x : Core) : (s.setCore c x).framesIn = s.framesIn := rfl

/-! ### State.modCore -/

@[simp] theorem State.modCore_cur (s : State) (c : CoreIx) (f : Core → Core) : (s.modCore c f).cur = s.cur := rfl
@[simp] theorem State.modCore_me (s : State) (c : CoreIx) (f : Core → Core) : (s.modCore c f).me = s.me := rfl
@[simp] theorem State.modCore_iss (s : State) (c : CoreIx) (f : Core → Core) : (s.modCore c f).iss = s.iss := rfl
@[simp] theorem State.modCore_agenda (s : State) (c : CoreIx) (f : Core → Core) : (s.modCore c f).agenda = s.agenda := rfl
@[simp] theorem State.modCore_prompt (s : State) (c : CoreIx) (f : Core → Core) : (s.modCore c f).prompt = s.prompt := rfl
@[simp] theorem State.modCore_freeCtr (s : State) (c : CoreIx) (f : Core → Core) : (s.modCore c f).freeCtr = s.freeCtr := rfl
@[simp] theorem State.modCore_strands (s : State) (c : CoreIx) (f : Core → Core) : (s.modCore c f).strands = s.strands := rfl
@[simp] theorem State.modCore_cores (s : State) (c : CoreIx) (f : Core → Core) : (s.modCore c f).cores = Tab.set s.cores c (f (s.coreRec c)) := rfl
@[simp] theorem State.modCore_tiles (s : State) (c : CoreIx) (f : Core → Core) : (s.modCore c f).tiles = s.tiles := rfl
@[simp] theorem State.modCore_rows (s : State) (c : CoreIx) (f : Core → Core) : (s.modCore c f).rows = s.rows := rfl
@[simp] theorem State.modCore_blocks (s : State) (c : CoreIx) (f : Core → Core) : (s.modCore c f).blocks = s.blocks := rfl
@[simp] theorem State.modCore_dies (s : State) (c : CoreIx) (f : Core → Core) : (s.modCore c f).dies = s.dies := rfl
@[simp] theorem State.modCore_parts (s : State) (c : CoreIx) (f : Core → Core) : (s.modCore c f).parts = s.parts := rfl
@[simp] theorem State.modCore_mem (s : State) (c : CoreIx) (f : Core → Core) : (s.modCore c f).mem = s.mem := rfl
@[simp] theorem State.modCore_poison (s : State) (c : CoreIx) (f : Core → Core) : (s.modCore c f).poison = s.poison := rfl
@[simp] theorem State.modCore_upsets (s : State) (c : CoreIx) (f : Core → Core) : (s.modCore c f).upsets = s.upsets := rfl
@[simp] theorem State.modCore_exact (s : State) (c : CoreIx) (f : Core → Core) : (s.modCore c f).exact = s.exact := rfl
@[simp] theorem State.modCore_relTags (s : State) (c : CoreIx) (f : Core → Core) : (s.modCore c f).relTags = s.relTags := rfl
@[simp] theorem State.modCore_net (s : State) (c : CoreIx) (f : Core → Core) : (s.modCore c f).net = s.net := rfl
@[simp] theorem State.modCore_gangs (s : State) (c : CoreIx) (f : Core → Core) : (s.modCore c f).gangs = s.gangs := rfl
@[simp] theorem State.modCore_phasers (s : State) (c : CoreIx) (f : Core → Core) : (s.modCore c f).phasers = s.phasers := rfl
@[simp] theorem State.modCore_members (s : State) (c : CoreIx) (f : Core → Core) : (s.modCore c f).members = s.members := rfl
@[simp] theorem State.modCore_rings (s : State) (c : CoreIx) (f : Core → Core) : (s.modCore c f).rings = s.rings := rfl
@[simp] theorem State.modCore_streams (s : State) (c : CoreIx) (f : Core → Core) : (s.modCore c f).streams = s.streams := rfl
@[simp] theorem State.modCore_weaves (s : State) (c : CoreIx) (f : Core → Core) : (s.modCore c f).weaves = s.weaves := rfl
@[simp] theorem State.modCore_saves (s : State) (c : CoreIx) (f : Core → Core) : (s.modCore c f).saves = s.saves := rfl
@[simp] theorem State.modCore_nextWid (s : State) (c : CoreIx) (f : Core → Core) : (s.modCore c f).nextWid = s.nextWid := rfl
@[simp] theorem State.modCore_order (s : State) (c : CoreIx) (f : Core → Core) : (s.modCore c f).order = s.order := rfl
@[simp] theorem State.modCore_host (s : State) (c : CoreIx) (f : Core → Core) : (s.modCore c f).host = s.host := rfl
@[simp] theorem State.modCore_points (s : State) (c : CoreIx) (f : Core → Core) : (s.modCore c f).points = s.points := rfl
@[simp] theorem State.modCore_pointMoves (s : State) (c : CoreIx) (f : Core → Core) : (s.modCore c f).pointMoves = s.pointMoves := rfl
@[simp] theorem State.modCore_failed (s : State) (c : CoreIx) (f : Core → Core) : (s.modCore c f).failed = s.failed := rfl
@[simp] theorem State.modCore_slots (s : State) (c : CoreIx) (f : Core → Core) : (s.modCore c f).slots = s.slots := rfl
@[simp] theorem State.modCore_sent (s : State) (c : CoreIx) (f : Core → Core) : (s.modCore c f).sent = s.sent := rfl
@[simp] theorem State.modCore_framesIn (s : State) (c : CoreIx) (f : Core → Core) : (s.modCore c f).framesIn = s.framesIn := rfl

/-! ### State.modTile -/

@[simp] theorem State.modTile_cur (s : State) (t : Nat) (f : TileUnit → TileUnit) : (s.modTile t f).cur = s.cur := rfl
@[simp] theorem State.modTile_me (s : State) (t : Nat) (f : TileUnit → TileUnit) : (s.modTile t f).me = s.me := rfl
@[simp] theorem State.modTile_iss (s : State) (t : Nat) (f : TileUnit → TileUnit) : (s.modTile t f).iss = s.iss := rfl
@[simp] theorem State.modTile_agenda (s : State) (t : Nat) (f : TileUnit → TileUnit) : (s.modTile t f).agenda = s.agenda := rfl
@[simp] theorem State.modTile_prompt (s : State) (t : Nat) (f : TileUnit → TileUnit) : (s.modTile t f).prompt = s.prompt := rfl
@[simp] theorem State.modTile_freeCtr (s : State) (t : Nat) (f : TileUnit → TileUnit) : (s.modTile t f).freeCtr = s.freeCtr := rfl
@[simp] theorem State.modTile_strands (s : State) (t : Nat) (f : TileUnit → TileUnit) : (s.modTile t f).strands = s.strands := rfl
@[simp] theorem State.modTile_cores (s : State) (t : Nat) (f : TileUnit → TileUnit) : (s.modTile t f).cores = s.cores := rfl
@[simp] theorem State.modTile_tiles (s : State) (t : Nat) (f : TileUnit → TileUnit) : (s.modTile t f).tiles = Tab.set s.tiles t (f (s.tileRec t)) := rfl
@[simp] theorem State.modTile_rows (s : State) (t : Nat) (f : TileUnit → TileUnit) : (s.modTile t f).rows = s.rows := rfl
@[simp] theorem State.modTile_blocks (s : State) (t : Nat) (f : TileUnit → TileUnit) : (s.modTile t f).blocks = s.blocks := rfl
@[simp] theorem State.modTile_dies (s : State) (t : Nat) (f : TileUnit → TileUnit) : (s.modTile t f).dies = s.dies := rfl
@[simp] theorem State.modTile_parts (s : State) (t : Nat) (f : TileUnit → TileUnit) : (s.modTile t f).parts = s.parts := rfl
@[simp] theorem State.modTile_mem (s : State) (t : Nat) (f : TileUnit → TileUnit) : (s.modTile t f).mem = s.mem := rfl
@[simp] theorem State.modTile_poison (s : State) (t : Nat) (f : TileUnit → TileUnit) : (s.modTile t f).poison = s.poison := rfl
@[simp] theorem State.modTile_upsets (s : State) (t : Nat) (f : TileUnit → TileUnit) : (s.modTile t f).upsets = s.upsets := rfl
@[simp] theorem State.modTile_exact (s : State) (t : Nat) (f : TileUnit → TileUnit) : (s.modTile t f).exact = s.exact := rfl
@[simp] theorem State.modTile_relTags (s : State) (t : Nat) (f : TileUnit → TileUnit) : (s.modTile t f).relTags = s.relTags := rfl
@[simp] theorem State.modTile_net (s : State) (t : Nat) (f : TileUnit → TileUnit) : (s.modTile t f).net = s.net := rfl
@[simp] theorem State.modTile_gangs (s : State) (t : Nat) (f : TileUnit → TileUnit) : (s.modTile t f).gangs = s.gangs := rfl
@[simp] theorem State.modTile_phasers (s : State) (t : Nat) (f : TileUnit → TileUnit) : (s.modTile t f).phasers = s.phasers := rfl
@[simp] theorem State.modTile_members (s : State) (t : Nat) (f : TileUnit → TileUnit) : (s.modTile t f).members = s.members := rfl
@[simp] theorem State.modTile_rings (s : State) (t : Nat) (f : TileUnit → TileUnit) : (s.modTile t f).rings = s.rings := rfl
@[simp] theorem State.modTile_streams (s : State) (t : Nat) (f : TileUnit → TileUnit) : (s.modTile t f).streams = s.streams := rfl
@[simp] theorem State.modTile_weaves (s : State) (t : Nat) (f : TileUnit → TileUnit) : (s.modTile t f).weaves = s.weaves := rfl
@[simp] theorem State.modTile_saves (s : State) (t : Nat) (f : TileUnit → TileUnit) : (s.modTile t f).saves = s.saves := rfl
@[simp] theorem State.modTile_nextWid (s : State) (t : Nat) (f : TileUnit → TileUnit) : (s.modTile t f).nextWid = s.nextWid := rfl
@[simp] theorem State.modTile_order (s : State) (t : Nat) (f : TileUnit → TileUnit) : (s.modTile t f).order = s.order := rfl
@[simp] theorem State.modTile_host (s : State) (t : Nat) (f : TileUnit → TileUnit) : (s.modTile t f).host = s.host := rfl
@[simp] theorem State.modTile_points (s : State) (t : Nat) (f : TileUnit → TileUnit) : (s.modTile t f).points = s.points := rfl
@[simp] theorem State.modTile_pointMoves (s : State) (t : Nat) (f : TileUnit → TileUnit) : (s.modTile t f).pointMoves = s.pointMoves := rfl
@[simp] theorem State.modTile_failed (s : State) (t : Nat) (f : TileUnit → TileUnit) : (s.modTile t f).failed = s.failed := rfl
@[simp] theorem State.modTile_slots (s : State) (t : Nat) (f : TileUnit → TileUnit) : (s.modTile t f).slots = s.slots := rfl
@[simp] theorem State.modTile_sent (s : State) (t : Nat) (f : TileUnit → TileUnit) : (s.modTile t f).sent = s.sent := rfl
@[simp] theorem State.modTile_framesIn (s : State) (t : Nat) (f : TileUnit → TileUnit) : (s.modTile t f).framesIn = s.framesIn := rfl

/-! ### State.modBlock -/

@[simp] theorem State.modBlock_cur (s : State) (b : Nat) (f : Block → Block) : (s.modBlock b f).cur = s.cur := rfl
@[simp] theorem State.modBlock_me (s : State) (b : Nat) (f : Block → Block) : (s.modBlock b f).me = s.me := rfl
@[simp] theorem State.modBlock_iss (s : State) (b : Nat) (f : Block → Block) : (s.modBlock b f).iss = s.iss := rfl
@[simp] theorem State.modBlock_agenda (s : State) (b : Nat) (f : Block → Block) : (s.modBlock b f).agenda = s.agenda := rfl
@[simp] theorem State.modBlock_prompt (s : State) (b : Nat) (f : Block → Block) : (s.modBlock b f).prompt = s.prompt := rfl
@[simp] theorem State.modBlock_freeCtr (s : State) (b : Nat) (f : Block → Block) : (s.modBlock b f).freeCtr = s.freeCtr := rfl
@[simp] theorem State.modBlock_strands (s : State) (b : Nat) (f : Block → Block) : (s.modBlock b f).strands = s.strands := rfl
@[simp] theorem State.modBlock_cores (s : State) (b : Nat) (f : Block → Block) : (s.modBlock b f).cores = s.cores := rfl
@[simp] theorem State.modBlock_tiles (s : State) (b : Nat) (f : Block → Block) : (s.modBlock b f).tiles = s.tiles := rfl
@[simp] theorem State.modBlock_rows (s : State) (b : Nat) (f : Block → Block) : (s.modBlock b f).rows = s.rows := rfl
@[simp] theorem State.modBlock_blocks (s : State) (b : Nat) (f : Block → Block) : (s.modBlock b f).blocks = Tab.set s.blocks b (f (s.blockRec b)) := rfl
@[simp] theorem State.modBlock_dies (s : State) (b : Nat) (f : Block → Block) : (s.modBlock b f).dies = s.dies := rfl
@[simp] theorem State.modBlock_parts (s : State) (b : Nat) (f : Block → Block) : (s.modBlock b f).parts = s.parts := rfl
@[simp] theorem State.modBlock_mem (s : State) (b : Nat) (f : Block → Block) : (s.modBlock b f).mem = s.mem := rfl
@[simp] theorem State.modBlock_poison (s : State) (b : Nat) (f : Block → Block) : (s.modBlock b f).poison = s.poison := rfl
@[simp] theorem State.modBlock_upsets (s : State) (b : Nat) (f : Block → Block) : (s.modBlock b f).upsets = s.upsets := rfl
@[simp] theorem State.modBlock_exact (s : State) (b : Nat) (f : Block → Block) : (s.modBlock b f).exact = s.exact := rfl
@[simp] theorem State.modBlock_relTags (s : State) (b : Nat) (f : Block → Block) : (s.modBlock b f).relTags = s.relTags := rfl
@[simp] theorem State.modBlock_net (s : State) (b : Nat) (f : Block → Block) : (s.modBlock b f).net = s.net := rfl
@[simp] theorem State.modBlock_gangs (s : State) (b : Nat) (f : Block → Block) : (s.modBlock b f).gangs = s.gangs := rfl
@[simp] theorem State.modBlock_phasers (s : State) (b : Nat) (f : Block → Block) : (s.modBlock b f).phasers = s.phasers := rfl
@[simp] theorem State.modBlock_members (s : State) (b : Nat) (f : Block → Block) : (s.modBlock b f).members = s.members := rfl
@[simp] theorem State.modBlock_rings (s : State) (b : Nat) (f : Block → Block) : (s.modBlock b f).rings = s.rings := rfl
@[simp] theorem State.modBlock_streams (s : State) (b : Nat) (f : Block → Block) : (s.modBlock b f).streams = s.streams := rfl
@[simp] theorem State.modBlock_weaves (s : State) (b : Nat) (f : Block → Block) : (s.modBlock b f).weaves = s.weaves := rfl
@[simp] theorem State.modBlock_saves (s : State) (b : Nat) (f : Block → Block) : (s.modBlock b f).saves = s.saves := rfl
@[simp] theorem State.modBlock_nextWid (s : State) (b : Nat) (f : Block → Block) : (s.modBlock b f).nextWid = s.nextWid := rfl
@[simp] theorem State.modBlock_order (s : State) (b : Nat) (f : Block → Block) : (s.modBlock b f).order = s.order := rfl
@[simp] theorem State.modBlock_host (s : State) (b : Nat) (f : Block → Block) : (s.modBlock b f).host = s.host := rfl
@[simp] theorem State.modBlock_points (s : State) (b : Nat) (f : Block → Block) : (s.modBlock b f).points = s.points := rfl
@[simp] theorem State.modBlock_pointMoves (s : State) (b : Nat) (f : Block → Block) : (s.modBlock b f).pointMoves = s.pointMoves := rfl
@[simp] theorem State.modBlock_failed (s : State) (b : Nat) (f : Block → Block) : (s.modBlock b f).failed = s.failed := rfl
@[simp] theorem State.modBlock_slots (s : State) (b : Nat) (f : Block → Block) : (s.modBlock b f).slots = s.slots := rfl
@[simp] theorem State.modBlock_sent (s : State) (b : Nat) (f : Block → Block) : (s.modBlock b f).sent = s.sent := rfl
@[simp] theorem State.modBlock_framesIn (s : State) (b : Nat) (f : Block → Block) : (s.modBlock b f).framesIn = s.framesIn := rfl

/-! ### State.modDie -/

@[simp] theorem State.modDie_cur (s : State) (d : Nat) (f : Die → Die) : (s.modDie d f).cur = s.cur := rfl
@[simp] theorem State.modDie_me (s : State) (d : Nat) (f : Die → Die) : (s.modDie d f).me = s.me := rfl
@[simp] theorem State.modDie_iss (s : State) (d : Nat) (f : Die → Die) : (s.modDie d f).iss = s.iss := rfl
@[simp] theorem State.modDie_agenda (s : State) (d : Nat) (f : Die → Die) : (s.modDie d f).agenda = s.agenda := rfl
@[simp] theorem State.modDie_prompt (s : State) (d : Nat) (f : Die → Die) : (s.modDie d f).prompt = s.prompt := rfl
@[simp] theorem State.modDie_freeCtr (s : State) (d : Nat) (f : Die → Die) : (s.modDie d f).freeCtr = s.freeCtr := rfl
@[simp] theorem State.modDie_strands (s : State) (d : Nat) (f : Die → Die) : (s.modDie d f).strands = s.strands := rfl
@[simp] theorem State.modDie_cores (s : State) (d : Nat) (f : Die → Die) : (s.modDie d f).cores = s.cores := rfl
@[simp] theorem State.modDie_tiles (s : State) (d : Nat) (f : Die → Die) : (s.modDie d f).tiles = s.tiles := rfl
@[simp] theorem State.modDie_rows (s : State) (d : Nat) (f : Die → Die) : (s.modDie d f).rows = s.rows := rfl
@[simp] theorem State.modDie_blocks (s : State) (d : Nat) (f : Die → Die) : (s.modDie d f).blocks = s.blocks := rfl
@[simp] theorem State.modDie_dies (s : State) (d : Nat) (f : Die → Die) : (s.modDie d f).dies = Tab.set s.dies d (f (s.dieRec d)) := rfl
@[simp] theorem State.modDie_parts (s : State) (d : Nat) (f : Die → Die) : (s.modDie d f).parts = s.parts := rfl
@[simp] theorem State.modDie_mem (s : State) (d : Nat) (f : Die → Die) : (s.modDie d f).mem = s.mem := rfl
@[simp] theorem State.modDie_poison (s : State) (d : Nat) (f : Die → Die) : (s.modDie d f).poison = s.poison := rfl
@[simp] theorem State.modDie_upsets (s : State) (d : Nat) (f : Die → Die) : (s.modDie d f).upsets = s.upsets := rfl
@[simp] theorem State.modDie_exact (s : State) (d : Nat) (f : Die → Die) : (s.modDie d f).exact = s.exact := rfl
@[simp] theorem State.modDie_relTags (s : State) (d : Nat) (f : Die → Die) : (s.modDie d f).relTags = s.relTags := rfl
@[simp] theorem State.modDie_net (s : State) (d : Nat) (f : Die → Die) : (s.modDie d f).net = s.net := rfl
@[simp] theorem State.modDie_gangs (s : State) (d : Nat) (f : Die → Die) : (s.modDie d f).gangs = s.gangs := rfl
@[simp] theorem State.modDie_phasers (s : State) (d : Nat) (f : Die → Die) : (s.modDie d f).phasers = s.phasers := rfl
@[simp] theorem State.modDie_members (s : State) (d : Nat) (f : Die → Die) : (s.modDie d f).members = s.members := rfl
@[simp] theorem State.modDie_rings (s : State) (d : Nat) (f : Die → Die) : (s.modDie d f).rings = s.rings := rfl
@[simp] theorem State.modDie_streams (s : State) (d : Nat) (f : Die → Die) : (s.modDie d f).streams = s.streams := rfl
@[simp] theorem State.modDie_weaves (s : State) (d : Nat) (f : Die → Die) : (s.modDie d f).weaves = s.weaves := rfl
@[simp] theorem State.modDie_saves (s : State) (d : Nat) (f : Die → Die) : (s.modDie d f).saves = s.saves := rfl
@[simp] theorem State.modDie_nextWid (s : State) (d : Nat) (f : Die → Die) : (s.modDie d f).nextWid = s.nextWid := rfl
@[simp] theorem State.modDie_order (s : State) (d : Nat) (f : Die → Die) : (s.modDie d f).order = s.order := rfl
@[simp] theorem State.modDie_host (s : State) (d : Nat) (f : Die → Die) : (s.modDie d f).host = s.host := rfl
@[simp] theorem State.modDie_points (s : State) (d : Nat) (f : Die → Die) : (s.modDie d f).points = s.points := rfl
@[simp] theorem State.modDie_pointMoves (s : State) (d : Nat) (f : Die → Die) : (s.modDie d f).pointMoves = s.pointMoves := rfl
@[simp] theorem State.modDie_failed (s : State) (d : Nat) (f : Die → Die) : (s.modDie d f).failed = s.failed := rfl
@[simp] theorem State.modDie_slots (s : State) (d : Nat) (f : Die → Die) : (s.modDie d f).slots = s.slots := rfl
@[simp] theorem State.modDie_sent (s : State) (d : Nat) (f : Die → Die) : (s.modDie d f).sent = s.sent := rfl
@[simp] theorem State.modDie_framesIn (s : State) (d : Nat) (f : Die → Die) : (s.modDie d f).framesIn = s.framesIn := rfl

/-! ### State.modPart -/

@[simp] theorem State.modPart_cur (s : State) (p : Nat) (f : Part → Part) : (s.modPart p f).cur = s.cur := rfl
@[simp] theorem State.modPart_me (s : State) (p : Nat) (f : Part → Part) : (s.modPart p f).me = s.me := rfl
@[simp] theorem State.modPart_iss (s : State) (p : Nat) (f : Part → Part) : (s.modPart p f).iss = s.iss := rfl
@[simp] theorem State.modPart_agenda (s : State) (p : Nat) (f : Part → Part) : (s.modPart p f).agenda = s.agenda := rfl
@[simp] theorem State.modPart_prompt (s : State) (p : Nat) (f : Part → Part) : (s.modPart p f).prompt = s.prompt := rfl
@[simp] theorem State.modPart_freeCtr (s : State) (p : Nat) (f : Part → Part) : (s.modPart p f).freeCtr = s.freeCtr := rfl
@[simp] theorem State.modPart_strands (s : State) (p : Nat) (f : Part → Part) : (s.modPart p f).strands = s.strands := rfl
@[simp] theorem State.modPart_cores (s : State) (p : Nat) (f : Part → Part) : (s.modPart p f).cores = s.cores := rfl
@[simp] theorem State.modPart_tiles (s : State) (p : Nat) (f : Part → Part) : (s.modPart p f).tiles = s.tiles := rfl
@[simp] theorem State.modPart_rows (s : State) (p : Nat) (f : Part → Part) : (s.modPart p f).rows = s.rows := rfl
@[simp] theorem State.modPart_blocks (s : State) (p : Nat) (f : Part → Part) : (s.modPart p f).blocks = s.blocks := rfl
@[simp] theorem State.modPart_dies (s : State) (p : Nat) (f : Part → Part) : (s.modPart p f).dies = s.dies := rfl
@[simp] theorem State.modPart_parts (s : State) (p : Nat) (f : Part → Part) : (s.modPart p f).parts = Tab.set s.parts p (f (s.partRec p)) := rfl
@[simp] theorem State.modPart_mem (s : State) (p : Nat) (f : Part → Part) : (s.modPart p f).mem = s.mem := rfl
@[simp] theorem State.modPart_poison (s : State) (p : Nat) (f : Part → Part) : (s.modPart p f).poison = s.poison := rfl
@[simp] theorem State.modPart_upsets (s : State) (p : Nat) (f : Part → Part) : (s.modPart p f).upsets = s.upsets := rfl
@[simp] theorem State.modPart_exact (s : State) (p : Nat) (f : Part → Part) : (s.modPart p f).exact = s.exact := rfl
@[simp] theorem State.modPart_relTags (s : State) (p : Nat) (f : Part → Part) : (s.modPart p f).relTags = s.relTags := rfl
@[simp] theorem State.modPart_net (s : State) (p : Nat) (f : Part → Part) : (s.modPart p f).net = s.net := rfl
@[simp] theorem State.modPart_gangs (s : State) (p : Nat) (f : Part → Part) : (s.modPart p f).gangs = s.gangs := rfl
@[simp] theorem State.modPart_phasers (s : State) (p : Nat) (f : Part → Part) : (s.modPart p f).phasers = s.phasers := rfl
@[simp] theorem State.modPart_members (s : State) (p : Nat) (f : Part → Part) : (s.modPart p f).members = s.members := rfl
@[simp] theorem State.modPart_rings (s : State) (p : Nat) (f : Part → Part) : (s.modPart p f).rings = s.rings := rfl
@[simp] theorem State.modPart_streams (s : State) (p : Nat) (f : Part → Part) : (s.modPart p f).streams = s.streams := rfl
@[simp] theorem State.modPart_weaves (s : State) (p : Nat) (f : Part → Part) : (s.modPart p f).weaves = s.weaves := rfl
@[simp] theorem State.modPart_saves (s : State) (p : Nat) (f : Part → Part) : (s.modPart p f).saves = s.saves := rfl
@[simp] theorem State.modPart_nextWid (s : State) (p : Nat) (f : Part → Part) : (s.modPart p f).nextWid = s.nextWid := rfl
@[simp] theorem State.modPart_order (s : State) (p : Nat) (f : Part → Part) : (s.modPart p f).order = s.order := rfl
@[simp] theorem State.modPart_host (s : State) (p : Nat) (f : Part → Part) : (s.modPart p f).host = s.host := rfl
@[simp] theorem State.modPart_points (s : State) (p : Nat) (f : Part → Part) : (s.modPart p f).points = s.points := rfl
@[simp] theorem State.modPart_pointMoves (s : State) (p : Nat) (f : Part → Part) : (s.modPart p f).pointMoves = s.pointMoves := rfl
@[simp] theorem State.modPart_failed (s : State) (p : Nat) (f : Part → Part) : (s.modPart p f).failed = s.failed := rfl
@[simp] theorem State.modPart_slots (s : State) (p : Nat) (f : Part → Part) : (s.modPart p f).slots = s.slots := rfl
@[simp] theorem State.modPart_sent (s : State) (p : Nat) (f : Part → Part) : (s.modPart p f).sent = s.sent := rfl
@[simp] theorem State.modPart_framesIn (s : State) (p : Nat) (f : Part → Part) : (s.modPart p f).framesIn = s.framesIn := rfl

/-! ### State.modNet -/

@[simp] theorem State.modNet_cur (s : State) (f : Net → Net) : (s.modNet f).cur = s.cur := rfl
@[simp] theorem State.modNet_me (s : State) (f : Net → Net) : (s.modNet f).me = s.me := rfl
@[simp] theorem State.modNet_iss (s : State) (f : Net → Net) : (s.modNet f).iss = s.iss := rfl
@[simp] theorem State.modNet_agenda (s : State) (f : Net → Net) : (s.modNet f).agenda = s.agenda := rfl
@[simp] theorem State.modNet_prompt (s : State) (f : Net → Net) : (s.modNet f).prompt = s.prompt := rfl
@[simp] theorem State.modNet_freeCtr (s : State) (f : Net → Net) : (s.modNet f).freeCtr = s.freeCtr := rfl
@[simp] theorem State.modNet_strands (s : State) (f : Net → Net) : (s.modNet f).strands = s.strands := rfl
@[simp] theorem State.modNet_cores (s : State) (f : Net → Net) : (s.modNet f).cores = s.cores := rfl
@[simp] theorem State.modNet_tiles (s : State) (f : Net → Net) : (s.modNet f).tiles = s.tiles := rfl
@[simp] theorem State.modNet_rows (s : State) (f : Net → Net) : (s.modNet f).rows = s.rows := rfl
@[simp] theorem State.modNet_blocks (s : State) (f : Net → Net) : (s.modNet f).blocks = s.blocks := rfl
@[simp] theorem State.modNet_dies (s : State) (f : Net → Net) : (s.modNet f).dies = s.dies := rfl
@[simp] theorem State.modNet_parts (s : State) (f : Net → Net) : (s.modNet f).parts = s.parts := rfl
@[simp] theorem State.modNet_mem (s : State) (f : Net → Net) : (s.modNet f).mem = s.mem := rfl
@[simp] theorem State.modNet_poison (s : State) (f : Net → Net) : (s.modNet f).poison = s.poison := rfl
@[simp] theorem State.modNet_upsets (s : State) (f : Net → Net) : (s.modNet f).upsets = s.upsets := rfl
@[simp] theorem State.modNet_exact (s : State) (f : Net → Net) : (s.modNet f).exact = s.exact := rfl
@[simp] theorem State.modNet_relTags (s : State) (f : Net → Net) : (s.modNet f).relTags = s.relTags := rfl
@[simp] theorem State.modNet_net (s : State) (f : Net → Net) : (s.modNet f).net = f s.net := rfl
@[simp] theorem State.modNet_gangs (s : State) (f : Net → Net) : (s.modNet f).gangs = s.gangs := rfl
@[simp] theorem State.modNet_phasers (s : State) (f : Net → Net) : (s.modNet f).phasers = s.phasers := rfl
@[simp] theorem State.modNet_members (s : State) (f : Net → Net) : (s.modNet f).members = s.members := rfl
@[simp] theorem State.modNet_rings (s : State) (f : Net → Net) : (s.modNet f).rings = s.rings := rfl
@[simp] theorem State.modNet_streams (s : State) (f : Net → Net) : (s.modNet f).streams = s.streams := rfl
@[simp] theorem State.modNet_weaves (s : State) (f : Net → Net) : (s.modNet f).weaves = s.weaves := rfl
@[simp] theorem State.modNet_saves (s : State) (f : Net → Net) : (s.modNet f).saves = s.saves := rfl
@[simp] theorem State.modNet_nextWid (s : State) (f : Net → Net) : (s.modNet f).nextWid = s.nextWid := rfl
@[simp] theorem State.modNet_order (s : State) (f : Net → Net) : (s.modNet f).order = s.order := rfl
@[simp] theorem State.modNet_host (s : State) (f : Net → Net) : (s.modNet f).host = s.host := rfl
@[simp] theorem State.modNet_points (s : State) (f : Net → Net) : (s.modNet f).points = s.points := rfl
@[simp] theorem State.modNet_pointMoves (s : State) (f : Net → Net) : (s.modNet f).pointMoves = s.pointMoves := rfl
@[simp] theorem State.modNet_failed (s : State) (f : Net → Net) : (s.modNet f).failed = s.failed := rfl
@[simp] theorem State.modNet_slots (s : State) (f : Net → Net) : (s.modNet f).slots = s.slots := rfl
@[simp] theorem State.modNet_sent (s : State) (f : Net → Net) : (s.modNet f).sent = s.sent := rfl
@[simp] theorem State.modNet_framesIn (s : State) (f : Net → Net) : (s.modNet f).framesIn = s.framesIn := rfl

/-! ### State.setWeave -/

@[simp] theorem State.setWeave_cur (s : State) (w : Weave) : (s.setWeave w).cur = s.cur := rfl
@[simp] theorem State.setWeave_me (s : State) (w : Weave) : (s.setWeave w).me = s.me := rfl
@[simp] theorem State.setWeave_iss (s : State) (w : Weave) : (s.setWeave w).iss = s.iss := rfl
@[simp] theorem State.setWeave_agenda (s : State) (w : Weave) : (s.setWeave w).agenda = s.agenda := rfl
@[simp] theorem State.setWeave_prompt (s : State) (w : Weave) : (s.setWeave w).prompt = s.prompt := rfl
@[simp] theorem State.setWeave_freeCtr (s : State) (w : Weave) : (s.setWeave w).freeCtr = s.freeCtr := rfl
@[simp] theorem State.setWeave_strands (s : State) (w : Weave) : (s.setWeave w).strands = s.strands := rfl
@[simp] theorem State.setWeave_cores (s : State) (w : Weave) : (s.setWeave w).cores = s.cores := rfl
@[simp] theorem State.setWeave_tiles (s : State) (w : Weave) : (s.setWeave w).tiles = s.tiles := rfl
@[simp] theorem State.setWeave_rows (s : State) (w : Weave) : (s.setWeave w).rows = s.rows := rfl
@[simp] theorem State.setWeave_blocks (s : State) (w : Weave) : (s.setWeave w).blocks = s.blocks := rfl
@[simp] theorem State.setWeave_dies (s : State) (w : Weave) : (s.setWeave w).dies = s.dies := rfl
@[simp] theorem State.setWeave_parts (s : State) (w : Weave) : (s.setWeave w).parts = s.parts := rfl
@[simp] theorem State.setWeave_mem (s : State) (w : Weave) : (s.setWeave w).mem = s.mem := rfl
@[simp] theorem State.setWeave_poison (s : State) (w : Weave) : (s.setWeave w).poison = s.poison := rfl
@[simp] theorem State.setWeave_upsets (s : State) (w : Weave) : (s.setWeave w).upsets = s.upsets := rfl
@[simp] theorem State.setWeave_exact (s : State) (w : Weave) : (s.setWeave w).exact = s.exact := rfl
@[simp] theorem State.setWeave_relTags (s : State) (w : Weave) : (s.setWeave w).relTags = s.relTags := rfl
@[simp] theorem State.setWeave_net (s : State) (w : Weave) : (s.setWeave w).net = s.net := rfl
@[simp] theorem State.setWeave_gangs (s : State) (w : Weave) : (s.setWeave w).gangs = s.gangs := rfl
@[simp] theorem State.setWeave_phasers (s : State) (w : Weave) : (s.setWeave w).phasers = s.phasers := rfl
@[simp] theorem State.setWeave_members (s : State) (w : Weave) : (s.setWeave w).members = s.members := rfl
@[simp] theorem State.setWeave_rings (s : State) (w : Weave) : (s.setWeave w).rings = s.rings := rfl
@[simp] theorem State.setWeave_streams (s : State) (w : Weave) : (s.setWeave w).streams = s.streams := rfl
@[simp] theorem State.setWeave_saves (s : State) (w : Weave) : (s.setWeave w).saves = s.saves := rfl
@[simp] theorem State.setWeave_nextWid (s : State) (w : Weave) : (s.setWeave w).nextWid = s.nextWid := rfl
@[simp] theorem State.setWeave_order (s : State) (w : Weave) : (s.setWeave w).order = s.order := rfl
@[simp] theorem State.setWeave_host (s : State) (w : Weave) : (s.setWeave w).host = s.host := rfl
@[simp] theorem State.setWeave_points (s : State) (w : Weave) : (s.setWeave w).points = s.points := rfl
@[simp] theorem State.setWeave_pointMoves (s : State) (w : Weave) : (s.setWeave w).pointMoves = s.pointMoves := rfl
@[simp] theorem State.setWeave_failed (s : State) (w : Weave) : (s.setWeave w).failed = s.failed := rfl
@[simp] theorem State.setWeave_slots (s : State) (w : Weave) : (s.setWeave w).slots = s.slots := rfl
@[simp] theorem State.setWeave_sent (s : State) (w : Weave) : (s.setWeave w).sent = s.sent := rfl
@[simp] theorem State.setWeave_framesIn (s : State) (w : Weave) : (s.setWeave w).framesIn = s.framesIn := rfl

/-! ### Other strands -/

@[simp] theorem State.setStrand_cur (s : State) (k : StrandIx) (x : Strand) : (s.setStrand k x).cur = s.cur := by
  unfold State.setStrand; split <;> rfl
@[simp] theorem State.modStrand_cur (s : State) (k : StrandIx) (f : Strand → Strand) :
    (s.modStrand k f).cur = s.cur := State.setStrand_cur s k _
@[simp] theorem State.setStrand_iss (s : State) (k : StrandIx) (x : Strand) : (s.setStrand k x).iss = s.iss := by
  unfold State.setStrand; split <;> rfl
@[simp] theorem State.modStrand_iss (s : State) (k : StrandIx) (f : Strand → Strand) :
    (s.modStrand k f).iss = s.iss := State.setStrand_iss s k _
@[simp] theorem State.setStrand_agenda (s : State) (k : StrandIx) (x : Strand) : (s.setStrand k x).agenda = s.agenda := by
  unfold State.setStrand; split <;> rfl
@[simp] theorem State.modStrand_agenda (s : State) (k : StrandIx) (f : Strand → Strand) :
    (s.modStrand k f).agenda = s.agenda := State.setStrand_agenda s k _
@[simp] theorem State.setStrand_prompt (s : State) (k : StrandIx) (x : Strand) : (s.setStrand k x).prompt = s.prompt := by
  unfold State.setStrand; split <;> rfl
@[simp] theorem State.modStrand_prompt (s : State) (k : StrandIx) (f : Strand → Strand) :
    (s.modStrand k f).prompt = s.prompt := State.setStrand_prompt s k _
@[simp] theorem State.setStrand_freeCtr (s : State) (k : StrandIx) (x : Strand) : (s.setStrand k x).freeCtr = s.freeCtr := by
  unfold State.setStrand; split <;> rfl
@[simp] theorem State.modStrand_freeCtr (s : State) (k : StrandIx) (f : Strand → Strand) :
    (s.modStrand k f).freeCtr = s.freeCtr := State.setStrand_freeCtr s k _
@[simp] theorem State.setStrand_cores (s : State) (k : StrandIx) (x : Strand) : (s.setStrand k x).cores = s.cores := by
  unfold State.setStrand; split <;> rfl
@[simp] theorem State.modStrand_cores (s : State) (k : StrandIx) (f : Strand → Strand) :
    (s.modStrand k f).cores = s.cores := State.setStrand_cores s k _
@[simp] theorem State.setStrand_tiles (s : State) (k : StrandIx) (x : Strand) : (s.setStrand k x).tiles = s.tiles := by
  unfold State.setStrand; split <;> rfl
@[simp] theorem State.modStrand_tiles (s : State) (k : StrandIx) (f : Strand → Strand) :
    (s.modStrand k f).tiles = s.tiles := State.setStrand_tiles s k _
@[simp] theorem State.setStrand_rows (s : State) (k : StrandIx) (x : Strand) : (s.setStrand k x).rows = s.rows := by
  unfold State.setStrand; split <;> rfl
@[simp] theorem State.modStrand_rows (s : State) (k : StrandIx) (f : Strand → Strand) :
    (s.modStrand k f).rows = s.rows := State.setStrand_rows s k _
@[simp] theorem State.setStrand_blocks (s : State) (k : StrandIx) (x : Strand) : (s.setStrand k x).blocks = s.blocks := by
  unfold State.setStrand; split <;> rfl
@[simp] theorem State.modStrand_blocks (s : State) (k : StrandIx) (f : Strand → Strand) :
    (s.modStrand k f).blocks = s.blocks := State.setStrand_blocks s k _
@[simp] theorem State.setStrand_dies (s : State) (k : StrandIx) (x : Strand) : (s.setStrand k x).dies = s.dies := by
  unfold State.setStrand; split <;> rfl
@[simp] theorem State.modStrand_dies (s : State) (k : StrandIx) (f : Strand → Strand) :
    (s.modStrand k f).dies = s.dies := State.setStrand_dies s k _
@[simp] theorem State.setStrand_parts (s : State) (k : StrandIx) (x : Strand) : (s.setStrand k x).parts = s.parts := by
  unfold State.setStrand; split <;> rfl
@[simp] theorem State.modStrand_parts (s : State) (k : StrandIx) (f : Strand → Strand) :
    (s.modStrand k f).parts = s.parts := State.setStrand_parts s k _
@[simp] theorem State.setStrand_mem (s : State) (k : StrandIx) (x : Strand) : (s.setStrand k x).mem = s.mem := by
  unfold State.setStrand; split <;> rfl
@[simp] theorem State.modStrand_mem (s : State) (k : StrandIx) (f : Strand → Strand) :
    (s.modStrand k f).mem = s.mem := State.setStrand_mem s k _
@[simp] theorem State.setStrand_poison (s : State) (k : StrandIx) (x : Strand) : (s.setStrand k x).poison = s.poison := by
  unfold State.setStrand; split <;> rfl
@[simp] theorem State.modStrand_poison (s : State) (k : StrandIx) (f : Strand → Strand) :
    (s.modStrand k f).poison = s.poison := State.setStrand_poison s k _
@[simp] theorem State.setStrand_upsets (s : State) (k : StrandIx) (x : Strand) : (s.setStrand k x).upsets = s.upsets := by
  unfold State.setStrand; split <;> rfl
@[simp] theorem State.modStrand_upsets (s : State) (k : StrandIx) (f : Strand → Strand) :
    (s.modStrand k f).upsets = s.upsets := State.setStrand_upsets s k _
@[simp] theorem State.setStrand_exact (s : State) (k : StrandIx) (x : Strand) : (s.setStrand k x).exact = s.exact := by
  unfold State.setStrand; split <;> rfl
@[simp] theorem State.modStrand_exact (s : State) (k : StrandIx) (f : Strand → Strand) :
    (s.modStrand k f).exact = s.exact := State.setStrand_exact s k _
@[simp] theorem State.setStrand_relTags (s : State) (k : StrandIx) (x : Strand) : (s.setStrand k x).relTags = s.relTags := by
  unfold State.setStrand; split <;> rfl
@[simp] theorem State.modStrand_relTags (s : State) (k : StrandIx) (f : Strand → Strand) :
    (s.modStrand k f).relTags = s.relTags := State.setStrand_relTags s k _
@[simp] theorem State.setStrand_net (s : State) (k : StrandIx) (x : Strand) : (s.setStrand k x).net = s.net := by
  unfold State.setStrand; split <;> rfl
@[simp] theorem State.modStrand_net (s : State) (k : StrandIx) (f : Strand → Strand) :
    (s.modStrand k f).net = s.net := State.setStrand_net s k _
@[simp] theorem State.setStrand_gangs (s : State) (k : StrandIx) (x : Strand) : (s.setStrand k x).gangs = s.gangs := by
  unfold State.setStrand; split <;> rfl
@[simp] theorem State.modStrand_gangs (s : State) (k : StrandIx) (f : Strand → Strand) :
    (s.modStrand k f).gangs = s.gangs := State.setStrand_gangs s k _
@[simp] theorem State.setStrand_phasers (s : State) (k : StrandIx) (x : Strand) : (s.setStrand k x).phasers = s.phasers := by
  unfold State.setStrand; split <;> rfl
@[simp] theorem State.modStrand_phasers (s : State) (k : StrandIx) (f : Strand → Strand) :
    (s.modStrand k f).phasers = s.phasers := State.setStrand_phasers s k _
@[simp] theorem State.setStrand_members (s : State) (k : StrandIx) (x : Strand) : (s.setStrand k x).members = s.members := by
  unfold State.setStrand; split <;> rfl
@[simp] theorem State.modStrand_members (s : State) (k : StrandIx) (f : Strand → Strand) :
    (s.modStrand k f).members = s.members := State.setStrand_members s k _
@[simp] theorem State.setStrand_rings (s : State) (k : StrandIx) (x : Strand) : (s.setStrand k x).rings = s.rings := by
  unfold State.setStrand; split <;> rfl
@[simp] theorem State.modStrand_rings (s : State) (k : StrandIx) (f : Strand → Strand) :
    (s.modStrand k f).rings = s.rings := State.setStrand_rings s k _
@[simp] theorem State.setStrand_streams (s : State) (k : StrandIx) (x : Strand) : (s.setStrand k x).streams = s.streams := by
  unfold State.setStrand; split <;> rfl
@[simp] theorem State.modStrand_streams (s : State) (k : StrandIx) (f : Strand → Strand) :
    (s.modStrand k f).streams = s.streams := State.setStrand_streams s k _
@[simp] theorem State.setStrand_weaves (s : State) (k : StrandIx) (x : Strand) : (s.setStrand k x).weaves = s.weaves := by
  unfold State.setStrand; split <;> rfl
@[simp] theorem State.modStrand_weaves (s : State) (k : StrandIx) (f : Strand → Strand) :
    (s.modStrand k f).weaves = s.weaves := State.setStrand_weaves s k _
@[simp] theorem State.setStrand_saves (s : State) (k : StrandIx) (x : Strand) : (s.setStrand k x).saves = s.saves := by
  unfold State.setStrand; split <;> rfl
@[simp] theorem State.modStrand_saves (s : State) (k : StrandIx) (f : Strand → Strand) :
    (s.modStrand k f).saves = s.saves := State.setStrand_saves s k _
@[simp] theorem State.setStrand_nextWid (s : State) (k : StrandIx) (x : Strand) : (s.setStrand k x).nextWid = s.nextWid := by
  unfold State.setStrand; split <;> rfl
@[simp] theorem State.modStrand_nextWid (s : State) (k : StrandIx) (f : Strand → Strand) :
    (s.modStrand k f).nextWid = s.nextWid := State.setStrand_nextWid s k _
@[simp] theorem State.setStrand_order (s : State) (k : StrandIx) (x : Strand) : (s.setStrand k x).order = s.order := by
  unfold State.setStrand; split <;> rfl
@[simp] theorem State.modStrand_order (s : State) (k : StrandIx) (f : Strand → Strand) :
    (s.modStrand k f).order = s.order := State.setStrand_order s k _
@[simp] theorem State.setStrand_host (s : State) (k : StrandIx) (x : Strand) : (s.setStrand k x).host = s.host := by
  unfold State.setStrand; split <;> rfl
@[simp] theorem State.modStrand_host (s : State) (k : StrandIx) (f : Strand → Strand) :
    (s.modStrand k f).host = s.host := State.setStrand_host s k _
@[simp] theorem State.setStrand_points (s : State) (k : StrandIx) (x : Strand) : (s.setStrand k x).points = s.points := by
  unfold State.setStrand; split <;> rfl
@[simp] theorem State.modStrand_points (s : State) (k : StrandIx) (f : Strand → Strand) :
    (s.modStrand k f).points = s.points := State.setStrand_points s k _
@[simp] theorem State.setStrand_pointMoves (s : State) (k : StrandIx) (x : Strand) : (s.setStrand k x).pointMoves = s.pointMoves := by
  unfold State.setStrand; split <;> rfl
@[simp] theorem State.modStrand_pointMoves (s : State) (k : StrandIx) (f : Strand → Strand) :
    (s.modStrand k f).pointMoves = s.pointMoves := State.setStrand_pointMoves s k _
@[simp] theorem State.setStrand_failed (s : State) (k : StrandIx) (x : Strand) : (s.setStrand k x).failed = s.failed := by
  unfold State.setStrand; split <;> rfl
@[simp] theorem State.modStrand_failed (s : State) (k : StrandIx) (f : Strand → Strand) :
    (s.modStrand k f).failed = s.failed := State.setStrand_failed s k _
@[simp] theorem State.setStrand_slots (s : State) (k : StrandIx) (x : Strand) : (s.setStrand k x).slots = s.slots := by
  unfold State.setStrand; split <;> rfl
@[simp] theorem State.modStrand_slots (s : State) (k : StrandIx) (f : Strand → Strand) :
    (s.modStrand k f).slots = s.slots := State.setStrand_slots s k _
@[simp] theorem State.setStrand_sent (s : State) (k : StrandIx) (x : Strand) : (s.setStrand k x).sent = s.sent := by
  unfold State.setStrand; split <;> rfl
@[simp] theorem State.modStrand_sent (s : State) (k : StrandIx) (f : Strand → Strand) :
    (s.modStrand k f).sent = s.sent := State.setStrand_sent s k _
@[simp] theorem State.setStrand_framesIn (s : State) (k : StrandIx) (x : Strand) : (s.setStrand k x).framesIn = s.framesIn := by
  unfold State.setStrand; split <;> rfl
@[simp] theorem State.modStrand_framesIn (s : State) (k : StrandIx) (f : Strand → Strand) :
    (s.modStrand k f).framesIn = s.framesIn := State.setStrand_framesIn s k _

/-! ### Strand.writeV -/

@[simp] theorem Strand.writeV_live (x : Strand) (r : VReg) (w : VecReg) : (x.writeV r w).live = x.live := rfl
@[simp] theorem Strand.writeV_g (x : Strand) (r : VReg) (w : VecReg) : (x.writeV r w).g = x.g := rfl
@[simp] theorem Strand.writeV_p (x : Strand) (r : VReg) (w : VecReg) : (x.writeV r w).p = x.p := rfl
@[simp] theorem Strand.writeV_m (x : Strand) (r : VReg) (w : VecReg) : (x.writeV r w).m = x.m := rfl
@[simp] theorem Strand.writeV_q (x : Strand) (r : VReg) (w : VecReg) : (x.writeV r w).q = x.q := rfl
@[simp] theorem Strand.writeV_pc (x : Strand) (r : VReg) (w : VecReg) : (x.writeV r w).pc = x.pc := rfl
@[simp] theorem Strand.writeV_flags (x : Strand) (r : VReg) (w : VecReg) : (x.writeV r w).flags = x.flags := rfl
@[simp] theorem Strand.writeV_rmode (x : Strand) (r : VReg) (w : VecReg) : (x.writeV r w).rmode = x.rmode := rfl
@[simp] theorem Strand.writeV_lsctl (x : Strand) (r : VReg) (w : VecReg) : (x.writeV r w).lsctl = x.lsctl := rfl
@[simp] theorem Strand.writeV_tvec (x : Strand) (r : VReg) (w : VecReg) : (x.writeV r w).tvec = x.tvec := rfl
@[simp] theorem Strand.writeV_tpc (x : Strand) (r : VReg) (w : VecReg) : (x.writeV r w).tpc = x.tpc := rfl
@[simp] theorem Strand.writeV_tcause (x : Strand) (r : VReg) (w : VecReg) : (x.writeV r w).tcause = x.tcause := rfl
@[simp] theorem Strand.writeV_tval (x : Strand) (r : VReg) (w : VecReg) : (x.writeV r w).tval = x.tval := rfl
@[simp] theorem Strand.writeV_ttag (x : Strand) (r : VReg) (w : VecReg) : (x.writeV r w).ttag = x.ttag := rfl
@[simp] theorem Strand.writeV_stpc (x : Strand) (r : VReg) (w : VecReg) : (x.writeV r w).stpc = x.stpc := rfl
@[simp] theorem Strand.writeV_stcause (x : Strand) (r : VReg) (w : VecReg) : (x.writeV r w).stcause = x.stcause := rfl
@[simp] theorem Strand.writeV_stval (x : Strand) (r : VReg) (w : VecReg) : (x.writeV r w).stval = x.stval := rfl
@[simp] theorem Strand.writeV_sttag (x : Strand) (r : VReg) (w : VecReg) : (x.writeV r w).sttag = x.sttag := rfl
@[simp] theorem Strand.writeV_core (x : Strand) (r : VReg) (w : VecReg) : (x.writeV r w).core = x.core := rfl
@[simp] theorem Strand.writeV_weave (x : Strand) (r : VReg) (w : VecReg) : (x.writeV r w).weave = x.weave := rfl
@[simp] theorem Strand.writeV_seg (x : Strand) (r : VReg) (w : VecReg) : (x.writeV r w).seg = x.seg := rfl
@[simp] theorem Strand.writeV_trcnt (x : Strand) (r : VReg) (w : VecReg) : (x.writeV r w).trcnt = x.trcnt := rfl
@[simp] theorem Strand.writeV_entW (x : Strand) (r : VReg) (w : VecReg) : (x.writeV r w).entW = x.entW := rfl
@[simp] theorem Strand.writeV_entS (x : Strand) (r : VReg) (w : VecReg) : (x.writeV r w).entS = x.entS := rfl
@[simp] theorem Strand.writeV_ls (x : Strand) (r : VReg) (w : VecReg) : (x.writeV r w).ls = x.ls := rfl
@[simp] theorem Strand.writeV_epochs (x : Strand) (r : VReg) (w : VecReg) : (x.writeV r w).epochs = x.epochs := rfl
@[simp] theorem Strand.writeV_lastGen (x : Strand) (r : VReg) (w : VecReg) : (x.writeV r w).lastGen = x.lastGen := rfl
@[simp] theorem Strand.writeV_nextStamp (x : Strand) (r : VReg) (w : VecReg) : (x.writeV r w).nextStamp = x.nextStamp := rfl
@[simp] theorem Strand.writeV_stampCyc (x : Strand) (r : VReg) (w : VecReg) : (x.writeV r w).stampCyc = x.stampCyc := rfl
@[simp] theorem Strand.writeV_took (x : Strand) (r : VReg) (w : VecReg) : (x.writeV r w).took = x.took := rfl
@[simp] theorem Strand.writeV_counted (x : Strand) (r : VReg) (w : VecReg) : (x.writeV r w).counted = x.counted := rfl
@[simp] theorem Strand.writeV_nextPos (x : Strand) (r : VReg) (w : VecReg) : (x.writeV r w).nextPos = x.nextPos := rfl
@[simp] theorem Strand.writeV_sendq (x : Strand) (r : VReg) (w : VecReg) : (x.writeV r w).sendq = x.sendq := rfl
@[simp] theorem Strand.writeV_tr (x : Strand) (r : VReg) (w : VecReg) : (x.writeV r w).tr = x.tr := rfl
@[simp] theorem Strand.writeV_sclA (x : Strand) (r : VReg) (w : VecReg) : (x.writeV r w).sclA = x.sclA := rfl
@[simp] theorem Strand.writeV_sclB (x : Strand) (r : VReg) (w : VecReg) : (x.writeV r w).sclB = x.sclB := rfl
@[simp] theorem Strand.writeV_side (x : Strand) (r : VReg) (w : VecReg) : (x.writeV r w).side = x.side := rfl
@[simp] theorem Strand.writeV_owed (x : Strand) (r : VReg) (w : VecReg) : (x.writeV r w).owed = x.owed := rfl
@[simp] theorem Strand.writeV_htag (x : Strand) (r : VReg) (w : VecReg) : (x.writeV r w).htag = x.htag := rfl
@[simp] theorem Strand.writeV_desc (x : Strand) (r : VReg) (w : VecReg) : (x.writeV r w).desc = x.desc := rfl
@[simp] theorem Strand.writeV_loomErr (x : Strand) (r : VReg) (w : VecReg) : (x.writeV r w).loomErr = x.loomErr := rfl
@[simp] theorem Strand.writeV_loomFlags (x : Strand) (r : VReg) (w : VecReg) : (x.writeV r w).loomFlags = x.loomFlags := rfl
@[simp] theorem Strand.writeV_refetch (x : Strand) (r : VReg) (w : VecReg) : (x.writeV r w).refetch = x.refetch := rfl
@[simp] theorem Strand.writeV_stage (x : Strand) (r : VReg) (w : VecReg) : (x.writeV r w).stage = x.stage := rfl
@[simp] theorem Strand.writeV_issued (x : Strand) (r : VReg) (w : VecReg) : (x.writeV r w).issued = x.issued := rfl
@[simp] theorem Strand.writeV_half (x : Strand) (r : VReg) (w : VecReg) : (x.writeV r w).half = x.half := rfl
@[simp] theorem Strand.writeV_parked (x : Strand) (r : VReg) (w : VecReg) : (x.writeV r w).parked = x.parked := rfl
@[simp] theorem Strand.writeV_waiting (x : Strand) (r : VReg) (w : VecReg) : (x.writeV r w).waiting = x.waiting := rfl
@[simp] theorem Strand.writeV_waitSeq (x : Strand) (r : VReg) (w : VecReg) : (x.writeV r w).waitSeq = x.waitSeq := rfl
@[simp] theorem Strand.writeV_pend (x : Strand) (r : VReg) (w : VecReg) : (x.writeV r w).pend = x.pend := rfl
@[simp] theorem Strand.writeV_relFence (x : Strand) (r : VReg) (w : VecReg) : (x.writeV r w).relFence = x.relFence := rfl
@[simp] theorem Strand.writeV_readTags (x : Strand) (r : VReg) (w : VecReg) : (x.writeV r w).readTags = x.readTags := rfl
@[simp] theorem Strand.writeV_invs (x : Strand) (r : VReg) (w : VecReg) : (x.writeV r w).invs = x.invs := rfl
@[simp] theorem Strand.writeV_sysg (x : Strand) (r : VReg) (w : VecReg) : (x.writeV r w).sysg = x.sysg := rfl

/-! ### Strand.writeG -/

@[simp] theorem Strand.writeG_live (x : Strand) (r : GReg) (w : Word) : (x.writeG r w).live = x.live := by
  unfold Strand.writeG; split; (rfl); split <;> rfl
@[simp] theorem Strand.writeG_v (x : Strand) (r : GReg) (w : Word) : (x.writeG r w).v = x.v := by
  unfold Strand.writeG; split; (rfl); split <;> rfl
@[simp] theorem Strand.writeG_p (x : Strand) (r : GReg) (w : Word) : (x.writeG r w).p = x.p := by
  unfold Strand.writeG; split; (rfl); split <;> rfl
@[simp] theorem Strand.writeG_m (x : Strand) (r : GReg) (w : Word) : (x.writeG r w).m = x.m := by
  unfold Strand.writeG; split; (rfl); split <;> rfl
@[simp] theorem Strand.writeG_q (x : Strand) (r : GReg) (w : Word) : (x.writeG r w).q = x.q := by
  unfold Strand.writeG; split; (rfl); split <;> rfl
@[simp] theorem Strand.writeG_pc (x : Strand) (r : GReg) (w : Word) : (x.writeG r w).pc = x.pc := by
  unfold Strand.writeG; split; (rfl); split <;> rfl
@[simp] theorem Strand.writeG_flags (x : Strand) (r : GReg) (w : Word) : (x.writeG r w).flags = x.flags := by
  unfold Strand.writeG; split; (rfl); split <;> rfl
@[simp] theorem Strand.writeG_rmode (x : Strand) (r : GReg) (w : Word) : (x.writeG r w).rmode = x.rmode := by
  unfold Strand.writeG; split; (rfl); split <;> rfl
@[simp] theorem Strand.writeG_lsctl (x : Strand) (r : GReg) (w : Word) : (x.writeG r w).lsctl = x.lsctl := by
  unfold Strand.writeG; split; (rfl); split <;> rfl
@[simp] theorem Strand.writeG_tvec (x : Strand) (r : GReg) (w : Word) : (x.writeG r w).tvec = x.tvec := by
  unfold Strand.writeG; split; (rfl); split <;> rfl
@[simp] theorem Strand.writeG_tpc (x : Strand) (r : GReg) (w : Word) : (x.writeG r w).tpc = x.tpc := by
  unfold Strand.writeG; split; (rfl); split <;> rfl
@[simp] theorem Strand.writeG_tcause (x : Strand) (r : GReg) (w : Word) : (x.writeG r w).tcause = x.tcause := by
  unfold Strand.writeG; split; (rfl); split <;> rfl
@[simp] theorem Strand.writeG_tval (x : Strand) (r : GReg) (w : Word) : (x.writeG r w).tval = x.tval := by
  unfold Strand.writeG; split; (rfl); split <;> rfl
@[simp] theorem Strand.writeG_ttag (x : Strand) (r : GReg) (w : Word) : (x.writeG r w).ttag = x.ttag := by
  unfold Strand.writeG; split; (rfl); split <;> rfl
@[simp] theorem Strand.writeG_stpc (x : Strand) (r : GReg) (w : Word) : (x.writeG r w).stpc = x.stpc := by
  unfold Strand.writeG; split; (rfl); split <;> rfl
@[simp] theorem Strand.writeG_stcause (x : Strand) (r : GReg) (w : Word) : (x.writeG r w).stcause = x.stcause := by
  unfold Strand.writeG; split; (rfl); split <;> rfl
@[simp] theorem Strand.writeG_stval (x : Strand) (r : GReg) (w : Word) : (x.writeG r w).stval = x.stval := by
  unfold Strand.writeG; split; (rfl); split <;> rfl
@[simp] theorem Strand.writeG_sttag (x : Strand) (r : GReg) (w : Word) : (x.writeG r w).sttag = x.sttag := by
  unfold Strand.writeG; split; (rfl); split <;> rfl
@[simp] theorem Strand.writeG_core (x : Strand) (r : GReg) (w : Word) : (x.writeG r w).core = x.core := by
  unfold Strand.writeG; split; (rfl); split <;> rfl
@[simp] theorem Strand.writeG_weave (x : Strand) (r : GReg) (w : Word) : (x.writeG r w).weave = x.weave := by
  unfold Strand.writeG; split; (rfl); split <;> rfl
@[simp] theorem Strand.writeG_seg (x : Strand) (r : GReg) (w : Word) : (x.writeG r w).seg = x.seg := by
  unfold Strand.writeG; split; (rfl); split <;> rfl
@[simp] theorem Strand.writeG_trcnt (x : Strand) (r : GReg) (w : Word) : (x.writeG r w).trcnt = x.trcnt := by
  unfold Strand.writeG; split; (rfl); split <;> rfl
@[simp] theorem Strand.writeG_entW (x : Strand) (r : GReg) (w : Word) : (x.writeG r w).entW = x.entW := by
  unfold Strand.writeG; split; (rfl); split <;> rfl
@[simp] theorem Strand.writeG_entS (x : Strand) (r : GReg) (w : Word) : (x.writeG r w).entS = x.entS := by
  unfold Strand.writeG; split; (rfl); split <;> rfl
@[simp] theorem Strand.writeG_ls (x : Strand) (r : GReg) (w : Word) : (x.writeG r w).ls = x.ls := by
  unfold Strand.writeG; split; (rfl); split <;> rfl
@[simp] theorem Strand.writeG_epochs (x : Strand) (r : GReg) (w : Word) : (x.writeG r w).epochs = x.epochs := by
  unfold Strand.writeG; split; (rfl); split <;> rfl
@[simp] theorem Strand.writeG_lastGen (x : Strand) (r : GReg) (w : Word) : (x.writeG r w).lastGen = x.lastGen := by
  unfold Strand.writeG; split; (rfl); split <;> rfl
@[simp] theorem Strand.writeG_nextStamp (x : Strand) (r : GReg) (w : Word) : (x.writeG r w).nextStamp = x.nextStamp := by
  unfold Strand.writeG; split; (rfl); split <;> rfl
@[simp] theorem Strand.writeG_stampCyc (x : Strand) (r : GReg) (w : Word) : (x.writeG r w).stampCyc = x.stampCyc := by
  unfold Strand.writeG; split; (rfl); split <;> rfl
@[simp] theorem Strand.writeG_took (x : Strand) (r : GReg) (w : Word) : (x.writeG r w).took = x.took := by
  unfold Strand.writeG; split; (rfl); split <;> rfl
@[simp] theorem Strand.writeG_counted (x : Strand) (r : GReg) (w : Word) : (x.writeG r w).counted = x.counted := by
  unfold Strand.writeG; split; (rfl); split <;> rfl
@[simp] theorem Strand.writeG_nextPos (x : Strand) (r : GReg) (w : Word) : (x.writeG r w).nextPos = x.nextPos := by
  unfold Strand.writeG; split; (rfl); split <;> rfl
@[simp] theorem Strand.writeG_sendq (x : Strand) (r : GReg) (w : Word) : (x.writeG r w).sendq = x.sendq := by
  unfold Strand.writeG; split; (rfl); split <;> rfl
@[simp] theorem Strand.writeG_tr (x : Strand) (r : GReg) (w : Word) : (x.writeG r w).tr = x.tr := by
  unfold Strand.writeG; split; (rfl); split <;> rfl
@[simp] theorem Strand.writeG_sclA (x : Strand) (r : GReg) (w : Word) : (x.writeG r w).sclA = x.sclA := by
  unfold Strand.writeG; split; (rfl); split <;> rfl
@[simp] theorem Strand.writeG_sclB (x : Strand) (r : GReg) (w : Word) : (x.writeG r w).sclB = x.sclB := by
  unfold Strand.writeG; split; (rfl); split <;> rfl
@[simp] theorem Strand.writeG_side (x : Strand) (r : GReg) (w : Word) : (x.writeG r w).side = x.side := by
  unfold Strand.writeG; split; (rfl); split <;> rfl
@[simp] theorem Strand.writeG_owed (x : Strand) (r : GReg) (w : Word) : (x.writeG r w).owed = x.owed := by
  unfold Strand.writeG; split; (rfl); split <;> rfl
@[simp] theorem Strand.writeG_htag (x : Strand) (r : GReg) (w : Word) : (x.writeG r w).htag = x.htag := by
  unfold Strand.writeG; split; (rfl); split <;> rfl
@[simp] theorem Strand.writeG_desc (x : Strand) (r : GReg) (w : Word) : (x.writeG r w).desc = x.desc := by
  unfold Strand.writeG; split; (rfl); split <;> rfl
@[simp] theorem Strand.writeG_loomErr (x : Strand) (r : GReg) (w : Word) : (x.writeG r w).loomErr = x.loomErr := by
  unfold Strand.writeG; split; (rfl); split <;> rfl
@[simp] theorem Strand.writeG_loomFlags (x : Strand) (r : GReg) (w : Word) : (x.writeG r w).loomFlags = x.loomFlags := by
  unfold Strand.writeG; split; (rfl); split <;> rfl
@[simp] theorem Strand.writeG_refetch (x : Strand) (r : GReg) (w : Word) : (x.writeG r w).refetch = x.refetch := by
  unfold Strand.writeG; split; (rfl); split <;> rfl
@[simp] theorem Strand.writeG_stage (x : Strand) (r : GReg) (w : Word) : (x.writeG r w).stage = x.stage := by
  unfold Strand.writeG; split; (rfl); split <;> rfl
@[simp] theorem Strand.writeG_issued (x : Strand) (r : GReg) (w : Word) : (x.writeG r w).issued = x.issued := by
  unfold Strand.writeG; split; (rfl); split <;> rfl
@[simp] theorem Strand.writeG_half (x : Strand) (r : GReg) (w : Word) : (x.writeG r w).half = x.half := by
  unfold Strand.writeG; split; (rfl); split <;> rfl
@[simp] theorem Strand.writeG_parked (x : Strand) (r : GReg) (w : Word) : (x.writeG r w).parked = x.parked := by
  unfold Strand.writeG; split; (rfl); split <;> rfl
@[simp] theorem Strand.writeG_waiting (x : Strand) (r : GReg) (w : Word) : (x.writeG r w).waiting = x.waiting := by
  unfold Strand.writeG; split; (rfl); split <;> rfl
@[simp] theorem Strand.writeG_waitSeq (x : Strand) (r : GReg) (w : Word) : (x.writeG r w).waitSeq = x.waitSeq := by
  unfold Strand.writeG; split; (rfl); split <;> rfl
@[simp] theorem Strand.writeG_pend (x : Strand) (r : GReg) (w : Word) : (x.writeG r w).pend = x.pend := by
  unfold Strand.writeG; split; (rfl); split <;> rfl
@[simp] theorem Strand.writeG_relFence (x : Strand) (r : GReg) (w : Word) : (x.writeG r w).relFence = x.relFence := by
  unfold Strand.writeG; split; (rfl); split <;> rfl
@[simp] theorem Strand.writeG_readTags (x : Strand) (r : GReg) (w : Word) : (x.writeG r w).readTags = x.readTags := by
  unfold Strand.writeG; split; (rfl); split <;> rfl
@[simp] theorem Strand.writeG_invs (x : Strand) (r : GReg) (w : Word) : (x.writeG r w).invs = x.invs := by
  unfold Strand.writeG; split; (rfl); split <;> rfl

/-! ### Strand.writeP -/

@[simp] theorem Strand.writeP_live (x : Strand) (r : PReg) (b : Bool) : (x.writeP r b).live = x.live := by
  unfold Strand.writeP; split <;> rfl
@[simp] theorem Strand.writeP_g (x : Strand) (r : PReg) (b : Bool) : (x.writeP r b).g = x.g := by
  unfold Strand.writeP; split <;> rfl
@[simp] theorem Strand.writeP_v (x : Strand) (r : PReg) (b : Bool) : (x.writeP r b).v = x.v := by
  unfold Strand.writeP; split <;> rfl
@[simp] theorem Strand.writeP_m (x : Strand) (r : PReg) (b : Bool) : (x.writeP r b).m = x.m := by
  unfold Strand.writeP; split <;> rfl
@[simp] theorem Strand.writeP_q (x : Strand) (r : PReg) (b : Bool) : (x.writeP r b).q = x.q := by
  unfold Strand.writeP; split <;> rfl
@[simp] theorem Strand.writeP_pc (x : Strand) (r : PReg) (b : Bool) : (x.writeP r b).pc = x.pc := by
  unfold Strand.writeP; split <;> rfl
@[simp] theorem Strand.writeP_flags (x : Strand) (r : PReg) (b : Bool) : (x.writeP r b).flags = x.flags := by
  unfold Strand.writeP; split <;> rfl
@[simp] theorem Strand.writeP_rmode (x : Strand) (r : PReg) (b : Bool) : (x.writeP r b).rmode = x.rmode := by
  unfold Strand.writeP; split <;> rfl
@[simp] theorem Strand.writeP_lsctl (x : Strand) (r : PReg) (b : Bool) : (x.writeP r b).lsctl = x.lsctl := by
  unfold Strand.writeP; split <;> rfl
@[simp] theorem Strand.writeP_tvec (x : Strand) (r : PReg) (b : Bool) : (x.writeP r b).tvec = x.tvec := by
  unfold Strand.writeP; split <;> rfl
@[simp] theorem Strand.writeP_tpc (x : Strand) (r : PReg) (b : Bool) : (x.writeP r b).tpc = x.tpc := by
  unfold Strand.writeP; split <;> rfl
@[simp] theorem Strand.writeP_tcause (x : Strand) (r : PReg) (b : Bool) : (x.writeP r b).tcause = x.tcause := by
  unfold Strand.writeP; split <;> rfl
@[simp] theorem Strand.writeP_tval (x : Strand) (r : PReg) (b : Bool) : (x.writeP r b).tval = x.tval := by
  unfold Strand.writeP; split <;> rfl
@[simp] theorem Strand.writeP_ttag (x : Strand) (r : PReg) (b : Bool) : (x.writeP r b).ttag = x.ttag := by
  unfold Strand.writeP; split <;> rfl
@[simp] theorem Strand.writeP_stpc (x : Strand) (r : PReg) (b : Bool) : (x.writeP r b).stpc = x.stpc := by
  unfold Strand.writeP; split <;> rfl
@[simp] theorem Strand.writeP_stcause (x : Strand) (r : PReg) (b : Bool) : (x.writeP r b).stcause = x.stcause := by
  unfold Strand.writeP; split <;> rfl
@[simp] theorem Strand.writeP_stval (x : Strand) (r : PReg) (b : Bool) : (x.writeP r b).stval = x.stval := by
  unfold Strand.writeP; split <;> rfl
@[simp] theorem Strand.writeP_sttag (x : Strand) (r : PReg) (b : Bool) : (x.writeP r b).sttag = x.sttag := by
  unfold Strand.writeP; split <;> rfl
@[simp] theorem Strand.writeP_core (x : Strand) (r : PReg) (b : Bool) : (x.writeP r b).core = x.core := by
  unfold Strand.writeP; split <;> rfl
@[simp] theorem Strand.writeP_weave (x : Strand) (r : PReg) (b : Bool) : (x.writeP r b).weave = x.weave := by
  unfold Strand.writeP; split <;> rfl
@[simp] theorem Strand.writeP_seg (x : Strand) (r : PReg) (b : Bool) : (x.writeP r b).seg = x.seg := by
  unfold Strand.writeP; split <;> rfl
@[simp] theorem Strand.writeP_trcnt (x : Strand) (r : PReg) (b : Bool) : (x.writeP r b).trcnt = x.trcnt := by
  unfold Strand.writeP; split <;> rfl
@[simp] theorem Strand.writeP_entW (x : Strand) (r : PReg) (b : Bool) : (x.writeP r b).entW = x.entW := by
  unfold Strand.writeP; split <;> rfl
@[simp] theorem Strand.writeP_entS (x : Strand) (r : PReg) (b : Bool) : (x.writeP r b).entS = x.entS := by
  unfold Strand.writeP; split <;> rfl
@[simp] theorem Strand.writeP_ls (x : Strand) (r : PReg) (b : Bool) : (x.writeP r b).ls = x.ls := by
  unfold Strand.writeP; split <;> rfl
@[simp] theorem Strand.writeP_epochs (x : Strand) (r : PReg) (b : Bool) : (x.writeP r b).epochs = x.epochs := by
  unfold Strand.writeP; split <;> rfl
@[simp] theorem Strand.writeP_lastGen (x : Strand) (r : PReg) (b : Bool) : (x.writeP r b).lastGen = x.lastGen := by
  unfold Strand.writeP; split <;> rfl
@[simp] theorem Strand.writeP_nextStamp (x : Strand) (r : PReg) (b : Bool) : (x.writeP r b).nextStamp = x.nextStamp := by
  unfold Strand.writeP; split <;> rfl
@[simp] theorem Strand.writeP_stampCyc (x : Strand) (r : PReg) (b : Bool) : (x.writeP r b).stampCyc = x.stampCyc := by
  unfold Strand.writeP; split <;> rfl
@[simp] theorem Strand.writeP_took (x : Strand) (r : PReg) (b : Bool) : (x.writeP r b).took = x.took := by
  unfold Strand.writeP; split <;> rfl
@[simp] theorem Strand.writeP_counted (x : Strand) (r : PReg) (b : Bool) : (x.writeP r b).counted = x.counted := by
  unfold Strand.writeP; split <;> rfl
@[simp] theorem Strand.writeP_nextPos (x : Strand) (r : PReg) (b : Bool) : (x.writeP r b).nextPos = x.nextPos := by
  unfold Strand.writeP; split <;> rfl
@[simp] theorem Strand.writeP_sendq (x : Strand) (r : PReg) (b : Bool) : (x.writeP r b).sendq = x.sendq := by
  unfold Strand.writeP; split <;> rfl
@[simp] theorem Strand.writeP_tr (x : Strand) (r : PReg) (b : Bool) : (x.writeP r b).tr = x.tr := by
  unfold Strand.writeP; split <;> rfl
@[simp] theorem Strand.writeP_sclA (x : Strand) (r : PReg) (b : Bool) : (x.writeP r b).sclA = x.sclA := by
  unfold Strand.writeP; split <;> rfl
@[simp] theorem Strand.writeP_sclB (x : Strand) (r : PReg) (b : Bool) : (x.writeP r b).sclB = x.sclB := by
  unfold Strand.writeP; split <;> rfl
@[simp] theorem Strand.writeP_side (x : Strand) (r : PReg) (b : Bool) : (x.writeP r b).side = x.side := by
  unfold Strand.writeP; split <;> rfl
@[simp] theorem Strand.writeP_owed (x : Strand) (r : PReg) (b : Bool) : (x.writeP r b).owed = x.owed := by
  unfold Strand.writeP; split <;> rfl
@[simp] theorem Strand.writeP_htag (x : Strand) (r : PReg) (b : Bool) : (x.writeP r b).htag = x.htag := by
  unfold Strand.writeP; split <;> rfl
@[simp] theorem Strand.writeP_desc (x : Strand) (r : PReg) (b : Bool) : (x.writeP r b).desc = x.desc := by
  unfold Strand.writeP; split <;> rfl
@[simp] theorem Strand.writeP_loomErr (x : Strand) (r : PReg) (b : Bool) : (x.writeP r b).loomErr = x.loomErr := by
  unfold Strand.writeP; split <;> rfl
@[simp] theorem Strand.writeP_loomFlags (x : Strand) (r : PReg) (b : Bool) : (x.writeP r b).loomFlags = x.loomFlags := by
  unfold Strand.writeP; split <;> rfl
@[simp] theorem Strand.writeP_refetch (x : Strand) (r : PReg) (b : Bool) : (x.writeP r b).refetch = x.refetch := by
  unfold Strand.writeP; split <;> rfl
@[simp] theorem Strand.writeP_stage (x : Strand) (r : PReg) (b : Bool) : (x.writeP r b).stage = x.stage := by
  unfold Strand.writeP; split <;> rfl
@[simp] theorem Strand.writeP_issued (x : Strand) (r : PReg) (b : Bool) : (x.writeP r b).issued = x.issued := by
  unfold Strand.writeP; split <;> rfl
@[simp] theorem Strand.writeP_half (x : Strand) (r : PReg) (b : Bool) : (x.writeP r b).half = x.half := by
  unfold Strand.writeP; split <;> rfl
@[simp] theorem Strand.writeP_parked (x : Strand) (r : PReg) (b : Bool) : (x.writeP r b).parked = x.parked := by
  unfold Strand.writeP; split <;> rfl
@[simp] theorem Strand.writeP_waiting (x : Strand) (r : PReg) (b : Bool) : (x.writeP r b).waiting = x.waiting := by
  unfold Strand.writeP; split <;> rfl
@[simp] theorem Strand.writeP_waitSeq (x : Strand) (r : PReg) (b : Bool) : (x.writeP r b).waitSeq = x.waitSeq := by
  unfold Strand.writeP; split <;> rfl
@[simp] theorem Strand.writeP_pend (x : Strand) (r : PReg) (b : Bool) : (x.writeP r b).pend = x.pend := by
  unfold Strand.writeP; split <;> rfl
@[simp] theorem Strand.writeP_relFence (x : Strand) (r : PReg) (b : Bool) : (x.writeP r b).relFence = x.relFence := by
  unfold Strand.writeP; split <;> rfl
@[simp] theorem Strand.writeP_readTags (x : Strand) (r : PReg) (b : Bool) : (x.writeP r b).readTags = x.readTags := by
  unfold Strand.writeP; split <;> rfl
@[simp] theorem Strand.writeP_invs (x : Strand) (r : PReg) (b : Bool) : (x.writeP r b).invs = x.invs := by
  unfold Strand.writeP; split <;> rfl
@[simp] theorem Strand.writeP_sysg (x : Strand) (r : PReg) (b : Bool) : (x.writeP r b).sysg = x.sysg := by
  unfold Strand.writeP; split <;> rfl

/-! ### Strand.writeM -/

@[simp] theorem Strand.writeM_live (x : Strand) (r : MReg) (w : Word) : (x.writeM r w).live = x.live := by
  unfold Strand.writeM; split <;> rfl
@[simp] theorem Strand.writeM_g (x : Strand) (r : MReg) (w : Word) : (x.writeM r w).g = x.g := by
  unfold Strand.writeM; split <;> rfl
@[simp] theorem Strand.writeM_v (x : Strand) (r : MReg) (w : Word) : (x.writeM r w).v = x.v := by
  unfold Strand.writeM; split <;> rfl
@[simp] theorem Strand.writeM_p (x : Strand) (r : MReg) (w : Word) : (x.writeM r w).p = x.p := by
  unfold Strand.writeM; split <;> rfl
@[simp] theorem Strand.writeM_q (x : Strand) (r : MReg) (w : Word) : (x.writeM r w).q = x.q := by
  unfold Strand.writeM; split <;> rfl
@[simp] theorem Strand.writeM_pc (x : Strand) (r : MReg) (w : Word) : (x.writeM r w).pc = x.pc := by
  unfold Strand.writeM; split <;> rfl
@[simp] theorem Strand.writeM_flags (x : Strand) (r : MReg) (w : Word) : (x.writeM r w).flags = x.flags := by
  unfold Strand.writeM; split <;> rfl
@[simp] theorem Strand.writeM_rmode (x : Strand) (r : MReg) (w : Word) : (x.writeM r w).rmode = x.rmode := by
  unfold Strand.writeM; split <;> rfl
@[simp] theorem Strand.writeM_lsctl (x : Strand) (r : MReg) (w : Word) : (x.writeM r w).lsctl = x.lsctl := by
  unfold Strand.writeM; split <;> rfl
@[simp] theorem Strand.writeM_tvec (x : Strand) (r : MReg) (w : Word) : (x.writeM r w).tvec = x.tvec := by
  unfold Strand.writeM; split <;> rfl
@[simp] theorem Strand.writeM_tpc (x : Strand) (r : MReg) (w : Word) : (x.writeM r w).tpc = x.tpc := by
  unfold Strand.writeM; split <;> rfl
@[simp] theorem Strand.writeM_tcause (x : Strand) (r : MReg) (w : Word) : (x.writeM r w).tcause = x.tcause := by
  unfold Strand.writeM; split <;> rfl
@[simp] theorem Strand.writeM_tval (x : Strand) (r : MReg) (w : Word) : (x.writeM r w).tval = x.tval := by
  unfold Strand.writeM; split <;> rfl
@[simp] theorem Strand.writeM_ttag (x : Strand) (r : MReg) (w : Word) : (x.writeM r w).ttag = x.ttag := by
  unfold Strand.writeM; split <;> rfl
@[simp] theorem Strand.writeM_stpc (x : Strand) (r : MReg) (w : Word) : (x.writeM r w).stpc = x.stpc := by
  unfold Strand.writeM; split <;> rfl
@[simp] theorem Strand.writeM_stcause (x : Strand) (r : MReg) (w : Word) : (x.writeM r w).stcause = x.stcause := by
  unfold Strand.writeM; split <;> rfl
@[simp] theorem Strand.writeM_stval (x : Strand) (r : MReg) (w : Word) : (x.writeM r w).stval = x.stval := by
  unfold Strand.writeM; split <;> rfl
@[simp] theorem Strand.writeM_sttag (x : Strand) (r : MReg) (w : Word) : (x.writeM r w).sttag = x.sttag := by
  unfold Strand.writeM; split <;> rfl
@[simp] theorem Strand.writeM_core (x : Strand) (r : MReg) (w : Word) : (x.writeM r w).core = x.core := by
  unfold Strand.writeM; split <;> rfl
@[simp] theorem Strand.writeM_weave (x : Strand) (r : MReg) (w : Word) : (x.writeM r w).weave = x.weave := by
  unfold Strand.writeM; split <;> rfl
@[simp] theorem Strand.writeM_seg (x : Strand) (r : MReg) (w : Word) : (x.writeM r w).seg = x.seg := by
  unfold Strand.writeM; split <;> rfl
@[simp] theorem Strand.writeM_trcnt (x : Strand) (r : MReg) (w : Word) : (x.writeM r w).trcnt = x.trcnt := by
  unfold Strand.writeM; split <;> rfl
@[simp] theorem Strand.writeM_entW (x : Strand) (r : MReg) (w : Word) : (x.writeM r w).entW = x.entW := by
  unfold Strand.writeM; split <;> rfl
@[simp] theorem Strand.writeM_entS (x : Strand) (r : MReg) (w : Word) : (x.writeM r w).entS = x.entS := by
  unfold Strand.writeM; split <;> rfl
@[simp] theorem Strand.writeM_ls (x : Strand) (r : MReg) (w : Word) : (x.writeM r w).ls = x.ls := by
  unfold Strand.writeM; split <;> rfl
@[simp] theorem Strand.writeM_epochs (x : Strand) (r : MReg) (w : Word) : (x.writeM r w).epochs = x.epochs := by
  unfold Strand.writeM; split <;> rfl
@[simp] theorem Strand.writeM_lastGen (x : Strand) (r : MReg) (w : Word) : (x.writeM r w).lastGen = x.lastGen := by
  unfold Strand.writeM; split <;> rfl
@[simp] theorem Strand.writeM_nextStamp (x : Strand) (r : MReg) (w : Word) : (x.writeM r w).nextStamp = x.nextStamp := by
  unfold Strand.writeM; split <;> rfl
@[simp] theorem Strand.writeM_stampCyc (x : Strand) (r : MReg) (w : Word) : (x.writeM r w).stampCyc = x.stampCyc := by
  unfold Strand.writeM; split <;> rfl
@[simp] theorem Strand.writeM_took (x : Strand) (r : MReg) (w : Word) : (x.writeM r w).took = x.took := by
  unfold Strand.writeM; split <;> rfl
@[simp] theorem Strand.writeM_counted (x : Strand) (r : MReg) (w : Word) : (x.writeM r w).counted = x.counted := by
  unfold Strand.writeM; split <;> rfl
@[simp] theorem Strand.writeM_nextPos (x : Strand) (r : MReg) (w : Word) : (x.writeM r w).nextPos = x.nextPos := by
  unfold Strand.writeM; split <;> rfl
@[simp] theorem Strand.writeM_sendq (x : Strand) (r : MReg) (w : Word) : (x.writeM r w).sendq = x.sendq := by
  unfold Strand.writeM; split <;> rfl
@[simp] theorem Strand.writeM_tr (x : Strand) (r : MReg) (w : Word) : (x.writeM r w).tr = x.tr := by
  unfold Strand.writeM; split <;> rfl
@[simp] theorem Strand.writeM_sclA (x : Strand) (r : MReg) (w : Word) : (x.writeM r w).sclA = x.sclA := by
  unfold Strand.writeM; split <;> rfl
@[simp] theorem Strand.writeM_sclB (x : Strand) (r : MReg) (w : Word) : (x.writeM r w).sclB = x.sclB := by
  unfold Strand.writeM; split <;> rfl
@[simp] theorem Strand.writeM_side (x : Strand) (r : MReg) (w : Word) : (x.writeM r w).side = x.side := by
  unfold Strand.writeM; split <;> rfl
@[simp] theorem Strand.writeM_owed (x : Strand) (r : MReg) (w : Word) : (x.writeM r w).owed = x.owed := by
  unfold Strand.writeM; split <;> rfl
@[simp] theorem Strand.writeM_htag (x : Strand) (r : MReg) (w : Word) : (x.writeM r w).htag = x.htag := by
  unfold Strand.writeM; split <;> rfl
@[simp] theorem Strand.writeM_desc (x : Strand) (r : MReg) (w : Word) : (x.writeM r w).desc = x.desc := by
  unfold Strand.writeM; split <;> rfl
@[simp] theorem Strand.writeM_loomErr (x : Strand) (r : MReg) (w : Word) : (x.writeM r w).loomErr = x.loomErr := by
  unfold Strand.writeM; split <;> rfl
@[simp] theorem Strand.writeM_loomFlags (x : Strand) (r : MReg) (w : Word) : (x.writeM r w).loomFlags = x.loomFlags := by
  unfold Strand.writeM; split <;> rfl
@[simp] theorem Strand.writeM_refetch (x : Strand) (r : MReg) (w : Word) : (x.writeM r w).refetch = x.refetch := by
  unfold Strand.writeM; split <;> rfl
@[simp] theorem Strand.writeM_stage (x : Strand) (r : MReg) (w : Word) : (x.writeM r w).stage = x.stage := by
  unfold Strand.writeM; split <;> rfl
@[simp] theorem Strand.writeM_issued (x : Strand) (r : MReg) (w : Word) : (x.writeM r w).issued = x.issued := by
  unfold Strand.writeM; split <;> rfl
@[simp] theorem Strand.writeM_half (x : Strand) (r : MReg) (w : Word) : (x.writeM r w).half = x.half := by
  unfold Strand.writeM; split <;> rfl
@[simp] theorem Strand.writeM_parked (x : Strand) (r : MReg) (w : Word) : (x.writeM r w).parked = x.parked := by
  unfold Strand.writeM; split <;> rfl
@[simp] theorem Strand.writeM_waiting (x : Strand) (r : MReg) (w : Word) : (x.writeM r w).waiting = x.waiting := by
  unfold Strand.writeM; split <;> rfl
@[simp] theorem Strand.writeM_waitSeq (x : Strand) (r : MReg) (w : Word) : (x.writeM r w).waitSeq = x.waitSeq := by
  unfold Strand.writeM; split <;> rfl
@[simp] theorem Strand.writeM_pend (x : Strand) (r : MReg) (w : Word) : (x.writeM r w).pend = x.pend := by
  unfold Strand.writeM; split <;> rfl
@[simp] theorem Strand.writeM_relFence (x : Strand) (r : MReg) (w : Word) : (x.writeM r w).relFence = x.relFence := by
  unfold Strand.writeM; split <;> rfl
@[simp] theorem Strand.writeM_readTags (x : Strand) (r : MReg) (w : Word) : (x.writeM r w).readTags = x.readTags := by
  unfold Strand.writeM; split <;> rfl
@[simp] theorem Strand.writeM_invs (x : Strand) (r : MReg) (w : Word) : (x.writeM r w).invs = x.invs := by
  unfold Strand.writeM; split <;> rfl
@[simp] theorem Strand.writeM_sysg (x : Strand) (r : MReg) (w : Word) : (x.writeM r w).sysg = x.sysg := by
  unfold Strand.writeM; split <;> rfl

/-! ### mergeFlags -/

@[simp] theorem mergeFlags_live (x : Strand) (f : Num.Flags) : (mergeFlags x f).live = x.live := rfl
@[simp] theorem mergeFlags_g (x : Strand) (f : Num.Flags) : (mergeFlags x f).g = x.g := rfl
@[simp] theorem mergeFlags_v (x : Strand) (f : Num.Flags) : (mergeFlags x f).v = x.v := rfl
@[simp] theorem mergeFlags_p (x : Strand) (f : Num.Flags) : (mergeFlags x f).p = x.p := rfl
@[simp] theorem mergeFlags_m (x : Strand) (f : Num.Flags) : (mergeFlags x f).m = x.m := rfl
@[simp] theorem mergeFlags_q (x : Strand) (f : Num.Flags) : (mergeFlags x f).q = x.q := rfl
@[simp] theorem mergeFlags_pc (x : Strand) (f : Num.Flags) : (mergeFlags x f).pc = x.pc := rfl
@[simp] theorem mergeFlags_flags (x : Strand) (f : Num.Flags) : (mergeFlags x f).flags = x.flags ||| f.setWidth 64 := rfl
@[simp] theorem mergeFlags_rmode (x : Strand) (f : Num.Flags) : (mergeFlags x f).rmode = x.rmode := rfl
@[simp] theorem mergeFlags_lsctl (x : Strand) (f : Num.Flags) : (mergeFlags x f).lsctl = x.lsctl := rfl
@[simp] theorem mergeFlags_tvec (x : Strand) (f : Num.Flags) : (mergeFlags x f).tvec = x.tvec := rfl
@[simp] theorem mergeFlags_tpc (x : Strand) (f : Num.Flags) : (mergeFlags x f).tpc = x.tpc := rfl
@[simp] theorem mergeFlags_tcause (x : Strand) (f : Num.Flags) : (mergeFlags x f).tcause = x.tcause := rfl
@[simp] theorem mergeFlags_tval (x : Strand) (f : Num.Flags) : (mergeFlags x f).tval = x.tval := rfl
@[simp] theorem mergeFlags_ttag (x : Strand) (f : Num.Flags) : (mergeFlags x f).ttag = x.ttag := rfl
@[simp] theorem mergeFlags_stpc (x : Strand) (f : Num.Flags) : (mergeFlags x f).stpc = x.stpc := rfl
@[simp] theorem mergeFlags_stcause (x : Strand) (f : Num.Flags) : (mergeFlags x f).stcause = x.stcause := rfl
@[simp] theorem mergeFlags_stval (x : Strand) (f : Num.Flags) : (mergeFlags x f).stval = x.stval := rfl
@[simp] theorem mergeFlags_sttag (x : Strand) (f : Num.Flags) : (mergeFlags x f).sttag = x.sttag := rfl
@[simp] theorem mergeFlags_core (x : Strand) (f : Num.Flags) : (mergeFlags x f).core = x.core := rfl
@[simp] theorem mergeFlags_weave (x : Strand) (f : Num.Flags) : (mergeFlags x f).weave = x.weave := rfl
@[simp] theorem mergeFlags_seg (x : Strand) (f : Num.Flags) : (mergeFlags x f).seg = x.seg := rfl
@[simp] theorem mergeFlags_trcnt (x : Strand) (f : Num.Flags) : (mergeFlags x f).trcnt = x.trcnt := rfl
@[simp] theorem mergeFlags_entW (x : Strand) (f : Num.Flags) : (mergeFlags x f).entW = x.entW := rfl
@[simp] theorem mergeFlags_entS (x : Strand) (f : Num.Flags) : (mergeFlags x f).entS = x.entS := rfl
@[simp] theorem mergeFlags_ls (x : Strand) (f : Num.Flags) : (mergeFlags x f).ls = x.ls := rfl
@[simp] theorem mergeFlags_epochs (x : Strand) (f : Num.Flags) : (mergeFlags x f).epochs = x.epochs := rfl
@[simp] theorem mergeFlags_lastGen (x : Strand) (f : Num.Flags) : (mergeFlags x f).lastGen = x.lastGen := rfl
@[simp] theorem mergeFlags_nextStamp (x : Strand) (f : Num.Flags) : (mergeFlags x f).nextStamp = x.nextStamp := rfl
@[simp] theorem mergeFlags_stampCyc (x : Strand) (f : Num.Flags) : (mergeFlags x f).stampCyc = x.stampCyc := rfl
@[simp] theorem mergeFlags_took (x : Strand) (f : Num.Flags) : (mergeFlags x f).took = x.took := rfl
@[simp] theorem mergeFlags_counted (x : Strand) (f : Num.Flags) : (mergeFlags x f).counted = x.counted := rfl
@[simp] theorem mergeFlags_nextPos (x : Strand) (f : Num.Flags) : (mergeFlags x f).nextPos = x.nextPos := rfl
@[simp] theorem mergeFlags_sendq (x : Strand) (f : Num.Flags) : (mergeFlags x f).sendq = x.sendq := rfl
@[simp] theorem mergeFlags_tr (x : Strand) (f : Num.Flags) : (mergeFlags x f).tr = x.tr := rfl
@[simp] theorem mergeFlags_sclA (x : Strand) (f : Num.Flags) : (mergeFlags x f).sclA = x.sclA := rfl
@[simp] theorem mergeFlags_sclB (x : Strand) (f : Num.Flags) : (mergeFlags x f).sclB = x.sclB := rfl
@[simp] theorem mergeFlags_side (x : Strand) (f : Num.Flags) : (mergeFlags x f).side = x.side := rfl
@[simp] theorem mergeFlags_owed (x : Strand) (f : Num.Flags) : (mergeFlags x f).owed = x.owed := rfl
@[simp] theorem mergeFlags_htag (x : Strand) (f : Num.Flags) : (mergeFlags x f).htag = x.htag := rfl
@[simp] theorem mergeFlags_desc (x : Strand) (f : Num.Flags) : (mergeFlags x f).desc = x.desc := rfl
@[simp] theorem mergeFlags_loomErr (x : Strand) (f : Num.Flags) : (mergeFlags x f).loomErr = x.loomErr := rfl
@[simp] theorem mergeFlags_loomFlags (x : Strand) (f : Num.Flags) : (mergeFlags x f).loomFlags = x.loomFlags := rfl
@[simp] theorem mergeFlags_refetch (x : Strand) (f : Num.Flags) : (mergeFlags x f).refetch = x.refetch := rfl
@[simp] theorem mergeFlags_stage (x : Strand) (f : Num.Flags) : (mergeFlags x f).stage = x.stage := rfl
@[simp] theorem mergeFlags_issued (x : Strand) (f : Num.Flags) : (mergeFlags x f).issued = x.issued := rfl
@[simp] theorem mergeFlags_half (x : Strand) (f : Num.Flags) : (mergeFlags x f).half = x.half := rfl
@[simp] theorem mergeFlags_parked (x : Strand) (f : Num.Flags) : (mergeFlags x f).parked = x.parked := rfl
@[simp] theorem mergeFlags_waiting (x : Strand) (f : Num.Flags) : (mergeFlags x f).waiting = x.waiting := rfl
@[simp] theorem mergeFlags_waitSeq (x : Strand) (f : Num.Flags) : (mergeFlags x f).waitSeq = x.waitSeq := rfl
@[simp] theorem mergeFlags_pend (x : Strand) (f : Num.Flags) : (mergeFlags x f).pend = x.pend := rfl
@[simp] theorem mergeFlags_relFence (x : Strand) (f : Num.Flags) : (mergeFlags x f).relFence = x.relFence := rfl
@[simp] theorem mergeFlags_readTags (x : Strand) (f : Num.Flags) : (mergeFlags x f).readTags = x.readTags := rfl
@[simp] theorem mergeFlags_invs (x : Strand) (f : Num.Flags) : (mergeFlags x f).invs = x.invs := rfl
@[simp] theorem mergeFlags_sysg (x : Strand) (f : Num.Flags) : (mergeFlags x f).sysg = x.sysg := rfl

/-! ### Registers -/

@[simp] theorem Strand.readG_zero (x : Strand) : x.readG 0 = 0 := rfl
@[simp] theorem Strand.writeG_zero (x : Strand) (w : Word) : x.writeG 0 w = x := rfl
@[simp] theorem Strand.readM_zero (x : Strand) : x.readM 0 = BitVec.allOnes 64 := rfl
@[simp] theorem Strand.readP_zero (x : Strand) : x.readP 0 = true := rfl

/-- A register reads back what was written to it; g0 stays zero. -/
theorem Strand.readG_writeG (x : Strand) (r : GReg) (w : Word) (h : r ≠ 0) : (x.writeG r w).readG r = w := by
  by_cases hs : x.sys = true ∧ 60 ≤ r.val
  · have e : x.writeG r w = { x with sysg := x.sysg.set (r.val - 60) w (by omega) } := by simp [Strand.writeG, h, hs]
    have hs' : Strand.sys { x with sysg := x.sysg.set (r.val - 60) w (by omega) } = true := hs.1
    rw [e]
    simp [Strand.readG, h, hs', hs.2]
  · have e : x.writeG r w = { x with g := x.g.set r w } := by simp [Strand.writeG, h, hs]
    have hs' : ¬ (Strand.sys { x with g := x.g.set r w } = true ∧ 60 ≤ r.val) := hs
    rw [e]
    simp [Strand.readG, h, hs']

/-- A write changes no other general register. -/
theorem Strand.readG_writeG_ne (x : Strand) (r q : GReg) (w : Word) (h : q ≠ r) : (x.writeG r w).readG q = x.readG q := by
  have hne : r.val ≠ q.val := fun e => h (Fin.ext e.symm)
  by_cases hr : r = 0
  · simp [Strand.writeG, hr]
  by_cases hs : x.sys = true ∧ 60 ≤ r.val
  · have e : x.writeG r w = { x with sysg := x.sysg.set (r.val - 60) w (by omega) } := by simp [Strand.writeG, hr, hs]
    have hs' : Strand.sys { x with sysg := x.sysg.set (r.val - 60) w (by omega) } = true := hs.1
    rw [e]
    by_cases hq : 60 ≤ q.val
    · have hne' : r.val - 60 ≠ q.val - 60 := by omega
      simp [Strand.readG, hs', hs.1, hq, hne']
    · simp [Strand.readG, hq]
  · have e : x.writeG r w = { x with g := x.g.set r w } := by simp [Strand.writeG, hr, hs]
    have hs' : Strand.sys { x with g := x.g.set r w } = x.sys := rfl
    rw [e]
    simp only [Strand.readG, hs']
    simp [hne]

end Sys2Proof.Machine
end

