-- ==== Sys2Proof/Laws/Check.lean ====
section
/-! SUPPORT. The checks of an access read no register of the strand whose turn it is: they are the same after a change of its
record that leaves it live. -/

namespace Sys2Proof.Machine

section
variable {s : State} {m : Strand}

theorem leaf_me (lvl base ix va : Nat) (e : Word) (rs : List Nat) :
    ({ s with me := m } : State).leaf lvl base ix va e rs = s.leaf lvl base ix va e rs := rfl

theorem walkFrom_me (va lvl base : Nat) (rs : List Nat) :
    ({ s with me := m } : State).walkFrom va lvl base rs = s.walkFrom va lvl base rs := by
  induction lvl generalizing base rs with
  | zero => unfold State.walkFrom; rfl
  | succ n ih =>
    unfold State.walkFrom
    simp only [ih]
    rfl

theorem walk_me (root : Nat) (va : Word) : ({ s with me := m } : State).walk root va = s.walk root va := walkFrom_me ..

theorem translate_me (x : Ctx) (k : AccKind) (nh : Bool) (l : BitVec 8) (va : Word) (n : Nat) (sp : Bool) :
    ({ s with me := m } : State).translate x k nh l va n sp = s.translate x k nh l va n sp := by
  unfold State.translate
  rw [walk_me]
  rfl

theorem live_me (h : m.live = s.me.live) (k : StrandIx) :
    (({ s with me := m } : State).strand k).live = (s.strand k).live := by
  unfold State.strand
  show (if k = s.cur then m else _).live = _
  split <;> simp_all

theorem holds_me (h : m.live = s.me.live) (c : CoreIx) (w : Nat) : ({ s with me := m } : State).holds c w = s.holds c w := by
  unfold State.holds
  simp only [live_me h]
  rfl

theorem tileHolds_me (h : m.live = s.me.live) (w t : Nat) : ({ s with me := m } : State).tileHolds w t = s.tileHolds w t := by
  unfold State.tileHolds
  simp only [holds_me h]

theorem window_me (h : m.live = s.me.live) (x : Ctx) (l : BitVec 8) (a : Word) (n : Nat) :
    ({ s with me := m } : State).window x l a n = s.window x l a n := by
  unfold State.window
  simp only [holds_me h, tileHolds_me h]
  rfl

theorem laterPage_me (x : Ctx) (f a : Word) : ({ s with me := m } : State).laterPage x f a = s.laterPage x f a := by
  unfold State.laterPage State.pageAt
  simp only [walk_me]
  rfl

theorem check_me (h : m.live = s.me.live) (x : Ctx) (k : AccKind) (nh : Bool) (al : Nat) (f a : Word) (n : Nat) :
    ({ s with me := m } : State).check x k nh al f a n = s.check x k nh al f a n := by
  unfold State.check State.resolve
  simp only [laterPage_me, translate_me, window_me h]

end

theorem pendingRead_markIssue (s : State) (ks : List Nat) : s.markIssue.pendingRead ks = s.pendingRead ks := by
  unfold State.pendingRead State.markIssue
  have hc : (({ s with me := { s.me with waitSeq := some s.issueSeq } } : State)).ctx = s.ctx := rfl
  simp only [hc, check_me (s := s) (m := { s.me with waitSeq := some s.issueSeq }) rfl]

end Sys2Proof.Machine
end

