-- ==== Sys2Proof/Laws/Memory.lean ====
section
/-! SUPPORT. Storage: a read after a write, and the canonical form every write keeps. -/

namespace Sys2Proof.Machine

theorem Memory.wf_cons {k : Nat} {b : Byte} {r : Memory} :
    Memory.wf ((k, b) :: r) = true ↔ b ≠ 0 ∧ Memory.above k r = true ∧ Memory.wf r = true := by
  simp [Memory.wf, and_assoc]

/-- Nothing at or below a bound that a list lies above is listed. -/
theorem Memory.read_of_above {n a : Nat} (h : a ≤ n) : ∀ {m : Memory}, Memory.above n m = true → m.read a = 0
  | [], _ => rfl
  | (j, b) :: r, hm => by
    have hj : n < j := by simpa [Memory.above] using hm
    rw [Memory.read, if_neg (by omega), if_pos (by omega)]

/-- A list in canonical form whose first key lies above a bound stays so under a smaller bound. -/
theorem Memory.above_of_lt {n j : Nat} (h : n < j) : ∀ {m : Memory}, Memory.above j m = true → Memory.above n m = true
  | [], _ => rfl
  | (i, b) :: r, hm => by
    have hi : j < i := by simpa [Memory.above] using hm
    simpa [Memory.above] using by omega

/-- A byte read back is the byte written. -/
theorem Memory.read_write_same (m : Memory) (k : Nat) (b : Byte) (h : m.wf = true) : (m.write k b).read k = b := by
  induction m with
  | nil =>
    unfold Memory.write
    split
    · simp_all [Memory.read]
    · rw [Memory.read, if_pos rfl]
  | cons c r ih =>
    obtain ⟨j, x⟩ := c
    obtain ⟨-, ha, hr⟩ := Memory.wf_cons.mp h
    unfold Memory.write
    split
    · rename_i hk
      split
      · rename_i hb; rw [hb, Memory.read_of_above (Nat.le_of_eq hk) ha]
      · rw [Memory.read, if_pos rfl]
    · split
      · split
        · rename_i hb; rw [hb, Memory.read, if_neg (by omega), if_pos (by omega)]
        · rw [Memory.read, if_pos rfl]
      · rw [Memory.read, if_neg (by omega), if_neg (by omega), ih hr]

/-- A write changes no other byte. -/
theorem Memory.read_write_other (m : Memory) (k a : Nat) (b : Byte) (h : m.wf = true) (hne : a ≠ k) :
    (m.write k b).read a = m.read a := by
  induction m with
  | nil =>
    unfold Memory.write
    split
    · rfl
    · simp [Memory.read, hne.symm]
  | cons c r ih =>
    obtain ⟨j, x⟩ := c
    obtain ⟨-, ha, hr⟩ := Memory.wf_cons.mp h
    unfold Memory.write
    split
    · rename_i hk
      split
      · rw [Memory.read, if_neg (by omega)]
        split
        · exact Memory.read_of_above (by omega) ha
        · rfl
      · rw [Memory.read, Memory.read, if_neg (by omega), if_neg (show ¬ j = a by omega), hk]
    · split
      · split
        · rfl
        · by_cases hak : a < k
          · rw [Memory.read, if_neg (by omega), if_pos hak, Memory.read, if_neg (by omega), if_pos (by omega)]
          · rw [Memory.read, if_neg (by omega), if_neg hak]
      · rw [Memory.read, Memory.read, ih hr]

theorem Memory.above_write {n k : Nat} {b : Byte} {m : Memory} (hw : m.wf = true) (hn : n < k)
    (h : Memory.above n m = true) : Memory.above n (m.write k b) = true := by
  cases m with
  | nil =>
    unfold Memory.write
    split
    · rfl
    · simpa [Memory.above] using hn
  | cons c r =>
    obtain ⟨j, x⟩ := c
    obtain ⟨-, ha, -⟩ := Memory.wf_cons.mp hw
    have hj : n < j := by simpa [Memory.above] using h
    unfold Memory.write
    split
    · split
      · exact Memory.above_of_lt hj ha
      · simpa [Memory.above] using hn
    · split
      · split <;> simpa [Memory.above] using by assumption
      · simpa [Memory.above] using hj

/-- A write keeps the canonical form. -/
theorem Memory.write_wf (m : Memory) (k : Nat) (b : Byte) (h : m.wf = true) : (m.write k b).wf = true := by
  induction m with
  | nil =>
    unfold Memory.write
    split
    · rfl
    · rename_i hb; exact Memory.wf_cons.mpr ⟨hb, rfl, rfl⟩
  | cons c r ih =>
    obtain ⟨j, x⟩ := c
    obtain ⟨hx, ha, hr⟩ := Memory.wf_cons.mp h
    unfold Memory.write
    split
    · rename_i hk
      split
      · exact hr
      · rename_i hb; exact Memory.wf_cons.mpr ⟨hb, hk ▸ ha, hr⟩
    · split
      · rename_i hlt
        split
        · exact h
        · rename_i hb; exact Memory.wf_cons.mpr ⟨hb, by simpa [Memory.above] using hlt, h⟩
      · exact Memory.wf_cons.mpr ⟨hx, Memory.above_write hr (by omega) ha, ih hr⟩

theorem Memory.writeAll_wf (bs : List (Nat × Byte)) : ∀ (m : Memory), m.wf = true → (m.writeAll bs).wf = true := by
  induction bs with
  | nil => exact fun m h => h
  | cons c r ih => exact fun m h => ih _ (Memory.write_wf m c.1 c.2 h)

/-- Bytes that a write does not name keep their values. -/
theorem Memory.read_writeAll_other (bs : List (Nat × Byte)) (a : Nat) (ha : ∀ c ∈ bs, c.1 ≠ a) :
    ∀ (m : Memory), m.wf = true → (m.writeAll bs).read a = m.read a := by
  induction bs with
  | nil => exact fun m _ => rfl
  | cons c r ih =>
    intro m h
    have := ih (fun d hd => ha d (List.mem_cons_of_mem _ hd)) (m.write c.1 c.2) (Memory.write_wf m c.1 c.2 h)
    rw [show m.writeAll (c :: r) = (m.write c.1 c.2).writeAll r from rfl, this]
    exact Memory.read_write_other m c.1 a c.2 h (ha c List.mem_cons_self).symm

/-- Dropping listed bytes keeps the canonical form: they read zero from then on. -/
theorem Memory.filter_wf (p : Nat × Byte → Bool) : ∀ (m : Memory), m.wf = true → Memory.wf (m.filter p) = true := by
  have key : ∀ (n : Nat) (m : Memory), m.wf = true → Memory.above n m = true → Memory.above n (m.filter p) = true := by
    intro n m
    induction m with
    | nil => exact fun _ _ => rfl
    | cons c r ih =>
      obtain ⟨j, x⟩ := c
      intro h hn
      obtain ⟨-, ha, hr⟩ := Memory.wf_cons.mp h
      have hj : n < j := by simpa [Memory.above] using hn
      rw [List.filter_cons]
      split
      · simpa [Memory.above] using hj
      · exact ih hr (Memory.above_of_lt hj ha)
  intro m
  induction m with
  | nil => exact fun _ => rfl
  | cons c r ih =>
    obtain ⟨j, x⟩ := c
    intro h
    obtain ⟨hx, ha, hr⟩ := Memory.wf_cons.mp h
    rw [List.filter_cons]
    split
    · exact Memory.wf_cons.mpr ⟨hx, key j r hr ha, ih hr⟩
    · exact ih hr

/-- Memories in canonical form that read alike are the same list. -/
theorem Memory.ext_of_read : ∀ {m m' : Memory}, m.wf = true → m'.wf = true → (∀ a, m.read a = m'.read a) → m = m'
  | [], [], _, _, _ => rfl
  | [], (j, x) :: r, _, h', e => by
    have := e j
    rw [Memory.read, Memory.read, if_pos rfl] at this
    exact absurd this.symm (Memory.wf_cons.mp h').1
  | (j, x) :: r, [], h, _, e => by
    have := e j
    rw [Memory.read, Memory.read, if_pos rfl] at this
    exact absurd this (Memory.wf_cons.mp h).1
  | (j, x) :: r, (i, y) :: q, h, h', e => by
    obtain ⟨hx, ha, hr⟩ := Memory.wf_cons.mp h
    obtain ⟨hy, ha', hq⟩ := Memory.wf_cons.mp h'
    have hji : j = i := by
      by_contra hne
      rcases Nat.lt_or_gt_of_ne hne with hlt | hlt
      · have := e j
        rw [Memory.read, if_pos rfl, Memory.read, if_neg (by omega), if_pos hlt] at this
        exact hx this
      · have := e i
        rw [Memory.read, if_neg (by omega), if_pos hlt, Memory.read, if_pos rfl] at this
        exact hy this.symm
    subst hji
    have hxy : x = y := by
      have := e j
      rwa [Memory.read, if_pos rfl, Memory.read, if_pos rfl] at this
    subst hxy
    have : r = q := Memory.ext_of_read hr hq fun a => by
      by_cases haj : a ≤ j
      · rw [Memory.read_of_above haj ha, Memory.read_of_above haj ha']
      · have := e a
        rwa [Memory.read, if_neg (by omega), if_neg (by omega), Memory.read, if_neg (by omega), if_neg (by omega)] at this
    rw [this]

end Sys2Proof.Machine
end

