-- ==== Sys2Proof/Laws/Scalar.lean ====
section
/-! SUPPORT. How an instruction's turn ends, and what narrowing an exact integer gives. -/

namespace Sys2Proof.Machine

/-! ## The end of a turn -/

@[simp] theorem finish_ok (u s : State) : (Res.ok u).finish s = .next u.goesOn := rfl
@[simp] theorem finish_wait (u s : State) (w : WaitKind) : (Res.wait u w).finish s = .next (u.waits w) := rfl
@[simp] theorem finish_gone (u s : State) : (Res.gone u).finish s = .next u := rfl

/-- A trap enters its handler unless the strand's own passes still run. -/
theorem finish_trap (u s : State) (t : Trap) (h : s.me.tr.st ≠ .running) :
    (Res.trap u t).finish s = .next (u.takeTrap t 0) := by
  simp [Res.finish, Res.settle, h]

/-- Every meaning answers a next state. -/
theorem finish_next (r : Res) (s : State) : r.finish s = .next (r.settle s) := rfl

/-! ## Narrowing (R75, R99) -/

theorem readInt_lowBits_unsigned (w : Nat) (e : Int) : Num.readInt false w (Num.lowBits w e) = e % 2 ^ w := by
  have hp : (0 : Int) < 2 ^ w := Int.pow_pos (by decide)
  have h0 := Int.emod_nonneg e (Int.ne_of_gt hp)
  have h1 := Int.emod_lt_of_pos e hp
  simp only [Num.readInt, Num.lowBits, Bool.false_and, Bool.false_eq_true, if_false]
  rw [Nat.mod_eq_of_lt (by zify; rw [Int.toNat_of_nonneg h0]; exact_mod_cast h1), Int.toNat_of_nonneg h0]

theorem readInt_lowBits_signed (w : Nat) (hw : 0 < w) (e : Int) :
    Num.readInt true w (Num.lowBits w e) = e.bmod (2 ^ w) := by
  obtain ⟨v, rfl⟩ : ∃ v, w = v + 1 := ⟨w - 1, by omega⟩
  have hp : (0 : Int) < 2 ^ (v + 1) := Int.pow_pos (by decide)
  have h0 := Int.emod_nonneg e (Int.ne_of_gt hp)
  have h1 := Int.emod_lt_of_pos e hp
  have hm : ((e % 2 ^ (v + 1)).toNat : Int) = e % 2 ^ (v + 1) := Int.toNat_of_nonneg h0
  have hlt : (e % 2 ^ (v + 1)).toNat < 2 ^ (v + 1) := by zify; rw [hm]; exact_mod_cast h1
  have hd : (2 : Nat) ^ (v + 1) = 2 * 2 ^ v := by rw [Nat.pow_succ]; omega
  have hz : (2 : Int) ^ (v + 1) = 2 * 2 ^ v := by rw [Int.pow_succ]; omega
  simp only [Num.readInt, Num.lowBits, Bool.true_and, decide_eq_true_eq, Int.bmod, Nat.mod_eq_of_lt hlt, hm,
    Nat.add_sub_cancel]
  have hc : ((2 ^ (v + 1) : Nat) : Int) = 2 ^ (v + 1) := by push_cast; rfl
  rw [hc]
  have hq : ((2 : Int) ^ (v + 1) + 1) / 2 = 2 ^ v := by omega
  rw [hq]
  have hv : ((2 ^ v : Nat) : Int) = 2 ^ v := by push_cast; rfl
  split
  · rename_i h
    rw [if_neg (by rw [← hm, ← hv]; omega)]
  · rename_i h
    rw [if_pos (by rw [← hm, ← hv]; omega)]

theorem Ty.width_pos (t : Ty) : 0 < t.width := by cases t <;> decide

/-- An exact integer's low w bits, extended under the type, are the integer wrapped into the type's range. -/
theorem extTy_lowBits (t : Ty) (e : Int) : extTy t (Num.lowBits t.width e) = BitVec.ofInt 64 (intWrap t e) := by
  unfold extTy intWrap
  cases h : t.isI
  · simp [readInt_lowBits_unsigned]
  · simp [readInt_lowBits_signed t.width (Ty.width_pos t)]

theorem inRange_eq (t : Ty) (e : Int) : Num.inRange t.isI t.width e = decide (intLo t ≤ e ∧ e ≤ intHi t) := by
  rw [Bool.decide_and]; rfl

theorem intWrap_of_fits (t : Ty) (e : Int) (h : intLo t ≤ e ∧ e ≤ intHi t) : intWrap t e = e := by
  unfold intWrap intLo intHi at *
  have hz : (2 : Int) ^ t.width = 2 * 2 ^ (t.width - 1) := by
    have hw := Ty.width_pos t
    obtain ⟨v, hv⟩ : ∃ v, t.width = v + 1 := ⟨t.width - 1, by omega⟩
    rw [hv, Int.pow_succ, Nat.add_sub_cancel]; omega
  have hp : (0 : Int) < 2 ^ (t.width - 1) := Int.pow_pos (by decide)
  split
  · rename_i hi
    simp only [hi, if_true] at h
    have hc : ((2 ^ t.width : Nat) : Int) = 2 ^ t.width := by push_cast; rfl
    rw [Int.bmod_eq_of_le] <;> rw [hc] <;> omega
  · rename_i hi
    simp only [hi, if_false, Bool.false_eq_true] at h
    exact Int.emod_eq_of_lt h.1 (by omega)

/-- The one way an integer form ends. -/
theorem intResult_finish (s s0 : State) (t : Ty) (sat : Bool) (d : GReg) (e : Int) :
    (intResult s t sat d e).finish s0 = .next (s.intDone t sat d e) := by
  unfold intResult State.intDone
  have hlo : intLo t ≤ intHi t := by cases t <;> decide
  have hl : intWrap t (intLo t) = intLo t := intWrap_of_fits _ _ ⟨le_refl _, hlo⟩
  have hh : intWrap t (intHi t) = intHi t := intWrap_of_fits _ _ ⟨hlo, le_refl _⟩
  cases sat
  · simp only [Num.narrow, Num.wrap, inRange_eq, Num.flagIf]
    by_cases h : intLo t ≤ e ∧ e ≤ intHi t <;> simp [h, extTy_lowBits]
  · simp only [Num.narrow, Num.saturate, if_true]
    have h1 : Num.intMin t.isI t.width = intLo t := rfl
    have h2 : Num.intMax t.isI t.width = intHi t := rfl
    rw [h1, h2]
    split
    · rename_i h
      simp only [finish_ok, extTy_lowBits, hl]
      rw [if_neg (by omega), show max (intLo t) (min (intHi t) e) = intLo t by omega]
    · split
      · rename_i h
        simp only [finish_ok, extTy_lowBits, hh]
        rw [if_neg (by omega), show max (intLo t) (min (intHi t) e) = intHi t by omega]
      · simp only [finish_ok, extTy_lowBits]
        rw [if_pos (by omega), intWrap_of_fits _ _ (by omega), show max (intLo t) (min (intHi t) e) = e by omega]

/-- A value of a type lies in its range. -/
theorem readTy_fits (t : Ty) (x : Word) : intLo t ≤ readTy t x ∧ readTy t x ≤ intHi t := by
  unfold readTy Num.readInt intLo intHi
  have hw := Ty.width_pos t
  obtain ⟨v, hv⟩ : ∃ v, t.width = v + 1 := ⟨t.width - 1, by omega⟩
  have hlt : x.toNat % 2 ^ t.width < 2 ^ t.width := Nat.mod_lt _ (by positivity)
  rw [hv] at *
  have hd : (2 : Nat) ^ (v + 1) = 2 * 2 ^ v := by rw [Nat.pow_succ]; omega
  have hz : (2 : Int) ^ (v + 1) = 2 * 2 ^ v := by rw [Int.pow_succ]; omega
  have hcv : ((2 ^ v : Nat) : Int) = 2 ^ v := by push_cast; rfl
  simp only [Nat.add_sub_cancel]
  cases t.isI
  · simp only [Bool.false_and, Bool.false_eq_true, if_false]
    constructor
    · omega
    · rw [hz, ← hcv]; omega
  · simp only [Bool.true_and, decide_eq_true_eq, if_true]
    split <;> constructor <;> (try rw [hz]) <;> rw [← hcv] <;> omega

end Sys2Proof.Machine
end

