-- ==== Sys2Proof/Laws/Access.lean ====
section
/-! SUPPORT. What the shared operations of transfers, traps and memory accesses answer where nothing holds them back. -/

namespace Sys2Proof.Machine

/-! ## What a home changes -/

/-- t differs from s only at a home: in storage with its errors, accumulators and release tags, in logs, counters and the host's event
ring; and storage keeps its form. -/
structure HomeOnly (s t : State) : Prop where
  cur : t.cur = s.cur
  me : t.me = s.me
  iss : t.iss = s.iss
  agenda : t.agenda = s.agenda
  prompt : t.prompt = s.prompt
  freeCtr : t.freeCtr = s.freeCtr
  strands : t.strands = s.strands
  tiles : t.tiles = s.tiles
  rows : t.rows = s.rows
  parts : t.parts = s.parts
  net : t.net = s.net
  gangs : t.gangs = s.gangs
  phasers : t.phasers = s.phasers
  members : t.members = s.members
  rings : t.rings = s.rings
  streams : t.streams = s.streams
  weaves : t.weaves = s.weaves
  saves : t.saves = s.saves
  nextWid : t.nextWid = s.nextWid
  order : t.order = s.order
  points : t.points = s.points
  pointMoves : t.pointMoves = s.pointMoves
  failed : t.failed = s.failed
  slots : t.slots = s.slots
  sent : t.sent = s.sent
  wf : s.mem.wf = true → t.mem.wf = true

namespace HomeOnly
variable {s t u : State}

theorem refl (s : State) : HomeOnly s s := by constructor <;> first | rfl | exact id

theorem trans (h : HomeOnly s t) (k : HomeOnly t u) : HomeOnly s u :=
  ⟨k.1.trans h.1, k.2.trans h.2, k.3.trans h.3, k.4.trans h.4, k.5.trans h.5, k.6.trans h.6, k.7.trans h.7, k.8.trans h.8,
    k.9.trans h.9, k.10.trans h.10, k.11.trans h.11, k.12.trans h.12, k.13.trans h.13, k.14.trans h.14, k.15.trans h.15,
    k.16.trans h.16, k.17.trans h.17, k.18.trans h.18, k.19.trans h.19, k.20.trans h.20, k.21.trans h.21, k.22.trans h.22,
    k.23.trans h.23, k.24.trans h.24, k.25.trans h.25, fun x => k.26 (h.26 x)⟩

theorem foldl {α : Type} {f : State → α → State} (hf : ∀ s x, HomeOnly s (f s x)) (xs : List α) (s : State) :
    HomeOnly s (xs.foldl f s) := by
  induction xs generalizing s with
  | nil => exact refl s
  | cons x r ih => exact (hf s x).trans (ih _)

theorem fold (s : State) (ks : List Nat) : HomeOnly s (s.fold ks) := by
  unfold State.fold; split <;> (constructor <;> first | rfl | exact id)

theorem perform (s : State) (bs : List (Nat × Byte)) (y : Option SyncTag) : HomeOnly s (s.perform bs y) := by
  have h := fold s (bs.map (·.1))
  unfold State.perform
  exact ⟨h.1, h.2, h.3, h.4, h.5, h.6, h.7, h.8, h.9, h.10, h.11, h.12, h.13, h.14, h.15, h.16, h.17, h.18, h.19, h.20, h.21, h.22,
    h.23, h.24, h.25, fun x => Memory.writeAll_wf bs s.mem x⟩

theorem modDie (s : State) (d : Nat) (f : Die → Die) : HomeOnly s (s.modDie d f) := by constructor <;> first | rfl | exact id
theorem countCore (s : State) (c n : Nat) : HomeOnly s (s.countCore c n) := by constructor <;> first | rfl | exact id
theorem countBlock (s : State) (c n : Nat) : HomeOnly s (s.countBlock c n) := by constructor <;> first | rfl | exact id
theorem countDie (s : State) (c n : Nat) : HomeOnly s (s.countDie c n) := by constructor <;> first | rfl | exact id
theorem withArrays (s : State) (p : List Nat) (q : List Upset) : HomeOnly s { s with poison := p, upsets := q } := by
  constructor <;> first | rfl | exact id
theorem withHost (s : State) (p : HostPage) : HomeOnly s { s with host := p } := by constructor <;> first | rfl | exact id

theorem hostEvent (s : State) (a b c d : Nat) (w : Word) : HomeOnly s (s.hostEvent a b c d w).1 := by
  unfold State.hostEvent
  dsimp only
  split
  · exact refl s
  · exact (perform s _ none).trans (withHost _ _)

theorem logRec (s : State) (a b c d : Nat) (l : Word) (w : Nat) (p : Word) : HomeOnly s (s.logRec a b c d l w p) := by
  unfold State.logRec
  dsimp only
  split
  · exact countDie s _ _
  · exact (modDie s _ _).trans (hostEvent _ ..)

theorem logCorrected (s : State) (a b c : Nat) (l : Word) (w : Nat) (p : Word) : HomeOnly s (s.logCorrected a b c l w p) := by
  unfold State.logCorrected
  dsimp only
  split
  · exact refl s
  · exact (modDie s _ _).trans (logRec _ ..)

theorem counted (s : State) (w : Nat) (n m : Nat) (d : Nat) :
    HomeOnly s (match localOf w, vaultOf w with
      | some (c, _), _ => s.countCore c 0x00
      | none, some (blk, _) => s.countBlock blk (n + m)
      | none, none => s.countDie d (0x20 + m)) := by
  split
  · exact countCore _ _ _
  · exact countBlock _ _ _
  · exact countDie _ _ _

theorem meetUpsetAs (wid : Nat) (pos : Word) (s : State) (u : Upset) : HomeOnly s (s.meetUpsetAs wid pos u) := by
  unfold State.meetUpsetAs
  dsimp only
  split
  · split
    · exact withArrays s _ _
    · refine HomeOnly.trans ?_ (logRec _ ..)
      exact (withArrays s _ _).trans (counted _ _ _ _ _)
  · refine HomeOnly.trans ?_ (logCorrected _ ..)
    exact (withArrays s s.poison _).trans (counted _ _ _ _ _)

theorem meetUpsetsAs (s : State) (wid : Nat) (pos : Word) (ks : List Nat) : HomeOnly s (s.meetUpsetsAs wid pos ks) := by
  unfold State.meetUpsetsAs
  split
  · exact refl s
  · exact foldl (fun s u => meetUpsetAs wid pos s u) _ s

theorem meetUpsetsOf (s : State) (k : StrandIx) (ks : List Nat) : HomeOnly s (s.meetUpsetsOf k ks) := meetUpsetsAs s _ _ ks

theorem meetUpsetsAt (s : State) (d : Nat) (ks : List Nat) : HomeOnly s (s.meetUpsetsAt d ks) := meetUpsetsAs s _ _ ks

theorem meetUpsets (s : State) (ks : List Nat) : HomeOnly s (s.meetUpsets ks) := meetUpsetsOf s s.cur ks

theorem meetRangeAs (s : State) (wid : Nat) (pos : Word) (lo n : Nat) : HomeOnly s (s.meetRangeAs wid pos lo n) :=
  foldl (fun s u => meetUpsetAs wid pos s u) _ s

theorem meetRange (s : State) (lo n : Nat) : HomeOnly s (s.meetRange lo n) := meetRangeAs s _ _ lo n

theorem foldRange (s : State) (lo n : Nat) : HomeOnly s (s.foldRange lo n) := by
  unfold State.foldRange; split <;> (constructor <;> first | rfl | exact id)

theorem touchAs (s : State) (wid : Nat) (pos : Word) (ks : List Nat) : HomeOnly s (s.touchAs wid pos ks) :=
  (meetUpsetsAs s wid pos ks).trans (fold _ ks)

theorem touchWalk (s : State) (wid : Nat) (pos : Word) (ws : List Nat) : HomeOnly s (s.touchWalk wid pos ws) :=
  (meetUpsetsAs s wid pos ws).trans (fold _ _)

theorem touchKeys (s : State) (k : StrandIx) (ks : List Nat) : HomeOnly s (s.touchKeys k ks) := (meetUpsetsOf s k ks).trans (fold _ ks)

theorem meetWalkAs (s v : State) (wid : Nat) (pos : Word) (x : Ctx) (a : Word) : HomeOnly s (s.meetWalkAs v wid pos x a) := by
  unfold State.meetWalkAs
  split
  · exact refl s
  · exact touchWalk s wid pos _

theorem meetWalkOf (s v : State) (k : StrandIx) (x : Ctx) (a : Word) : HomeOnly s (s.meetWalkOf v k x a) := meetWalkAs s v _ _ x a

theorem meetWalk (s : State) (x : Ctx) (a : Word) : HomeOnly s (s.meetWalk x a) := meetWalkOf s s s.cur x a

theorem meetFetchWalk (s : State) (a : Word) : HomeOnly s (s.meetFetchWalk a) := meetWalkOf s _ s.cur s.ctx _

theorem walkedTo (s : State) (n : Nat) (as : List Word) : HomeOnly s (s.walkedTo n as) :=
  foldl (fun s a => meetWalk s s.ctx a) _ s

theorem meetBacking (s : State) (a : Word) : HomeOnly s (s.meetBacking a) := by
  unfold State.meetBacking
  dsimp only
  split
  · exact meetFetchWalk s _
  · exact (meetFetchWalk s _).trans (touchKeys _ _ _)

theorem meetFetch (s : State) (a : Word) : HomeOnly s (s.meetFetch a) := by
  unfold State.meetFetch
  split
  · exact refl s
  · split
    · exact meetFetchWalk s _
    · exact meetBacking s a

end HomeOnly

/-! ## Transfers -/

theorem State.lands.enter {s : State} {t : Word} {e : Bool} {l : Line} (h : s.lands t e l) :
    s.enter t e = .ok ((s.meetFetch t).keepLine (lineBase t).toNat l) := by
  obtain ⟨h1, h2, h3, h4, h5⟩ := h
  unfold State.enter; simp [h1, h2, illegalLine, h3, targetMiss, h4]
  rcases h5 with rfl | h5 <;> simp [*]

/-- A transfer that lands, as an instruction's whole effect. -/
theorem State.lands.transfer {s : State} {t : Word} {e : Bool} {l : Line} (h : s.lands t e l) (s0 : State) :
    (s.transfer t e).finish s0 = .next (s.jumped t l) := by
  unfold State.transfer; rw [h.enter]; rfl

/-- A transfer that cannot fetch its target raises the cause that stopped it. -/
theorem transfer_error {s : State} {t : Word} {e : Bool} {x : Trap} (h : s.enter t e = .error x) :
    s.transfer t e = .trap (s.metFetch t) x := by
  unfold State.transfer; rw [h]

theorem requireSys_sys {s : State} (h : s.me.sys = true) (r : Res) : requireSys s r = r := by unfold requireSys; simp [h]
theorem requireSys_user {s : State} (h : s.me.sys = false) (r : Res) : requireSys s r = trapOf s 0x05 0 0 := by
  unfold requireSys; simp [h]

/-- A read or write of a control register that need not wait. -/
theorem flagsWait_ready {s : State} {r : CReg} (k : Res) (hm : r = .rmode → s.rmodeReady) (h : r = .flags → s.flagsReady) :
    flagsWait s r k = k := by
  unfold flagsWait
  split
  · rename_i hr
    exact absurd (hr.2.symm.trans (hm hr.1)) (by decide)
  split
  · rfl
  · rename_i hr
    obtain ⟨h1, h2, h3⟩ := h (not_not.mp hr)
    simp only [h1, h2, ↓reduceIte, Bool.false_eq_true]
    rw [if_neg]
    simp only [List.any_eq_true, not_exists, not_and, Bool.and_eq_true, Bool.or_eq_true, beq_iff_eq]
    intro e he ha hb
    rcases h3 e he ha with h | h <;> simp [h] at hb

/-! ## Waits -/

theorem afterMemPasses_free {s : State}
    (h : ¬(s.me.tr.st = .running ∧ s.me.tr.entries.any (fun e => entryTouchesMem e.instr) = true)) (r : Res) :
    afterMemPasses s r = r := if_neg h

theorem memOp_free {s : State} (h : s.memFree) (k : State → Res) : memOp s k = k s := by
  unfold memOp; rw [afterMemPasses_free h.2.2, h.2.1]; rfl

theorem State.unheld.memFree {s : State} (h : s.unheld) : s.memFree := ⟨h.1.1, h.2.2, fun x => h.1.2 x.1⟩

theorem notRecordable_unheld {s : State} (h : s.unheld) (k : State → Res) : notRecordable s k = k s := by
  unfold notRecordable; rw [if_neg h.1.2, h.2.1]; rfl

theorem recordable_unheld {s : State} (h : s.unheld) (i : Instr) (rs : List GReg) (k : State → Res) :
    recordable i rs s k = k s := by
  unfold recordable; rw [if_neg h.1.2, h.2.1]
  cases k s <;> rfl

theorem walked_ready {s : State} {n : Nat} {as : List Word} (h0 : s.me.stage = .none) (h : s.walkable n as) (k : State → Res) :
    s.walked n as k = k (s.walkedTo n as) := by
  unfold State.walked
  simp only [h0, h.2, Bool.false_eq_true, ↓reduceIte, bne_self_eq_false]
  exact if_pos ((HomeOnly.walkedTo s n as).prompt.trans h.1)

theorem releaseWait_drained {s : State} (h : s.drained) (k : State → Res) : releaseWait s k = k s.markIssue := by
  unfold releaseWait; rw [if_pos]; exact Bool.and_eq_true_iff.mpr h

theorem fenceStWait_done {s : State} (h : s.postedDone s.issueSeq = true) (k : State → Res) : fenceStWait s k = k s.markIssue := by
  unfold fenceStWait; rw [if_pos]; exact h

/-! ## Loads -/

/-- A load whose plan passes its checks, answered at once. -/
theorem load_prompt {s : State} {a : Attr} {parts : List (Nat × Site)} {k : State → List (Nat × Nat) → Res}
    (h0 : s.me.stage = .none) (h1 : s.prompt = true)
    (h2 : s.ownPosted (parts.flatMap fun p => p.2.readKeys ++ p.2.reads.flatMap fun r => keysFrom r 8) = false)
    (hb : s.brokenLocal (parts.flatMap fun p => p.2.readKeys ++ p.2.reads.flatMap fun r => keysFrom r 8) = false)
    (h3 : (s.serve parts).2.2.2 = none) :
    s.load a (.ok parts) k = k ((s.serve parts).1.noteTags a (s.serve parts).2.2.1) (s.serve parts).2.1 := by
  unfold State.load
  rw [h0]
  simp only [h2, h1, hb, Bool.true_or, ↓reduceIte, Bool.false_eq_true]
  rcases hs : s.serve parts with ⟨s', got, tags, f⟩
  rw [hs] at h3
  simp only at h3
  rw [h3]

theorem load_error {s : State} {a : Attr} {t : Trap} {k : State → List (Nat × Nat) → Res} (h0 : s.me.stage = .none) :
    s.load a (.error t) k = .trap s t := by
  unfold State.load; rw [h0]

/-- A load whose reply has come. -/
theorem load_done {s : State} {a : Attr} {plan : Except Trap (List (Nat × Site))} {k : State → List (Nat × Nat) → Res}
    {got : List (Nat × Nat)} {tags : List SyncTag} {fl : BitVec 9} (h0 : s.me.stage = .loadDone got tags fl) :
    s.load a plan k = k (s.noteTags a tags) got := by
  unfold State.load; rw [h0]

/-- One part of a read. -/
theorem serve_one {s : State} {i : Nat} {y : Site} (h : (s.meetUpsets y.readKeys).sitePoisoned y = false) :
    s.serve [(i, y)] = (s.readAt y, [(i, (s.meetUpsets y.readKeys).readSite y)], (s.meetUpsets y.readKeys).tagsOf y.readKeys,
      none) := by
  unfold State.meetUpsets at h
  unfold State.serve State.serveOf State.readAt State.meetUpsets
  simp only [List.foldl_cons, List.foldl_nil, h, Bool.false_eq_true, ↓reduceIte, List.nil_append]

/-- With no error, accumulator or release tag anywhere, a read of words that are all usable changes nothing. -/
theorem serve_clean {s : State} (h1 : s.upsets = []) (h2 : s.exact = []) (h3 : s.relTags = []) {ys : List (Nat × Site)}
    (h : ∀ p ∈ ys, s.sitePoisoned p.2 = false) : s.serve ys = (s, ys.map (fun p => (p.1, s.readSite p.2)), [], none) := by
  have hm : ∀ k ks, s.meetUpsetsOf k ks = s := fun k ks => by unfold State.meetUpsetsOf State.meetUpsetsAs; simp [h1]
  have hf : ∀ ks, s.fold ks = s := fun ks => by unfold State.fold; simp [h2]
  have ht : ∀ ks, s.tagsOf ks = [] := fun ks => by unfold State.tagsOf; simp [h3]
  induction ys using List.reverseRecOn with
  | nil => rfl
  | append_singleton r p ih =>
    have ih := ih fun q hq => h q (by simp [hq])
    unfold State.serve State.serveOf at ih ⊢
    rw [List.foldl_append, ih]
    simp only [List.foldl_cons, List.foldl_nil, hm, h p (by simp), Bool.false_eq_true, ↓reduceIte, hf, ht, List.append_nil,
      List.map_append, List.map_cons, List.map_nil]

/-! ## Stores, atomics and reductions -/

/-- A store that need not wait. -/
theorem store_ready {s : State} {a : Attr} {of : Bool} {puts : List Put} (h : s.storable a of puts) (k : State → Res) :
    s.store a of puts k =
      (let u := (s.marked (of || a.releases)).putAll (s.syncOf a of) a.scope puts
       k (if puts.isEmpty then u else u.sided)) := by
  obtain ⟨h1, h2, h3, h4, hb, h5, h6⟩ := h
  have hc : ∀ of' : Bool, of' = true → of = true → (puts.all fun p => s.classDone p.site.home) = true := by
    intro _ _ ho
    simpa only [List.all_eq_true] using h4 ho
  have hl : (puts.any fun p => p.site.loc && p.bytes.any fun b => s.claimed b.1) = false := by
    rw [List.any_eq_false]
    intro p hp
    cases hloc : p.site.loc
    · simp
    · simpa using fun a b hb => h6 p hp hloc (a, b) hb
  cases ha : a.releases <;> cases ho : of
  · unfold State.store
    simp only [ha, Bool.false_eq_true, ↓reduceIte, Bool.or_self, State.marked, h2, h3, hb, Bool.false_and, h5, Bool.not_true, hl]
  · subst ho
    unfold State.store
    have e1 : ∀ ks, s.markIssue.ownPosted ks = s.ownPosted ks := fun _ => rfl
    have e2 : ∀ ks, s.markIssue.pendingRead ks = s.pendingRead ks := pendingRead_markIssue s
    have e3 : ∀ x, s.markIssue.classDone x = s.classDone x := fun _ => rfl
    have e4 : ∀ x, s.markIssue.classRoom x = s.classRoom x := fun _ => rfl
    have eb : ∀ x, s.markIssue.brokenLocal x = s.brokenLocal x := fun _ => rfl
    have e5 : ∀ x, s.markIssue.claimed x = s.claimed x := fun _ => rfl
    have e6 : s.markIssue.syncOf a true = s.syncOf a true := rfl
    simp only [ha, Bool.false_eq_true, ↓reduceIte, Bool.or_false, State.marked, e1, e2, e3, e4, eb, hb, e5, e6, h2, h3,
      hc true rfl rfl, Bool.not_true, Bool.and_false, h5, hl, Bool.or_self]
  · subst ho
    unfold State.store
    have e1 : ∀ ks, s.markIssue.ownPosted ks = s.ownPosted ks := fun _ => rfl
    have e2 : ∀ ks, s.markIssue.pendingRead ks = s.pendingRead ks := pendingRead_markIssue s
    have e4 : ∀ x, s.markIssue.classRoom x = s.classRoom x := fun _ => rfl
    have eb : ∀ x, s.markIssue.brokenLocal x = s.brokenLocal x := fun _ => rfl
    have e5 : ∀ x, s.markIssue.claimed x = s.claimed x := fun _ => rfl
    have e6 : s.markIssue.syncOf a false = s.syncOf a false := rfl
    simp only [ha, Bool.false_eq_true, ↓reduceIte, Bool.false_or, State.marked]
    rw [releaseWait_drained (h1 ha)]
    simp only [e1, e2, e4, eb, hb, e5, e6, h2, h3, Bool.false_eq_true, ↓reduceIte, Bool.or_self, Bool.false_and, h5, hl, Bool.not_true]
  · subst ho
    unfold State.store
    have e1 : ∀ ks, s.markIssue.ownPosted ks = s.ownPosted ks := fun _ => rfl
    have e2 : ∀ ks, s.markIssue.pendingRead ks = s.pendingRead ks := pendingRead_markIssue s
    have e3 : ∀ x, s.markIssue.classDone x = s.classDone x := fun _ => rfl
    have e4 : ∀ x, s.markIssue.classRoom x = s.classRoom x := fun _ => rfl
    have eb : ∀ x, s.markIssue.brokenLocal x = s.brokenLocal x := fun _ => rfl
    have e5 : ∀ x, s.markIssue.claimed x = s.claimed x := fun _ => rfl
    have e6 : s.markIssue.syncOf a true = s.syncOf a true := rfl
    have e7 : s.markIssue.markIssue = s.markIssue := rfl
    have hd : s.markIssue.drained := h1 ha
    simp only [ha, ↓reduceIte, Bool.true_or, State.marked]
    rw [releaseWait_drained hd, e7]
    simp only [e1, e2, e3, e4, eb, hb, e5, e6, h2, h3, hc true rfl rfl, Bool.false_eq_true, ↓reduceIte, Bool.or_self, Bool.not_true,
      Bool.and_false, h5, hl]

/-- An atomic that need not wait, performed within its step. -/
theorem atomic_prompt {s : State} {a : Attr} {op : AtomOp} {ty : Ty} {addr b c : Word} {y : Site}
    {k : State → Nat → Num.Flags → Res} (h0 : s.me.stage = .none) (hp : s.prompt = true)
    (hy : s.checkAtom s.ctx .rmw addr (ty.width / 8) = .ok y) (h : s.atomReady a y)
    (hf : ((s.marked a.releases).meetUpsets y.keys).sitePoisoned y = false) :
    s.atomic a op ty addr b c k =
      (let r := (s.marked a.releases).doAtom op ty y b c (s.syncOf a false)
       k (sidedAtom op ty b r.2.1 (r.1.noteTags a r.2.2.2.1)) r.2.1 r.2.2.1) := by
  obtain ⟨h1, h2, h3, hb, h4⟩ := h
  have hk : (y.keys.any s.claimed) = false := by rw [List.any_eq_false]; intro k hk; simp [h4 k hk]
  have hn : ((s.marked a.releases).doAtom op ty y b c (s.syncOf a false)).2.2.2.2 = none := by
    unfold State.doAtom State.doAtomOf
    unfold State.meetUpsets at hf
    simp only [hf, Bool.false_eq_true, ↓reduceIte]
    split <;> rfl
  have e1 : ∀ ks, s.markIssue.ownPosted ks = s.ownPosted ks := fun _ => rfl
  have e2 : ∀ ks, s.markIssue.pendingRead ks = s.pendingRead ks := pendingRead_markIssue s
  have e5 : s.markIssue.claimed = s.claimed := rfl
  have e6 : s.markIssue.syncOf a false = s.syncOf a false := rfl
  have e8 : s.markIssue.prompt = s.prompt := rfl
  have eb : ∀ x, s.markIssue.brokenLocal x = s.brokenLocal x := fun _ => rfl
  unfold State.atomic
  rw [h0]
  simp only [hy]
  cases ha : a.releases
  · simp only [ha, State.marked, Bool.false_eq_true, ↓reduceIte] at hn ⊢
    simp only [h2, h3, hk, hp, hb, Bool.or_self, Bool.and_false, Bool.false_eq_true, ↓reduceIte, Bool.true_or]
    rcases hr : s.doAtom op ty y b c (s.syncOf a false) with ⟨s', old, fl, tags, f⟩
    rw [hr] at hn; simp only at hn; subst hn; rfl
  · simp only [ha, State.marked, ↓reduceIte] at hn ⊢
    rw [releaseWait_drained (h1 ha)]
    simp only [e1, e2, e5, e6, e8, eb, hb, h2, h3, hk, hp, Bool.or_self, Bool.and_false, Bool.false_eq_true, ↓reduceIte, Bool.true_or]
    rcases hr : s.markIssue.doAtom op ty y b c (s.syncOf a false) with ⟨s', old, fl, tags, f⟩
    rw [hr] at hn; simp only at hn; subst hn; rfl

/-- Reductions that need not wait. -/
theorem reduce_ready {s : State} {a : Attr} {op : RedOp} {ty : Ty} {puts : List RedPut} (h : s.reducible a puts)
    (k : State → Res) :
    s.reduce a op ty puts k =
      (let u := s.marked a.releases
       k ((if puts.isEmpty then u else u.sided).redAll op ty
        (if a.releases then some ⟨.core s.core, a.scope⟩ else s.me.relFence.map fun sc => ⟨.core s.core, sc⟩) puts)) := by
  obtain ⟨h1, h2, h3, hb, h4, h5⟩ := h
  have hl : (puts.any fun p => p.site.loc && p.site.keys.any s.claimed) = false := by
    rw [List.any_eq_false]
    intro p hp
    cases hloc : p.site.loc
    · simp
    · simpa using fun a ha => h5 p hp hloc a ha
  have e1 : ∀ ks, s.markIssue.ownPosted ks = s.ownPosted ks := fun _ => rfl
  have e2 : ∀ ks, s.markIssue.pendingRead ks = s.pendingRead ks := pendingRead_markIssue s
  have e4 : ∀ x, s.markIssue.classRoom x = s.classRoom x := fun _ => rfl
  have eb : ∀ x, s.markIssue.brokenLocal x = s.brokenLocal x := fun _ => rfl
  have e5 : s.markIssue.claimed = s.claimed := rfl
  have es : ∀ c : Bool, (if c then s else s.sided).me.relFence = s.me.relFence := by intro c; cases c <;> rfl
  have ec : ∀ c : Bool, (if c then s else s.sided).core = s.core := by intro c; cases c <;> rfl
  have es' : ∀ c : Bool, (if c then s.markIssue else s.markIssue.sided).core = s.core := by intro c; cases c <;> rfl
  unfold State.reduce
  cases ha : a.releases
  · simp only [State.marked, Bool.false_eq_true, ↓reduceIte, h2, h3, hb, hl, h4, Bool.or_self, Bool.not_true, es, ec]
  · simp only [State.marked, ↓reduceIte]
    rw [releaseWait_drained (h1 ha)]
    simp only [e1, e2, e4, eb, hb, e5, h2, h3, hl, h4, Bool.or_self, Bool.not_true, Bool.false_eq_true, ↓reduceIte, es']

end Sys2Proof.Machine
end

