-- ==== Sys2Proof/Laws/Canonical.lean ====
section
/-! SUPPORT. Every operation over storage keeps its canonical form, device reset has it, and what trap entry can do. -/

namespace Sys2Proof.Machine

/-! ## Writes at homes -/

@[simp] theorem fold_mem (s : State) (ks : List Nat) : (s.fold ks).mem = s.mem := by
  unfold State.fold; split <;> rfl

@[simp] theorem perform_mem (s : State) (bs : List (Nat × Byte)) (y : Option SyncTag) : (s.perform bs y).mem = s.mem.writeAll bs := rfl

theorem perform_wf {s : State} (h : s.mem.wf = true) (bs : List (Nat × Byte)) (y : Option SyncTag) : (s.perform bs y).mem.wf = true :=
  Memory.writeAll_wf bs s.mem h

theorem performRmw_wf {s : State} (h : s.mem.wf = true) (bs : List (Nat × Byte)) (y : Option SyncTag) :
    (s.performRmw bs y).mem.wf = true := by
  unfold State.performRmw; split <;> exact Memory.writeAll_wf bs s.mem h

theorem writeArea_wf {s : State} (h : s.mem.wf = true) (addr wid len flags : Nat) (pos : Word) :
    (s.writeArea addr wid len flags pos).mem.wf = true := by
  unfold State.writeArea
  exact perform_wf (s := { s.meetRangeAs wid pos addr len with freeCtr := (s.meetRangeAs wid pos addr len).freeCtr + 1 })
    ((HomeOnly.meetRangeAs s wid pos addr len).wf h) _ none

/-! ## Zeroing and copying -/

theorem zeroRange_wf {s : State} (h : s.mem.wf = true) (lo n : Nat) : (s.zeroRange lo n).mem.wf = true :=
  Memory.filter_wf _ s.mem h

theorem zeroVault_wf {s : State} (h : s.mem.wf = true) (w : Weave) : (s.zeroVault w).mem.wf = true := by
  unfold State.zeroVault
  generalize w.blocks = bs
  induction bs generalizing s with
  | nil => exact h
  | cons b r ih => exact ih (zeroRange_wf h _ _)

theorem copyStorage_wf {s : State} (h : s.mem.wf = true) (src dst n : Nat) : (s.copyStorage src dst n).mem.wf = true :=
  Memory.writeAll_wf _ _ (Memory.filter_wf _ _ (by simpa using h))

/-! ## Errors met and events logged -/

theorem hostEvent_wf {s : State} (h : s.mem.wf = true) (a b c d : Nat) (w : Word) : (s.hostEvent a b c d w).1.mem.wf = true :=
  (HomeOnly.hostEvent s a b c d w).wf h

theorem logRec_wf {s : State} (h : s.mem.wf = true) (a b c d : Nat) (l : Word) (w : Nat) (p : Word) :
    (s.logRec a b c d l w p).mem.wf = true := (HomeOnly.logRec s a b c d l w p).wf h

theorem meetUpsetAs_wf {s : State} (h : s.mem.wf = true) (wid : Nat) (pos : Word) (u : Upset) :
    (s.meetUpsetAs wid pos u).mem.wf = true := (HomeOnly.meetUpsetAs wid pos s u).wf h

theorem meetRangeAs_wf {s : State} (h : s.mem.wf = true) (wid : Nat) (pos : Word) (lo n : Nat) :
    (s.meetRangeAs wid pos lo n).mem.wf = true := (HomeOnly.meetRangeAs s wid pos lo n).wf h

theorem meetFetch_wf {s : State} (h : s.mem.wf = true) (a : Word) : (s.meetFetch a).mem.wf = true :=
  (HomeOnly.meetFetch s a).wf h

/-! ## Reset -/

theorem reset_wf : State.reset.mem.wf = true := rfl

theorem deviceReset_wf {s t : State} (h : s.mem.wf = true) (e : execDeviceReset s = .next t) : t.mem.wf = true := by
  unfold execDeviceReset eventStep at e
  injection e with e
  subst e
  exact Memory.filter_wf _ s.mem h

/-! ## Trap entry -/

/-- A trap of the weave's level, in user mode, whose handler can be fetched: the handler's registers are written and control stands
at %tvec (R114, R115). -/
theorem takeTrap_weave {s : State} {t : Trap} {cnt : Word} {l : Line} (h : s.me.sys = false) (hl : entersSys s.me t.cause = false)
    (hf : State.lands { s with me := s.me.enterW (t.pc.getD s.iss.first) t cnt } s.me.tvec false l) :
    s.takeTrap t cnt =
      (State.meetFetch { s with me := s.me.enterW (t.pc.getD s.iss.first) t cnt } s.me.tvec).keepLine (lineBase s.me.tvec).toNat
        l := by
  unfold State.takeTrap
  simp only [h, hl, Bool.false_eq_true, ↓reduceIte, hf.enter]

/-- A trap that goes to the system level from user mode, whose handler can be fetched: the system registers are written and control
stands at the partition's SYSVEC (R115, R116). -/
theorem takeTrap_system {s : State} {t : Trap} {cnt : Word} {l : Line} (h : s.me.sys = false) (hl : entersSys s.me t.cause = true)
    (hf : State.lands { s with me := s.me.enterS (s.partRec s.me.part).sysvec (t.pc.getD s.iss.first) t cnt }
      (s.partRec s.me.part).sysvec false l) :
    s.takeTrap t cnt = (State.meetFetch { s with me := s.me.enterS (s.partRec s.me.part).sysvec (t.pc.getD s.iss.first) t cnt }
      (s.partRec s.me.part).sysvec).keepLine (lineBase (s.partRec s.me.part).sysvec).toNat l := by
  unfold State.takeTrap
  simp only [h, hl, Bool.false_eq_true, ↓reduceIte, hf.enter]

/-- A trap in system mode whose handler has not read its own cause yet ends the strand in a double fault (R116). -/
theorem takeTrap_double {s : State} {t : Trap} {cnt : Word} (h : s.me.sys = true) (hd : s.me.stcause.getLsbD 63 = false) :
    s.takeTrap t cnt = s.doubleFault := by
  unfold State.takeTrap
  simp only [h, hd, Bool.false_eq_true, ↓reduceIte]

end Sys2Proof.Machine
end

