-- ==== Sys2Proof/Laws/PerInstr.lean ====
section
/-! SUPPORT. One lemma per constructor: an instruction has words of its own under every guard, and a step of the device or the host
has none (R8, R51). -/

namespace Sys2Proof.Laws.HasWords

/-- Some words encode the instruction, unless it is a step that no slot encodes. -/
def Statement (i : Instr) : Prop := ∀ g, (encode g i).isSome = !i.isEvent

theorem add (x : AluS) : Statement (.add x) := fun _ => rfl
theorem sub (x : AluS) : Statement (.sub x) := fun _ => rfl
theorem mul (x : AluS) : Statement (.mul x) := fun _ => rfl
theorem mulh (x : Alu) : Statement (.mulh x) := fun _ => rfl
theorem div (x : Alu) : Statement (.div x) := fun _ => rfl
theorem rem (x : Alu) : Statement (.rem x) := fun _ => rfl
theorem and (x : Alu) : Statement (.and x) := fun _ => rfl
theorem or (x : Alu) : Statement (.or x) := fun _ => rfl
theorem xor (x : Alu) : Statement (.xor x) := fun _ => rfl
theorem shl (x : Alu) : Statement (.shl x) := fun _ => rfl
theorem shr (x : Alu) : Statement (.shr x) := fun _ => rfl
theorem sra (x : Alu) : Statement (.sra x) := fun _ => rfl
theorem min (x : Alu) : Statement (.min x) := fun _ => rfl
theorem max (x : Alu) : Statement (.max x) := fun _ => rfl
theorem cmp (x : CmpR) : Statement (.cmp x) := fun _ => rfl
theorem addi (x : AluI) : Statement (.addi x) := fun _ => rfl
theorem muli (x : AluI) : Statement (.muli x) := fun _ => rfl
theorem andi (x : AluI) : Statement (.andi x) := fun _ => rfl
theorem ori (x : AluI) : Statement (.ori x) := fun _ => rfl
theorem xori (x : AluI) : Statement (.xori x) := fun _ => rfl
theorem shli (x : ShI) : Statement (.shli x) := fun _ => rfl
theorem shri (x : ShI) : Statement (.shri x) := fun _ => rfl
theorem srai (x : ShI) : Statement (.srai x) := fun _ => rfl
theorem cmpi (x : CmpI) : Statement (.cmpi x) := fun _ => rfl
theorem movi (x : MovI) : Statement (.movi x) := fun _ => rfl
theorem lea (x : LeaA) : Statement (.lea x) := fun _ => rfl
theorem sel (x : SelA) : Statement (.sel x) := fun _ => rfl
theorem clz (x : Un) : Statement (.clz x) := fun _ => rfl
theorem popc (x : Un) : Statement (.popc x) := fun _ => rfl
theorem br (disp : BitVec 48) : Statement (.br disp) := fun _ => rfl
theorem call (x : LinkD) : Statement (.call x) := fun _ => rfl
theorem callReg (x : DA) : Statement (.callReg x) := fun _ => rfl
theorem ret (a : GReg) : Statement (.ret a) := fun _ => rfl
theorem jr (a : GReg) : Statement (.jr a) := fun _ => rfl
theorem loop (x : LinkD) : Statement (.loop x) := fun _ => rfl
theorem halt : Statement .halt := fun _ => rfl
theorem haltK (a : GReg) : Statement (.haltK a) := fun _ => rfl
theorem yield : Statement .yield := fun _ => rfl
theorem nop : Statement .nop := fun _ => rfl
theorem sleep (a : GReg) : Statement (.sleep a) := fun _ => rfl
theorem trap (n : BitVec 8) : Statement (.trap n) := fun _ => rfl
theorem trapBrk (n : BitVec 8) : Statement (.trapBrk n) := fun _ => rfl
theorem eret : Statement .eret := fun _ => rfl
theorem eretN : Statement .eretN := fun _ => rfl
theorem pairWord (sh : ScalarHalf) (vh : VectorHalf) : Statement (.pairWord sh vh) := fun _ => rfl
theorem mfcr (x : McrA) : Statement (.mfcr x) := fun _ => rfl
theorem mtcr (x : MtcA) : Statement (.mtcr x) := fun _ => rfl
theorem mtcrSet (x : MtcA) : Statement (.mtcrSet x) := fun _ => rfl
theorem mtcrClr (x : MtcA) : Statement (.mtcrClr x) := fun _ => rfl
theorem mtcrEnt (x : MtcA) : Statement (.mtcrEnt x) := fun _ => rfl
theorem ld (x : MemL) : Statement (.ld x) := fun _ => rfl
theorem st (x : MemS) : Statement (.st x) := fun _ => rfl
theorem stOf (x : MemS) : Statement (.stOf x) := fun _ => rfl
theorem fence (x : FenceA) : Statement (.fence x) := fun _ => rfl
theorem fenceSt : Statement .fenceSt := fun _ => rfl
theorem aadd (x : Atom) : Statement (.aadd x) := fun _ => rfl
theorem aaddt (x : Atom3) : Statement (.aaddt x) := fun _ => rfl
theorem amin (x : Atom) : Statement (.amin x) := fun _ => rfl
theorem amax (x : Atom) : Statement (.amax x) := fun _ => rfl
theorem aand (x : Atom) : Statement (.aand x) := fun _ => rfl
theorem aor (x : Atom) : Statement (.aor x) := fun _ => rfl
theorem axor (x : Atom) : Statement (.axor x) := fun _ => rfl
theorem aswap (x : Atom) : Statement (.aswap x) := fun _ => rfl
theorem acas (x : Atom3) : Statement (.acas x) := fun _ => rfl
theorem waita (x : WaitAA) : Statement (.waita x) := fun _ => rfl
theorem awake (x : AImm) : Statement (.awake x) := fun _ => rfl
theorem red (x : RedA) : Statement (.red x) := fun _ => rfl
theorem pgin (x : DAImm) : Statement (.pgin x) := fun _ => rfl
theorem vld (x : VLdA) : Statement (.vld x) := fun _ => rfl
theorem vst (x : VStA) : Statement (.vst x) := fun _ => rfl
theorem vlds (x : VLdSA) : Statement (.vlds x) := fun _ => rfl
theorem vsts (x : VStSA) : Statement (.vsts x) := fun _ => rfl
theorem vgath (x : VGatA) : Statement (.vgath x) := fun _ => rfl
theorem vscat (x : VScaA) : Statement (.vscat x) := fun _ => rfl
theorem vred (x : VRedA) : Statement (.vred x) := fun _ => rfl
theorem ldt (x : LdtA) : Statement (.ldt x) := fun _ => rfl
theorem vgatht (x : VGatTA) : Statement (.vgatht x) := fun _ => rfl
theorem take (x : TakeA) : Statement (.take x) := fun _ => rfl
theorem takeNb (x : TakeA) : Statement (.takeNb x) := fun _ => rfl
theorem vtake (x : VTakeA) : Statement (.vtake x) := fun _ => rfl
theorem lscnt (d : GReg) : Statement (.lscnt d) := fun _ => rfl
theorem lreissue (x : TagA) : Statement (.lreissue x) := fun _ => rfl
theorem lfill (x : TagFA) : Statement (.lfill x) := fun _ => rfl
theorem ldrop (x : TagA) : Statement (.ldrop x) := fun _ => rfl
theorem ldropAny (x : TagA) : Statement (.ldropAny x) := fun _ => rfl
theorem phinit (x : DA) : Statement (.phinit x) := fun _ => rfl
theorem phreg (x : PhRegA) : Statement (.phreg x) := fun _ => rfl
theorem phdrop (a : GReg) : Statement (.phdrop a) := fun _ => rfl
theorem phsig (x : DA) : Statement (.phsig x) := fun _ => rfl
theorem phwait (x : DAB) : Statement (.phwait x) := fun _ => rfl
theorem phsw (x : DA) : Statement (.phsw x) := fun _ => rfl
theorem warr (x : WArrA) : Statement (.warr x) := fun _ => rfl
theorem wwait (x : WWaitA) : Statement (.wwait x) := fun _ => rfl
theorem send (x : SendA) : Statement (.send x) := fun _ => rfl
theorem sendRq (x : SendRA) : Statement (.sendRq x) := fun _ => rfl
theorem sendT (x : SendTA) : Statement (.sendT x) := fun _ => rfl
theorem sendm (x : SendA) : Statement (.sendm x) := fun _ => rfl
theorem hmsg (x : HMsgA) : Statement (.hmsg x) := fun _ => rfl
theorem hret (a : GReg) : Statement (.hret a) := fun _ => rfl
theorem tagen (x : TagEA) : Statement (.tagen x) := fun _ => rfl
theorem tagdis (x : TagEA) : Statement (.tagdis x) := fun _ => rfl
theorem tagpend (x : TagPA) : Statement (.tagpend x) := fun _ => rfl
theorem spawn (x : SpawnA) : Statement (.spawn x) := fun _ => rfl
theorem spawnPin (x : SpawnA) : Statement (.spawnPin x) := fun _ => rfl
theorem dec (x : DAImm) : Statement (.dec x) := fun _ => rfl
theorem futr (x : FutRA) : Statement (.futr x) := fun _ => rfl
theorem futrT (x : FutRtA) : Statement (.futrT x) := fun _ => rfl
theorem futw (x : DABImm) : Statement (.futw x) := fun _ => rfl
theorem launch (x : DA) : Statement (.launch x) := fun _ => rfl
theorem launchW (x : DA) : Statement (.launchW x) := fun _ => rfl
theorem exit (code : BitVec 8) : Statement (.exit code) := fun _ => rfl
theorem jx (x : JxD) : Statement (.jx x) := fun _ => rfl
theorem jxReg (x : JxR) : Statement (.jxReg x) := fun _ => rfl
theorem callx (x : CallxD) : Statement (.callx x) := fun _ => rfl
theorem callxReg (x : CallxR) : Statement (.callxReg x) := fun _ => rfl
theorem retx (x : JxR) : Statement (.retx x) := fun _ => rfl
theorem segheat (x : DA) : Statement (.segheat x) := fun _ => rfl
theorem segheatClr (x : DA) : Statement (.segheatClr x) := fun _ => rfl
theorem segrep (x : AB) : Statement (.segrep x) := fun _ => rfl
theorem segrepDel (x : AB) : Statement (.segrepDel x) := fun _ => rfl
theorem segmap (x : DA) : Statement (.segmap x) := fun _ => rfl
theorem segmapHi (x : DA) : Statement (.segmapHi x) := fun _ => rfl
theorem sopen (x : SopenA) : Statement (.sopen x) := fun _ => rfl
theorem sclose (q : QReg) : Statement (.sclose q) := fun _ => rfl
theorem scloseU (a : GReg) : Statement (.scloseU a) := fun _ => rfl
theorem qbind (x : QBindA) : Statement (.qbind x) := fun _ => rfl
theorem qbindLoc (x : QBindLA) : Statement (.qbindLoc x) := fun _ => rfl
theorem qunbind (x : QDA) : Statement (.qunbind x) := fun _ => rfl
theorem qstat (x : QDA) : Statement (.qstat x) := fun _ => rfl
theorem qsend (x : QSendA) : Statement (.qsend x) := fun _ => rfl
theorem qsendH (x : QSendA) : Statement (.qsendH x) := fun _ => rfl
theorem qrecv (x : QRecvA) : Statement (.qrecv x) := fun _ => rfl
theorem copy (x : CopyA) : Statement (.copy x) := fun _ => rfl
theorem ringinit (x : DAB) : Statement (.ringinit x) := fun _ => rfl
theorem awaitf (x : DAB) : Statement (.awaitf x) := fun _ => rfl
theorem relslot (x : AB) : Statement (.relslot x) := fun _ => rfl
theorem ringstat (x : DA) : Statement (.ringstat x) := fun _ => rfl
theorem ringstatCfg (x : DA) : Statement (.ringstatCfg x) := fun _ => rfl
theorem vadd (x : VArS) : Statement (.vadd x) := fun _ => rfl
theorem vsub (x : VArS) : Statement (.vsub x) := fun _ => rfl
theorem vmul (x : VArS) : Statement (.vmul x) := fun _ => rfl
theorem vfma (x : VFmaA) : Statement (.vfma x) := fun _ => rfl
theorem vdiv (x : VBinR) : Statement (.vdiv x) := fun _ => rfl
theorem vsqrt (x : VUnR) : Statement (.vsqrt x) := fun _ => rfl
theorem vmin (x : VBin) : Statement (.vmin x) := fun _ => rfl
theorem vmax (x : VBin) : Statement (.vmax x) := fun _ => rfl
theorem vabs (x : VUnS) : Statement (.vabs x) := fun _ => rfl
theorem vneg (x : VUnS) : Statement (.vneg x) := fun _ => rfl
theorem vand (x : VBin) : Statement (.vand x) := fun _ => rfl
theorem vor (x : VBin) : Statement (.vor x) := fun _ => rfl
theorem vxor (x : VBin) : Statement (.vxor x) := fun _ => rfl
theorem vshl (x : VBin) : Statement (.vshl x) := fun _ => rfl
theorem vshlImm (x : VShI) : Statement (.vshlImm x) := fun _ => rfl
theorem vshr (x : VBin) : Statement (.vshr x) := fun _ => rfl
theorem vshrImm (x : VShI) : Statement (.vshrImm x) := fun _ => rfl
theorem vsra (x : VBin) : Statement (.vsra x) := fun _ => rfl
theorem vsraImm (x : VShI) : Statement (.vsraImm x) := fun _ => rfl
theorem vrcp (x : VUnR) : Statement (.vrcp x) := fun _ => rfl
theorem vrsqrt (x : VUnR) : Statement (.vrsqrt x) := fun _ => rfl
theorem vexp2 (x : VUnR) : Statement (.vexp2 x) := fun _ => rfl
theorem vcmp (x : VCmpA) : Statement (.vcmp x) := fun _ => rfl
theorem vsel (x : VBin) : Statement (.vsel x) := fun _ => rfl
theorem vmov (x : VUn) : Statement (.vmov x) := fun _ => rfl
theorem vbcast (x : VBcA) : Statement (.vbcast x) := fun _ => rfl
theorem vbcastImm (x : VBcI) : Statement (.vbcastImm x) := fun _ => rfl
theorem vext (x : VExtI) : Statement (.vext x) := fun _ => rfl
theorem vextReg (x : VExtR) : Statement (.vextReg x) := fun _ => rfl
theorem vins (x : VInsI) : Statement (.vins x) := fun _ => rfl
theorem vinsReg (x : VInsR) : Statement (.vinsReg x) := fun _ => rfl
theorem vperm (x : VPermA) : Statement (.vperm x) := fun _ => rfl
theorem vrot (x : VShI) : Statement (.vrot x) := fun _ => rfl
theorem vcompress (x : VCompA) : Statement (.vcompress x) := fun _ => rfl
theorem vexpand (x : VUn) : Statement (.vexpand x) := fun _ => rfl
theorem viota (x : VIotaA) : Statement (.viota x) := fun _ => rfl
theorem mand (x : MBin) : Statement (.mand x) := fun _ => rfl
theorem mor (x : MBin) : Statement (.mor x) := fun _ => rfl
theorem mxor (x : MBin) : Statement (.mxor x) := fun _ => rfl
theorem mnot (x : MUn) : Statement (.mnot x) := fun _ => rfl
theorem mpopc (x : MPopA) : Statement (.mpopc x) := fun _ => rfl
theorem vcvt (x : VCvtA) : Statement (.vcvt x) := fun _ => rfl
theorem vcvto (x : VCvtoA) : Statement (.vcvto x) := fun _ => rfl
theorem vprune48 (x : VPruneA) : Statement (.vprune48 x) := fun _ => rfl
theorem vredsum (x : VRedSA) : Statement (.vredsum x) := fun _ => rfl
theorem vredmin (x : VRedMA) : Statement (.vredmin x) := fun _ => rfl
theorem vredmax (x : VRedMA) : Statement (.vredmax x) := fun _ => rfl
theorem vtopk (x : VTopA) : Statement (.vtopk x) := fun _ => rfl
theorem vbskip (x : VBskA) : Statement (.vbskip x) := fun _ => rfl
theorem vdot4 (x : VDotA) : Statement (.vdot4 x) := fun _ => rfl
theorem mma (x : MmaA) : Statement (.mma x) := fun _ => rfl
theorem mmaS (x : MmaSA) : Statement (.mmaS x) := fun _ => rfl
theorem mzero (acc : AReg) : Statement (.mzero acc) := fun _ => rfl
theorem mld (x : MldA) : Statement (.mld x) := fun _ => rfl
theorem mst (x : MldA) : Statement (.mst x) := fun _ => rfl
theorem mscaleA0 (v : VReg) : Statement (.mscaleA0 v) := fun _ => rfl
theorem mscaleA1 (v : VReg) : Statement (.mscaleA1 v) := fun _ => rfl
theorem mscaleB (v : VReg) : Statement (.mscaleB v) := fun _ => rfl
theorem mwait : Statement .mwait := fun _ => rfl
theorem mwaitTile (acc : AReg) : Statement (.mwaitTile acc) := fun _ => rfl
theorem mmovv (x : MmvV) : Statement (.mmovv x) := fun _ => rfl
theorem mmova (x : MmvA) : Statement (.mmova x) := fun _ => rfl
theorem mstat (d : GReg) : Statement (.mstat d) := fun _ => rfl
theorem trrec (x : TrrecA) : Statement (.trrec x) := fun _ => rfl
theorem trrun (a : GReg) : Statement (.trrun a) := fun _ => rfl
theorem trstop (d : GReg) : Statement (.trstop d) := fun _ => rfl
theorem trstat (d : GReg) : Statement (.trstat d) := fun _ => rfl
theorem tlbinv (x : AB) : Statement (.tlbinv x) := fun _ => rfl
theorem tlbinvAs (b : GReg) : Statement (.tlbinvAs b) := fun _ => rfl
theorem tlbinvAll : Statement .tlbinvAll := fun _ => rfl
theorem tlbinvOut (x : DABC) : Statement (.tlbinvOut x) := fun _ => rfl
theorem tlbsync : Statement .tlbsync := fun _ => rfl
theorem savectx (x : DAB) : Statement (.savectx x) := fun _ => rfl
theorem savectxSwap (x : DAB) : Statement (.savectxSwap x) := fun _ => rfl
theorem savectxDrain (x : DAB) : Statement (.savectxDrain x) := fun _ => rfl
theorem savectxSize (x : DAB) : Statement (.savectxSize x) := fun _ => rfl
theorem loadctx (x : DAB) : Statement (.loadctx x) := fun _ => rfl
theorem quar (x : DA) : Statement (.quar x) := fun _ => rfl
theorem quarClr (x : DA) : Statement (.quarClr x) := fun _ => rfl
theorem remap (x : DA) : Statement (.remap x) := fun _ => rfl
theorem remapStat (x : DA) : Statement (.remapStat x) := fun _ => rfl
theorem elogrd (x : ElogA) : Statement (.elogrd x) := fun _ => rfl
theorem elogrdPop (a : GReg) : Statement (.elogrdPop a) := fun _ => rfl
theorem elogrdCnt (x : DA) : Statement (.elogrdCnt x) := fun _ => rfl
theorem elogrdZc (a : GReg) : Statement (.elogrdZc a) := fun _ => rfl
theorem pwrset (x : DAB) : Statement (.pwrset x) := fun _ => rfl
theorem pwrsetRd (x : DA) : Statement (.pwrsetRd x) := fun _ => rfl
theorem hostsig (x : HostsigA) : Statement (.hostsig x) := fun _ => rfl
theorem lineRefetch (k : StrandIx) : Statement (.lineRefetch k) := fun _ => rfl
theorem sleepExpiry (k : StrandIx) : Statement (.sleepExpiry k) := fun _ => rfl
theorem homeAccess (n : Nat) : Statement (.homeAccess n) := fun _ => rfl
theorem loadReply (n : Nat) : Statement (.loadReply n) := fun _ => rfl
theorem atomicAtHome (n : Nat) : Statement (.atomicAtHome n) := fun _ => rfl
theorem redAtHome (n : Nat) : Statement (.redAtHome n) := fun _ => rfl
theorem redMerge (n m : Nat) : Statement (.redMerge n m) := fun _ => rfl
theorem redHoldExpiry (n : Nat) : Statement (.redHoldExpiry n) := fun _ => rfl
theorem postedWriteAck (n : Nat) : Statement (.postedWriteAck n) := fun _ => rfl
theorem waitaWake (n : Nat) : Statement (.waitaWake n) := fun _ => rfl
theorem taggedLoadReply (n : Nat) : Statement (.taggedLoadReply n) := fun _ => rfl
theorem taggedLoadFault (n : Nat) : Statement (.taggedLoadFault n) := fun _ => rfl
theorem pageWalkComplete (n : Nat) : Statement (.pageWalkComplete n) := fun _ => rfl
theorem pageInComplete (n : Nat) : Statement (.pageInComplete n) := fun _ => rfl
theorem tlbInvalidateApply (n : Nat) : Statement (.tlbInvalidateApply n) := fun _ => rfl
theorem sendQueueDrain (k : StrandIx) : Statement (.sendQueueDrain k) := fun _ => rfl
theorem messageArrival (n : Nat) : Statement (.messageArrival n) := fun _ => rfl
theorem dispatch (c : CoreIx) : Statement (.dispatch c) := fun _ => rfl
theorem taskPromotion (c : CoreIx) : Statement (.taskPromotion c) := fun _ => rfl
theorem codeletPush (n : Nat) : Statement (.codeletPush n) := fun _ => rfl
theorem gangForm (k : StrandIx) : Statement (.gangForm k) := fun _ => rfl
theorem loomOpComplete (c : CoreIx) : Statement (.loomOpComplete c) := fun _ => rfl
theorem treadleEntryIssue (k : StrandIx) : Statement (.treadleEntryIssue k) := fun _ => rfl
theorem copyCommand (t : Nat) : Statement (.copyCommand t) := fun _ => rfl
theorem shuttleArrival (n : Nat) : Statement (.shuttleArrival n) := fun _ => rfl
theorem shuttleShed (n : Nat) : Statement (.shuttleShed n) := fun _ => rfl
theorem shedRefill (c : CoreIx) : Statement (.shedRefill c) := fun _ => rfl
theorem occupancyReport (c : CoreIx) : Statement (.occupancyReport c) := fun _ => rfl
theorem streamItemArrival (n : Nat) : Statement (.streamItemArrival n) := fun _ => rfl
theorem streamMove (n : Nat) : Statement (.streamMove n) := fun _ => rfl
theorem pointerRetire (c : CoreIx) (n : Nat) : Statement (.pointerRetire c n) := fun _ => rfl
theorem streamOrphan (n : Nat) : Statement (.streamOrphan n) := fun _ => rfl
theorem launchPlacement (choice : List DieChoice) (vb : Nat) : Statement (.launchPlacement choice vb) := fun _ => rfl
theorem weaveEnd (wid : Nat) : Statement (.weaveEnd wid) := fun _ => rfl
theorem drainExpiry (part : Nat) : Statement (.drainExpiry part) := fun _ => rfl
theorem coreQuarantine (c : CoreIx) (array : BitVec 8) : Statement (.coreQuarantine c array) := fun _ => rfl
theorem linkFail (die block port : Nat) : Statement (.linkFail die block port) := fun _ => rfl
theorem deviceReset : Statement .deviceReset := fun _ => rfl
theorem linkTrain : Statement .linkTrain := fun _ => rfl
theorem go : Statement .go := fun _ => rfl
theorem imageVerify : Statement .imageVerify := fun _ => rfl
theorem bringupComplete (f : BringupFacts) : Statement (.bringupComplete f) := fun _ => rfl
theorem att : Statement .att := fun _ => rfl
theorem dbq (v : BitVec 6) : Statement (.dbq v) := fun _ => rfl
theorem dbr (p : BitVec 2) : Statement (.dbr p) := fun _ => rfl
theorem hostRegisterWrite (word : Nat) (value : BitVec 64) : Statement (.hostRegisterWrite word value) := fun _ => rfl
theorem powerThrottle (island : Nat) : Statement (.powerThrottle island) := fun _ => rfl
theorem thermalTrip (die : Nat) : Statement (.thermalTrip die) := fun _ => rfl
theorem ethFrameReceive (port queue : Nat) (frame : List Byte) (fcsGood : Bool) : Statement (.ethFrameReceive port queue frame fcsGood) := fun _ => rfl
theorem ethTransmit (n : Nat) : Statement (.ethTransmit n) := fun _ => rfl
theorem streamCreditArrival (n : Nat) : Statement (.streamCreditArrival n) := fun _ => rfl
theorem flashCopyComplete (n : Nat) : Statement (.flashCopyComplete n) := fun _ => rfl
theorem pointChangeComplete (island : Nat) : Statement (.pointChangeComplete island) := fun _ => rfl

end Sys2Proof.Laws.HasWords
end

