-- ==== Sys2Proof/Laws/Vector.lean ====
section
/-! SUPPORT. What the elementwise shapes of vector forms give, lane by lane. -/

namespace Sys2Proof.Machine

theorem orException_none {s : State} {fl : Num.Flags} (h : enabledException s fl = none) (k : State → Res) :
    orException s fl k = k (s.addFlags fl) := by
  unfold orException; rw [h]

theorem orException_some {s : State} {fl : Num.Flags} {sub : BitVec 8} (h : enabledException s fl = some sub)
    (k : State → Res) : orException s fl k = .trap (s.addFlags fl) ⟨0x50, sub, 0, none, 0⟩ := by
  unfold orException; rw [h]

/-- Lanes that take no generator step. -/
theorem runLanes_pure (sel : Nat → Bool) (other : Nat → Nat) (op : Nat → Nat × Num.Flags) (l : List Nat) (g : BitVec 32) :
    runLanes sel other (fun g i => (g, op i)) l g =
      (l.map (fun i => if sel i then (op i).1 else other i), g,
        (l.filter sel).foldr (fun i a => (op i).2 ||| a) 0) := by
  induction l generalizing g with
  | nil => rfl
  | cons i r ih => cases h : sel i <;> simp [runLanes, ih, h]

theorem foldr_or (f : Nat → Num.Flags) (l : List Nat) (a : Num.Flags) :
    l.foldl (fun a i => a ||| f i) a = a ||| l.foldr (fun i a => f i ||| a) 0 := by
  induction l generalizing a with
  | nil => simp
  | cons i r ih => rw [List.foldl_cons, ih, List.foldr_cons, BitVec.or_assoc]

theorem foldl_or (f : Nat → Num.Flags) (l : List Nat) :
    l.foldl (fun a i => a ||| f i) 0 = l.foldr (fun i a => f i ||| a) 0 := (foldr_or f l 0).trans BitVec.zero_or

/-- The lanes of a form that moves bits. -/
theorem bitLanes_eq (s : State) (t : Ty) (d : VReg) (sel : VSel) (op : Nat → Nat) :
    bitLanes s t d sel op = .ok (s.wv d (laneVec s t sel d op)) := by
  unfold bitLanes
  rw [runLanes_pure (s.vsel t sel) (keepOr (zeroing sel) (s.rv d) t.width) (fun i => (op i, 0))]
  rfl

/-- The lanes of a form that rounds nothing, and the flags they raise. -/
theorem lanewise_eq (s : State) (t : Ty) (d : VReg) (sel : VSel) (op : Nat → Nat × Num.Flags) :
    lanewise s t d sel op =
      orException s (laneFlags s t sel fun i => (op i).2) fun u => .ok (u.wv d (laneVec s t sel d fun i => (op i).1)) := by
  unfold lanewise
  rw [runLanes_pure]
  simp only [laneFlags]
  rw [foldl_or]
  rfl

theorem runLanes_append (sel : Nat → Bool) (other : Nat → Nat) (op : BitVec 32 → Nat → BitVec 32 × Nat × Num.Flags)
    (l r : List Nat) (g : BitVec 32) :
    runLanes sel other op (l ++ r) g =
      ((runLanes sel other op l g).1 ++ (runLanes sel other op r (runLanes sel other op l g).2.1).1,
        (runLanes sel other op r (runLanes sel other op l g).2.1).2.1,
        (runLanes sel other op l g).2.2 ||| (runLanes sel other op r (runLanes sel other op l g).2.1).2.2) := by
  induction l generalizing g with
  | nil => simp [runLanes]
  | cons i l ih => cases h : sel i <;> simp [runLanes, ih, h, BitVec.or_assoc]

/-- Lanes that round: each selected one takes the next step of the generator (R36). -/
theorem runLanes_round (sel : Nat → Bool) (other : Nat → Nat) (m : RMode) (op : Nat → Nat → Nat × Num.Flags) (g : BitVec 32)
    (n : Nat) :
    runLanes sel other (fun g i => ((Num.draw m g).1, op (Num.draw m g).2 i)) (List.range n) g =
      ((List.range n).map (fun i => if sel i then (op (Num.draw m (gens m g (rankBelow sel i))).2 i).1 else other i),
        gens m g (rankBelow sel n),
        ((List.range n).filter sel).foldl (fun a i => a ||| (op (Num.draw m (gens m g (rankBelow sel i))).2 i).2) 0) := by
  induction n with
  | zero => rfl
  | succ n ih =>
    rw [List.range_succ, runLanes_append, ih]
    cases h : sel n
    · simp [runLanes, h, rankBelow, List.range_succ]
    · simp [runLanes, h, rankBelow, List.range_succ, gens]

/-- The lanes of a form that rounds, the generator after them, and the flags they raise. -/
theorem roundLanes_eq (s : State) (t : Ty) (d : VReg) (sel : VSel) (rnd : Option RMode)
    (op : RMode → Nat → Nat → Nat × Num.Flags) :
    roundLanes s t d sel rnd op =
      (let m := modeOf s rnd
       let f (i : Nat) : Nat × Num.Flags := op m (laneRand s t sel m i) i
       orException s (laneFlags s t sel fun i => (f i).2) fun u =>
        .ok ((u.setSrg (gens m s.srg (rankBelow (s.vsel t sel) t.count))).wv d (laneVec s t sel d fun i => (f i).1))) := by
  unfold roundLanes
  have h := runLanes_round (s.vsel t sel) (keepOr (zeroing sel) (s.rv d) t.width) (modeOf s rnd) (op (modeOf s rnd)) s.srg t.count
  simp only [h]
  rfl

theorem intLane_eq (t : Ty) (sat : Bool) (e : Int) : Num.narrow sat t.isI t.width e = intLane t sat e := by
  unfold Num.narrow intLane
  have hr := inRange_eq t e
  have hlo : Num.intMin t.isI t.width = intLo t := rfl
  have hhi : Num.intMax t.isI t.width = intHi t := rfl
  have hle : intLo t ≤ intHi t := by cases t <;> decide
  cases sat
  · simp only [Bool.false_eq_true, ↓reduceIte, Num.wrap, Num.lowBits, hr, Num.flagIf]
    by_cases h : intLo t ≤ e ∧ e ≤ intHi t <;> simp [h]
  · simp only [↓reduceIte, Num.saturate, hlo, hhi, Num.lowBits]
    by_cases h1 : e < intLo t
    · rw [if_pos h1, if_neg (by omega), show max (intLo t) (min (intHi t) e) = intLo t by omega]
    · rw [if_neg h1]
      by_cases h2 : intHi t < e
      · rw [if_pos h2, if_neg (by omega), show max (intLo t) (min (intHi t) e) = intHi t by omega]
      · rw [if_neg h2, if_pos (by omega), show max (intLo t) (min (intHi t) e) = e by omega]

end Sys2Proof.Machine
end

