-- ==== Sys2Proof/Tests/Slice0.lean ====
section
/-! SUPPORT. The model's own tests: ill-formed terms, words of the spec's encodings, the spec's worked results, and for every
statement with hypotheses a state and operands that meet them. -/

open Sys2Proof Sys2Proof.Machine

namespace Sys2Proof.Tests

set_option Elab.async false

/-! ## Ill-formed terms, one for each check (R52, R61, R62, R67, R102 to R135, R153, R187 to R215, R273, R298, R337) -/

def every : VSel := ⟨false, 0, none⟩
def pastEnd : VSel := ⟨false, 0, some ⟨false, 63, 0, 0⟩⟩
def zeroed : VSel := ⟨true, 0, none⟩
def acqPfx : Option ScopePfx := some ⟨.acq, .fabric⟩
def relPfx : Option ScopePfx := some ⟨.rel, .fabric⟩
def imm (n : Nat) : Imm := ⟨none, BitVec.ofNat 48 n⟩

theorem test_wf_refuses_scalar : ([.add ⟨.z8, true, 1, 2, 3⟩, .add ⟨.i8, false, 1, 2, 3⟩] : List Instr).all Instr.wf = true ∧
    ([.add ⟨.bf16, false, 1, 2, 3⟩, .sub ⟨.f32, true, 1, 2, 3⟩, .mul ⟨.none, false, 1, 2, 3⟩, .mulh ⟨.f32, 1, 2, 3⟩,
      .rem ⟨.f32, 1, 2, 3⟩, .div ⟨.none, 1, 2, 3⟩, .min ⟨.none, 1, 2, 3⟩, .max ⟨.bf16, 1, 2, 3⟩, .and ⟨.f32, 1, 2, 3⟩,
      .or ⟨.bf16, 1, 2, 3⟩, .xor ⟨.q4, 1, 2, 3⟩, .shl ⟨.f32, 1, 2, 3⟩, .shr ⟨.f32, 1, 2, 3⟩, .sra ⟨.e4m3, 1, 2, 3⟩,
      .cmp ⟨.i8, .un, 1, 2, 3⟩, .cmp ⟨.none, .eq, 1, 2, 3⟩, .addi ⟨.f32, 1, 2, imm 3⟩, .muli ⟨.none, 1, 2, imm 3⟩,
      .andi ⟨.f32, 1, 2, imm 3⟩, .ori ⟨.bf16, 1, 2, imm 3⟩, .xori ⟨.q4, 1, 2, imm 3⟩, .shli ⟨.i8, 1, 2, 8⟩, .shri ⟨.f32, 1, 2, 1⟩,
      .srai ⟨.z16, 1, 2, 16⟩, .cmpi ⟨.i8, .un, 1, 2, imm 3⟩, .cmpi ⟨.f32, .eq, 1, 2, imm 3⟩, .movi ⟨.none, 1, imm 3⟩,
      .movi ⟨.f32, 1, imm (2 ^ 32)⟩, .movi ⟨.f32, 1, ⟨some 1, 3⟩⟩, .clz ⟨.f32, 1, 2⟩, .popc ⟨.bf16, 1, 2⟩,
      .pairWord (.addi ⟨.i8, 1, 2, imm 8192⟩) .none, .pairWord (.ld ⟨.i8, 1, 2, imm 3, acqPfx⟩) .none,
      .pairWord .none (.vand ⟨.none, 1, 2, 3, zeroed⟩), .pairWord .none (.vbcastImm ⟨.none, 1, 1024, every⟩)] : List Instr).all
        (fun i => !i.wf) = true := by decide

theorem test_wf_refuses_memory :
    ([.ld ⟨.f32, 1, 2, imm 3, none⟩, .ld ⟨.i8, 1, 2, imm 3, relPfx⟩, .st ⟨.none, 1, 2, imm 3, none⟩, .stOf ⟨.i8, 1, 2, imm 3, acqPfx⟩,
      .aadd ⟨.i8, 1, 2, 3, 0, none⟩, .amin ⟨.bf16, 1, 2, 3, 0, none⟩, .amax ⟨.none, 1, 2, 3, 0, none⟩, .aaddt ⟨.z32, 1, 2, 3, 4, 0, none⟩,
      .aand ⟨.i32, 1, 2, 3, 0, none⟩, .aor ⟨.i64, 1, 2, 3, 0, none⟩, .axor ⟨.f32, 1, 2, 3, 0, none⟩, .aswap ⟨.i32, 1, 2, 3, 0, none⟩,
      .acas ⟨.i64, 1, 2, 3, 4, 0, none⟩, .waita ⟨.f32, 1, 2, 3, 0⟩, .red ⟨.and, .i32, 1, 2, 0, none⟩, .red ⟨.add, .i32, 1, 2, 0, acqPfx⟩,
      .vld ⟨.q4, 1, 2, 0, every, none⟩, .vld ⟨.i8, 1, 2, 0, every, relPfx⟩, .vst ⟨.i8, 1, 2, 0, zeroed, none⟩,
      .vst ⟨.i32, 1, 2, 0, pastEnd, none⟩, .vlds ⟨.q4, 1, 2, 3, 0, every, none⟩, .vsts ⟨.i8, 1, 2, 3, 0, zeroed, none⟩,
      .vgath ⟨.i8, 1, 2, 3, 0, 0, every, none⟩, .vscat ⟨.i8, 1, 2, 3, 0, 0, every, none⟩, .vscat ⟨.i32, 1, 2, 3, 0, 0, zeroed, none⟩,
      .vred ⟨.add, .bf16, 1, 2, 3, 0, 0, every, none⟩, .vred ⟨.add, .i32, 1, 2, 3, 0, 0, zeroed, none⟩,
      .ldt ⟨.none, false, 1, 2, 0, 0, none⟩, .ldt ⟨.i8, false, 1, 2, 0, 0, relPfx⟩, .vgatht ⟨.i8, false, 0, 1, 2, 3, 0, 0, 0, none, none⟩,
      .take ⟨3, 3, 0⟩, .takeNb ⟨3, 3, 0⟩, .vtake ⟨.i8, false, 1, 2, 3, 0, every⟩, .vtake ⟨.i64, false, 1, 2, 3, 8, every⟩,
      .vtake ⟨.i32, false, 1, 1, 3, 0, every⟩] : List Instr).all (fun i => !i.wf) = true := by decide

theorem test_wf_refuses_system :
    ([.warr ⟨1, 8⟩, .wwait ⟨1, 2, 12⟩, .send ⟨1, 2, 0, 3⟩, .send ⟨1, 60, 6, 3⟩, .sendm ⟨1, 2, 7, 3⟩, .sendRq ⟨1, 63, 3, 2, 0, 0⟩,
      .sendT ⟨false, 1, 2, 3, 1, 0, 0⟩, .spawn ⟨1, 2, 62, 0, 3⟩, .spawnPin ⟨1, 2, 3, 0, 7⟩,
      .jx ⟨0, some ⟨none, none, none, none, 2 ^ 33 - 1⟩⟩, .jxReg ⟨1, some ⟨none, none, none, none, 2 ^ 33 - 1⟩⟩,
      .callx ⟨1, 0, some ⟨none, none, none, none, 2 ^ 33 - 1⟩⟩, .callxReg ⟨1, 2, some ⟨none, none, none, none, 2 ^ 33 - 1⟩⟩,
      .retx ⟨1, some ⟨none, none, none, none, 2 ^ 33 - 1⟩⟩, .sopen ⟨3, 1, .fabric⟩, .sopen ⟨0, 1, .fabric⟩,
      .mma ⟨.f32, 0, 0, 0, 0, 0, false, false, 0, 0⟩, .mma ⟨.bf16, 0, 0, 0, 0, 4, false, false, 0, 0⟩,
      .mma ⟨.bf16, 0, 32, 0, 0, 0, false, false, 0, 0⟩, .mma ⟨.bf16, 0, 0, 0, 0, 0, false, false, 1, 0⟩,
      .mmaS ⟨.i32, 0, 0, 0, 0, 0, 0, false, false, 0, 0⟩, .mmaS ⟨.bf16, 0, 0, 0, 0, 0, 8, false, false, 0, 0⟩,
      .mmaS ⟨.i8, 0, 0, 32, 0, 0, 0, false, false, 0, 0⟩] : List Instr).all (fun i => !i.wf) = true := by decide

theorem test_wf_refuses_vector :
    ([.vadd ⟨.i8, false, 1, 2, 3, some .up, every⟩, .vsub ⟨.f32, true, 1, 2, 3, none, every⟩, .vmul ⟨.none, false, 1, 2, 3, none, every⟩,
      .vfma ⟨.i8, false, 1, 2, 3, 4, none, every⟩, .vdiv ⟨.i8, 1, 2, 3, none, every⟩, .vsqrt ⟨.i8, 1, 2, none, every⟩,
      .vrcp ⟨.none, 1, 2, none, every⟩, .vrsqrt ⟨.e4m3, 1, 2, none, every⟩, .vexp2 ⟨.i32, 1, 2, none, every⟩,
      .vmin ⟨.none, 1, 2, 3, every⟩, .vmax ⟨.e4m3, 1, 2, 3, every⟩, .vabs ⟨.z8, false, 1, 2, every⟩, .vneg ⟨.f32, true, 1, 2, every⟩,
      .vand ⟨.f32, 1, 2, 3, every⟩, .vor ⟨.bf16, 1, 2, 3, every⟩, .vxor ⟨.q4, 1, 2, 3, every⟩, .vshl ⟨.f32, 1, 2, 3, every⟩,
      .vshr ⟨.f32, 1, 2, 3, every⟩, .vsra ⟨.f32, 1, 2, 3, every⟩, .vshlImm ⟨.i8, 1, 2, 8, every⟩, .vshrImm ⟨.f32, 1, 2, 1, every⟩,
      .vsraImm ⟨.z16, 1, 2, 16, every⟩, .vcmp ⟨.i8, .un, 1, 2, 3, every⟩, .vsel ⟨.e4m3, 1, 2, 3, every⟩, .vmov ⟨.q4, 1, 2, every⟩,
      .vbcast ⟨.e4m3, 1, 2, every⟩, .vbcastImm ⟨.e5m2, 1, 2, every⟩, .vext ⟨.i64, 1, 2, 8, 0, none⟩, .vextReg ⟨.q4, 1, 2, 3, 0, none⟩,
      .vins ⟨.i32, 1, 2, 16, 0, none⟩, .vinsReg ⟨.i8, 1, 2, 3, 0, some ⟨true, 3, 0, 0⟩⟩, .vperm ⟨.f32, 1, 2, 3, 4, every⟩,
      .vrot ⟨.i64, 1, 2, 8, every⟩, .vcompress ⟨.f32, 1, 2, 0, none⟩, .vexpand ⟨.f32, 1, 2, every⟩, .viota ⟨.none, 1, every⟩,
      .vcvt ⟨.i8, .i8, false, 1, 2, 0, 0, none, every⟩, .vcvt ⟨.i8, .i32, false, 1, 2, 0, 4, none, every⟩,
      .vcvt ⟨.i32, .i8, true, 1, 2, 0, 0, none, every⟩, .vcvt ⟨.i8, .i32, false, 1, 2, 3, 0, none, every⟩,
      .vcvto ⟨.i32, .f32, 1, 2, 3, 4, 0, none, every⟩, .vcvto ⟨.i8, .f32, 1, 2, 3, 5, 0, none, every⟩,
      .vprune48 ⟨.i32, 1, 2, 3, 0, none⟩, .vprune48 ⟨.i8, 1, 1, 3, 0, none⟩, .vredsum ⟨.i8, 1, 2, some .up, 0, none⟩,
      .vredmin ⟨.none, 1, 2, 0, none⟩, .vredmax ⟨.e4m3, 1, 2, 0, none⟩, .vtopk ⟨.i64, 1, 2, 3, 8, 0, none⟩,
      .vtopk ⟨.i32, 1, 1, 3, 0, 0, none⟩, .vbskip ⟨.i8, 1, 2, 3, 4, 1, every⟩, .vdot4 ⟨.i16, 1, 2, 3, 4, none, every⟩,
      .vdot4 ⟨.i8, 1, 2, 3, 4, some .up, every⟩] : List Instr).all (fun i => !i.wf) = true := by decide

/-! ## Words of the spec's encodings -/

theorem test_decode_scalar : decodeTableWord 96 0x0011461C0004000000000000 = some (.add ⟨.i64, false, 5, 6, 7⟩) := by decide
theorem test_decode_control : decodeTableWord 96 0x024100000000FFFFFFFFFFFD = some (.loop ⟨4, 0xFFFFFFFFFFFD⟩) := by decide
theorem test_decode_memory : decodeTableWord 96 0x032008240004000000000010 = some (.stOf ⟨.i64, 8, 9, imm 16, none⟩) := by decide
theorem test_decode_atomic : decodeTableWord 96 0x03A30B007008000000000000 = some (.acas ⟨.z64, 12, 11, 0, 7, 0, none⟩) := by decide
theorem test_decode_tagged : decodeTableWord 96 0x040002000003000000080005 = some (.ldt ⟨.i32, false, 2, 0, 8, 5, none⟩) := by decide
theorem test_decode_phaser : decodeTableWord 96 0x055149000000000000000000 = some (.phsw ⟨5, 9⟩) := by decide
theorem test_decode_message : decodeTableWord 96 0x05800528000000000000030C = some (.send ⟨5, 10, 3, 12⟩) := by decide
theorem test_decode_task : decodeTableWord 96 0x06000414A000000000030002 = some (.spawn ⟨4, 5, 10, 3, 2⟩) := by decide
theorem test_decode_launch : decodeTableWord 96 0x064146000000000000000000 = some (.launch ⟨5, 6⟩) := by decide
theorem test_decode_stream : decodeTableWord 96 0x0763C0000000000000000021 = some (.qrecv ⟨15, 1, 2⟩) := by decide
theorem test_decode_vector : decodeTableWord 96 0x0A2102005001000000000000 = some (.vprune48 ⟨.i8, 4, 5, 2, 0, none⟩) := by decide
theorem test_decode_loom :
    decodeTableWord 96 0x0C0040400009C60000000000 = some (.mma ⟨.bf16, 1, 0, 16, 3, 3, false, false, 0, 0⟩) := by decide
theorem test_decode_system : decodeTableWord 96 0x0DA146000000000000000003 = some (.hostsig ⟨5, 6, 3⟩) := by decide
theorem test_decode_reserved : decodeTableWord 96 0 = none := by decide
/-- A reserved function code and a must-be-zero field that is set (R52, R61). -/
theorem test_decode_refuses : decodeTableWord 96 (0x028000000000000000000000 + 2 ^ 52) = none ∧
    decodeTableWord 96 (0x028000000000000000000000 + 1) = none := by decide

/-! ## A small state -/

/-- A line of one word and four NOPs, every slot a target. -/
def testLine (w : Nat) : Line := withParity (lineOf w &&& BitVec.ofNat 512 (2 ^ 504 - 1) ||| BitVec.ofNat 512 (31 * 2 ^ 480))

/-- A weave of one core: two tiles a strand, 4 KiB of scratchpad a core, four phasers, rings and streams, 16 KiB of vault, and its
handler at 0x1000. -/
def testWeave : Weave where
  wid := 1
  part := 0
  root := 0x10000
  words := [BitVec.ofNat 64 (2 ^ 26 + 2 * 2 ^ 35 + 2 ^ 43), 0, 0x1000, 0, 0, 0, 0, 0, 0,
    BitVec.ofNat 64 (4 + 4 * 2 ^ 13 + 4 * 2 ^ 21 + 16 * 2 ^ 32), 0, 0]
  ext := []
  parent := none
  borrowed := false
  lent := false
  placed := true
  saved := false
  stopping := false
  cores := [0]
  vb := 0
  heddle := []
  how := 0
  code := 0
  exiting := false
  order := 0
  queue := 0

/-- Cached pages of 8 KiB: at user address 0x2000, on frame 5, one that a user may read and write; at 0, on frame 9, one of code. -/
def testTlb : List TlbEntry := [⟨0, 0x10000, 0x2000, 0x2000, BitVec.ofNat 64 (2 ^ 63 + 2 ^ 60 + 2 ^ 59 + 2 ^ 57 + 5)⟩,
  ⟨0, 0x10000, 0, 0x2000, BitVec.ofNat 64 (2 ^ 63 + 2 ^ 58 + 2 ^ 57 + 9)⟩]

def testCore : Core :=
  { Core.empty with
    wid := some 1
    mtlb := testTlb
    store := [⟨0x1000, testLine nopWord, guardPar (testLine nopWord)⟩] }

/-- A strand of the weave in slot 0 of core 0, in user mode, at a line of NOPs at 0x1000 that its store holds. -/
def base : State :=
  let s : State := { State.reset with
    weaves := [testWeave]
    cores := [(0, testCore)]
    parts := [(0, { Part.off with on := true, sysvec := 0x1000, nq := 1 })]
    iss := ⟨0x1000, 0x1000, 0x100C, BitVec.ofNat 96 nopWord⟩ }
  { s with me := s.freshStrand 0 testWeave 0 0x1000 }

/-- The state with a change to the strand, and with register g set. -/
def State.with (s : State) (f : Strand → Strand) : State := { s with me := f s.me }
def regs (s : State) (l : List (GReg × Word)) : State := l.foldl (fun s p => s.wg p.1 p.2) s

/-- In system mode. -/
def sysBase : State := State.with base fun x => { x with flags := 2 ^ 63 }

/-- The state after a step or an instruction; reset where there is none. -/
def after (r : Out) : State := match r with
  | .next t => t
  | _ => State.reset

def own (off : Nat) : Word := BitVec.ofNat 64 (0xFD00000000000000 + off)

/-- The site of an aligned own-window access. -/
def ownSite (off n : Nat) : Site := { addr := own off, n := n, keys := keysFrom (localKey 0 off) n, home := 0, loc := true }

/-- The site of an access to the cached page. -/
def pageSite (off n : Nat) : Site :=
  { addr := BitVec.ofNat 64 (0x2000 + off), n := n, keys := keysFrom (5 * 8192 + off) n, home := 2 ^ 20 }

/-! ## The worked results of R104, and others -/

/-- gd and %flags after a two-register form on the given sources. -/
def alu (i : Instr) (a b : Word) : Word × Word :=
  let t := after (exec i (regs base [(2, a), (3, b)]))
  (t.rg 1, t.me.flags)

theorem test_add_i8 : alu (.add ⟨.i8, false, 1, 2, 3⟩) 0x7F 1 = (0xFFFFFFFFFFFFFF80, 0x20) := by decide
theorem test_add_sat : alu (.add ⟨.i8, true, 1, 2, 3⟩) 0x7F 1 = (0x7F, 0x40) := by decide
theorem test_addi_z8 : alu (.addi ⟨.z8, 1, 2, ⟨none, 0xFFFFFFFFFFFA⟩⟩) 5 0 = (0xFF, 0x20) := by decide
theorem test_sub_z64 : alu (.sub ⟨.z64, false, 1, 2, 3⟩) 0 1 = (0xFFFFFFFFFFFFFFFF, 0x20) := by decide
theorem test_div_i32 : alu (.div ⟨.i32, 1, 2, 3⟩) 0xFFFFFFFF80000000 0xFFFFFFFFFFFFFFFF = (0xFFFFFFFF80000000, 0x20) := by decide
theorem test_div_zero : alu (.div ⟨.i64, 1, 2, 3⟩) 7 0 = (0, 2) ∧ alu (.rem ⟨.i64, 1, 2, 3⟩) 7 0 = (7, 2) := by decide
theorem test_rem_sign : alu (.rem ⟨.i64, 1, 2, 3⟩) 0xFFFFFFFFFFFFFFF9 2 = (0xFFFFFFFFFFFFFFFF, 0) := by decide
theorem test_mulh : alu (.mulh ⟨.z64, 1, 2, 3⟩) 0x8000000000000000 4 = (2, 0) ∧
    alu (.mulh ⟨.i64, 1, 2, 3⟩) 0xFFFFFFFFFFFFFFFF 1 = (0xFFFFFFFFFFFFFFFF, 0) := by decide
theorem test_shl : alu (.shl ⟨.i8, 1, 2, 3⟩) 0x40 1 = (0xFFFFFFFFFFFFFF80, 0x20) ∧ alu (.shl ⟨.i64, 1, 2, 3⟩) 1 65 = (2, 0) := by decide
theorem test_shr : alu (.shr ⟨.i8, 1, 2, 3⟩) 0xFFFFFFFFFFFFFF80 1 = (0x40, 0) := by decide
theorem test_sra : alu (.sra ⟨.z8, 1, 2, 3⟩) 0x80 1 = (0xC0, 0) := by decide
theorem test_div_f32 : alu (.div ⟨.f32, 1, 2, 3⟩) 0x3F800000 0 = (0x7F800000, 2) := by decide
theorem test_min_f32 : alu (.min ⟨.f32, 1, 2, 3⟩) 0x7FC00000 0x40000000 = (0x40000000, 0) := by decide

/-- R107: a counter of 0 wraps and the branch is taken. -/
theorem test_loop_wraps : let t := after (exec (.loop ⟨4, 1⟩) base)
    t.rg 4 = 0xFFFFFFFFFFFFFFFF ∧ t.me.pc = 0x100C := by decide +kernel

/-- R113, R117: TRAP enters the system level and TRAP.BRK the weave's, at their own address, with the operand as subcode. -/
theorem test_trap :
    (let t := after (exec (.trap 5) base)
     t.me.stpc = 0x1000 ∧ t.me.stcause = 0x570 ∧ t.me.pc = 0x1000 ∧ t.me.sys = true) ∧
    (let t := after (exec (.trapBrk 5) base)
     t.me.tpc = 0x1000 ∧ t.me.tcause = 0x571 ∧ t.me.pc = 0x1000 ∧ t.me.wt = true) := by decide +kernel

/-- A step runs the word placed for it: MOVI.i8 g1, -1. -/
theorem test_step_movi : (after (step (State.reset.withFetchWord 96 (0x19 * 2 ^ 84 + 1 * 2 ^ 78 + 1 * 2 ^ 48 + 255)))).rg 1
    = 0xFFFFFFFFFFFFFFFF := by decide +kernel

/-! ## Witnesses: for each statement with hypotheses, states and operands that meet them -/

/-- The value an access plan came to. -/
def got {α : Type} (d : α) : Except Trap α → α
  | .ok y => y
  | .error _ => d

def staged (g : Stage) : State := State.with base fun x => { x with stage := g }
def loaded (s : State) (bs : List (Nat × Byte)) : State := { s with mem := s.mem.writeAll bs }

/-! ### Scalar forms -/

theorem witness_integerForms : Ty.i8.isInt = true ∧ Ty.none.isBits = true ∧ readTy .i8 (base.rg 3) = 0 ∧
    readTy .i8 ((regs base [(3, 5)]).rg 3) ≠ 0 ∧ Cond.lt ≠ Cond.un := by decide

theorem witness_floatForms :
    let q := Num.draw base.rmode base.srg
    let a := f32Of (base.rg 2)
    enabledException base (Num.fadd .f32 base.rmode q.2 a a).2 = none ∧
    enabledException base (Num.fadd .f32 base.rmode q.2 a a.negate).2 = none ∧
    enabledException base (Num.fmul .f32 base.rmode q.2 a a).2 = none ∧
    enabledException base (Num.fdiv .f32 base.rmode q.2 a a).2 = none ∧
    enabledException base (Num.fminmax false .f32 0 0).2 = none ∧ enabledException base (Num.fminmax true .f32 0 0).2 = none ∧
    enabledException base (Num.fcmp .lt a a).2 = none := by decide

/-- With NV enabled, ∞ − ∞ and a comparison with a signalling NaN trap with subcode 0. -/
theorem witness_enabledException :
    let s := regs (State.with base fun x => { x with rmode := 0x100000100 }) [(2, 0x7F800000), (3, 0xFF800000), (4, 0x7F800001)]
    let r := Num.fadd .f32 s.rmode (Num.draw s.rmode s.srg).2 (f32Of (s.rg 2)) (f32Of (s.rg 3))
    s.me.tr.st ≠ .running ∧ enabledException s r.2 = some 0 ∧
      enabledException s (Num.fcmp .eq (f32Of (s.rg 4)) (f32Of (s.rg 2))).2 = some 0 ∧
      enabledException s (Num.fadd .f32 s.rmode (Num.draw s.rmode s.srg).2 (f32Of (s.rg 2)) (f32Of (s.rg 2)).negate).2 = some 0 ∧
      enabledException s (Num.fmul .f32 s.rmode (Num.draw s.rmode s.srg).2 (f32Of (s.rg 2)) (f32Of 0)).2 = some 0 ∧
      enabledException s (Num.fdiv .f32 s.rmode (Num.draw s.rmode s.srg).2 (f32Of 0) (f32Of 0)).2 = some 0 ∧
      enabledException s (Num.fminmax false .f32 0x7F800001 0).2 = some 0 ∧
      enabledException s (Num.fminmax true .f32 0x7F800001 0).2 = some 0 := by decide

/-! ### Transfers and traps -/

def nops : Line := testLine nopWord
/-- A line none of whose slots is a target. -/
def unmarked : Line := withParity (nops &&& BitVec.ofNat 512 (2 ^ 480 - 1) ||| (nops &&& BitVec.ofNat 512 (2 ^ 504 - 2 ^ 485)))
def unmarkedBase : State :=
  { base with cores := [(0, { testCore with store := [⟨0x1000, unmarked, guardPar unmarked⟩] })] }

theorem witness_transfers : base.lands 0x100C false nops ∧ targetOf base.iss.own 1 = 0x100C ∧
    (regs base [(2, 0x100C)]).rg 2 = 0x100C ∧ (regs base [(2, 0x100C)]).lands 0x100C false nops := by
  unfold State.lands; decide +kernel

theorem witness_loop : (regs base [(4, 1)]).rg 4 - 1 = 0 ∧ base.rg 4 - 1 ≠ 0 ∧ base.lands (targetOf base.iss.own 1) false nops ∧
    base.me.tr.st ≠ .running ∧ (unmarkedBase.wg 4 (unmarkedBase.rg 4 - 1)).enter (targetOf unmarkedBase.iss.own 1) false
      = .error ⟨0x03, 0, 0x100C, some 0x100C, 0⟩ := by
  unfold State.lands; decide +kernel

/-- A weave in shuttle mode with one segment of the code at 0x1000, its replica on core 0. -/
def shuttleWeave : Weave :=
  { testWeave with
    words := [BitVec.ofNat 64 (2 ^ 26 + 2 * 2 ^ 35 + 2 ^ 43 + 2 ^ 42), 0, 0x1000, 0, 0, 0, 0, 0, 0,
      BitVec.ofNat 64 (4 + 4 * 2 ^ 13 + 4 * 2 ^ 21 + 16 * 2 ^ 32), 0, 1]
    heddle := [⟨[0, 0xFF, 0xFF, 0xFF, 0xFF, 0xFF, 0xFF, 0xFF], 0⟩] }

theorem witness_transferFaults : unmarkedBase.leavesSegment 0x100C = false ∧ unmarkedBase.fetchLine 0x100C = .line unmarked ∧
    lineIllegal unmarked = none ∧ isTgt unmarked (slotIx 0x100C) = false ∧
    unmarkedBase.enter 0x100C false = .error ⟨0x03, 0, 0x100C, some 0x100C, 0⟩ ∧
    (unmarkedBase.wg 4 unmarkedBase.iss.next).enter 0x100C false = .error ⟨0x03, 0, 0x100C, some 0x100C, 0⟩ ∧
    targetOf unmarkedBase.iss.own 1 = 0x100C ∧ (regs unmarkedBase [(2, 0x100C)]).rg 2 = 0x100C := by decide +kernel

theorem witness_traps : base.me.tr.st ≠ .running ∧ base.me.sys = false ∧ base.me.wt = false ∧ base.me.tvec ≠ 0 ∧
    levelS 0x71 = false ∧ levelS 0x70 = true ∧
    State.lands { base with me := base.me.settle.trappedW base.iss.first ⟨0x71, 5, 0, none, 0⟩ } base.me.tvec false nops ∧
    State.lands { base with me := base.me.settle.trappedS 0x1000 base.iss.first ⟨0x70, 5, 0, none, 0⟩ } 0x1000 false nops ∧
    (base.partRec base.me.part).sysvec = 0x1000 := by
  unfold State.lands; decide +kernel

/-- In system mode, with SR set and clear. -/
theorem witness_trapInSystem :
    (let s := State.with sysBase fun x => { x with stcause := 2 ^ 63 }
     s.me.sys = true ∧ s.me.stcause.getLsbD 63 = true ∧
       State.lands { s with me := s.me.settle.trappedS 0x1000 0x1000 ⟨0x01, 0, 0, none, 0⟩ } 0x1000 false nops) ∧
    sysBase.me.sys = true ∧ sysBase.me.stcause.getLsbD 63 = false := by
  unfold State.lands; decide +kernel

theorem witness_returns :
    (let s := State.with base fun x => { x with flags := 2 ^ 62, tpc := 0x1000, entW := some 0x1000 }
     let w : State := { s with me := { s.me with flags := s.me.flags &&& ~~~(1#64 <<< 62), entW := none } }
     s.me.tr.st ≠ .suspended ∧ s.me.sys = false ∧ s.me.wt = true ∧ w.lands 0x1000 (s.me.entW = some s.me.tpc) nops ∧
       w.fetchLine s.me.tpc = .line nops ∧ lineIllegal nops = none ∧ chainEnd 0x1000 nops = 0x1000 ∧
       w.lands (succAddr (chainEnd s.me.tpc nops)) (s.me.entW = some s.me.tpc) nops) ∧
    (let s := State.with base fun x => { x with flags := 2 ^ 63, stpc := 0x1000, entS := some 0x1000 }
     let y : State := { s with me := { s.me with
       flags := if s.me.stcause.getLsbD 62 then s.me.flags ||| 1#64 <<< 63 else s.me.flags &&& ~~~(1#64 <<< 63), entS := none } }
     s.me.sys = true ∧ y.lands s.me.stpc (s.me.entS = some s.me.stpc) nops ∧ y.fetchLine s.me.stpc = .line nops ∧
       y.lands (succAddr (chainEnd s.me.stpc nops)) (s.me.entS = some s.me.stpc) nops) := by
  unfold State.lands; decide +kernel

theorem witness_pausing : base.me.stage = .none ∧ base.rg 2 = 0 ∧ (regs base [(2, 5)]).rg 2 ≠ 0 ∧
    (staged (.sleeping 0)).me.stage = .sleeping 0 ∧ 0 ≤ (staged (.sleeping 0)).cycle (dieOf base.core) ∧
    (staged (.sleeping 9)).cycle (dieOf base.core) < 9 := by decide

theorem witness_controlRegisters : CReg.isSystem .tvec = false ∧ CReg.isFixed .tvec = false ∧ CReg.isSystem .stpc = true ∧
    base.me.sys = false ∧ sysBase.me.sys = true ∧ base.flagsReady ∧ sysBase.flagsReady ∧
    (0x7 : Word).extractLsb' 0 3 ≠ 6 ∧ ¬((0x7 : Word).extractLsb' 0 3 ≠ 6 ∧ (0x7 : Word).extractLsb' 0 3 ≠ 7) := by
  unfold State.flagsReady; decide +kernel

theorem witness_pair :
    let sh : ScalarHalf := .add ⟨.i64, false, 5, 6, 7⟩
    let vh : VectorHalf := .vand ⟨.z64, 4, 5, 6, every⟩
    base.me.half = none ∧ base.me.tr.st ≠ .running ∧
    (match runScalarHalf sh base with
      | .ok s1 => match runVectorHalf vh (beforeVector base s1 s1.me.halfDone) with
        | .ok _ => true
        | _ => false
      | _ => false) = true ∧
    (match runScalarHalf (.ld ⟨.i64, 5, 0, imm 1, none⟩) base with
      | .trap _ _ => true
      | _ => false) = true ∧
    (match runVectorHalf (.vld ⟨.i64, 5, 0, 1, every, none⟩) base with
      | .trap _ _ => true
      | _ => false) = true := by decide +kernel

/-! ### Memory forms -/

theorem witness_loads :
    let s := regs base [(2, own 64), (3, 0x2008)]
    base.memFree ∧ s.walkable 8 [own 64, 0x2008] ∧ s.check s.ctx .load false 8 (own 64) (own 64) 8 = .ok (ownSite 64 8) ∧
      s.readable (ownSite 64 8) ∧ s.check s.ctx .load false 8 0x2008 0x2008 8 = .ok (pageSite 8 8) ∧ s.readable (pageSite 8 8) ∧
      (staged (.loadDone [(0, 5)] [] 0)).me.stage = .loadDone [(0, 5)] [] 0 ∧ base.me.acqHold = false ∧
      (0x2001 : Word).toNat % 8 ≠ 0 := by
  unfold State.memFree State.readable State.walkable; decide +kernel

/-- A read-only page in format 1. -/
def fmtBase : State :=
  { base with cores := [(0, { testCore with
      mtlb := [⟨0, 0x10000, 0x8000, 0x8000, BitVec.ofNat 64 (2 ^ 63 + 2 ^ 60 + 2 ^ 59 + 2 ^ 57 + 2 ^ 52 + 5)⟩] })] }

theorem witness_formatStore :
    let y := got (ownSite 0 8) (fmtBase.check fmtBase.ctx .store false 8 0x8008 0x8008 8)
    fmtBase.memFree ∧ fmtBase.check fmtBase.ctx .store false 8 0x8008 0x8008 8 = .ok y ∧ y.fmt.isSome = true := by
  unfold State.memFree; decide +kernel

theorem witness_stores :
    let put (y : Site) : List Put := [⟨y, layBytes y.keys 5, 0⟩]
    base.walkable 8 [own 64, 0x2008] ∧ base.walkedTo 8 [own 64] = base ∧
      base.check base.ctx .store false 8 (own 64) (own 64) 8 = .ok (ownSite 64 8) ∧ base.storable {} false (put (ownSite 64 8)) ∧
      base.storable {} true (put (ownSite 64 8)) ∧
      base.check base.ctx .store false 8 0x2008 0x2008 8 = .ok (pageSite 8 8) ∧ base.storable ⟨.rel, .fabric⟩ true (put (pageSite 8 8)) ∧
      base.upsets = [] ∧ (ownSite 64 8).keys.Nodup := by
  unfold State.storable State.drained State.walkable; decide +kernel

theorem witness_fences : base.me.lsQuiet = true ∧ base.drained ∧ base.me.tr.st ≠ .running ∧
    (let s : State := { base with cores := [(0, { testCore with posted := [⟨0, 0, 0, 1, []⟩], nextSeq := 1 })] }
     s.postedDone s.issueSeq = false) := by
  unfold State.drained; decide +kernel

theorem witness_atomics :
    base.checkAtom base.ctx .rmw (own 64) 4 = .ok (ownSite 64 4) ∧ base.atomReady {} (ownSite 64 4) ∧
      ((base.marked false).meetUpsets (ownSite 64 4).keys).sitePoisoned (ownSite 64 4) = false ∧
      base.atomReady ⟨.rel, .fabric⟩ (ownSite 64 4) ∧ AtomOp.min ≠ AtomOp.addt ∧ (ownSite 64 4).fmt = none ∧
      (ownSite 64 4).keys.Nodup ∧ (ownSite 64 4).keys.length = Ty.i32.width / 8 ∧ Ty.i32.isBits = true ∧ 8 ≤ Ty.i32.width := by
  unfold State.atomReady State.drained; decide +kernel

theorem witness_waits :
    base.checkAtom base.ctx .load (own 64) 4 = .ok (ownSite 64 4) ∧ base.ownPosted (ownSite 64 4).keys = false ∧
      (base.meetUpsets (ownSite 64 4).keys).sitePoisoned (ownSite 64 4) = false ∧
      (base.meetUpsets (ownSite 64 4).keys).mem.value (ownSite 64 4).keys = patTy .i32 (base.rg 3) ∧
      (base.meetUpsets (ownSite 64 4).keys).mem.value (ownSite 64 4).keys ≠ patTy .i32 5 ∧
      base.brokenLocal (ownSite 64 4).keys = false ∧ base.walkable 4 [own 64] ∧
      (staged (.woken 3 [⟨.core 0, .fabric⟩] false)).me.stage = .woken 3 [⟨.core 0, .fabric⟩] false ∧
      (staged (.woken 3 [] true)).me.stage = .woken 3 [] true ∧ (staged (.woken 3 [] true)).me.tr.st ≠ .running := by
  unfold State.walkable; decide +kernel

theorem witness_reductions :
    let rd (y : Site) : List RedPut := [⟨y, 5⟩]
    let s := regs base [(2, own 64)]
    let es := vecAddrs s .i32 every (indexAddr s 2 1 0 (0 : BitVec 40) .i32)
    let ys := got [] (checkElems (fun a => s.checkRed s.ctx (own 64) a 4) none es)
    let puts : List RedPut := ys.map fun (i, y) => ⟨y, BitVec.ofNat 64 (elem (s.rv 2) i 32)⟩
    base.checkRed base.ctx (own 64) (own 64) 4 = .ok (ownSite 64 4) ∧ base.reducible {} (rd (ownSite 64 4)) ∧ s.unheld ∧
      checkElems (fun a => s.checkRed s.ctx (own 64) a 4) none es = .ok ys ∧ s.reducible {} puts ∧ puts ≠ [] := by
  unfold State.reducible State.drained State.unheld State.begins; decide +kernel

/-- The cached page spilled out, and its address space's block with completion words on a second page, one frame ring entry, and a
frame in it. -/
def spilledBase : State :=
  loaded { base with cores := [(0, { testCore with
      mtlb := [⟨0, 0x10000, 0x2000, 0x2000, BitVec.ofNat 64 (2 ^ 63 + 2 ^ 61 + 2 ^ 60 + 2 ^ 59 + 2 ^ 57 + 2 ^ 56 + 5)⟩,
        ⟨0, 0x10000, 0x4000, 0x2000, BitVec.ofNat 64 (2 ^ 63 + 2 ^ 60 + 2 ^ 59 + 2 ^ 57 + 6)⟩] })] }
    (layBytes (keysFrom 0x20000 8) 0x4000 ++ layBytes (keysFrom 0x20010 8) 0x30000 ++ layBytes (keysFrom 0x20018 8) 1
      ++ layBytes (keysFrom 0x20028 8) 1 ++ layBytes (keysFrom 0x30000 8) 7)

def spilledLeaf : Leaf := ⟨BitVec.ofNat 64 (2 ^ 63 + 2 ^ 61 + 2 ^ 60 + 2 ^ 59 + 2 ^ 57 + 2 ^ 56 + 5), 0x2000, 0x2000, 0, [], []⟩

theorem witness_pageIn : base.memFree ∧ base.prompt = true ∧ classAddr (own 0) ≠ .user ∧ classAddr (own 0) ≠ .none ∧
    classAddr 0x2000 = .user ∧
    (let l := got spilledLeaf ((State.with base fun x => { x with flags := 2 ^ 63 }).translate sysBase.ctx .load false 0 0x2000 1 true)
     sysBase.translate sysBase.ctx .load false 0 0x2000 1 true = .ok l ∧ sysBase.me.sys = true ∧ pteST l.pte = 0) ∧
    (let s := spilledBase
     let root := s.rootOf s.me.wid
     s.translate s.ctx .load false 0 0x2000 1 true = .ok spilledLeaf ∧ spilledLeaf.pte.getLsbD 56 = true ∧ pteST spilledLeaf.pte ≠ 0 ∧
       s.net.pageins = [] ∧ s.wordBase root 0x2000 = .ok (6 * 8192) ∧ s.freeWordSlot root = some 0 ∧ s.upsets = [] ∧ s.poison = [] ∧ s.walkable 1 [0x2000] ∧
       (s.asWord root 4).toNat % 2 ^ 32 ≠ (s.asWord root 5).toNat % 2 ^ 32) ∧
    (let p : PageIn := { part := 0, root := 0x10000, va := 0x2000, group := [], pte := spilledLeaf.pte, frame := 7, word := 0, vword := 0, slot := 0, strand := 0, wid := 1 }
     [p].find? (fun p => p.root == 0x10000 && p.part == 0 && p.va == spilledLeaf.base) = some p) := by
  unfold State.memFree State.walkable; decide +kernel

theorem witness_vectorLoads :
    let s := regs base [(2, own 128), (3, 4)]
    let chk (es : List (Nat × Word)) : Word → Except Trap Site := fun a => s.check s.ctx .load false 4 ((es.map (·.2)).headD 0) a 4
    let ok (es : List (Nat × Word)) (fixed : Option Word) : Prop :=
      let ys := got [] (checkElems (chk es) fixed es)
      checkElems (chk es) fixed es = .ok ys ∧ ys ≠ [] ∧
        s.ownPosted (ys.flatMap fun p => p.2.readKeys ++ p.2.reads.flatMap fun r => keysFrom r 8) = false ∧ (s.serve ys).2.2.2 = none
    s.unheld ∧ s.walkable 4 ((vecAddrs s .i32 every (seqAddr s 2 0 .i32)).map (·.2)) ∧
      ok (vecAddrs s .i32 every (seqAddr s 2 0 .i32)) (some (own 128)) ∧
      ok (vecAddrs s .i32 every (strideAddr s 2 3 0)) none ∧
      ok (vecAddrs s .i32 every (indexAddr s 2 1 0 (0 : BitVec 40) .i32)) none ∧
      s.upsets = [] ∧ s.exact = [] ∧ s.relTags = [] ∧ s.sitePoisoned (ownSite 64 4) = false := by
  unfold State.unheld State.begins State.walkable; decide +kernel

/-- A vector store's checks and waits, as a Bool. -/
def storeOk (s : State) (es : List (Nat × Word)) (fixed : Option Word) (f : Word → Site → Except Trap Site) : Bool :=
  match checkElems (fun a => (s.check s.ctx .store false 4 ((es.map (·.2)).headD 0) a 4).bind (f a)) fixed es with
  | .ok ys =>
    let puts := storeLanes .i32 (s.rv 4) ys
    !ys.isEmpty && (ys.head?.all fun y => y.2.fmt.isNone)
      && !s.ownPosted ((puts.flatMap fun p => p.bytes.map (·.1)) ++ puts.flatMap fun p => p.site.reads.flatMap fun r => keysFrom r 8)
      && !s.pendingRead (puts.flatMap fun p => p.bytes.map (·.1))
      && s.classRoom ((puts.filter fun p => !p.site.loc && !p.site.away).map fun p => p.site.home).eraseDups
      && puts.all fun p => !p.site.loc || p.bytes.all fun b => !s.claimed b.1
  | .error _ => false

theorem witness_vectorStores :
    let s := regs base [(2, own 128), (3, 4)]
    s.unheld ∧ s.prompt = true ∧
      storeOk s (vecAddrs s .i32 every (seqAddr s 2 0 .i32)) (some (own 128)) (fun a y => vstShape s (own 128) true (own 128) a y) = true ∧
      storeOk s (vecAddrs s .i32 every (strideAddr s 2 3 0)) none (fun a y => noFormat a y 1) = true ∧
      storeOk s (vecAddrs s .i32 every (indexAddr s 2 1 0 (0 : BitVec 40) .i32)) none (fun a y => noFormat a y 1) = true := by
  unfold State.unheld State.begins; decide +kernel

theorem witness_formatVst :
    let s := fmtBase
    let es := vecAddrs (regs s [(2, 0x8000)]) .none every (seqAddr (regs s [(2, 0x8000)]) 2 0 .none)
    let chk : Word → Except Trap Site := fun a => (s.check s.ctx .store false 8 0x8000 a 8).bind (vstShape s 0x8000 true 0x8000 a)
    let ys := got [] (checkElems chk (some 0x8000) es)
    let y := ys.headD (0, ownSite 0 8)
    let e := encodeBlocks s 1 (5 * 8192) 0 (elems 16 (s.rv 4))
    checkElems chk (some 0x8000) es = .ok ys ∧ ys ≠ [] ∧ y.2.fmt = some (1, 5 * 8192, 0) ∧ enabledException s e.2.2 = none ∧
      s.storable {} false [⟨y.2, e.1, 0⟩] ∧ s.walkable 8 (es.map (·.2)) := by
  unfold State.storable State.drained State.walkable; decide +kernel

/-! ### Landing sets -/

def entry (i : Nat) (st : LState) (f : Option Trap) : LEntry := ⟨i, 7, 3, st, i + 1, i, ⟨own 64, .i32, .fabric, false, false⟩, f⟩
def withEntries (l : List LEntry) : State := State.with base fun x => { x with ls := l }

theorem witness_tagged :
    let s := regs base [(2, own 64)]
    s.memFree ∧ s.taggable .i32 [⟨own 64, 5⟩] ∧
      s.taggable .i32 (((List.range 16).filter fun i => s.sel .i32 0 none i).map fun i =>
        ⟨indexAddr s 2 1 0 (0 : BitVec 24) .i32 i, tagOf (s.rg 0) 5 + BitVec.ofNat 16 i⟩) ∧
      s.me.tr.st ≠ .running ∧ s.tagIssueFault 4 (own 64) [⟨own 64, 5⟩] = none ∧
      (withEntries ((List.range 32).map fun i => entry i .landed none)).me.freeEntries = [] := by
  unfold State.memFree State.taggable; decide +kernel

theorem witness_takes :
    (let s := withEntries [entry 0 .landed none]
     s.me.takeOrder = [entry 0 .landed none] ∧
       ((s.me.takeOrder.takeWhile fun e => e.st == .landed).take 1) ≠ []) ∧
    base.me.takeOrder = [] ∧ base.me.outstanding = 0 ∧
    (let s := withEntries [entry 0 .pending none]
     s.me.takeOrder = [] ∧ s.me.outstanding ≠ 0) ∧
    (let s := withEntries [entry 0 .faulted (some ⟨0x13, 0, 1, none, 0⟩)]
     s.me.takeOrder = [entry 0 .faulted (some ⟨0x13, 0, 1, none, 0⟩)] ∧ s.me.tr.st ≠ .running ∧
       s.me.reissuable 3 = some (entry 0 .faulted (some ⟨0x13, 0, 1, none, 0⟩)) ∧
       s.me.faultedTag 3 = some (entry 0 .faulted (some ⟨0x13, 0, 1, none, 0⟩)) ∧
       s.me.liveTag 3 = some (entry 0 .faulted (some ⟨0x13, 0, 1, none, 0⟩)) ∧
       s.me.faultedTag 4 = none ∧ s.me.reissuable 4 = none ∧ s.me.liveTag 4 = none) := by decide +kernel

/-! ### Phasers, messages and ends -/

def handle : Word := 0x7000000000000000
def token : Word := 0x7000000000800000
def testPhaser : Phaser := ⟨1, 0, 0, 0x7000, 4, [], false⟩
def testMember (mode : PhMode) (st : MStatus) (sig : Bool) : Member := ⟨0, 0, 1, 0, mode, st, sig⟩
def withPhaser (l : List Member) : State := { base with phasers := [testPhaser], members := l }

theorem witness_phaserMembership :
    base.engine 0 recPhas = .ok (0, 0) ∧ hChk 0 = 0 ∧ hM 0 = false ∧ hMem 0 = 0 ∧ base.phaser 1 0 0 = none ∧
      base.phWaits 1 0 0 = false ∧
    (let s := withPhaser []
     s.phaserOf handle = .ok testPhaser ∧ hM handle = false ∧ hMem handle = 0 ∧
       (List.range 2048).find? (fun n => !s.members.any fun m => m.blk == 0 && m.mem == n) = some 0) ∧
    (withPhaser [testMember .sigWait .joining false]).memberOf token = .ok (testPhaser, testMember .sigWait .joining false) ∧
    (withPhaser [testMember .waitOnly .active false]).memberOf token = .ok (testPhaser, testMember .waitOnly .active false) ∧
    (signals .waitOnly && !false) = false ∧
    (withPhaser [testMember .sigWait .active false]).memberOf token = .ok (testPhaser, testMember .sigWait .active false) ∧
    (signals .sigWait && !false) = true ∧ (withPhaser [testMember .sigWait .active false]).drained := by
  unfold State.drained; decide +kernel

theorem witness_phaserSignals :
    let m := testMember .sigWait .active false
    let s := withPhaser [m]
    s.me.stage = .none ∧ s.me.tr.st ≠ .running ∧ s.memberOf token = .ok (testPhaser, m) ∧ signals m.mode = true ∧ waits m.mode = true ∧
      s.drained ∧ (s.markIssue.signal testPhaser m s.cur false).me.stage = .sigDone 4 ∧
      (let t := { s with members := [m, { testMember .sigWait .active false with mem := 1 }] }
       let u := (t.markIssue.modMember testPhaser 0 fun m => { m with sig := true }).modStrand t.cur fun y => { y with stage := .sigDone 4 }
       t.memberOf token = .ok (testPhaser, m) ∧ t.phaser 1 0 0 = some testPhaser ∧ u.phaseDone testPhaser = false) ∧
      testPhaser.poisoned = false ∧ phaseOver 4 3 = true ∧ phaseOver 4 4 = false ∧ (signals .sigOnly && waits .sigOnly) = false ∧
      (staged (.phDone 5)).me.stage = .phDone 5 ∧
      (withPhaser [testMember .sigWait .active true]).phaseDone testPhaser = true ∧ testPhaser.held = [] := by
  unfold State.drained; decide +kernel

/-- Core 0 a member of its tile's wire 1. -/
def wired : State := { base with tiles := [(0, { TileUnit.empty with tw := [(1, ⟨0x8000000000000001, 4, [], []⟩)] })] }

/-- The same, its core's arrivals for the phase all made. -/
def wiredFull : State := { base with tiles := [(0, { TileUnit.empty with tw := [(1, ⟨0x8000000000000001, 4, [(0, 8)], []⟩)] })] }

theorem witness_wired : (wired.wire 1).1.cfg.getLsbD 63 = true ∧ (wired.wire 1).1.cfg.getLsbD (wired.wire 1).2 = true ∧ wired.drained ∧
    Tab.get 0 (wired.wire 1).1.counts (wired.wire 1).2 < (wired.wire 1).1.quota ∧
    phaseOver (wired.wire 1).1.phase 3 = true ∧ phaseOver (wired.wire 1).1.phase 4 = false ∧
    (staged (.arrDone 4)).me.stage = .arrDone 4 ∧ (wiredFull.wire 1).1.quota ≤ Tab.get 0 (wiredFull.wire 1).1.counts (wiredFull.wire 1).2 ∧
    ¬((base.wire 1).1.cfg.getLsbD 63 = true ∧ (base.wire 1).1.cfg.getLsbD (base.wire 1).2 = true) := by
  unfold State.drained; decide +kernel

def aMsg : Msg := ⟨1, [], base.me.core, 1, [0], none, 0⟩

theorem witness_messages : base.sendable ∧ base.reaches 0 ∧ base.me.freeEntries ≠ [] ∧ base.memFree ∧ base.drained ∧
    4 ≤ (State.with base fun x => { x with sendq := [aMsg, aMsg, aMsg, aMsg] }).me.sendq.length ∧
    (let r : Word := BitVec.ofNat 64 (2 ^ 34)
     let f (lo n : Nat) : Nat := (r.extractLsb' lo n).toNat
     r.extractLsb' 56 8 = 0 ∧ r.extractLsb' 0 18 = 0 ∧ f 40 6 < f 34 6) ∧
    (let r : Word := BitVec.ofNat 64 (2 ^ 40 + 2 ^ 26)
     let f (lo n : Nat) : Nat := (r.extractLsb' lo n).toNat
     r.extractLsb' 56 8 = 0 ∧ r.extractLsb' 0 18 = 0 ∧ f 34 6 ≤ f 40 6 ∧ f 18 8 ≤ f 26 8 ∧ base.inTeam 1 (f 48 8) = true ∧
       base.dieIn 0 (f 46 2) = true ∧ f 26 8 ≤ 159 ∧ f 48 8 = ownPkg base) := by
  unfold State.sendable State.reaches State.memFree State.drained; decide +kernel

def handlerBase : State := State.with base fun x => { x with weave := weaveWord testWeave 1 1 }

theorem witness_ends : base.workOver ∧ base.me.sendq = [] ∧ base.me.origin ≠ 1 ∧ handlerBase.workOver ∧ handlerBase.me.origin = 1 ∧
    handlerBase.me.stage = .none ∧ base.gangs = [] := by
  unfold State.workOver; decide

/-! ### Codelets, futures, copies, rings and launches -/

def wideSite (a : Word) (off n : Nat) : Site := { addr := a, n := n, keys := keysFrom (localKey 0 off) n, home := 0, loc := true }

/-- Core 8's window, in the weave. -/
def twoCores : State :=
  { base with
    weaves := [{ testWeave with cores := [0, 8] }]
    cores := [(0, testCore), (8, { Core.empty with wid := some 1, linger := true })] }

theorem witness_codelets :
    base.memFree ∧ base.drained ∧ classAddr (own 64) = .own ∧
      base.check base.ctx .store true 64 (own 64) (own 64) 64 = .ok (ownSite 64 64) ∧ base.ownPosted (ownSite 64 64).keys = false ∧
      base.pendingRead (ownSite 64 64).keys = false ∧ (ownSite 64 64).away = false ∧
      (∀ k ∈ (ownSite 64 64).keys, base.claimed k = false) ∧
      (let a : Word := BitVec.ofNat 64 (0xFE00000000000000 + 8 * 2 ^ 24 + 64)
       let y := got (ownSite 0 8) (twoCores.check twoCores.ctx .store true 64 a a 64)
       classAddr a = .core ∧ twoCores.check twoCores.ctx .store true 64 a a 64 = .ok y ∧ y.loc = false ∧ y.away = false ∧
         twoCores.ownPosted y.keys = false ∧ twoCores.pendingRead y.keys = false ∧ twoCores.classRoom [y.home] = true) ∧
      (let s := loaded base (layBytes (ownSite 64 8).keys 2)
       s.check s.ctx .rmw true 64 (own 64) (own 64) 8 = .ok (ownSite 64 8) ∧
         (s.markIssue.meetUpsets (ownSite 64 8).keys).sitePoisoned (ownSite 64 8) = false ∧
         (∀ k ∈ (ownSite 64 8).keys, s.claimed k = false) ∧
         ¬(s.mem.value (ownSite 64 8).keys = 1 ∧ 256 ≤ (s.coreRec (s.localCore (own 64))).ready.length) ∧
         1 < s.mem.value (keysFrom (localKey 0 64) 8) ∧ base.mem.value (keysFrom (localKey 0 64) 8) = 0) := by
  unfold State.memFree State.drained; decide +kernel

def fullCell : State := loaded base (layBytes (keysFrom (localKey 0 72) 8) (2 ^ 63))
def awaitedCell : State := loaded base (layBytes (keysFrom (localKey 0 72) 8) (2 ^ 62 + 128))
def codelet (side : Bool) : State := State.with base fun x => { x with weave := weaveWord testWeave 3 1, desc := own 128, side := side }

theorem witness_futureCells : base.cellReady (own 64) (ownSite 64 16) ∧ fullCell.cellReady (own 64) (ownSite 64 16) ∧
    awaitedCell.cellReady (own 64) (ownSite 64 16) ∧ (codelet false).cellReady (own 64) (ownSite 64 16) ∧
    (codelet true).cellReady (own 64) (ownSite 64 16) := by
  refine ⟨?_, ?_, ?_, ?_, ?_⟩ <;> unfold State.cellReady State.memFree <;> decide +kernel

theorem witness_futures :
    let y := ownSite 64 16
    let c := (codelet false).me
    (base.cellState y).getLsbD 63 = false ∧ (base.cellState y).getLsbD 62 = false ∧ (fullCell.cellState y).getLsbD 63 = true ∧
      (awaitedCell.cellState y).getLsbD 62 = true ∧ (awaitedCell.cellState y).getLsbD 63 = false ∧ base.me.tr.st ≠ .running ∧
      base.me.origin ≠ 3 ∧ c.origin = 3 ∧ c.side = false ∧ (codelet true).me.side = true ∧
      (codelet false).holds (coreAt (winDie c.desc) (winRow c.desc) (winCol c.desc)) c.wid = true ∧
      ((base.meetUpsets y.keys).fold y.keys).drained := by
  unfold State.drained; decide +kernel

/-- A copy command of one dimension: 8 elements of 8 bytes between two places of the weave. -/
def copyWords : List Word := [own 64, own 128, 0x10000]
def ringOne : Ring := ⟨1, 0, 0, 0x7000, 4, 1, 0, 0, [⟨0, 5, false, none⟩], [], false⟩
def withRing : State := { base with rings := [ringOne] }

theorem witness_rings :
    withRing.ringOf handle = .ok ringOne ∧ ringOne.slot 0 = some ⟨0, 5, false, none⟩ ∧ ringOne.filled 0 = true ∧ ringOne.held 0 = true ∧
      ringOne.filled 1 = false ∧ withRing.drained ∧ base.engine 0 recRing = .ok (0, 0) ∧ base.ring 1 0 0 = none ∧
      1 ≤ ((4 : Word).extractLsb' 0 9).toNat ∧ (staged (.ringDone 5 [])).me.stage = .ringDone 5 [] ∧ (withRing.tileRec (tileOf withRing.core)).copyq.length < 16 := by
  unfold State.drained; decide +kernel

/-- A launch record of one strand, at offset 128 of the own window. -/
def recBase : State :=
  regs (loaded base (layBytes (keysFrom (localKey 0 128) 8) (2 ^ 3 + 2 ^ 7 + 2 ^ 12 + 2 ^ 15 + 2 ^ 23 + 2 ^ 26)
    ++ layBytes (keysFrom (localKey 0 136) 8) 0x1000)) [(2, own 128), (3, own 256), (4, own 1)]

theorem witness_launch :
    let s := recBase
    let code (a : Word) : Option Nat :=
      let pos := s.markIssue.posOf s.core s.slot
      let u := s.markIssue.touch s.ctx pos a 16
      let ws := (got none (u.readRecord a)).getD []
      let v := u.touchExtras (u.launchCtx u.me.part (u.rootOf u.me.wid) u.me.wid) pos ws
      v.launchCode u.me.part ws (v.readExtras (u.launchCtx u.me.part (u.rootOf u.me.wid) u.me.wid) ws) true false false
    s.memFree ∧ s.drained ∧ s.prompt = true ∧ (s.rg 2).toNat % 64 = 0 ∧ (s.rg 3).toNat % 64 = 0 ∧ (s.rg 4).toNat % 64 ≠ 0 ∧
      (got none ((s.markIssue.touch s.ctx (s.markIssue.posOf s.core s.slot) (own 128) 16).readRecord (own 128))).isSome = true ∧ code (own 128) = none ∧ 0 < s.poolFree ∧
      code (own 256) = some 1 ∧ (staged (.childDone 3)).me.stage = .childDone 3 ∧ s.weaveOf s.me.wid = some testWeave ∧
      (State.with base fun x => { x with weave := 0 }).weaveOf 0 = none := by
  unfold State.memFree State.drained; decide +kernel
theorem witness_copy :
    let s := State.with withRing fun x => x.writeV 6 (ofElems 64 ([own 64, own 128, 0x10000, 0x0001000100010008].map BitVec.toNat))
    s.memFree ∧ copyBad ((elems 64 (s.rv 6)).map (BitVec.ofNat 64)) = false ∧ s.ringOf handle = .ok ringOne := by
  unfold State.memFree; decide +kernel

/-! ### Shuttle mode and streams -/

def carryNone : LivePfx := ⟨none, none, none, none, 0⟩
def shuttleBase : State :=
  regs { base with cores := [(0, { testCore with pinSeg := some 1 })], weaves := [shuttleWeave], me := { base.me with weave := weaveWord shuttleWeave 0 1 } } [(2, 0x4000), (3, 2)]

theorem witness_travel :
    let s := shuttleBase
    base.me.shm = false ∧ s.me.shm = true ∧ s.me.stage = .none ∧ s.me.wt = false ∧ s.me.sys = false ∧ s.me.origin ≠ 1 ∧ s.me.ls = [] ∧
      s.me.tr.st = .idle ∧ s.loomBusy = false ∧ s.me.q.toList.any isLocal = false ∧
      segmentOf (s.weaveWords s.me.wid) 0x4000 = some 1 ∧
      ((s.weaveOf s.me.wid).bind fun w => w.segment 1) = some ⟨[0, 0xFF, 0xFF, 0xFF, 0xFF, 0xFF, 0xFF, 0xFF], 0⟩ ∧
      s.replica s.me.wid ⟨[0, 0xFF, 0xFF, 0xFF, 0xFF, 0xFF, 0xFF, 0xFF], 0⟩ = some 0 ∧ s.pinsFor s.me.wid 0 = true ∧ s.me.sendq = [] ∧ s.postedDone s.issueSeq = true ∧
      s.ptrsFree = true ∧ (none : Option LivePfx).or (carrySet 0) = some carryNone ∧ (carriedG carryNone none).length ≤ 32 ∧
      (carriedG carryNone (some 5)).length ≤ 32 ∧ targetOf s.iss.own 960 = 0x4000 ∧ s.rg 2 = 0x4000 ∧
      s.leavesSegment (targetOf s.iss.own 1) = true ∧ s.gangs = [] ∧ s.me.q = Vector.replicate 8 .unbound := by decide +kernel

/-- A saved weave of number 2 with two replicas of its one segment, on cores 8 and 16, and core 24 free. -/
def savedBase : State :=
  regs { sysBase with
    weaves := [testWeave, { shuttleWeave with wid := 2, saved := true, cores := [8, 16], heddle := [⟨[8, 16, 0xFF, 0xFF, 0xFF, 0xFF, 0xFF, 0xFF], 0⟩] }] }
    [(2, BitVec.ofNat 64 (2 ^ 33 + 1)), (3, 24), (4, 8)]

theorem witness_segments :
    let w : Weave := { shuttleWeave with wid := 2, saved := true, cores := [8, 16], heddle := [⟨[8, 16, 0xFF, 0xFF, 0xFF, 0xFF, 0xFF, 0xFF], 0⟩] }
    let g : Segment := ⟨[8, 16, 0xFF, 0xFF, 0xFF, 0xFF, 0xFF, 0xFF], 0⟩
    let s := savedBase
    ((shuttleBase.weaveOf 1).bind fun w => w.segment 1) = some ⟨[0, 0xFF, 0xFF, 0xFF, 0xFF, 0xFF, 0xFF, 0xFF], 0⟩ ∧
      ((shuttleBase.weaveOf 1).bind fun w => w.segment 2) = none ∧ shuttleBase.me.tr.st ≠ .running ∧
      shuttleBase.weaveOf shuttleBase.me.wid = some shuttleWeave ∧ shuttleWeave.heddle.length < 2 ∧
      (State.with base fun x => { x with weave := 0 }).weaveOf 0 = none ∧
      s.me.sys = true ∧ s.weaveOf 2 = some w ∧ ((s.rg 2).extractLsb' 32 32).toNat = 2 ∧ w.saved = true ∧ w.part = s.me.part ∧
      w.segment 1 = some g ∧ codeCore ((s.rg 3).setWidth 16) = some 24 ∧ codeCore ((s.rg 4).setWidth 16) = some 8 ∧
      s.dieIn s.me.part (dieOf 24) = true ∧ (s.coreRec 24).wid = none ∧ (s.coreRec 24).pinSeg = none ∧ (s.coreRec 24).key = none ∧
      (s.coreRec 24).quar = false ∧ w.cores.contains 24 = false ∧
      (s.vaultUses (blockOf 24)).foldl (fun t u => max t u.2) 0 + (s.pinsIn (blockOf 24) + 1) * shedBytes ≤ vaultSize ∧
      (g.codes.filter fun c => (codeCore c).isSome).length = 2 ∧
      (g.codes.filter fun c => (codeCore c).isSome).contains 8 = true := by decide +kernel

def aStream : Stream :=
  { wid := 1, blk := 0, str := 0, scope := .fabric, snd := freshEnd 0x1234, rcv := freshEnd 0x5678, ns := 1, nr := 0, out := 1, fin := none,
    lost := false, toward := none, held := [], home := [], moveS := none, moveR := none, poisoned := false }

def streamBase (y : Stream) (b : QBind) : State :=
  let s : State := { base with streams := [y], me := { base.me with q := base.me.q.set 1 b } }
  regs s [(2, streamHandle 0 y false), (3, streamHandle 0 y true)]

theorem witness_streamOpens :
    (base.rg 2) &&& 0xFFFF003F00FFFFFF = 0 ∧ base.inTeam base.me.wid (hPkg 0) = true ∧ base.dieIn base.me.part (hDie 0) = true ∧
      hBlk 0 ≤ 159 ∧ hPkg 0 = ownPkg base ∧ base.blockHolds base.me.wid 0 = true ∧
      (List.range (recStrm (base.weaveWords base.me.wid))).find? (fun k => (base.stream base.me.wid 0 k).isNone) = some 0 := by
  decide +kernel

theorem witness_streamEnds :
    let s := streamBase aStream .unbound
    s.qreg 1 = .unbound ∧ s.freeEnd (s.rg 2) = .ok aStream ∧ strEnd (s.rg 2) = false ∧ s.freeEnd (s.rg 3) = .ok aStream ∧
      strEnd (s.rg 3) = true ∧ (streamBase aStream (.loc 3 false)).qreg 1 = .loc 3 false ∧
      (streamBase aStream (.loc 3 true)).qreg 1 = .loc 3 true ∧ s.drained ∧ s.me.tr.st ≠ .running ∧
      (Tab.get [] (s.coreRec s.core).lq 3).length < 16 ∧
      (let u := s.modCore s.core fun c => { c with lq := [(3, [(5, false)])] }
       Tab.get [] (u.coreRec u.core).lq 3 = [(5, false)]) := by
  unfold State.drained; decide +kernel

/-- Both ends bound, one item held in order; and the send end closed after it was taken. -/
def boundStream : Stream :=
  { aStream with
    snd := { aStream.snd with st := .bound, place := some 0 }
    rcv := { aStream.rcv with st := .bound, place := some 0 }
    toward := some 0
    held := [⟨0, 9, false, 0⟩] }
def endedStream : Stream := { boundStream with held := [], nr := 1, fin := some 1, snd := { boundStream.snd with st := .closed } }

theorem witness_streamItems :
    let s := streamBase boundStream (.stream 0 0 false 7)
    let r := streamBase boundStream (.stream 0 0 true 7)
    let e := streamBase endedStream (.stream 0 0 true 7)
    s.qreg 1 = .stream 0 0 false 7 ∧ s.bound 0 0 = some boundStream ∧ boundStream.poisoned = false ∧ boundStream.snd.st ≠ .orphaned ∧
      boundStream.rcv.st ≠ .closed ∧ boundStream.rcv.st ≠ .orphaned ∧ s.drained ∧ boundStream.out < 32 ∧
      r.qreg 1 = .stream 0 0 true 7 ∧ r.bound 0 0 = some boundStream ∧ r.ptrRoom r.core boundStream = true ∧
      boundStream.held.find? (fun i => i.seq == boundStream.nr) = some ⟨0, 9, false, 0⟩ ∧
      e.bound 0 0 = some endedStream ∧ endedStream.held.find? (fun i => i.seq == endedStream.nr) = none ∧
      endedStream.snd.st = .closed ∧ endedStream.fin = some endedStream.nr ∧ endedStream.snd.closer = none := by
  unfold State.drained; decide +kernel

/-! ### Vector forms, the treadle and the loom -/

/-- With no exception enabled no flags trap: the condition of every vector form that raises flags. -/
theorem witness_quiet (f : Num.Flags) : enabledException base f = none := by
  have h : enabledOf base.me.rmode f = 0 := by
    have : base.me.rmode.extractLsb' 8 5 = 0 := by decide
    simp [enabledOf, this]
  unfold enabledException; rw [h]; decide

theorem witness_vectorForms : base.unheld ∧ Ty.i8.isInt = true ∧ Ty.i8.isI = true ∧ Ty.f32.isFloat = true ∧ Ty.e4m3.isInt = false ∧
    (base.rg 3).toNat < Ty.i32.count ∧ Ty.i32.count ≤ ((regs base [(3, 16)]).rg 3).toNat ∧ ((base.rg 3).extractLsb' 8 56 = 0) := by
  unfold State.unheld State.begins; decide +kernel

/-- An outlier ring of 4 places at offset 64, empty: v2 holds bf16 zeros, and ∞ in lane 0 for the full one. -/
def outlierBase (v : Nat) (cap : Nat) : State :=
  State.with (regs base [(2, own 64), (3, BitVec.ofNat 64 (cap * 2 ^ 48))]) fun x => x.writeV 2 (ofElems 16 [v])

theorem witness_outliers :
    let s := outlierBase 0x4580 4
    let o := outLanes (fun u i => convertOut .i8 .bf16 0 s.rmode u (elem (s.rv 2) i 16)) s.rmode
      ((List.range 32).map fun j => (j, j)) s.srg
    let outs := o.1.filter fun q => q.2.2.2.2
    let k := outs.length
    let r := checkElems (fun a => (s.check s.ctx .store false 8 a a 8).bind fun y => noFormat a y 1) none
      ((List.range k).map fun j => (j, own 64 + BitVec.ofNat 64 (8 * j)))
    k = 1 ∧ (got [] r).length = 1 ∧ s.ownPosted ((got [] r).headD (0, ownSite 0 8)).2.keys = false ∧ 0 < 4 ∧ ¬(4 < 0 + k) ∧
      ((s.rg 3).extractLsb' 48 16).toNat = 4 := by decide +kernel

theorem witness_outliersFull :
    let s := State.with (outlierBase 0x4580 1) fun x => x
    let o := outLanes (fun u i => convertOut .i8 .bf16 0 s.rmode u (elem (s.rv 2) i 16)) s.rmode
      ((List.range 32).map fun j => (j, j)) s.srg
    1 < 1 + (o.1.filter fun q => q.2.2.2.2).length := by decide +kernel

def treadle (st : TrState) : State := State.with base fun x => { x with tr := { Treadle.idle with st := st, n := 1, pass := 1 } }

theorem witness_treadle : (treadle .recording).me.tr.st = .recording ∧ base.me.tr.st ≠ .running ∧ base.me.tr.st = .idle ∧
    (treadle .ready).me.tr.st = .ready ∧ (treadle .suspended).me.tr.st = .suspended ∧ (base.rg 2).toNat ≤ 65535 ∧
    65535 < ((regs (treadle .ready) [(2, 65536)]).rg 2).toNat ∧ base.me.sys = false ∧ base.me.wt = false := by decide

theorem witness_accumulators :
    let s := regs base [(2, own 1024)]
    let l := tilePieces s .load (own 1024) fun _ y => .ok y
    let st := tilePieces s .store (own 1024) fun b y => vstShape s (own 1024) true (own 1024) b y
    s.unheld ∧ s.me.loomErr = none ∧ s.ownsTile 0 = true ∧ s.ownsTile 2 = false ∧ (s.coreRec s.core).loomq = [] ∧
      (got [] l).length = 16 ∧
      s.ownPosted ((got [] l).flatMap fun p => p.2.readKeys ++ p.2.reads.flatMap fun r => keysFrom r 8) = false ∧
      (s.serve (got [] l)).2.2.2 = none ∧ (got [] st).length = 16 ∧
      ((got [] st).map fun p => p.2.fmt.isNone && p.2.loc && !s.ownPosted p.2.keys && !s.pendingRead p.2.keys
        && p.2.keys.all fun k => !s.claimed k) = List.replicate 16 true ∧ s.loomBusy = false := by
  unfold State.unheld State.begins; decide +kernel

def gangReq (s : State) (gw : Nat) (acc : Nat) : GangReq :=
  { strand := s.cur, pass := false, sparse := false, ty := .bf16, gw := gw, kq := 0, asp := false, bsp := false, acc := acc, a := 0, b := 16,
    m := 0, ga := 0, gb := 0, da := 0, db := 0 }

theorem witness_gangs :
    base.gangs = [] ∧ base.me.live = true ∧ base.holds base.core base.me.wid = true ∧ base.memberFault (gangReq base 0 0) true = none ∧
      base.gangReady (base.gangClaims base.fresh.1 (gangReq base 0 0) [gangReq base 0 0]) (gangReq base 0 0) [gangReq base 0 0] = true ∧
      base.memberFault (gangReq base 0 3) true = some ⟨0x40, 1, 0, none, 0⟩ ∧
      (let s : State := { base with
         cores := (List.range 2).map fun i => (loomCore 0 i, testCore)
         strands := [(strandAt (loomCore 0 1) 0, base.me)] }
       ∀ c ∈ (gangReq s 1 0).cores, s.holds c s.me.wid = true ∧ (s.strand (strandAt c (slotOf s.cur))).live = true ∧
         (s.strand (strandAt c (slotOf s.cur))).wid = s.me.wid) := by decide +kernel

/-! ### System forms -/

/-- A table walk's four levels for the page at 0x2000, spilled out. -/
def walkMem (pte : Word) : List (Nat × Byte) :=
  layBytes (keysFrom 0x10000 8) (2 ^ 63 + 2 ^ 46 + 16) ++ layBytes (keysFrom 0x20000 8) (2 ^ 63 + 2 ^ 46 + 17)
    ++ layBytes (keysFrom 0x22000 8) (2 ^ 63 + 2 ^ 46 + 18) ++ layBytes (keysFrom 0x24008 8) pte.toNat
def spilledPte : Word := BitVec.ofNat 64 (2 ^ 63 + 2 ^ 61 + 2 ^ 60 + 2 ^ 59 + 2 ^ 57 + 5)

theorem witness_invalidations :
    let s := regs sysBase [(2, 0x2000), (3, 0x10000), (4, 9)]
    let out := loaded s (walkMem spilledPte)
    let inn := loaded s (walkMem (spilledPte - BitVec.ofNat 64 (2 ^ 61)))
    s.me.sys = true ∧ (s.rg 2).extractLsb' 56 8 = 0 ∧ (s.rg 3).toNat % 65536 = 0 ∧ s.drained ∧ (s.rg 4).toNat % 65536 ≠ 0 ∧
      s.me.stage = .none ∧ s.net.invals = [] ∧ s.stillOut s.me.part (s.underWay s.me.part) = false ∧ s.upsets = [] ∧ s.me.tr.st ≠ .running ∧ s.isP = false ∧
      (s.rg 4).toNat ≤ 0x7FFFFFF ∧
      (match out.walk 0x10000 0x2000, inn.walk 0x10000 0x2000 with
        | .ok l, .ok m => pteST l.pte == 1 && pteST m.pte == 0
        | _, _ => false) = true ∧
      (let v := out.markIssue.sendInvals (.page 0x2000 0x10000)
       (v.net.invals.any fun i => v.me.invs.contains i.id) = true) ∧
      (staged (.tlbSent 5)).me.stage = .tlbSent 5 ∧ (staged (.flashDone 5)).me.stage = .flashDone 5 := by
  unfold State.drained; decide +kernel
/-- A second weave, number 2 on core 16, whose one strand waits on a word. -/
def weaveTwo : Weave := { testWeave with wid := 2, cores := [16], saved := false }
def twoWeaves : State :=
  let s : State := { sysBase with
    weaves := [testWeave, weaveTwo]
    cores := [(0, testCore), (16, { Core.empty with wid := some 2 })]
    parts := [(0, { Part.off with on := true, sysvec := 0x1000, ctxr := 0x100000, ctxs := 2 ^ 63, nq := 1 })]
    strands := [(128, { Strand.empty with live := true, weave := BitVec.ofNat 64 (2 ^ 33), stage := .waiter (keysFrom 5 4) })] }
  regs s [(2, BitVec.ofNat 64 (2 ^ 33)), (3, 0x100000), (4, BitVec.ofNat 64 (7 * 2 ^ 32)), (5, 1)]

/-- The area of any length the free value gives lies in the partition's context region. -/
theorem witness_contextArea :
    let s := twoWeaves
    s.areaOk s.me.part (s.rg 3).toNat (s.saveLength 2 (s.strandsOf 2).length) = true := by
  have h : twoWeaves.partRec twoWeaves.me.part = { Part.off with on := true, sysvec := 0x1000, ctxr := 0x100000, ctxs := 2 ^ 63, nq := 1 } := by
    decide +kernel
  have a : (twoWeaves.rg 3).toNat = 0x100000 := by decide +kernel
  simp only [State.areaOk, State.saveLength, h, a]
  have := (Config.freeLength [2, (twoWeaves.strandsOf 2).length, (twoWeaves.net.shuttles.filter (·.wid = 2)).length,
    (((twoWeaves.weaveOf 2).map (·.cores)).getD []).length]).isLt
  simp
  omega

theorem witness_contexts :
    let s := twoWeaves
    let w1 := { weaveTwo with stopping := true }
    s.me.sys = true ∧ s.saveTarget (s.rg 2) = some weaveTwo ∧ weaveTwo.wid ≠ s.me.wid ∧
      (s.setWeave w1).saveReady w1 none = true ∧ s.asleep weaveTwo = true ∧ s.saveTarget (s.rg 4) = none ∧ s.me.tr.st ≠ .running ∧
      (let t := State.with s fun x => x
       let u : State := { t with strands := [(128, { Strand.empty with live := true, weave := BitVec.ofNat 64 (2 ^ 33) })] }
       u.asleep weaveTwo = false ∧ u.me.waiting ≠ some .save ∧ u.saveTarget (u.rg 2) = some weaveTwo) ∧
      s.areaOk s.me.part (s.rg 5).toNat 32 = false := by decide +kernel

/-- The second weave saved, and its core free or taken again. -/
def savedTwo : State := (twoWeaves.performSave { weaveTwo with stopping := true } 0x100000 false)

theorem witness_restores :
    let s := savedTwo
    let t := s.modCore 16 fun x => { x with wid := some 1, linger := true }
    s.me.sys = true ∧ s.areaOk s.me.part 0x100000 32 = true ∧
      (match s.saves.find? fun v => v.addr == 0x100000 with
        | some v => (match s.weaveOf v.wid with
          | some w => v.wid == 2 && s.areaFree w v && !t.areaFree w v
          | none => false)
        | none => false) = true := by decide +kernel

theorem witness_repairs :
    let s := regs sysBase [(2, BitVec.ofNat 64 (5 * 2 ^ 16 + 8 * 2 ^ 8)), (3, 1)]
    let q := s.modCore (posCore (s.rg 2)) fun x => { x with quar := true }
    let r : LogRec := ⟨1, 2, 3, 4⟩
    (s.rg 2).extractLsb' 32 32 = 0 ∧ (s.rg 2).extractLsb' 0 8 = 0 ∧ posPkg (s.rg 2) = ownPkg s ∧ s.dieIn s.me.part (posDie (s.rg 2)) = true ∧
      posCol (s.rg 2) ≤ 159 ∧ (s.coreRec (posCore (s.rg 2))).quar = false ∧ s.quiescent (posCore (s.rg 2)) = true ∧
      (q.coreRec (posCore (s.rg 2))).quar = true ∧ (∀ d ∈ rowCores (posCore (s.rg 2)), s.quiescent d = true) ∧
      s.remapOf (posCore (s.rg 2)) = 0 ∧
      (∀ d ∈ rowCores (posCore (s.rg 2)), d ≠ posCore (s.rg 2) → (s.coreRec d).quar = false) ∧
      counterOf 0x10 = some .block ∧ (s.rg 3).extractLsb' 2 62 = 0 ∧ s.dieIn s.me.part ((s.rg 3).extractLsb' 0 2).toNat = true ∧
      (s.dieRec 1).log = [] ∧ ((s.modDie 1 fun y => { y with log := [r] }).dieRec 1).log = [r] := by decide +kernel

theorem witness_power : sysBase.me.sys = true ∧ (sysBase.rg 3).toNat ≤ 5 ∧ islandDie 9 = some 1 ∧ sysBase.dieIn sysBase.me.part 1 = true ∧
    sysBase.pointRefused 9 0 = false ∧ sysBase.drained := by
  unfold State.drained; decide +kernel

/-! ### Steps of the device -/

/-- What each request leaves in the network when it is not answered at once. -/
def slow : State := regs { base with prompt := false } [(2, 0x2008), (3, 7)]
def sentLoad : State := after (exec (.ld ⟨.i64, 1, 2, imm 0, none⟩) slow)
def sentStore : State := after (exec (.st ⟨.i64, 2, 3, imm 0, none⟩) slow)
def sentAtom : State := after (exec (.aadd ⟨.i64, 1, 2, 3, 0, none⟩) slow)
def sentTagged : State := after (exec (.ldt ⟨.i64, false, 2, 0, 0, 5, none⟩) slow)
def sentRed : State := after (exec (.red ⟨.add, .i32, 2, 3, 0, none⟩) slow)

theorem witness_homeLoads :
    (match sentLoad.net.reqs with
      | [r] => (match r.kind with
        | .load parts => r.tagged.isNone && !parts.isEmpty && parts.all fun p => p.2.readKeys.all fun k => !sentLoad.deadKey k
        | _ => false)
      | _ => false) = true ∧
    (match sentStore.net.reqs with
      | [r] => (match r.kind with
        | .store bs _ => !bs.isEmpty && bs.all fun b => !sentStore.claimed b.1 && !sentStore.deadKey b.1
        | _ => false)
      | _ => false) = true ∧
    (match sentAtom.net.reqs with
      | [r] => (match r.kind with
        | .atom _ _ y _ _ _ => !y.keys.isEmpty && y.keys.all fun k => !sentAtom.claimed k && !sentAtom.deadKey k
        | _ => false)
      | _ => false) = true := by decide +kernel

theorem witness_replies :
    (let s := after (exec (.homeAccess 0) sentLoad)
     match s.net.replies with
      | [r] => (s.strand r.strand).live && (s.strand r.strand).gen == r.gen && (stageReply (s.strand r.strand).stage r).isSome
      | _ => false) = true ∧
    (after (exec (.homeAccess 0) sentStore)).net.acks.length = 1 ∧
    (let s : State := { staged .wakeSent with net := { Net.empty with wakes := [⟨0, base.me.gen, 5, [], false⟩] } }
     (s.strand 0).live = true ∧ (s.strand 0).gen = base.me.gen ∧ (s.strand 0).stage = .wakeSent) ∧
    ((staged (.sleeping 0)).strand 0).stage = .sleeping 0 ∧ 0 ≤ (staged (.sleeping 0)).now (coreOf 0) ∧
    (let s := State.with base fun x => { x with refetch := some (0x1000, false) }
     s.me.refetch = some (0x1000, false) ∧ (match (s.refetchLine 0x1000).2 with
      | .ok l => (targetMiss 0x1000 true l).isNone
      | _ => true) = true) := by decide +kernel

/-- The code page cached with right to execute, and the line of NOPs in memory, so that a refetch finds it. -/
def fetchBase : State :=
  { State.with base fun x => { x with refetch := some (0x1000, false) } with
    cores := [(0, { testCore with mtlb := [⟨0, 0x10000, 0, 0x2000, BitVec.ofNat 64 (2 ^ 63 + 2 ^ 58 + 2 ^ 57 + 9)⟩] })]
    mem := State.reset.mem.writeAll (layBytes (keysFrom (9 * 8192 + 4096) 64) nops.toNat) }

theorem witness_refetch : fetchBase.me.refetch = some (0x1000, false) ∧
    (match (fetchBase.refetchLine 0x1000).2 with
      | .ok l => l == nops && (targetMiss 0x1000 true l).isNone
      | _ => false) = true := by decide +kernel

theorem witness_tagReplies :
    (let s := after (exec (.homeAccess 0) sentTagged)
     match s.net.tagReplies with
      | [r] => r.tags.isEmpty && (s.entryFor r.ref).isSome && (s.entryFor { r.ref with entry := 9 }).isNone
      | _ => false) = true ∧
    (let c : TagCheck := ⟨⟨⟨0, base.me.gen, 0, 0⟩, .i64, 0x2008⟩, 0, false, .fabric, false, some ⟨0x10, 1, 0x2008, none, 0⟩⟩
     [c][0]? = some c ∧ c.fault = some ⟨0x10, 1, 0x2008, none, 0⟩) := by decide +kernel

def aRed (op : RedOp) (ty : Ty) (rwin : Bool) (held : Option Nat) : RedPkt :=
  ⟨op, ty, keysFrom 40960 4, rwin, 3, 3, false, false, false, false, [(0, 0)], [], held⟩
def withReds (l : List RedPkt) : State := { base with net := { Net.empty with reds := l } }

theorem witness_reds :
    (match sentRed.net.reds with
      | [p] => !p.rwin && p.keys.all fun k => !sentRed.claimed k && !sentRed.deadKey k
      | _ => false) = true ∧
    (let s := withReds [aRed .add .f32 true none]
     (∀ k ∈ (aRed .add .f32 true none).keys, s.claimed k = false ∧ s.deadKey k = false) ∧ Ty.isFlt .f32 = true) ∧
    (let s := withReds [aRed .max .i32 true none, aRed .max .i32 true none]
     s.net.reds[0]? = some (aRed .max .i32 true none) ∧ s.net.reds[1]? = some (aRed .max .i32 true none) ∧ Ty.isFlt .i32 = false) ∧
    (let s := (withReds [aRed .max .i32 true (some 0)]).modDie 0 fun d => { d with cyc := 64 }
     s.net.reds[0]? = some (aRed .max .i32 true (some 0)) ∧ 0 + 64 ≤ s.cycle 0) := by decide +kernel

def aWalk : Walk := ⟨0, 0, 0, 0x10000, 0x2000, false⟩
def walking (pte : Word) : State := loaded { base with net := { Net.empty with walks := [aWalk] } } (walkMem pte)

theorem witness_walks :
    (match (walking (spilledPte - BitVec.ofNat 64 (2 ^ 61))).walkWith (blockOf 0) aWalk with
      | .ok l => pteST l.pte == 0
      | _ => false) = true ∧
    (match (walking 0).walkWith (blockOf 0) aWalk with
      | .ok _ => false
      | .error _ => true) = true ∧ base.upsets = [] ∧ base.poison = [] ∧ (walking 0).net.walks[0]? = some aWalk ∧
      (after (exec .tlbinvAll sysBase)).net.invals ≠ [] ∧
      (after (exec (.pgin ⟨1, 2, 0⟩) (regs spilledBase [(2, 0x2000)]))).net.pageins.length = 1 ∧
      (let s : State := { staged (.flashOut 3) with net := { Net.empty with flash := [(3, 5, 6, 0)] } }
       s.net.flash[0]? = some (3, 5, 6, 0) ∧ (s.strand 0).stage = .flashOut 3) := by decide +kernel

def sending : State := after (exec (.send ⟨2, 3, 2, 4⟩) base)
def delivered : State := after (exec (.sendQueueDrain 0) sending)
def arrived : State := after (exec (.messageArrival 0) (delivered.setHandler 4 fun _ => 0x8000000000001000))

theorem witness_queues :
    (sending.strand 0).sendq.length = 1 ∧
    (match delivered.net.msgs with
      | [m] => m.cores == [0] && decide ((delivered.coreRec 0).inbox.length < 24) && delivered.holds 0 m.wid && !(delivered.coreRec 0).linger
          && !(entEn ((delivered.coreRec 0).handler m.tag) && entAddr ((delivered.coreRec 0).handler m.tag) == 0)
      | _ => false) = true ∧
    (let s : State := { base with net := { Net.empty with pushes := [⟨0, 64, 1, false, none⟩] } }
     s.net.pushes.length = 1 ∧ (s.coreRec 0).ready.length < 256) ∧
    (let s := State.with withRing fun x => x.writeV 6 (ofElems 64 ([own 64, own 128, 0x10000, 0x0001000100010008].map BitVec.toNat))
     let t := after (exec (.copy ⟨6, 9, none⟩) (regs s [(9, handle)]))
     match (t.tileRec 0).copyq with
      | [c] => t.copyAcquired c && !t.copyHeld c && c.late.isNone && !c.reserved && !(t.readCopy c).2.1.isEmpty
          && (t.ring c.wid (hDie c.ring * 160 + hBlk c.ring) (hIdx c.ring)).any fun r =>
            r.asks.isEmpty && decide ((r.wp - r.rp).toNat + r.res < r.size)
      | _ => false) = true := by decide +kernel

theorem witness_dispatch :
    arrived.starts 0 = true ∧ ((arrived.promoteTasks 0).nextTask 0).isSome = true ∧
    (match (arrived.coreRec 0).inbox with
      | [m] => (arrived.weaveOf m.msg.wid).isSome
      | _ => false) = true ∧
    (let s := loaded (base.push ⟨0, 64, 1, false, none⟩) (layBytes (keysFrom (localKey 0 72) 8) 0x1000)
     match (s.coreRec 0).ready with
      | [e] => (s.weaveOf e.wid).isSome && !descBad (s.word (localKey 0 (e.off + 8)))
      | _ => false) = true := by decide +kernel

def inLoom : State := after (exec (.mma ⟨.bf16, 0, 0, 16, 0, 0, false, false, 0, 0⟩) base)
/-- Two cores whose strands wait at one gang operation. -/
def gangOfTwo : State :=
  let s : State := { base with
    cores := (List.range 2).map fun i => (loomCore 0 i, testCore)
    strands := [(strandAt (loomCore 0 1) 0, base.me)] }
  { s with gangs := [gangReq s 1 0, { gangReq s 1 0 with strand := strandAt (loomCore 0 1) 0 }] }

theorem witness_loomSteps :
    (match (inLoom.coreRec 0).loomq with
      | [o] => o.bad.isNone && (inLoom.strand o.strand).live && (inLoom.strand o.strand).gen == o.gen
      | _ => false) = true ∧
    (let s := gangOfTwo
     let rs := s.gangs
     let r := gangReq s 1 0
     rs.map (·.strand) = r.cores.map (fun c => strandAt c (slotOf 0)) ∧
       (∀ c ∈ r.cores, s.holds c (s.strand 0).wid = true ∧ (s.strand (strandAt c (slotOf 0))).live = true ∧
        (s.strand (strandAt c (slotOf 0))).wid = (s.strand 0).wid) ∧
       (∀ x ∈ rs, s.gangs.find? (fun y => y.strand = x.strand) = some x ∧ 1 < x.cores.length ∧ x.descr = r.descr ∧
        s.memberFault x (x.strand == 0) = none) ∧
       s.gangReady (s.gangClaims s.fresh.1 r rs) r rs = true) ∧
    (let s := State.with base fun x => { x with tr := { Treadle.idle with
        st := .running, n := 1, k := 1, pass := 1, entries := [⟨.vand ⟨.z64, 1, 2, 3, every⟩, ⟨false, 0⟩, []⟩] } }
     s.me.live = true ∧ s.me.tr.stage = .none ∧ s.passHeld s.me = false ∧ s.islandHeld s.core = false ∧ s.rp 0 ≠ false) := by
  decide +kernel

def aShuttle (since : Option Nat) : Shuttle := ⟨1, 0x4000, 1, 0, [], [], 0, 0x100000000, 0, Vector.replicate 8 .unbound, false, since, 0, 0, 0, none, none, []⟩

theorem witness_shuttles :
    (base.coreRec 0).arrivals.length < 16 ∧ (base.coreRec 0).shed = [] ∧ (base.coreRec 0).quar = false ∧
    16 ≤ ((base.modCore 0 fun c => { c with arrivals := List.replicate 16 (aShuttle none) }).coreRec 0).arrivals.length ∧
    (let s := base.modDie 0 fun d => { d with cyc := 2048 }
     0 + 2048 ≤ s.now 0 ∧ (s.coreRec 0).shed.length < 1024 ∧ (s.coreRec 0).report + 32 ≤ s.now 0) ∧
    ((base.modCore 0 fun c => { c with shed := [aShuttle none] }).coreRec 0).shed = [aShuttle none] := by decide +kernel

def streamNet (y : Stream) (f : Net → Net) : State := { base with streams := [y], net := f Net.empty }

theorem witness_streamSteps :
    (let s := streamNet boundStream fun n => { n with items := [⟨1, 0, 0, some 0, ⟨1, 5, false, 0⟩⟩], credits := [(1, 0, 0)] }
     s.stream 1 0 0 = some boundStream ∧ boundStream.rcv.st ≠ .closed ∧ boundStream.rcv.st ≠ .orphaned ∧ boundStream.lost = false ∧
       boundStream.rcv.place = some 0 ∧ (s.coreRec (coreOf 0)).quar = false) ∧
    aStream.rcv.place = none ∧ (streamNet aStream id).stream 1 0 0 = some aStream ∧
    (let y : Stream := { aStream with moveS := some 0 }
     y.moveS = some 0 ∧ y.moveR = none ∧ y.snd.st ≠ .orphaned) ∧
    (let y : Stream := { aStream with moveR := some 0 }
     y.moveS = none ∧ y.moveR = some 0 ∧ y.rcv.st ≠ .orphaned) ∧
    (let y : Stream := { boundStream with rcv := { boundStream.rcv with st := .moving, place := some 8 } }
     let p : FwdPtr := ⟨1, 0, 0, some 8, [], some 1⟩
     let s := (streamNet y id).modCore 0 fun c => { c with fwd := [p] }
     (s.coreRec 0).fwd[0]? = some p ∧ s.ptrBusy 0 p 1 = false ∧ s.stream 1 0 0 = some y ∧
       (s.modCore 0 fun x => { x with fwd := x.fwd.eraseIdx 0 }).ptrCores y = [] ∧ y.moveR = none) ∧
    (let s := streamNet boundStream fun n => { n with orphans := [⟨1, 0, 0, false, some 1, 5, false⟩] }
     s.net.orphans[0]? = some ⟨1, 0, 0, false, some 1, 5, false⟩ ∧ boundStream.snd.st ≠ .closed) := by decide +kernel

/-- A launch in the pool, and a choice of one block, one tile and one core. -/
def pooled : Weave := { testWeave with
  wid := 5, placed := false, cores := []
  words := [BitVec.ofNat 64 (2 ^ 3 + 2 ^ 7 + 2 ^ 12 + 2 ^ 15 + 2 ^ 23 + 2 ^ 26), 0x1000] }
def launching : State := { base with weaves := [testWeave, pooled] }
def oneChoice : List DieChoice := [⟨0, [(2, [4])]⟩]

theorem witness_queueDoorbell : (0 : BitVec 6).toNat / 16 < base.nparts ∧ (base.partRec 0).on = true ∧
    (0 : BitVec 6).toNat % 16 < (base.partRec 0).nq := by decide +kernel
/-! ### Launches, ends, drains, quarantine and links -/

/-- A launch whose shape has no strand (R17). -/
def misshapen : Weave := { pooled with words := [BitVec.ofNat 64 (2 ^ 7 + 2 ^ 12 + 2 ^ 15 + 2 ^ 23 + 2 ^ 26), 0x1000] }
/-- Two resident weaves in a partition whose drain began at cycle 0 and whose time is over. -/
def draining : State :=
  let s := twoWeaves.modPart 0 fun p => { p with draining := some 0, drain := 5 }
  s.modDie 0 fun d => { d with cyc := 100 }

theorem witness_placement :
    let s := launching
    let e : Extras := s.readExtras (s.launchCtx pooled.part pooled.root pooled.wid) pooled.words
    let cores := choiceCores (shapeOf pooled.words).cpt oneChoice
    s.nextLaunch = some pooled ∧ recShm pooled.words = false ∧ s.launchCode pooled.part pooled.words e pooled.parent.isSome true false = none ∧
      s.inTeam pooled.wid (ownPkg s) = true ∧ s.choiceFits pooled.part (shapeOf pooled.words) oneChoice = true ∧
      recWord pooled.words 10 = 0 ∧ s.fits pooled.words cores 0 = true ∧
      (let t : State := { s with weaves := [testWeave, misshapen] }
       let e : Extras := t.readExtras (t.launchCtx misshapen.part misshapen.root misshapen.wid) misshapen.words
       t.nextLaunch = some misshapen ∧ recShm misshapen.words = false ∧
         t.launchCode misshapen.part misshapen.words e misshapen.parent.isSome true false = some 1) := by decide +kernel

theorem witness_weaveEnds :
    (let w : Weave := { pooled with placed := true, cores := [16] }
     let s : State := { base with weaves := [testWeave, w] }
     s.weaveOf 5 = some w ∧ s.weaveOver w = true) ∧
    (let s := draining
     let w1 := { testWeave with stopping := true }
     (s.partRec 0).draining = some 0 ∧ s.resident 0 = [testWeave, weaveTwo] ∧ (∀ y ∈ [weaveTwo], testWeave.wid < y.wid) ∧
       (0 : Word).toNat + (s.partRec 0).drain.toNat < s.cycle ((s.partDies 0).headD 0) ∧
       (s.setWeave w1).saveReady w1 none = true ∧
       ({ s.setWeave w1 with cores := sentStore.cores } : State).saveReady w1 none = false) ∧
    (base.coreRec 0).quar = false ∧ (base.coreRec 0).wid = some 1 ∧ (base.coreRec 32).quar = false ∧ (base.coreRec 32).wid = none ∧
    base.failed.contains (0, 1, 2) = false := by decide +kernel

/-! ### Bring-up and the platform -/

def atStage (n : BitVec 8) : State :=
  { State.reset with host := { State.reset.host with stage := n, trained := true, fwb := 0x1000, fwl := 17408 } }

theorem witness_bringUp : State.reset.host.stage = 0 ∧ (atStage 1).host.stage = 1 ∧ (atStage 2).host.stage = 2 ∧
    (atStage 2).host.fwb.toNat % 4096 = 0 ∧ (atStage 2).host.fwl.toNat = 17408 ∧ (atStage 2).upsets = [] ∧
    (atStage 2).rangePoisoned (hostBase + 0x1000) 17408 = false ∧ State.reset.host.fwl.toNat < 17408 ∧ (atStage 3).host.stage = 3 ∧
    (⟨false, false, [5]⟩ : BringupFacts).peerClash = false ∧ (⟨false, false, [5]⟩ : BringupFacts).stackFails = false := by
  decide +kernel

/-- Stream 0 of port 0, its receive end's side and its send end's, both ends bound and the pair on. -/
def portStream (recv : Bool) (held : List Item) : Stream := { boundStream with wid := 0, blk := portBlk 0 recv, str := 0, held := held }
def ports : State :=
  let s := atStage 4
  { s with
    streams := [portStream true [], portStream false [⟨0, BitVec.ofNat 64 (100 * 2 ^ 16), false, 0⟩]]
    host := { s.host with qcfg := [(0, 4)] } }

theorem witness_platform : ports.host.trained = true ∧ ports.host.stage = 4 ∧ ¬ (0x80 ≤ ports.host.stage) ∧
    (0 : BitVec 2).toNat < ports.nparts ∧ State.reset.host.trained = false ∧ 2 ≤ ports.point 3 ∧
    ports.stream 0 (portBlk 0 true) 0 = some (portStream true []) ∧ ports.pairOn 0 0 = true ∧
    (portStream true []).rcv.st ≠ .orphaned ∧ (portStream true []).rcv.st ≠ .closed ∧ (portStream true []).out < 32 ∧
    64 ≤ (List.replicate 60 (0 : Byte)).length + 4 ∧
    ports.stream 0 (portBlk (0 / 16) false) (0 % 16) = some (portStream false [⟨0, BitVec.ofNat 64 (100 * 2 ^ 16), false, 0⟩]) ∧
    (portStream false [⟨0, BitVec.ofNat 64 (100 * 2 ^ 16), false, 0⟩]).held.find? (fun i => i.seq == 0) =
      some ⟨0, BitVec.ofNat 64 (100 * 2 ^ 16), false, 0⟩ ∧
    (BitVec.ofNat 64 (100 * 2 ^ 16) : Word) &&& 0xFFFFFFFFC000FFC0 = 0 := by decide +kernel

/-! ### The step -/

/-- NOP where its guard holds, where it does not, and a word with operation code 0. -/
def lineBase (w : Nat) : State :=
  { base with cores := [(0, { testCore with store := [⟨0x1000, testLine w, guardPar (testLine w)⟩] })] }
def heldBack : Nat := nopWord + 2 ^ 95

theorem witness_step :
    (let u := (lineBase nopWord).tick 1
     u.me.live = true ∧ u.me.refetch = none ∧ u.islandHeld u.core = false ∧ u.stopped = false ∧ u.me.pend = [] ∧ u.agenda = [] ∧
     u.leavesSegment u.me.pc = false ∧ u.fetchLine u.me.pc = .line (testLine nopWord) ∧ lineIllegal (testLine nopWord) = none ∧
     validCode u.me.pc = true) ∧
    (match decodeSlots (slotsFrom (testLine nopWord) 0), decodeSlots (slotsFrom (testLine heldBack) 0), decodeSlots (slotsFrom (testLine 0) 0) with
      | .ok d, .ok e, .error (.illegal j) => d.instr == .nop && base.rp d.guard.p != d.guard.neg && base.rp e.guard.p == e.guard.neg && j == 0
      | _, _, _ => false) = true ∧
    (lineBase heldBack).fetchLine 0x1000 = .line (testLine heldBack) ∧ (lineBase 0).fetchLine 0x1000 = .line (testLine 0) ∧
    lineIllegal (testLine heldBack) = none ∧ lineIllegal (testLine 0) = none := by decide +kernel

/-- A SCOPE prefix before NOP, which takes none (R69). -/
def misusedLine : Line := withParity (BitVec.ofNat 512 ((lineOf 0x02000000000000000000000D).toNat % 2 ^ 504 + 2 ^ 490))
theorem witness_misuse : lineIllegal misusedLine = none ∧
    (match decodeSlots (slotsFrom misusedLine 0) with
      | .error (.misuse sub j) => sub == 3 && j == 1
      | _ => false) = true := by decide +kernel

theorem witness_eventTurn : ({ base with agenda := [⟨.event .go, 4, []⟩] } : State).agenda = ⟨.event .go, 4, []⟩ :: [] ∧ Instr.go.isEvent = true := by
  decide +kernel

/-- A safe state that steps on. -/
theorem witness_safe : base.Inv ∧ (match step base with
    | .next t => t.me.pc == 0x100C
    | _ => false) = true := by
  unfold State.Inv; decide +kernel

theorem witness_privilege : base.me.sys = false ∧ base.me.tr.st ≠ .running := by decide +kernel

theorem witness_registers : (5 : GReg) ≠ 0 ∧ (5 : PReg) ≠ 0 ∧ (5 : MReg) ≠ 0 ∧ sysBase.me.sys = true ∧ 60 ≤ (61 : GReg).val ∧
    [1, 2].length ≤ 512 / 64 ∧ 7 < 512 / 64 ∧ State.reset.mem.wf = true ∧ [4, 5].Nodup ∧ (6 : Nat) ∉ [4, 5] := by decide +kernel

theorem witness_rounding : 0x3F800000 < 2 ^ Num.Fmt.f32.width ∧ (match Num.decode .f32 0x3F800000 with
    | .fin n k e => !n && k == 2 ^ 23 && e == -23
    | _ => false) = true := by decide +kernel

theorem witness_roundTrip : (Instr.vadd ⟨.f32, false, 4, 5, 6, none, every⟩).wf = true ∧
    (Instr.vadd ⟨.f32, false, 4, 5, 6, none, every⟩).isEvent = false := by decide +kernel

/-! ### Further conditions of the statements -/

/-- Where no error waits in a word, the accesses' walks and fetches leave the state as it is. -/
theorem witness_quietWords : base.walkedTo 4 [own 64] = base ∧ base.meetFetch 0x100C = base ∧
    unmarkedBase.meetFetch 0x100C = unmarkedBase ∧ spilledBase.walkedTo 1 [0x2000] = spilledBase ∧
    recBase.markIssue.walkable 1 [own 128, own 192] ∧ recBase.markIssue.walkedTo 1 [own 128, own 192] = recBase.markIssue ∧
    base.rmodeReady := by
  unfold State.rmodeReady State.walkable; decide +kernel

/-- A strand that parked a wait at its own address, at the entry a return names, and one that did not. -/
theorem witness_parkedReturn :
    let s := State.with base fun x => { x with flags := 2 ^ 62, tpc := 0x1000, entW := some 0x1000, parked := some (0x1000, .wakeSent, none) }
    let w (keep : Bool) : State := { s with me := (Strand.keepParked { s.me with
      flags := s.me.flags &&& ~~~(1#64 <<< 62), entW := none } s.me.tpc keep) }
    (w true).lands s.me.tpc true nops ∧ (w true).me.parked = some (0x1000, .wakeSent, none) ∧ (w false).me.parked = none ∧
      ((w false).meetFetch s.me.tpc).fetchLine s.me.tpc = .line nops ∧
      ((w false).meetFetch s.me.tpc).lands (succAddr (chainEnd s.me.tpc nops)) true nops := by
  unfold State.lands; decide +kernel

/-- A scalar store beside a vector half, which overlaps what the vector half reads; and halves of which the scalar one is done. -/
theorem witness_pairStore :
    let s := regs base [(2, own 64), (3, 5)]
    let x : MemS := ⟨.i64, 2, 3, imm 0, none⟩
    let p : Put := ⟨ownSite 64 8, layBytes (ownSite 64 8).keys 5, 0⟩
    let vh : VectorHalf := .vld ⟨.i64, 4, 2, 0, every, none⟩
    let vst : VectorHalf := .vst ⟨.i64, 2, 4, 0, every, none⟩
    let ok (r : Res) : Bool := match r with | .ok _ => true | _ => false
    let traps (r : Res) : Bool := match r with | .trap _ _ => true | _ => false
    plainScalar (.add ⟨.i64, false, 5, 6, 7⟩) = true ∧ plainVector (.vand ⟨.z64, 4, 5, 6, every⟩) = true ∧ vh ≠ .none ∧
      ok (stChecked x s fun u q => if q = p then storeWith q vh u else .gone u) = true ∧
      ok (stChecked x s fun u q => storeWith q vst u) = true ∧
      traps (stChecked x s fun u q => storeWith q (.vld ⟨.i64, 4, 0, 1, every, none⟩) u) = true ∧
      traps (stChecked { x with imm := imm 4 } s fun u _ => .ok u) = true ∧
      (let u := State.with s fun x => { x with half := some x.halfDone }
       match runVectorHalf vh (beforeVector u u u.me.halfDone) with
        | .ok _ => u.me.half == some u.me.halfDone
        | _ => false) = true := by decide +kernel

/-- A VST whose first half lies on an ordinary page and whose second on a page of format 2 (Q4B16). -/
theorem witness_mixedVst :
    let s : State := regs { base with cores := [(0, { testCore with
      mtlb := [⟨0, 0x10000, 0x6000, 0x2000, BitVec.ofNat 64 (2 ^ 63 + 2 ^ 60 + 2 ^ 59 + 2 ^ 57 + 5)⟩,
        ⟨0, 0x10000, 0x8000, 0x8000, BitVec.ofNat 64 (2 ^ 63 + 2 ^ 60 + 2 ^ 59 + 2 ^ 57 + 2 * 2 ^ 52 + 6)⟩] })] } [(2, 0x7FE0)]
    let es := vecAddrs s .bf16 every (seqAddr s 2 0 .bf16)
    let chk : Word → Except Trap Site := fun a => (s.check s.ctx .store false 2 0x7FE0 a 2).bind (vstShape s 0x7FE0 true 0x7FE0 a)
    let ys := got [] (checkElems chk (some 0x7FE0) es)
    checkElems chk (some 0x7FE0) es = .ok ys ∧ s.walkable 2 (es.map (·.2)) ∧
      ∃ y ∈ ys, ∃ z ∈ ys, y.2.fmt.map (fun f => (f.1, f.2.1)) ≠ z.2.fmt.map fun f => (f.1, f.2.1) := by
  unfold State.walkable; decide +kernel

/-- An entry stamped in the cycle whose later entry has been taken already is held for the next; and the walk that runs. -/
theorem witness_heldLanding :
    (let s := State.with (withEntries [entry 0 .pending none]) fun x =>
       { x with stampCyc := some 0, took := some (0, 5) }
     s.landHeld ⟨0, s.me.gen, 0, 0⟩ = true ∧ (withEntries [entry 0 .pending none]).landHeld ⟨0, base.me.gen, 0, 0⟩ = false ∧
       (s.entryFor ⟨0, s.me.gen, 0, 0⟩).isSome = true) ∧
    (walking spilledPte).walkRuns aWalk = true ∧ (walking spilledPte).upsets = [] ∧ base.me.stampCyc ≠ some 0 := by decide +kernel

/-- A codelet whose descriptor's counter has risen: its cell still empty, filled meanwhile, or taken by another waiter. -/
theorem witness_squashed :
    let y := ownSite 64 16
    let at' (s : State) : State := State.with s fun x =>
      { x with weave := weaveWord testWeave 3 1, desc := own 128, stage := .cntUp }
    let s := at' base
    s.me.stage = .cntUp ∧ s.check s.ctx .rmw true 16 (own 64) (own 64) 16 = .ok y ∧ y.fmt = none ∧
      (∀ k ∈ s.ownCount ++ y.keys, s.claimed k = false) ∧ s.brokenLocal (y.keys ++ s.ownCount) = false ∧
      (s.meetUpsets y.keys).sitePoisoned y = false ∧ cellBad (s.cellState y) = false ∧ (s.cellState y).getLsbD 63 = false ∧
      (s.cellState y).getLsbD 62 = false ∧ ((at' fullCell).cellState y).getLsbD 63 = true ∧
      ((at' awaitedCell).cellState y).getLsbD 62 = true ∧ s.me.tr.st ≠ .running ∧ awaitedCell.waiterClaimed (own 128) = false := by
  decide +kernel

/-- A command whose slot is filled and whose bytes are still to be written. -/
theorem witness_lateCopy :
    let c : CopyCmd := ⟨copyWords, handle, 0, 0, 1, 0, false, 0, [], 0, true, false, some [(ownSite 128 8, 5)]⟩
    let s := base.modTile 0 fun x => { x with copyq := [c] }
    (s.tileRec 0).copyq = [c] ∧ c.late = some [(ownSite 128 8, 5)] ∧
      (∀ k ∈ (ownSite 128 8).writeKeys, s.claimed k = false) := by decide +kernel

theorem witness_places : (0x02 : BitVec 8).toNat ∈ privateArrays ∧ linkPeer 0 21 3 = some (0, 24) ∧ worholtPort 0 160 3 = true ∧
    worholtPort 0 21 3 = false ∧ base.linkFailed 0 21 3 = false ∧ base.deviceReads 0x100000 32 = true ∧ base.deviceReads 0x100000 56 = true ∧
    base.brokenLocal (keysFrom 40960 4) = false ∧ (aRed .max .i32 true none).open 0 = true := by decide +kernel

/-- Nobody waits at a local queue; and the first of two that wait is the current strand. -/
theorem witness_localQueues : (∀ e ∈ base.lqWaiters, e.2.2.1 = base.cur ∨ ¬(e.1 = 3 ∧ e.2.1 = true)) ∧
    base.me.tr.mayDraw = false ∧
    (let x : Strand := { base.me with tr := { Treadle.idle with st := .running, p := 1 } }
     State.rp { base with me := x.passView ⟨.vand ⟨.z64, 1, 2, 3, every⟩, ⟨false, 0⟩, []⟩ } 0 ≠ false) := by decide +kernel

/-- Launches and their images are read without an error; a shuttle comes back without one. -/
theorem witness_quietLaunch :
    launching.touchExtras (launching.launchCtx pooled.part pooled.root pooled.wid) 0 pooled.words = launching ∧
    recBase.touchExtras (recBase.launchCtx 0 0x10000 1) 0 [] = recBase ∧ base.meetRangeAs 1 0 0 576 = base := by decide +kernel

/-! ### Further clauses -/

/-- A vector half that reads what its scalar half stores, one that does not, and one that traps. -/
theorem witness_afterStore :
    let s := regs base [(2, own 64), (3, 5)]
    let p : Put := ⟨ownSite 64 8, layBytes (ownSite 64 8).keys 5, 0⟩
    let near : VectorHalf := .vld ⟨.i64, 4, 2, 0, every, none⟩
    let far : VectorHalf := .vld ⟨.i64, 4, 2, 64, every, none⟩
    s.me.half = none ∧ s.me.tr.st ≠ .running ∧ halfReads near p.bytes s = true ∧ halfReads far p.bytes s = false ∧
      (match runVectorHalf near (s.seeing p.bytes), afterStore near p.bytes s, afterStore far p.bytes s with
        | .ok _, .ok s2, .ok _ => (match s2.store {} false [p] .ok with
          | .ok _ => true
          | _ => false)
        | _, _, _ => false) = true ∧
      (match afterStore (.vld ⟨.i64, 4, 0, 1, every, none⟩) p.bytes s with
        | .trap _ _ => true
        | _ => false) = true := by decide +kernel

/-- VTAKE with none landed and loads outstanding, with no lane selected before a landed entry, and before a faulted one. -/
theorem witness_vtakeWaits :
    let none' : VSel := ⟨false, 0, some ⟨false, 1, 0, 0⟩⟩
    let f : Trap := ⟨0x13, 0, 1, none, 0⟩
    (let s := withEntries [entry 0 .pending none]
     s.me.tr.st ≠ .running ∧ s.me.takeOrder = [] ∧ s.me.outstanding ≠ 0) ∧
    (let s := withEntries [entry 0 .landed none, entry 1 .pending none]
     (s.me.takeOrder.head?.map (·.st)) = some .landed ∧ s.me.outstanding ≠ 0) ∧ none'.lane.isSome = true ∧
    (let s := withEntries [entry 0 .faulted (some f)]
     (s.me.takeOrder.takeWhile fun e => e.st == .landed) = [] ∧ s.me.takeOrder.head? = some (entry 0 .faulted (some f))) := by
  decide +kernel

/-- PHSW whose signal completes the phase, and whose phase goes on; and one that is held. -/
theorem witness_phaserSwitch :
    let m := testMember .sigWait .active false
    let other := { testMember .sigWait .active false with mem := 1 }
    let done := withPhaser [m]
    let waits' := withPhaser [m, other]
    let v := done.markIssue.signal testPhaser m done.cur true
    let w := waits'.markIssue.signal testPhaser m waits'.cur true
    done.memberOf token = .ok (testPhaser, m) ∧ signals m.mode = true ∧ waits m.mode = true ∧ done.drained ∧ waits'.drained ∧
      v.me.stage = .phDone 5 ∧ w.me.stage = .phSw 0 0 4 ∧ m.status = .active ∧ m.sig = false ∧ waits'.phaser 1 0 0 = some testPhaser ∧
      (let early := testMember .sigWait .active true
       ((withPhaser [early, other]).markIssue.signal testPhaser early 0 true).me.stage = .sigHeld true) := by
  unfold State.drained; decide +kernel

/-- A full send queue, of a strand that is no handler and of one that is. -/
theorem witness_sendWaits :
    let full (s : State) : State := State.with s fun x => { x with sendq := [aMsg, aMsg, aMsg, aMsg] }
    (full base).memFree ∧ (full base).drained ∧ (full base).reaches 0 ∧ (full base).me.origin ≠ 1 ∧ (full base).me.tr.st ≠ .running ∧
      4 ≤ (full base).me.sendq.length ∧ (full base).me.freeEntries = List.range 32 ∧
      (full handlerBase).memFree ∧ (full handlerBase).drained ∧ (full handlerBase).reaches 0 ∧ (full handlerBase).me.origin = 1 ∧
      4 ≤ (full handlerBase).me.sendq.length ∧ (full handlerBase).me.freeEntries = List.range 32 := by
  unfold State.memFree State.drained State.reaches; decide +kernel

/-- A counter at 1 whose owner has room, and whose owner has none. -/
theorem witness_lastInput :
    let s := loaded base (layBytes (keysFrom (localKey 0 64) 8) 1)
    let full := s.modCore 0 fun c => { c with ready := List.replicate 256 ⟨64, 1, false, 5, 0, 0⟩ }
    s.mem.value (keysFrom (localKey 0 64) 8) = 1 ∧ (s.coreRec 0).wid = some 1 ∧ (s.coreRec 0).linger = false ∧
      (s.coreRec 0).ready.length < 256 ∧ 256 ≤ (full.coreRec 0).ready.length ∧ (full.coreRec 0).wid = some 1 := by decide +kernel

/-- Recording: a form that takes effect, one that traps, one whose gang has formed, and one that is not recorded. -/
theorem witness_recording :
    let s := treadle .recording
    let idle := s.withTr { s.me.tr with st := .idle }
    s.me.tr.st = .recording ∧ s.me.sys = false ∧ s.me.wt = false ∧
      recordsAtOnce (.vadd ⟨.f32, false, 4, 5, 6, none, every⟩) = some [] ∧ recordsAtOnce (.mzero 3) = some [] ∧
      (match runRecorded 0 0 0 0 (.vadd ⟨.f32, false, 4, 5, 6, none, every⟩) idle, runRecorded 0 0 0 0 (.mzero 3) idle with
        | .ok _, .trap _ t => t.cause == 0x40
        | _, _ => false) = true ∧
      (State.with s fun x => { x with stage := .gangFormed }).me.stage = .gangFormed ∧ notRecorded .mwait = true := by
  decide +kernel

/-- Passes between two of them, and within one. -/
theorem witness_treadleRuns :
    let s := treadle .running
    s.me.tr.st = .running ∧ s.me.tr.between = true ∧
      (State.with s fun x => { x with tr := { x.tr with ix := 1 } }).me.tr.between = false := by decide +kernel

/-- Two members whose gangs are of one shape and name other tiles. -/
theorem witness_gangMismatch :
    let c1 := loomCore 0 1
    let s0 : State := { base with
      cores := (List.range 2).map fun i => (loomCore 0 i, testCore)
      strands := [(strandAt c1 0, { base.me with stage := .gangOut })] }
    let other : GangReq := { gangReq s0 1 0 with strand := strandAt c1 0, kq := 1 }
    let s : State := { s0 with gangs := [other] }
    let r := gangReq s 1 0
    let w : State := { s with gangs := s.gangs ++ [r], me := { s.me with stage := .gangOut } }
    let ks := r.cores.map fun c => strandAt c (slotOf s.cur)
    let rs := ks.filterMap fun m => w.gangs.find? fun q => q.strand == m && (m == s.cur || decide (1 < q.cores.length))
    (∀ q ∈ s.gangs, q.strand ≠ s.cur) ∧ s.cur ∈ ks ∧ rs.length = ks.length ∧ (∃ q ∈ rs, q.descr ≠ r.descr) ∧
      (∀ c ∈ r.cores, s.holds c s.me.wid = true ∧ (w.strand (strandAt c (slotOf s.cur))).live = true ∧
        (w.strand (strandAt c (slotOf s.cur))).wid = s.me.wid) := by decide +kernel

/-- Contributions to a window, of integers and of floats, and their merge. -/
theorem witness_windowReds :
    let i := aRed .add .i32 true none
    let f := aRed .add .f32 true none
    (i.rwin && i.op == .add && Ty.isFlt i.ty) = false ∧ (f.rwin && f.op == .add && Ty.isFlt f.ty) = true ∧ f.open 0 = true ∧
      (withReds [f, f]).net.reds[1]? = some f ∧ (withReds [i]).brokenLocal i.keys = false := by decide +kernel

/-- A treadle's entry whose guard holds and takes effect, and one whose guard does not; and groups of a float element. -/
theorem witness_treadleEntries :
    let e (neg : Bool) : TrEntry := ⟨.vand ⟨.z64, 1, 2, 3, every⟩, ⟨neg, 0⟩, []⟩
    let s (neg : Bool) : State := State.with base fun x => { x with tr := { Treadle.idle with
        st := .running, n := 1, k := 2, pass := 1, sv := 4, entries := [e neg] } }
    let v : State := { s false with me := (s false).me.passView (e false) }
    (s false).me.tr.sys = (s false).me.sys ∧ (s false).me.tr.entries[0]? = some (e false) ∧ v.rp 0 ≠ (e false).guard.neg ∧
      State.rp { s true with me := (s true).me.passView (e true) } 0 = (e true).guard.neg ∧
      (match runRecorded 4 0 8 0 (e false).instr v with
        | .ok u => u.cur == v.cur
        | _ => false) = true ∧
      (let ps : List ((Nat × Nat) × (Nat × Nat) × Bool) := [((0x3F80, 0), (0x4000, 0), true)]
       let qs : List ((Nat × Nat) × (Nat × Nat) × Bool) := [((0x3F80, 0), (0x4000, 0), false)]
       (∀ p ∈ ps.take 4, p.2.2 = true) ∧ (∀ p ∈ qs.take 4, p.2.2 = false)) ∧
      (Num.Val.nan false).isNan = true ∧ (0 < 8 ∧ 8 ≤ 8) := by decide +kernel

/-- A shuttle at a core that pins its segment, and at one that does not. -/
theorem witness_shuttleCore :
    shuttleBase.pinsFor (aShuttle none).wid (aShuttle none).core = true ∧ base.pinsFor (aShuttle none).wid (aShuttle none).core = false ∧
      (shuttleBase.coreRec 0).arrivals.length < 16 ∧ (shuttleBase.coreRec 0).shed = [] := by decide +kernel

/-- A port's pair that takes a frame, one that holds an earlier one, and an area outside the host window. -/
theorem witness_frames :
    let f := List.replicate 60 (0 : Byte)
    let c : State := State.flushPair ((ports.countEth 0 1 1).countEth 0 3 64) 0 0
    let held : State := { ports with framesIn := [(0, 0, f)] }
    let far : State := { ports with host := { ports.host with qcfg := [(0, BitVec.ofNat 64 (2 ^ 40 + 4))] } }
    c.framesIn.any (fun g => g.1 == 0 && g.2.1 == 0) = false ∧ c.inWindow (c.ethArea 0 0) 60 = true ∧
      (portStream true []).rcv.ended = false ∧ held.framesIn = (0, 0, f) :: [] ∧
      held.pairTakes 0 0 60 = some (portStream true []) ∧ far.inWindow (far.ethArea 0 0) 60 = false ∧
      far.pairTakes 0 0 60 = none ∧ frameLen 59 = false ∧ portBlk 0 true = 10001 := by decide +kernel

/-- A strand that waits in an instruction, which its turn runs without a fetch. -/
theorem witness_issued :
    let s := State.with base fun x => { x with issued := some (.nop, base.iss) }
    s.me.issued = some (.nop, base.iss) ∧ base.me.issued = none ∧ s.me.live = true ∧ s.me.parked = none := by decide +kernel

/-- A saved area in the host window and in the context region, one that is not in the window, and a restore there. -/
theorem witness_areaWindow :
    let s := savedTwo
    s.inWindow 0x100000 32 = true ∧ s.inWindow hostBase 32 = false ∧ s.areaOk s.me.part hostBase 32 = true ∧
      spilledBase.inWindow (0x10000 + 65536) 8192 = true ∧ spilledBase.inWindow 0x30000 8 = true ∧
      spilledBase.ownPostedIn (0x10000 + 65536) 8192 = false ∧ base.exact = [] := by decide +kernel

/-- A return at a level whose passes are suspended: a transfer that is made, one that faults, and one whose fault waits for the passes. -/
theorem witness_suspendedReturn :
    let at' (s : State) (pc : Word) (ent : Option Word) : State := State.with s fun x => { x with
      flags := 2 ^ 62, tpc := pc, entW := ent, tr := { Treadle.idle with st := .suspended, n := 1, k := 2, pass := 1 } }
    let out (s : State) (keep : Bool) : State := { s with me := (Strand.keepParked { s.me with
      flags := s.me.flags &&& ~~~(1#64 <<< 62), entW := none, tr := { s.me.tr with st := .running } } s.me.tpc keep) }
    let s := at' base 0x1000 (some 0x1000)
    let n := (out s false).meetFetch s.me.tpc
    let u := at' unmarkedBase 0x100C none
    (s.me.tr.st == .suspended && s.me.tr.susSys == s.me.sys) = true ∧ s.me.sys = false ∧ s.me.wt = true ∧ s.me.p = s.me.tr.susP ∧
      s.me.rmode ≠ s.me.tr.susRmode ∧ (out s true).lands 0x1000 true nops ∧
      n.fetchLine 0x1000 = .line nops ∧ n.lands (succAddr (chainEnd s.me.tpc nops)) true nops ∧
      (out u false).enter u.me.tpc false = .error ⟨0x03, 0, 0x100C, some 0x100C, 0⟩ ∧
      (staged (.orphaned ⟨0x03, 0, 0, none, 0⟩)).me.stage = .orphaned ⟨0x03, 0, 0, none, 0⟩ ∧
      (State.with (treadle .running) fun x => { x with stage := .orphaned ⟨0x03, 0, 0, none, 0⟩ }).me.tr.st = .running := by
  unfold State.lands; decide +kernel

/-- Rounding modes 6 and 7 as MTCR writes them, as MTCR.SET makes them of mode 2, and as MTCR.CLR leaves them. -/
theorem witness_roundingModes :
    let old (m : Word) : State := State.with (regs sysBase [(2, 6), (3, 4), (4, 0)]) fun x => { x with rmode := m }
    ((old 2).rg 2).extractLsb' 0 3 = 6 ∧ ((old 2).readCR .rmode ||| (old 2).rg 3).extractLsb' 0 3 = 6 ∧
      ((old 7).readCR .rmode &&& ~~~(old 7).rg 4).extractLsb' 0 3 = 7 ∧ (old 2).me.tr.st ≠ .running ∧ (old 2).me.sys = true := by
  decide +kernel

/-- A strand with NV enabled: v2 holds ∞ and a signalling NaN, v3 −∞. -/
def trapping : State :=
  State.with base fun x => ({ x with rmode := 0x100000100 }.writeV 2 (ofElems 32 [0x7F800000, 0x7F800001])).writeV 3 (ofElems 32 [0xFF800000])

/-- The flags of the vector forms that an enabled exception stops. -/
theorem witness_vectorTraps :
    let s := trapping
    let a (i : Nat) := fval .f32 (s.rv 2) i
    let b (i : Nat) := fval .f32 (s.rv 3) i
    let bits (i : Nat) : Nat := elem (s.rv 2) i 32
    let all (f : Nat → Num.Flags) : Option (BitVec 8) := enabledException s (laneFlags s .f32 every f)
    s.unheld ∧ all (fun i => (Num.fadd .f32 s.rmode 0 (a i) (b i)).2) = some 0 ∧
      all (fun i => (Num.fsqrt .f32 s.rmode 0 (b i)).2) = some 0 ∧ all (fun i => (Num.fminmax false .f32 (bits i) 0).2) = some 0 ∧
      all (fun i => (Num.fcmp .lt (a i) (b i)).2) = some 0 ∧
      enabledException s (convert .i8 .f32 false 0 s.rmode 0 (bits 1)).2 = some 0 ∧
      enabledException s (Num.flagIf ((List.range 16).any fun i => (a i).isSig) Num.nv) = some 0 ∧
      enabledException s (Num.sumVals .f32 s.rmode 0 false [a 0, b 0]).2 = some 0 := by
  unfold State.unheld State.begins; decide +kernel

/-- An accumulator of zeros, and one whose first element is ∞, at the start of a page of format 1. -/
theorem witness_formatMst :
    let s := regs fmtBase [(2, 0x8000)]
    let t := (State.with s fun x => { x with rmode := 0x100001F00 }).writeTile 0 0x7F80
    let ys (s : State) := got [] (tilePieces s .store 0x8000 fun b y => vstShape s 0x8000 true 0x8000 b y)
    let vals (s : State) (i : Nat) : List Nat := (List.range 32).map fun j => ((s.readTile 0).extractLsb' (512 * i + 16 * j) 16).toNat
    let first (s : State) : Option (List (Nat × Byte) × BitVec 32 × Num.Flags) :=
      match ys s with
      | (i, y) :: _ => y.fmt.map fun f => encodeBlocks s f.1 f.2.1 f.2.2 (vals s i)
      | [] => none
    s.unheld ∧ s.walkable 1024 [0x8000] ∧ (ys s).length = 16 ∧ (ys s).all (fun p => p.2.fmt.isSome) = true ∧
      (first s).map (fun b => enabledException s b.2.2) = some none ∧
      ((first t).map fun b => (enabledException t b.2.2).isSome) = some true ∧
      (match tilePieces s .store 0x8040 (fun b y => vstShape s 0x8040 true 0x8040 b y) with
        | .error t => t.cause == 0x13
        | .ok _ => false) = true := by
  unfold State.unheld State.begins State.walkable; decide +kernel

/-- A word for atomics of integers and floats, and one that AADDT carries over its threshold. -/
theorem witness_atomicForms :
    let y := ownSite 64 4
    base.memoryOk = true ∧ base.upsets = [] ∧ base.sitePoisoned y = false ∧ y.keys.length = Ty.f32.width / 8 ∧ Ty.f32 ∈ [Ty.i32, .i64, .z32, .z64, .f32] ∧
      base.saves = [] ∧ Num.readInt true 32 (base.mem.value y.keys) < Num.readInt true 32 (3 : Word).toNat ∧
      Num.readInt true 32 (3 : Word).toNat ≤ Num.readInt true 32 ((base.mem.value y.keys + 5) % 2 ^ Ty.i32.width) := by decide +kernel

/-- Address-space blocks whose Res words are zero and not, and an area with a word past correction. -/
theorem witness_rejectedBlocks :
    let s := spilledBase
    let bad := loaded s (layBytes (keysFrom 0x20008 8) 1)
    let spoilt : State := { savedTwo with poison := [0x100000] }
    s.blockBad 0x10000 = false ∧ bad.blockBad 0x10000 = true ∧ (loaded s (layBytes (keysFrom 0x21FF8 8) 1)).blockBad 0x10000 = true ∧
      bad.ownPosted (bad.pathKeys { bad.ctx with root := 0x10000 } [bad.asWord 0x10000 0]) = false ∧
      ((bad.meetRange 0x20000 8192).foldRange 0x20000 8192).rangePoisoned 0x20000 8192 = false ∧
      ((spoilt.meetRange 0x100000 32).foldRange 0x100000 32).rangePoisoned 0x100000 32 = true ∧ spoilt.me.tr.st ≠ .running := by
  decide +kernel

/-- A strand that awaits only a reply to its own request. -/
theorem witness_openSend :
    let e : LEntry := { entry 0 .pending none with req := ⟨0, .z64, .fabric, false, true⟩ }
    let s := withEntries [e]
    s.memFree ∧ s.postedDone s.issueSeq = true ∧ s.me.lsQuiet = false ∧ e.req.rq = true ∧ s.me.sendq.length < 4 ∧ s.reaches (s.rg 3) := by
  unfold State.memFree State.reaches; decide +kernel

/-- A descriptor in another package of the weave's team. -/
theorem witness_spawnAway :
    let w : Weave := { testWeave with words := testWeave.words.set 0 (BitVec.ofNat 64 (2 * 2 ^ 26 + 2 * 2 ^ 35 + 2 ^ 43)) }
    let s : State := { base with weaves := [w] }
    let a : Word := BitVec.ofNat 64 (0xFE00000000000000 + 2 ^ 40 + 64)
    let y := got (ownSite 64 64) (s.check s.ctx .store true 64 a a 64)
    classAddr a = .core ∧ s.check s.ctx .store true 64 a a 64 = .ok y ∧ y.away = true ∧ y.loc = false ∧ s.ownPosted y.keys = false ∧
      s.pendingRead y.keys = false ∧ s.classRoom [y.home] = true := by decide +kernel

/-- A state that a reset finds, control blocks of both kinds, and a port that is idle. -/
theorem witness_platformClauses :
    let block (n : Nat) : State := loaded ports (layBytes (keysFrom (0 + 48) 8) n)
    base.memoryOk = true ∧ (base.cores.map (·.1)).Nodup ∧ (block 5).word 48 = 5 ∧ (block (2 ^ 16)).word 48 = BitVec.ofNat 64 (2 ^ 16) ∧
      (block 5).deviceReads (Tab.get 0 ports.host.pcb 0).toNat 56 = true ∧ (Tab.get 0 ports.host.pcb 0).toNat = 0 ∧ ports.exact = [] ∧
      (atStage 2).host.stage ≠ 4 ∧ ports.upsets = [] := by decide +kernel

end Sys2Proof.Tests
end

section
/-! SUPPORT. The bytes of a value laid on distinct keys read back, and what is left of a storage whose bytes are dropped by key. -/

namespace Sys2Proof.Machine

/-! ## The bytes of a value (R3) -/

@[simp] theorem toBytes_length (n x : Nat) : (toBytes n x).length = n := by
  induction n generalizing x with
  | zero => rfl
  | succ n ih => rw [toBytes, List.length_cons, ih]

/-- Byte i of a value. -/
theorem toBytes_getElem (n x i : Nat) (h : i < (toBytes n x).length) : (toBytes n x)[i] = BitVec.ofNat 8 (x / 256 ^ i) := by
  induction n generalizing x i with
  | zero => exact absurd h (Nat.not_lt_zero i)
  | succ n ih =>
    cases i with
    | zero => simp [toBytes]
    | succ i => simp only [toBytes, List.getElem_cons_succ, ih, Nat.pow_succ', Nat.div_div_eq_div_mul]

/-- The n bytes of a value make the value modulo 256^n. -/
theorem ofBytes_toBytes (n x : Nat) : ofBytes (toBytes n x) = x % 256 ^ n := by
  induction n generalizing x with
  | zero => exact (Nat.mod_one x).symm
  | succ n ih => rw [toBytes, ofBytes, ih, BitVec.toNat_ofNat, Nat.pow_succ' (m := 256), Nat.mod_mul]

/-- Byte i of a register's value is its bits from 8·i on. -/
theorem ofNat_div_eq_extractLsb' (w : Word) (i : Nat) : BitVec.ofNat 8 (w.toNat / 256 ^ i) = w.extractLsb' (8 * i) 8 := by
  apply BitVec.eq_of_toNat_eq
  rw [BitVec.extractLsb'_toNat, BitVec.toNat_ofNat, Nat.shiftRight_eq_div_pow, Nat.pow_mul]

/-! ## A value laid on keys -/

theorem layBytes_cons (k : Nat) (ks : List Nat) (x : Nat) :
    layBytes (k :: ks) x = (k, BitVec.ofNat 8 x) :: layBytes ks (x / 256) := rfl

@[simp] theorem layBytes_keys (ks : List Nat) (x : Nat) : (layBytes ks x).map (·.1) = ks :=
  List.map_fst_zip (by simp)

theorem mem_of_mem_layBytes {ks : List Nat} {x : Nat} {c : Nat × Byte} (h : c ∈ layBytes ks x) : c.1 ∈ ks :=
  (List.of_mem_zip h).1

/-- Keys a value is not laid on keep their bytes. -/
theorem Memory.read_writeAll_layBytes_other (m : Memory) (ks : List Nat) (x j : Nat) (h : m.wf = true) (hj : j ∉ ks) :
    (m.writeAll (layBytes ks x)).read j = m.read j :=
  Memory.read_writeAll_other _ j (fun _ hc e => hj (e ▸ mem_of_mem_layBytes hc)) m h

/-- Distinct keys read back the bytes of the value laid on them, in order. -/
theorem Memory.map_read_writeAll_layBytes (m : Memory) (ks : List Nat) (x : Nat) (h : m.wf = true) (hk : ks.Nodup) :
    ks.map (m.writeAll (layBytes ks x)).read = toBytes ks.length x := by
  induction ks generalizing m x with
  | nil => rfl
  | cons k ks ih =>
    obtain ⟨hnot, hks⟩ := List.nodup_cons.mp hk
    have hw := Memory.write_wf m k (BitVec.ofNat 8 x) h
    have hstep : m.writeAll (layBytes (k :: ks) x) = (m.write k (BitVec.ofNat 8 x)).writeAll (layBytes ks (x / 256)) := rfl
    rw [hstep, List.map_cons, ih _ _ hw hks, Memory.read_writeAll_layBytes_other _ ks _ k hw hnot, Memory.read_write_same m k _ h]
    rfl

/-- The value laid on distinct keys reads back modulo its width. -/
theorem Memory.value_writeAll_layBytes (m : Memory) (ks : List Nat) (x : Nat) (h : m.wf = true) (hk : ks.Nodup) :
    (m.writeAll (layBytes ks x)).value ks = x % 256 ^ ks.length := by
  rw [Memory.value, Memory.map_read_writeAll_layBytes m ks x h hk, ofBytes_toBytes]

/-- The i-th of distinct keys reads back byte i of the value laid on them. -/
theorem Memory.read_writeAll_layBytes_getD (m : Memory) (ks : List Nat) (x i : Nat) (h : m.wf = true) (hk : ks.Nodup)
    (hi : i < ks.length) : (m.writeAll (layBytes ks x)).read (ks.getD i 0) = BitVec.ofNat 8 (x / 256 ^ i) := by
  have hmap := Memory.map_read_writeAll_layBytes m ks x h hk
  rw [List.getD_eq_getElem _ _ hi, ← toBytes_getElem ks.length x i (by simpa using hi), ← List.getElem_of_eq hmap (by simpa using hi),
    List.getElem_map]

/-! ## Dropping bytes by key -/

/-- A storage whose listed bytes are dropped by key: a dropped key reads zero, any other as before. -/
theorem Memory.read_filter (p : Nat → Bool) (m : Memory) (j : Nat) (h : m.wf = true) :
    Memory.read (m.filter fun c => p c.1) j = if p j then m.read j else 0 := by
  induction m with
  | nil => exact (ite_self _).symm
  | cons c r ih =>
    obtain ⟨k, b⟩ := c
    obtain ⟨-, ha, hr⟩ := Memory.wf_cons.mp h
    rw [List.filter_cons]
    by_cases hk : p k
    · rw [if_pos hk, Memory.read, Memory.read, ih hr]
      by_cases hjk : k = j
      · rw [if_pos hjk, if_pos hjk, ← hjk, if_pos hk]
      · rw [if_neg hjk, if_neg hjk]
        by_cases hlt : j < k
        · rw [if_pos hlt, if_pos hlt, ite_self]
        · rw [if_neg hlt, if_neg hlt]
    · rw [if_neg hk, ih hr]
      by_cases hjk : k = j
      · rw [← hjk, if_neg hk, if_neg hk]
      · rw [Memory.read, if_neg hjk]
        by_cases hlt : j < k
        · rw [if_pos hlt, Memory.read_of_above (by omega) ha]
        · rw [if_neg hlt]

/-- Zeroing a range zeroes its bytes and no other. -/
theorem zeroRange_read (s : State) (lo n j : Nat) (h : s.mem.wf = true) :
    (s.zeroRange lo n).mem.read j = if lo ≤ j ∧ j < lo + n then 0 else s.mem.read j := by
  have hdrop := Memory.read_filter (fun k => !(decide (lo ≤ k) && decide (k < lo + n))) s.mem j h
  rw [State.zeroRange, hdrop]
  by_cases hin : lo ≤ j ∧ j < lo + n <;> simp [hin]

/-- Settles O53: a byte by the read-after-write laws, a value by those of the bytes laid on its keys, a range by what dropping its
bytes leaves. -/
theorem storageReadsBack : Obligations.StorageReadsBack := by
  unfold Obligations.StorageReadsBack
  refine ⟨fun m k j b h => ?_, Memory.value_writeAll_layBytes, Memory.read_writeAll_layBytes_other, zeroRange_read⟩
  split
  · rename_i hjk; rw [hjk, Memory.read_write_same m k b h]
  · rename_i hjk; exact Memory.read_write_other m k j b h hjk

end Sys2Proof.Machine
end

section
/-! SUPPORT. With no array error unmet, walks change nothing but exact accumulators, which no check of an access and no wait of a store
looks at; and what a store to the core's own memory does. -/

namespace Sys2Proof.Machine

/-! ## The checks of an access do not read the exact accumulators -/

section
variable {s : State} {e : Tab ExactAcc}

theorem walkFrom_exact (va lvl base : Nat) (rs : List Nat) :
    ({ s with exact := e } : State).walkFrom va lvl base rs = s.walkFrom va lvl base rs := by
  induction lvl generalizing base rs with
  | zero => unfold State.walkFrom; rfl
  | succ n ih =>
    unfold State.walkFrom
    simp only [ih]
    rfl

theorem walk_exact (root : Nat) (va : Word) : ({ s with exact := e } : State).walk root va = s.walk root va := walkFrom_exact ..

theorem translate_exact (x : Ctx) (k : AccKind) (nh : Bool) (l : BitVec 8) (va : Word) (n : Nat) (sp : Bool) :
    ({ s with exact := e } : State).translate x k nh l va n sp = s.translate x k nh l va n sp := by
  unfold State.translate
  rw [walk_exact]
  rfl

theorem laterPage_exact (x : Ctx) (f a : Word) : ({ s with exact := e } : State).laterPage x f a = s.laterPage x f a := by
  unfold State.laterPage State.pageAt
  simp only [walk_exact]
  rfl

theorem check_exact (x : Ctx) (k : AccKind) (nh : Bool) (al : Nat) (f a : Word) (n : Nat) :
    ({ s with exact := e } : State).check x k nh al f a n = s.check x k nh al f a n := by
  unfold State.check State.resolve
  simp only [laterPage_exact, translate_exact]
  rfl

theorem pendingRead_exact (ks : List Nat) : ({ s with exact := e } : State).pendingRead ks = s.pendingRead ks := by
  unfold State.pendingRead
  have hctx : ({ s with exact := e } : State).ctx = s.ctx := rfl
  simp only [hctx, check_exact]

theorem storable_exact {a : Attr} {of : Bool} {puts : List Put} (h : s.storable a of puts) :
    ({ s with exact := e } : State).storable a of puts := by
  obtain ⟨hdrained, hposted, hreads, hclass, hbroken, hroom, hclaims⟩ := h
  exact ⟨hdrained, hposted, by rw [pendingRead_exact]; exact hreads, hclass, hbroken, hroom, hclaims⟩

end

/-! ## Walks and homes with no array error unmet -/

theorem meetUpsetsAs_none {s : State} (h : s.upsets = []) (wid : Nat) (pos : Word) (ks : List Nat) : s.meetUpsetsAs wid pos ks = s := by
  unfold State.meetUpsetsAs; rw [h]; rfl

theorem meetUpsets_none {s : State} (h : s.upsets = []) (ks : List Nat) : s.meetUpsets ks = s := meetUpsetsAs_none h ..

theorem fold_eq_exact (s : State) (ks : List Nat) : ∃ e, s.fold ks = { s with exact := e } := by
  unfold State.fold
  split
  · exact ⟨s.exact, rfl⟩
  · exact ⟨_, rfl⟩

theorem meetWalk_eq_exact {s : State} (h : s.upsets = []) (x : Ctx) (a : Word) : ∃ e, s.meetWalk x a = { s with exact := e } := by
  unfold State.meetWalk State.meetWalkOf State.meetWalkAs
  split
  · exact ⟨s.exact, rfl⟩
  · dsimp only [State.touchWalk]
    rw [meetUpsetsAs_none h]
    exact fold_eq_exact s _

theorem walkedTo_eq_exact {s : State} (h : s.upsets = []) (n : Nat) (as : List Word) :
    ∃ e, s.walkedTo n as = { s with exact := e } := by
  unfold State.walkedTo
  generalize as.takeWhile (fun a => a.toNat % n == 0) = bs
  induction bs generalizing s with
  | nil => exact ⟨s.exact, rfl⟩
  | cons a r ih =>
    obtain ⟨e, he⟩ := meetWalk_eq_exact h s.ctx a
    rw [List.foldl_cons, he]
    exact ih (s := { s with exact := e }) h

/-! ## Sites of the core's own memory -/

/-- A check that fails with an error was passed where its answer is good. -/
theorem ok_of_ite_error {α β : Type} {c : Prop} [Decidable c] {t : α} {r : Except α β} {y : β}
    (h : (if c then .error t else r) = .ok y) : r = .ok y := by
  split at h
  · exact nomatch h
  · exact h

/-- A window of the core's own memory is none of another package: the checks before the class's own site answer with an error. -/
theorem window_loc {s : State} {x : Ctx} {l : BitVec 8} {a : Word} {n : Nat} {y : Site} (h : s.window x l a n = .ok y)
    (hy : y.loc = true) : y.away = false := by
  unfold State.window at h
  dsimp only at h
  -- the holes of R168 to R175
  iterate 7 replace h := ok_of_ite_error h
  split at h
  · -- the own-core window
    cases h; rfl
  replace h := ok_of_ite_error h
  split at h
  · -- another package's window, which is not local
    cases h; cases hy
  split at h
  · -- a core window
    cases ok_of_ite_error h; rfl
  · -- a tile window
    cases ok_of_ite_error h; rfl
  · -- a vault window
    split at h
    · cases h; rfl
    · exact nomatch h

/-- A site of the core's own memory is no window of another package. -/
theorem check_loc {s : State} {x : Ctx} {k : AccKind} {nh : Bool} {al n : Nat} {f a : Word} {y : Site}
    (h : s.check x k nh al f a n = .ok y) (hy : y.loc = true) : y.away = false := by
  unfold State.check at h
  replace h := ok_of_ite_error h
  unfold State.resolve at h
  split at h
  · split at h
    · exact nomatch h
    · split at h <;> (cases h; rfl)
  · split at h
    · exact nomatch h
    · rename_i w hw
      cases ok_of_ite_error h
      exact window_loc hw hy

/-! ## Stores -/

theorem noFormat_ok {a : Word} {y : Site} {sub : BitVec 8} (h : y.fmt = none) : noFormat a y sub = .ok y := by
  unfold noFormat; rw [h]; rfl

/-- A scalar store whose checks pass comes to its write. -/
theorem stChecked_ready {x : MemS} {s w : State} {y : Site} {a : Word} {n : Nat} (ha : a = s.rg x.a + immWord x.imm)
    (hn : n = x.ty.width / 8) (hw : s.walkedTo n [a] = w) (hfree : s.memFree) (hwalk : s.walkable n [a])
    (hsite : w.check w.ctx .store false n a a n = .ok y) (hfmt : y.fmt = none) (k : State → Put → Res) :
    stChecked x s k = k w ⟨y, layBytes y.keys (w.rg x.b).toNat, 0⟩ := by
  subst ha hn hw
  unfold stChecked
  rw [memOp_free hfree, walked_ready hfree.1 hwalk, hsite, Except.bind, noFormat_ok hfmt]

/-- What the issue of a store notes of the moment: the strand's number of posted writes, and nothing else. -/
theorem marked_eq (s : State) (b : Bool) :
    s.marked b = { s with me := { s.me with waitSeq := if b then some s.issueSeq else s.me.waitSeq } } := by
  cases b <;> rfl

section
variable {s : State} {sync : Option SyncTag} {sc : Scope} {p : Put} (hu : s.upsets = []) (hloc : p.site.loc = true)
  (haway : p.site.away = false)
include hu hloc haway

/-- A store to the core's own memory is performed where it issues. -/
theorem putAll_local : s.putAll sync sc [p] = if p.bytes.isEmpty then s else s.perform p.bytes sync := by
  have hnone : putPackets [] = [] := rfl
  unfold State.putAll farPuts
  simp only [List.filter_cons, hloc, haway, List.filter_nil, Bool.false_eq_true, ↓reduceIte, Bool.not_true, Bool.false_and,
    List.flatMap_cons, List.flatMap_nil, List.append_nil, hnone, List.foldl_nil, meetUpsets_none hu]

theorem putAll_local_mem : (s.putAll sync sc [p]).mem = s.mem.writeAll p.bytes := by
  rw [putAll_local hu hloc haway]
  split
  · rename_i he; rw [List.isEmpty_iff.mp he]; rfl
  · rfl

theorem putAll_local_homeOnly : HomeOnly s (s.putAll sync sc [p]) := by
  rw [putAll_local hu hloc haway]
  split
  · exact HomeOnly.refl s
  · exact HomeOnly.perform s p.bytes sync

end

/-- ST whose checks pass and that need not wait writes or posts its bytes and goes on. -/
theorem exec_st_ready {x : MemS} {s w : State} {y : Site} {a : Word} {n : Nat} (ha : a = s.rg x.a + immWord x.imm)
    (hn : n = x.ty.width / 8) (hw : s.walkedTo n [a] = w) (hfree : s.memFree) (hwalk : s.walkable n [a])
    (hsite : w.check w.ctx .store false n a a n = .ok y) (hfmt : y.fmt = none)
    (hstore : w.storable (attrOf x.sc) false [⟨y, layBytes y.keys (w.rg x.b).toNat, 0⟩]) :
    exec (.st x) s = .next ((w.marked (attrOf x.sc).releases).putAll (w.syncOf (attrOf x.sc) false) (attrOf x.sc).scope
      [⟨y, layBytes y.keys (w.rg x.b).toNat, 0⟩]).sided.goesOn := by
  show (stChecked x s fun u p => u.store (attrOf x.sc) false [p] .ok).finish s = _
  rw [stChecked_ready ha hn hw hfree hwalk hsite hfmt, store_ready hstore]
  rfl

/-- ST to the core's own memory, with no array error unmet: it completes in a state that differs from the one before it in storage,
which takes the bytes, in what homes keep, and in what the strand notes of side effects and of its instruction. -/
theorem exec_st_local {x : MemS} {s : State} {y : Site} {a : Word} {n : Nat} (ha : a = s.rg x.a + immWord x.imm)
    (hn : n = x.ty.width / 8) (hfree : s.memFree) (hwalk : s.walkable n [a]) (hu : s.upsets = [])
    (hsite : s.check s.ctx .store false n a a n = .ok y) (hfmt : y.fmt = none) (hloc : y.loc = true)
    (hstore : s.storable (attrOf x.sc) false [⟨y, layBytes y.keys (s.rg x.b).toNat, 0⟩]) :
    ∃ (e : Tab ExactAcc) (u : State), exec (.st x) s = .next u.sided.goesOn ∧
      u.mem = s.mem.writeAll (layBytes y.keys (s.rg x.b).toNat) ∧
      HomeOnly (({ s with exact := e } : State).marked (attrOf x.sc).releases) u := by
  obtain ⟨e, hw⟩ := walkedTo_eq_exact hu n [a]
  have hcheck : ({ s with exact := e } : State).check s.ctx .store false n a a n = .ok y := (check_exact ..).trans hsite
  have haway := check_loc hsite hloc
  have hmu : (({ s with exact := e } : State).marked (attrOf x.sc).releases).upsets = [] := by rw [marked_eq]; exact hu
  refine ⟨e, _, exec_st_ready ha hn hw hfree hwalk hcheck hfmt (storable_exact hstore), ?_, putAll_local_homeOnly hmu hloc haway⟩
  rw [putAll_local_mem hmu hloc haway, marked_eq]
  rfl

/-- Settles O13: the bytes read back from the storage the store leaves, and all else is as before because a home changes nothing of the
strand or of what is in flight. -/
theorem localStoreFrame : Obligations.LocalStoreFrame := by
  unfold Obligations.LocalStoreFrame
  intro x s y a n hwf hfree hwalk hu hsite hfmt hloc hstore hnodup
  obtain ⟨e, u, hexec, hmem, hhome⟩ := exec_st_local rfl rfl hfree hwalk hu hsite hfmt hloc hstore
  rw [marked_eq] at hhome
  have hwf : s.mem.wf = true := hwf
  have hme := hhome.me
  refine ⟨u.sided.goesOn, hexec, fun i hi => ?_, fun k hk => ?_, (congrArg Strand.g hme :), (congrArg Strand.v hme :),
    (congrArg Strand.p hme :), (congrArg Strand.m hme :), (congrArg Strand.q hme :), (congrArg Strand.flags hme :),
    (congrArg Strand.rmode hme :), (congrArg Issue.next hhome.iss :), hhome.net, hhome.strands⟩
  · show u.mem.read _ = _
    rw [hmem, Memory.read_writeAll_layBytes_getD _ _ _ _ hwf hnodup hi, ofNat_div_eq_extractLsb']
  · show u.mem.read _ = _
    rw [hmem, Memory.read_writeAll_layBytes_other _ _ _ _ hwf hk]

end Sys2Proof.Machine
end

section
/-! SUPPORT. What PGIN, the invalidations, TLBSYNC and TLBINV.OUT do where nothing holds them back, and where each of their own checks
stops them. -/

namespace Sys2Proof.Machine

theorem exec_tlbsync (s : State) : exec .tlbsync s = (runTlbsync s).finish s := rfl

theorem exec_tlbinvOut (x : DABC) (s : State) : exec (.tlbinvOut x) s = (runTlbinvOut x s).finish s := rfl

theorem exec_pgin (x : DAImm) (s : State) : exec (.pgin x) s = (runPgin x s).finish s := rfl

theorem afterMemPasses_busy {s : State} (h : s.me.tr.st = .running ∧ s.me.tr.entries.any (fun e => entryTouchesMem e.instr) = true)
    (r : Res) : afterMemPasses s r = .wait s .treadle := if_pos h

/-! ## Operands (R390) -/

theorem goodRoot_iff (b : Word) : goodRoot b = true ↔ b.toNat % 65536 = 0 := beq_iff_eq

theorem goodPage_iff (a b : Word) : goodPage a b = true ↔ a.extractLsb' 56 8 = 0 ∧ b.toNat % 65536 = 0 := by
  unfold goodPage; rw [Bool.and_eq_true, beq_iff_eq, goodRoot_iff]

/-! ## The wait for invalidations (R392) -/

section
variable {s : State} (hstage : ∀ p a b c d, s.me.stage ≠ .tlbWait p a b c d)
include hstage

/-- An invalidation of the strand's own that is not applied is waited for. -/
theorem tlbWaits_sent (h : ∃ v ∈ s.net.invals, v.id ∈ s.me.invs) (page : Nat) (k : State → Res) :
    tlbWaits s page k = .wait s .sync := by
  unfold tlbWaits
  split
  · exact (hstage _ _ _ _ _ ‹_›).elim
  · rw [if_pos (by simpa using h)]

/-- With its invalidations applied and no access under way, nothing is waited for. -/
theorem tlbWaits_over (h : ∀ v ∈ s.net.invals, v.id ∉ s.me.invs) (hout : s.stillOut s.me.part (s.underWay s.me.part) = false)
    (page : Nat) (k : State → Res) : tlbWaits s page k = k { s with me := { s.me with invs := [] } } := by
  unfold tlbWaits
  split
  · exact (hstage _ _ _ _ _ ‹_›).elim
  · rw [if_neg (by simpa using h)]
    dsimp only
    rw [hout]
    rfl

end

/-! ## A full fence (R235, R236) -/

/-- An acquiring point notes a scope miss of the tags read before it and forgets them (R236). -/
theorem acquireTags_eq {s : State} {sc : Scope} {b : Bool} (h : s.me.readTags.any (missed s.core sc) = b) :
    acquireTags s sc = { (if b then s.addFlags Num.scm else s) with
      me := { (if b then s.addFlags Num.scm else s).me with readTags := [] } } := by
  subst h; rfl

/-- A full fence whose waits are over (R235, R236). -/
theorem fence_full {s : State} (h : s.drained) (sc : Scope) :
    fence .full sc s = .ok (setRelFence (acquireTags s.markIssue sc) sc) := by
  unfold fence
  exact releaseWait_drained h _

/-- A full fence from which an instruction goes on leaves nothing of its issue's number, and forgets the invalidations it waited for. -/
theorem goesOn_of_full_fence (s : State) (c : Bool) (q : Option Nat) (sc : Scope) :
    let m : State := { s with me := { s.me with waitSeq := q, invs := [] } }
    let t : State := if c then m.addFlags Num.scm else m
    let u : State := if c then s.addFlags Num.scm else s
    (setRelFence { t with me := { t.me with readTags := [] } } sc).goesOn =
      State.goesOn { u with me := { u.me with invs := [], readTags := [], relFence := some sc } } := by
  cases c
  · rfl
  · rfl

/-! ## Invalidations, TLBSYNC and TLBINV.OUT in system mode (R387, R390 to R393) -/

section
variable {s : State} (hsys : s.me.sys = true)
include hsys

/-- An operand that no invalidation may have is an illegal instruction. -/
theorem tlbinvForm_illegal (hrun : s.me.tr.st ≠ .running) {ok : Bool} (hok : ok = false) (kind : InvKind) :
    (tlbinvForm s ok kind).finish s = .next s.illegal := by
  unfold tlbinvForm
  rw [requireSys_sys hsys, hok, if_neg Bool.false_ne_true, illegalHere, finish_trap _ _ _ hrun]
  rfl

/-- Once its invalidation is applied and no access is under way, TLBINV.OUT starts its copy. -/
theorem exec_tlbinvOut_copies {x : DABC} {page : Nat} (h0 : s.me.stage = .tlbSent page)
    (hinv : ∀ v ∈ s.net.invals, v.id ∉ s.me.invs) (hout : s.stillOut s.me.part (s.underWay s.me.part) = false) :
    exec (.tlbinvOut x) s = .next (State.waits { s with
        net := { s.net with nextId := s.net.nextId + 1, flash := s.net.flash ++ [(s.net.nextId, (s.rg x.c).toNat, page, s.cur)] },
        me := { s.me with invs := [], stage := .flashOut s.net.nextId } } .flash) := by
  rw [exec_tlbinvOut, runTlbinvOut, requireSys_sys hsys, h0]
  dsimp only
  rw [tlbWaits_over (by simp [h0]) hinv hout]
  rfl

/-- The copy's end gives its word. -/
theorem exec_tlbinvOut_done {x : DABC} {w : Word} (h0 : s.me.stage = .flashDone w) :
    exec (.tlbinvOut x) s = .next (s.wg x.d w).goesOn := by
  rw [exec_tlbinvOut, runTlbinvOut, requireSys_sys hsys, h0]
  rfl

section
variable (hbusy : s.me.tr.st = .running ∧ s.me.tr.entries.any (fun e => entryTouchesMem e.instr) = true)
include hbusy

theorem tlbinvForm_busy (kind : InvKind) : (tlbinvForm s true kind).finish s = .next (s.waits .treadle) := by
  unfold tlbinvForm
  rw [requireSys_sys hsys, if_pos rfl, afterMemPasses_busy hbusy]
  rfl

theorem exec_tlbsync_busy : exec .tlbsync s = .next (s.waits .treadle) := by
  rw [exec_tlbsync, runTlbsync, requireSys_sys hsys, afterMemPasses_busy hbusy]
  rfl

end

section
variable (hfree : ¬(s.me.tr.st = .running ∧ s.me.tr.entries.any (fun e => entryTouchesMem e.instr) = true))
include hfree

/-- An invalidation that need not wait is sent. -/
theorem tlbinvForm_ready (hd : s.drained) {ok : Bool} (hok : ok = true) (kind : InvKind) :
    (tlbinvForm s ok kind).finish s = .next (s.markIssue.sendInvals kind).goesOn := by
  unfold tlbinvForm
  rw [requireSys_sys hsys, if_pos hok, afterMemPasses_free hfree, releaseWait_drained hd]
  rfl

theorem exec_tlbsync_sent (h0 : s.me.stage = .none) (h : ∃ v ∈ s.net.invals, v.id ∈ s.me.invs) :
    exec .tlbsync s = .next (s.waits .sync) := by
  rw [exec_tlbsync, runTlbsync, requireSys_sys hsys, afterMemPasses_free hfree, tlbWaits_sent (by simp [h0]) h]
  rfl

/-- TLBSYNC whose waits are over goes on as a full fence at package scope. -/
theorem exec_tlbsync_over (h0 : s.me.stage = .none) (hinv : ∀ v ∈ s.net.invals, v.id ∉ s.me.invs)
    (hout : s.stillOut s.me.part (s.underWay s.me.part) = false) (hd : s.drained) :
    let u : State := if s.me.readTags.any (missed s.core .package) then s.addFlags Num.scm else s
    exec .tlbsync s = .next (State.goesOn { u with me := { u.me with invs := [], readTags := [], relFence := some .package } }) := by
  have hfence := fence_full (s := { s with me := { s.me with invs := [] } }) hd .package
  rw [exec_tlbsync, runTlbsync, requireSys_sys hsys, afterMemPasses_free hfree, tlbWaits_over (by simp [h0]) hinv hout, hfence]
  rw [finish_ok, acquireTags_eq (s := State.markIssue { s with me := { s.me with invs := [] } })
    (b := s.me.readTags.any (missed s.core .package)) rfl]
  exact congrArg Host.Outcome.next (goesOn_of_full_fence s _ _ .package)

/-- TLBINV.OUT whose operands are good and whose release's waits are over, once the walk's own errors are met: a page that is not
spilled out is refused, and a spilled one has its invalidation sent and waited for. -/
theorem exec_tlbinvOut_begins {x : DABC} {w : State} (h0 : s.me.stage = .none) (hP : s.isP = false)
    (hpage : goodPage (s.rg x.a) (s.rg x.b) = true) (hc : (s.rg x.c).toNat ≤ 0x7FFFFFF) (hd : s.drained)
    (hw : s.markIssue.touchWalk s.me.wid (s.posOf s.core s.slot)
      (upTo s.markIssue.wordGone (s.markIssue.walkWords (s.rg x.a).toNat 3 (s.rg x.b).toNat)) = w) :
    (s.me.tr.st ≠ .running →
      (∀ l, w.walk (s.rg x.b).toNat (s.rg x.a) = .ok l → pteST l.pte ≠ 1 →
        exec (.tlbinvOut x) s = .next (w.takeTrap (rights 5 (s.rg x.a)) 0)) ∧
      ∀ k, w.walk (s.rg x.b).toNat (s.rg x.a) = .error (.sub k) →
        exec (.tlbinvOut x) s = .next (w.takeTrap (rights 5 (s.rg x.a)) 0)) ∧
    (∀ l, w.walk (s.rg x.b).toNat (s.rg x.a) = .ok l → pteST l.pte = 1 →
      let v := w.sendInvals (.page (s.rg x.a).toNat (s.rg x.b).toNat)
      (∃ i ∈ v.net.invals, i.id ∈ v.me.invs) → exec (.tlbinvOut x) s =
        .next (State.waits { v with me := { v.me with stage := .tlbSent (pteFrame l.pte % 2 ^ 32) } } .sync)) := by
  have hgood : ¬((s.isP || !goodPage (s.rg x.a) (s.rg x.b) || decide (0x7FFFFFF < (s.rg x.c).toNat)) = true) := by
    simp [hP, hpage, hc]
  rw [exec_tlbinvOut, runTlbinvOut, requireSys_sys hsys, h0]
  dsimp only
  rw [if_neg hgood, afterMemPasses_free hfree, releaseWait_drained hd]
  have hw' : s.markIssue.touchWalk s.markIssue.me.wid (s.markIssue.posOf s.markIssue.core s.markIssue.slot)
      (upTo s.markIssue.wordGone (s.markIssue.walkWords (s.rg x.a).toNat 3 (s.rg x.b).toNat)) = w := hw
  rw [hw', State.entryAt]
  refine ⟨fun hrun => ⟨fun l hl hst => ?_, fun k hk => ?_⟩, fun l hl hst hsent => ?_⟩
  · rw [hl]
    dsimp only
    rw [if_pos hst, finish_trap _ _ _ hrun]
  · rw [hk]
    exact finish_trap _ _ _ hrun
  · rw [hl]
    dsimp only
    rw [if_neg (not_not.mpr hst), tlbWaits_sent]
    case h => exact hsent
    · rfl
    · simp

end

end

/-! ## PGIN (R200, R381, R384) -/

/-- PGIN of a window has nothing to read in. -/
theorem exec_pgin_window {x : DAImm} {s : State}
    (hfree : ¬(s.me.tr.st = .running ∧ s.me.tr.entries.any (fun e => entryTouchesMem e.instr) = true))
    (huser : classAddr (s.rg x.a + sx x.imm) ≠ .user) (hnone : classAddr (s.rg x.a + sx x.imm) ≠ .none) :
    exec (.pgin x) s = .next (s.sided.wg x.d 0).goesOn := by
  rw [exec_pgin, runPgin, afterMemPasses_free hfree]
  dsimp only
  split
  · exact absurd ‹_› hnone
  · exact absurd ‹_› huser
  · rfl

/-- PGIN of a user address whose entry may be used answers for a resident page and for one whose page-in is under way, and otherwise
starts one. -/
theorem exec_pgin_user {x : DAImm} {s w : State} {a : Word} {l : Leaf} (ha : a = s.rg x.a + sx x.imm) (hw : s.walkedTo 1 [a] = w)
    (hfree : ¬(s.me.tr.st = .running ∧ s.me.tr.entries.any (fun e => entryTouchesMem e.instr) = true)) (h0 : s.me.stage = .none)
    (huser : classAddr a = .user) (hwalk : s.walkable 1 [a]) (hleaf : w.translate w.ctx .load false 0 a 1 true = .ok l)
    (hright : w.me.sys = true ∨ l.pte.getLsbD 56 = true) :
    let running := w.net.pageins.find? fun p => p.root == w.rootOf w.me.wid && p.part == w.me.part && p.va == l.base
    (pteST l.pte = 0 → exec (.pgin x) s = .next (w.sided.wg x.d 0).goesOn) ∧
    (∀ p, pteST l.pte ≠ 0 → running = some p → exec (.pgin x) s = .next (w.sided.wg x.d p.vword).goesOn) ∧
    (pteST l.pte ≠ 0 → running = none →
      exec (.pgin x) s = (w.startPageIn x.d (w.rootOf w.me.wid) l a).finish s) := by
  have hr : ¬((!w.me.sys && !l.pte.getLsbD 56) = true) := by rcases hright with h | h <;> simp [h]
  subst ha
  rw [exec_pgin, runPgin, afterMemPasses_free hfree]
  dsimp only
  rw [huser]
  dsimp only
  rw [walked_ready h0 hwalk, hw, hleaf]
  dsimp only
  rw [if_neg hr]
  refine ⟨fun h => ?_, fun p h hp => ?_, fun h hp => ?_⟩
  · rw [if_pos h]; rfl
  · rw [if_neg h, hp]; rfl
  · rw [if_neg h, hp]

section
variable {d : GReg} {s v1 : State} {root : Nat} {l : Leaf} {a : Word}
  (hwin : s.inWindow (root + 65536) 8192 = true) (hown : s.ownPostedIn (root + 65536) 8192 = false)
  (hpath : s.ownPosted (s.pathKeys { s.ctx with root := root } [s.asWord root 0]) = false)
  (hv1 : (s.meetRange (root + 65536) 8192).foldRange (root + 65536) 8192 = v1)
  (hsound : v1.rangePoisoned (root + 65536) 8192 = false)
include hwin hown hpath hv1 hsound

/-- An address-space block with a Res word that is not zero is rejected as a whole (R7, R381; log entry 116). -/
theorem startPageIn_blockBad (hbad : v1.blockBad root = true) : s.startPageIn d root l a = .trap v1 ⟨0x10, 7, a, none, 0⟩ := by
  unfold State.startPageIn
  simp only [hwin, hown, hpath, hv1, hsound, hbad, Bool.not_true, Bool.or_self, Bool.false_eq_true, ↓reduceIte]

/-- A page-in starts: the completion word is cleared, the free ring's head goes on by one, and the page-in is under way (R200, R384). -/
theorem startPageIn_ready {v2 v3 : State} {base k h ring frh : Nat} (hh : h = 2 + 4 * (l.pte.extractLsb' 47 2).toNat)
    (hgood : v1.blockBad root = false) (hv2 : v1.meetWalk { s.ctx with root := root } (v1.asWord root 0) = v2)
    (hbase : v2.wordBase root a = .ok base) (hslot : v2.freeWordSlot root = some k)
    (hfrh : frh = (v2.asWord root (h + 2)).toNat % 2 ^ 32)
    (hring : ring = (v2.asWord root h).toNat + 8 * (frh % (v2.asWord root (h + 1)).toNat))
    (hframes : frh ≠ (v2.asWord root (h + 3)).toNat % 2 ^ 32)
    (hrwin : v2.inWindow ring 8 = true) (hrown : v2.ownPosted (keysFrom ring 8) = false)
    (hv3 : v2.touchKeys v2.cur (keysFrom ring 8) = v3) (hrsound : v3.poisoned ring = false) :
    let word := base + 8 * k
    let vw := v3.asWord root 0 + BitVec.ofNat 64 (8 * k)
    let u := ((v3.meetUpsets (keysFrom word 8)).perform (layBytes (keysFrom word 8) 0) none).performRmw
      (layBytes (keysFrom (root + 65536 + 8 * (h + 2)) 8) ((frh + 1) % 2 ^ 32)) none
    s.startPageIn d root l a = .ok ((u.modNet fun n => { n with pageins := n.pageins ++
      [{ part := u.me.part, root := root, va := l.base, group := l.group, pte := l.pte, frame := pteFrame (v3.word ring),
         word := word, vword := vw, slot := k, strand := u.cur, wid := u.me.wid }] }).sided.wg d vw) := by
  have hrwin' : ¬((!v2.inWindow ring 8) = true) := by simp [hrwin]
  intro word vw u
  unfold State.startPageIn
  dsimp only at hv2 hpath ⊢
  simp only [hwin, hown, hpath, hv1, hsound, hgood, Bool.not_true, Bool.or_self, Bool.false_eq_true, ↓reduceIte]
  rw [hv2, hbase]
  dsimp only
  rw [← hh, Nat.add_zero h, ← hfrh, ← hring, if_neg hframes, hslot]
  dsimp only
  rw [if_neg hrwin', hrown, if_neg Bool.false_ne_true, hv3, hrsound, if_neg Bool.false_ne_true]

end

/-! ## The statements -/

theorem pageInForms : Statements.PageInForms := by
  intro x s hfree h0 a w root
  refine ⟨fun huser hnone => exec_pgin_window hfree huser hnone, ?_⟩
  intro l huser hwalk hleaf hright running
  obtain ⟨hresident, hunder, hstart⟩ := exec_pgin_user (w := w) (a := a) rfl rfl hfree h0 huser hwalk hleaf hright
  refine ⟨hresident, hunder, ?_⟩
  intro base k hst hnone h block y v1 v2 hwin hown hpath hsound
  rw [hstart hst hnone]
  refine ⟨fun hbad hrun => ?_, ?_⟩
  · rw [startPageIn_blockBad hwin hown hpath rfl hsound hbad, finish_trap _ _ _ hrun]
    rfl
  · intro hgood hbase hslot frh ring hframes v3 hrwin hrown hrsound word vw u
    rw [startPageIn_ready hwin hown hpath rfl hsound rfl hgood rfl hbase hslot rfl rfl hframes hrwin hrown rfl hrsound]
    rfl

theorem invalidationForms : Statements.InvalidationForms := by
  intro s hsys free
  refine ⟨fun x ha hb hfree hd => ?_, fun b hb hfree hd => ?_, fun hfree hd => ?_, fun b hb hrun => ?_, fun hbusy => ?_,
    fun hfree h0 hinv hout hd => exec_tlbsync_over hsys hfree h0 hinv hout hd, fun hfree h0 hsent => ?_, ?_,
    fun x page h0 hinv hout => exec_tlbinvOut_copies hsys h0 hinv hout, fun x w h0 => exec_tlbinvOut_done hsys h0⟩
  · exact tlbinvForm_ready hsys hfree hd ((goodPage_iff _ _).mpr ⟨ha, hb⟩) _
  · exact tlbinvForm_ready hsys hfree hd ((goodRoot_iff _).mpr hb) _
  · exact tlbinvForm_ready hsys hfree hd rfl _
  · exact tlbinvForm_illegal hsys hrun (Bool.eq_false_iff.mpr fun h => hb ((goodRoot_iff _).mp h)) _
  · exact ⟨tlbinvForm_busy hsys (not_not.mp hbusy) _, exec_tlbsync_busy hsys (not_not.mp hbusy)⟩
  · exact exec_tlbsync_sent hsys hfree h0 hsent
  · intro x h0 hP ha hb hc hfree hd m w
    exact exec_tlbinvOut_begins hsys hfree h0 hP ((goodPage_iff _ _).mpr ⟨ha, hb⟩) hc hd rfl

/-- Settles O18: each form is followed through its checks, in their order, to the state the statement names. -/
theorem pagingForms : Obligations.PagingForms := ⟨pageInForms, invalidationForms⟩

end Sys2Proof.Machine
end

section
/-! SUPPORT. Safety (`State.Inv`) is kept by every operation of the model: one lemma for each, named after it, in the order of
their definitions. An operation that leaves the storage and the agenda alone keeps it by `State.Inv.upd`, one that acts at a
home by `HomeOnly`, and one built of others by their lemmas, in the order in which it applies them. -/

namespace Sys2Proof.Machine

section
variable {s t : State} {r : Res}

theorem State.inv_iff : s.Inv ↔ s.mem.wf = true ∧ s.agenda.all Turn.sound = true := Iff.rfl

/-- Writing bytes or dropping listed ones keeps a state safe. -/
theorem State.Inv.withMem (h : s.Inv) (hm : s.mem.wf = true → t.mem.wf = true) (ha : t.agenda = s.agenda := by rfl) : t.Inv :=
  State.inv_iff.mpr ⟨hm h.1, ha ▸ h.2⟩

/-- What changes at a home alone is safe. -/
theorem HomeOnly.inv (k : HomeOnly s t) (h : s.Inv) : t.Inv := h.withMem k.wf k.agenda

theorem State.Inv.ite {c : Prop} [Decidable c] (h : s.Inv) (k : t.Inv) : (if c then s else t).Inv := by
  split
  · exact h
  · exact k

/-- Nothing but the storage and the agenda bears on safety. -/
theorem State.Inv.upd {cur me iss prompt freeCtr strands cores tiles rows blocks dies parts poison upsets exact relTags net gangs
    phasers members rings streams weaves saves nextWid order host points pointMoves failed slots sent framesIn} (h : t.Inv) :
    State.Inv ⟨cur, me, iss, t.agenda, prompt, freeCtr, strands, cores, tiles, rows, blocks, dies, parts, t.mem, poison, upsets,
      exact, relTags, net, gangs, phasers, members, rings, streams, weaves, saves, nextWid, order, host, points, pointMoves,
      failed, slots, sent, framesIn⟩ := h

theorem State.Inv.foldl {α : Type} {f : State → α → State} {xs : List α} (h : s.Inv) (hf : ∀ u x, u.Inv → (f u x).Inv) :
    (xs.foldl f s).Inv := by
  induction xs generalizing s with
  | nil => exact h
  | cons x r ih => exact ih (hf s x h)

theorem State.Inv.foldl_fst {α β : Type} {f : State × β → α → State × β} {xs : List α} {p : State × β} (h : p.1.Inv)
    (hf : ∀ q x, q.1.Inv → (f q x).1.Inv) : (xs.foldl f p).1.Inv := by
  induction xs generalizing p with
  | nil => exact h
  | cons x r ih => exact ih (hf p x h)

theorem State.Inv.foldl_snd {α β : Type} {f : β × State → α → β × State} {xs : List α} {p : β × State} (h : p.2.Inv)
    (hf : ∀ q x, q.2.Inv → (f q x).2.Inv) : (xs.foldl f p).2.Inv := by
  induction xs generalizing p with
  | nil => exact h
  | cons x r ih => exact ih (hf p x h)

/-- The state in which an instruction's turn ends is safe. -/
inductive Res.Inv : Res → Prop
  | ok {s : State} (h : s.Inv) : Res.Inv (.ok s)
  | trap {s : State} {x : Trap} (h : s.Inv) : Res.Inv (.trap s x)
  | wait {s : State} {w : WaitKind} (h : s.Inv) : Res.Inv (.wait s w)
  | gone {s : State} (h : s.Inv) : Res.Inv (.gone s)

theorem Res.Inv.ite {c : Prop} [Decidable c] {r q : Res} (h : r.Inv) (k : q.Inv) : (if c then r else q).Inv := by
  split
  · exact h
  · exact k

theorem Res.Inv.of_ok (h : r.Inv) (e : r = .ok s) : s.Inv := by
  subst e
  cases h
  assumption

theorem Res.Inv.of_trap {x : Trap} (h : r.Inv) (e : r = .trap s x) : s.Inv := by
  subst e
  cases h
  assumption

theorem Res.Inv.of_wait {w : WaitKind} (h : r.Inv) (e : r = .wait s w) : s.Inv := by
  subst e
  cases h
  assumption

theorem Res.Inv.of_gone (h : r.Inv) (e : r = .gone s) : s.Inv := by
  subst e
  cases h
  assumption

theorem State.Inv.of_fst {β : Type} {p : State × β} {b : β} (h : p.1.Inv) (e : p = (s, b)) : s.Inv := by
  subst e
  exact h

/-- Every next state is safe. -/
def Out.Inv (o : Out) : Prop := ∀ t, o = .next t → t.Inv

theorem Out.Inv.next (h : s.Inv) : Out.Inv (.next s) := by
  rintro t ⟨⟩
  exact h

theorem Out.Inv.ite {c : Prop} [Decidable c] {r q : Out} (h : Out.Inv r) (k : Out.Inv q) : Out.Inv (if c then r else q) := by
  split
  · exact h
  · exact k

/-! ## Registers, strands and cores -/

theorem State.Inv.wg {r : GReg} {w : Word} (h : s.Inv) : (s.wg r w).Inv := h.upd
theorem State.Inv.wv {r : VReg} {w : VecReg} (h : s.Inv) : (s.wv r w).Inv := h.upd
theorem State.Inv.wp {r : PReg} {b : Bool} (h : s.Inv) : (s.wp r b).Inv := h.upd
theorem State.Inv.wm {r : MReg} {w : Word} (h : s.Inv) : (s.wm r w).Inv := h.upd
theorem State.Inv.setSrg {x : BitVec 32} (h : s.Inv) : (s.setSrg x).Inv := h.upd

theorem State.Inv.setStrand {k : StrandIx} {x : Strand} (h : s.Inv) : (s.setStrand k x).Inv := by
  unfold State.setStrand
  split <;> exact h.upd

theorem State.Inv.modStrand {k : StrandIx} {f : Strand → Strand} (h : s.Inv) : (s.modStrand k f).Inv := h.setStrand
theorem State.Inv.switchTo {k : StrandIx} (h : s.Inv) : (s.switchTo k).Inv := .ite h h.upd
theorem State.Inv.setCore {c : CoreIx} {x : Core} (h : s.Inv) : (s.setCore c x).Inv := h.upd
theorem State.Inv.modCore {c : CoreIx} {f : Core → Core} (h : s.Inv) : (s.modCore c f).Inv := h.setCore
theorem State.Inv.setTile {t : Nat} {x : TileUnit} (h : s.Inv) : (s.setTile t x).Inv := h.upd
theorem State.Inv.modTile {t : Nat} {f : TileUnit → TileUnit} (h : s.Inv) : (s.modTile t f).Inv := h.setTile
theorem State.Inv.modBlock {b : Nat} {f : Block → Block} (h : s.Inv) : (s.modBlock b f).Inv := h.upd
theorem State.Inv.modDie {d : Nat} {f : Die → Die} (h : s.Inv) : (s.modDie d f).Inv := h.upd
theorem State.Inv.modPart {p : Nat} {f : Part → Part} (h : s.Inv) : (s.modPart p f).Inv := h.upd
theorem State.Inv.setWeave {w : Weave} (h : s.Inv) : (s.setWeave w).Inv := h.upd
theorem State.Inv.modNet {f : Net → Net} (h : s.Inv) : (s.modNet f).Inv := h.upd
theorem State.Inv.fresh (h : s.Inv) : s.fresh.2.Inv := h.upd
theorem State.Inv.draw (h : s.Inv) : s.draw.2.Inv := h.upd
theorem State.Inv.countCore {c : CoreIx} {n : Nat} (h : s.Inv) : (s.countCore c n).Inv := h.modCore
theorem State.Inv.countBlock {b n : Nat} (h : s.Inv) : (s.countBlock b n).Inv := h.modBlock
theorem State.Inv.countDie {d n : Nat} (h : s.Inv) : (s.countDie d n).Inv := h.modDie
theorem State.Inv.addFlags {f : Num.Flags} (h : s.Inv) : (s.addFlags f).Inv := h.upd
theorem State.Inv.setMempty {b : Bool} (h : s.Inv) : (s.setMempty b).Inv := h.upd
theorem State.Inv.setNone {b : Bool} (h : s.Inv) : (s.setNone b).Inv := h.upd

/-! ## Memory accesses and the log -/

theorem State.Inv.fold {ks : List Nat} (h : s.Inv) : (s.fold ks).Inv := (HomeOnly.fold ..).inv h

theorem State.Inv.perform {bs : List (Nat × Byte)} {y : Option SyncTag} (h : s.Inv) : (s.perform bs y).Inv :=
  (HomeOnly.perform _ _ _).inv h

theorem State.Inv.hostEvent {type part die code : Nat} {w : Word} (h : s.Inv) : (s.hostEvent type part die code w).1.Inv :=
  (HomeOnly.hostEvent ..).inv h

theorem State.Inv.logRec {d cls arr bit : Nat} {loc : Word} {wid : Nat} {pos : Word} (h : s.Inv) :
    (s.logRec d cls arr bit loc wid pos).Inv :=
  (HomeOnly.logRec ..).inv h

theorem State.Inv.logCorrected {d arr bit : Nat} {loc : Word} {wid : Nat} {pos : Word} (h : s.Inv) :
    (s.logCorrected d arr bit loc wid pos).Inv :=
  (HomeOnly.logCorrected ..).inv h

theorem State.Inv.meetUpsetAs {wid : Nat} {pos : Word} {u : Upset} (h : s.Inv) : (s.meetUpsetAs wid pos u).Inv :=
  (HomeOnly.meetUpsetAs ..).inv h

theorem State.Inv.meetUpsetsAs {wid : Nat} {pos : Word} {ks : List Nat} (h : s.Inv) : (s.meetUpsetsAs wid pos ks).Inv :=
  (HomeOnly.meetUpsetsAs ..).inv h

theorem State.Inv.meetUpsetsOf {k : StrandIx} {ks : List Nat} (h : s.Inv) : (s.meetUpsetsOf k ks).Inv :=
  (HomeOnly.meetUpsetsOf ..).inv h

theorem State.Inv.meetUpsetsAt {d : Nat} {ks : List Nat} (h : s.Inv) : (s.meetUpsetsAt d ks).Inv :=
  (HomeOnly.meetUpsetsAt ..).inv h

theorem State.Inv.meetUpsets {ks : List Nat} (h : s.Inv) : (s.meetUpsets ks).Inv := (HomeOnly.meetUpsets ..).inv h

theorem State.Inv.touchAs {wid : Nat} {pos : Word} {ks : List Nat} (h : s.Inv) : (s.touchAs wid pos ks).Inv :=
  (HomeOnly.touchAs ..).inv h

theorem State.Inv.touchKeys {k : StrandIx} {ks : List Nat} (h : s.Inv) : (s.touchKeys k ks).Inv :=
  (HomeOnly.touchKeys ..).inv h

theorem State.Inv.meetRangeAs {wid : Nat} {pos : Word} {lo n : Nat} (h : s.Inv) : (s.meetRangeAs wid pos lo n).Inv :=
  (HomeOnly.meetRangeAs ..).inv h

theorem State.Inv.meetRange {lo n : Nat} (h : s.Inv) : (s.meetRange lo n).Inv := (HomeOnly.meetRange ..).inv h
theorem State.Inv.foldRange {lo n : Nat} (h : s.Inv) : (s.foldRange lo n).Inv := (HomeOnly.foldRange ..).inv h

theorem State.Inv.touchWalk {wid : Nat} {pos : Word} {ks : List Nat} (h : s.Inv) : (s.touchWalk wid pos ks).Inv :=
  (HomeOnly.touchWalk ..).inv h

theorem State.Inv.meetWalkAs {v : State} {wid : Nat} {pos : Word} {x : Ctx} {a : Word} (h : s.Inv) :
    (s.meetWalkAs v wid pos x a).Inv :=
  (HomeOnly.meetWalkAs ..).inv h

theorem State.Inv.meetWalkOf {v : State} {k : StrandIx} {x : Ctx} {a : Word} (h : s.Inv) : (s.meetWalkOf v k x a).Inv :=
  (HomeOnly.meetWalkOf ..).inv h

theorem State.Inv.meetWalk {x : Ctx} {a : Word} (h : s.Inv) : (s.meetWalk x a).Inv := (HomeOnly.meetWalk ..).inv h

/-! ## Fetching -/

theorem State.Inv.keepLine {base : Nat} {l : Line} (h : s.Inv) : (s.keepLine base l).Inv := .ite h h.modCore
theorem State.Inv.meetBacking {a : Word} (h : s.Inv) : (s.meetBacking a).Inv := (HomeOnly.meetBacking ..).inv h
theorem State.Inv.meetFetch {a : Word} (h : s.Inv) : (s.meetFetch a).Inv := (HomeOnly.meetFetch ..).inv h

theorem State.Inv.refetchLine {pc : Word} (h : s.Inv) : (s.refetchLine pc).1.Inv :=
  h.modCore.countCore.logCorrected.meetBacking

theorem State.Inv.metFetch {t : Word} (h : s.Inv) : (s.metFetch t).Inv := .ite h h.meetFetch

theorem State.Inv.enter {a : Word} {e : Bool} (h : s.Inv) (k : s.enter a e = .ok t) : t.Inv := by
  unfold State.enter at k
  dsimp only at k
  split at k
  · contradiction
  · split at k
    · contradiction
    · cases k
      exact h.meetFetch.upd
    · split at k
      · contradiction
      · split at k
        · contradiction
        · cases k
          exact h.meetFetch.keepLine

/-! ## Traps, waits and the forms every instruction is built of -/

theorem Res.Inv.map {f : State → State} (hr : r.Inv) (hf : ∀ u, u.Inv → (f u).Inv) : (Res.map f r).Inv := by
  cases hr with
  | ok h => exact .ok (hf _ h)
  | trap h => exact .trap h
  | wait h => exact .wait h
  | gone h => exact .gone h

theorem State.Inv.endGang {r : GangReq} {st : Stage} (h : s.Inv) : (s.endGang r st).Inv := h.upd.modStrand

theorem State.Inv.breakGangs {k : StrandIx} (h : s.Inv) : (s.breakGangs k).Inv :=
  h.upd.foldl fun _ _ hu => hu.endGang

theorem State.Inv.freeSlot {k : StrandIx} (h : s.Inv) : (s.freeSlot k).Inv := h.modStrand.breakGangs
theorem State.Inv.takeArea {part len : Nat} (h : s.Inv) : (s.takeArea part len).2.Inv := h.modPart

theorem State.Inv.writeArea {addr wid len flags : Nat} {pos : Word} (h : s.Inv) :
    (s.writeArea addr wid len flags pos).Inv := h.meetRangeAs.upd.perform

theorem State.Inv.refresh {c : CoreIx} (h : s.Inv) : (s.refresh c).Inv := h.modCore

theorem State.Inv.loseHandler {k : StrandIx} {x : Strand} (h : s.Inv) : (s.loseHandler k x).Inv :=
  .ite h.upd h.modNet.modCore

theorem State.Inv.loseSaves {lo n : Nat} (h : s.Inv) : (s.loseSaves lo n).Inv :=
  (h.foldl (fun _ _ hu => hu.foldl (fun _ _ hv => hv.loseHandler))).upd

theorem State.Inv.saveFaulted (h : s.Inv) : s.saveFaulted.Inv :=
  .ite h.takeArea.loseHandler h.takeArea.writeArea.loseSaves.upd

theorem State.Inv.doubleFault (h : s.Inv) : s.doubleFault.Inv := h.saveFaulted.countDie.logRec.freeSlot

theorem State.Inv.takeTrap {t : Trap} {cnt : Word} (h : s.Inv) : (s.takeTrap t cnt).Inv := by
  unfold State.takeTrap
  refine .ite ?_ ?_
  · refine .ite ?_ h.doubleFault
    dsimp only
    split
    · rename_i e
      exact h.upd.enter e
    · exact h.upd.metFetch.doubleFault
  · refine .ite ?_ ?_
    · dsimp only
      split
      · rename_i e
        exact h.upd.enter e
      · exact h.upd.metFetch.doubleFault
    · dsimp only
      split
      · rename_i e
        exact h.upd.enter e
      · split
        · rename_i e
          exact h.upd.metFetch.upd.enter e
        · exact h.upd.metFetch.upd.metFetch.doubleFault

theorem State.Inv.settle {r : Res} (h : s.Inv) (hr : r.Inv) : (r.settle s).Inv := by
  cases hr with
  | ok hu => exact hu.upd
  | trap hu => exact .ite h.upd hu.takeTrap
  | wait hu => exact hu.upd
  | gone hu => exact hu

theorem State.Inv.finish {r : Res} (h : s.Inv) (hr : r.Inv) : Out.Inv (r.finish s) := .next (h.settle hr)
theorem State.Inv.eventStep (h : s.Inv) : Out.Inv (eventStep s) := .next h
theorem State.Inv.sided (h : s.Inv) : s.sided.Inv := h.upd
theorem State.Inv.trapOf {cause sub : BitVec 8} {val : Word} (h : s.Inv) : (trapOf s cause sub val).Inv := .trap h
theorem State.Inv.heldTrap {t : Trap} (h : s.Inv) : (heldTrap s t).Inv := .wait h.upd
theorem State.Inv.requireSys {r : Res} (h : s.Inv) (hr : r.Inv) : (requireSys s r).Inv := .ite hr h.trapOf
theorem State.Inv.illegalHere (h : s.Inv) : (illegalHere s).Inv := .trap h

theorem State.Inv.transfer {t : Word} {exempt : Bool} (h : s.Inv) : (s.transfer t exempt).Inv := by
  unfold State.transfer
  split
  · rename_i e
    exact .ok (h.enter e).upd
  · exact .trap h.metFetch

theorem State.Inv.chainLine {b : Word} (h : s.Inv) : (s.chainLine b).1.Inv := by
  unfold State.chainLine
  dsimp only
  split
  · exact h.meetFetch
  · exact h.meetFetch.refetchLine
  · split <;> exact h.meetFetch

theorem Res.Inv.afterResume {b : Bool} {a : Word} (hr : r.Inv) : (r.afterResume b a).Inv := by
  cases hr with
  | ok h => exact .ok h
  | trap h => exact .ite h.upd.heldTrap (.trap h)
  | wait h => exact .wait h
  | gone h => exact .gone h

theorem State.Inv.eret {n : Bool} (h : s.Inv) : (s.eret n).Inv := by
  unfold State.eret
  refine .ite h.trapOf (Res.Inv.afterResume (.ite ?_ h.upd.transfer))
  split
  · rename_i e
    exact .trap (h.upd.chainLine.of_fst e)
  · rename_i e
    exact (h.upd.chainLine.of_fst e).transfer

theorem State.Inv.afterPasses {r : Res} (h : s.Inv) (hr : r.Inv) : (afterPasses s r).Inv := .ite (.wait h) hr
theorem State.Inv.afterMemPasses {r : Res} (h : s.Inv) (hr : r.Inv) : (afterMemPasses s r).Inv := .ite (.wait h) hr

theorem State.Inv.recordable {i : Instr} {reads : List GReg} {r : State → Res} (h : s.Inv)
    (hr : ∀ u, u.Inv → (r u).Inv) : (recordable i reads s r).Inv :=
  .ite (.wait h) ((hr _ h).map (fun _ hu => .ite hu.upd hu))

theorem State.Inv.notRecordable {r : State → Res} (h : s.Inv) (hr : ∀ u, u.Inv → (r u).Inv) :
    (notRecordable s r).Inv := .ite (.wait h) (.ite h.trapOf (hr _ h))

/-! ## Ordering and the steps of a store -/

theorem State.Inv.noteTags {a : Attr} {ts : List SyncTag} (h : s.Inv) : (s.noteTags a ts).Inv :=
  .ite h (.ite (.ite h.addFlags h) h.upd)

theorem State.Inv.markIssue (h : s.Inv) : s.markIssue.Inv := h.upd

theorem State.Inv.releaseWait {k : State → Res} (h : s.Inv) (hk : ∀ u, u.Inv → (k u).Inv) : (releaseWait s k).Inv :=
  .ite (hk _ h.markIssue) (.wait h.markIssue)

theorem State.Inv.fenceStWait {k : State → Res} (h : s.Inv) (hk : ∀ u, u.Inv → (k u).Inv) : (fenceStWait s k).Inv :=
  .ite (hk _ h.markIssue) (.wait h.markIssue)

theorem State.Inv.memOp {k : State → Res} (h : s.Inv) (hk : ∀ u, u.Inv → (k u).Inv) : (memOp s k).Inv :=
  h.afterMemPasses (.ite (.wait h) (hk _ h))

theorem State.Inv.wakeResident {key : Nat} (h : s.Inv) : (s.wakeResident key).Inv := by
  unfold State.wakeResident
  refine h.foldl fun _ _ hu => ?_
  split
  · exact hu.touchKeys.modStrand.modNet
  · exact hu

theorem State.Inv.noteWake {sv : Save} {k : Nat} {f : Stage → Option Stage} (h : s.Inv) : (s.noteWake sv k f).Inv :=
  h.upd.meetUpsetsAs.perform

theorem State.Inv.wakeChain {n key : Nat} (h : s.Inv) : (s.wakeChain n key).Inv := by
  induction n generalizing s key with
  | zero => exact h.wakeResident
  | succ n ih =>
    refine h.wakeResident.foldl fun u x hu => ?_
    dsimp only
    split
    · exact ih hu.touchAs.noteWake
    · exact hu

theorem State.Inv.wakeWord {key : Nat} (h : s.Inv) : (s.wakeWord key).Inv := h.wakeChain

theorem State.Inv.recordWake {sv : Save} {k : Nat} {f : Stage → Option Stage} (h : s.Inv) :
    (s.recordWake sv k f).Inv := h.noteWake.wakeWord

theorem State.Inv.serveOf {k : StrandIx} {parts : List (Nat × Site)} (h : s.Inv) : (s.serveOf k parts).1.Inv := by
  unfold State.serveOf
  refine h.foldl_fst fun _ _ hu => ?_
  dsimp only
  split
  · exact hu.meetUpsetsOf
  · exact hu.meetUpsetsOf.fold

theorem State.Inv.serve {parts : List (Nat × Site)} (h : s.Inv) : (s.serve parts).1.Inv := h.serveOf

theorem State.Inv.load {a : Attr} {plan : Except Trap (List (Nat × Site))} {k : State → List (Nat × Nat) → Res}
    (h : s.Inv) (hk : ∀ u x, u.Inv → (k u x).Inv) : (s.load a plan k).Inv := by
  unfold State.load
  split
  · exact hk _ _ h.noteTags
  · exact .trap h
  · exact .wait h
  · split
    · exact .trap h
    · refine .ite (.wait h) (.ite (.ite (.wait h) ?_) (.wait h.fresh.modNet.upd))
      dsimp only
      split
      · exact .trap h.serve
      · exact hk _ _ h.serve.noteTags

theorem State.Inv.addWalk {x : Ctx} {a : Word} (h : s.Inv) : (s.addWalk x a).Inv := .ite h h.modNet

theorem State.Inv.walked {n : Nat} {as : List Word} {k : State → Res} (h : s.Inv) (hk : ∀ u, u.Inv → (k u).Inv) :
    (s.walked n as k).Inv := by
  unfold State.walked
  refine .ite (hk _ h) (.ite (.wait h) (.ite (hk _ (h.foldl (fun _ _ hu => hu.meetWalk))) ?_))
  dsimp only
  split
  · exact .wait (h.foldl (fun _ _ hu => hu.meetWalk)).addWalk
  · exact hk _ (h.foldl (fun _ _ hu => hu.meetWalk)).modNet

theorem State.Inv.postOne {home : Nat} {ks : List Nat} (h : s.Inv) : (s.postOne home ks).2.Inv := h.modCore

theorem State.Inv.discarded {k : StrandIx} {blk : Nat} {loc : Word} {wid : Nat} (h : s.Inv) :
    (s.discarded k blk loc wid).Inv := h.countBlock.logRec

theorem State.Inv.postAll {homes ks : List Nat} (h : s.Inv) : (s.postAll homes ks).2.Inv :=
  h.foldl_snd fun _ _ hu => hu.postOne

theorem State.Inv.putAll {sync : Option SyncTag} {scope : Scope} {puts : List Put} (h : s.Inv) :
    (s.putAll sync scope puts).Inv := by
  unfold State.putAll
  refine State.Inv.foldl ?_ fun _ _ hu => hu.postAll.foldl fun _ _ hv => hv.fresh.modNet
  exact (State.Inv.ite h h.meetUpsets.perform).foldl fun _ _ hu => hu.foldl fun _ _ hv => hv.discarded

/-- A form that waits as a release where its ordering is one. -/
theorem State.Inv.maybeRelease {b : Bool} {k : State → Res} (h : s.Inv) (hk : ∀ u, u.Inv → (k u).Inv) :
    Res.Inv (if b then Machine.releaseWait s k else k s) :=
  .ite (h.releaseWait hk) (hk _ h)

theorem State.Inv.store {a : Attr} {of : Bool} {puts : List Put} {k : State → Res} (h : s.Inv)
    (hk : ∀ u, u.Inv → (k u).Inv) : (s.store a of puts k).Inv := by
  unfold State.store
  dsimp only
  refine State.Inv.maybeRelease (.ite h.markIssue h) fun u hu => ?_
  refine .ite (.wait hu) (.ite (.wait hu) (.ite (.wait hu) (.ite (.wait hu) (.ite (.wait hu) ?_))))
  exact hk _ (.ite hu.putAll hu.putAll.sided)

theorem State.Inv.performRmw {bs : List (Nat × Byte)} {sync : Option SyncTag} (h : s.Inv) :
    (s.performRmw bs sync).Inv := by
  unfold State.performRmw
  split
  · exact h.perform
  · exact h.perform.upd

theorem State.Inv.doAtomOf {k : StrandIx} {op : AtomOp} {ty : Ty} {x : Site} {b c : Word} {sync : Option SyncTag}
    (h : s.Inv) : (s.doAtomOf k op ty x b c sync).1.Inv := by
  unfold State.doAtomOf
  dsimp only
  split
  · exact h.meetUpsetsOf
  · split
    · exact h.meetUpsetsOf.fold
    · exact .ite h.meetUpsetsOf.performRmw.wakeWord h.meetUpsetsOf.performRmw

theorem State.Inv.doAtom {op : AtomOp} {ty : Ty} {x : Site} {b c : Word} {sync : Option SyncTag} (h : s.Inv) :
    (s.doAtom op ty x b c sync).1.Inv := h.doAtomOf

theorem State.Inv.sidedAtom {op : AtomOp} {ty : Ty} {b : Word} {old : Nat} (h : s.Inv) :
    (sidedAtom op ty b old s).Inv := .ite h h.sided

theorem State.Inv.atomic {a : Attr} {op : AtomOp} {ty : Ty} {addr b c : Word} {k : State → Nat → Num.Flags → Res}
    (h : s.Inv) (hk : ∀ u x y, u.Inv → (k u x y).Inv) : (s.atomic a op ty addr b c k).Inv := by
  unfold State.atomic
  split
  · exact hk _ _ _ h.noteTags.sidedAtom
  · exact .trap h
  · exact .wait h
  · split
    · exact .trap h
    · refine h.maybeRelease fun u hu => .ite (.wait hu) (.ite (.wait hu) (.ite (.wait hu) (.ite (.wait hu) ?_)))
      refine .ite ?_ (.wait hu.fresh.modNet.upd)
      dsimp only
      split
      · exact .trap hu.doAtom
      · exact hk _ _ _ hu.doAtom.noteTags.sidedAtom

theorem State.Inv.dropDead {k : StrandIx} {bs : List (Nat × Byte)} {wid : Nat} (h : s.Inv) :
    (s.dropDead k bs wid).Inv := by
  unfold State.dropDead
  split
  · exact h.discarded
  · exact h

theorem State.Inv.landWrite {k : StrandIx} {bs : List (Nat × Byte)} {sync : Option SyncTag} {wid : Nat}
    {counted : Bool} (h : s.Inv) : (s.landWrite k bs sync wid counted).Inv :=
  .ite (.ite h h.dropDead) (State.Inv.ite h h.dropDead).meetUpsetsAs.perform

theorem State.Inv.redWord {src : StrandIx × Nat} {op : RedOp} {ty : Ty} {ks : List Nat} {v : Word}
    {sync : Option SyncTag} (h : s.Inv) : (s.redWord src op ty ks v sync).Inv :=
  .ite h.meetUpsetsAs.discarded h.meetUpsetsAs.perform

theorem State.Inv.redAll {op : RedOp} {ty : Ty} {sync : Option SyncTag} {puts : List RedPut} (h : s.Inv) :
    (s.redAll op ty sync puts).Inv := h.foldl fun _ _ hu => .ite hu.discarded (.ite hu.redWord hu.postOne.modNet)

theorem State.Inv.reduce {a : Attr} {op : RedOp} {ty : Ty} {puts : List RedPut} {k : State → Res} (h : s.Inv)
    (hk : ∀ u, u.Inv → (k u).Inv) : (s.reduce a op ty puts k).Inv := by
  unfold State.reduce
  dsimp only
  refine h.maybeRelease fun u hu => .ite (.wait hu) (.ite (.wait hu) (.ite (.wait hu) (.ite (.wait hu) ?_)))
  exact hk _ (State.Inv.ite hu hu.sided).redAll

/-! ## Scalar forms -/

theorem State.Inv.intResult {t : Ty} {sat : Bool} {d : GReg} {x : Int} (h : s.Inv) : (intResult s t sat d x).Inv :=
  .ok h.addFlags.wg

theorem State.Inv.bitResult {t : Ty} {d : GReg} {y : Nat} (h : s.Inv) : (bitResult s t d y).Inv := .ok h.wg

theorem State.Inv.orException {fl : Num.Flags} {k : State → Res} (h : s.Inv) (hk : ∀ u, u.Inv → (k u).Inv) :
    (orException s fl k).Inv := by
  unfold Machine.orException
  split
  · exact .trap h.addFlags
  · exact hk _ h.addFlags

theorem State.Inv.f32Result {d : GReg} {op : RMode → Nat → Nat × Num.Flags} (h : s.Inv) : (f32Result s d op).Inv :=
  .ite (.wait h) (h.orException (fun _ hu => .ok hu.setSrg.wg))

theorem State.Inv.arith {x : AluS} {int : Int → Int → Int} {flt : RMode → Nat → Num.Val → Num.Val → Nat × Num.Flags}
    (h : s.Inv) : (arith x s int flt).Inv := .ite h.f32Result h.intResult

theorem State.Inv.bitwise {x : Alu} {f : Nat → Nat → Nat} (h : s.Inv) : (bitwise x s f).Inv := h.bitResult

theorem State.Inv.shiftLeft {t : Ty} {d : GReg} {a : Word} {n : Nat} (h : s.Inv) : (shiftLeft s t d a n).Inv :=
  h.intResult

theorem State.Inv.minMax {x : Alu} {mx : Bool} (h : s.Inv) : (minMax x s mx).Inv :=
  .ite (h.orException (fun _ hu => .ok hu.wg)) h.bitResult

theorem State.Inv.compare {t : Ty} {c : Cond} {p : PReg} {a : Word} {b : Int} {bf : Word} (h : s.Inv) :
    (compare s t c p a b bf).Inv := .ite (h.orException (fun _ hu => .ok hu.wp)) (.ok h.wp)

theorem State.Inv.arithImm {x : AluI} {f : Int → Int → Int} (h : s.Inv) : (arithImm x s f).Inv := h.intResult
theorem State.Inv.bitwiseImm {x : AluI} {f : Nat → Nat → Nat} (h : s.Inv) : (bitwiseImm x s f).Inv := h.bitResult
theorem State.Inv.runAdd {x : AluS} (h : s.Inv) : (runAdd x s).Inv := h.arith
theorem State.Inv.runSub {x : AluS} (h : s.Inv) : (runSub x s).Inv := h.arith
theorem State.Inv.runMul {x : AluS} (h : s.Inv) : (runMul x s).Inv := h.arith
theorem State.Inv.runAnd {x : Alu} (h : s.Inv) : (runAnd x s).Inv := h.bitwise
theorem State.Inv.runOr {x : Alu} (h : s.Inv) : (runOr x s).Inv := h.bitwise
theorem State.Inv.runXor {x : Alu} (h : s.Inv) : (runXor x s).Inv := h.bitwise
theorem State.Inv.runShl {x : Alu} (h : s.Inv) : (runShl x s).Inv := h.shiftLeft
theorem State.Inv.runShr {x : Alu} (h : s.Inv) : (runShr x s).Inv := h.bitResult
theorem State.Inv.runSra {x : Alu} (h : s.Inv) : (runSra x s).Inv := h.bitResult
theorem State.Inv.runMin {x : Alu} (h : s.Inv) : (runMin x s).Inv := h.minMax
theorem State.Inv.runMax {x : Alu} (h : s.Inv) : (runMax x s).Inv := h.minMax
theorem State.Inv.runCmp {x : CmpR} (h : s.Inv) : (runCmp x s).Inv := h.compare
theorem State.Inv.runAddi {x : AluI} (h : s.Inv) : (runAddi x s).Inv := h.arithImm
theorem State.Inv.runAndi {x : AluI} (h : s.Inv) : (runAndi x s).Inv := h.bitwiseImm
theorem State.Inv.runShli {x : ShI} (h : s.Inv) : (runShli x s).Inv := h.shiftLeft
theorem State.Inv.runShri {x : ShI} (h : s.Inv) : (runShri x s).Inv := h.bitResult
theorem State.Inv.runSrai {x : ShI} (h : s.Inv) : (runSrai x s).Inv := h.bitResult
theorem State.Inv.runMovi {x : MovI} (h : s.Inv) : (runMovi x s).Inv := .ite (.ok h.wg) h.bitResult
theorem State.Inv.runLea {x : LeaA} (h : s.Inv) : (runLea x s).Inv := .ok h.wg

/-! ## Control forms and control registers -/

theorem State.Inv.runSleep {a : GReg} (h : s.Inv) : (runSleep a s).Inv := by
  unfold Machine.runSleep
  split
  · exact .ok h
  · exact .ite (.ok h) (.wait h)
  · exact .ite (.ok h) (.wait h.upd)

theorem State.Inv.eretForm {n : Bool} (h : s.Inv) : (eretForm n s).Inv := by
  unfold Machine.eretForm
  split
  · exact .ite (.wait h) (.trap h)
  · exact h.eret

theorem State.Inv.writeCR {r : CReg} {w : Word} (h : s.Inv) : (s.writeCR r w).Inv := h.upd

theorem State.Inv.flagsWait {r : CReg} {k : Res} (h : s.Inv) (hk : k.Inv) : (flagsWait s r k).Inv :=
  .ite (.wait h) (.ite hk (.ite (.wait h) (.ite (.wait h) (.ite (.wait h) hk))))

theorem State.Inv.moveToCR {x : MtcA} {f : Word → Word → Word} {k : State → Word → State} (h : s.Inv)
    (hk : ∀ u x, u.Inv → (k u x).Inv) : (moveToCR x s f k).Inv :=
  .ite h.trapOf (h.flagsWait (.ite h.illegalHere (.ok (hk _ _ h.writeCR))))

theorem State.Inv.setEntry {r : CReg} {w : Word} (h : s.Inv) : (setEntry r s w).Inv := by
  unfold Machine.setEntry
  split
  · exact h.upd
  · exact h.upd
  · exact h

/-! ## Turns -/

theorem State.Inv.tick {n : Nat} (h : s.Inv) : (s.tick n).Inv := .ite h (h.foldl (fun _ _ hu => hu.modDie))

theorem State.Inv.tickDies {n : Nat} {skew : List Nat} (h : s.Inv) : (s.tickDies n skew).Inv :=
  .ite h.tick (h.foldl (fun _ _ hu => hu.modDie))

theorem State.Inv.resumeWait (h : s.Inv) : s.resumeWait.Inv := by
  unfold State.resumeWait
  split
  · exact .ite h (.ite h.upd h.upd)
  · exact h

/-! ## Memory forms -/

theorem State.Inv.runLd {x : MemL} (h : s.Inv) : (runLd x s).Inv :=
  h.memOp fun _ hu => hu.walked fun _ hv => hv.load fun _ _ hw => .ok hw.wg

theorem State.Inv.stChecked {x : MemS} {k : State → Put → Res} (h : s.Inv) (hk : ∀ u x, u.Inv → (k u x).Inv) :
    (stChecked x s k).Inv := by
  unfold Machine.stChecked
  refine h.memOp fun _ hu => hu.walked fun _ hv => ?_
  split
  · exact .trap hv
  · exact hk _ _ hv

theorem State.Inv.storeScalar {x : MemS} {of : Bool} (h : s.Inv) : (storeScalar x of s).Inv :=
  h.stChecked fun _ _ hu => hu.store fun _ hv => .ok hv

theorem State.Inv.runSt {x : MemS} (h : s.Inv) : (runSt x s).Inv := h.storeScalar
theorem State.Inv.acquireTags {sc : Scope} (h : s.Inv) : (acquireTags s sc).Inv := (State.Inv.ite h.addFlags h).upd
theorem State.Inv.setRelFence {sc : Scope} (h : s.Inv) : (setRelFence s sc).Inv := h.upd

theorem State.Inv.fence {k : FenceKind} {sc : Scope} (h : s.Inv) : (fence k sc s).Inv := by
  unfold Machine.fence
  split
  · exact .ite (.ok h.acquireTags) (.wait h)
  · exact h.releaseWait fun _ hu => .ok hu.setRelFence
  · exact h.releaseWait fun _ hu => .ok hu.acquireTags.setRelFence

theorem State.Inv.atomicForm {sc : Option ScopePfx} {op : AtomOp} {ty : Ty} {d a : GReg} {imm : BitVec 48}
    {b c : Word} (h : s.Inv) : (atomicForm s sc op ty d a imm b c).Inv :=
  h.memOp fun _ hu => hu.walked fun _ hv => hv.atomic fun _ _ _ hw => .ok hw.addFlags.wg

theorem State.Inv.runWaita {x : WaitAA} (h : s.Inv) : (runWaita x s).Inv := by
  unfold Machine.runWaita
  split
  · exact .ite (.trap h) (.ok h.sided.noteTags.wg)
  · exact .wait h
  · exact .wait h
  · refine h.memOp fun _ hu => hu.walked fun _ hv => ?_
    split
    · exact .trap hv
    · refine .ite (.wait hv) (.ite (.wait hv) (.ite (.trap hv.meetUpsets) ?_))
      exact .ite (.ok hv.meetUpsets.fold.sided.noteTags.wg) (.wait hv.meetUpsets.fold.upd)

theorem State.Inv.runAwake {x : AImm} (h : s.Inv) : (runAwake x s).Inv := by
  unfold Machine.runAwake
  refine h.afterMemPasses (h.walked fun _ hu => ?_)
  split
  · exact .trap hu
  · exact .ite (.wait hu) (.ok hu.touchKeys.wakeWord.sided)

theorem State.Inv.runRed {x : RedA} (h : s.Inv) : (runRed x s).Inv := by
  unfold Machine.runRed
  refine h.memOp fun _ hu => hu.walked fun _ hv => ?_
  split
  · exact .trap hv
  · exact hv.reduce fun _ hw => .ok hw

theorem State.Inv.loadLanes {t : Ty} {sel : VSel} {d : VReg} {got : List (Nat × Nat)} (h : s.Inv) :
    (loadLanes s t sel d got).Inv := h.wv

theorem State.Inv.vecLoad {t : Ty} {d : VReg} {sel : VSel} {sc : Option ScopePfx} {fixed : Bool}
    {f : State → Nat → Word} (h : s.Inv) : (vecLoad s t d sel sc fixed f).Inv :=
  h.notRecordable fun _ hu => hu.memOp fun _ hv => hv.walked fun _ hw => hw.load fun _ _ hx => .ok hx.loadLanes

theorem State.Inv.runVld {x : VLdA} (h : s.Inv) : (runVld x s).Inv := h.vecLoad

theorem State.Inv.past {bs : List (Nat × Byte)} (h : s.Inv) : (s.past bs).Inv := by
  cases bs with
  | nil => exact h
  | cons b r => exact h.meetUpsets.withMem (Memory.writeAll_wf _ _)

theorem State.Inv.walkedPast {bs : List (Nat × Byte)} {n : Nat} {as : List Word} {k : State → Res} (h : s.Inv)
    (hk : ∀ u, u.Inv → (k u).Inv) : (s.walkedPast bs n as k).Inv := by
  unfold State.walkedPast
  split
  · exact h.walked fun _ hu => hk _ hu
  · exact .ite (.ite (.wait h) (hk _ (h.foldl (fun _ _ hu => hu.meetWalkOf)))) (h.walked (fun _ hu => hk _ hu))

theorem State.Inv.storeBlocks {a : Attr} {y : Site} {f frame off : Nat} {vals : List Nat}
    {pre : optParam (List Put) []} (h : s.Inv) : (storeBlocks s a y f frame off vals pre).Inv := by
  unfold Machine.storeBlocks
  dsimp only
  split
  · exact .trap h.addFlags
  · exact h.store fun _ hu => .ok hu.addFlags.setSrg

theorem State.Inv.storeEncoded {a : Attr} {plain : List Put} {runs : List (Nat × Site × List Nat)}
    {pre : optParam (List Put) []} (h : s.Inv) : (storeEncoded s a plain runs pre).Inv := by
  unfold Machine.storeEncoded
  dsimp only
  split
  · exact .trap h.addFlags
  · exact h.store fun _ hu => .ok hu.addFlags.setSrg

theorem State.Inv.storeRuns {a : Attr} {t : Ty} {v : VecReg} {ys : List (Nat × Site)} {pre : optParam (List Put) []}
    (h : s.Inv) : (storeRuns s a t v ys pre).Inv := h.storeEncoded

theorem State.Inv.vstForm {pre : List Put} {x : VStA} (h : s.Inv) : (vstForm pre x s).Inv := by
  unfold Machine.vstForm
  refine h.notRecordable fun _ hu => hu.memOp fun _ hv => hv.walkedPast fun _ hw => ?_
  dsimp only
  split
  · exact .trap hw
  · split
    · refine .ite hw.storeRuns ?_
      split
      · exact hw.storeBlocks
      · exact hw.store fun _ hx => .ok hx
    · exact hw.store fun _ hx => .ok hx

theorem State.Inv.runVst {x : VStA} (h : s.Inv) : (runVst x s).Inv := h.vstForm

theorem State.Inv.vecStore {t : Ty} {v : VReg} {sel : VSel} {sc : Option ScopePfx} {f : State → Nat → Word}
    (h : s.Inv) : (vecStore s t v sel sc f).Inv := by
  unfold Machine.vecStore
  refine h.notRecordable fun _ hu => hu.memOp fun _ hv => hv.walked fun _ hw => ?_
  split
  · exact .trap hw
  · exact hw.store fun _ hx => .ok hx

theorem State.Inv.runVred {x : VRedA} (h : s.Inv) : (runVred x s).Inv := by
  unfold Machine.runVred
  refine h.notRecordable fun _ hu => hu.memOp fun _ hv => hv.walked fun _ hw => ?_
  split
  · exact .trap hw
  · exact hw.reduce fun _ hx => .ok hx

/-! ## Landing-set forms -/

theorem State.Inv.checkTagged {c : TagCheck} (h : s.Inv) : (s.checkTagged c).Inv := by
  unfold State.checkTagged
  dsimp only
  split
  · exact h.modNet
  · exact h.fresh.modNet

theorem State.Inv.sendEntry {k : StrandIx} {i : Nat} {req : LReq} (h : s.Inv) : (s.sendEntry k i req).Inv :=
  .ite h.modNet.addWalk h.meetWalk.checkTagged

theorem State.Inv.land {r : ReplyTo} {val : Word} {fault : Option Trap} (h : s.Inv) : (s.land r val fault).Inv := by
  unfold State.land
  split
  · exact h.countCore
  · exact h.modStrand

theorem State.Inv.landTags {r : ReplyTo} {ts : List SyncTag} (h : s.Inv) : (s.landTags r ts).Inv := by
  unfold State.landTags
  split
  · exact h
  · exact .ite h h.modStrand

theorem State.Inv.issueTagged {ty : Ty} {a : Attr} {acq : Bool} {rs : List TagReq} (h : s.Inv) :
    (s.issueTagged ty a acq rs).Inv := by
  unfold State.issueTagged
  dsimp only
  split
  · exact .trap h
  · exact .ite h.trapOf (.ite (.wait h) (.ok (h.sided.foldl (fun _ _ hu => hu.upd.sendEntry))))

theorem State.Inv.landingFault {e : LEntry} (h : s.Inv) : (landingFault s e).Inv := by
  unfold Machine.landingFault
  split <;> exact .trap h.upd

theorem State.Inv.takeForm {x : TakeA} {nb : Bool} (h : s.Inv) : (takeForm x nb s).Inv := by
  unfold Machine.takeForm
  split
  · exact .ite (.wait h) (.ok h.wg.wg.wp.setNone)
  · exact .ite h.landingFault (.ok h.upd.wg.wg.wp.setNone)

theorem State.Inv.runVtake {x : VTakeA} (h : s.Inv) : (runVtake x s).Inv := by
  unfold Machine.runVtake
  refine h.afterPasses (.ite ?_ (.ok h.upd.wv.wv.wg.setNone))
  split
  · exact h.landingFault
  · exact .ite (.wait h) (.ok h.wv.wv.wg.setNone)

theorem State.Inv.resolving {d : GReg} {e : Option LEntry} {f : State → LEntry → State} (h : s.Inv)
    (hf : ∀ u x, u.Inv → (f u x).Inv) : (resolving s d e f).Inv := by
  unfold Machine.resolving
  split
  · exact .ok (hf _ _ h).wg
  · exact .ok h.wg

theorem State.Inv.runLfill {x : TagFA} (h : s.Inv) : (runLfill x s).Inv := by
  unfold Machine.runLfill
  exact h.resolving fun _ _ hu => hu.upd

/-! ## Vector forms -/

theorem State.Inv.lanewise {t : Ty} {d : VReg} {sel : VSel} {op : Nat → Nat × Num.Flags} (h : s.Inv) :
    (lanewise s t d sel op).Inv := h.orException fun _ hu => .ok hu.wv

theorem State.Inv.bitLanes {t : Ty} {d : VReg} {sel : VSel} {op : Nat → Nat} (h : s.Inv) :
    (bitLanes s t d sel op).Inv := .ok h.wv

theorem State.Inv.roundLanes {t : Ty} {d : VReg} {sel : VSel} {rnd : Option RMode}
    {op : RMode → Nat → Nat → Nat × Num.Flags} (h : s.Inv) : (roundLanes s t d sel rnd op).Inv :=
  h.orException fun _ hu => .ok hu.setSrg.wv

theorem State.Inv.vecArith {x : VArS} {int : Int → Int → Int}
    {flt : Num.Fmt → RMode → Nat → Num.Val → Num.Val → Nat × Num.Flags} (h : s.Inv) : (vecArith x s int flt).Inv :=
  .ite h.roundLanes h.lanewise

theorem State.Inv.vecUnary {x : VUnR} {op : Num.Fmt → RMode → Nat → Num.Val → Nat × Num.Flags} (h : s.Inv) :
    (vecUnary x s op).Inv := by
  unfold Machine.vecUnary
  exact h.roundLanes

theorem State.Inv.vecMinMax {x : VBin} {mx : Bool} (h : s.Inv) : (vecMinMax x s mx).Inv := .ite h.lanewise h.bitLanes
theorem State.Inv.vecBits {x : VBin} {f : Nat → Nat → Nat} (h : s.Inv) : (vecBits x s f).Inv := h.bitLanes

theorem State.Inv.vecSign {x : VUnS} {bits : Nat → Nat} {int : Int → Int} (h : s.Inv) : (vecSign x s bits int).Inv :=
  .ite h.bitLanes h.lanewise

theorem State.Inv.vecShl {t : Ty} {d a : VReg} {sel : VSel} {n : Nat → Nat} (h : s.Inv) :
    (vecShl s t d a sel n).Inv := h.lanewise

theorem State.Inv.vecShr {t : Ty} {d a : VReg} {sel : VSel} {n : Nat → Nat} (h : s.Inv) :
    (vecShr s t d a sel n).Inv := h.bitLanes

theorem State.Inv.vecSra {t : Ty} {d a : VReg} {sel : VSel} {n : Nat → Nat} (h : s.Inv) :
    (vecSra s t d a sel n).Inv := h.bitLanes

theorem State.Inv.insElem {t : Ty} {d : VReg} {a : GReg} {mkr : MReg} {lane : Option LanePfx} {i : Nat} (h : s.Inv) :
    (insElem s t d a mkr lane i).Inv := .ok h.wv

theorem State.Inv.runVadd {x : VArS} (h : s.Inv) : (runVadd x s).Inv := h.recordable fun _ hu => hu.vecArith
theorem State.Inv.runVsub {x : VArS} (h : s.Inv) : (runVsub x s).Inv := h.recordable fun _ hu => hu.vecArith
theorem State.Inv.runVmul {x : VArS} (h : s.Inv) : (runVmul x s).Inv := h.recordable fun _ hu => hu.vecArith
theorem State.Inv.runVfma {x : VFmaA} (h : s.Inv) : (runVfma x s).Inv := h.recordable fun _ hu => hu.roundLanes
theorem State.Inv.runVdiv {x : VBinR} (h : s.Inv) : (runVdiv x s).Inv := h.recordable fun _ hu => hu.roundLanes
theorem State.Inv.runVsqrt {x : VUnR} (h : s.Inv) : (runVsqrt x s).Inv := h.recordable fun _ hu => hu.vecUnary
theorem State.Inv.runVmin {x : VBin} (h : s.Inv) : (runVmin x s).Inv := h.recordable fun _ hu => hu.vecMinMax
theorem State.Inv.runVmax {x : VBin} (h : s.Inv) : (runVmax x s).Inv := h.recordable fun _ hu => hu.vecMinMax
theorem State.Inv.runVabs {x : VUnS} (h : s.Inv) : (runVabs x s).Inv := h.recordable fun _ hu => hu.vecSign
theorem State.Inv.runVneg {x : VUnS} (h : s.Inv) : (runVneg x s).Inv := h.recordable fun _ hu => hu.vecSign
theorem State.Inv.runVand {x : VBin} (h : s.Inv) : (runVand x s).Inv := h.recordable fun _ hu => hu.vecBits
theorem State.Inv.runVor {x : VBin} (h : s.Inv) : (runVor x s).Inv := h.recordable fun _ hu => hu.vecBits
theorem State.Inv.runVxor {x : VBin} (h : s.Inv) : (runVxor x s).Inv := h.recordable fun _ hu => hu.vecBits
theorem State.Inv.runVshl {x : VBin} (h : s.Inv) : (runVshl x s).Inv := h.recordable fun _ hu => hu.vecShl
theorem State.Inv.runVshlImm {x : VShI} (h : s.Inv) : (runVshlImm x s).Inv := h.recordable fun _ hu => hu.vecShl
theorem State.Inv.runVshr {x : VBin} (h : s.Inv) : (runVshr x s).Inv := h.recordable fun _ hu => hu.vecShr
theorem State.Inv.runVshrImm {x : VShI} (h : s.Inv) : (runVshrImm x s).Inv := h.recordable fun _ hu => hu.vecShr
theorem State.Inv.runVsra {x : VBin} (h : s.Inv) : (runVsra x s).Inv := h.recordable fun _ hu => hu.vecSra
theorem State.Inv.runVsraImm {x : VShI} (h : s.Inv) : (runVsraImm x s).Inv := h.recordable fun _ hu => hu.vecSra
theorem State.Inv.runVrcp {x : VUnR} (h : s.Inv) : (runVrcp x s).Inv := h.recordable fun _ hu => hu.vecUnary
theorem State.Inv.runVrsqrt {x : VUnR} (h : s.Inv) : (runVrsqrt x s).Inv := h.recordable fun _ hu => hu.vecUnary
theorem State.Inv.runVexp2 {x : VUnR} (h : s.Inv) : (runVexp2 x s).Inv := h.recordable fun _ hu => hu.vecUnary

theorem State.Inv.runVcmp {x : VCmpA} (h : s.Inv) : (runVcmp x s).Inv :=
  h.recordable fun _ hu => hu.orException fun _ hv => .ok hv.wm

theorem State.Inv.runVsel {x : VBin} (h : s.Inv) : (runVsel x s).Inv := h.recordable fun _ hu => .ok hu.wv
theorem State.Inv.runVmov {x : VUn} (h : s.Inv) : (runVmov x s).Inv := h.recordable fun _ hu => hu.bitLanes
theorem State.Inv.runVbcast {x : VBcA} (h : s.Inv) : (runVbcast x s).Inv := h.recordable fun _ hu => hu.bitLanes

theorem State.Inv.runVbcastImm {x : VBcI} (h : s.Inv) : (runVbcastImm x s).Inv :=
  h.recordable fun _ hu => hu.bitLanes

theorem State.Inv.runVins {x : VInsI} (h : s.Inv) : (runVins x s).Inv := h.recordable fun _ hu => hu.insElem

theorem State.Inv.runVinsReg {x : VInsR} (h : s.Inv) : (runVinsReg x s).Inv :=
  h.recordable fun _ hu => .ite hu.insElem (.ok hu)

theorem State.Inv.runVperm {x : VPermA} (h : s.Inv) : (runVperm x s).Inv := h.recordable fun _ hu => hu.bitLanes
theorem State.Inv.runVrot {x : VShI} (h : s.Inv) : (runVrot x s).Inv := h.recordable fun _ hu => hu.bitLanes

theorem State.Inv.runVcompress {x : VCompA} (h : s.Inv) : (runVcompress x s).Inv :=
  h.recordable fun _ hu => .ok hu.wv

theorem State.Inv.runVexpand {x : VUn} (h : s.Inv) : (runVexpand x s).Inv := h.recordable fun _ hu => hu.bitLanes
theorem State.Inv.runViota {x : VIotaA} (h : s.Inv) : (runViota x s).Inv := h.recordable fun _ hu => hu.bitLanes
theorem State.Inv.runMand {x : MBin} (h : s.Inv) : (runMand x s).Inv := h.recordable fun _ hu => .ok hu.wm
theorem State.Inv.runMor {x : MBin} (h : s.Inv) : (runMor x s).Inv := h.recordable fun _ hu => .ok hu.wm
theorem State.Inv.runMxor {x : MBin} (h : s.Inv) : (runMxor x s).Inv := h.recordable fun _ hu => .ok hu.wm
theorem State.Inv.runMnot {x : MUn} (h : s.Inv) : (runMnot x s).Inv := h.recordable fun _ hu => .ok hu.wm

/-! ## Conversions -/

theorem State.Inv.runVcvt {x : VCvtA} (h : s.Inv) : (runVcvt x s).Inv :=
  h.recordable fun _ hu => .ite hu.illegalHere (hu.orException (fun _ hv => .ok hv.setSrg.wv))

theorem State.Inv.runVcvto {x : VCvtoA} (h : s.Inv) : (runVcvto x s).Inv := by
  unfold Machine.runVcvto
  refine h.notRecordable fun _ hu => hu.memOp fun _ hv => .ite hv.illegalHere (.ite (.trap hv) (.ite hv.trapOf ?_))
  refine hv.walked fun _ hw => ?_
  split
  · exact .trap hw
  · dsimp only
    split
    · exact .trap hw.addFlags
    · exact hw.store fun _ hx => .ok hx.addFlags.setSrg.wv.wg

theorem State.Inv.runVdot4 {x : VDotA} (h : s.Inv) : (runVdot4 x s).Inv :=
  h.recordable fun _ hu => .ite hu.lanewise hu.roundLanes

theorem State.Inv.runVredsum {x : VRedSA} (h : s.Inv) : (runVredsum x s).Inv :=
  h.notRecordable fun _ hu => .ite (hu.orException (fun _ hv => .ok hv.setSrg.wg)) hu.intResult

theorem State.Inv.vecRedMinMax {x : VRedMA} {mx : Bool} (h : s.Inv) : (vecRedMinMax x s mx).Inv :=
  h.orException fun _ hu => .ok hu.wg

theorem State.Inv.runVtopk {x : VTopA} (h : s.Inv) : (runVtopk x s).Inv :=
  h.recordable fun _ hu => hu.orException fun _ hv => .ok hv.wv.wv

theorem State.Inv.runVprune48 {x : VPruneA} (h : s.Inv) : (runVprune48 x s).Inv :=
  h.recordable fun _ hu => .ok hu.wv.wv

/-! ## Loom forms -/

theorem State.Inv.writeTile {a : AReg} {t : Tile} (h : s.Inv) : (s.writeTile a t).Inv := h.modCore

theorem State.Inv.noteGang {low : GangReq} {rs : List GangReq} (h : s.Inv) : (s.noteGang low rs).Inv :=
  .ite h ((State.Inv.ite h.modStrand h).foldl (fun _ _ hu => .ite hu.modStrand hu))

theorem State.Inv.tryFormGang {k : StrandIx} (h : s.Inv) : (s.tryFormGang k).Inv := by
  unfold State.tryFormGang
  split
  · exact h
  · refine .ite (h.foldl (fun _ _ hu => hu.endGang)) (.ite h (.ite (h.foldl (fun _ _ hu => hu.endGang)) ?_))
    refine .ite (h.foldl (fun _ _ hu => hu.endGang)) (.ite h (State.Inv.foldl ?_ fun _ _ hu => ?_))
    · exact h.fresh.meetUpsetsOf.noteGang.foldl fun _ _ hu => hu.modTile
    · exact hu.modCore.endGang

theorem State.Inv.loomHeld {k : Res} (h : s.Inv) (hk : k.Inv) : (loomHeld s k).Inv := by
  unfold Machine.loomHeld
  split
  · exact .trap h.upd
  · exact hk

theorem State.Inv.mmaTurn {r : GangReq} (h : s.Inv) : (mmaTurn s r).Inv := by
  unfold Machine.mmaTurn
  split
  · exact .ok h
  · exact .trap h
  · dsimp only
    split
    · exact .ok (State.Inv.ite h h.upd).tryFormGang
    · exact .trap (State.Inv.ite h h.upd).tryFormGang
    · exact .wait (State.Inv.ite h h.upd).tryFormGang

theorem State.Inv.mmaForm {pass sparse : Bool} {x : MmaSA} {off : Word} (h : s.Inv) : (mmaForm s pass sparse x off).Inv := by
  unfold Machine.mmaForm
  split
  · exact h.loomHeld (.ite (h.memOp fun _ hu => hu.mmaTurn) h.mmaTurn)
  · exact .ite (h.memOp fun _ hu => hu.mmaTurn) h.mmaTurn

theorem State.Inv.modOwner {k : StrandIx} {gen : BitVec 8} {f : Strand → Strand} (h : s.Inv) :
    (s.modOwner k gen f).Inv := .ite h.modStrand h.upd

theorem State.Inv.completeLoom {c : CoreIx} (h : s.Inv) : (s.completeLoom c).Inv := by
  unfold State.completeLoom
  split
  · exact h
  · exact .ite h.modCore.modOwner (h.modCore.modOwner.foldl (fun _ _ hu => hu.modTile))

theorem State.Inv.tileForm {a : AReg} {k : State → Res} (h : s.Inv) (hk : ∀ u, u.Inv → (k u).Inv) :
    (tileForm s a k).Inv := h.loomHeld (.ite h.trapOf (.ite (.wait h) (hk _ h)))

theorem State.Inv.runMzero {a : AReg} (h : s.Inv) : (runMzero a s).Inv :=
  h.recordable fun _ hu => hu.tileForm fun _ hv => .ok hv.writeTile

theorem State.Inv.mldForm {x : MldA} {off : Word} (h : s.Inv) : (mldForm s x off).Inv :=
  h.tileForm fun _ hu => hu.memOp fun _ hv => hv.walked fun _ hw => hw.load fun _ _ hx => .ok hx.writeTile

theorem State.Inv.mstForm {x : MldA} {off : Word} (h : s.Inv) : (mstForm s x off).Inv := by
  unfold Machine.mstForm
  refine h.tileForm fun _ hu => hu.memOp fun _ hv => hv.walked fun _ hw => ?_
  split
  · exact .trap hw
  · split
    · split
      · exact hw.storeEncoded
      · exact hw.store fun _ hx => .ok hx
    · exact .ok hw

theorem State.Inv.scaleForm {f : Strand → Strand} (h : s.Inv) : (scaleForm s f).Inv := h.loomHeld (.ok h.upd)

theorem State.Inv.runMscaleA0 {v : VReg} (h : s.Inv) : (runMscaleA0 v s).Inv :=
  h.recordable fun _ hu => hu.scaleForm

theorem State.Inv.runMscaleA1 {v : VReg} (h : s.Inv) : (runMscaleA1 v s).Inv :=
  h.recordable fun _ hu => hu.scaleForm

theorem State.Inv.runMscaleB {v : VReg} (h : s.Inv) : (runMscaleB v s).Inv := h.recordable fun _ hu => hu.scaleForm

/-! ## Pair words -/

theorem State.Inv.runScalarHalf {h : ScalarHalf} (hs : s.Inv) : (runScalarHalf h s).Inv := by
  unfold Machine.runScalarHalf
  split
  · exact .ok hs
  · exact hs.runAdd
  · exact hs.runSub
  · exact hs.runAnd
  · exact hs.runOr
  · exact hs.runXor
  · exact hs.runShl
  · exact hs.runShr
  · exact hs.runSra
  · exact hs.runMin
  · exact hs.runMax
  · exact hs.runMul
  · exact hs.runCmp
  · exact hs.runAddi
  · exact hs.runAndi
  · exact hs.runShli
  · exact hs.runShri
  · exact hs.runSrai
  · exact hs.runMovi
  · exact hs.runLea
  · exact hs.runLd
  · exact hs.runSt

theorem State.Inv.runVectorHalf {h : VectorHalf} (hs : s.Inv) : (runVectorHalf h s).Inv := by
  unfold Machine.runVectorHalf
  split
  · exact .ok hs
  · exact hs.runVadd
  · exact hs.runVsub
  · exact hs.runVmul
  · exact hs.runVmin
  · exact hs.runVmax
  · exact hs.runVand
  · exact hs.runVor
  · exact hs.runVxor
  · exact hs.runVshl
  · exact hs.runVshlImm
  · exact hs.runVshr
  · exact hs.runVshrImm
  · exact hs.runVsra
  · exact hs.runVsraImm
  · exact hs.runVcmp
  · exact hs.runVsel
  · exact hs.runVmov
  · exact hs.runVbcast
  · exact hs.runVbcastImm
  · exact hs.runVcvt
  · exact hs.runVld
  · exact hs.runVst

theorem State.Inv.beforeVector {s1 : State} {y : HalfDone} (h : s1.Inv) : (beforeVector s s1 y).Inv := h.upd
theorem State.Inv.afterBoth {h : HalfDone} (hs : s.Inv) : (afterBoth h s).Inv := hs.upd

theorem State.Inv.vectorHalf {vh : VectorHalf} {s1 : State} {y : HalfDone} (h : s1.Inv) : (vectorHalf vh s s1 y).Inv := by
  have hr : (Machine.runVectorHalf vh (Machine.beforeVector s s1 y)).Inv := h.beforeVector.runVectorHalf
  unfold Machine.vectorHalf
  split
  · rename_i e
    exact .ok (hr.of_ok e).afterBoth
  · rename_i e
    exact .trap (hr.of_trap e).upd
  · rename_i e
    exact .wait (hr.of_wait e).upd
  · rename_i e
    exact .gone (hr.of_gone e)

theorem State.Inv.seeing {bs : List (Nat × Byte)} (h : s.Inv) : (s.seeing bs).Inv := h.past.upd

theorem State.Inv.unseeing {s2 : State} {bs : List (Nat × Byte)} (h : s2.Inv) (hs : s.Inv) : (s2.unseeing s bs).Inv :=
  ⟨hs.1, h.2⟩

theorem State.Inv.afterStore {vh : VectorHalf} {bs : List (Nat × Byte)} (h : s.Inv) : (afterStore vh bs s).Inv := by
  unfold Machine.afterStore
  refine .ite ?_ h.runVectorHalf
  split
  · rename_i e
    exact .ok ((h.seeing.runVectorHalf.of_ok e).unseeing h)
  · rename_i e
    exact .trap ((h.seeing.runVectorHalf.of_trap e).unseeing h)
  · rename_i e
    exact .wait ((h.seeing.runVectorHalf.of_wait e).unseeing h)
  · rename_i e
    exact .gone (h.seeing.runVectorHalf.of_gone e)

theorem State.Inv.storeWith {p : Put} {vh : VectorHalf} (h : s.Inv) : (storeWith p vh s).Inv := by
  unfold Machine.storeWith
  split
  · exact h.vstForm
  · split
    · rename_i e
      have hu := (h.afterStore.of_ok e).store (a := {}) (of := false) (puts := [p]) fun _ hu => .ok hu
      split
      · rename_i e
        exact .ok (hu.of_ok e)
      · exact .wait h
      · exact hu
    · exact h.afterStore

theorem State.Inv.storePair {x : MemS} {vh : VectorHalf} (h : s.Inv) : (storePair x vh s).Inv := by
  refine h.stChecked fun u p hu => ?_
  split
  · rename_i e
    exact .trap (hu.storeWith.of_trap e).upd
  · exact hu.storeWith

theorem State.Inv.halvesInTurn {sh : ScalarHalf} {vh : VectorHalf} (h : s.Inv) : (halvesInTurn sh vh s).Inv := by
  unfold Machine.halvesInTurn
  split
  · exact h.vectorHalf
  · split
    · rename_i e
      exact (h.runScalarHalf.of_ok e).vectorHalf
    · exact h.runScalarHalf

theorem State.Inv.runPairWord {sh : ScalarHalf} {vh : VectorHalf} (h : s.Inv) : (runPairWord sh vh s).Inv := by
  unfold Machine.runPairWord
  refine .ite (.wait h) ?_
  split
  · exact .ite h.halvesInTurn h.storePair
  · exact h.halvesInTurn

/-! ## Treadle forms -/

theorem State.Inv.runTrrec {x : TrrecA} (h : s.Inv) : (runTrrec x s).Inv := by
  unfold Machine.runTrrec
  dsimp only
  split
  · exact .wait h
  · exact h.trapOf
  · exact .ok h.upd

theorem State.Inv.runTrrun {a : GReg} (h : s.Inv) : (runTrrun a s).Inv := by
  unfold Machine.runTrrun
  dsimp only
  split
  · exact .wait h
  · exact h.trapOf
  · exact h.trapOf
  · exact h.trapOf
  · exact .ite h.trapOf (.ok h.upd)

theorem State.Inv.runTrstop {d : GReg} (h : s.Inv) : (runTrstop d s).Inv := by
  unfold Machine.runTrstop
  dsimp only
  split
  · exact .ok h.upd.wg
  · exact .ok h.upd.wg
  · exact .ok h.upd.wg
  · exact .ok h.upd.wg
  · exact .ite (.ok h.upd.wg) (.wait h.upd)

theorem State.Inv.runRecorded {n na owned : Nat} {off : Word} {i : Instr} (h : s.Inv) :
    (runRecorded n na owned off i s).Inv := by
  unfold Machine.runRecorded
  split
  · exact h.runVadd
  · exact h.runVsub
  · exact h.runVmul
  · exact h.runVfma
  · exact h.runVdiv
  · exact h.runVsqrt
  · exact h.runVmin
  · exact h.runVmax
  · exact h.runVabs
  · exact h.runVneg
  · exact h.runVand
  · exact h.runVor
  · exact h.runVxor
  · exact h.runVshl
  · exact h.runVshlImm
  · exact h.runVshr
  · exact h.runVshrImm
  · exact h.runVsra
  · exact h.runVsraImm
  · exact h.runVrcp
  · exact h.runVrsqrt
  · exact h.runVexp2
  · exact h.runVcmp
  · exact h.runVsel
  · exact h.runVmov
  · exact h.runVbcast
  · exact h.runVbcastImm
  · exact h.runVins
  · exact h.runVinsReg
  · exact h.runVperm
  · exact h.runVrot
  · exact h.runVcompress
  · exact h.runVexpand
  · exact h.runViota
  · exact h.runMand
  · exact h.runMor
  · exact h.runMxor
  · exact h.runMnot
  · exact h.runVcvt
  · exact h.runVprune48
  · exact h.runVtopk
  · exact h.runVdot4
  · exact h.mmaForm
  · exact h.mmaForm
  · exact h.runMzero
  · exact h.mldForm
  · exact h.mstForm
  · exact h.runMscaleA0
  · exact h.runMscaleA1
  · exact h.runMscaleB
  · exact .ok h

theorem State.Inv.issueEntry {e : TrEntry} (h : s.Inv) : (s.issueEntry e).Inv := by
  unfold State.issueEntry
  refine .ite h.upd ?_
  split
  · rename_i e
    exact (h.upd.runRecorded.of_ok e).upd
  · rename_i e
    exact (h.upd.runRecorded.of_wait e).upd
  · rename_i e
    exact h.upd.runRecorded.of_gone e
  · rename_i e
    refine .ite (.ite ?_ ?_) h
    · exact (h.upd.runRecorded.of_trap e).upd.upd.takeTrap.upd
    · exact (h.upd.runRecorded.of_trap e).upd.upd.takeTrap

theorem State.Inv.execTreadleEntryIssue {k : StrandIx} (h : s.Inv) : Out.Inv (execTreadleEntryIssue k s) := by
  unfold Machine.execTreadleEntryIssue
  refine .ite ?_ h.eventStep
  split
  · exact h.switchTo.issueEntry.switchTo.eventStep
  · exact h.eventStep

/-! ## The life of strands, cores and weaves -/

theorem State.Inv.reply {r : ReplyTo} {val : Nat} {fault : Option Trap} (h : s.Inv) : (s.reply r val fault).Inv :=
  h.modNet

theorem State.Inv.faultReply {r : ReplyTo} (h : s.Inv) : (s.faultReply r).Inv := h.reply

theorem State.Inv.dropMsg {c : CoreIx} {m : Msg} (h : s.Inv) : (s.dropMsg c m).Inv := by
  unfold State.dropMsg
  split
  · exact h.countCore.faultReply
  · exact h.countCore

theorem State.Inv.setStream {y : Stream} (h : s.Inv) : (s.setStream y).Inv := h.upd

theorem State.Inv.orphanEnds {wid : Nat} {q : Vector QBind 8} {known : Bool} (h : s.Inv) :
    (s.orphanEnds wid q known).Inv := by
  unfold State.orphanEnds
  refine h.foldl fun _ _ hu => ?_
  split
  · exact hu.modNet
  · exact hu

theorem State.Inv.dropItem {i : Item} {wid : Nat} (h : s.Inv) : (s.dropItem i wid).Inv := by
  unfold State.dropItem
  split
  · exact h.modNet
  · exact h

theorem State.Inv.dropItems {wid : Nat} {is : List Item} (h : s.Inv) : (s.dropItems wid is).Inv :=
  h.foldl fun _ _ hu => hu.dropItem

theorem State.Inv.dropQueues {c : CoreIx} (h : s.Inv) : (s.dropQueues c).Inv := by
  unfold State.dropQueues
  split
  · exact h.dropItems
  · exact h

theorem State.Inv.zeroRange {lo n : Nat} (h : s.Inv) : (s.zeroRange lo n).Inv := h.withMem (Memory.filter_wf _ s.mem)
theorem State.Inv.dropLoom {c : CoreIx} (h : s.Inv) : (s.dropLoom c).Inv := .ite h.modCore h.modCore.upd
theorem State.Inv.emptyCore {c : CoreIx} (h : s.Inv) : (s.emptyCore c).Inv := h.dropLoom.modCore
theorem State.Inv.freeCore {c : CoreIx} (h : s.Inv) : (s.freeCore c).Inv := h.dropQueues.emptyCore
theorem State.Inv.clearSysg {c : CoreIx} (h : s.Inv) : (s.clearSysg c).Inv := h.foldl fun _ _ hu => hu.modStrand

theorem State.Inv.passTo {part : Nat} {c : CoreIx} (h : s.Inv) : (s.passTo part c).Inv :=
  (State.Inv.ite h h.clearSysg).modCore

theorem State.Inv.leaveBanks {c : CoreIx} (h : s.Inv) : (s.leaveBanks c).Inv := .ite h h.zeroRange
theorem State.Inv.releaseCore {c : CoreIx} (h : s.Inv) : (s.releaseCore c).Inv := h.leaveBanks.freeCore.modCore

theorem State.Inv.coreIdle {c : CoreIx} (h : s.Inv) : (s.coreIdle c).Inv :=
  .ite h (.ite h.modCore.releaseCore h.leaveBanks.modCore)

theorem State.Inv.coreLeft {c : CoreIx} {key : Word} (h : s.Inv) : (s.coreLeft c key).Inv := .ite h h.modCore.coreIdle

theorem State.Inv.dropStrand {k : StrandIx} {val : Word} (h : s.Inv) : (s.dropStrand k val).Inv := by
  unfold State.dropStrand
  refine State.Inv.refresh (State.Inv.freeSlot (State.Inv.orphanEnds ?_))
  split
  · refine State.Inv.modCore ?_
    split
    · exact h.reply
    · exact h
  · split
    · exact h.reply
    · exact h

theorem State.Inv.workWait {k : State → Res} (h : s.Inv) (hk : ∀ u, u.Inv → (k u).Inv) : (workWait s k).Inv :=
  .ite (.wait h) (.ite (.wait h) (h.loomHeld (hk _ h)))

theorem State.Inv.haltStrand {val key : Word} (h : s.Inv) : (s.haltStrand val key).Inv := h.dropStrand.coreLeft

theorem State.Inv.haltForm {key : Word} (h : s.Inv) : (haltForm key s).Inv :=
  h.workWait fun _ hu => .ite (.gone hu.haltStrand) (.wait hu)

theorem State.Inv.occupy {c : CoreIx} (h : s.Inv) : (s.occupy c).Inv := .ite h h.modCore

theorem State.Inv.startStrand {k : StrandIx} {x : Strand} (h : s.Inv) : (s.startStrand k x).Inv := by
  unfold State.startStrand
  refine State.Inv.switchTo ?_
  split
  · rename_i e
    exact h.occupy.setStrand.switchTo.enter e
  · exact h.occupy.setStrand.switchTo.metFetch.takeTrap

theorem State.Inv.zeroVault {w : Weave} (h : s.Inv) : (s.zeroVault w).Inv := h.foldl fun _ _ hu => hu.zeroRange
theorem State.Inv.dropObjects {wid : Nat} (h : s.Inv) : (s.dropObjects wid).Inv := h.upd

theorem State.Inv.childEnds {wid : Nat} {v : Word} (h : s.Inv) : (s.childEnds wid v).Inv := by
  unfold State.childEnds
  refine (h.foldl (fun _ _ hu => .ite hu.modStrand hu)).foldl fun _ _ hu => ?_
  dsimp only
  split
  · exact hu.recordWake
  · exact hu

theorem State.Inv.writeDone {w : Weave} {v : Word} (h : s.Inv) : (s.writeDone w v).Inv := by
  unfold State.writeDone
  refine .ite h ?_
  dsimp only
  split
  · exact h.meetWalkAs
  · exact .ite h.meetWalkAs h.meetWalkAs.meetUpsetsAs.perform.wakeWord

theorem State.Inv.leavePool {w : Weave} (h : s.Inv) : (s.leavePool w).Inv := h.upd

theorem State.Inv.endWeave {w : Weave} {how code : BitVec 8} (h : s.Inv) : (s.endWeave w how code).Inv :=
  (h.foldl (fun _ _ hu => .ite hu.releaseCore hu)).zeroVault.dropObjects.leavePool.writeDone.childEnds

/-! ## Phasers -/

theorem State.Inv.setPhaser {q : Phaser} (h : s.Inv) : (s.setPhaser q).Inv := h.upd

theorem State.Inv.modMember {p : Phaser} {mem : Nat} {f : Member → Member} (h : s.Inv) : (s.modMember p mem f).Inv :=
  h.upd

theorem State.Inv.applyHeld {p : Phaser} {hs : List (Nat × Nat)} (h : s.Inv) : (s.applyHeld p hs).Inv := by
  induction hs generalizing s with
  | nil => exact h
  | cons x r ih =>
    obtain ⟨mem, k⟩ := x
    refine ih ?_
    split
    · exact h.modStrand
    · split
      · split
        · exact h.setPhaser
        · exact h
      · exact h.modMember.modStrand

theorem State.Inv.endWaits {q : Phaser} (h : s.Inv) : (s.endWaits q).Inv :=
  h.foldl fun _ _ hu => .ite hu.modStrand hu

theorem State.Inv.boundary {wid blk idx n : Nat} (h : s.Inv) : (s.boundary wid blk idx n).Inv := by
  induction n generalizing s with
  | zero => exact h
  | succ n ih =>
    unfold State.boundary
    split
    · exact h
    · exact .ite h (ih h.setPhaser.upd.endWaits.applyHeld)

theorem State.Inv.signal {p : Phaser} {m : Member} {k : StrandIx} {sw : Bool} (h : s.Inv) : (s.signal p m k sw).Inv :=
  .ite h.modMember.modStrand.boundary h.setPhaser.modStrand

theorem State.Inv.signalOp {k : State → Res} (h : s.Inv) (hk : ∀ u, u.Inv → (k u).Inv) : (signalOp s k).Inv :=
  h.afterMemPasses (hk _ h)

theorem State.Inv.runPhinit {x : DA} (h : s.Inv) : (runPhinit x s).Inv := by
  unfold Machine.runPhinit
  refine Res.Inv.map ?_ fun _ hu => hu.sided
  dsimp only
  split
  · exact .trap h
  · exact .ite (.trap h) (.ite (.trap h) (.ite (.trap h) (.ok h.draw.setPhaser.wg)))

theorem State.Inv.runPhreg {x : PhRegA} (h : s.Inv) : (runPhreg x s).Inv := by
  unfold Machine.runPhreg
  refine Res.Inv.map ?_ fun _ hu => hu.sided
  dsimp only
  split
  · exact .trap h
  · refine .ite (.trap h) ?_
    split
    · exact .trap h
    · exact .ok h.upd.wg

theorem State.Inv.runPhdrop {a : GReg} (h : s.Inv) : (runPhdrop a s).Inv := by
  unfold Machine.runPhdrop
  refine Res.Inv.map (h.signalOp fun _ hu => ?_) fun _ hu => hu.sided
  dsimp only
  split
  · exact .trap hu
  · split
    · exact .trap hu
    · exact .ok hu.upd
    · exact .ite (hu.releaseWait (fun _ hv => .ok hv.modMember.boundary)) (.ok hu.modMember)

theorem State.Inv.withdraw (h : s.Inv) : s.withdraw.Inv := h.upd

theorem State.Inv.signalTurn {h : Word} {ok : PhMode → Bool} {sw : Bool} {d : GReg} (hs : s.Inv) :
    (signalTurn s h ok sw d).Inv := by
  unfold Machine.signalTurn
  dsimp only
  split
  · exact .ok hs.wg
  · exact .trap hs
  · split
    · exact .trap hs.withdraw
    · exact .wait hs
  · split
    · exact .trap hs
    · refine .ite (.trap hs) (hs.releaseWait fun _ hu => ?_)
      split
      · exact .ok hu.signal.wg
      · exact .ok hu.signal.wg
      · exact .wait hu.signal
      · exact .wait hu.signal

theorem State.Inv.waitTurn {h : Word} {x : BitVec 32} {ok : PhMode → Bool} {sw : Bool} {d : GReg} (hs : s.Inv) :
    (waitTurn s h x ok sw d).Inv := by
  unfold Machine.waitTurn
  dsimp only
  split
  · exact .ok hs.wg
  · split
    · exact .ite (.trap hs) (.ite (.ok hs.wg) (.wait hs.upd))
    · exact .trap hs
  · split
    · exact .ite (.trap hs) (.ite (.ok hs.wg) (.wait hs.upd))
    · exact .trap hs
  · split
    · exact .trap hs
    · exact .ite (.trap hs) (.ite (.trap hs) (.ite (.ok hs.wg) (.wait hs.upd)))

theorem State.Inv.runPhsw {x : DA} (h : s.Inv) : (runPhsw x s).Inv := by
  unfold Machine.runPhsw
  refine Res.Inv.map (h.signalOp fun _ hu => ?_) fun _ hu => hu.sided
  split
  · exact hu.waitTurn
  · exact hu.waitTurn
  · exact hu.signalTurn

theorem State.Inv.setWire {w : Fin 16} {y : Wired} (h : s.Inv) : (s.setWire w y).Inv := .ite h.modTile h.upd

theorem State.Inv.arriveAt {w : Fin 16} {y : Wired} {i : Nat} (h : s.Inv) : (s.arriveAt w y i).Inv :=
  h.setWire.foldl fun _ _ hu => hu.modStrand

theorem State.Inv.wired {w : Fin 16} {k : Wired → Nat → Res} (h : s.Inv) (hk : ∀ x y, (k x y).Inv) :
    (wired s w k).Inv := .ite h.trapOf (hk _ _)

theorem State.Inv.runWarr {x : WArrA} (h : s.Inv) : (runWarr x s).Inv := by
  unfold Machine.runWarr
  refine Res.Inv.map ?_ fun _ hu => hu.sided
  split
  · exact .wait h
  · exact .ok h.wg
  · refine h.signalOp fun _ hu => ?_
    exact hu.wired fun _ _ => hu.releaseWait fun _ hv => .ite (.ok hv.arriveAt.wg) (.wait hv.setWire.upd)

theorem State.Inv.runWwait {x : WWaitA} (h : s.Inv) : (runWwait x s).Inv :=
  (h.wired (fun _ _ => .ite (.ok h.wg) (.wait h.upd))).map fun _ hu => hu.sided

/-! ## Messages and handlers -/

theorem State.Inv.sendWait {k : State → Res} (h : s.Inv) (hk : ∀ u, u.Inv → (k u).Inv) : (sendWait s k).Inv :=
  .ite (.wait h.markIssue) (.ite (hk _ h.markIssue) (.ite (hk _ h.markIssue.draw) (.wait h.markIssue.draw)))

theorem State.Inv.enqueue {try' : Bool} {k : State → Res} (h : s.Inv) (hk : ∀ u, u.Inv → (k u).Inv) :
    (enqueue s try' k).Inv := h.sendWait fun _ hu => .ite (.ite hu.trapOf (.wait hu)) (hk _ hu)

theorem State.Inv.pushSend {m : Msg} (h : s.Inv) : (pushSend s m).Inv := h.upd

theorem State.Inv.sendForm {a b : GReg} {n : Nat} {tag : BitVec 8} {rq : Option (BitVec 16)} {try' : Bool}
    (h : s.Inv) : (sendForm s a b n tag rq try').Inv := by
  unfold Machine.sendForm
  refine Res.Inv.map (h.memOp fun _ hu => .ite hu.illegalHere (.ite hu.trapOf ?_)) fun _ hu => hu.sided
  refine .ite hu.trapOf (.ite hu.trapOf (.ite hu.trapOf (.ite hu.trapOf (hu.enqueue fun _ hv => ?_))))
  split
  · exact .ok hv.upd.pushSend
  · exact .ok hv.pushSend

theorem State.Inv.runSendm {x : SendA} (h : s.Inv) : (runSendm x s).Inv := by
  unfold Machine.runSendm
  refine .ite h.illegalHere (.ite (.ok h.sided.setMempty) (h.memOp fun _ hu => ?_))
  exact .ite hu.trapOf (.ite hu.trapOf (hu.enqueue (fun _ hv => .ok hv.sided.setMempty.pushSend)))

theorem State.Inv.runHret {a : GReg} (h : s.Inv) : (runHret a s).Inv := by
  unfold Machine.runHret
  refine .ite h.illegalHere ?_
  split
  · exact .ite (.gone h.haltStrand) (.wait h)
  · refine h.workWait fun _ hu => .ite ?_ ?_
    · refine .gone (State.Inv.haltStrand (State.Inv.upd ?_))
      split
      · exact hu.reply
      · exact hu
    · refine .wait (State.Inv.upd ?_)
      split
      · exact hu.reply
      · exact hu

theorem State.Inv.setHandler {tag : BitVec 8} {f : Word → Word} (h : s.Inv) : (s.setHandler tag f).Inv :=
  h.modCore.refresh

theorem State.Inv.execSendQueueDrain {k : StrandIx} (h : s.Inv) : Out.Inv (execSendQueueDrain k s) := by
  unfold Machine.execSendQueueDrain
  split
  · exact h.eventStep
  · exact h.modStrand.modNet.eventStep

theorem State.Inv.takeMsg {c : CoreIx} {m : Msg} (h : s.Inv) : (s.takeMsg c m).Inv :=
  .ite h.dropMsg (.ite h.dropMsg h.modCore.refresh)

theorem State.Inv.execMessageArrival {n : Nat} (h : s.Inv) : Out.Inv (execMessageArrival n s) := by
  unfold Machine.execMessageArrival
  split
  · exact h.eventStep
  · exact .ite h.eventStep h.modNet.takeMsg.eventStep

/-! ## Codelets and futures -/

theorem State.Inv.push {p : Push} (h : s.Inv) : (s.push p).Inv := .ite h.modNet (.ite h.modCore.modNet h.modNet)

theorem State.Inv.refillRing {c : CoreIx} (h : s.Inv) : (s.refillRing c).Inv := by
  unfold State.refillRing
  refine .ite h ?_
  split
  · exact h
  · exact h.modNet.push

theorem State.Inv.execCodeletPush {n : Nat} (h : s.Inv) : Out.Inv (execCodeletPush n s) := by
  unfold Machine.execCodeletPush
  split
  · exact h.eventStep
  · exact .ite h.eventStep h.modNet.push.eventStep

theorem State.Inv.spawnForm {x : SpawnA} {pin : Bool} (h : s.Inv) : (spawnForm x pin s).Inv := by
  unfold Machine.spawnForm
  refine h.memOp fun _ hu => .ite (.trap hu) ?_
  split
  · exact .trap hu
  · refine hu.releaseWait fun _ hv => .ite (.wait hv) (.ite (.wait hv) (.ite (.wait hv) (.ite (.wait hv) ?_)))
    refine .ite (.ok hv.discarded.sided) (.ite ?_ (.ok hv.postOne.fresh.modNet.sided))
    exact .ok (State.Inv.ite hv.postOne.meetUpsets.perform.push hv.postOne.meetUpsets.perform.modNet).sided

theorem State.Inv.decAt {c : CoreIx} {off wid : Nat} (h : s.Inv) : (s.decAt c off wid).2.Inv := by
  unfold State.decAt
  dsimp only
  split
  · exact h.touchKeys.countCore
  · dsimp only
    split
    · exact h.touchKeys.performRmw.push
    · exact h.touchKeys.performRmw

theorem State.Inv.runDec {x : DAImm} (h : s.Inv) : (runDec x s).Inv := by
  unfold Machine.runDec
  dsimp only
  refine h.memOp fun _ hu => .ite (.trap hu) ?_
  split
  · exact .trap hu
  · refine hu.releaseWait fun _ hv => .ite (.wait hv) (.ite (.wait hv) ?_)
    exact .ite (.wait hv) (.ite (.wait hv) (.ite (.trap hv.meetUpsets) (.ok hv.meetUpsets.decAt.sided.wg)))

theorem State.Inv.withCell {a : Word} {k : State → Site → Word → Word → Res} (h : s.Inv)
    (hk : ∀ u x y z, u.Inv → (k u x y z).Inv) : (withCell s a k).Inv := by
  unfold Machine.withCell
  refine h.memOp fun _ hu => hu.walked fun _ hv => ?_
  split
  · exact .trap hv
  · refine .ite (.trap hv) (.ite (.wait hv) (.ite (.wait hv) (.ite (.wait hv) ?_)))
    exact .ite (.trap hv.meetUpsets) (.ite (.trap hv.meetUpsets) (hk _ _ _ _ hv.meetUpsets.fold))

theorem State.Inv.squash {a st : Word} (h : s.Inv) : (squash s a st).Inv := by
  unfold Machine.squash
  refine .ite h.trapOf (.ite h.trapOf ?_)
  exact .ite h.trapOf (.ite (.trap h) (.ite (.wait h) (.ite (.wait h) (.wait h.meetUpsets.performRmw.upd))))

theorem State.Inv.endSquash (h : s.Inv) : s.endSquash.Inv := .gone h.dropStrand.coreLeft
theorem State.Inv.lowerCount (h : s.Inv) : s.lowerCount.Inv := h.meetUpsets.performRmw

theorem State.Inv.registerWaiter {a : Word} (h : s.Inv) : (registerWaiter s a).Inv := by
  unfold Machine.registerWaiter
  refine .ite (.wait h) ?_
  split
  · exact .ite h.lowerCount.heldTrap (.trap h.lowerCount)
  · refine .ite (.wait h) (.ite (.wait h) ?_)
    refine .ite (.ite h.meetUpsets.lowerCount.heldTrap (.trap h.meetUpsets.lowerCount)) (.ite ?_ ?_)
    · exact .ite h.meetUpsets.fold.lowerCount.heldTrap (.trap h.meetUpsets.fold.lowerCount)
    · refine .ite h.meetUpsets.fold.decAt.endSquash (.ite ?_ h.meetUpsets.fold.performRmw.endSquash)
      exact .ite h.meetUpsets.fold.lowerCount.heldTrap (.trap h.meetUpsets.fold.lowerCount)

theorem State.Inv.runFutr {x : FutRA} (h : s.Inv) : (runFutr x s).Inv := by
  unfold Machine.runFutr
  split
  · exact h.registerWaiter
  · exact .ite (.wait h) (.trap h)
  · exact h.withCell fun _ _ _ _ hu => .ite (.ok hu.noteTags.wg) hu.squash

theorem State.Inv.runFutrT {x : FutRtA} (h : s.Inv) : (runFutrT x s).Inv :=
  h.withCell fun _ _ _ _ hu => .ite (.ok hu.noteTags.wg.wp) (.ok hu.wg.wp)

theorem State.Inv.decWaiter {w : Word} (h : s.Inv) : (s.decWaiter w).Inv := by
  unfold State.decWaiter
  split
  · exact h
  · exact .ite h h.decAt

theorem State.Inv.runFutw {x : DABImm} (h : s.Inv) : (runFutw x s).Inv := by
  unfold Machine.runFutw
  refine h.withCell fun _ _ _ _ hu => hu.releaseWait fun _ hv => .ite (.ok hv.sided.wg) ?_
  exact .ite (.wait hv) (.ok (State.Inv.ite hv.perform.decWaiter hv.perform).sided.wg)

/-! ## Copies and rings -/

theorem State.Inv.setRing {q : Ring} (h : s.Inv) : (s.setRing q).Inv := h.upd

theorem State.Inv.fillRing {r : Ring} {status : Word} {sync : Option SyncTag} (h : s.Inv) :
    (s.fillRing r status sync).Inv := h.setRing.foldl fun _ _ hu => .ite hu.modStrand hu

theorem State.Inv.runRinginit {x : DAB} (h : s.Inv) : (runRinginit x s).Inv := by
  unfold Machine.runRinginit
  refine Res.Inv.map ?_ fun _ hu => hu.sided
  dsimp only
  split
  · exact .trap h
  · exact .ite (.trap h) (.ite (.trap h) (.ite (.trap h) (.ite (.trap h) (.ok h.draw.setRing.wg))))

theorem State.Inv.runAwaitf {x : DAB} (h : s.Inv) : (runAwaitf x s).Inv := by
  unfold Machine.runAwaitf
  refine Res.Inv.map ?_ fun _ hu => hu.sided
  dsimp only
  split
  · exact .ok h.noteTags.wg
  · split
    · exact .trap h
    · refine .ite (.wait h.upd) ?_
      split
      · exact .ite (.trap h) (.ok h.noteTags.wg)
      · exact .trap h

theorem State.Inv.runRelslot {x : AB} (h : s.Inv) : (runRelslot x s).Inv := by
  unfold Machine.runRelslot
  refine Res.Inv.map (h.signalOp fun _ hu => ?_) fun _ hu => hu.sided
  dsimp only
  split
  · exact .trap hu
  · refine hu.releaseWait fun _ hv => ?_
    split
    · exact .trap hv
    · split
      · exact .ite (.trap hv) (.ok hv.setRing)
      · exact .trap hv

theorem State.Inv.runRingstat {x : DA} (h : s.Inv) : (runRingstat x s).Inv := by
  unfold Machine.runRingstat
  split
  · exact .trap h
  · exact .ok h.wg

theorem State.Inv.runRingstatCfg {x : DA} (h : s.Inv) : (runRingstatCfg x s).Inv := by
  unfold Machine.runRingstatCfg
  split
  · exact .trap h
  · exact .ok h.wg

theorem State.Inv.runCopyForm {x : CopyA} (h : s.Inv) : (Machine.runCopy x s).Inv := by
  unfold Machine.runCopy
  refine Res.Inv.map (h.memOp fun _ hu => .ite hu.illegalHere ?_) fun _ hv => hv.sided
  split
  · exact .trap hu
  · exact .ite (.wait hu) (.ok hu.modTile)

theorem State.Inv.copyWrite {c : CopyCmd} {n : Nat} {ws : List (Site × Nat)} (h : s.Inv) : (s.copyWrite c n ws).Inv := by
  induction n generalizing s ws with
  | zero =>
    unfold State.copyWrite
    exact h
  | succ n ih =>
    cases ws with
    | nil => exact h
    | cons w r =>
      obtain ⟨y, v⟩ := w
      unfold State.copyWrite
      split
      · exact .ite (ih h.discarded) (ih h.landWrite)
      · dsimp only
        split
        · exact h
        · exact ih h.landWrite

theorem State.Inv.meetCopyWalks {c : CopyCmd} {x : Ctx} {es : List CopyElem} (h : s.Inv) :
    (s.meetCopyWalks c x es).Inv := .ite h (h.foldl (fun _ _ hu => hu.meetWalkAs.meetWalkAs))

theorem State.Inv.readCopy {c : CopyCmd} (h : s.Inv) : (s.readCopy c).2.2.Inv := by
  unfold State.readCopy
  dsimp only
  split
  · exact h
  · split
    · exact h.meetCopyWalks
    · split <;> exact h.meetCopyWalks.meetUpsetsAs.fold

theorem State.Inv.lingerDone {c : CoreIx} (h : s.Inv) : (s.lingerDone c).Inv := by
  unfold State.lingerDone
  dsimp only
  split
  · exact .ite h.releaseCore h
  · exact h

theorem State.Inv.popCopy {t : Nat} (h : s.Inv) : (s.popCopy t).Inv := h.modTile.foldl fun _ _ hu => hu.lingerDone

theorem State.Inv.engineCopy {t : Nat} {c : CopyCmd} {q : Ring} (h : s.Inv) : (s.runCopy t c q).Inv := by
  unfold State.runCopy
  dsimp only
  split
  · exact .ite h.readCopy.copyWrite.fillRing.popCopy h.readCopy.fillRing.modTile
  · exact .ite h.readCopy.draw.copyWrite.fillRing.popCopy h.readCopy.draw.fillRing.modTile

theorem State.Inv.copyLate {t : Nat} {c : CopyCmd} {ws : List (Site × Nat)} (h : s.Inv) : (s.copyLate t c ws).Inv := by
  unfold State.copyLate
  exact h.upd.copyWrite.upd.popCopy

theorem State.Inv.copyTurn {t : Nat} {c : CopyCmd} {r : Ring} (h : s.Inv) : (s.copyTurn t c r).Inv :=
  .ite (.ite h h.setRing) (.ite h.setRing.modTile h.setRing.modTile.engineCopy)

theorem State.Inv.execCopyCommand {t : Nat} (h : s.Inv) : Out.Inv (execCopyCommand t s) := by
  unfold Machine.execCopyCommand
  split
  · exact h.eventStep
  · split
    · exact .ite h.eventStep h.copyLate.eventStep
    · exact h.copyTurn.eventStep
    · exact h.eventStep

/-! ## Streams -/

theorem State.Inv.dropPtrs {y : Stream} (h : s.Inv) : (s.dropPtrs y).Inv := h.upd.dropItems

theorem State.Inv.renameStream {y : Stream} {n : Nat} (h : s.Inv) : (s.renameStream y n).Inv :=
  (h.foldl (fun _ _ hu => .ite hu.modStrand hu)).upd

theorem State.Inv.dropFlight {y : Stream} (h : s.Inv) : (s.dropFlight y).Inv := h.modNet.dropItems
theorem State.Inv.removeStream {y : Stream} (h : s.Inv) : (s.removeStream y).Inv := h.dropPtrs.dropFlight.upd

theorem State.Inv.freeStream {y : Stream} (h : s.Inv) : (s.freeStream y).Inv :=
  .ite h.removeStream (.ite h.dropPtrs.dropFlight.fresh.renameStream h)

theorem State.Inv.sendItems {y : Stream} {dest : Option Nat} {is : List Item} (h : s.Inv) :
    (s.sendItems y dest is).Inv := h.modNet

theorem State.Inv.leavePtr {c : CoreIx} {y : Stream} {cut : Option Nat} (h : s.Inv) : (s.leavePtr c y cut).Inv :=
  h.modCore

theorem State.Inv.placeRecv {y : Stream} {p : Nat} (h : s.Inv) : (s.placeRecv y p).Inv :=
  (h.modCore.foldl (fun _ _ hu => hu.modCore)).setStream.sendItems

theorem State.Inv.homeMoves {y : Stream} (h : s.Inv) : (s.homeMoves y).Inv := by
  unfold State.homeMoves
  dsimp only
  split
  · exact .ite h.setStream.placeRecv h.setStream
  · exact h.setStream

theorem State.Inv.setQ {q : QReg} {b : QBind} (h : s.Inv) : (s.setQ q b).Inv := h.upd
theorem State.Inv.unbound {q : QReg} {sub : BitVec 8} (h : s.Inv) : (unbound s q sub).Inv := h.trapOf

theorem State.Inv.atHome {blk str : Nat} (h : s.Inv) : (s.atHome blk str).Inv := by
  unfold State.atHome
  split
  · exact h.homeMoves
  · exact h

theorem State.Inv.runSopen {x : SopenA} (h : s.Inv) : (runSopen x s).Inv := by
  unfold Machine.runSopen
  refine Res.Inv.map (.ite h.illegalHere (.ite h.trapOf (.ite (.trap h) (.ite (.trap h) ?_)))) fun _ hu => hu.sided
  dsimp only
  split
  · exact .trap h
  · exact .ok h.draw.draw.upd.wg.wg

theorem State.Inv.runQbind {x : QBindA} (h : s.Inv) : (runQbind x s).Inv := by
  unfold Machine.runQbind
  refine Res.Inv.map (.ite h.unbound ?_) fun _ hu => hu.sided
  split
  · exact .trap h
  · exact .ite (.ok h.setQ.placeRecv) (.ok h.setQ.setStream)

theorem State.Inv.runQunbind {x : QDA} (h : s.Inv) : (runQunbind x s).Inv := by
  unfold Machine.runQunbind
  refine Res.Inv.map ?_ fun _ hu => hu.sided
  split
  · exact h.unbound
  · exact .ok h.setQ.wg
  · dsimp only
    split
    · exact .ok h.atHome.setQ.wg
    · refine .ite (.trap h.atHome) (.ite (.wait h.atHome) ?_)
      exact .ok (State.Inv.ite h.atHome.draw.setQ.leavePtr.setStream h.atHome.draw.setQ.setStream).wg

theorem State.Inv.streamGone {h : Word} (hs : s.Inv) : (streamGone s h).Inv := hs.trapOf

theorem State.Inv.lqTurn {n : Nat} {recv ready : Bool} {k : State → Res} (h : s.Inv) (hk : ∀ u, u.Inv → (k u).Inv) :
    (lqTurn s n recv ready k).Inv := .ite (hk _ h.modCore) (.wait h.modCore)

theorem State.Inv.handleMark {mark : Bool} {h : Word} {k : State → Res} (hs : s.Inv) (hk : ∀ u, u.Inv → (k u).Inv) :
    (handleMark s mark h k).Inv := by
  unfold Machine.handleMark
  refine .ite (hk _ hs) ?_
  split
  · exact .trap hs
  · exact hk _ hs

theorem State.Inv.qsendForm {x : QSendA} {mark : Bool} (h : s.Inv) : (qsendForm x mark s).Inv := by
  unfold Machine.qsendForm
  refine Res.Inv.map ?_ fun _ hu => hu.sided
  split
  · exact h.unbound
  · refine h.signalOp fun _ hu => .ite hu.draw.trapOf ?_
    exact hu.handleMark fun _ hv => hv.releaseWait fun _ hw => hw.lqTurn fun _ hx => .ok hx.modCore
  · refine h.signalOp fun _ hu => ?_
    split
    · exact hu.streamGone
    · refine .ite (.trap hu) (.ite hu.trapOf (hu.handleMark fun _ hv => .ite hv.trapOf ?_))
      exact .ite hv.trapOf (hv.releaseWait (fun _ hw => .ite (.wait hw) (.ok hw.setStream.sendItems)))

theorem State.Inv.runQrecv {x : QRecvA} (h : s.Inv) : (runQrecv x s).Inv := by
  unfold Machine.runQrecv
  refine Res.Inv.map ?_ fun _ hu => hu.sided
  split
  · exact h.unbound
  · exact .ite h.draw.trapOf (h.lqTurn (fun _ hu => .ok hu.modCore.wg.wp))
  · split
    · exact h.streamGone
    · refine .ite (.trap h) (.ite h.trapOf ?_)
      split
      · exact .ok h.setStream.modNet.noteTags.wg.wp
      · refine .ite (.ok (State.Inv.wp (State.Inv.wg ?_))) (.ite h.trapOf (.wait h))
        split
        · exact h.noteTags
        · exact h

theorem State.Inv.closeEnd {y : Stream} {recv : Bool} (h : s.Inv) : (s.closeEnd y recv).Inv :=
  .ite h.setStream.dropPtrs.dropItems.freeStream h.setStream.freeStream

theorem State.Inv.closing {recv : Bool} {k : State → Res} (h : s.Inv) (hk : ∀ u, u.Inv → (k u).Inv) :
    (closing s recv k).Inv := .ite (hk _ h) (h.releaseWait (fun _ hu => hk _ hu))

theorem State.Inv.runSclose {q : QReg} (h : s.Inv) : (runSclose q s).Inv := by
  unfold Machine.runSclose
  refine Res.Inv.map ?_ fun _ hu => hu.sided
  split
  · exact h.unbound
  · exact .ok h.setQ
  · refine h.signalOp fun _ hu => ?_
    dsimp only
    split
    · exact .ok hu.atHome.setQ
    · exact .ite (.trap hu.atHome) (hu.atHome.closing (fun _ hv => .ok hv.setQ.closeEnd))

theorem State.Inv.runScloseU {a : GReg} (h : s.Inv) : (runScloseU a s).Inv := by
  unfold Machine.runScloseU
  refine Res.Inv.map (h.signalOp fun _ hu => ?_) fun _ hu => hu.sided
  dsimp only
  split
  · exact .trap hu
  · exact hu.closing fun _ hv => .ok hv.closeEnd

theorem State.Inv.departEnd {b : QBind} {c target : CoreIx} (h : s.Inv) : (s.departEnd b c target).Inv := by
  unfold State.departEnd
  split
  · split
    · exact h
    · exact .ite h.leavePtr.setStream h.setStream
  · exact h

theorem State.Inv.arriveEnd {k : StrandIx} {w : Nat} {b : QBind} (h : s.Inv) : (s.arriveEnd k w b).Inv := by
  unfold State.arriveEnd
  split
  · split
    · exact h
    · dsimp only
      split
      · exact h.homeMoves
      · exact h.homeMoves.setStream
  · exact h

theorem State.Inv.redirectEnd {w : Nat} {c new : CoreIx} {b : QBind} (h : s.Inv) : (s.redirectEnd w c new b).Inv := by
  unfold State.redirectEnd
  split
  · split
    · exact h
    · exact .ite h.setStream (State.Inv.ite h.dropItems.modNet h).upd.setStream
  · exact h

theorem State.Inv.itemAt {k : ItemPkt} (h : s.Inv) : (s.itemAt k).Inv := by
  unfold State.itemAt
  split
  · exact h.dropItem
  · refine .ite h.dropItem ?_
    split
    · split
      · exact h.sendItems
      · exact h.setStream
    · refine .ite h.dropItem.modNet (.ite h.setStream ?_)
      split
      · exact .ite h.sendItems h.modCore
      · exact h.sendItems

theorem State.Inv.execStreamItemArrival {n : Nat} (h : s.Inv) : Out.Inv (execStreamItemArrival n s) := by
  unfold Machine.execStreamItemArrival
  split
  · exact h.eventStep
  · exact h.modNet.itemAt.eventStep

theorem State.Inv.frameTo {p q : Nat} {frame : List Byte} {y : Stream} (h : s.Inv) : (s.frameTo p q frame y).Inv :=
  h.meetUpsetsAt.perform.setStream.sendItems

theorem State.Inv.flushFrames {p q : Nat} {fs : List (Nat × Nat × List Byte)} (h : s.Inv) :
    (State.flushFrames p q fs s).Inv := by
  induction fs generalizing s with
  | nil => exact h
  | cons f r ih =>
    unfold State.flushFrames
    refine .ite (ih h) ?_
    split
    · exact ih h.upd.frameTo
    · exact h

theorem State.Inv.flushPair {p q : Nat} (h : s.Inv) : (s.flushPair p q).Inv := h.flushFrames

theorem State.Inv.execStreamCreditArrival {n : Nat} (h : s.Inv) : Out.Inv (execStreamCreditArrival n s) := by
  unfold Machine.execStreamCreditArrival
  split
  · exact h.eventStep
  · dsimp only
    split
    · exact h.modNet.eventStep
    · exact (State.Inv.ite h.modNet.setStream.flushPair h.modNet.setStream).eventStep

theorem State.Inv.execStreamMove {n : Nat} (h : s.Inv) : Out.Inv (execStreamMove n s) := by
  unfold Machine.execStreamMove
  split
  · exact h.eventStep
  · exact h.homeMoves.eventStep

theorem State.Inv.execPointerRetire {c : CoreIx} {n : Nat} (h : s.Inv) : Out.Inv (execPointerRetire c n s) := by
  unfold Machine.execPointerRetire
  split
  · exact h.eventStep
  · split
    · refine .ite h.eventStep ?_
      dsimp only
      split
      · exact h.modCore.eventStep
      · exact .ite h.modCore.setStream.eventStep h.modCore.eventStep
    · exact h.eventStep

theorem State.Inv.orphan {o : Orphan} (h : s.Inv) : (s.orphan o).Inv := by
  unfold State.orphan
  split
  · exact h
  · refine .ite h.setStream.dropPtrs.freeStream (.ite ?_ ?_)
    · exact .ite h.setStream.freeStream h.setStream.dropPtrs.dropItems.freeStream
    · exact .ite h (.ite h.setStream.freeStream h.setStream.freeStream)

theorem State.Inv.execStreamOrphan {n : Nat} (h : s.Inv) : Out.Inv (execStreamOrphan n s) := by
  unfold Machine.execStreamOrphan
  split
  · exact h.eventStep
  · exact h.modNet.orphan.eventStep

/-! ## Shuttle mode -/

theorem State.Inv.launchShuttle {h : Shuttle} (hs : s.Inv) : (s.launchShuttle h).Inv := hs.modNet
theorem State.Inv.holdShuttle {h : Shuttle} (hs : s.Inv) : (s.holdShuttle h).Inv := .ite hs.modPart hs.launchShuttle

theorem State.Inv.depart {t : Word} {seg : Nat} {target : CoreIx} {p : LivePfx} {link : Option GReg} (h : s.Inv) :
    (s.depart t seg target p link).Inv := by
  unfold State.depart
  refine State.Inv.refresh (State.Inv.freeSlot (.ite ?_ ?_))
  · refine State.Inv.launchShuttle (State.Inv.foldl (State.Inv.upd ?_) fun _ _ hu => hu.departEnd)
    split
    · exact h.wg
    · exact h
  · refine State.Inv.holdShuttle (State.Inv.foldl (State.Inv.upd ?_) fun _ _ hu => hu.departEnd)
    split
    · exact h.wg
    · exact h

theorem State.Inv.travel {t : Word} {link : Option GReg} {live : Option LivePfx} (h : s.Inv) :
    (travel s t link live).Inv := by
  unfold Machine.travel
  refine .ite ?_ ?_
  · refine State.Inv.transfer ?_
    split
    · exact h.wg
    · exact h
  · split
    · exact .ite (.wait h) (.trap h)
    · refine .ite h.trapOf (.ite h.trapOf (.ite h.trapOf (.ite h.heldTrap (.ite h.trapOf (.ite h.trapOf ?_)))))
      refine .ite h.trapOf ?_
      split
      · exact h.trapOf
      · split
        · exact h.trapOf
        · split
          · exact h.trapOf
          · exact .ite h.trapOf (.ite (.wait h) (h.fenceStWait (fun _ hu => .ite (.wait hu) (.gone hu.depart))))

theorem State.Inv.placeShuttle {k : StrandIx} {h : Shuttle} {overflow : Bool} (hs : s.Inv) :
    (s.placeShuttle k h overflow).Inv := by
  unfold State.placeShuttle
  split
  · exact hs
  · dsimp only
    split
    · refine State.Inv.switchTo (State.Inv.takeTrap (State.Inv.switchTo ?_))
      exact (State.Inv.ite hs.modCore.orphanEnds (hs.modCore.foldl (fun _ _ hu => hu.arriveEnd))).occupy.setStrand
    · refine .ite ?_ ?_
      · refine State.Inv.switchTo (State.Inv.takeTrap (State.Inv.switchTo ?_))
        exact (State.Inv.ite hs.modCore.orphanEnds (hs.modCore.foldl (fun _ _ hu => hu.arriveEnd))).occupy.setStrand
      · exact (State.Inv.ite hs.modCore.orphanEnds (hs.modCore.foldl (fun _ _ hu => hu.arriveEnd))).startStrand

theorem State.Inv.execShuttleArrival {n : Nat} (h : s.Inv) : Out.Inv (execShuttleArrival n s) := by
  unfold Machine.execShuttleArrival
  split
  · exact h.eventStep
  · exact .ite h.modNet.modCore.eventStep h.modNet.eventStep

theorem State.Inv.writeShed {lo : Nat} (h : s.Inv) : (s.writeShed lo).Inv := h.upd

theorem State.Inv.execShuttleShed {n : Nat} (h : s.Inv) : Out.Inv (execShuttleShed n s) := by
  unfold Machine.execShuttleShed
  split
  · exact h.eventStep
  · split
    · exact h.eventStep
    · exact .ite h.eventStep (.ite h.modNet.writeShed.modCore.eventStep (.ite h.modNet.modPart.eventStep h.eventStep))

theorem State.Inv.execShedRefill {c : CoreIx} (h : s.Inv) : Out.Inv (execShedRefill c s) := by
  unfold Machine.execShedRefill
  dsimp only
  split
  · exact h.eventStep
  · exact .ite h.eventStep h.meetRangeAs.modCore.eventStep

theorem State.Inv.execOccupancyReport {c : CoreIx} (h : s.Inv) : Out.Inv (execOccupancyReport c s) :=
  .ite h.eventStep h.modCore.eventStep

theorem State.Inv.withSegment {ga : Word} {k : Segment → Res} (h : s.Inv) (hk : ∀ x, (k x).Inv) :
    (withSegment s ga k).Inv := by
  unfold Machine.withSegment
  split
  · exact h.trapOf
  · exact hk _

theorem State.Inv.segHeat {x : DA} {clr : Bool} (h : s.Inv) : (segHeat x clr s).Inv :=
  h.withSegment fun _ => .ok (State.Inv.ite (h.foldl (fun _ _ hu => hu.modCore)) h).wg

theorem State.Inv.takeCore {w : Weave} {c : CoreIx} {pin : Option Nat} (h : s.Inv) : (s.takeCore w c pin).Inv :=
  (State.Inv.ite h h.zeroRange).passTo.modCore

theorem State.Inv.touchImage {w : Weave} {c : CoreIx} {k : Nat} (h : s.Inv) : (s.touchImage w c k).Inv := by
  unfold State.touchImage
  refine .ite h (h.foldl fun _ _ hu => ?_)
  dsimp only
  split
  · exact hu.meetWalkAs.touchAs
  · exact hu.meetWalkAs

theorem State.Inv.wireCore {w : Weave} {c : CoreIx} (h : s.Inv) : (s.wireCore w c).Inv :=
  .ite (State.Inv.ite h.modTile h).upd (.ite h.modTile h)

theorem State.Inv.detach {w : Weave} {c : CoreIx} (h : s.Inv) : (s.detach w c).Inv :=
  .ite (h.foldl (fun _ _ hu => hu.dropMsg)).zeroRange.freeCore h

theorem State.Inv.detachSaved {w : Weave} {c : CoreIx} (h : s.Inv) : (s.detachSaved w c).Inv := h.modNet.upd

theorem State.Inv.segRep {x : AB} {del : Bool} (h : s.Inv) : (segRep x del s).Inv := by
  unfold Machine.segRep
  refine h.requireSys ?_
  dsimp only
  split
  · exact .trap h
  · refine .ite (.trap h) ?_
    split
    · exact h.trapOf
    · split
      · exact .trap h
      · refine .ite (.ite (.trap h) (.ite (.trap h) (.ok h.detach.detachSaved.setWeave))) ?_
        exact .ite (.trap h) (.ite (.trap h) (.ite (.trap h) (.ok h.touchImage.takeCore.wireCore.setWeave)))

/-! ## Homes and replies -/

theorem State.Inv.execLineRefetch {k : StrandIx} (h : s.Inv) : Out.Inv (execLineRefetch k s) := by
  unfold Machine.execLineRefetch
  dsimp only
  split
  · exact h.eventStep
  · refine State.Inv.eventStep (State.Inv.switchTo ?_)
    split
    · rename_i e
      exact .ite h.switchTo (h.switchTo.refetchLine.of_fst e).upd.takeTrap
    · rename_i e
      split
      · exact .ite h.switchTo (h.switchTo.refetchLine.of_fst e).upd.takeTrap
      · exact (h.switchTo.refetchLine.of_fst e).upd.keepLine

theorem State.Inv.execSleepExpiry {k : StrandIx} (h : s.Inv) : Out.Inv (execSleepExpiry k s) := by
  unfold Machine.execSleepExpiry
  split
  · exact .ite h.modStrand.eventStep h.eventStep
  · exact h.eventStep

theorem State.Inv.takeReq {n : Nat} (h : s.Inv) : (s.takeReq n).Inv := h.modNet
theorem State.Inv.ack {a : Ack} (h : s.Inv) : (s.ack a).Inv := h.modNet
theorem State.Inv.ackReq {r : NetReq} (h : s.Inv) : (s.ackReq r).Inv := h.foldl fun _ _ hu => hu.ack

theorem State.Inv.noteDropped {r : NetReq} {bs : List (Nat × Byte)} (h : s.Inv) : (s.noteDropped r bs).Inv :=
  .ite h.modNet h

theorem State.Inv.execHomeAccess {n : Nat} (h : s.Inv) : Out.Inv (execHomeAccess n s) := by
  unfold Machine.execHomeAccess
  split
  · exact h.eventStep
  · split
    · exact h.eventStep
    · refine .ite h.eventStep ?_
      split <;> exact h.takeReq.serveOf.modNet.eventStep
    · refine .ite h.eventStep ?_
      exact (State.Inv.ite h.takeReq.noteDropped.landWrite h.takeReq.noteDropped.landWrite.ackReq).eventStep
    · exact .ite h.eventStep (.ite h.takeReq.landWrite.push.eventStep h.takeReq.landWrite.ack.eventStep)

theorem State.Inv.execAtomicAtHome {n : Nat} (h : s.Inv) : Out.Inv (execAtomicAtHome n s) := by
  unfold Machine.execAtomicAtHome
  split
  · exact h.eventStep
  · split
    · exact .ite h.eventStep (.ite h.takeReq.modNet.eventStep h.takeReq.doAtomOf.modNet.eventStep)
    · exact h.eventStep

theorem State.Inv.execLoadReply {n : Nat} (h : s.Inv) : Out.Inv (execLoadReply n s) := by
  unfold Machine.execLoadReply
  split
  · exact h.eventStep
  · refine .ite h.modNet.eventStep ?_
    split
    · exact h.modNet.setStrand.eventStep
    · exact h.modNet.setStrand.eventStep
    · exact h.modNet.eventStep

theorem State.Inv.execPostedWriteAck {n : Nat} (h : s.Inv) : Out.Inv (execPostedWriteAck n s) := by
  unfold Machine.execPostedWriteAck
  split
  · exact h.eventStep
  · exact h.modNet.modCore.lingerDone.eventStep

theorem State.Inv.execWaitaWake {n : Nat} (h : s.Inv) : Out.Inv (execWaitaWake n s) := by
  unfold Machine.execWaitaWake
  split
  · exact h.eventStep
  · exact .ite h.modNet.setStrand.eventStep h.modNet.eventStep

theorem State.Inv.execTaggedLoadReply {n : Nat} (h : s.Inv) : Out.Inv (execTaggedLoadReply n s) := by
  unfold Machine.execTaggedLoadReply
  split
  · exact h.eventStep
  · exact .ite h.eventStep h.modNet.landTags.land.eventStep

theorem State.Inv.execTaggedLoadFault {n : Nat} (h : s.Inv) : Out.Inv (execTaggedLoadFault n s) := by
  unfold Machine.execTaggedLoadFault
  split
  · exact h.eventStep
  · split
    · exact h.eventStep
    · exact .ite h.eventStep (State.Inv.ite h.modNet.land h.modNet).eventStep

theorem State.Inv.redExact {p : RedPkt} (h : s.Inv) : (s.redExact p).Inv :=
  .ite h.meetUpsetsAs.discarded h.meetUpsetsAs.perform.upd

theorem State.Inv.execRedAtHome {n : Nat} (h : s.Inv) : Out.Inv (execRedAtHome n s) := by
  unfold Machine.execRedAtHome
  split
  · exact h.eventStep
  · refine .ite h.eventStep (State.Inv.eventStep (State.Inv.foldl ?_ fun _ _ hu => hu.ack))
    refine .ite ?_ (.ite h.modNet.redExact h.modNet.redWord)
    split
    · exact h.modNet.discarded
    · exact h.modNet

theorem State.Inv.execRedMerge {n m : Nat} (h : s.Inv) : Out.Inv (execRedMerge n m s) := by
  unfold Machine.execRedMerge
  split
  · exact .ite h.eventStep h.modNet.eventStep
  · exact h.eventStep

theorem State.Inv.execRedHoldExpiry {n : Nat} (h : s.Inv) : Out.Inv (execRedHoldExpiry n s) := by
  unfold Machine.execRedHoldExpiry
  split
  · exact h.eventStep
  · split
    · exact h.eventStep
    · exact .ite h.eventStep h.modNet.eventStep

theorem State.Inv.execGangForm {k : StrandIx} (h : s.Inv) : Out.Inv (execGangForm k s) := h.tryFormGang.eventStep

theorem State.Inv.execLoomOpComplete {c : CoreIx} (h : s.Inv) : Out.Inv (execLoomOpComplete c s) :=
  h.completeLoom.eventStep

/-! ## The dispatcher -/

theorem State.Inv.promoteTasks {c : CoreIx} (h : s.Inv) : (s.promoteTasks c).Inv := h.modCore

theorem State.Inv.execTaskPromotion {c : CoreIx} (h : s.Inv) : Out.Inv (execTaskPromotion c s) :=
  h.promoteTasks.eventStep

theorem State.Inv.startMsg {k : StrandIx} {i : Nat} (h : s.Inv) : (s.startMsg k i).Inv := by
  unfold State.startMsg
  dsimp only
  split
  · exact h
  · split
    · exact h
    · exact h.modCore.refresh.startStrand

theorem State.Inv.startCodelet {k : StrandIx} {v : CoreIx} {i : Nat} (h : s.Inv) : (s.startCodelet k v i).Inv := by
  unfold State.startCodelet
  split
  · exact h
  · refine .ite h ?_
    dsimp only
    split
    · exact h.modCore.refillRing.meetUpsetsAs.fold
    · refine .ite ?_ ?_
      · exact h.modCore.refillRing.meetUpsetsAs.fold.countCore.coreIdle
      · exact h.modCore.refillRing.meetUpsetsAs.fold.startStrand.coreIdle

theorem State.Inv.startTask {c : CoreIx} {slot : Nat} {a : Task} (h : s.Inv) : (s.startTask c slot a).Inv := by
  unfold State.startTask
  split
  · exact h.startMsg
  · split
    · exact h
    · exact h.modCore.placeShuttle
  · dsimp only
    split
    · exact h
    · exact h.modPart.placeShuttle
  · exact h.startCodelet
  · exact h.modCore.startCodelet

theorem State.Inv.execDispatch {c : CoreIx} (h : s.Inv) : Out.Inv (execDispatch c s) := by
  unfold Machine.execDispatch
  refine .ite h.eventStep ?_
  dsimp only
  split
  · exact h.promoteTasks.startTask.eventStep
  · exact h.promoteTasks.eventStep

/-! ## Launches -/

theorem State.Inv.touchAt {x : Ctx} {pos : Word} {k : AccKind} {a : Word} {n : Nat} (h : s.Inv) :
    (s.touchAt x pos k a n).Inv := by
  unfold State.touchAt
  dsimp only
  split
  · exact h.meetWalkAs.touchAs
  · exact h.meetWalkAs

theorem State.Inv.touch {x : Ctx} {pos a : Word} {n : Nat} (h : s.Inv) : (s.touch x pos a n).Inv :=
  .ite h (h.foldl (fun _ _ hu => hu.touchAt))

theorem State.Inv.touchExtras {x : Ctx} {pos : Word} {ws : List Word} (h : s.Inv) : (s.touchExtras x pos ws).Inv := by
  unfold State.touchExtras
  refine .ite h (.ite ?_ ?_)
  · refine State.Inv.touch (.ite h ?_)
    dsimp only
    split
    · exact .ite h.touch h.touch.touch
    · exact h.touch
  · refine .ite h ?_
    dsimp only
    split
    · exact .ite h.touch h.touch.touch
    · exact h.touch

theorem State.Inv.enterPool {part root : Nat} {ws : List Word} {parent : Option Nat} {borrowed : Bool} {queue : Nat}
    (h : s.Inv) : (s.enterPool part root ws parent borrowed queue).2.Inv := h.upd

theorem State.Inv.rejectLaunch {w : Weave} {code : Nat} (h : s.Inv) : (s.rejectLaunch w code).Inv :=
  h.leavePool.writeDone.childEnds

theorem State.Inv.rejectRecord {part root : Nat} {ws : List Word} {code : Nat} (h : s.Inv) :
    (s.rejectRecord part root ws code).Inv := h.writeDone

theorem State.Inv.touchQueues {part : Nat} (h : s.Inv) : (s.touchQueues part).Inv :=
  h.foldl fun _ _ hu => hu.touchAs

theorem State.Inv.takeEntry {part q : Nat} (h : s.Inv) : (s.takeEntry part q).Inv := by
  unfold State.takeEntry
  refine .ite h.touchAs.rejectRecord.perform ?_
  dsimp only
  split
  · exact h.touchAs.touchExtras.rejectRecord.perform
  · exact h.touchAs.touchExtras.enterPool.perform

theorem State.Inv.takeEntries {part n : Nat} (h : s.Inv) : (State.takeEntries s part n).Inv := by
  induction n generalizing s with
  | zero => exact h
  | succ n ih =>
    unfold State.takeEntries
    refine .ite h ?_
    dsimp only
    split
    · exact h.touchQueues
    · exact ih h.touchQueues.takeEntry.modPart

theorem State.Inv.takeQueues (h : s.Inv) : s.takeQueues.Inv := h.foldl fun _ _ hu => .ite hu.takeEntries hu

theorem State.Inv.execDbq {v : BitVec 6} (h : s.Inv) : Out.Inv (execDbq v s) :=
  .ite h.eventStep (.ite h.touchAs.modPart.takeEntries.eventStep h.touchAs.eventStep)

theorem State.Inv.wireUp {w : Weave} (h : s.Inv) : (s.wireUp w).Inv :=
  (h.foldl (fun _ _ hu => hu.modTile)).foldl fun _ _ hu => hu.upd

theorem State.Inv.startTeam {w : Weave} {c : CoreIx} (h : s.Inv) : (s.startTeam w c).Inv :=
  h.foldl fun _ _ hu => hu.startStrand

theorem State.Inv.placeWeave {w : Weave} (h : s.Inv) : (s.placeWeave w).Inv := by
  unfold State.placeWeave
  refine State.Inv.foldl (State.Inv.wireUp (State.Inv.foldl ?_ fun _ _ hu => hu.takeCore)) fun _ _ hu => hu.startTeam
  refine State.Inv.zeroVault (State.Inv.setWeave ?_)
  split
  · exact .ite h.upd h
  · exact h

theorem State.Inv.touchImages {w : Weave} {segs : List Segment} (h : s.Inv) : (s.touchImages w segs).Inv :=
  .ite h (h.foldl (fun _ _ hu => hu.foldl (fun _ _ hv => hv.foldl (fun _ _ hw => hw.touchAt))))

theorem State.Inv.execLaunchPlacement {choice : List DieChoice} {vb : Nat} (h : s.Inv) :
    Out.Inv (execLaunchPlacement choice vb s) := by
  unfold Machine.execLaunchPlacement
  split
  · exact h.eventStep
  · dsimp only
    split
    · exact h.touchExtras.touchImages.rejectLaunch.takeQueues.eventStep
    · exact .ite h.touchExtras.touchImages.placeWeave.takeQueues.eventStep h.touchExtras.touchImages.eventStep

theorem State.Inv.launchEntry {b : Bool} (h : s.Inv) (e : s.launchEntry = some (b, t)) : t.Inv := by
  unfold State.launchEntry at e
  split at e
  · cases e; exact h
  · split at e
    · split at e
      · contradiction
      · cases e; exact h.setWeave
    · contradiction

theorem State.Inv.launchForm {x : DA} {wait : Bool} (h : s.Inv) : (launchForm x wait s).Inv := by
  unfold Machine.launchForm
  split
  · exact .wait h
  · exact .ok h.wg
  · refine h.memOp fun _ hu => .ite hu.trapOf (hu.releaseWait fun _ hv => hv.walked fun _ hw => ?_)
    dsimp only
    split
    · exact .trap hw.touch
    · exact .ok hw.touch.sided.wg
    · split
      · exact .ok hw.touch.touchExtras.sided.wg
      · split
        · exact hw.touch.touchExtras.trapOf
        · rename_i e
          refine .ite ?_ (.ok (hw.touch.touchExtras.launchEntry e).enterPool.sided.wg)
          exact .wait (hw.touch.touchExtras.launchEntry e).enterPool.sided.wg.upd

theorem State.Inv.discardStrand {k : StrandIx} (h : s.Inv) : (s.discardStrand k).Inv := by
  unfold State.discardStrand
  refine State.Inv.freeSlot (State.Inv.orphanEnds ?_)
  split
  · exact h.faultReply
  · exact h

theorem State.Inv.discardShuttles {wid : Nat} (h : s.Inv) : (s.discardShuttles wid).Inv :=
  (h.foldl (fun _ _ hu => hu.orphanEnds)).upd

theorem State.Inv.linger {c : CoreIx} (h : s.Inv) : (s.linger c).Inv :=
  ((h.foldl (fun _ _ hu => hu.dropMsg)).foldl (fun _ _ hu => hu.foldl (fun _ _ hv => hv.modTile))).modCore

theorem State.Inv.dropPushes {wid : Nat} (h : s.Inv) : (s.dropPushes wid).Inv := h.modNet

theorem State.Inv.stopWeave {w : Weave} (h : s.Inv) : (s.stopWeave w).Inv := by
  unfold State.stopWeave
  refine State.Inv.foldl (State.Inv.upd ?_) fun _ _ hu => hu.linger.lingerDone
  exact (h.foldl (fun _ _ hu => hu.discardStrand)).discardShuttles.dropPushes.foldl fun _ _ hu => hu.reply

theorem State.Inv.runExit {code : BitVec 8} (h : s.Inv) : (runExit code s).Inv := by
  unfold Machine.runExit
  refine h.afterMemPasses (h.releaseWait fun _ hu => ?_)
  dsimp only
  split
  · refine .gone (State.Inv.haltStrand ?_)
    split
    · exact hu.reply.upd
    · exact hu
  · refine .gone (State.Inv.stopWeave (State.Inv.setWeave ?_))
    split
    · exact hu.reply.upd
    · exact hu

theorem State.Inv.execWeaveEnd {wid : Nat} (h : s.Inv) : Out.Inv (execWeaveEnd wid s) := by
  unfold Machine.execWeaveEnd
  split
  · exact h.eventStep
  · exact .ite h.endWeave.takeQueues.eventStep h.eventStep

/-! ## Contexts -/

theorem State.Inv.saveStrand {k : StrandIx} (h : s.Inv) : (s.saveStrand k).Inv := h.freeSlot

theorem State.Inv.clearWeave {w : Weave} {sv : Save} (h : s.Inv) : (s.clearWeave w sv).Inv :=
  ((h.upd.foldl (fun _ _ hu => hu.saveStrand)).foldl (fun _ _ hu => hu.zeroRange.emptyCore)).zeroVault.dropObjects

theorem State.Inv.readShed {w : Weave} (h : s.Inv) : (s.readShed w).Inv :=
  h.foldl fun _ _ hu => hu.foldl fun _ _ hv => .ite hv.meetRangeAs.modCore hv.meetRangeAs

theorem State.Inv.performSave {w : Weave} {addr : Nat} {swapped : Bool} (h : s.Inv) :
    (s.performSave w addr swapped).Inv :=
  (h.foldl (fun _ _ hu => hu.meetUpsetAs)).readShed.loseSaves.writeArea.clearWeave.upd.setWeave

theorem State.Inv.saveForm {x : DAB} {swap : Bool} (h : s.Inv) : (saveForm x swap s).Inv := by
  unfold Machine.saveForm
  refine h.requireSys ?_
  split
  · exact .trap h
  · refine .ite (.trap h) (.ite (.trap h) (.ite (.ok h.wg) ?_))
    exact .ite (.wait h.setWeave) (.ite (.gone h.setWeave.upd.performSave) (.ok h.setWeave.performSave.wg))

theorem State.Inv.runSavectxSize {x : DAB} (h : s.Inv) : (runSavectxSize x s).Inv := by
  unfold Machine.runSavectxSize
  refine h.requireSys ?_
  split
  · exact .trap h
  · exact .ok h.wg

theorem State.Inv.execDrainExpiry {part : Nat} (h : s.Inv) : Out.Inv (execDrainExpiry part s) := by
  unfold Machine.execDrainExpiry
  split
  · exact h.eventStep
  · refine .ite h.eventStep ?_
    dsimp only
    split
    · exact h.eventStep
    · exact .ite h.setWeave.eventStep (.ite h.setWeave.eventStep h.setWeave.takeArea.performSave.eventStep)

theorem State.Inv.restoreStrand {k : StrandIx} {x : Strand} (h : s.Inv) : (s.restoreStrand k x).Inv :=
  h.setStrand.foldl fun _ _ hu => hu.modStrand.sendEntry

theorem State.Inv.notifyStrand {k : StrandIx} (h : s.Inv) : (s.notifyStrand k).Inv :=
  .ite h h.setStrand.switchTo.takeTrap.switchTo

theorem State.Inv.resend {w : Weave} {h : Shuttle} (hs : s.Inv) : (s.resend w h).Inv := by
  unfold State.resend
  split
  · exact (hs.foldl (fun _ _ hu => hu.redirectEnd)).launchShuttle
  · exact hs.holdShuttle

theorem State.Inv.write {bs : List (Nat × Byte)} (h : s.Inv) : State.Inv { s with mem := s.mem.writeAll bs } :=
  h.withMem (Memory.writeAll_wf _ _)

theorem State.Inv.performLoad {w : Weave} {sv : Save} (h : s.Inv) : (s.performLoad w sv).Inv := by
  unfold State.performLoad
  refine .ite (State.Inv.foldl ?_ fun _ _ hu => hu.notifyStrand) ?_
  all_goals
    refine State.Inv.foldl (.ite ?_ h.upd) fun _ _ hu => hu.restoreStrand
    refine State.Inv.foldl (State.Inv.upd ?_) fun _ _ hu => hu.resend
    refine State.Inv.foldl (State.Inv.wireUp ?_) fun _ _ hu => hu.modTile
    refine State.Inv.upd (State.Inv.write (s := State.zeroVault _ _) (State.Inv.zeroVault ?_))
    exact h.upd.setWeave.foldl fun _ _ hu => hu.zeroRange.passTo.modCore

theorem State.Inv.runLoadctx {x : DAB} (h : s.Inv) : (runLoadctx x s).Inv := by
  unfold Machine.runLoadctx
  refine h.requireSys (.ite (.trap h) (.ite (.trap h) (.ite (.trap h.meetRange.foldRange) ?_)))
  split
  · exact .ok h.meetRange.foldRange.draw.wg
  · split
    · exact .ok h.meetRange.foldRange.draw.wg
    · exact .ite (.ok h.meetRange.foldRange.performLoad.wg) (.ok h.meetRange.foldRange.wg)

/-! ## Paging -/

theorem State.Inv.sendInvals {kind : InvKind} (h : s.Inv) : (s.sendInvals kind).Inv := h.fresh.modNet.upd

theorem State.Inv.execTlbInvalidateApply {n : Nat} (h : s.Inv) : Out.Inv (execTlbInvalidateApply n s) := by
  unfold Machine.execTlbInvalidateApply
  split
  · exact h.eventStep
  · refine State.Inv.eventStep ?_
    split
    · exact h.modNet.modCore
    · exact h.modNet.modTile
    · exact h.modNet.modBlock

theorem State.Inv.tlbinvForm {ok : Bool} {kind : InvKind} (h : s.Inv) : (tlbinvForm s ok kind).Inv :=
  h.requireSys (.ite (h.afterMemPasses (h.releaseWait (fun _ hu => .ok hu.sendInvals))) h.illegalHere)

theorem State.Inv.tlbWaits {page : Nat} {k : State → Res} (h : s.Inv) (hk : ∀ u, u.Inv → (k u).Inv) :
    (tlbWaits s page k).Inv := by
  unfold Machine.tlbWaits
  split
  · exact .ite (.wait h) (hk _ h.upd)
  · exact .ite (.wait h) (.ite (hk _ h.upd) (.wait h.upd))

theorem State.Inv.runTlbinvOut {x : DABC} (h : s.Inv) : (runTlbinvOut x s).Inv := by
  unfold Machine.runTlbinvOut
  refine h.requireSys ?_
  split
  · exact .wait h
  · exact .ok h.wg
  · exact h.tlbWaits fun _ hu => .wait hu.fresh.modNet.upd
  · exact h.tlbWaits fun _ hu => .wait hu.fresh.modNet.upd
  · refine .ite h.illegalHere (h.afterMemPasses (h.releaseWait fun _ hu => ?_))
    dsimp only
    split
    · exact .trap hu.touchWalk
    · exact .trap hu.touchWalk
    · exact .trap hu.touchWalk
    · exact .ite (.trap hu.touchWalk) (hu.touchWalk.sendInvals.upd.tlbWaits (fun _ hv => .wait hv.fresh.modNet.upd))

theorem State.Inv.copyStorage {src dst n : Nat} (h : s.Inv) : (s.copyStorage src dst n).Inv :=
  (h.fold.zeroRange (lo := dst) (n := n)).withMem fun _ => copyStorage_wf h.1 src dst n

theorem State.Inv.meetFlash {src die : Nat} {loc : Word} {wid : Nat} {pos : Word} (h : s.Inv) :
    (s.meetFlash src die loc wid pos).Inv := h.upd.foldl fun _ _ hu => hu.logCorrected

theorem State.Inv.execFlashCopyComplete {n : Nat} (h : s.Inv) : Out.Inv (execFlashCopyComplete n s) := by
  unfold Machine.execFlashCopyComplete
  split
  · exact h.eventStep
  · refine .ite ?_ ?_
    · refine State.Inv.eventStep (State.Inv.setStrand ?_)
      exact .ite h.modNet.meetRangeAs.copyStorage.upd.logRec h.modNet.meetRangeAs.copyStorage.upd
    · refine State.Inv.eventStep ?_
      exact .ite h.modNet.meetRangeAs.copyStorage.upd.logRec h.modNet.meetRangeAs.copyStorage.upd

theorem State.Inv.refillWalks (h : s.Inv) : s.refillWalks.Inv := h.foldl fun _ _ hu => .ite hu hu.addWalk

theorem State.Inv.resumeChecks {w : Walk} {l : Option Leaf} (h : s.Inv) : (s.resumeChecks w l).Inv :=
  (h.modNet.foldl (fun _ _ hu => hu.checkTagged)).refillWalks

theorem State.Inv.failWalk {n : Nat} {w : Walk} (h : s.Inv) : (s.failWalk n w).Inv := h.modNet

theorem State.Inv.execPageWalkComplete {n : Nat} (h : s.Inv) : Out.Inv (execPageWalkComplete n s) := by
  unfold Machine.execPageWalkComplete
  split
  · exact h.eventStep
  · refine .ite h.eventStep ?_
    dsimp only
    split
    · refine .ite ?_ ?_
      · exact h.touchWalk.modNet.modCore.modTile.modBlock.resumeChecks.eventStep
      · exact h.touchWalk.failWalk.resumeChecks.eventStep
    · exact h.touchWalk.failWalk.resumeChecks.eventStep

theorem State.Inv.startPageIn {d : GReg} {root : Nat} {l : Leaf} {a : Word} (h : s.Inv) :
    (s.startPageIn d root l a).Inv := by
  unfold State.startPageIn
  refine .ite (.trap h) (.ite (.wait h) (.ite (.trap h.meetRange.foldRange) (.ite (.trap h.meetRange.foldRange) ?_)))
  dsimp only
  split
  · exact .trap h.meetRange.foldRange.meetWalk
  · refine .ite (.trap h.meetRange.foldRange.meetWalk) ?_
    split
    · exact .wait h.meetRange.foldRange.meetWalk
    · refine .ite (.trap h.meetRange.foldRange.meetWalk) (.ite (.wait h.meetRange.foldRange.meetWalk) ?_)
      refine .ite (.trap h.meetRange.foldRange.meetWalk.touchKeys) ?_
      exact .ok h.meetRange.foldRange.meetWalk.touchKeys.meetUpsets.perform.performRmw.modNet.sided.wg

theorem State.Inv.runPgin {x : DAImm} (h : s.Inv) : (runPgin x s).Inv := by
  unfold Machine.runPgin
  refine h.afterMemPasses ?_
  dsimp only
  split
  · exact .trap h
  · refine h.walked fun _ hu => ?_
    split
    · exact .trap hu
    · refine .ite hu.trapOf (.ite (.ok hu.sided.wg) ?_)
      split
      · exact .ok hu.sided.wg
      · exact hu.startPageIn
  · exact .ok h.sided.wg

theorem State.Inv.execPageInComplete {n : Nat} (h : s.Inv) : Out.Inv (execPageInComplete n s) := by
  unfold Machine.execPageInComplete
  split
  · exact h.eventStep
  · refine State.Inv.eventStep (State.Inv.wakeWord (State.Inv.upd (State.Inv.perform (State.Inv.meetUpsetsAs ?_))))
    refine .ite ?_ ?_
    · exact (h.modNet.upd.meetFlash.copyStorage.foldl (fun _ _ hu => hu.countDie)).logRec
    · refine (h.modNet.upd.meetFlash.copyStorage.foldl (fun _ _ hu => hu.countDie)).foldl fun _ _ hu => ?_
      exact .ite hu.meetUpsetsAs.fold.performRmw hu.meetUpsetsAs.fold

/-! ## Repair and the log -/

theorem State.Inv.loseStrand {k : StrandIx} (h : s.Inv) : (s.loseStrand k).Inv := by
  unfold State.loseStrand
  refine State.Inv.freeSlot (State.Inv.orphanEnds ?_)
  split
  · exact h.faultReply
  · exact h

theorem State.Inv.losePointers {c : CoreIx} (h : s.Inv) : (s.losePointers c).Inv :=
  h.foldl fun _ _ hu => hu.dropItems.modNet

theorem State.Inv.loseLoom {c : CoreIx} (h : s.Inv) : (s.loseLoom c).Inv :=
  h.modCore.foldl fun _ _ hu => .ite hu (hu.foldl (fun _ _ hv => hv.modTile))

theorem State.Inv.redirectEnds {h : Shuttle} {d : CoreIx} (hs : s.Inv) : (s.redirectEnds h d).Inv :=
  hs.foldl fun _ _ hu => hu.redirectEnd

theorem State.Inv.rebound {h : Shuttle} (hs : s.Inv) : (s.rebound h).Inv := by
  unfold State.rebound
  split
  · exact hs.redirectEnds.launchShuttle
  · exact hs.holdShuttle

theorem State.Inv.reboundAll {c : CoreIx} (h : s.Inv) : (s.reboundAll c).Inv := by
  unfold State.reboundAll
  refine (h.modNet.foldl (fun _ _ hu => hu.rebound)).foldl fun _ _ hu => ?_
  split
  · exact hu.redirectEnds.modPart
  · exact hu

theorem State.Inv.loseCore {c : CoreIx} (h : s.Inv) : (s.loseCore c).Inv := by
  unfold State.loseCore
  refine State.Inv.reboundAll (State.Inv.modCore (State.Inv.loseLoom (State.Inv.dropQueues ?_)))
  refine State.Inv.losePointers (State.Inv.modNet (State.Inv.foldl ?_ fun _ _ hu => hu.dropMsg))
  exact (h.foldl (fun _ _ hu => hu.loseStrand)).foldl fun _ _ hu => hu.orphanEnds

theorem State.Inv.quarantine {c : CoreIx} {array : BitVec 8} (h : s.Inv) : (s.quarantine c array).Inv :=
  .ite h.loseCore.logRec (h.loseCore.logRec.foldl (fun _ _ hu => hu.modStrand))

theorem State.Inv.execCoreQuarantine {c : CoreIx} {array : BitVec 8} (h : s.Inv) :
    Out.Inv (execCoreQuarantine c array s) := .ite h.eventStep h.quarantine.eventStep

theorem State.Inv.execLinkFail {die block port : Nat} (h : s.Inv) : Out.Inv (execLinkFail die block port s) := by
  unfold Machine.execLinkFail
  refine .ite h.eventStep (.ite h.upd.logRec.eventStep ?_)
  exact .ite h.eventStep (h.foldl (fun _ _ hu => hu.countBlock)).countBlock.upd.logRec.eventStep

theorem State.Inv.withPos {ga : Word} {whole : Bool} {k : CoreIx → Res} (h : s.Inv) (hk : ∀ x, (k x).Inv) :
    (withPos s ga whole k).Inv := .ite h.illegalHere (.ite h.trapOf (.ite (.trap h) (hk _)))

theorem State.Inv.runQuar {x : DA} (h : s.Inv) : (runQuar x s).Inv :=
  h.requireSys (h.withPos (fun _ => .ite (.ok h.wg) (.ite (.trap h) (.ok h.modCore.logRec.wg))))

theorem State.Inv.zeroCore {c : CoreIx} (h : s.Inv) : (s.zeroCore c).Inv := by
  unfold State.zeroCore
  exact h.zeroRange.clearSysg.modCore

theorem State.Inv.runQuarClr {x : DA} (h : s.Inv) : (runQuarClr x s).Inv :=
  h.requireSys (h.withPos (fun _ => .ite (.ok h.zeroCore.modCore.wg) (.ok h.wg)))

theorem State.Inv.runRemap {x : DA} (h : s.Inv) : (runRemap x s).Inv := by
  unfold Machine.runRemap
  refine h.requireSys (h.withPos fun _ => .ite (.trap h) ?_)
  exact .ite (.trap h) (.ite (.trap h) (.ite (.trap h.draw.logRec) (.ok h.draw.modDie.modCore.wg)))

theorem State.Inv.withDie {ga : Word} {k : Nat → Res} (h : s.Inv) (hk : ∀ x, (k x).Inv) : (withDie s ga k).Inv :=
  .ite h.illegalHere (.ite h.trapOf (hk _))

theorem State.Inv.withCounter {ga : Word} {k : CoreIx → Nat → CounterOf → Res} (h : s.Inv)
    (hk : ∀ x y z, (k x y z).Inv) : (withCounter s ga k).Inv := by
  unfold Machine.withCounter
  refine h.withPos fun _ => ?_
  dsimp only
  split
  · exact hk _ _ _
  · exact .trap h

theorem State.Inv.zeroCounter {c : CoreIx} {n : Nat} {a : CounterOf} (h : s.Inv) : (s.zeroCounter c n a).Inv := by
  unfold State.zeroCounter
  split
  · exact h.modCore
  · exact h.modBlock
  · exact h.modDie

/-! ## Power, bring-up and the host -/

theorem State.Inv.withIsland {ga : Word} {k : Nat → Res} (h : s.Inv) (hk : ∀ x, (k x).Inv) :
    (withIsland s ga k).Inv := by
  unfold Machine.withIsland
  refine .ite h.illegalHere ?_
  split
  · exact .ite (hk _) h.trapOf
  · exact hk _

theorem State.Inv.setPoint {i p : Nat} (h : s.Inv) : (s.setPoint i p).Inv := .ite h h.upd

theorem State.Inv.runPwrset {x : DAB} (h : s.Inv) : (runPwrset x s).Inv :=
  h.requireSys (.ite h.illegalHere (h.withIsland (fun _ => .ite (.trap h) (.ite (.trap h) (.ok h.setPoint.wg)))))

theorem State.Inv.execPointChangeComplete {island : Nat} (h : s.Inv) : Out.Inv (execPointChangeComplete island s) :=
  h.upd.eventStep

theorem State.Inv.powerEvent {i p : Nat} (h : s.Inv) : (s.powerEvent i p).Inv := h.hostEvent

theorem State.Inv.execPowerThrottle {island : Nat} (h : s.Inv) : Out.Inv (execPowerThrottle island s) :=
  .ite h.setPoint.powerEvent.eventStep h.eventStep

theorem State.Inv.execThermalTrip {die : Nat} (h : s.Inv) : Out.Inv (execThermalTrip die s) :=
  .ite (h.foldl (fun _ _ hu => hu.setPoint)).powerEvent.eventStep h.eventStep

theorem State.Inv.setStage {st : BitVec 8} (h : s.Inv) : (s.setStage st).Inv := h.upd.hostEvent

theorem State.Inv.execDeviceReset (h : s.Inv) : Out.Inv (execDeviceReset s) :=
  State.Inv.eventStep (h.withMem (Memory.filter_wf _ s.mem))

theorem State.Inv.execLinkTrain (h : s.Inv) : Out.Inv (execLinkTrain s) := .ite h.upd.setStage.eventStep h.eventStep
theorem State.Inv.execGo (h : s.Inv) : Out.Inv (execGo s) := .ite h.setStage.eventStep h.eventStep

theorem State.Inv.execImageVerify (h : s.Inv) : Out.Inv (execImageVerify s) := by
  unfold Machine.execImageVerify
  refine .ite h.eventStep (.ite h.setStage.eventStep (.ite h.meetRangeAs.foldRange.setStage.eventStep ?_))
  split
  · exact h.meetRangeAs.foldRange.setStage.eventStep
  · exact h.meetRangeAs.foldRange.upd.setStage.eventStep

theorem State.Inv.readRdesc {d : Nat} (h : s.Inv) : (s.readRdesc d).Inv := h.meetUpsetsAt.fold.modDie
theorem State.Inv.failTest {c : CoreIx} (h : s.Inv) : (s.failTest c).Inv := h.modCore.logRec

theorem State.Inv.execBringupComplete {f : BringupFacts} (h : s.Inv) : Out.Inv (execBringupComplete f s) := by
  unfold Machine.execBringupComplete
  refine .ite h.eventStep (.ite h.setStage.eventStep (.ite h.setStage.eventStep ?_))
  exact ((h.foldl (fun _ _ hu => hu.failTest)).foldl (fun _ _ hu => hu.readRdesc)).setStage.eventStep

theorem State.Inv.execAtt (h : s.Inv) : Out.Inv (execAtt s) := .ite h.touchAs.perform.setStage.eventStep h.eventStep
theorem State.Inv.closePair {p q : Nat} (h : s.Inv) : (s.closePair p q).Inv := h.foldl fun _ _ hu => hu.removeStream
theorem State.Inv.openPair {p q : Nat} (h : s.Inv) : (s.openPair p q).Inv := h.closePair.draw.draw.upd

theorem State.Inv.resplit {v : BitVec 2} (h : s.Inv) : (s.resplit v).Inv :=
  .ite h (h.foldl (fun _ _ hu => hu.zeroCore)).upd

theorem State.Inv.execHostRegisterWrite {word : Nat} {value : BitVec 64} (h : s.Inv) :
    Out.Inv (execHostRegisterWrite word value s) := by
  unfold Machine.execHostRegisterWrite
  refine .ite h.eventStep (.ite h.upd.eventStep (.ite h.upd.eventStep (.ite h.upd.eventStep ?_)))
  refine .ite (.ite h.upd.eventStep h.eventStep) (.ite (.ite h.resplit.eventStep h.eventStep) ?_)
  refine .ite h.upd.eventStep (.ite h.upd.eventStep (.ite h.upd.eventStep (.ite h.upd.eventStep ?_)))
  refine .ite h.upd.eventStep (.ite h.upd.eventStep (.ite h.upd.eventStep ?_))
  exact .ite (.ite (State.Inv.ite h.upd.openPair.flushPair h.upd.closePair).eventStep h.eventStep) h.eventStep

theorem State.Inv.execDbr {p : BitVec 2} (h : s.Inv) : Out.Inv (execDbr p s) :=
  .ite h.eventStep (.ite (h.touchAs.modPart.foldl (fun _ _ hu => hu.readRdesc)).eventStep h.touchAs.eventStep)

theorem State.Inv.countEth {p i n : Nat} (h : s.Inv) : (s.countEth p i n).Inv := h.upd

theorem State.Inv.execEthFrameReceive {port queue : Nat} {frame : List Byte} {fcsGood : Bool} (h : s.Inv) :
    Out.Inv (execEthFrameReceive port queue frame fcsGood s) := by
  unfold Machine.execEthFrameReceive
  refine .ite h.eventStep (.ite h.countEth.eventStep (.ite h.countEth.countEth.countEth.eventStep ?_))
  dsimp only
  split
  · exact h.countEth.countEth.flushPair.frameTo.eventStep
  · refine State.Inv.eventStep ?_
    exact .ite h.countEth.countEth.flushPair.draw.countEth h.countEth.countEth.flushPair.draw.upd

theorem State.Inv.frameAt {p a n : Nat} (h : s.Inv) : (s.frameAt p a n).2.Inv := h.meetUpsetsAt.fold.draw

theorem State.Inv.execEthTransmit {n : Nat} (h : s.Inv) : Out.Inv (execEthTransmit n s) := by
  unfold Machine.execEthTransmit
  refine .ite h.eventStep ?_
  split
  · exact h.eventStep
  · split
    · exact h.eventStep
    · refine .ite h.setStream.modNet.countEth.eventStep ?_
      exact .ite h.setStream.modNet.eventStep h.setStream.modNet.frameAt.upd.countEth.countEth.eventStep

/-! ## Steps of the device -/

theorem State.Inv.hostWrite {pa : Nat} {bytes : List Byte} (h : s.Inv) : (s.hostWrite pa bytes).Inv :=
  .ite h.meetUpsetsAt.perform h

theorem State.Inv.hit {u : Upset} (h : s.Inv) : (s.hit u).Inv := .ite h h.upd

theorem State.Inv.correctedIn {array : Nat} {c : CoreIx} {bit : Fin 72} (h : s.Inv) :
    (s.correctedIn array c bit).Inv := .ite h.countCore.logCorrected h

theorem State.Inv.lineUpset {c : CoreIx} {n : Nat} {bit : Fin 513} (h : s.Inv) : (s.lineUpset c n bit).Inv :=
  h.modCore

theorem State.Inv.tlbParity {t : InvTarget} {i : Nat} (h : s.Inv) : (s.tlbParity t i).Inv := by
  unfold State.tlbParity
  split
  · exact h.modCore.countCore.logCorrected
  · exact h.modTile.logCorrected
  · exact h.modBlock.logCorrected

theorem State.Inv.poisonObj {o : SyncObj} (h : s.Inv) : (s.poisonObj o).Inv := by
  unfold State.poisonObj
  split
  · exact h.upd
  · exact h.upd
  · exact h.upd
  · exact h

theorem State.Inv.syncError {o : SyncObj} {fatal : Bool} {bit : Fin 72} (h : s.Inv) : (s.syncError o fatal bit).Inv :=
  .ite h.poisonObj.logRec h.countBlock.logCorrected

theorem State.Inv.copyError {t i : Nat} {fatal : Bool} {bit : Fin 72} (h : s.Inv) : (s.copyError t i fatal bit).Inv := by
  unfold State.copyError
  split
  · exact h
  · exact .ite h.modTile h.logCorrected

theorem State.Inv.flitResend {die block port : Nat} (h : s.Inv) : (s.flitResend die block port).Inv :=
  .ite h h.countBlock.logCorrected

theorem State.Inv.outside {a : Outside} (h : s.Inv) : (s.outside a).Inv := by
  unfold State.outside
  split
  · exact h.hostWrite
  · exact h.hit
  · exact h.correctedIn
  · exact h.lineUpset
  · exact h.tlbParity
  · exact h.syncError
  · exact h.copyError
  · exact h.flitResend

/-! ## Instructions and turns -/

theorem State.Inv.exec (h : s.Inv) : ∀ i : Instr, Out.Inv (exec i s)
  | .add _ => h.finish h.runAdd
  | .sub _ => h.finish h.runSub
  | .mul _ => h.finish h.runMul
  | .mulh _ => h.finish h.bitResult
  | .div _ => h.finish (.ite h.f32Result (.ok h.addFlags.wg))
  | .rem _ => h.finish (.ok h.addFlags.wg)
  | .and _ => h.finish h.runAnd
  | .or _ => h.finish h.runOr
  | .xor _ => h.finish h.runXor
  | .shl _ => h.finish h.runShl
  | .shr _ => h.finish h.runShr
  | .sra _ => h.finish h.runSra
  | .min _ => h.finish h.runMin
  | .max _ => h.finish h.runMax
  | .cmp _ => h.finish h.runCmp
  | .addi _ => h.finish h.runAddi
  | .muli _ => h.finish h.arithImm
  | .andi _ => h.finish h.runAndi
  | .ori _ => h.finish h.bitwiseImm
  | .xori _ => h.finish h.bitwiseImm
  | .shli _ => h.finish h.runShli
  | .shri _ => h.finish h.runShri
  | .srai _ => h.finish h.runSrai
  | .cmpi _ => h.finish h.compare
  | .movi _ => h.finish h.runMovi
  | .lea _ => h.finish h.runLea
  | .sel _ => h.finish (.ok h.wg)
  | .clz _ => h.finish (.ok h.wg)
  | .popc _ => h.finish (.ok h.wg)
  | .br _ => h.finish h.transfer
  | .call _ => h.finish h.wg.transfer
  | .callReg _ => h.finish h.wg.transfer
  | .ret _ => h.finish h.transfer
  | .jr _ => h.finish h.transfer
  | .loop _ => h.finish (.ite (.ok h.wg) h.wg.transfer)
  | .halt => h.finish h.haltForm
  | .haltK _ => h.finish h.haltForm
  | .yield => h.finish (.ok h)
  | .nop => h.finish (.ok h)
  | .sleep _ => h.finish h.runSleep
  | .trap _ => h.finish h.trapOf
  | .trapBrk _ => h.finish h.trapOf
  | .eret => h.finish h.eretForm
  | .eretN => h.finish h.eretForm
  | .pairWord _ _ => h.finish h.runPairWord
  | .mfcr _ => h.finish (.ite h.trapOf (h.flagsWait (.ok h.wg)))
  | .mtcr _ => h.finish (h.moveToCR fun _ _ hu => hu)
  | .mtcrSet _ => h.finish (h.moveToCR fun _ _ hu => hu)
  | .mtcrClr _ => h.finish (h.moveToCR fun _ _ hu => hu)
  | .mtcrEnt _ => h.finish (h.requireSys (h.moveToCR (fun _ _ hu => hu.setEntry)))
  | .ld _ => h.finish h.runLd
  | .st _ => h.finish h.runSt
  | .stOf _ => h.finish h.storeScalar
  | .fence _ => h.finish (h.afterMemPasses h.fence)
  | .fenceSt => h.finish (h.afterMemPasses (h.fenceStWait (fun _ hu => .ok hu.setRelFence)))
  | .aadd _ => h.finish h.atomicForm
  | .aaddt _ => h.finish h.atomicForm
  | .amin _ => h.finish h.atomicForm
  | .amax _ => h.finish h.atomicForm
  | .aand _ => h.finish h.atomicForm
  | .aor _ => h.finish h.atomicForm
  | .axor _ => h.finish h.atomicForm
  | .aswap _ => h.finish h.atomicForm
  | .acas _ => h.finish h.atomicForm
  | .waita _ => h.finish h.runWaita
  | .awake _ => h.finish h.runAwake
  | .red _ => h.finish h.runRed
  | .pgin _ => h.finish h.runPgin
  | .vld _ => h.finish h.runVld
  | .vst _ => h.finish h.runVst
  | .vlds _ => h.finish h.vecLoad
  | .vsts _ => h.finish h.vecStore
  | .vgath _ => h.finish h.vecLoad
  | .vscat _ => h.finish h.vecStore
  | .vred _ => h.finish h.runVred
  | .ldt _ => h.finish (h.memOp fun _ hu => hu.issueTagged)
  | .vgatht _ => h.finish (h.afterPasses (h.memOp (fun _ hu => hu.issueTagged)))
  | .take _ => h.finish h.takeForm
  | .takeNb _ => h.finish h.takeForm
  | .vtake _ => h.finish h.runVtake
  | .lscnt _ => h.finish (.ok h.upd.wg)
  | .lreissue _ => h.finish (h.resolving fun _ _ hu => hu.upd.sendEntry)
  | .lfill _ => h.finish h.runLfill
  | .ldrop _ => h.finish (h.resolving fun _ _ hu => hu.upd)
  | .ldropAny _ => h.finish (h.resolving fun _ _ hu => hu.upd)
  | .phinit _ => h.finish h.runPhinit
  | .phreg _ => h.finish h.runPhreg
  | .phdrop _ => h.finish h.runPhdrop
  | .phsig _ => h.finish ((h.signalOp (fun _ hu => hu.signalTurn)).map fun _ hu => hu.sided)
  | .phwait _ => h.finish (h.waitTurn.map fun _ hu => hu.sided)
  | .phsw _ => h.finish h.runPhsw
  | .warr _ => h.finish h.runWarr
  | .wwait _ => h.finish h.runWwait
  | .send _ => h.finish h.sendForm
  | .sendRq _ => h.finish h.sendForm
  | .sendT _ => h.finish h.sendForm
  | .sendm _ => h.finish h.runSendm
  | .hmsg _ => h.finish (.ok h.modCore.setHandler.sided.wg)
  | .hret _ => h.finish h.runHret
  | .tagen _ => h.finish (.ok h.setHandler.sided)
  | .tagdis _ => h.finish (.ok h.setHandler.sided)
  | .tagpend _ => h.finish (.ok h.sided.wg)
  | .spawn _ => h.finish h.spawnForm
  | .spawnPin _ => h.finish h.spawnForm
  | .dec _ => h.finish h.runDec
  | .futr _ => h.finish h.runFutr
  | .futrT _ => h.finish h.runFutrT
  | .futw _ => h.finish h.runFutw
  | .launch _ => h.finish h.launchForm
  | .launchW _ => h.finish h.launchForm
  | .exit _ => h.finish h.runExit
  | .jx _ => h.finish h.travel
  | .jxReg _ => h.finish h.travel
  | .callx _ => h.finish h.travel
  | .callxReg _ => h.finish h.travel
  | .retx _ => h.finish h.travel
  | .segheat _ => h.finish h.segHeat
  | .segheatClr _ => h.finish h.segHeat
  | .segrep _ => h.finish h.segRep
  | .segrepDel _ => h.finish h.segRep
  | .segmap _ => h.finish (h.withSegment fun _ => .ok h.wg)
  | .segmapHi _ => h.finish (h.withSegment fun _ => .ok h.wg)
  | .sopen _ => h.finish h.runSopen
  | .sclose _ => h.finish h.runSclose
  | .scloseU _ => h.finish h.runScloseU
  | .qbind _ => h.finish h.runQbind
  | .qbindLoc _ => h.finish ((Res.Inv.ite h.unbound (.ok h.setQ)).map fun _ hu => hu.sided)
  | .qunbind _ => h.finish h.runQunbind
  | .qstat _ => h.finish (.ok h.sided.wg)
  | .qsend _ => h.finish h.qsendForm
  | .qsendH _ => h.finish h.qsendForm
  | .qrecv _ => h.finish h.runQrecv
  | .copy _ => h.finish h.runCopyForm
  | .ringinit _ => h.finish h.runRinginit
  | .awaitf _ => h.finish h.runAwaitf
  | .relslot _ => h.finish h.runRelslot
  | .ringstat _ => h.finish h.runRingstat
  | .ringstatCfg _ => h.finish h.runRingstatCfg
  | .vadd _ => h.finish h.runVadd
  | .vsub _ => h.finish h.runVsub
  | .vmul _ => h.finish h.runVmul
  | .vfma _ => h.finish h.runVfma
  | .vdiv _ => h.finish h.runVdiv
  | .vsqrt _ => h.finish h.runVsqrt
  | .vmin _ => h.finish h.runVmin
  | .vmax _ => h.finish h.runVmax
  | .vabs _ => h.finish h.runVabs
  | .vneg _ => h.finish h.runVneg
  | .vand _ => h.finish h.runVand
  | .vor _ => h.finish h.runVor
  | .vxor _ => h.finish h.runVxor
  | .vshl _ => h.finish h.runVshl
  | .vshlImm _ => h.finish h.runVshlImm
  | .vshr _ => h.finish h.runVshr
  | .vshrImm _ => h.finish h.runVshrImm
  | .vsra _ => h.finish h.runVsra
  | .vsraImm _ => h.finish h.runVsraImm
  | .vrcp _ => h.finish h.runVrcp
  | .vrsqrt _ => h.finish h.runVrsqrt
  | .vexp2 _ => h.finish h.runVexp2
  | .vcmp _ => h.finish h.runVcmp
  | .vsel _ => h.finish h.runVsel
  | .vmov _ => h.finish h.runVmov
  | .vbcast _ => h.finish h.runVbcast
  | .vbcastImm _ => h.finish h.runVbcastImm
  | .vext _ => h.finish (h.notRecordable fun _ hu => .ok hu.wg)
  | .vextReg _ => h.finish (h.notRecordable fun _ hu => .ok hu.wg)
  | .vins _ => h.finish h.runVins
  | .vinsReg _ => h.finish h.runVinsReg
  | .vperm _ => h.finish h.runVperm
  | .vrot _ => h.finish h.runVrot
  | .vcompress _ => h.finish h.runVcompress
  | .vexpand _ => h.finish h.runVexpand
  | .viota _ => h.finish h.runViota
  | .mand _ => h.finish h.runMand
  | .mor _ => h.finish h.runMor
  | .mxor _ => h.finish h.runMxor
  | .mnot _ => h.finish h.runMnot
  | .mpopc _ => h.finish (h.notRecordable fun _ hu => .ok hu.wg)
  | .vcvt _ => h.finish h.runVcvt
  | .vcvto _ => h.finish h.runVcvto
  | .vprune48 _ => h.finish h.runVprune48
  | .vredsum _ => h.finish h.runVredsum
  | .vredmin _ => h.finish (h.notRecordable fun _ hu => hu.vecRedMinMax)
  | .vredmax _ => h.finish (h.notRecordable fun _ hu => hu.vecRedMinMax)
  | .vtopk _ => h.finish h.runVtopk
  | .vbskip _ => h.finish (h.notRecordable fun _ hu => hu.orException fun _ hv => .ok hv.wm.wp)
  | .vdot4 _ => h.finish h.runVdot4
  | .mma _ => h.finish (h.recordable fun _ hu => hu.mmaForm)
  | .mmaS _ => h.finish (h.recordable fun _ hu => hu.mmaForm)
  | .mzero _ => h.finish h.runMzero
  | .mld _ => h.finish (h.recordable fun _ hu => hu.mldForm)
  | .mst _ => h.finish (h.recordable fun _ hu => hu.mstForm)
  | .mscaleA0 _ => h.finish h.runMscaleA0
  | .mscaleA1 _ => h.finish h.runMscaleA1
  | .mscaleB _ => h.finish h.runMscaleB
  | .mwait => h.finish (h.notRecordable fun _ hu => .ite (.wait hu) (hu.loomHeld (.ok hu)))
  | .mwaitTile _ => h.finish (h.notRecordable fun _ hu => hu.tileForm fun _ hv => .ok hv)
  | .mmovv _ => h.finish (h.notRecordable fun _ hu => hu.tileForm fun _ hv => .ok hv.wv)
  | .mmova _ => h.finish (h.notRecordable fun _ hu => hu.tileForm fun _ hv => .ok hv.writeTile)
  | .mstat _ => h.finish (h.notRecordable fun _ hu => hu.loomHeld (.ok hu.wg))
  | .trrec _ => h.finish h.runTrrec
  | .trrun _ => h.finish h.runTrrun
  | .trstop _ => h.finish h.runTrstop
  | .trstat _ => h.finish (.ok h.wg)
  | .tlbinv _ => h.finish h.tlbinvForm
  | .tlbinvAs _ => h.finish h.tlbinvForm
  | .tlbinvAll => h.finish h.tlbinvForm
  | .tlbinvOut _ => h.finish h.runTlbinvOut
  | .tlbsync => h.finish (h.requireSys (h.afterMemPasses (h.tlbWaits (fun _ hu => hu.fence))))
  | .savectx _ => h.finish h.saveForm
  | .savectxSwap _ => h.finish h.saveForm
  | .savectxDrain _ => h.finish (h.requireSys (.ite h.illegalHere (.ok h.modPart.wg)))
  | .savectxSize _ => h.finish h.runSavectxSize
  | .loadctx _ => h.finish h.runLoadctx
  | .quar _ => h.finish h.runQuar
  | .quarClr _ => h.finish h.runQuarClr
  | .remap _ => h.finish h.runRemap
  | .remapStat _ => h.finish (h.requireSys (h.withPos (fun _ => .ok h.wg)))
  | .elogrd _ => h.finish (h.requireSys (h.withDie (fun _ => .ok h.wv)))
  | .elogrdPop _ => h.finish (h.requireSys (h.withDie (fun _ => .ok h.modDie)))
  | .elogrdCnt _ => h.finish (h.requireSys (h.withCounter (fun _ _ _ => .ok h.wg)))
  | .elogrdZc _ => h.finish (h.requireSys (h.withCounter (fun _ _ _ => .ok h.zeroCounter)))
  | .pwrset _ => h.finish h.runPwrset
  | .pwrsetRd _ => h.finish (h.requireSys (h.withIsland (fun _ => .ok h.draw.wg)))
  | .hostsig _ => h.finish (h.requireSys (h.releaseWait (fun _ hu => .ok hu.hostEvent.wg)))
  | .lineRefetch _ => h.execLineRefetch
  | .sleepExpiry _ => h.execSleepExpiry
  | .homeAccess _ => h.execHomeAccess
  | .loadReply _ => h.execLoadReply
  | .atomicAtHome _ => h.execAtomicAtHome
  | .redAtHome _ => h.execRedAtHome
  | .redMerge _ _ => h.execRedMerge
  | .redHoldExpiry _ => h.execRedHoldExpiry
  | .postedWriteAck _ => h.execPostedWriteAck
  | .waitaWake _ => h.execWaitaWake
  | .taggedLoadReply _ => h.execTaggedLoadReply
  | .taggedLoadFault _ => h.execTaggedLoadFault
  | .pageWalkComplete _ => h.execPageWalkComplete
  | .pageInComplete _ => h.execPageInComplete
  | .tlbInvalidateApply _ => h.execTlbInvalidateApply
  | .sendQueueDrain _ => h.execSendQueueDrain
  | .messageArrival _ => h.execMessageArrival
  | .dispatch _ => h.execDispatch
  | .taskPromotion _ => h.execTaskPromotion
  | .codeletPush _ => h.execCodeletPush
  | .gangForm _ => h.execGangForm
  | .loomOpComplete _ => h.execLoomOpComplete
  | .treadleEntryIssue _ => h.execTreadleEntryIssue
  | .copyCommand _ => h.execCopyCommand
  | .shuttleArrival _ => h.execShuttleArrival
  | .shuttleShed _ => h.execShuttleShed
  | .shedRefill _ => h.execShedRefill
  | .occupancyReport _ => h.execOccupancyReport
  | .streamItemArrival _ => h.execStreamItemArrival
  | .streamMove _ => h.execStreamMove
  | .pointerRetire _ _ => h.execPointerRetire
  | .streamOrphan _ => h.execStreamOrphan
  | .launchPlacement _ _ => h.execLaunchPlacement
  | .weaveEnd _ => h.execWeaveEnd
  | .drainExpiry _ => h.execDrainExpiry
  | .coreQuarantine _ _ => h.execCoreQuarantine
  | .linkFail _ _ _ => h.execLinkFail
  | .deviceReset => h.execDeviceReset
  | .linkTrain => h.execLinkTrain
  | .go => h.execGo
  | .imageVerify => h.execImageVerify
  | .bringupComplete _ => h.execBringupComplete
  | .att => h.execAtt
  | .dbq _ => h.execDbq
  | .dbr _ => h.execDbr
  | .hostRegisterWrite _ _ => h.execHostRegisterWrite
  | .powerThrottle _ => h.execPowerThrottle
  | .thermalTrip _ => h.execThermalTrip
  | .ethFrameReceive _ _ _ _ => h.execEthFrameReceive
  | .ethTransmit _ => h.execEthTransmit
  | .streamCreditArrival _ => h.execStreamCreditArrival
  | .flashCopyComplete _ => h.execFlashCopyComplete
  | .pointChangeComplete _ => h.execPointChangeComplete

/-! ## A turn -/

/-- What a strand's turn finds leaves a safe state. -/
inductive Found.Inv : Found → Prop
  | run {s : State} {d : Decoded} (h : s.Inv) : Found.Inv (.run d s)
  | refetch {s : State} (h : s.Inv) : Found.Inv (.refetch s)
  | fault {x : Trap} : Found.Inv (.fault x)

/-- What a turn has begun stands in a safe state. -/
inductive Ready.Inv : Ready → Prop
  | run {s : State} {i : Instr} (h : s.Inv) : Ready.Inv (.run i s)
  | idle {s : State} (h : s.Inv) : Ready.Inv (.idle s)

theorem State.Inv.lookup (h : s.Inv) : s.lookup.Inv := by
  unfold State.lookup
  dsimp only
  split
  · exact .fault
  · split
    · exact .fault
    · exact .refetch h.meetFetch.upd
    · split
      · exact .fault
      · split
        · exact .fault
        · split
          · exact .fault
          · exact .run h.meetFetch.keepLine.upd

theorem State.Inv.begin (h : s.Inv) : s.begin.Inv := by
  have hr := h.resumeWait
  have hl := hr.lookup
  unfold State.begin
  dsimp only
  split
  · exact .idle hr
  · split
    · split
      · exact .idle hr.upd.takeTrap
      · exact .idle hr
    · split
      · exact .run hr.upd
      · split
        · exact .idle (hr.settle (.trap hr.metFetch))
        · rename_i e
          rw [e] at hl
          cases hl with
          | refetch hu => exact .idle hu
        · rename_i e
          rw [e] at hl
          cases hl with
          | run hu =>
            split
            · exact .run hu.upd
            · exact .idle hu.upd

/-- A turn taken from the agenda leaves the rest of it. -/
theorem State.Inv.takeTurn {x : Turn} {rest : List Turn} (h : s.Inv) (e : s.agenda = x :: rest) :
    State.Inv { s with agenda := rest } := by
  obtain ⟨hm, ha⟩ := State.inv_iff.mp h
  rw [e, List.all_cons, Bool.and_eq_true] at ha
  exact State.inv_iff.mpr ⟨hm, ha.2⟩

theorem State.Inv.nextTurn {y : Ready} (h : s.Inv) (e : s.nextTurn = .ok y) : y.Inv := by
  unfold State.nextTurn at e
  split at e
  · cases e
    exact h.tick.begin
  · rename_i x rest ha
    have hu := (h.takeTurn ha).tickDies (n := x.dt) (skew := x.skew)
    dsimp only at e
    split at e
    · cases e
      exact hu.switchTo.begin
    · split at e
      · cases e
        exact .run hu
      · contradiction
    · cases e
      exact .idle hu.outside

theorem State.Inv.step (h : s.Inv) : Out.Inv (step s) := by
  unfold Machine.step
  split
  · rintro t ⟨⟩
  · rename_i e
    cases h.nextTurn e with
    | idle hu => exact .next hu
  · rename_i e
    cases h.nextTurn e with
    | run hu => exact hu.exec _

end

/-- Settles O58: whatever a turn begins stands in a safe state, and each instruction's meaning keeps one safe. -/
theorem stepKeepsSafety : Obligations.StepKeepsSafety := fun _ t h e => h.step t e

end Sys2Proof.Machine
end

section
/-! SUPPORT. Device reset leaves tables without an entry, which read as their units at rest; a strand that takes a slot is built from
the empty one (R23, R38 to R40, R415). -/

namespace Sys2Proof.Machine

theorem State.reset_strand (k : StrandIx) : State.reset.strand k = Strand.empty := by
  unfold State.strand
  split <;> rfl

theorem State.reset_coreRec (c : CoreIx) : State.reset.coreRec c = Core.empty := rfl

theorem State.reset_dieRec (d : Nat) : State.reset.dieRec d = Die.zero := rfl

theorem State.reset_blockRec (b : Nat) : State.reset.blockRec b = ⟨[], []⟩ := rfl

theorem resetValues : Statements.ResetValues := by
  refine ⟨fun k => ?_, fun c => ?_, fun d => ?_, fun b => ?_, rfl, rfl, rfl, rfl, rfl, rfl, rfl, rfl⟩
  · rw [State.reset_strand]; rfl
  · rw [State.reset_coreRec]; exact ⟨rfl, rfl, rfl⟩
  · rw [State.reset_dieRec]; exact ⟨rfl, rfl, rfl⟩
  · rw [State.reset_blockRec]

/-- What a strand is not given it has from `Strand.empty`, and from its slot the four fields the record names. -/
theorem newStrandState : Statements.NewStrandState := by
  intro s k w origin pc
  and_intros <;> rfl

/-- Settles O51: the reset state's tables are empty, and a fresh strand is the empty one but for the fields it is given. -/
theorem resetAndNewStrands : Obligations.ResetAndNewStrands := ⟨resetValues, newStrandState⟩

end Sys2Proof.Machine
end

section
/-! SUPPORT. The turn of a strand whose waits are over, and the chain its program counter names (R23, R49, R55, R73). -/

namespace Sys2Proof.Machine

/-! ## Whose turn it is (R23) -/

/-- With no turn set the strand last named goes on, a cycle later; a strand's turn is taken from the agenda (log entry 1). -/
theorem nextTurn_strand {s u : State} (h : (s.agenda = [] ∧ u = s.tick 1) ∨
    ∃ k n sk r, s.agenda = ⟨.strand k, n, sk⟩ :: r ∧ u = (State.tickDies { s with agenda := r } n sk).switchTo k) :
    s.nextTurn = .ok u.begin := by
  unfold State.nextTurn
  rcases h with ⟨ha, rfl⟩ | ⟨k, n, sk, r, ha, rfl⟩
  · rw [ha]
  · rw [ha]

theorem nextTurn_event {s : State} {i : Instr} {n : Nat} {sk : List Nat} {r : List Turn} (h : s.agenda = ⟨.event i, n, sk⟩ :: r)
    (hi : i.isEvent = true) : s.nextTurn = .ok (.run i (State.tickDies { s with agenda := r } n sk)) := by
  unfold State.nextTurn
  rw [h]
  exact if_pos hi

theorem nextTurn_outside {s : State} {o : Outside} {n : Nat} {sk : List Nat} {r : List Turn}
    (h : s.agenda = ⟨.outside o, n, sk⟩ :: r) :
    s.nextTurn = .ok (.idle ((State.tickDies { s with agenda := r } n sk).outside o)) := by
  unfold State.nextTurn
  rw [h]

theorem step_idle {s t : State} (h : s.nextTurn = .ok (.idle t)) : step s = .next t := by
  unfold step; rw [h]

theorem step_run {s t : State} {i : Instr} (h : s.nextTurn = .ok (.run i t)) : step s = exec i t := by
  unfold step; rw [h]

/-! ## What a turn begins -/

section
variable {s : State} (hlive : s.me.live = true) (href : s.me.refetch = none) (hheld : s.islandHeld s.core = false)
  (hstop : s.stopped = false) (hpend : s.me.pend = []) (hpark : s.me.parked = none)
include hlive href hheld hstop hpend hpark

/-- A strand that waits in an instruction goes on with it (log entry 51). -/
theorem begin_issued {i : Instr} {iss : Issue} (h : s.me.issued = some (i, iss)) : s.begin = .run i { s with iss := iss } := by
  simp [State.begin, State.resumeWait, *]

/-- A fault found at the program counter is taken there, or waits for the treadle's passes. -/
theorem begin_fault (h : s.me.issued = none) {x : Trap} (hx : s.lookup = .fault x) :
    s.begin = .idle ((Res.trap (s.metFetch s.me.pc) x).settle s) := by
  simp [State.begin, State.resumeWait, *]

theorem begin_run (h : s.me.issued = none) {d : Decoded} {t : State} (hd : s.lookup = .run d t)
    (hg : t.rp d.guard.p ≠ d.guard.neg) :
    s.begin = .run d.instr { t with me := { t.me with issued := some (d.instr, t.iss) } } := by
  simp [State.begin, State.resumeWait, *]

theorem begin_skip (h : s.me.issued = none) {d : Decoded} {t : State} (hd : s.lookup = .run d t)
    (hg : t.rp d.guard.p = d.guard.neg) : s.begin = .idle { t with me := { t.me.settle with pc := t.iss.next } } := by
  simp [State.begin, State.resumeWait, *]

end

/-! ## The chain at the program counter (R49, R55, R62, R69) -/

section
variable {s : State} {l : Line} (hseg : s.leavesSegment s.me.pc = false)
  (hline : (s.meetFetch s.me.pc).fetchLine s.me.pc = .line l) (hlegal : lineIllegal l = none) (hcode : validCode s.me.pc = true)
include hseg hline hlegal hcode

theorem lookup_fault {x : Trap} (h : decodeAt s.me.pc l = .error x) : s.lookup = .fault x := by
  simp [State.lookup, illegalLine, *]

theorem lookup_run {d : Decoded} (h : decodeAt s.me.pc l = .ok d) :
    let own := s.me.pc + BitVec.ofNat 64 (12 * (d.len - 1))
    s.lookup = .run d { (s.meetFetch s.me.pc).keepLine (lineBase s.me.pc).toNat l with
      iss := ⟨s.me.pc, own, succAddr own, lineSlot l (slotIx own)⟩ } := by
  simp [State.lookup, illegalLine, *]

end

section
variable {pc : Word} {l : Line}

theorem decodeAt_ok {d : Decoded} (h : decodeSlots (slotsFrom l (slotIx pc)) = .ok d) : decodeAt pc l = .ok d := by
  dsimp only [decodeAt]; rw [h]

theorem decodeAt_illegal {j : Nat} (h : decodeSlots (slotsFrom l (slotIx pc)) = .error (.illegal j)) :
    decodeAt pc l =
      .error ⟨0x01, 0, (lineSlot l (slotIx pc + j)).extractLsb' 32 64, some (pc + BitVec.ofNat 64 (12 * j)), 0⟩ := by
  dsimp only [decodeAt]; rw [h]

theorem decodeAt_misuse {sub j : Nat} (h : decodeSlots (slotsFrom l (slotIx pc)) = .error (.misuse sub j)) :
    decodeAt pc l = .error ⟨0x04, BitVec.ofNat 8 sub, pc, some (pc + BitVec.ofNat 64 (12 * j)), 0⟩ := by
  dsimp only [decodeAt]; rw [h]

end

/-- A fault in a fetch of the current segment is taken where no passes run (R71, R138). -/
theorem settle_fetchFault {s : State} (hseg : s.leavesSegment s.me.pc = false) (htr : s.me.tr.st ≠ .running) (x : Trap) :
    (Res.trap (s.metFetch s.me.pc) x).settle s = (s.meetFetch s.me.pc).takeTrap x 0 := by
  have hm : s.metFetch s.me.pc = s.meetFetch s.me.pc := if_neg (by rw [hseg]; decide)
  rw [hm]
  exact if_neg htr

/-! ## The dies' cycle counters (R23) -/

theorem Tab.get_set {α : Type} (z x : α) (k i : Nat) :
    ∀ t : Tab α, Tab.get z (Tab.set t k x) i = if i = k then x else Tab.get z t i
  | [] => by simp only [Tab.set, Tab.get, eq_comm]
  | (j, y) :: r => by
    have ih := Tab.get_set z x k i r
    unfold Tab.set
    split
    case isTrue hk => subst hk; simp only [Tab.get, eq_comm]; split <;> rfl
    case isFalse hk =>
      split
      · simp only [Tab.get, eq_comm]
      · simp only [Tab.get, ih]
        by_cases hj : j = i
        · have hi : i ≠ k := by omega
          simp only [hj, hi, if_true, if_false]
        · simp only [hj, if_false]

theorem State.modDie_dieRec (s : State) (d e : Nat) (f : Die → Die) :
    (s.modDie d f).dieRec e = if e = d then f (s.dieRec d) else s.dieRec e := Tab.get_set ..

theorem tick_dieRec {s : State} {d : Nat} (h : d < 4) : ((s.tick 1).dieRec d).cyc = (s.dieRec d).cyc + 1 := by
  have hd : d = 0 ∨ d = 1 ∨ d = 2 ∨ d = 3 := by omega
  rcases hd with rfl | rfl | rfl | rfl <;> simp [State.tick, List.range, List.range.loop, State.modDie_dieRec]

/-- Settles O59: the turn is the one the agenda gives, and what it begins follows what its fetch finds. -/
theorem stepRunsDecoded : Obligations.StepRunsDecoded := by
  refine ⟨fun s u l hu hlive href hheld hstop hpend hpark hiss => ?_, fun s u i iss hu hlive href hheld hstop hpend hpark h => ?_,
    fun s i n sk r h hi => step_run (nextTurn_event h hi), fun s o n sk r h => step_idle (nextTurn_outside h),
    fun s d hd => tick_dieRec hd⟩
  · have hturn := nextTurn_strand hu
    intro f hseg hline hlegal hcode
    have hrun {d} (h : decodeSlots (slotsFrom l (slotIx u.me.pc)) = .ok d) := lookup_run hseg hline hlegal hcode (decodeAt_ok h)
    have hfault {x} (h : decodeAt u.me.pc l = .error x) (htr : u.me.tr.st ≠ .running) : step s = .next (f.takeTrap x 0) := by
      rw [step_idle (hturn.trans (congrArg _ (begin_fault hlive href hheld hstop hpend hpark hiss
        (lookup_fault hseg hline hlegal hcode h)))), settle_fetchFault hseg htr]
    refine ⟨fun d hd => ⟨fun hg => ?_, fun hg => ?_⟩, fun j h => hfault (decodeAt_illegal h),
      fun sub j h => hfault (decodeAt_misuse h)⟩
    · exact step_run (hturn.trans (congrArg _ (begin_run hlive href hheld hstop hpend hpark hiss (hrun hd) hg)))
    · exact step_idle (hturn.trans (congrArg _ (begin_skip hlive href hheld hstop hpend hpark hiss (hrun hd) hg)))
  · exact step_run ((nextTurn_strand hu).trans (congrArg _ (begin_issued hlive href hheld hstop hpend hpark h)))

end Sys2Proof.Machine
end

section
/-! SUPPORT. The forms that repair, log and set power, in system mode (R24, R402 to R407, R413, R414, R418): the checks of their
operands, passed, and each form's meaning. -/

namespace Sys2Proof.Machine

/-! ## Their arms -/

theorem exec_quar (x : DA) (s : State) : exec (.quar x) s = (runQuar x s).finish s := rfl

theorem exec_quarClr (x : DA) (s : State) : exec (.quarClr x) s = (runQuarClr x s).finish s := rfl

theorem exec_remap (x : DA) (s : State) : exec (.remap x) s = (runRemap x s).finish s := rfl

theorem exec_remapStat (x : DA) (s : State) : exec (.remapStat x) s = (runRemapStat x s).finish s := rfl

theorem exec_elogrd (x : ElogA) (s : State) : exec (.elogrd x) s = (runElogrd x s).finish s := rfl

theorem exec_elogrdPop (a : GReg) (s : State) : exec (.elogrdPop a) s = (runElogrdPop a s).finish s := rfl

theorem exec_elogrdCnt (x : DA) (s : State) : exec (.elogrdCnt x) s = (runElogrdCnt x s).finish s := rfl

theorem exec_elogrdZc (a : GReg) (s : State) : exec (.elogrdZc a) s = (runElogrdZc a s).finish s := rfl

theorem exec_pwrset (x : DAB) (s : State) : exec (.pwrset x) s = (runPwrset x s).finish s := rfl

theorem exec_pwrsetRd (x : DA) (s : State) : exec (.pwrsetRd x) s = (runPwrsetRd x s).finish s := rfl

theorem exec_hostsig (x : HostsigA) (s : State) : exec (.hostsig x) s = (runHostsig x s).finish s := rfl

/-! ## Operands that pass their checks (R405, R418) -/

/-- A position operand of the strand's own partition. -/
structure State.soundPos (s : State) (a : Word) (whole : Bool) : Prop where
  high : a.extractLsb' 32 32 = 0
  low : whole = true → a.extractLsb' 0 8 = 0
  pkg : posPkg a = ownPkg s
  die : s.dieIn s.me.part (posDie a) = true
  col : posCol a ≤ 159

theorem withPos_sound {s : State} {a : Word} {whole : Bool} (h : s.soundPos a whole) (k : CoreIx → Res) :
    withPos s a whole k = k (posCore a) := by
  have hbits : ¬(a.extractLsb' 32 32 != 0 || (whole && a.extractLsb' 0 8 != 0)) = true := by
    cases whole <;> simp [h.high, h.low]
  have hplace : ¬(posPkg a ≠ ownPkg s ∨ (!s.dieIn s.me.part (posDie a)) = true) := by simp [h.pkg, h.die]
  unfold withPos
  rw [if_neg hbits, if_neg hplace, if_neg (Nat.not_lt.mpr h.col)]

theorem withCounter_sound {s : State} {a : Word} {w : CounterOf} (h : s.soundPos a false)
    (hw : counterOf (a.extractLsb' 0 8).toNat = some w) (k : CoreIx → Nat → CounterOf → Res) :
    withCounter s a k = k (posCore a) (a.extractLsb' 0 8).toNat w := by
  unfold withCounter
  rw [withPos_sound h]
  dsimp only
  rw [hw]

theorem withDie_sound {s : State} {a : Word} (hhigh : a.extractLsb' 2 62 = 0)
    (hdie : s.dieIn s.me.part (a.extractLsb' 0 2).toNat = true) (k : Nat → Res) :
    withDie s a k = k (a.extractLsb' 0 2).toNat := by
  have hbits : ¬(a.extractLsb' 2 62 != 0) = true := by simp [hhigh]
  have hplace : ¬(!s.dieIn s.me.part (a.extractLsb' 0 2).toNat) = true := by rw [hdie]; decide
  unfold withDie
  dsimp only
  rw [if_neg hbits, if_neg hplace]

theorem islandDie_lt {i d : Nat} (h : islandDie i = some d) : i < 36 := by
  unfold islandDie at h
  split at h
  case isTrue h32 => omega
  case isFalse => split at h <;> simp_all

theorem islandDie_none {i : Nat} (h : 36 ≤ i) : islandDie i = none := by
  unfold islandDie
  rw [if_neg (by omega), if_neg (by omega)]

/-- An island of a die of the strand's own partition. -/
theorem withIsland_die {s : State} {a : Word} {d : Nat} (hd : islandDie a.toNat = some d) (hdie : s.dieIn s.me.part d = true)
    (k : Nat → Res) : withIsland s a k = k a.toNat := by
  have hlt := islandDie_lt hd
  unfold withIsland
  dsimp only
  rw [if_neg (by omega), hd]
  exact if_pos hdie

/-- One of the package's own islands, 36 to 39. -/
theorem withIsland_package {s : State} {a : Word} (hlo : 36 ≤ a.toNat) (hhi : a.toNat ≤ 39) (k : Nat → Res) :
    withIsland s a k = k a.toNat := by
  unfold withIsland
  dsimp only
  rw [if_neg (by omega), islandDie_none hlo]

/-! ## QUAR, REMAP and ELOGRD in system mode (R402 to R407) -/

section
variable {s : State} (hsys : s.me.sys = true)
include hsys

section
variable {x : DA} (hpos : s.soundPos (s.rg x.a) true)
include hpos

/-- A core already in quarantine is left as it is, and so is one that QUAR.CLR finds healthy. -/
theorem exec_quar_again (hq : (s.coreRec (posCore (s.rg x.a))).quar = true) : exec (.quar x) s = .next (s.wg x.d 0).goesOn := by
  rw [exec_quar, runQuar, requireSys_sys hsys]
  dsimp only
  rw [withPos_sound hpos, if_pos hq, finish_ok]

/-- A quiescent core is quarantined, and logged by its position. -/
theorem exec_quar_sets (hq : (s.coreRec (posCore (s.rg x.a))).quar = false) (hidle : s.quiescent (posCore (s.rg x.a)) = true) :
    exec (.quar x) s = .next ((State.logRec (s.modCore (posCore (s.rg x.a)) fun y => { y with quar := true })
      (dieOf (posCore (s.rg x.a))) 4 0x00 0xFF 0 0 (s.posOf (posCore (s.rg x.a)) 0)).wg x.d 1).goesOn := by
  rw [exec_quar, runQuar, requireSys_sys hsys]
  dsimp only
  rw [withPos_sound hpos, hq, hidle]
  rfl

theorem exec_quarClr_healthy (hq : (s.coreRec (posCore (s.rg x.a))).quar = false) :
    exec (.quarClr x) s = .next (s.wg x.d 0).goesOn := by
  rw [exec_quarClr, runQuarClr, requireSys_sys hsys, withPos_sound hpos, hq]
  rfl

theorem exec_quarClr_clears (hq : (s.coreRec (posCore (s.rg x.a))).quar = true) :
    exec (.quarClr x) s = .next (((s.zeroCore (posCore (s.rg x.a))).modCore (posCore (s.rg x.a)) fun y =>
      { y with quar := false }).wg x.d 1).goesOn := by
  rw [exec_quarClr, runQuarClr, requireSys_sys hsys, withPos_sound hpos, if_pos hq, finish_ok]

/-- REMAP of a row that may be remapped draws its test's outcome (log entry 83). -/
theorem exec_remap_tests (hidle : ∀ d ∈ rowCores (posCore (s.rg x.a)), s.quiescent d = true)
    (hfresh : s.remapOf (posCore (s.rg x.a)) = 0)
    (hhealthy : ∀ d ∈ rowCores (posCore (s.rg x.a)), d ≠ posCore (s.rg x.a) → (s.coreRec d).quar = false)
    (hrun : s.me.tr.st ≠ .running) :
    let c := posCore (s.rg x.a)
    let u : State := { s with freeCtr := s.freeCtr + 1 }
    exec (.remap x) s = .next (if Config.freeBit s.freeCtr then
        (u.logRec (dieOf c) 9 0x00 0xFF 0 0 (s.posOf c 0)).takeTrap (rights 42 (s.rg x.a)) 0
      else (State.wg ((u.modDie (dieOf c) fun y => { y with remaps := Tab.set y.remaps (rowOf c) (colOf c + 1) }).modCore
        c fun y => { y with quar := false }) x.d 1).goesOn) := by
  intro c u
  have hrow : ¬(rowCores c).any (fun d => !s.quiescent d) = true := by simpa using hidle
  have hquar : ¬(rowCores c).any (fun d => d != c && (s.coreRec d).quar) = true := by simpa using hhealthy
  rw [exec_remap, runRemap, requireSys_sys hsys]
  dsimp only
  rw [withPos_sound hpos, if_neg hrow, if_neg (not_not.mpr hfresh), if_neg hquar]
  by_cases hfail : Config.freeBit s.draw.1 = true
  · rw [if_pos hfail, finish_trap _ _ _ hrun]
    exact congrArg Host.Outcome.next (if_pos hfail).symm
  · rw [if_neg hfail, finish_ok]
    exact congrArg Host.Outcome.next (if_neg hfail).symm

end

section
variable {x : DA} (hpos : s.soundPos (s.rg x.a) false)
include hpos

theorem exec_remapStat_reads : exec (.remapStat x) s = .next (s.wg x.d (if s.remapOf (posCore (s.rg x.a)) = 0 then 0
    else BitVec.ofNat 64 (2 ^ 63 + (s.remapOf (posCore (s.rg x.a)) - 1)))).goesOn := by
  rw [exec_remapStat, runRemapStat, requireSys_sys hsys, withPos_sound hpos, finish_ok]

variable {w : CounterOf} (hw : counterOf ((s.rg x.a).extractLsb' 0 8).toNat = some w)
include hw

theorem exec_elogrdCnt_reads : exec (.elogrdCnt x) s =
    .next (s.wg x.d (BitVec.ofNat 64 (s.counter (posCore (s.rg x.a)) ((s.rg x.a).extractLsb' 0 8).toNat w))).goesOn := by
  rw [exec_elogrdCnt, runElogrdCnt, requireSys_sys hsys, withCounter_sound hpos hw, finish_ok]

theorem exec_elogrdZc_clears : exec (.elogrdZc x.a) s =
    .next (s.zeroCounter (posCore (s.rg x.a)) ((s.rg x.a).extractLsb' 0 8).toNat w).goesOn := by
  rw [exec_elogrdZc, runElogrdZc, requireSys_sys hsys, withCounter_sound hpos hw, finish_ok]

end

section
variable {x : ElogA} (hhigh : (s.rg x.a).extractLsb' 2 62 = 0)
  (hdie : s.dieIn s.me.part ((s.rg x.a).extractLsb' 0 2).toNat = true)
include hhigh hdie

/-- ELOGRD gives the oldest record's four words. -/
theorem exec_elogrd_oldest {r : LogRec} {rs : List LogRec} (hlog : (s.dieRec ((s.rg x.a).extractLsb' 0 2).toNat).log = r :: rs) :
    exec (.elogrd x) s = .next (s.wv x.v (ofElems 64 ([r.w0, r.w1, r.w2, r.w3].map BitVec.toNat))).goesOn := by
  rw [exec_elogrd, runElogrd, requireSys_sys hsys, withDie_sound hhigh hdie]
  dsimp only
  rw [hlog, finish_ok]

theorem exec_elogrd_empty (hlog : (s.dieRec ((s.rg x.a).extractLsb' 0 2).toNat).log = []) :
    exec (.elogrd x) s = .next (s.wv x.v (ofElems 64 [])).goesOn := by
  rw [exec_elogrd, runElogrd, requireSys_sys hsys, withDie_sound hhigh hdie]
  dsimp only
  rw [hlog, finish_ok]
  rfl

theorem exec_elogrdPop_drops : exec (.elogrdPop x.a) s =
    .next (s.modDie ((s.rg x.a).extractLsb' 0 2).toNat fun y => { y with log := y.log.drop 1 }).goesOn := by
  rw [exec_elogrdPop, runElogrdPop, requireSys_sys hsys, withDie_sound hhigh hdie, finish_ok]

end

/-! ## PWRSET and HOSTSIG in system mode (R24, R413, R414, R418) -/

theorem exec_pwrset_die {x : DAB} {d : Nat} (hp : (s.rg x.b).toNat ≤ 5) (hd : islandDie (s.rg x.a).toNat = some d)
    (hdie : s.dieIn s.me.part d = true) (hok : s.pointRefused (s.rg x.a).toNat (s.rg x.b).toNat = false) :
    exec (.pwrset x) s = .next ((s.setPoint (s.rg x.a).toNat (s.rg x.b).toNat).wg x.d
      (BitVec.ofNat 64 (s.point (s.rg x.a).toNat))).goesOn := by
  rw [exec_pwrset, runPwrset, requireSys_sys hsys]
  dsimp only
  rw [if_neg (Nat.not_lt.mpr hp), withIsland_die hd hdie, hd, hok]
  rfl

/-- The package's own islands take point 5 alone, from the one partition there is. -/
theorem exec_pwrset_package {x : DAB} (hp : s.rg x.b = 5) (hlo : 36 ≤ (s.rg x.a).toNat) (hhi : (s.rg x.a).toNat ≤ 39)
    (hsplit : s.host.split = 0) :
    exec (.pwrset x) s = .next ((s.setPoint (s.rg x.a).toNat 5).wg x.d (BitVec.ofNat 64 (s.point (s.rg x.a).toNat))).goesOn := by
  have hpoint : (s.rg x.b).toNat = 5 := congrArg BitVec.toNat hp
  have hok : s.pointRefused (s.rg x.a).toNat 5 = false := by
    unfold State.pointRefused
    rw [if_neg (by omega), if_neg (by omega)]
    rfl
  rw [exec_pwrset, runPwrset, requireSys_sys hsys]
  dsimp only
  rw [hpoint, if_neg (by decide), withIsland_package hlo hhi, islandDie_none hlo, hsplit, hok]
  rfl

theorem exec_pwrsetRd_reads {x : DA} {d : Nat} (hd : islandDie (s.rg x.a).toNat = some d) (hdie : s.dieIn s.me.part d = true) :
    exec (.pwrsetRd x) s = .next (State.wg { s with freeCtr := s.freeCtr + 1 } x.d
      (BitVec.ofNat 64 ((Config.freeWord s.freeCtr).toNat % 2 ^ 32 * 2 ^ 8 + s.point (s.rg x.a).toNat))).goesOn := by
  rw [exec_pwrsetRd, runPwrsetRd, requireSys_sys hsys, withIsland_die hd hdie]
  rfl

theorem exec_hostsig_writes {x : HostsigA} (h : s.drained) :
    let r := s.markIssue.hostEvent 1 s.me.part (dieOf s.core) x.code.toNat (s.rg x.a)
    exec (.hostsig x) s = .next (r.1.wg x.d (if r.2 then 1 else 0)).goesOn := by
  rw [exec_hostsig, runHostsig, requireSys_sys hsys, releaseWait_drained h]
  rfl

end

/-! ## The statements -/

theorem repairForms : Statements.RepairForms := by
  intro s hsys sound
  have soundPos {a : Word} {whole : Bool} : sound a whole → s.soundPos a whole :=
    fun ⟨high, low, pkg, die, col⟩ => ⟨high, low, pkg, die, col⟩
  refine ⟨fun x h => ?_, fun x h => ?_, fun x hhigh hdie => ?_⟩
  · have hpos := soundPos h
    intro c healthy none'
    refine ⟨exec_quar_sets hsys hpos, exec_quarClr_healthy hsys hpos, fun h => ?_, exec_remap_tests hsys hpos⟩
    have hq : (s.coreRec c).quar = true := by simpa [healthy] using h
    exact ⟨exec_quar_again hsys hpos hq, exec_quarClr_clears hsys hpos hq⟩
  · have hpos := soundPos h
    exact ⟨exec_remapStat_reads hsys hpos, fun w hw => ⟨exec_elogrdCnt_reads hsys hpos hw, exec_elogrdZc_clears hsys hpos hw⟩⟩
  · exact ⟨fun r rs hlog => exec_elogrd_oldest hsys hhigh hdie hlog, fun hlog => exec_elogrd_empty hsys hhigh hdie hlog,
      exec_elogrdPop_drops hsys hhigh hdie⟩

theorem powerAndHostForms : Statements.PowerAndHostForms := fun _ hsys =>
  ⟨fun _ _ hp hd hdie hok => exec_pwrset_die hsys hp hd hdie hok,
    fun _ hp hlo hhi hsplit => exec_pwrset_package hsys hp hlo hhi hsplit,
    fun _ _ hd hdie => exec_pwrsetRd_reads hsys hd hdie, fun _ h => exec_hostsig_writes hsys h⟩

/-- Settles O43: each form passes its operand's checks and ends in the state its meaning gives. -/
theorem repairAndPowerForms : Obligations.RepairAndPowerForms := ⟨repairForms, powerAndHostForms⟩

end Sys2Proof.Machine
end

section
/-! SUPPORT. The scalar .f32 forms: what one of them does once it has its flags, and what an enabled exception is (R35, R36, R93,
R100, R102, R103). -/

namespace Sys2Proof.Machine

/-! ## Their arms -/

theorem exec_add (x : AluS) (s : State) : exec (.add x) s = (runAdd x s).finish s := rfl

theorem exec_sub (x : AluS) (s : State) : exec (.sub x) s = (runSub x s).finish s := rfl

theorem exec_mul (x : AluS) (s : State) : exec (.mul x) s = (runMul x s).finish s := rfl

theorem exec_div (x : Alu) (s : State) : exec (.div x) s = (runDiv x s).finish s := rfl

theorem exec_min (x : Alu) (s : State) : exec (.min x) s = (runMin x s).finish s := rfl

theorem exec_max (x : Alu) (s : State) : exec (.max x) s = (runMax x s).finish s := rfl

theorem exec_cmp (x : CmpR) (s : State) : exec (.cmp x) s = (runCmp x s).finish s := rfl

/-! ## Exceptions (R35) -/

theorem orException_finish_none {s s0 : State} {fl : Num.Flags} (h : enabledException s fl = none) (f : State → State) :
    (orException s fl fun u => .ok (f u)).finish s0 = .next (f (s.addFlags fl)).goesOn := by
  rw [orException_none h, finish_ok]

theorem orException_finish_some {s s0 : State} {fl : Num.Flags} {sub : BitVec 8} (h : enabledException s fl = some sub)
    (hrun : s0.me.tr.st ≠ .running) (k : State → Res) :
    (orException s fl k).finish s0 = .next ((s.addFlags fl).traps 0x50 sub 0) := by
  rw [orException_some h, finish_trap _ _ _ hrun]
  rfl

/-- The subcode names a raised and enabled exception, and none below it is both. -/
theorem enabledException_lowest {s : State} {f : Num.Flags} {sub : BitVec 8} (h : enabledException s f = some sub) :
    (enabledOf s.me.rmode f).getLsbD sub.toNat = true ∧ ∀ k, k < sub.toNat → (enabledOf s.me.rmode f).getLsbD k = false := by
  obtain ⟨k, hfind, rfl⟩ := Option.map_eq_some_iff.mp h
  obtain ⟨hk, hmem, hlow⟩ := List.find?_range_eq_some.mp hfind
  have hlt : k < 5 := List.mem_range.mp hmem
  have hnat : (BitVec.ofNat 8 k).toNat = k := by rw [BitVec.toNat_ofNat, Nat.mod_eq_of_lt (by omega)]
  rw [hnat]
  exact ⟨hk, fun j hj => by simpa using hlow j hj⟩

/-! ## Rounding (R36, R100) -/

/-- Passes that do not run draw no random number. -/
theorem rmodeReady_of_idle {s : State} (h : s.me.tr.st ≠ .running) : s.rmodeReady := by
  unfold State.rmodeReady Treadle.mayDraw
  simp [h]

/-- The result of a form that rounds, once no earlier pass can step the generator. -/
theorem f32Result_ready {s : State} (h : s.rmode = .stochastic → s.rmodeReady) (d : GReg) (op : RMode → Nat → Nat × Num.Flags) :
    f32Result s d op =
      (let q := Num.draw s.rmode s.srg
       orException s (op s.rmode q.2).2 fun u => .ok ((u.setSrg q.1).wg d (BitVec.ofNat 64 (op s.rmode q.2).1))) := by
  have hfree : ¬(s.rmode = .stochastic ∧ s.me.tr.mayDraw = true) := fun ⟨hm, hd⟩ => Bool.false_ne_true ((h hm).symm.trans hd)
  unfold f32Result
  rw [if_neg hfree]

section
variable {s : State}

theorem arith_f32 {x : AluS} (hty : x.ty = .f32) (int : Int → Int → Int)
    (flt : RMode → Nat → Num.Val → Num.Val → Nat × Num.Flags) :
    arith x s int flt = f32Result s x.d fun m u => flt m u (f32Of (s.rg x.a)) (f32Of (s.rg x.b)) := if_pos hty

theorem runDiv_f32 {x : Alu} (hty : x.ty = .f32) :
    runDiv x s = f32Result s x.d fun m u => Num.fdiv .f32 m u (f32Of (s.rg x.a)) (f32Of (s.rg x.b)) := if_pos hty

theorem minMax_f32 {x : Alu} (hty : x.ty = .f32) (mx : Bool) :
    minMax x s mx =
      (let r := Num.fminmax mx .f32 ((s.rg x.a).toNat % 2 ^ 32) ((s.rg x.b).toNat % 2 ^ 32)
       orException s r.2 fun u => .ok (u.wg x.d (BitVec.ofNat 64 r.1))) := if_pos hty

theorem runCmp_f32 {x : CmpR} (hty : x.ty = .f32) :
    runCmp x s =
      (let r := Num.fcmp x.cond (f32Of (s.rg x.a)) (f32Of (s.rg x.b))
       orException s r.2 fun u => .ok (u.wp x.p r.1)) := if_pos hty

end

/-- A form that rounds, with no enabled exception among its flags. -/
theorem f32Result_finish_none {s : State} {op : RMode → Nat → Nat × Num.Flags} (d : GReg)
    (hready : s.rmode = .stochastic → s.rmodeReady) (h : enabledException s (op s.rmode (Num.draw s.rmode s.srg).2).2 = none) :
    (f32Result s d op).finish s =
      .next (((s.addFlags (op s.rmode (Num.draw s.rmode s.srg).2).2).setSrg (Num.draw s.rmode s.srg).1).wg d
        (BitVec.ofNat 64 (op s.rmode (Num.draw s.rmode s.srg).2).1)).goesOn := by
  rw [f32Result_ready hready]
  exact orException_finish_none h _

/-- A form that rounds, with one: the generator stays as it was. -/
theorem f32Result_finish_some {s : State} {op : RMode → Nat → Nat × Num.Flags} {sub : BitVec 8} (d : GReg)
    (hrun : s.me.tr.st ≠ .running) (h : enabledException s (op s.rmode (Num.draw s.rmode s.srg).2).2 = some sub) :
    (f32Result s d op).finish s =
      .next ((s.addFlags (op s.rmode (Num.draw s.rmode s.srg).2).2).traps 0x50 sub 0) := by
  rw [f32Result_ready fun _ => rmodeReady_of_idle hrun]
  exact orException_finish_some h hrun _

/-! ## The statements -/

theorem floatScalarCompletes : Statements.FloatScalarCompletes := by
  intro s
  refine ⟨fun x hty hready => ⟨fun h => ?_, fun h => ?_, fun h => ?_⟩, fun x hty => ⟨fun hready h => ?_, fun h => ?_, fun h => ?_⟩,
    fun x hty => fun h => ?_⟩
  · rw [exec_add, runAdd, arith_f32 hty]; exact f32Result_finish_none x.d hready h
  · rw [exec_sub, runSub, arith_f32 hty]; exact f32Result_finish_none x.d hready h
  · rw [exec_mul, runMul, arith_f32 hty]; exact f32Result_finish_none x.d hready h
  · rw [exec_div, runDiv_f32 hty]; exact f32Result_finish_none x.d hready h
  · rw [exec_min, runMin, minMax_f32 hty]; exact orException_finish_none h _
  · rw [exec_max, runMax, minMax_f32 hty]; exact orException_finish_none h _
  · rw [exec_cmp, runCmp_f32 hty]; exact orException_finish_none h _

theorem enabledExceptionTraps : Statements.EnabledExceptionTraps := by
  intro s sub hrun
  refine ⟨fun x hty => ⟨fun h => ?_, fun h => ?_, fun h => ?_⟩, fun x hty => ⟨fun h => ?_, fun h => ?_, fun h => ?_⟩,
    fun x hty => fun h => ?_, fun f h => enabledException_lowest h⟩
  · rw [exec_add, runAdd, arith_f32 hty]; exact f32Result_finish_some x.d hrun h
  · rw [exec_sub, runSub, arith_f32 hty]; exact f32Result_finish_some x.d hrun h
  · rw [exec_mul, runMul, arith_f32 hty]; exact f32Result_finish_some x.d hrun h
  · rw [exec_div, runDiv_f32 hty]; exact f32Result_finish_some x.d hrun h
  · rw [exec_min, runMin, minMax_f32 hty]; exact orException_finish_some h hrun _
  · rw [exec_max, runMax, minMax_f32 hty]; exact orException_finish_some h hrun _
  · rw [exec_cmp, runCmp_f32 hty]; exact orException_finish_some h hrun _

/-- Settles O4: each form is one rounding, or none, before the test for an enabled exception. -/
theorem floatScalarForms : Obligations.FloatScalarForms := ⟨floatScalarCompletes, enabledExceptionTraps⟩

end Sys2Proof.Machine
end

section
/-! SUPPORT. Every privileged form asks for system mode before anything else (R42, R120). -/

namespace Sys2Proof.Machine

/-- The form's meaning stands behind the check of R42: what it would do in system mode is looked at there only. -/
def asksSystem (i : Instr) : Prop := ∀ s, ∃ r, exec i s = (requireSys s r).finish s

theorem exec_asksSystem_user {i : Instr} (h : asksSystem i) {s : State} (hsys : s.me.sys = false) (hrun : s.me.tr.st ≠ .running) :
    exec i s = .next (s.traps 0x05 0 0) := by
  obtain ⟨r, hr⟩ := h s
  rw [hr, requireSys_user hsys]
  exact finish_trap _ _ _ hrun

/-- Settles O44: each form of the list asks for system mode first, and in user mode that is where it ends. -/
theorem privilegedFormsTrap : Obligations.PrivilegedFormsTrap := by
  intro s hsys hrun a x y z t e h i hi
  have hask : asksSystem i := by
    simp only [List.mem_cons, List.not_mem_nil, or_false] at hi
    rcases hi with rfl | rfl | rfl | rfl | rfl | rfl | rfl | rfl | rfl | rfl | rfl | rfl | rfl | rfl | rfl | rfl | rfl | rfl | rfl |
      rfl | rfl | rfl | rfl <;> exact fun _ => ⟨_, rfl⟩
  exact exec_asksSystem_user hask hsys hrun

end Sys2Proof.Machine
end

section
/-! SUPPORT. The register files: what each reads after a write, and the elements of a packed vector (R25, R26, R115). -/

namespace Sys2Proof.Machine

/-! ## General registers (R25, R115) -/

theorem Strand.readG_writeG_ite (x : Strand) (r q : GReg) (w : Word) (h : r ≠ 0) :
    (x.writeG r w).readG q = if q = r then w else x.readG q := by
  split
  case isTrue hq => subst hq; exact x.readG_writeG q w h
  case isFalse hq => exact x.readG_writeG_ne r q w hq

/-- In system mode g60 to g63 are the slot's, and the strand's own registers are kept. -/
theorem Strand.writeG_g_system (x : Strand) (r : GReg) (w : Word) (hsys : x.sys = true) (hr : 60 ≤ r.val) :
    (x.writeG r w).g = x.g := by
  unfold Strand.writeG
  rw [dif_pos ⟨hsys, hr⟩]
  split <;> rfl

theorem Strand.writeG_sysg_own (x : Strand) (r : GReg) (w : Word) (h : x.sys = false ∨ r.val < 60) :
    (x.writeG r w).sysg = x.sysg := by
  have hown : ¬(x.sys = true ∧ 60 ≤ r.val) := by
    rintro ⟨hsys, hr⟩
    rcases h with h | h
    · exact Bool.false_ne_true (h.symm.trans hsys)
    · omega
  unfold Strand.writeG
  rw [dif_neg hown]
  split <;> rfl

/-! ## Predicate, mask and vector registers (R25) -/

@[simp] theorem Strand.writeP_zero (x : Strand) (b : Bool) : x.writeP 0 b = x := rfl

@[simp] theorem Strand.writeM_zero (x : Strand) (w : Word) : x.writeM 0 w = x := rfl

theorem Strand.readP_of_ne_zero (x : Strand) {q : PReg} (h : q ≠ 0) : x.readP q = x.p.getLsbD q.val := by
  unfold Strand.readP; simp [h]

/-- Bit j of a predicate file in which bit k has been written. -/
theorem getLsbD_writeBit (p : BitVec 8) (k j : Nat) (b : Bool) (hk : k < 8) (hj : j < 8) :
    (if b then p ||| (1#8 <<< k) else p &&& ~~~(1#8 <<< k)).getLsbD j = if j = k then b else p.getLsbD j := by
  cases b <;> by_cases h : j = k <;> simp [h, hk, hj] <;> omega

theorem Strand.readP_writeP (x : Strand) (r q : PReg) (b : Bool) (h : r ≠ 0) :
    (x.writeP r b).readP q = if q = r then b else x.readP q := by
  by_cases hq : q = 0
  · subst hq
    rw [if_neg (Ne.symm h)]
    rfl
  · have hp : (x.writeP r b).p = if b then x.p ||| (1#8 <<< r.val) else x.p &&& ~~~(1#8 <<< r.val) := by
      unfold Strand.writeP; rw [if_neg h]
    rw [Strand.readP_of_ne_zero _ hq, Strand.readP_of_ne_zero _ hq, hp, getLsbD_writeBit _ _ _ _ r.isLt q.isLt]
    simp only [Fin.ext_iff]

theorem Strand.readM_writeM (x : Strand) (r q : MReg) (w : Word) (h : r ≠ 0) :
    (x.writeM r w).readM q = if q = r then w else x.readM q := by
  have hm : (x.writeM r w).m = x.m.set r w := by unfold Strand.writeM; rw [if_neg h]
  unfold Strand.readM
  rw [hm]
  by_cases hq : q = 0
  · subst hq; simp [Ne.symm h]
  · simp [hq, Vector.getElem_set, Fin.ext_iff, eq_comm]

theorem Strand.readV_writeV (x : Strand) (r q : VReg) (w : VecReg) : (x.writeV r w).readV q = if q = r then w else x.readV q := by
  unfold Strand.readV Strand.writeV
  simp [Vector.getElem_set, Fin.ext_iff, eq_comm]

/-! ## Vector elements (R26) -/

theorem packElems_lt (w : Nat) (xs : List Nat) : packElems w xs < 2 ^ (w * xs.length) := by
  induction xs with
  | nil => simp [packElems]
  | cons x r ih =>
    have hx : x % 2 ^ w < 2 ^ w := Nat.mod_lt _ (by positivity)
    rw [packElems, List.length_cons, Nat.mul_succ, Nat.pow_add, Nat.mul_comm (2 ^ (w * r.length))]
    calc x % 2 ^ w + 2 ^ w * packElems w r < 2 ^ w + 2 ^ w * packElems w r := by omega
      _ = 2 ^ w * (packElems w r + 1) := by ring
      _ ≤ 2 ^ w * 2 ^ (w * r.length) := Nat.mul_le_mul_left _ ih

/-- Digit i of the packed number is the value laid there. -/
theorem packElems_digit (w : Nat) (xs : List Nat) (i : Nat) : packElems w xs / 2 ^ (i * w) % 2 ^ w = xs.getD i 0 % 2 ^ w := by
  induction xs generalizing i with
  | nil => simp [packElems]
  | cons x r ih =>
    have hpos : 0 < 2 ^ w := by positivity
    cases i with
    | zero => simp [packElems]
    | succ i =>
      have hdrop : packElems w (x :: r) / 2 ^ w = packElems w r := by
        rw [packElems, Nat.add_mul_div_left _ _ hpos, Nat.div_eq_of_lt (Nat.mod_lt _ hpos), Nat.zero_add]
      rw [Nat.succ_mul, Nat.add_comm, Nat.pow_add, ← Nat.div_div_eq_div_mul, hdrop, ih, List.getD_cons_succ]

theorem toNat_ofNat_of_fits {n x : Nat} (h : x < 2 ^ n) : (BitVec.ofNat n x).toNat = x := by
  rw [BitVec.toNat_ofNat, Nat.mod_eq_of_lt h]

theorem elem_ofElems {w : Nat} {xs : List Nat} (hlen : xs.length ≤ 512 / w) (i : Nat) :
    elem (ofElems w xs) i w = xs.getD i 0 % 2 ^ w := by
  have hbits : w * xs.length ≤ 512 := (Nat.mul_le_mul_left w hlen).trans (Nat.mul_div_le 512 w)
  have hfit : packElems w xs < 2 ^ 512 := (packElems_lt w xs).trans_le (pow_le_pow_right₀ one_le_two hbits)
  unfold elem ofElems
  have hnat : (BitVec.ofNat 512 (packElems w xs)).toNat = packElems w xs := toNat_ofNat_of_fits hfit
  rw [hnat, packElems_digit]

/-! ## The statements -/

theorem registerFilesReadBack : Statements.RegisterFiles := fun x =>
  ⟨rfl, rfl, rfl, fun _ _ => ⟨rfl, rfl, rfl⟩, fun r q w h => x.readG_writeG_ite r q w h, fun r q b h => x.readP_writeP r q b h,
    fun r q w h => x.readM_writeM r q w h, x.readV_writeV, fun r w => ⟨x.writeG_g_system r w, x.writeG_sysg_own r w⟩⟩

theorem vectorElementsReadBack : Statements.VectorElementsReadBack := fun _ _ i _ hlen _ => elem_ofElems hlen i

/-- Settles O52: each file reads back by its own law, and a packed vector by the digits of its number. -/
theorem registerFiles : Obligations.RegisterFiles := ⟨registerFilesReadBack, vectorElementsReadBack⟩

end Sys2Proof.Machine
end

section
/-! SUPPORT. What a strand keeps where an instruction writes a register, merges flags or stores the generator (R32, R42). -/

namespace Sys2Proof.Machine

/-- y has the special registers, queue registers, landing set and treadle of x, with sticky bits merged and the generator free. -/
structure Strand.KeepsSpecial (x y : Strand) : Prop where
  q : y.q = x.q
  ls : y.ls = x.ls
  tvec : y.tvec = x.tvec
  tpc : y.tpc = x.tpc
  tcause : y.tcause = x.tcause
  tval : y.tval = x.tval
  ttag : y.ttag = x.ttag
  stpc : y.stpc = x.stpc
  stcause : y.stcause = x.stcause
  stval : y.stval = x.stval
  sttag : y.sttag = x.sttag
  entW : y.entW = x.entW
  entS : y.entS = x.entS
  lsctl : y.lsctl = x.lsctl
  core : y.core = x.core
  weave : y.weave = x.weave
  seg : y.seg = x.seg
  trcnt : y.trcnt = x.trcnt
  tr : y.tr = x.tr
  flags : ∃ f : Num.Flags, y.flags = x.flags ||| f.setWidth 64
  rmode : y.rmode.extractLsb' 0 32 = x.rmode.extractLsb' 0 32

namespace Strand.KeepsSpecial

theorem no_flag (w : Word) : ∃ f : Num.Flags, w = w ||| f.setWidth 64 := ⟨0, by simp⟩

theorem writeG (x : Strand) (r : GReg) (w : Word) : x.KeepsSpecial (x.writeG r w) := by
  constructor
  case flags => rw [Strand.writeG_flags]; exact no_flag x.flags
  all_goals simp

theorem writeV (x : Strand) (r : VReg) (w : VecReg) : x.KeepsSpecial (x.writeV r w) := by
  constructor
  case flags => exact no_flag x.flags
  all_goals rfl

theorem writeP (x : Strand) (r : PReg) (b : Bool) : x.KeepsSpecial (x.writeP r b) := by
  constructor
  case flags => rw [Strand.writeP_flags]; exact no_flag x.flags
  all_goals simp

theorem writeM (x : Strand) (r : MReg) (w : Word) : x.KeepsSpecial (x.writeM r w) := by
  constructor
  case flags => rw [Strand.writeM_flags]; exact no_flag x.flags
  all_goals simp

theorem mergeFlags (x : Strand) (f : Num.Flags) : x.KeepsSpecial (mergeFlags x f) := by
  constructor
  case flags => exact ⟨f, rfl⟩
  all_goals rfl

theorem withGenerator (x : Strand) (r : BitVec 32) : x.KeepsSpecial { x with rmode := r ++ x.rmode.extractLsb' 0 32 } := by
  constructor
  case flags => exact no_flag x.flags
  case rmode => exact BitVec.extractLsb'_append_eq_right
  all_goals rfl

section
variable {x y : Strand} (h : x.KeepsSpecial y)
include h

theorem flags_high {k : Nat} (hk : 9 ≤ k) : y.flags.getLsbD k = x.flags.getLsbD k := by
  obtain ⟨f, hf⟩ := h.flags
  rw [hf, BitVec.getLsbD_or, BitVec.getLsbD_setWidth, f.getLsbD_of_ge k hk, Bool.and_false, Bool.or_false]

theorem flags_kept {k : Nat} (hk : x.flags.getLsbD k = true) : y.flags.getLsbD k = true := by
  obtain ⟨f, hf⟩ := h.flags
  rw [hf, BitVec.getLsbD_or, hk, Bool.true_or]

end

end Strand.KeepsSpecial

@[simp] theorem Treadle.unstop_n (tr : Treadle) : tr.unstop.n = tr.n := by unfold Treadle.unstop; split <;> rfl
@[simp] theorem Treadle.unstop_entries (tr : Treadle) : tr.unstop.entries = tr.entries := by unfold Treadle.unstop; split <;> rfl

/-- Settles O56: each of the six terms goes on from a change of the strand's own record that keeps what is special of it. -/
theorem completionFrame : Obligations.CompletionFrame := by
  intro s g v p m w x b f r t ht
  obtain ⟨y, h, rfl⟩ : ∃ y, s.me.KeepsSpecial y ∧ t = State.goesOn { s with me := y } := by
    simp only [List.mem_cons, List.not_mem_nil, or_false] at ht
    rcases ht with rfl | rfl | rfl | rfl | rfl | rfl
    · exact ⟨_, .writeG s.me g w, rfl⟩
    · exact ⟨_, .writeV s.me v x, rfl⟩
    · exact ⟨_, .writeP s.me p b, rfl⟩
    · exact ⟨_, .writeM s.me m w, rfl⟩
    · exact ⟨_, .mergeFlags s.me f, rfl⟩
    · exact ⟨_, .withGenerator s.me r, rfl⟩
  have htr : (State.goesOn { s with me := y }).me.tr = s.me.tr.unstop := congrArg Treadle.unstop h.tr
  exact ⟨rfl, rfl, rfl, rfl, rfl, rfl, rfl, rfl, rfl, rfl, rfl, rfl, rfl, rfl, h.q, h.ls, h.tvec, h.tpc, h.tcause, h.tval, h.ttag, h.stpc,
    h.stcause, h.stval, h.sttag, h.entW, h.entS, h.lsctl, h.core, h.weave, h.seg, h.trcnt, by rw [htr, Treadle.unstop_n],
    by rw [htr, Treadle.unstop_entries], fun k hk => h.flags_high hk, fun k hk => h.flags_kept hk, h.rmode⟩

end Sys2Proof.Machine
end

section
/-! SUPPORT. The vector floating-point forms: what a form does that rounds lane by lane, or that picks lane by lane, once it has its
flags (R35, R36, R121, R125). -/

namespace Sys2Proof.Machine

/-! ## Their arms, where nothing holds them back -/

section
variable {s : State} (h : s.unheld)
include h

theorem exec_vadd_unheld (x : VArS) :
    exec (.vadd x) s = (vecArith x s (· + ·) fun f m u a b => Num.fadd f m u a b).finish s :=
  congrArg (Res.finish · s) (recordable_unheld h ..)

theorem exec_vsub_unheld (x : VArS) :
    exec (.vsub x) s = (vecArith x s (· - ·) fun f m u a b => Num.fadd f m u a b.negate).finish s :=
  congrArg (Res.finish · s) (recordable_unheld h ..)

theorem exec_vmul_unheld (x : VArS) :
    exec (.vmul x) s = (vecArith x s (· * ·) fun f m u a b => Num.fmul f m u a b).finish s :=
  congrArg (Res.finish · s) (recordable_unheld h ..)

theorem exec_vfma_unheld (x : VFmaA) :
    exec (.vfma x) s = (roundLanes s x.ty x.d x.sel x.rnd fun m u i => Num.ffma (Num.fmtOf x.ty) m u x.ns (fval x.ty (s.rv x.a) i)
      (fval x.ty (s.rv x.b) i) (fval x.ty (s.rv x.c) i)).finish s :=
  congrArg (Res.finish · s) (recordable_unheld h ..)

theorem exec_vdiv_unheld (x : VBinR) :
    exec (.vdiv x) s = (roundLanes s x.ty x.d x.sel x.rnd fun m u i => Num.fdiv (Num.fmtOf x.ty) m u (fval x.ty (s.rv x.a) i)
      (fval x.ty (s.rv x.b) i)).finish s :=
  congrArg (Res.finish · s) (recordable_unheld h ..)

theorem exec_vsqrt_unheld (x : VUnR) :
    exec (.vsqrt x) s = (roundLanes s x.ty x.d x.sel x.rnd fun m u i => Num.fsqrt (Num.fmtOf x.ty) m u (fval x.ty (s.rv x.a) i)).finish s :=
  congrArg (Res.finish · s) (recordable_unheld h ..)

theorem exec_vrcp_unheld (x : VUnR) :
    exec (.vrcp x) s = (roundLanes s x.ty x.d x.sel x.rnd fun m u i => Num.fdiv (Num.fmtOf x.ty) m u (.fin false 1 0)
      (fval x.ty (s.rv x.a) i)).finish s :=
  congrArg (Res.finish · s) (recordable_unheld h ..)

theorem exec_vrsqrt_unheld (x : VUnR) :
    exec (.vrsqrt x) s = (roundLanes s x.ty x.d x.sel x.rnd fun m u i => Num.frsqrt (Num.fmtOf x.ty) m u (fval x.ty (s.rv x.a) i)).finish s :=
  congrArg (Res.finish · s) (recordable_unheld h ..)

theorem exec_vexp2_unheld (x : VUnR) :
    exec (.vexp2 x) s = (roundLanes s x.ty x.d x.sel x.rnd fun m u i => Num.fexp2 (Num.fmtOf x.ty) m u (fval x.ty (s.rv x.a) i)).finish s :=
  congrArg (Res.finish · s) (recordable_unheld h ..)

theorem exec_vmin_unheld (x : VBin) : exec (.vmin x) s = (vecMinMax x s false).finish s :=
  congrArg (Res.finish · s) (recordable_unheld h ..)

theorem exec_vmax_unheld (x : VBin) : exec (.vmax x) s = (vecMinMax x s true).finish s :=
  congrArg (Res.finish · s) (recordable_unheld h ..)

end

theorem vecArith_float {x : VArS} (hty : x.ty.isFloat = true) (s : State) (int : Int → Int → Int)
    (flt : Num.Fmt → RMode → Nat → Num.Val → Num.Val → Nat × Num.Flags) :
    vecArith x s int flt = roundLanes s x.ty x.d x.sel x.rnd fun m u i =>
      flt (Num.fmtOf x.ty) m u (fval x.ty (s.rv x.a) i) (fval x.ty (s.rv x.b) i) := if_pos hty

theorem vecMinMax_float {x : VBin} (hty : x.ty.isFloat = true) (s : State) (mx : Bool) :
    vecMinMax x s mx = lanewise s x.ty x.d x.sel fun i =>
      Num.fminmax mx (Num.fmtOf x.ty) (elem (s.rv x.a) i x.ty.width) (elem (s.rv x.b) i x.ty.width) := if_pos hty

/-! ## Lanes that round (R36) -/

/-- i is a form that rounds: each selected lane, ascending, takes its step of the generator and the result f gives; an enabled
exception leaves the generator and the register. -/
def roundsLanes (s : State) (t : Ty) (d : VReg) (sel : VSel) (rnd : Option RMode) (i : Instr)
    (f : RMode → Nat → Nat → Nat × Num.Flags) : Prop :=
  let m := rnd.getD s.rmode
  let y (i : Nat) := f m (laneRand s t sel m i) i
  let fl := laneFlags s t sel fun i => (y i).2
  (enabledException s fl = none → exec i s = .next (((s.addFlags fl).setSrg
    (gens m s.srg (((List.range t.count).filter (s.vsel t sel)).length))).wv d (laneVec s t sel d fun i => (y i).1)).goesOn) ∧
  s.raises fl i

section
variable {s : State} {t : Ty} {d : VReg} {sel : VSel} {i : Instr}

/-- Lanes that round nothing. -/
theorem lanewise_none {op : Nat → Nat × Num.Flags} (h : exec i s = (lanewise s t d sel op).finish s)
    (hnone : enabledException s (laneFlags s t sel fun i => (op i).2) = none) :
    exec i s = .next (s.flagged (laneFlags s t sel fun i => (op i).2) fun u => u.wv d (laneVec s t sel d fun i => (op i).1)) := by
  rw [lanewise_eq] at h
  exact h.trans (orException_finish_none hnone _)

variable (hrun : s.me.tr.st ≠ .running)
include hrun

theorem roundsLanes_of_exec {rnd : Option RMode} {f : RMode → Nat → Nat → Nat × Num.Flags}
    (h : exec i s = (roundLanes s t d sel rnd f).finish s) : roundsLanes s t d sel rnd i f := by
  rw [roundLanes_eq] at h
  exact ⟨fun hnone => h.trans (orException_finish_none hnone _), fun sub hsome => h.trans (orException_finish_some hsome hrun _)⟩

theorem lanewise_raises {op : Nat → Nat × Num.Flags} (h : exec i s = (lanewise s t d sel op).finish s) :
    s.raises (laneFlags s t sel fun i => (op i).2) i := by
  rw [lanewise_eq] at h
  exact fun sub hsome => h.trans (orException_finish_some hsome hrun _)

end

/-- Settles O36: each form is one of the two lane-by-lane shapes, which end in the test for an enabled exception. -/
theorem vectorFloatForms : Obligations.VectorFloatForms := by
  intro s hu
  have hrun := hu.1.2
  refine ⟨fun x hty => ⟨?_, ?_, ?_⟩, fun x => ?_, fun x => ?_, fun x => ⟨?_, ?_, ?_, ?_⟩, fun x hty => ?_⟩
  · have h := exec_vadd_unheld hu x
    rw [vecArith_float hty] at h
    exact (roundsLanes_of_exec hrun h :)
  · have h := exec_vsub_unheld hu x
    rw [vecArith_float hty] at h
    exact (roundsLanes_of_exec hrun h :)
  · have h := exec_vmul_unheld hu x
    rw [vecArith_float hty] at h
    exact (roundsLanes_of_exec hrun h :)
  · exact (roundsLanes_of_exec hrun (exec_vfma_unheld hu x) :)
  · exact (roundsLanes_of_exec hrun (exec_vdiv_unheld hu x) :)
  · exact (roundsLanes_of_exec hrun (exec_vsqrt_unheld hu x) :)
  · exact (roundsLanes_of_exec hrun (exec_vrcp_unheld hu x) :)
  · exact (roundsLanes_of_exec hrun (exec_vrsqrt_unheld hu x) :)
  · exact (roundsLanes_of_exec hrun (exec_vexp2_unheld hu x) :)
  · have hmin := exec_vmin_unheld hu x
    have hmax := exec_vmax_unheld hu x
    rw [vecMinMax_float hty] at hmin hmax
    exact ⟨(lanewise_none hmin :), (lanewise_none hmax :), (lanewise_raises hrun hmin :), (lanewise_raises hrun hmax :)⟩

end Sys2Proof.Machine
end

section
/-! SUPPORT. MFCR and the MTCR forms: who may read and write, the fields a write changes, and the rounding modes no write stores (R30
to R38, R72, R119). -/

namespace Sys2Proof.Machine

/-! ## Their arms -/

theorem exec_mfcr (x : McrA) (s : State) : exec (.mfcr x) s = (runMfcr x s).finish s := rfl

theorem exec_mtcr (x : MtcA) (s : State) : exec (.mtcr x) s = (moveToCR x s (fun _ a => a) fun u _ => u).finish s := rfl

theorem exec_mtcrSet (x : MtcA) (s : State) : exec (.mtcrSet x) s = (moveToCR x s (fun o a => o ||| a) fun u _ => u).finish s := rfl

theorem exec_mtcrClr (x : MtcA) (s : State) : exec (.mtcrClr x) s = (moveToCR x s (fun o a => o &&& ~~~a) fun u _ => u).finish s := rfl

theorem exec_mtcrEnt (x : MtcA) (s : State) :
    exec (.mtcrEnt x) s = (requireSys s (moveToCR x s (fun _ a => a) (setEntry x.cr))).finish s := rfl

/-! ## Bits under a mask -/

theorem getLsbD_masked (old w m : Word) (k : Nat) :
    ((old &&& ~~~m) ||| (w &&& m)).getLsbD k = if m.getLsbD k then w.getLsbD k else old.getLsbD k := by
  rw [BitVec.getLsbD_or, BitVec.getLsbD_and, BitVec.getLsbD_and, BitVec.getLsbD_not]
  cases m.getLsbD k
  · by_cases hk : k < 64
    · simp [hk]
    · simp [old.getLsbD_of_ge k (by omega)]
  · simp

/-- A write of every bit stores the word. -/
theorem masked_allOnes (old w : Word) : ((old &&& ~~~BitVec.allOnes 64) ||| (w &&& BitVec.allOnes 64)) = w := by
  rw [BitVec.not_allOnes, BitVec.and_zero, BitVec.zero_or, BitVec.and_allOnes]

/-- RM is writable: a write to %rmode stores the mode it was given. -/
theorem masked_rmode_mode {r : CReg} (hr : r = .rmode) (old w : Word) :
    ((old &&& ~~~CReg.mask r) ||| (w &&& CReg.mask r)).extractLsb' 0 3 = w.extractLsb' 0 3 := by
  subst hr
  ext k hk
  have hmask : (CReg.mask .rmode).getLsbD k = true := by
    have : k = 0 ∨ k = 1 ∨ k = 2 := by omega
    rcases this with rfl | rfl | rfl <;> decide
  simp only [BitVec.getElem_extractLsb', Nat.zero_add, getLsbD_masked, hmask, if_true]

theorem mode_ge_six (m : BitVec 3) : 6 ≤ m.toNat ↔ m = 6 ∨ m = 7 := by
  revert m; decide

/-! ## Moves to a control register -/

section
variable {s : State} {x : MtcA} {f : Word → Word → Word} {k : State → Word → State}

theorem moveToCR_refused (h : ¬((CReg.isSystem x.cr = false ∧ CReg.isFixed x.cr = false) ∨ s.me.sys = true)) :
    moveToCR x s f k = trapOf s 0x05 0 0 := by
  rw [not_or, not_and_or, Bool.not_eq_true] at h
  obtain ⟨hreg, hsys⟩ := h
  have hmay : ((CReg.isSystem x.cr || CReg.isFixed x.cr) && !s.me.sys) = true := by
    rw [hsys, Bool.not_false, Bool.and_true, Bool.or_eq_true]
    simpa using hreg
  unfold moveToCR
  rw [if_pos hmay]

theorem not_barred (h : (CReg.isSystem x.cr = false ∧ CReg.isFixed x.cr = false) ∨ s.me.sys = true) :
    ¬((CReg.isSystem x.cr || CReg.isFixed x.cr) && !s.me.sys) = true := by
  rcases h with ⟨hsystem, hfixed⟩ | hsys
  · rw [hsystem, hfixed]; simp
  · rw [hsys]; simp

/-- A move that is allowed, need not wait and stores no rounding mode of 6 or 7. -/
theorem moveToCR_writes (hmay : (CReg.isSystem x.cr = false ∧ CReg.isFixed x.cr = false) ∨ s.me.sys = true)
    (hmode : x.cr = .rmode → s.rmodeReady) (hflags : x.cr = .flags → s.flagsReady)
    (hlegal : x.cr = .rmode → (f (s.readCR x.cr) (s.rg x.a)).extractLsb' 0 3 ≠ 6 ∧ (f (s.readCR x.cr) (s.rg x.a)).extractLsb' 0 3 ≠ 7) :
    moveToCR x s f k =
      (let new := (s.readCR x.cr &&& ~~~CReg.mask x.cr) ||| (f (s.readCR x.cr) (s.rg x.a) &&& CReg.mask x.cr)
       .ok (k (s.writeCR x.cr new) new)) := by
  unfold moveToCR
  rw [if_neg (not_barred hmay), flagsWait_ready _ hmode hflags]
  refine if_neg fun ⟨hcr, hge⟩ => ?_
  obtain ⟨h6, h7⟩ := hlegal hcr
  rw [mode_ge_six, masked_rmode_mode hcr] at hge
  exact hge.elim h6 h7

/-- A move that would store one of them, with no pass running. -/
theorem moveToCR_illegal (hcr : x.cr = .rmode) (hrun : s.me.tr.st ≠ .running)
    (hbad : ¬((f (s.readCR x.cr) (s.rg x.a)).extractLsb' 0 3 ≠ 6 ∧ (f (s.readCR x.cr) (s.rg x.a)).extractLsb' 0 3 ≠ 7)) :
    moveToCR x s f k = illegalHere s := by
  have hmay : (CReg.isSystem x.cr = false ∧ CReg.isFixed x.cr = false) ∨ s.me.sys = true := by rw [hcr]; exact .inl ⟨rfl, rfl⟩
  have hflags : x.cr = .flags → s.flagsReady := by rw [hcr]; exact nofun
  unfold moveToCR
  rw [if_neg (not_barred hmay), flagsWait_ready _ (fun _ => rmodeReady_of_idle hrun) hflags]
  refine if_pos ⟨hcr, ?_⟩
  rw [mode_ge_six, masked_rmode_mode hcr]
  simpa only [not_and_or, ne_eq, not_not] using hbad

end

/-! ## How the moves end -/

theorem finish_illegalHere {s : State} (hrun : s.me.tr.st ≠ .running) : (illegalHere s).finish s = .next s.illegal :=
  finish_trap _ _ _ hrun

theorem finish_trapOf {s : State} (hrun : s.me.tr.st ≠ .running) (cause sub : BitVec 8) (val : Word) :
    (trapOf s cause sub val).finish s = .next (s.traps cause sub val) := finish_trap _ _ _ hrun

theorem setEntry_other {r : CReg} (htpc : r ≠ .tpc) (hstpc : r ≠ .stpc) (s : State) (w : Word) : setEntry r s w = s := by
  unfold setEntry
  split
  · exact absurd rfl htpc
  · exact absurd rfl hstpc
  · rfl

/-! ## The statements -/

theorem controlRegisterReads : Statements.ControlRegisterReads := by
  intro x s
  rw [exec_mfcr, runMfcr]
  refine ⟨fun hmay hmode hflags => ?_, fun hsystem hsys hrun => ?_⟩
  · have hread : ¬(CReg.isSystem x.cr && !s.me.sys) = true := by rcases hmay with h | h <;> rw [h] <;> simp
    rw [if_neg hread, flagsWait_ready _ hmode hflags, finish_ok]
  · have hbar : (CReg.isSystem x.cr && !s.me.sys) = true := by rw [hsystem, hsys]; rfl
    rw [if_pos hbar, finish_trapOf hrun]

theorem controlRegisterWrites : Statements.ControlRegisterWrites := by
  intro x s
  refine ⟨fun hmay hmode hflags => ⟨fun h => ?_, fun h => ?_, fun h => ?_⟩, fun hnot hrun => ⟨?_, ?_, ?_⟩,
    fun hcr hrun => ⟨fun h => ?_, fun h => ?_, fun h => ?_⟩⟩
  · rw [exec_mtcr, moveToCR_writes (f := fun _ a => a) hmay hmode hflags h]; rfl
  · rw [exec_mtcrSet, moveToCR_writes (f := fun o a => o ||| a) hmay hmode hflags h]; rfl
  · rw [exec_mtcrClr, moveToCR_writes (f := fun o a => o &&& ~~~a) hmay hmode hflags h]; rfl
  · rw [exec_mtcr, moveToCR_refused hnot, finish_trapOf hrun]
  · rw [exec_mtcrSet, moveToCR_refused hnot, finish_trapOf hrun]
  · rw [exec_mtcrClr, moveToCR_refused hnot, finish_trapOf hrun]
  · rw [exec_mtcr, moveToCR_illegal (f := fun _ a => a) hcr hrun fun hl => h fun _ => hl, finish_illegalHere hrun]
  · rw [exec_mtcrSet, moveToCR_illegal (f := fun o a => o ||| a) hcr hrun fun hl => h fun _ => hl, finish_illegalHere hrun]
  · rw [exec_mtcrClr, moveToCR_illegal (f := fun o a => o &&& ~~~a) hcr hrun fun hl => h fun _ => hl, finish_illegalHere hrun]

theorem entryRecordWrites : Statements.EntryRecordWrites := by
  intro x s
  rw [exec_mtcrEnt]
  refine ⟨fun hsys => ?_, fun hsys hrun => by rw [requireSys_user hsys, finish_trapOf hrun]⟩
  rw [requireSys_sys hsys]
  have hwrites := moveToCR_writes (x := x) (f := fun _ a => a) (k := setEntry x.cr) (.inr hsys)
  refine ⟨fun hcr => ?_, fun hcr => ?_, fun htpc hstpc hlegal hmode hflags => ?_, fun hcr hbad hrun => ?_⟩
  · rw [hwrites (by rw [hcr]; exact nofun) (by rw [hcr]; exact nofun) (by rw [hcr]; exact nofun), hcr]
    dsimp only [CReg.mask]
    rw [masked_allOnes]
    rfl
  · rw [hwrites (by rw [hcr]; exact nofun) (by rw [hcr]; exact nofun) (by rw [hcr]; exact nofun), hcr]
    dsimp only [CReg.mask]
    rw [masked_allOnes]
    rfl
  · rw [hwrites hmode hflags hlegal]
    dsimp only
    rw [setEntry_other htpc hstpc, finish_ok]
  · rw [moveToCR_illegal hcr hrun (by simpa only [not_and_or, ne_eq, not_not] using hbad), finish_illegalHere hrun]

/-- Settles O10: a move is refused by the mode, or waits, or stores no bad rounding mode, and then changes the register's writable
fields alone. -/
theorem controlRegisterForms : Obligations.ControlRegisterForms :=
  ⟨controlRegisterReads, controlRegisterWrites, entryRecordWrites⟩

end Sys2Proof.Machine
end

section
/-! SUPPORT. HALT, HALT.K and HRET: how they end where nothing holds them back, and what the current slot is after (R39, R110, R111,
R115, R275). -/

namespace Sys2Proof.Machine

theorem exec_halt (s : State) : exec .halt s = (haltForm 0 s).finish s := rfl

theorem exec_haltK (a : GReg) (s : State) : exec (.haltK a) s = (haltForm (s.rg a) s).finish s := rfl

theorem exec_hret (a : GReg) (s : State) : exec (.hret a) s = (runHret a s).finish s := rfl

theorem loomHeld_none {s : State} (h : s.me.loomErr = none) (k : Res) : loomHeld s k = k := by unfold loomHeld; rw [h]

theorem workWait_over {s : State} (h : s.workOver) (k : State → Res) : workWait s k = k s := by
  obtain ⟨hrun, hloom, herr⟩ := h
  unfold workWait
  rw [if_neg hrun, if_neg (Bool.eq_false_iff.mp hloom), loomHeld_none herr]

/-! ## How they end -/

theorem haltForm_ends {s : State} (h : s.workOver) (hq : s.me.sendq = []) (key : Word) :
    (haltForm key s).finish s = .next (s.haltStrand 0 key) := by
  unfold haltForm
  rw [workWait_over h, hq, List.isEmpty_nil, if_pos rfl, finish_gone]

/-- What a handler's reply leaves: HRET has sent it, and the strand owes it no longer. -/
def State.replied (s : State) (a : GReg) : State :=
  let u := match s.me.owed with
    | some r => s.reply r (s.rg a).toNat none
    | none => s
  { u with me := { u.me with owed := none, stage := .replied } }

theorem State.replied_sendq (s : State) (a : GReg) : (s.replied a).me.sendq = s.me.sendq := by
  unfold State.replied; cases s.me.owed <;> rfl

theorem exec_hret_ends {s : State} (h : s.workOver) (hq : s.me.sendq = []) (horigin : s.me.origin = 1) (hstage : s.me.stage = .none)
    (a : GReg) : exec (.hret a) s = .next ((s.replied a).haltStrand 0 0) := by
  have hsent : (s.replied a).me.sendq.isEmpty = true := by rw [State.replied_sendq, hq]; rfl
  rw [exec_hret, runHret, if_neg (not_not.mpr horigin), hstage]
  dsimp only
  rw [workWait_over h]
  exact congrArg (Res.finish · s) (if_pos hsent)

theorem endsOfStrand : Statements.EndsOfAStrand := by
  intro s hover hq
  refine ⟨?_, fun a => ?_, fun a horigin hstage => exec_hret_ends hover hq horigin hstage a, fun a horigin => ?_⟩
  · rw [exec_halt, haltForm_ends hover hq]
  · rw [exec_haltK, haltForm_ends hover hq]
  · rw [exec_hret, runHret, if_pos horigin, finish_illegalHere hover.1]

/-! ## What the end of a strand leaves of the slot whose turn it is -/

/-- t has the strand whose turn it is, with its record, and the waiting gang operations of s. -/
structure SlotKept (s t : State) : Prop where
  cur : t.cur = s.cur
  me : t.me = s.me
  gangs : t.gangs = s.gangs

namespace SlotKept
variable {s t u : State}

theorem refl (s : State) : SlotKept s s := ⟨rfl, rfl, rfl⟩

theorem trans (h : SlotKept s t) (k : SlotKept t u) : SlotKept s u :=
  ⟨k.cur.trans h.cur, k.me.trans h.me, k.gangs.trans h.gangs⟩

theorem foldl {α : Type} {f : State → α → State} (hf : ∀ s x, SlotKept s (f s x)) (xs : List α) (s : State) :
    SlotKept s (xs.foldl f s) := by
  induction xs generalizing s with
  | nil => exact refl s
  | cons x r ih => exact (hf s x).trans (ih _)

theorem modCore (s : State) (c : CoreIx) (f : Core → Core) : SlotKept s (s.modCore c f) := ⟨rfl, rfl, rfl⟩

theorem modNet (s : State) (f : Net → Net) : SlotKept s (s.modNet f) := ⟨rfl, rfl, rfl⟩

theorem dropItem (s : State) (i : Item) (wid : Nat) : SlotKept s (s.dropItem i wid) := by
  unfold State.dropItem
  split
  · exact modNet s _
  · exact refl s

theorem dropQueues (s : State) (c : CoreIx) : SlotKept s (s.dropQueues c) := by
  unfold State.dropQueues
  split
  · exact foldl (fun s i => dropItem s i _) _ s
  · exact refl s

theorem dropLoom (s : State) (c : CoreIx) : SlotKept s (s.dropLoom c) := by
  unfold State.dropLoom
  dsimp only
  split
  · exact modCore s c _
  · exact ⟨rfl, rfl, rfl⟩

theorem freeCore (s : State) (c : CoreIx) : SlotKept s (s.freeCore c) :=
  ((dropQueues s c).trans (dropLoom _ c)).trans (modCore _ c _)

theorem leaveBanks (s : State) (c : CoreIx) : SlotKept s (s.leaveBanks c) := by
  unfold State.leaveBanks
  split
  · exact refl s
  · exact ⟨rfl, rfl, rfl⟩

theorem releaseCore (s : State) (c : CoreIx) : SlotKept s (s.releaseCore c) :=
  ((leaveBanks s c).trans (freeCore _ c)).trans (modCore _ c fun x => { x with key := (s.coreRec c).leave })

theorem coreIdle (s : State) (c : CoreIx) : SlotKept s (s.coreIdle c) := by
  unfold State.coreIdle
  dsimp only
  split
  · exact refl s
  · split
    · exact (modCore s c _).trans (releaseCore _ c)
    · exact (leaveBanks s c).trans (modCore _ c _)

theorem coreLeft (s : State) (c : CoreIx) (key : Word) : SlotKept s (s.coreLeft c key) := by
  unfold State.coreLeft
  split
  · exact refl s
  · exact (modCore s c _).trans (coreIdle _ c)

theorem orphanEnds (s : State) (wid : Nat) (q : Vector QBind 8) (known : Bool) : SlotKept s (s.orphanEnds wid q known) := by
  unfold State.orphanEnds
  refine foldl (fun s b => ?_) _ s
  split
  · exact modNet s _
  · exact refl s

end SlotKept

/-- With no gang waiting, the slot of the strand whose turn it is holds no strand once it is free. -/
theorem freeSlot_me {s : State} (h : s.gangs = []) : (s.freeSlot s.cur).me = s.me.free := by
  unfold State.freeSlot State.modStrand State.setStrand State.strand State.breakGangs
  simp only [if_true, h, List.filter_nil, List.foldl_nil]

/-- The owed reply, the tag's BUSY bit and the bound stream ends come before the slot is freed. -/
theorem dropStrand_me {s : State} (h : s.gangs = []) (val : Word) : (s.dropStrand s.cur val).me = s.me.free := by
  have hfree {u : State} (hu : SlotKept s u) : (u.freeSlot s.cur).me = s.me.free := by
    rw [← hu.cur, freeSlot_me (hu.gangs.trans h), hu.me]
  unfold State.dropStrand
  refine hfree (SlotKept.trans ?_ (SlotKept.orphanEnds _ ..))
  have hreply (r : Option ReplyTo) : SlotKept s (match r with | some r => s.reply r val.toNat none | none => s) := by
    cases r
    · exact .refl s
    · exact .modNet s _
  split
  · exact (hreply _).trans (.modCore _ _ _)
  · exact hreply _

theorem haltFreesTheSlot : Statements.HaltFreesTheSlot := fun _ _ h => ((SlotKept.coreLeft _ _ _).me.trans (dropStrand_me h 0) :)

/-- Settles O25: the waits over, each form ends the strand, and what its end does to its own slot is to free it. -/
theorem endsOfAStrand : Obligations.EndsOfAStrand := ⟨endsOfStrand, haltFreesTheSlot⟩

end Sys2Proof.Machine
end

section
/-! SUPPORT. Trap entry at both levels, and the two returns: the level left, the passes it had suspended, and the transfer that follows
(R33, R72, R114, R116, R118, R141, R142). -/

namespace Sys2Proof.Machine

/-! ## Trap entry (R33, R114, R116) -/

/-- At a count of 0 the entry of the model is R114's, made once what was under way has ended. -/
theorem enterW_eq (x : Strand) (pc : Word) (t : Trap) : x.enterW pc t 0 = x.settle.trappedW pc t := rfl

theorem enterS_eq (x : Strand) (vec pc : Word) (t : Trap) : x.enterS vec pc t 0 = x.settle.trappedS vec pc t := rfl

theorem entersSys_false {x : Strand} {c : BitVec 8} (hsys : x.sys = false) (hwt : x.wt = false) (hvec : x.tvec ≠ 0)
    (hlevel : levelS c = false) : entersSys x c = false := by
  unfold entersSys; simpa [hsys, hwt, hlevel] using hvec

theorem entersSys_true {x : Strand} {c : BitVec 8} (h : x.wt = true ∨ x.tvec = 0 ∨ levelS c = true) : entersSys x c = true := by
  unfold entersSys; rcases h with h | h | h <;> simp [h]

/-- A trap in system mode whose handler has read its own cause enters the system level again (R116). -/
theorem takeTrap_nested {s : State} {t : Trap} {cnt : Word} {l : Line} (h : s.me.sys = true) (hd : s.me.stcause.getLsbD 63 = true)
    (hf : State.lands { s with me := s.me.enterS (s.partRec s.me.part).sysvec (t.pc.getD s.iss.first) t cnt }
      (s.partRec s.me.part).sysvec false l) :
    s.takeTrap t cnt = (State.meetFetch { s with me := s.me.enterS (s.partRec s.me.part).sysvec (t.pc.getD s.iss.first) t cnt }
      (s.partRec s.me.part).sysvec).keepLine (lineBase (s.partRec s.me.part).sysvec).toNat l := by
  unfold State.takeTrap
  simp only [h, hd, ↓reduceIte, hf.enter]

theorem trapEntryWrites : Statements.TrapEntryWrites := fun _ _ _ =>
  ⟨fun hsys hwt hvec hlevel hl => takeTrap_weave hsys (entersSys_false hsys hwt hvec hlevel) hl,
    fun hsys h hl => takeTrap_system hsys (entersSys_true h) hl, fun hsys hsr hl => takeTrap_nested hsys hsr hl,
    fun hsys hsr => takeTrap_double hsys hsr⟩

/-! ## Leaving a level (R118, R142) -/

/-- Whether passes were suspended at the level the strand is in. -/
def Strand.resumes (x : Strand) : Bool := x.tr.st == .suspended && x.tr.susSys == x.sys

/-- The treadle with them running again (log entry 122). -/
def Strand.resumedTr (x : Strand) : Treadle :=
  if x.resumes then
    { x.tr with st := .running, p := if x.p = x.tr.susP then x.tr.p else x.p,
                rmode := if x.rmode = x.tr.susRmode then x.tr.rmode else x.rmode }
  else x.tr

/-- The strand outside the system level, with SYS as PS had it, and outside the weave's, with WT clear. -/
def Strand.leftSys (x : Strand) : Strand :=
  { x with
    flags := if x.stcause.getLsbD 62 then x.flags ||| 1#64 <<< 63 else x.flags &&& ~~~(1#64 <<< 63), entS := none, tr := x.resumedTr }

def Strand.leftWeave (x : Strand) : Strand :=
  { x with flags := x.flags &&& ~~~(1#64 <<< 62), entW := none, tr := x.resumedTr }

theorem resumes_iff (x : Strand) : x.resumes = true ↔ x.tr.st = .suspended ∧ x.tr.susSys = x.sys := by
  unfold Strand.resumes; simp

theorem leaveLevel_system {x : Strand} (h : x.sys = true) :
    x.leaveLevel = (x.stpc, decide (x.entS = some x.stpc), x.leftSys) := by
  unfold Strand.leaveLevel Strand.leftSys Strand.resumedTr
  simp only [resumes_iff, h, if_true]
  rfl

theorem leaveLevel_weave {x : Strand} (h : x.sys = false) :
    x.leaveLevel = (x.tpc, decide (x.entW = some x.tpc), x.leftWeave) := by
  unfold Strand.leaveLevel Strand.leftWeave Strand.resumedTr
  simp only [resumes_iff, h, Bool.false_eq_true, if_false]
  rfl

theorem resumed_iff (x : Strand) : (x.tr.st != .running && x.resumedTr.st == .running) = x.resumes := by
  unfold Strand.resumedTr
  cases h : x.resumes
  · simp
  · have hs := ((resumes_iff x).mp h).1
    simp [hs]

/-! ## The transfer that follows (R72, R118, R141) -/

/-- A transfer that lands, before its turn ends. -/
theorem State.lands.transfer_ok {s : State} {t : Word} {e : Bool} {l : Line} (h : s.lands t e l) :
    ∃ u, s.transfer t e = .ok u ∧ u.goesOn = s.jumped t l := by
  unfold State.transfer; rw [h.enter]; exact ⟨_, rfl, rfl⟩

theorem exec_eret (s : State) : exec .eret s = (eretForm false s).finish s := rfl

theorem exec_eretN (s : State) : exec .eretN s = (eretForm true s).finish s := rfl

theorem not_outside_trap {s : State} (h : s.me.sys = true ∨ s.me.wt = true) : ¬(!s.me.sys && !s.me.wt) = true := by
  rcases h with h | h <;> simp [h]

theorem eretForm_fresh {s : State} (h : ∀ t, s.me.stage ≠ .orphaned t) (n : Bool) : eretForm n s = s.eret n := by
  unfold eretForm
  split
  case h_1 t ht => exact absurd ht (h t)
  case h_2 => rfl

theorem eretForm_orphaned {s : State} {t : Trap} (h : s.me.stage = .orphaned t) (n : Bool) :
    eretForm n s = if s.me.tr.st = .running then .wait s .treadle else .trap s t := by
  unfold eretForm; rw [h]

theorem chainLine_line {s : State} {b : Word} {l : Line} (h : (s.meetFetch b).fetchLine b = .line l) (hl : lineIllegal l = none) :
    s.chainLine b = (s.meetFetch b, .ok l) := by
  have hlegal : illegalLine b l = none := by unfold illegalLine; rw [hl]; rfl
  unfold State.chainLine
  simp only [h, hlegal]

/-- A fault of a return's transfer: with passes resumed it waits for them, at the address it names or b; without, it is taken. -/
def returnFaults (s : State) (resumes : Bool) (u : State) (b : Word) (f : Trap) (i : Instr) : Prop :=
  (resumes = true → exec i s =
    .next (State.waits { u with me := { u.me with pc := f.pc.getD b, stage := .orphaned f } } .treadle)) ∧
  (resumes = false → s.me.tr.st ≠ .running → exec i s = .next (u.takeTrap f 0))

section
variable {s : State} {resumes : Bool} {b : Word} {f : Trap} {l l' : Line} {e : Bool} {u : State} {i : Instr}

theorem afterResume_lands (hl : u.lands b e l) (c : Word) :
    (Res.afterResume (u.transfer b e) resumes c).finish s = .next (u.jumped b l) := by
  obtain ⟨v, hv, hj⟩ := hl.transfer_ok
  rw [hv, ← hj]
  rfl

theorem afterResume_faults (hf : u.enter b e = .error f) {c : Word}
    (h : exec i s = (Res.afterResume (u.transfer b e) resumes c).finish s) : returnFaults s resumes (u.metFetch b) c f i := by
  rw [transfer_error hf] at h
  constructor
  · rintro rfl; exact h
  · rintro rfl hrun; exact h.trans (finish_trap _ _ _ hrun)

/-! ## Both returns, whatever the level -/

variable {x : Strand} (hstage : ∀ t, s.me.stage ≠ .orphaned t) (hin : s.me.sys = true ∨ s.me.wt = true)
  (hleave : s.me.leaveLevel = (b, e, x)) (hres : (s.me.tr.st != .running && x.tr.st == .running) = resumes)
include hstage hin hleave hres

/-- ERET transfers to the saved address. -/
theorem exec_eret_transfer :
    exec .eret s = (Res.afterResume (State.transfer { s with me := x.keepParked b e } b e) resumes b).finish s := by
  rw [exec_eret, eretForm_fresh hstage]
  unfold State.eret
  rw [if_neg (not_outside_trap hin), hleave]
  simp only [Bool.not_false, Bool.and_true, Bool.false_eq_true, if_false, hres]

/-- ERET.N transfers to the slot after the chain there. -/
theorem exec_eretN_transfer {v : State} (hv : State.meetFetch { s with me := x.keepParked b false } b = v)
    (hline : v.fetchLine b = .line l') (hlegal : lineIllegal l' = none) :
    exec .eretN s = (Res.afterResume (v.transfer (succAddr (chainEnd b l')) e) resumes b).finish s := by
  subst hv
  rw [exec_eretN, eretForm_fresh hstage]
  unfold State.eret
  rw [if_neg (not_outside_trap hin), hleave]
  simp only [Bool.not_true, Bool.and_false, if_true, hres, chainLine_line hline hlegal]

end

/-! ## The statement -/

theorem returnsComplete : Statements.ReturnsComplete := by
  intro s l l'
  refine ⟨fun t ht i hi => ?_, fun hstage => ?_⟩
  · have hexec : exec i s = (if s.me.tr.st = .running then Res.wait s .treadle else .trap s t).finish s := by
      simp only [List.mem_cons, List.not_mem_nil, or_false] at hi
      rcases hi with rfl | rfl
      · rw [exec_eret, eretForm_orphaned ht]
      · rw [exec_eretN, eretForm_orphaned ht]
    exact ⟨fun hrun => by rw [hexec, if_pos hrun, finish_wait], fun hrun => by rw [hexec, if_neg hrun, finish_trap _ _ _ hrun]⟩
  · have hresS : (s.me.tr.st != .running && s.me.leftSys.tr.st == .running) = s.me.resumes := resumed_iff s.me
    have hresW : (s.me.tr.st != .running && s.me.leftWeave.tr.st == .running) = s.me.resumes := resumed_iff s.me
    have eretS (h : s.me.sys = true) := exec_eret_transfer hstage (.inl h) (leaveLevel_system h) hresS
    have eretW (h : s.me.sys = false) (hwt : s.me.wt = true) := exec_eret_transfer hstage (.inr hwt) (leaveLevel_weave h) hresW
    have eretNS (h : s.me.sys = true) := exec_eretN_transfer (l' := l') hstage (.inl h) (leaveLevel_system h) hresS rfl
    have eretNW (h : s.me.sys = false) (hwt : s.me.wt = true) :=
      exec_eretN_transfer (l' := l') hstage (.inr hwt) (leaveLevel_weave h) hresW rfl
    refine ⟨fun h hl => ?_, fun h hwt hl => ?_, fun h hline hlegal hl => ?_, fun h hwt hline hlegal hl => ?_, fun f h hf => ?_,
      fun f h hwt hf => ?_, fun f h hline hlegal hf => ?_, fun f h hwt hline hlegal hf => ?_, fun hsys hwt hrun => ?_⟩
    · exact (eretS h).trans (afterResume_lands hl _)
    · exact (eretW h hwt).trans (afterResume_lands hl _)
    · exact (eretNS h hline hlegal).trans (afterResume_lands hl _)
    · exact (eretNW h hwt hline hlegal).trans (afterResume_lands hl _)
    · exact afterResume_faults hf (eretS h)
    · exact afterResume_faults hf (eretW h hwt)
    · exact afterResume_faults hf (eretNS h hline hlegal)
    · exact afterResume_faults hf (eretNW h hwt hline hlegal)
    · have hout (n : Bool) : s.eret n = trapOf s 0x01 0 0 := by unfold State.eret; simp [hsys, hwt]
      rw [exec_eret, exec_eretN, eretForm_fresh hstage, eretForm_fresh hstage, hout, hout, finish_trapOf hrun]
      exact ⟨rfl, rfl⟩

/-- Settles O8: entry is the model's with nothing counted, and a return is the level left followed by one transfer. -/
theorem trapEntryAndReturn : Obligations.TrapEntryAndReturn := ⟨trapEntryWrites, returnsComplete⟩

end Sys2Proof.Machine
end

section
/-! SUPPORT. The halves of a pair word that compute on registers alone: what each leaves, whatever the strand's stage is (R57 to R59). -/

namespace Sys2Proof.Machine

/-! ## The halves and their single-word forms (R58) -/

theorem halfAlone_scalar (sh : ScalarHalf) (s : State) : halfAlone (scalarSingle sh) s = (runScalarHalf sh s).finish s := by
  cases sh <;> rfl

theorem halfAlone_vector (vh : VectorHalf) (s : State) : halfAlone (vectorSingle vh) s = (runVectorHalf vh s).finish s := by
  cases vh <;> rfl

/-! ## Scalar halves -/

theorem or_no_flag (w : Word) : w ||| (0 : Num.Flags).setWidth 64 = w := by simp

theorem addFlags_zero (s : State) : s.addFlags 0 = s := by
  unfold State.addFlags mergeFlags
  rw [or_no_flag]

theorem Strand.writeG_eq (x : Strand) (r : GReg) (w : Word) : ∃ g sysg, x.writeG r w = { x with g := g, sysg := sysg } := by
  unfold Strand.writeG
  split
  · exact ⟨x.g, x.sysg, rfl⟩
  · split
    · exact ⟨x.g, _, rfl⟩
    · exact ⟨_, x.sysg, rfl⟩

theorem Strand.writeP_eq (x : Strand) (r : PReg) (b : Bool) : ∃ p, x.writeP r b = { x with p := p } := by
  unfold Strand.writeP
  split
  · exact ⟨x.p, rfl⟩
  · exact ⟨_, rfl⟩

/-- r completes with g, p and system registers written and sticky bits merged, and nothing else. -/
def writesGP (s : State) (r : Res) : Prop :=
  ∃ g sysg p, ∃ f : Num.Flags,
    r = .ok { s with me := { s.me with g := g, sysg := sysg, p := p, flags := s.me.flags ||| f.setWidth 64 } }

namespace writesGP
variable (s : State)

theorem none : writesGP s (.ok s) := ⟨s.me.g, s.me.sysg, s.me.p, 0, by rw [or_no_flag]⟩

theorem flagged (f : Num.Flags) (d : GReg) (w : Word) : writesGP s (.ok ((s.addFlags f).wg d w)) := by
  obtain ⟨g, sysg, h⟩ := (mergeFlags s.me f).writeG_eq d w
  refine ⟨g, sysg, s.me.p, f, ?_⟩
  unfold State.wg State.addFlags
  rw [h]
  rfl

theorem general (d : GReg) (w : Word) : writesGP s (.ok (s.wg d w)) := by
  have h := flagged s 0 d w
  rwa [addFlags_zero] at h

theorem predicate (d : PReg) (b : Bool) : writesGP s (.ok (s.wp d b)) := by
  obtain ⟨p, h⟩ := s.me.writeP_eq d b
  refine ⟨s.me.g, s.me.sysg, p, 0, ?_⟩
  unfold State.wp
  rw [h, or_no_flag]

theorem integer (t : Ty) (sat : Bool) (d : GReg) (e : Int) : writesGP s (intResult s t sat d e) := flagged s _ d _

theorem arith {x : AluS} (h : x.ty ≠ .f32) (int : Int → Int → Int) (flt : RMode → Nat → Num.Val → Num.Val → Nat × Num.Flags) :
    writesGP s (arith x s int flt) := by
  unfold Machine.arith
  rw [if_neg h]
  exact integer s _ _ _ _

theorem minMax {x : Alu} (h : x.ty ≠ .f32) (mx : Bool) : writesGP s (minMax x s mx) := by
  unfold Machine.minMax
  rw [if_neg h]
  exact general s _ _

theorem compare {x : CmpR} (h : x.ty ≠ .f32) : writesGP s (runCmp x s) := by
  unfold runCmp Machine.compare
  rw [if_neg h]
  exact predicate s _ _

theorem immediate (x : MovI) : writesGP s (runMovi x s) := by
  unfold runMovi
  split
  · exact general s _ _
  · exact general s _ _

/-- A scalar half that computes on registers alone completes. -/
theorem half {sh : ScalarHalf} (h : plainScalar sh = true) : writesGP s (runScalarHalf sh s) := by
  cases sh with
  | none => exact none s
  | add x => dsimp only [runScalarHalf, runAdd]; exact arith s (bne_iff_ne.mp h) _ _
  | sub x => dsimp only [runScalarHalf, runSub]; exact arith s (bne_iff_ne.mp h) _ _
  | mul x => dsimp only [runScalarHalf, runMul]; exact arith s (bne_iff_ne.mp h) _ _
  | min x => exact minMax s (bne_iff_ne.mp h) _
  | max x => exact minMax s (bne_iff_ne.mp h) _
  | cmp x => exact compare s (bne_iff_ne.mp h)
  | and x => exact general s _ _
  | or x => exact general s _ _
  | xor x => exact general s _ _
  | shl x => dsimp only [runScalarHalf, runShl, shiftLeft]; exact integer s _ _ _ _
  | shr x => exact general s _ _
  | sra x => exact general s _ _
  | addi x => dsimp only [runScalarHalf, runAddi, arithImm]; exact integer s _ _ _ _
  | andi x => exact general s _ _
  | shli x => dsimp only [runScalarHalf, runShli, shiftLeft]; exact integer s _ _ _ _
  | shri x => exact general s _ _
  | srai x => exact general s _ _
  | movi x => exact immediate s x
  | lea x => exact general s _ _
  | ld x => exact nomatch h
  | st x => exact nomatch h

end writesGP

/-! ## Flags of integer lanes (R35, R75) -/

/-- f raises none of the exceptions that can be enabled. -/
def quietFlags (f : Num.Flags) : Prop := f.extractLsb' 0 5 = 0

theorem quietFlags_or {f g : Num.Flags} (hf : quietFlags f) (hg : quietFlags g) : quietFlags (f ||| g) := by
  unfold quietFlags at *
  rw [BitVec.extractLsb'_or, hf, hg]
  rfl

theorem quietFlags_foldl {α : Type} {g : Num.Flags → α → Num.Flags} (hg : ∀ f x, quietFlags f → quietFlags (g f x)) (xs : List α)
    {f : Num.Flags} (hf : quietFlags f) : quietFlags (xs.foldl g f) := by
  induction xs generalizing f with
  | nil => exact hf
  | cons x r ih => exact ih (hg f x hf)

theorem enabledException_quiet {s : State} {f : Num.Flags} (h : quietFlags f) : enabledException s f = none := by
  have hzero : enabledOf s.me.rmode f = 0 := by unfold enabledOf; rw [show f.extractLsb' 0 5 = 0#5 from h, BitVec.zero_and]; rfl
  unfold enabledException
  rw [hzero]
  simp

theorem quietFlags_ite {c : Prop} [Decidable c] {f g : Num.Flags} (hf : quietFlags f) (hg : quietFlags g) :
    quietFlags (if c then f else g) := by
  split
  · exact hf
  · exact hg

theorem quietFlags_narrow (t : Ty) (sat : Bool) (e : Int) : quietFlags (Num.narrow sat t.isI t.width e).2 := by
  rw [intLane_eq]
  exact quietFlags_ite rfl (quietFlags_ite rfl rfl)

theorem quietFlags_lanes (s : State) (t : Ty) (sel : VSel) {f : Nat → Num.Flags} (h : ∀ i, quietFlags (f i)) :
    quietFlags (laneFlags s t sel f) := quietFlags_foldl (fun _ i ha => quietFlags_or ha (h i)) _ rfl

/-! ## Vector halves -/

/-- The state with the strand's stage and its waited-for write others. -/
def State.atStage (s : State) (g : Stage) (q : Option Nat) : State := { s with me := { s.me with stage := g, waitSeq := q } }

/-- Whatever stage the strand is at, k completes with the same v and m registers written and sticky bits merged; beside them it can
change the treadle's record. -/
def writesVM (s : State) (k : State → Res) : Prop :=
  ∃ v m, ∃ f : Num.Flags, ∀ g q, ∃ tr,
    k (s.atStage g q) = .ok { s with me := { s.me with
      stage := g, waitSeq := q, v := v, m := m, flags := s.me.flags ||| f.setWidth 64, tr := tr } }

namespace writesVM
variable {s : State}

theorem none (s : State) : writesVM s .ok := ⟨s.me.v, s.me.m, 0, fun g q => ⟨s.me.tr, by rw [or_no_flag]; rfl⟩⟩

/-- A vector register takes a value, and sticky bits are merged, that do not depend on the stage. -/
theorem vector {d : VReg} {w : State → VecReg} {f : State → Num.Flags} (h : ∀ g q, w (s.atStage g q) = w s)
    (hf : ∀ g q, f (s.atStage g q) = f s) : writesVM s fun u => .ok ((u.addFlags (f u)).wv d (w u)) := by
  refine ⟨s.me.v.set d (w s), s.me.m, f s, fun g q => ⟨s.me.tr, ?_⟩⟩
  dsimp only
  rw [h g q, hf g q]
  rfl

theorem mask {d : MReg} {w : State → Word} {f : State → Num.Flags} (h : ∀ g q, w (s.atStage g q) = w s)
    (hf : ∀ g q, f (s.atStage g q) = f s) : writesVM s fun u => .ok ((u.addFlags (f u)).wm d (w u)) := by
  refine ⟨s.me.v, (s.me.writeM d (w s)).m, f s, fun g q => ⟨s.me.tr, ?_⟩⟩
  dsimp only
  rw [h g q, hf g q]
  unfold State.wm Strand.writeM
  split <;> rfl

theorem congr {k l : State → Res} (h : writesVM s k) (e : ∀ u, l u = k u) : writesVM s l := (funext e : l = k) ▸ h

theorem unflagged {d : VReg} {w : State → VecReg} (h : ∀ g q, w (s.atStage g q) = w s) : writesVM s fun u => .ok (u.wv d (w u)) :=
  (vector (f := fun _ => 0) h fun _ _ => rfl).congr fun u => by rw [addFlags_zero]

/-- The lanes of a form that moves bits. -/
theorem bits (t : Ty) (d : VReg) (sel : VSel) {op : State → Nat → Nat} (h : ∀ g q, op (s.atStage g q) = op s) :
    writesVM s fun u => bitLanes u t d sel (op u) := by
  refine (unflagged (d := d) (w := fun u => laneVec u t sel d (op u)) fun g q => ?_).congr fun u => bitLanes_eq ..
  rw [h g q]
  rfl

/-- The lanes of a form that raises no exception of R35. -/
theorem lanes (t : Ty) (d : VReg) (sel : VSel) {op : State → Nat → Nat × Num.Flags} (h : ∀ g q, op (s.atStage g q) = op s)
    (hq : ∀ u i, quietFlags (op u i).2) : writesVM s fun u => lanewise u t d sel (op u) := by
  refine (vector (d := d) (w := fun u => laneVec u t sel d fun i => (op u i).1) (f := fun u => laneFlags u t sel fun i => (op u i).2)
    (fun g q => ?_) fun g q => ?_).congr fun u => ?_
  · rw [h g q]; rfl
  · rw [h g q]; rfl
  · rw [lanewise_eq, orException_none (enabledException_quiet (quietFlags_lanes u t sel (hq u)))]

/-- A recordable form, with no pass running: the record may take it up. -/
theorem recorded (hrun : s.me.tr.st ≠ .running) {k : State → Res} (h : writesVM s k) (i : Instr) (gs : List GReg) :
    writesVM s fun u => recordable i gs u k := by
  obtain ⟨v, m, f, hk⟩ := h
  refine ⟨v, m, f, fun g q => ?_⟩
  obtain ⟨tr, hk⟩ := hk g q
  have hidle : ¬(s.atStage g q).me.tr.st = .running := hrun
  unfold recordable
  dsimp only
  rw [if_neg hidle, hk]
  dsimp only [Res.map, Res.bind]
  split
  · exact ⟨_, rfl⟩
  · exact ⟨tr, rfl⟩

/-! ### The forms -/

section
variable (s)

theorem arith {x : VArS} (h : x.ty.isFloat = false) (int : Int → Int → Int)
    (flt : Num.Fmt → RMode → Nat → Num.Val → Num.Val → Nat × Num.Flags) : writesVM s fun u => vecArith x u int flt := by
  refine (lanes x.ty x.d x.sel (op := fun u i =>
    Num.narrow x.sat x.ty.isI x.ty.width (int (ival x.ty (u.rv x.a) i) (ival x.ty (u.rv x.b) i))) (fun _ _ => rfl)
    fun _ _ => quietFlags_narrow ..).congr fun u => ?_
  unfold vecArith
  rw [h]
  rfl

theorem minMax {x : VBin} (h : x.ty.isFloat = false) (mx : Bool) : writesVM s fun u => vecMinMax x u mx := by
  refine (bits x.ty x.d x.sel (op := fun u i =>
    if decide (ival x.ty (u.rv x.a) i ≤ ival x.ty (u.rv x.b) i) != mx then elem (u.rv x.a) i x.ty.width
    else elem (u.rv x.b) i x.ty.width) fun _ _ => rfl).congr fun u => ?_
  unfold vecMinMax
  rw [h]
  rfl

theorem shiftLeft (t : Ty) (d a : VReg) (sel : VSel) {n : State → Nat → Nat} (h : ∀ g q, n (s.atStage g q) = n s) :
    writesVM s fun u => vecShl u t d a sel (n u) :=
  lanes t d sel (op := fun u i => Num.wrap t.isI t.width (ival t (u.rv a) i * 2 ^ n u i)) (fun g q => by rw [h g q]; rfl)
    fun _ _ => quietFlags_narrow t false _

end

/-- A compare of integer lanes raises nothing. -/
theorem compare (hrun : s.me.tr.st ≠ .running) {x : VCmpA} (h : x.ty.isFloat = false) : writesVM s (runVcmp x) := by
  refine recorded hrun ((mask (d := x.d) (f := fun _ => 0) (w := fun u => maskResult x.ty.count (u.vsel x.ty x.sel) (zeroing x.sel)
    u.me.m[x.d] fun i => Num.icmp x.cond (ival x.ty (u.rv x.a) i) (ival x.ty (u.rv x.b) i)) (fun _ _ => rfl) fun _ _ => rfl).congr
    fun u => ?_) _ _
  simp only [h, Bool.false_eq_true, if_false]
  rw [List.foldl_fixed' (f := fun (fl : Num.Flags) i => if u.vsel x.ty x.sel i = true then fl ||| 0 else fl) fun i => ite_self _]
  exact orException_none (enabledException_quiet (f := 0) rfl) _

theorem select (hrun : s.me.tr.st ≠ .running) (x : VBin) : writesVM s (runVsel x) :=
  recorded hrun (unflagged fun _ _ => rfl) _ _

/-- A vector half that computes on registers alone completes, and does so alike at every stage of the strand. -/
theorem half (hrun : s.me.tr.st ≠ .running) {vh : VectorHalf} (h : plainVector vh = true) : writesVM s (runVectorHalf vh) := by
  have hint {b : Bool} (hb : (!b) = true) : b = false := by simpa using hb
  cases vh with
  | none => exact none s
  | vadd x => exact recorded hrun (arith s (hint h) _ _) _ _
  | vsub x => exact recorded hrun (arith s (hint h) _ _) _ _
  | vmul x => exact recorded hrun (arith s (hint h) _ _) _ _
  | vmin x => exact recorded hrun (minMax s (hint h) _) _ _
  | vmax x => exact recorded hrun (minMax s (hint h) _) _ _
  | vand x => exact recorded hrun (bits _ _ _ fun _ _ => rfl) _ _
  | vor x => exact recorded hrun (bits _ _ _ fun _ _ => rfl) _ _
  | vxor x => exact recorded hrun (bits _ _ _ fun _ _ => rfl) _ _
  | vshl x => exact recorded hrun (shiftLeft s _ _ _ _ fun _ _ => rfl) _ _
  | vshlImm x => exact recorded hrun (shiftLeft s _ _ _ _ fun _ _ => rfl) _ _
  | vshr x => exact recorded hrun (bits _ _ _ fun _ _ => rfl) _ _
  | vshrImm x => exact recorded hrun (bits _ _ _ fun _ _ => rfl) _ _
  | vsra x => exact recorded hrun (bits _ _ _ fun _ _ => rfl) _ _
  | vsraImm x => exact recorded hrun (bits _ _ _ fun _ _ => rfl) _ _
  | vcmp x => exact compare hrun (hint h)
  | vsel x => exact select hrun x
  | vmov x => exact recorded hrun (bits _ _ _ fun _ _ => rfl) _ _
  | vbcast x => exact recorded hrun (bits _ _ _ fun _ _ => rfl) _ _
  | vbcastImm x => exact recorded hrun (bits _ _ _ fun _ _ => rfl) _ _
  | vcvt x => exact nomatch h
  | vld x => exact nomatch h
  | vst x => exact nomatch h

end writesVM

end Sys2Proof.Machine
end

section
/-! SUPPORT. Pair words: the halves in turn, and a scalar store beside a vector half (R35, R43, R57 to R59, R307). -/

namespace Sys2Proof.Machine

theorem exec_pairWord (sh : ScalarHalf) (vh : VectorHalf) (s : State) : exec (.pairWord sh vh) s = (runPairWord sh vh s).finish s := rfl

/-! ## Operations that come to their continuation or wait -/

/-- F comes to its continuation in one state, or waits whatever that is. -/
def comesOrWaits (F : (State → Res) → Res) : Prop := (∃ u w, ∀ k, F k = .wait u w) ∨ ∃ u, ∀ k, F k = k u

namespace comesOrWaits
variable {F G : (State → Res) → Res}

theorem wait (u : State) (w : WaitKind) : comesOrWaits fun _ => .wait u w := .inl ⟨u, w, fun _ => rfl⟩

theorem comes (u : State) : comesOrWaits fun k => k u := .inr ⟨u, fun _ => rfl⟩

theorem ite {c : Prop} [Decidable c] (hF : comesOrWaits F) (hG : comesOrWaits G) : comesOrWaits fun k => if c then F k else G k := by
  split
  · exact hF
  · exact hG

theorem memOp (s : State) : comesOrWaits (memOp s) := .ite (wait s _) (.ite (wait s _) (comes s))

theorem walked (s : State) (n : Nat) (as : List Word) : comesOrWaits (s.walked n as) := by
  refine .ite (comes s) (.ite (wait s _) (.ite (comes _) ?_))
  dsimp only
  split
  · exact wait _ _
  · exact comes _

theorem releaseWait (s : State) : comesOrWaits (releaseWait s) := .ite (comes _) (wait _ _)

theorem bind {H : State → (State → Res) → Res} (hF : comesOrWaits F) (hH : ∀ u, comesOrWaits (H u)) :
    comesOrWaits fun k => F fun u => H u k := by
  rcases hF with ⟨u, w, h⟩ | ⟨u, h⟩
  · exact .inl ⟨u, w, fun _ => h _⟩
  · rcases hH u with ⟨v, w, hv⟩ | ⟨v, hv⟩
    · exact .inl ⟨v, w, fun k => (h _).trans (hv k)⟩
    · exact .inr ⟨v, fun k => (h _).trans (hv k)⟩

theorem store (s : State) (a : Attr) (of : Bool) (puts : List Put) : comesOrWaits (s.store a of puts) := by
  refine .ite (bind (releaseWait _) fun u => ?_) ?_
  all_goals exact .ite (wait _ _) (.ite (wait _ _) (.ite (wait _ _) (.ite (wait _ _) (.ite (wait _ _) (comes _)))))

/-- Neither a wait nor a completion is a trap. -/
theorem ne_trap (h : comesOrWaits F) (u : State) (t : Trap) : F .ok ≠ .trap u t := by
  rcases h with ⟨v, w, h⟩ | ⟨v, h⟩ <;> rw [h] <;> exact nofun

end comesOrWaits

/-- A store up to its checks waits or traps, or comes to its write, whatever that does. -/
theorem stChecked_cases (x : MemS) (s : State) :
    (∃ u w, ∀ k, stChecked x s k = .wait u w) ∨ (∃ u t, ∀ k, stChecked x s k = .trap u t) ∨ ∃ u p, ∀ k, stChecked x s k = k u p := by
  rcases comesOrWaits.memOp s with ⟨u, w, hu⟩ | ⟨u, hu⟩
  · exact .inl ⟨u, w, fun _ => hu _⟩
  · rcases comesOrWaits.walked u (x.ty.width / 8) [u.rg x.a + immWord x.imm] with ⟨v, w, hv⟩ | ⟨v, hv⟩
    · exact .inl ⟨v, w, fun _ => (hu _).trans (hv _)⟩
    · have hk (k : State → Put → Res) := (hu _ : stChecked x s k = _).trans (hv _)
      rcases hc : (v.check v.ctx .store false (x.ty.width / 8) (u.rg x.a + immWord x.imm) (u.rg x.a + immWord x.imm)
        (x.ty.width / 8)).bind fun y => noFormat (u.rg x.a + immWord x.imm) y 1 with t | y
      · exact .inr (.inl ⟨v, t, fun k => (hk k).trans (by rw [hc])⟩)
      · exact .inr (.inr ⟨v, _, fun k => (hk k).trans (by rw [hc])⟩)

/-! ## Which way a pair word goes -/

section
variable {sh : ScalarHalf} {vh : VectorHalf} {s : State}

/-- A pair whose scalar half stores beside a vector half is made as one access. -/
theorem runPairWord_store (x : MemS) (hvh : vh ≠ .none) (hrun : s.me.tr.st ≠ .running) :
    runPairWord (.st x) vh s = storePair x vh s := by
  unfold runPairWord
  rw [if_neg (fun h => hrun h.2)]
  exact if_neg hvh

/-- Every other pair takes its halves in turn. -/
theorem runPairWord_inTurn (hfree : vh ≠ .none → s.me.tr.st ≠ .running) (hst : ∀ x, sh = .st x → vh = .none) :
    runPairWord sh vh s = halvesInTurn sh vh s := by
  unfold runPairWord
  rw [if_neg (fun h => hfree h.1 h.2)]
  split
  case h_1 x => rw [if_pos (hst x rfl)]
  case h_2 => rfl

theorem vectorHalf_ok {s1 s2 : State} {h : HalfDone} (hv : runVectorHalf vh (beforeVector s s1 h) = .ok s2) :
    vectorHalf vh s s1 h = .ok (afterBoth h s2) := by
  unfold vectorHalf; rw [hv]

theorem vectorHalf_trap {s1 s2 : State} {h : HalfDone} {t : Trap} (hv : runVectorHalf vh (beforeVector s s1 h) = .trap s2 t) :
    vectorHalf vh s s1 h = .trap { s2 with me := { s.me with flags := s2.me.flags } } t := by
  unfold vectorHalf; rw [hv]

theorem halvesInTurn_first (hhalf : s.me.half = none) {s1 : State} (h1 : runScalarHalf sh s = .ok s1) :
    halvesInTurn sh vh s =
      vectorHalf vh { s with me := { s.me with stage := .none, waitSeq := none } } s1 s1.me.halfDone := by
  unfold halvesInTurn; rw [hhalf, h1]

theorem halvesInTurn_kept {h : HalfDone} (hhalf : s.me.half = some h) : halvesInTurn sh vh s = vectorHalf vh s s h := by
  unfold halvesInTurn; rw [hhalf]

theorem halvesInTurn_trap (hhalf : s.me.half = none) {s1 : State} {t : Trap} (h1 : runScalarHalf sh s = .trap s1 t) :
    halvesInTurn sh vh s = .trap s1 t := by
  unfold halvesInTurn; rw [hhalf, h1]

/-- Halves in turn that both complete. -/
theorem exec_pairWord_both (hfree : vh ≠ .none → s.me.tr.st ≠ .running) (hst : ∀ x, sh = .st x → vh = .none)
    (hhalf : s.me.half = none) {s1 s2 : State} (h1 : runScalarHalf sh s = .ok s1)
    (h2 : runVectorHalf vh (beforeVector { s with me := { s.me with stage := .none, waitSeq := none } } s1 s1.me.halfDone) = .ok s2) :
    exec (.pairWord sh vh) s = .next (afterBoth s1.me.halfDone s2).goesOn := by
  rw [exec_pairWord, runPairWord_inTurn hfree hst, halvesInTurn_first hhalf h1, vectorHalf_ok h2, finish_ok]

/-! ## A scalar store beside a vector half (R59) -/

theorem storeWith_other (p : Put) (h : ∀ y, vh ≠ .vst y) : storeWith p vh s = (match afterStore vh p.bytes s with
    | .ok s2 =>
      match s2.store {} false [p] .ok with
      | .ok s3 => .ok s3
      | .wait _ w => .wait s w
      | r => r
    | r => r) := by
  unfold storeWith
  split
  case h_1 y => exact absurd rfl (h y)
  case h_2 => rfl

/-- Checks that trap trap the pair too: k is a continuation that never traps. -/
theorem storePair_checksTrap {x : MemS} {s1 : State} {t : Trap} {k : State → Put → Res} (h : stChecked x s k = .trap s1 t)
    (hk : ∀ u p, k u p ≠ .trap s1 t) : storePair x vh s = .trap s1 t := by
  rcases stChecked_cases x s with ⟨u, w, hc⟩ | ⟨u, t', hc⟩ | ⟨u, p, hc⟩
  · exact nomatch (hc k).symm.trans h
  · exact (hc _).trans ((hc k).symm.trans h)
  · exact absurd ((hc k).symm.trans h) (hk u p)

/-- A pair completes with what its accesses leave. -/
theorem storePair_ok {x : MemS} {s2 : State} (h : stChecked x s (fun u p => storeWith p vh u) = .ok s2) :
    storePair x vh s = .ok s2 := by
  unfold storePair
  rcases stChecked_cases x s with ⟨u, w, hc⟩ | ⟨u, t, hc⟩ | ⟨u, p, hc⟩
  · exact nomatch (hc _).symm.trans h
  · exact nomatch (hc _).symm.trans h
  · rw [hc] at h ⊢
    rw [h]

/-- A scalar half that traps traps the pair, in turn or before a vector half (R59). -/
theorem runPairWord_firstTrap (hhalf : s.me.half = none) (hrun : s.me.tr.st ≠ .running) {s1 : State} {t : Trap}
    (h : runScalarHalf sh s = .trap s1 t) : runPairWord sh vh s = .trap s1 t := by
  by_cases hst : ∀ x, sh = .st x → vh = .none
  · rw [runPairWord_inTurn (fun _ => hrun) hst, halvesInTurn_trap hhalf h]
  · push Not at hst
    obtain ⟨x, rfl, hvh⟩ := hst
    rw [runPairWord_store x hvh hrun]
    have hchecks : stChecked x s (fun u p => u.store (attrOf x.sc) false [p] .ok) = .trap s1 t := h
    exact storePair_checksTrap hchecks fun u p => (comesOrWaits.store u _ _ _).ne_trap _ _

end

end Sys2Proof.Machine
end

section
/-! SUPPORT. The pair words' obligation (R35, R43, R57 to R59, R307). -/

namespace Sys2Proof.Machine

theorem not_st_of_plainScalar {sh : ScalarHalf} {vh : VectorHalf} (h : plainScalar sh = true) : ∀ x, sh = .st x → vh = .none := by
  rintro x rfl
  exact nomatch h

/-- The sticky bits of both halves, taken together as the pair word takes them. -/
theorem halfFlags_or (w : Word) (fa fb : Num.Flags) :
    (w ||| fb.setWidth 64) ||| ((w ||| fa.setWidth 64) &&& 0x1FF) = (w ||| fa.setWidth 64) ||| (w ||| fb.setWidth 64) := by
  have hfa : fa.setWidth 64 &&& 0x1FF = fa.setWidth 64 := by
    have hm : (0x1FF : Word) = (BitVec.allOnes 9).setWidth 64 := rfl
    rw [hm, ← BitVec.setWidth_and, BitVec.and_allOnes]
  rw [BitVec.and_or_distrib_right, hfa]
  ext i hi
  simp only [BitVec.getElem_or, BitVec.getElem_and]
  cases w[i] <;> cases (BitVec.setWidth 64 fa)[i] <;> simp

/-- Two halves that compute on registers alone complete together (R57 to R59). -/
theorem pairWord_plain {sh : ScalarHalf} {vh : VectorHalf} {s : State} (hs : plainScalar sh = true) (hv : plainVector vh = true)
    (hhalf : s.me.half = none) (hrun : s.me.tr.st ≠ .running) :
    ∃ a b t, halfAlone (scalarSingle sh) s = .next a ∧ halfAlone (vectorSingle vh) s = .next b ∧
      exec (.pairWord sh vh) s = .next t ∧ t.me.g = a.me.g ∧ t.me.sysg = a.me.sysg ∧ t.me.p = a.me.p ∧ t.me.v = b.me.v ∧
      t.me.m = b.me.m ∧ t.me.flags = a.me.flags ||| b.me.flags ∧ t.me.pc = s.iss.next ∧ t.mem = s.mem := by
  obtain ⟨g, sysg, p, fa, h1⟩ := writesGP.half s hs
  obtain ⟨v, m, fb, hvec⟩ := writesVM.half hrun hv
  obtain ⟨_, halone⟩ := hvec s.me.stage s.me.waitSeq
  obtain ⟨_, hpair⟩ := hvec .none none
  have ha := (halfAlone_scalar sh s).trans (congrArg (·.finish s) h1)
  have hb := (halfAlone_vector vh s).trans (congrArg (·.finish s) halone)
  refine ⟨_, _, _, ha, hb, exec_pairWord_both (fun _ => hrun) (not_st_of_plainScalar hs) hhalf h1 hpair,
    rfl, rfl, rfl, rfl, rfl, halfFlags_or s.me.flags fa fb, rfl, rfl⟩

theorem pairWordCompletes : Statements.PairWordCompletes := by
  refine ⟨fun sh vh s hs hv hhalf hrun => pairWord_plain hs hv hhalf hrun, ?_⟩
  intro sh vh s s2
  dsimp only
  intro hfree
  refine ⟨?_, ?_, ?_, fun _ _ => rfl, fun _ _ => rfl, fun _ _ => rfl, ?_, ?_, ?_, ?_, rfl, rfl⟩
  · intro s1 hhalf hst h1 h2
    refine ⟨exec_pairWord_both hfree hst hhalf h1 h2, ?_⟩
    rintro rfl
    cases h2
    exact ⟨rfl, rfl⟩
  · intro h hhalf hst h2
    rw [exec_pairWord, runPairWord_inTurn hfree hst, halvesInTurn_kept hhalf, vectorHalf_ok h2, finish_ok]
    rfl
  · intro x hvh h
    rw [exec_pairWord, runPairWord_store x hvh (hfree hvh), storePair_ok h, finish_ok]
  · intro p s3 hvh ha hs
    rw [storeWith_other p hvh, ha]
    dsimp only
    rw [hs]
  · intro bs
    unfold afterStore
    refine ⟨fun h => if_neg (by rw [h]; exact Bool.false_ne_true), fun h h2 => ?_⟩
    rw [if_pos h, h2]
  · intro i u hi
    rw [← halfAlone_scalar, hi]
    rfl
  · intro i u hi
    rw [← halfAlone_vector, hi]
    rfl

theorem pairWordTraps : Statements.PairWordTraps := by
  intro sh vh s hhalf hrun
  dsimp only
  refine ⟨?_, ?_, ?_, ?_, ?_⟩
  · intro s1 t h
    rw [exec_pairWord, runPairWord_firstTrap hhalf hrun h, finish_trap _ _ _ hrun]
  · intro s1 s2 t hst h1 h2
    rw [exec_pairWord, runPairWord_inTurn (fun _ => hrun) hst, halvesInTurn_first hhalf h1, vectorHalf_trap h2, finish_trap _ _ _ hrun]
  · intro x s1 t hvh h
    have htrap : storePair x vh s = .trap s1 t := storePair_checksTrap h fun u _ => (comesOrWaits.comes u).ne_trap _ _
    rw [exec_pairWord, runPairWord_store x hvh hrun, htrap, finish_trap _ _ _ hrun]
  · intro x s1 s2 p t hvh hk h
    rw [exec_pairWord, runPairWord_store x hvh hrun, storePair, hk]
    dsimp only
    rw [h, finish_trap _ _ _ hrun]
  · intro p s2 t hvh h
    rw [storeWith_other p hvh, h]

/-- Settles O11: halves that compute on registers alone complete in every state with no pass running; otherwise the clauses name what
each half does, and the word's outcome follows from the branches of `runPairWord`. -/
theorem pairWords : Obligations.PairWords := ⟨pairWordCompletes, pairWordTraps⟩

end Sys2Proof.Machine
end

section
/-! SUPPORT. The accumulator forms on a tile with no operation under way (R28, R91, R151, R164 to R166). -/

namespace Sys2Proof.Machine

/-- No operation of the strand's own is under way on a tile. -/
def State.tileQuiet (s : State) (a : AReg) : Prop :=
  ∀ o ∈ (s.coreRec s.core).loomq, ¬(o.strand = s.cur ∧ o.gen = s.me.gen ∧ o.acc = a.val)

theorem tileForm_quiet {s : State} {a : AReg} (herr : s.me.loomErr = none) (hown : s.ownsTile a = true) (hquiet : s.tileQuiet a)
    (k : State → Res) : tileForm s a k = k s := by
  have hidle : (s.coreRec s.core).loomq.any (fun o => o.strand == s.cur && o.gen == s.me.gen && o.acc == a.val) = false := by
    rw [List.any_eq_false]
    intro o ho
    simpa [and_assoc] using hquiet o ho
  unfold tileForm
  rw [loomHeld_none herr, hown, hidle]
  rfl

theorem tileForm_foreign {s : State} {a : AReg} (herr : s.me.loomErr = none) (hown : s.ownsTile a = false) (k : State → Res) :
    tileForm s a k = trapOf s 0x40 1 0 := by
  unfold tileForm
  rw [loomHeld_none herr, hown]
  rfl

theorem tilePieces_misaligned (s : State) (k : AccKind) {a : Word} (post : Word → Site → Except Trap Site) (h : a.toNat % 1024 ≠ 0) :
    tilePieces s k a post = .error ⟨0x13, 0, a, none, 0⟩ := if_pos h

theorem scaleForm_free {s : State} (herr : s.me.loomErr = none) (f : Strand → Strand) :
    scaleForm s f = .ok { s with me := f s.me } := loomHeld_none herr _

/-! ## MLD -/

theorem mldForm_walked {s : State} {x : MldA} (hs : s.unheld) (herr : s.me.loomErr = none) (hown : s.ownsTile x.acc = true)
    (hquiet : s.tileQuiet x.acc) (hwalk : s.walkable 1024 [s.rg x.a + sx x.imm]) :
    mldForm s x 0 = (s.walkedTo 1024 [s.rg x.a + sx x.imm]).load {}
      (tilePieces (s.walkedTo 1024 [s.rg x.a + sx x.imm]) .load (s.rg x.a + sx x.imm) fun _ y => .ok y) fun s got =>
        .ok (s.writeTile x.acc (BitVec.ofNat 8192 (packElems 512 ((List.range 16).map fun i =>
          ((got.find? fun g => g.1 = i).map (·.2)).getD 0)))) := by
  unfold mldForm
  rw [tileForm_quiet herr hown hquiet, memOp_free hs.memFree]
  dsimp only
  rw [add_zero, walked_ready hs.1.1 hwalk]

/-! ## MST -/

/-- What MST does once its walks are over, t being the tile and a the address. -/
def mstWalked (w : State) (t : Tile) (a : Word) : Res :=
  match tilePieces w .store a (fun b y => vstShape w a true a b y) with
  | .error e => .trap w e
  | .ok [] => .ok w
  | .ok ((i, y) :: ys) =>
    match y.fmt with
    | some _ => storeEncoded w {} [] (((i, y) :: ys).map fun (i, y) =>
        (i, y, (List.range 32).map fun j => (t.extractLsb' (512 * i + 16 * j) 16).toNat))
    | none => w.store {} false (((i, y) :: ys).map fun (i, y) => ⟨y, layBytes y.keys (t.extractLsb' (512 * i) 512).toNat, i⟩) .ok

theorem mstForm_walked {s : State} {x : MldA} (hs : s.unheld) (herr : s.me.loomErr = none) (hown : s.ownsTile x.acc = true)
    (hquiet : s.tileQuiet x.acc) (hwalk : s.walkable 1024 [s.rg x.a + sx x.imm]) :
    mstForm s x 0 = mstWalked (s.walkedTo 1024 [s.rg x.a + sx x.imm]) (s.readTile x.acc) (s.rg x.a + sx x.imm) := by
  unfold mstForm mstWalked
  rw [tileForm_quiet herr hown hquiet, memOp_free hs.memFree]
  dsimp only
  rw [add_zero, walked_ready hs.1.1 hwalk]
  split <;> rename_i h
  · rw [h]
  · rw [h]
    split <;> rfl

section
variable {w : State} {t : Tile} {a : Word}

theorem mstWalked_trap {e : Trap} (h : tilePieces w .store a (fun b y => vstShape w a true a b y) = .error e) :
    mstWalked w t a = .trap w e := by unfold mstWalked; rw [h]

theorem mstWalked_plain {i : Nat} {y : Site} {ys : List (Nat × Site)}
    (h : tilePieces w .store a (fun b y => vstShape w a true a b y) = .ok ((i, y) :: ys)) (hy : y.fmt = none) :
    mstWalked w t a = w.store {} false
      (((i, y) :: ys).map fun (i, y) => ⟨y, layBytes y.keys (t.extractLsb' (512 * i) 512).toNat, i⟩) .ok := by
  unfold mstWalked
  rw [h]
  dsimp only
  rw [hy]

theorem mstWalked_format {i : Nat} {y : Site} {f : Nat × Nat × Nat} {ys : List (Nat × Site)}
    (h : tilePieces w .store a (fun b y => vstShape w a true a b y) = .ok ((i, y) :: ys)) (hy : y.fmt = some f) :
    mstWalked w t a = storeEncoded w {} [] (((i, y) :: ys).map fun (i, y) =>
      (i, y, (List.range 32).map fun j => (t.extractLsb' (512 * i + 16 * j) 16).toNat)) := by
  unfold mstWalked
  rw [h]
  dsimp only
  rw [hy]

end

/-- A plain store that has nothing to wait for. -/
theorem store_plain {s : State} {puts : List Put} (h : s.storable {} false puts) (k : State → Res) :
    s.store {} false puts k =
      k (if puts.isEmpty then s.putAll (s.syncOf {} false) .fabric puts else (s.putAll (s.syncOf {} false) .fabric puts).sided) :=
  store_ready h k

/-- One piece of a store to a format page, encoded after those before it (R203). -/
def encodePiece (s : State) (vals : Nat → List Nat) (c : List Put × BitVec 32 × Num.Flags) (p : Nat × Site) :
    List Put × BitVec 32 × Num.Flags :=
  match p.2.fmt with
  | some (f, frame, off) =>
    let b := encodeBlocks (s.setSrg c.2.1) f frame off (vals p.1)
    (c.1 ++ [⟨p.2, b.1, p.1⟩], b.2.1, c.2.2 ||| b.2.2)
  | none => c

theorem storeEncoded_pieces (s : State) (a : Attr) (vals : Nat → List Nat) (ys : List (Nat × Site)) :
    storeEncoded s a [] (ys.map fun (i, y) => (i, y, vals i)) =
      (let e := ys.foldl (encodePiece s vals) ([], s.srg, 0)
       match enabledException s e.2.2 with
       | some sub => .trap (s.addFlags e.2.2) ⟨0x50, sub, 0, none, 0⟩
       | none => s.store a false e.1 fun u => .ok ((u.addFlags e.2.2).setSrg e.2.1)) := by
  unfold storeEncoded
  dsimp only
  rw [List.foldl_map]
  rfl

/-! ## The forms, nothing holding the strand back -/

section
variable {s : State} (hs : s.unheld)
include hs

theorem exec_mzero (a : AReg) : exec (.mzero a) s = (tileForm s a fun s => .ok (s.writeTile a 0)).finish s := by
  rw [show exec (.mzero a) s = (runMzero a s).finish s from rfl, runMzero, recordable_unheld hs]

theorem exec_mwaitTile (a : AReg) : exec (.mwaitTile a) s = (tileForm s a .ok).finish s := by
  rw [show exec (.mwaitTile a) s = (runMwaitTile a s).finish s from rfl, runMwaitTile, notRecordable_unheld hs]

theorem exec_mld (x : MldA) : exec (.mld x) s = (mldForm s x 0).finish s := by
  rw [show exec (.mld x) s = (runMld x s).finish s from rfl, runMld, recordable_unheld hs]

theorem exec_mst (x : MldA) : exec (.mst x) s = (mstForm s x 0).finish s := by
  rw [show exec (.mst x) s = (runMst x s).finish s from rfl, runMst, recordable_unheld hs]

theorem exec_mscaleA0 (v : VReg) :
    exec (.mscaleA0 v) s = (scaleForm s fun x => { x with sclA := x.sclA.extractLsb' 512 512 ++ s.rv v }).finish s := by
  rw [show exec (.mscaleA0 v) s = (runMscaleA0 v s).finish s from rfl, runMscaleA0, recordable_unheld hs]

theorem exec_mscaleA1 (v : VReg) :
    exec (.mscaleA1 v) s = (scaleForm s fun x => { x with sclA := s.rv v ++ x.sclA.extractLsb' 0 512 }).finish s := by
  rw [show exec (.mscaleA1 v) s = (runMscaleA1 v s).finish s from rfl, runMscaleA1, recordable_unheld hs]

theorem exec_mscaleB (v : VReg) : exec (.mscaleB v) s = (scaleForm s fun x => { x with sclB := s.rv v }).finish s := by
  rw [show exec (.mscaleB v) s = (runMscaleB v s).finish s from rfl, runMscaleB, recordable_unheld hs]

theorem exec_mwait (herr : s.me.loomErr = none) (hidle : s.loomBusy = false) : exec .mwait s = .next s.goesOn := by
  rw [show exec .mwait s = (runMwait s).finish s from rfl, runMwait, notRecordable_unheld hs, hidle, loomHeld_none herr]
  rfl

theorem exec_mmovv (x : MmvV) : exec (.mmovv x) s =
    (tileForm s x.acc fun s => .ok (s.wv x.d ((s.readTile x.acc).extractLsb' (512 * x.i.val) 512))).finish s := by
  rw [show exec (.mmovv x) s = (runMmovv x s).finish s from rfl, runMmovv, notRecordable_unheld hs]

theorem exec_mmova (x : MmvA) : exec (.mmova x) s =
    (tileForm s x.acc fun s => .ok (s.writeTile x.acc (tileOfWords ((tileWords (s.readTile x.acc)).take (16 * x.i.val)
      ++ elems 32 (s.rv x.a) ++ (tileWords (s.readTile x.acc)).drop (16 * x.i.val + 16))))).finish s := by
  rw [show exec (.mmova x) s = (runMmova x s).finish s from rfl, runMmova, notRecordable_unheld hs]

theorem exec_mstat (herr : s.me.loomErr = none) (d : GReg) : exec (.mstat d) s = .next (s.wg d (BitVec.ofNat 64
    (((s.coreRec s.core).loomq.filter fun o => o.strand == s.cur && o.gen == s.me.gen).length
      + (s.coreRec s.core).loomq.length * 2 ^ 4 + (s.tileRec (tileOf s.core)).claims.length * 2 ^ 8))).goesOn := by
  rw [show exec (.mstat d) s = (runMstat d s).finish s from rfl, runMstat, notRecordable_unheld hs, loomHeld_none herr]
  rfl

end

theorem accumulatorForms : Statements.AccumulatorForms := by
  intro s hs herr quiet
  have hrun := hs.1.2
  have hfree {a : AReg} (hq : quiet a) (k : State → Res) : tileForm s a k = k s := tileForm_quiet herr hq.1 hq.2 k
  refine ⟨fun a hq => ⟨?_, ?_⟩, ?_, ?_, ?_, ?_, fun v => ⟨?_, ?_, ?_⟩, exec_mwait hs herr, fun x hq => ?_, fun x hq => ?_,
    exec_mstat hs herr, fun a hown => ⟨?_, ?_⟩⟩
  · rw [exec_mzero hs, hfree hq, finish_ok]
  · rw [exec_mwaitTile hs, hfree hq, finish_ok]
  · intro x ys hq hwalk w keys hpieces hposted hbroken hserve r
    have hw := HomeOnly.walkedTo s 1024 [s.rg x.a + sx x.imm]
    rw [exec_mld hs, mldForm_walked hs herr hq.1 hq.2 hwalk, hpieces,
      load_prompt ((congrArg Strand.stage hw.me).trans hs.1.1) (hw.prompt.trans hwalk.1) hposted hbroken hserve, finish_ok]
  · intro x i y ys hq hwalk a w hpieces hy puts hput
    rw [exec_mst hs, mstForm_walked hs herr hq.1 hq.2 hwalk, mstWalked_plain hpieces hy, store_plain hput, finish_ok]
    rfl
  · intro x i y f ys hq hwalk a w vals hpieces hy code e
    have hform := (mstForm_walked hs herr hq.1 hq.2 hwalk).trans
      ((mstWalked_format hpieces hy).trans (storeEncoded_pieces w {} vals ((i, y) :: ys)))
    have he : ((i, y) :: ys).foldl (encodePiece w vals) ([], w.srg, 0) = e := rfl
    rw [he] at hform
    refine ⟨fun hnone hput => ?_, fun sub hsub => ?_⟩
    · dsimp only at hform
      rw [exec_mst hs, hform, hnone, store_plain hput, finish_ok]
    · dsimp only at hform
      rw [exec_mst hs, hform, hsub, finish_trap _ _ _ hrun]
      rfl
  · intro x t hq hwalk a w
    refine ⟨fun h => ?_, fun h => ?_, fun h => ⟨tilePieces_misaligned _ _ _ h, tilePieces_misaligned _ _ _ h⟩⟩
    · have hw := HomeOnly.walkedTo s 1024 [a]
      rw [exec_mld hs, mldForm_walked hs herr hq.1 hq.2 hwalk, h, load_error ((congrArg Strand.stage hw.me).trans hs.1.1),
        finish_trap _ _ _ hrun]
    · rw [exec_mst hs, mstForm_walked hs herr hq.1 hq.2 hwalk, mstWalked_trap h, finish_trap _ _ _ hrun]
  · rw [exec_mscaleA0 hs, scaleForm_free herr, finish_ok]
  · rw [exec_mscaleA1 hs, scaleForm_free herr, finish_ok]
  · rw [exec_mscaleB hs, scaleForm_free herr, finish_ok]
  · rw [exec_mmovv hs, hfree hq, finish_ok]
  · rw [exec_mmova hs, hfree hq, finish_ok]
  · rw [exec_mzero hs, tileForm_foreign herr hown, finish_trapOf hrun]
  · rw [exec_mwaitTile hs, tileForm_foreign herr hown, finish_trapOf hrun]

end Sys2Proof.Machine
end

section
/-! SUPPORT. What does not look at the strand's stage or at the waiting gang operations: array errors met, double faults, and trap entry
(R114, R154). -/

namespace Sys2Proof.Machine

/-- The state with other gang operations waiting and the strand at another stage. -/
def State.joined (s : State) (gs : List GangReq) (g : Stage) : State := { s with gangs := gs, me := { s.me with stage := g } }

/-- F neither looks at nor changes the strand's stage and the waiting gang operations, and keeps whose turn it is. -/
structure StageBlind (F : State → State) : Prop where
  joined : ∀ s gs g, F (s.joined gs g) = (F s).joined gs g
  cur : ∀ s, (F s).cur = s.cur

namespace StageBlind

theorem same : StageBlind fun s => s := ⟨fun _ _ _ => rfl, fun _ => rfl⟩

/-- F, then a G that takes a value of the state before F. -/
theorem then_ {α : Type} {F : State → State} {G : α → State → State} (p : State → α) (hp : ∀ s gs g, p (s.joined gs g) = p s)
    (hF : StageBlind F) (hG : ∀ a, StageBlind (G a)) : StageBlind fun s => G (p s) (F s) :=
  ⟨fun s gs g => by rw [hp, hF.joined, (hG _).joined], fun s => ((hG _).cur _).trans (hF.cur s)⟩

/-- F in a state given otherwise. -/
theorem at_ {F : State → State} (hF : StageBlind F) {s u : State} {gs : List GangReq} {g : Stage} (h : u = s.joined gs g) :
    F u = (F s).joined gs g := (congrArg F h).trans (hF.joined s gs g)

theorem with_ {α : Type} {G : α → State → State} (p : State → α) (hp : ∀ s gs g, p (s.joined gs g) = p s)
    (hG : ∀ a, StageBlind (G a)) : StageBlind fun s => G (p s) s := then_ p hp same hG

theorem comp {F G : State → State} (hG : StageBlind G) (hF : StageBlind F) : StageBlind fun s => G (F s) :=
  then_ (fun _ => ()) (fun _ _ _ => rfl) hF fun _ => hG

theorem ite {c : Prop} [Decidable c] {F G : State → State} (hF : StageBlind F) (hG : StageBlind G) :
    StageBlind fun s => if c then F s else G s := by
  split
  · exact hF
  · exact hG

theorem foldl {α : Type} {f : State → α → State} (hf : ∀ x, StageBlind fun s => f s x) (xs : List α) :
    StageBlind fun s => xs.foldl f s := by
  induction xs with
  | nil => exact same
  | cons x r ih => exact ih.comp (hf x)

/-! ## Storage, array errors and logs -/

theorem countCore (c n : Nat) : StageBlind fun s => s.countCore c n := ⟨fun _ _ _ => rfl, fun _ => rfl⟩
theorem countBlock (b n : Nat) : StageBlind fun s => s.countBlock b n := ⟨fun _ _ _ => rfl, fun _ => rfl⟩
theorem countDie (d n : Nat) : StageBlind fun s => s.countDie d n := ⟨fun _ _ _ => rfl, fun _ => rfl⟩
theorem modDie (d : Nat) (f : Die → Die) : StageBlind fun s => s.modDie d f := ⟨fun _ _ _ => rfl, fun _ => rfl⟩
theorem modCore (c : Nat) (f : Core → Core) : StageBlind fun s => s.modCore c f := ⟨fun _ _ _ => rfl, fun _ => rfl⟩
theorem modTile (t : Nat) (f : TileUnit → TileUnit) : StageBlind fun s => s.modTile t f := ⟨fun _ _ _ => rfl, fun _ => rfl⟩
theorem modNet (f : Net → Net) : StageBlind fun s => s.modNet f := ⟨fun _ _ _ => rfl, fun _ => rfl⟩

theorem fold (ks : List Nat) : StageBlind fun s => s.fold ks := by
  unfold State.fold
  exact with_ (G := fun b s => if b = true then s else { s with exact := s.exact.filter fun (w, x) =>
    !(ks.any fun k => decide (w ≤ k) && decide (k < w + x.ty.width / 8)) }) (fun s => s.exact.isEmpty) (fun _ _ _ => rfl)
    fun _ => same.ite ⟨fun _ _ _ => rfl, fun _ => rfl⟩

theorem perform (bs : List (Nat × Byte)) (y : Option SyncTag) : StageBlind fun s => s.perform bs y where
  joined s gs g := by
    unfold State.perform
    dsimp only
    rw [(fold _).joined]
    rfl
  cur s := (HomeOnly.perform s bs y).cur

theorem hostEvent (a b c d : Nat) (w : Word) : StageBlind fun s => (s.hostEvent a b c d w).1 := by
  refine ⟨fun s gs g => ?_, fun s => (HomeOnly.hostEvent s a b c d w).cur⟩
  unfold State.hostEvent
  dsimp only [State.joined]
  split
  · rfl
  · exact congrArg (fun u : State => { u with host := { u.host with evt := s.host.evt + 1 } }) ((perform _ none).joined s gs g)

theorem logRec (d cls arr bit : Nat) (loc : Word) (wid : Nat) (pos : Word) : StageBlind fun s => s.logRec d cls arr bit loc wid pos := by
  refine ⟨fun s gs g => ?_, fun s => (HomeOnly.logRec s d cls arr bit loc wid pos).cur⟩
  unfold State.logRec
  dsimp only
  have hdie : (s.joined gs g).dieRec d = s.dieRec d := rfl
  rw [hdie]
  split
  · rfl
  · rw [(modDie d _).joined]
    exact (hostEvent 2 _ d 0 _).joined _ gs g

theorem logCorrected (d arr bit : Nat) (loc : Word) (wid : Nat) (pos : Word) :
    StageBlind fun s => s.logCorrected d arr bit loc wid pos := by
  refine ⟨fun s gs g => ?_, fun s => (HomeOnly.logCorrected s d arr bit loc wid pos).cur⟩
  unfold State.logCorrected
  dsimp only
  have hdie : (s.joined gs g).dieRec d = s.dieRec d := rfl
  rw [hdie]
  split
  · rfl
  · rw [(modDie d _).joined]
    exact (logRec d 1 arr bit loc wid pos).joined _ gs g

theorem meetUpsetAs (wid : Nat) (pos : Word) (u : Upset) : StageBlind fun s => s.meetUpsetAs wid pos u := by
  refine ⟨fun s gs g => ?_, fun s => (HomeOnly.meetUpsetAs wid pos s u).cur⟩
  unfold State.meetUpsetAs
  have hpoison : (s.joined gs g).poison = s.poison := rfl
  have hupsets : (s.joined gs g).upsets = s.upsets := rfl
  dsimp only
  rw [hpoison, hupsets]
  cases localOf (u.key / 8 * 8) <;> cases vaultOf (u.key / 8 * 8) <;> dsimp only
  all_goals
    split
    · split
      · rfl
      · exact (logRec ..).at_ rfl
    · exact (logCorrected ..).at_ rfl

theorem meetUpsetsAs (wid : Nat) (pos : Word) (ks : List Nat) : StageBlind fun s => s.meetUpsetsAs wid pos ks := by
  refine ⟨fun s gs g => ?_, fun s => (HomeOnly.meetUpsetsAs s wid pos ks).cur⟩
  unfold State.meetUpsetsAs
  have hupsets : (s.joined gs g).upsets = s.upsets := rfl
  rw [hupsets]
  split
  · rfl
  · exact (foldl (meetUpsetAs wid pos) (s.upsetsAt ks)).joined s gs g

theorem meetRangeAs (wid : Nat) (pos : Word) (lo n : Nat) : StageBlind fun s => s.meetRangeAs wid pos lo n :=
  with_ (G := fun us s => us.foldl (State.meetUpsetAs wid pos) s)
    (fun s => s.upsets.filter fun u => decide (lo ≤ u.key) && decide (u.key < lo + n)) (fun _ _ _ => rfl)
    (foldl (meetUpsetAs wid pos))

/-! ## Double faults (R114) -/

theorem writeArea (addr wid len flags : Nat) (pos : Word) : StageBlind fun s => s.writeArea addr wid len flags pos := by
  refine ⟨fun s gs g => ?_, fun s => ?_⟩
  · unfold State.writeArea
    dsimp only
    rw [(meetRangeAs ..).joined]
    exact (perform _ none).at_ rfl
  · exact ((HomeOnly.perform _ _ _).cur).trans (HomeOnly.meetRangeAs ..).cur

theorem loseHandler (k : StrandIx) (x : Strand) : StageBlind fun s => s.loseHandler k x := by
  refine ⟨fun s gs g => ?_, fun s => ?_⟩
  · unfold State.loseHandler
    dsimp only
    have hweave : (s.joined gs g).weaveOf x.wid = s.weaveOf x.wid := rfl
    rw [hweave]
    split <;> rfl
  · unfold State.loseHandler
    dsimp only
    split <;> rfl

theorem loseSaves (lo n : Nat) : StageBlind fun s => s.loseSaves lo n := by
  have hlost (v : Save) : StageBlind fun s => v.strands.foldl (fun s (k, x) => s.loseHandler k x) s :=
    foldl (f := fun s (y : StrandIx × Strand) => s.loseHandler y.1 y.2) (fun y => loseHandler y.1 y.2) _
  have hall := with_ (fun s => (s.saves.filter fun v => v.overlaps lo n).filter fun v => !v.whole) (fun _ _ _ => rfl)
    (foldl (f := fun s (v : Save) => v.strands.foldl (fun s (k, x) => s.loseHandler k x) s) hlost)
  exact comp (G := fun s => { s with saves := s.saves.filter fun (v : Save) => !v.overlaps lo n }) ⟨fun _ _ _ => rfl, fun _ => rfl⟩ hall

/-- An area of a partition taken for the strand's state, and the state kept there (R114). -/
theorem saveFaulted : StageBlind State.saveFaulted := by
  refine ⟨fun s gs g => ?_, fun s => ?_⟩
  · unfold State.saveFaulted
    dsimp only
    have hlen : (s.joined gs g).saveLength (s.joined gs g).me.wid 1 = s.saveLength s.me.wid 1 := rfl
    have harea (n : Nat) : (s.joined gs g).takeArea (s.joined gs g).me.part n =
      ((s.takeArea s.me.part n).1, (s.takeArea s.me.part n).2.joined gs g) := rfl
    rw [hlen, harea]
    generalize s.takeArea s.me.part (s.saveLength s.me.wid 1) = area
    have hwin (n : Nat) : (area.2.joined gs g).inWindow area.1 n = area.2.inWindow area.1 n := rfl
    dsimp only
    rw [hwin]
    split
    · exact (loseHandler ..).at_ rfl
    · have hpos : (area.2.joined gs g).posOf (area.2.joined gs g).core (area.2.joined gs g).slot =
        area.2.posOf area.2.core area.2.slot := rfl
      have hwid : (s.joined gs g).me.wid = s.me.wid := rfl
      have hsettle : (s.joined gs g).me.settle = s.me.settle := rfl
      rw [hpos, hwid, hsettle, (writeArea ..).joined, (loseSaves ..).joined]
      rfl
  · unfold State.saveFaulted
    dsimp only
    split
    · exact (loseHandler ..).cur _
    · exact ((loseSaves ..).cur _).trans ((writeArea ..).cur _)

end StageBlind

theorem State.modStrand_me (s : State) (f : Strand → Strand) : s.modStrand s.cur f = { s with me := f s.me } := by
  unfold State.modStrand State.setStrand State.strand
  rw [if_pos rfl, if_pos rfl]

theorem State.freeSlot_joined (s : State) (gs : List GangReq) (g g' : Stage) :
    (s.joined gs g).freeSlot s.cur = (s.joined gs g').freeSlot s.cur := by
  have hfree (g : Stage) : (s.joined gs g).modStrand s.cur Strand.free = { s with gangs := gs, me := s.me.free } :=
    (s.joined gs g).modStrand_me Strand.free
  unfold State.freeSlot
  rw [hfree, hfree]

/-- A double fault saves the strand's state settled and frees its slot, so it does not matter how far the instruction had come. -/
theorem State.doubleFault_joined (s : State) (gs : List GangReq) (g g' : Stage) :
    (s.joined gs g).doubleFault = (s.joined gs g').doubleFault := by
  have hcount := StageBlind.countDie (dieOf s.core) 0x23
  have hlog := StageBlind.logRec (dieOf s.core) 6 0 0xFF s.me.stpc s.me.wid (s.saveFaulted.posOf s.saveFaulted.core s.saveFaulted.slot)
  have hform (g : Stage) : (s.joined gs g).doubleFault = (State.joined (((s.saveFaulted).countDie (dieOf s.core) 0x23).logRec
      (dieOf s.core) 6 0 0xFF s.me.stpc s.me.wid (s.saveFaulted.posOf s.saveFaulted.core s.saveFaulted.slot)) gs g).freeSlot
        s.saveFaulted.cur := by
    unfold State.doubleFault
    have hstpc : (s.joined gs g).me.stpc = s.me.stpc := rfl
    have hwid : (s.joined gs g).me.wid = s.me.wid := rfl
    have hcore : (s.joined gs g).core = s.core := rfl
    have hpos (u : State) : (u.joined gs g).posOf (u.joined gs g).core (u.joined gs g).slot = u.posOf u.core u.slot := rfl
    dsimp only
    rw [StageBlind.saveFaulted.joined, ← hlog.joined, ← hcount.joined, hstpc, hwid, hcore, hpos]
    rfl
  rw [hform, hform, ← hcount.cur, ← hlog.cur]
  exact State.freeSlot_joined _ gs g g'

/-- Trap entry ends the instruction, so it does not matter how far that had come (R43, R114). -/
theorem State.takeTrap_joined (s : State) (gs : List GangReq) (g g' : Stage) (t : Trap) (cnt : Word) :
    (s.joined gs g).takeTrap t cnt = (s.joined gs g').takeTrap t cnt := by
  unfold State.takeTrap
  rw [s.doubleFault_joined gs g g']
  rfl

end Sys2Proof.Machine
end

section
/-! SUPPORT. A gang of one core: what its member reads, and how its operation starts (R145, R150, R154, R155, R160). -/

namespace Sys2Proof.Machine

/-! ## Reads that do not look at the strand's stage or the waiting gang operations -/

section
variable (s : State) (gs : List GangReq) (g : Stage) (k : StrandIx) (gb dw : Word) (vb : Nat)

theorem State.strand_joined : ∃ g', (s.joined gs g).strand k = { s.strand k with stage := g' } := by
  by_cases hk : k = s.cur
  · have hme (u : State) (hu : u.cur = s.cur) : u.strand k = u.me := if_pos (hk.trans hu.symm)
    exact ⟨g, by rw [hme s rfl]; exact hme (s.joined gs g) rfl⟩
  · have hother (u : State) (hu : u.cur = s.cur) : u.strand k = Tab.get Strand.empty u.strands k := if_neg (hu ▸ hk)
    exact ⟨_, by rw [hother s rfl]; exact hother (s.joined gs g) rfl⟩

theorem State.strand_wid_joined : ((s.joined gs g).strand k).wid = (s.strand k).wid := by
  obtain ⟨_, h⟩ := s.strand_joined gs g k
  rw [h]
  rfl

theorem State.strand_live_joined : ((s.joined gs g).strand k).live = (s.strand k).live := by
  obtain ⟨_, h⟩ := s.strand_joined gs g k
  rw [h]

theorem State.holds_joined (c : CoreIx) (wid : Nat) : (s.joined gs g).holds c wid = s.holds c wid := by
  unfold State.holds
  simp only [State.strand_live_joined]
  rfl

theorem State.scrFault_joined : (s.joined gs g).scrFault k gb dw vb = s.scrFault k gb dw vb := by
  unfold State.scrFault
  rw [State.strand_wid_joined]
  rfl

theorem State.scrKeys_joined : (s.joined gs g).scrKeys k gb dw vb = s.scrKeys k gb dw vb := by
  unfold State.scrKeys
  rw [State.strand_wid_joined]
  rfl

theorem State.scrFirst_joined (p : Nat → Bool) : (s.joined gs g).scrFirst k gb dw vb p = s.scrFirst k gb dw vb p := by
  unfold State.scrFirst
  rw [State.scrKeys_joined]

theorem State.scrPoison_joined : (s.joined gs g).scrPoison k gb dw vb = s.scrPoison k gb dw vb := s.scrFirst_joined ..

theorem State.scrClaim_joined (id : Nat) : (s.joined gs g).scrClaim k gb dw vb id = s.scrClaim k gb dw vb id := by
  unfold State.scrClaim
  rw [State.strand_wid_joined]
  rfl

theorem State.operandFault_joined : (s.joined gs g).operandFault k gb dw vb = s.operandFault k gb dw vb := by
  unfold State.operandFault
  rw [State.scrFault_joined, State.scrFirst_joined]
  rfl

theorem State.operand_joined (scr : Bool) (first w L : Nat) :
    (s.joined gs g).operand k scr first gb dw w L = s.operand k scr first gb dw w L := by
  obtain ⟨_, h⟩ := s.strand_joined gs g k
  unfold State.operand
  rw [State.scrKeys_joined, h]
  rfl

theorem State.memberFault_joined (r : GangReq) (low : Bool) : (s.joined gs g).memberFault r low = s.memberFault r low := by
  obtain ⟨_, h⟩ := s.strand_joined gs g r.strand
  unfold State.memberFault
  dsimp only
  rw [State.operandFault_joined, State.operandFault_joined, h]
  rfl

theorem State.formOp_joined (id : Nat) (low r : GangReq) : (s.joined gs g).formOp id low r = s.formOp id low r := by
  obtain ⟨_, h⟩ := s.strand_joined gs g r.strand
  obtain ⟨_, hl⟩ := s.strand_joined gs g low.strand
  unfold State.formOp
  dsimp only
  rw [State.operand_joined, State.operand_joined, State.scrPoison_joined, State.scrPoison_joined, h, hl]
  rfl

theorem State.gangClaims_joined (id : Nat) (low : GangReq) (rs : List GangReq) :
    (s.joined gs g).gangClaims id low rs = s.gangClaims id low rs := by
  unfold State.gangClaims
  simp only [State.scrClaim_joined]

theorem State.gangKeys_joined (low : GangReq) (rs : List GangReq) : (s.joined gs g).gangKeys low rs = s.gangKeys low rs := by
  unfold State.gangKeys
  simp only [State.scrKeys_joined]

theorem State.gangReady_joined (cl : List (Nat × Claim)) (low : GangReq) (rs : List GangReq) :
    (s.joined gs g).gangReady cl low rs = s.gangReady cl low rs := by
  unfold State.gangReady
  simp only [State.scrKeys_joined]
  rfl

end

/-! ## How an operation starts -/

namespace StageBlind

theorem meetUpsetsOf (k : StrandIx) (ks : List Nat) : StageBlind fun s => s.meetUpsetsOf k ks :=
  with_ (G := fun (p : Nat × Word) s => s.meetUpsetsAs p.1 p.2 ks) (fun s => ((s.strand k).wid, s.posOf (coreOf k) (slotOf k)))
    (fun s gs g => by rw [State.strand_wid_joined]; rfl) fun p => meetUpsetsAs p.1 p.2 ks

/-- A change of some strand's record that does not concern its stage. -/
theorem modStrand {f : Strand → Strand} (hf : ∀ x g, f { x with stage := g } = { f x with stage := g }) (k : StrandIx) :
    StageBlind fun s => s.modStrand k f := by
  refine ⟨fun s gs g => ?_, fun s => State.modStrand_cur ..⟩
  unfold State.modStrand State.setStrand State.strand
  have hcur : (s.joined gs g).cur = s.cur := rfl
  rw [hcur]
  split
  · exact congrArg (fun x => { s with gangs := gs, me := x }) (hf s.me g)
  · rfl

end StageBlind

/-- The release tags that reading a scratchpad operand meets, noted by strand k (R155, R228, R255). -/
def noteOperand (s : State) (k : StrandIx) (gb dw : Word) (vb : Nat) : State :=
  s.modStrand k fun x => { x with readTags := (x.readTags ++ s.tagsOf (s.scrKeys k gb dw vb).flatten).eraseDups }

def noteB (w : Nat) (s : State) (r : GangReq) : State := if r.bsp then noteOperand s r.strand r.gb r.db (r.lb * w / 8) else s

theorem noteGang_eq (s : State) (low : GangReq) (rs : List GangReq) :
    s.noteGang low rs = if s.relTags.isEmpty then s else
      rs.foldl (noteB low.ty.width) (if low.asp then noteOperand s low.strand low.ga low.da (low.k * low.ty.width / 8) else s) := rfl

namespace StageBlind

theorem noteOperand (k : StrandIx) (gb dw : Word) (vb : Nat) : StageBlind fun s => Machine.noteOperand s k gb dw vb :=
  with_ (G := fun ts s => s.modStrand k fun x => { x with readTags := (x.readTags ++ ts).eraseDups })
    (fun s => s.tagsOf (s.scrKeys k gb dw vb).flatten) (fun s gs g => by rw [State.scrKeys_joined]; rfl)
    fun _ => modStrand (fun _ _ => rfl) k

theorem noteB (w : Nat) (r : GangReq) : StageBlind fun s => Machine.noteB w s r := ite (noteOperand ..) same

theorem noteGang (low : GangReq) (rs : List GangReq) : StageBlind fun s => s.noteGang low rs := by
  have hnoted := comp (foldl (noteB low.ty.width) rs)
    ((noteOperand low.strand low.ga low.da (low.k * low.ty.width / 8)).ite (c := low.asp = true) same)
  simp only [noteGang_eq]
  exact with_ (G := fun b s => if b = true then s else
      rs.foldl (Machine.noteB low.ty.width) (if low.asp then Machine.noteOperand s low.strand low.ga low.da _ else s))
    (fun s => s.relTags.isEmpty) (fun _ _ _ => rfl) fun _ => same.ite hnoted

end StageBlind

/-- A claim of a comparator. -/
def takeClaim (s : State) (c : Nat × Claim) : State := s.modTile c.1 fun u => { u with claims := u.claims ++ [c.2] }

/-- An operation of one core queued, with the claims it takes; its operands are read as s has them. -/
def queued (id : Nat) (r : GangReq) (cl : List (Nat × Claim)) (s : State) : State :=
  (cl.foldl takeClaim s).modCore (coreOf r.strand) fun c => { c with loomq := c.loomq ++ [s.formOp id r r] }

/-- A lone member's operation as it starts, before the member goes on. -/
def aloneStarts (r : GangReq) (s : State) : State :=
  queued s.fresh.1 r (s.gangClaims s.fresh.1 r [r]) ((s.fresh.2.meetUpsetsOf r.strand (s.gangKeys r [r])).noteGang r [r])

theorem startGang_alone (s : State) (r : GangReq) : s.startGang r.strand r [r] = (aloneStarts r s).endGang r .gangFormed := rfl

namespace StageBlind

theorem claims (cl : List (Nat × Claim)) : StageBlind fun s => cl.foldl takeClaim s := foldl (f := takeClaim) (fun c => modTile c.1 _) cl

theorem queued (id : Nat) (r : GangReq) (cl : List (Nat × Claim)) : StageBlind (Machine.queued id r cl) :=
  then_ (G := fun o s => s.modCore (coreOf r.strand) fun c => { c with loomq := c.loomq ++ [o] }) (fun s => s.formOp id r r)
    (fun s gs g => s.formOp_joined gs g id r r) (claims cl) fun _ => modCore _ _

theorem aloneStarts (r : GangReq) : StageBlind (Machine.aloneStarts r) := by
  have hmeet : StageBlind fun s => s.fresh.2.meetUpsetsOf r.strand (s.gangKeys r [r]) :=
    then_ (G := fun ks s => s.meetUpsetsOf r.strand ks) (F := fun s => s.fresh.2) (fun s => s.gangKeys r [r])
      (fun s gs g => s.gangKeys_joined gs g r [r]) ⟨fun _ _ _ => rfl, fun _ => rfl⟩ fun ks => meetUpsetsOf r.strand ks
  exact then_ (G := fun (p : Nat × List (Nat × Claim)) s => Machine.queued p.1 r p.2 s)
    (fun s => (s.fresh.1, s.gangClaims s.fresh.1 r [r])) (fun s gs g => by rw [State.gangClaims_joined]; rfl)
    ((noteGang r [r]).comp hmeet) fun p => queued p.1 r p.2

end StageBlind

/-! ## A member's wait ends -/

section
variable {s : State} {r : GangReq}

/-- The current strand's own member that is not a pass's goes on, and leaves the waiting operations. -/
theorem endGang_me (hr : r.strand = s.cur) (hpass : r.pass = false) (gs : List GangReq) (g st : Stage) :
    (s.joined gs g).endGang r st = s.joined (gs.filter fun x => x.strand != s.cur) st := by
  unfold State.endGang
  rw [hpass, hr]
  exact State.modStrand_me { s.joined gs g with gangs := gs.filter fun x => x.strand != s.cur } _

/-- How far the strand had come, and its own waiting operation, do not matter to an operation that starts. -/
theorem startGang_joined (hr : r.strand = s.cur) (hpass : r.pass = false) (gs : List GangReq) (g : Stage) :
    (s.joined gs g).startGang s.cur r [r] = (aloneStarts r s).joined (gs.filter fun x => x.strand != s.cur) .gangFormed := by
  have hcur := (StageBlind.aloneStarts r).cur s
  have hend := endGang_me (hr.trans hcur.symm) hpass gs g .gangFormed
  rw [← hr, startGang_alone, (StageBlind.aloneStarts r).joined, hend, hcur, hr]

end

end Sys2Proof.Machine
end

section
/-! SUPPORT. MMA and MMA.S as they issue: a gang of one core, a gang that waits, and one whose descriptors differ (R145, R154). -/

namespace Sys2Proof.Machine

/-! ## Gangs as they form -/

section
variable {w : State} {k : StrandIx} {r : GangReq}

/-- The strands of a gang's cores, by the slot of strand k. -/
def gangSlots (r : GangReq) (k : StrandIx) : List StrandIx := r.cores.map fun c => strandAt c (slotOf k)

/-- The members of strand k's gang that have issued. -/
def State.gangMembers (w : State) (r : GangReq) (k : StrandIx) : List GangReq :=
  (gangSlots r k).filterMap fun m => w.gangs.find? fun x => x.strand == m && (m == k || decide (1 < x.cores.length))

/-- Every core of the gang holds the weave, and a strand of the weave's is in its slot. -/
def State.gangWhole (w : State) (r : GangReq) (k : StrandIx) : Prop :=
  ∀ c ∈ r.cores, w.holds c (w.strand k).wid = true ∧ (w.strand (strandAt c (slotOf k))).live = true ∧
    (w.strand (strandAt c (slotOf k))).wid = (w.strand k).wid

theorem State.gangWhole.unbroken (h : w.gangWhole r k) :
    ¬(r.cores.zip (gangSlots r k)).any (fun (c, m) =>
      !w.holds c (w.strand k).wid || !(w.strand m).live || (w.strand m).wid != (w.strand k).wid) = true := by
  rw [gangSlots, ← List.map_prod_left_eq_zip]
  simp only [List.any_map, List.any_eq_true, not_exists, not_and]
  intro c hc
  obtain ⟨hholds, hlive, hwid⟩ := h c hc
  simp [hholds, hlive, hwid]

theorem tryFormGang_waits (hr : w.gangs.find? (fun x => decide (x.strand = k)) = some r) (h : w.gangWhole r k)
    (hlen : (w.gangMembers r k).length < (gangSlots r k).length) : w.tryFormGang k = w := by
  unfold State.tryFormGang
  rw [hr]
  exact (if_neg h.unbroken).trans (if_pos hlen)

theorem tryFormGang_mismatch (hr : w.gangs.find? (fun x => decide (x.strand = k)) = some r) (h : w.gangWhole r k)
    (hlen : (w.gangMembers r k).length = (gangSlots r k).length) (hdescr : ∃ q ∈ w.gangMembers r k, q.descr ≠ r.descr) :
    w.tryFormGang k = (w.gangMembers r k).foldl (fun u q => u.endGang q (gangTrap 1)) w := by
  have hany : (w.gangMembers r k).any (fun x => x.descr != r.descr) = true := by simpa using hdescr
  unfold State.tryFormGang
  rw [hr]
  exact (if_neg h.unbroken).trans ((if_neg hlen.not_lt).trans (if_pos hany))

/-- A lone member's turn at forming its gang, given the cause among its operands and whether there is room. -/
def State.triesAlone (w : State) (r : GangReq) (fault : Option Trap) (ready : Bool) : State :=
  match fault with
  | some t => w.endGang r (.gangTrap t)
  | none => if ready then w.startGang r.strand r [r] else w

theorem tryFormGang_alone (hr : w.gangs = [r]) (hk : r.strand = k) (h : w.gangWhole r k) (hslots : gangSlots r k = [k]) :
    w.tryFormGang k =
      w.triesAlone r (w.memberFault r true) (w.gangReady (w.gangClaims w.fresh.1 r [r]) r [r]) := by
  have hfound : w.gangs.find? (fun x => decide (x.strand = k)) = some r := by simp [hr, hk]
  have hmembers : w.gangMembers r k = [r] := by unfold State.gangMembers; simp [hslots, hr, hk]
  have hlen : ¬(w.gangMembers r k).length < (gangSlots r k).length := by simp [hmembers, hslots]
  have hdescr : ¬(w.gangMembers r k).any (fun x => x.descr != r.descr) = true := by simp [hmembers]
  subst hk
  unfold State.tryFormGang
  rw [hfound]
  refine (if_neg h.unbroken).trans ((if_neg hlen).trans ((if_neg hdescr).trans ?_))
  unfold State.gangMembers gangSlots at hmembers
  rw [hmembers]
  have hfaults : [r].map (fun x => (x, w.memberFault x (x.strand == r.strand))) = [(r, w.memberFault r true)] := by simp
  dsimp only [List.headD_cons]
  rw [hfaults]
  cases w.memberFault r true with
  | some t => rfl
  | none => cases w.gangReady (w.gangClaims w.fresh.1 r [r]) r [r] <;> rfl

end

/-! ## MMA's turn -/

/-- The gang operation of an MMA that is no pass's. -/
def State.gangReq (s : State) (sparse : Bool) (x : MmaSA) : GangReq :=
  { strand := s.cur, pass := false, sparse := sparse, ty := x.ty, gw := x.gw.val, kq := x.kq.val, asp := x.asp, bsp := x.bsp,
    acc := x.acc.val, a := x.a.val, b := x.b.val, m := x.m.val, ga := if x.asp then s.rg x.a else 0,
    gb := if x.bsp then s.rg x.b else 0, da := s.rg x.adr, db := s.rg x.bdr }

theorem mmaForm_issues {s : State} (hs : s.unheld) (herr : s.me.loomErr = none) (sparse : Bool) (x : MmaSA) :
    mmaForm s false sparse x 0 = mmaTurn s (s.gangReq sparse x) := by
  unfold mmaForm
  rw [if_pos hs.1.1, loomHeld_none herr]
  dsimp only
  rw [add_zero, add_zero, memOp_free hs.memFree, ite_self]
  rfl

/-- The state in which a gang operation waits. -/
def State.joins (s : State) (r : GangReq) : State := s.joined (s.gangs ++ [r]) .gangOut

/-- What an MMA does once its gang has been tried. -/
def mmaTried (u : State) : Res :=
  match u.me.stage with
  | .gangFormed => .ok u
  | .gangTrap t => .trap u t
  | _ => .wait u .gang

theorem mmaTurn_issues {s : State} (h0 : s.me.stage = .none) (r : GangReq) :
    mmaTurn s r = mmaTried ((s.joins r).tryFormGang s.cur) := by
  unfold mmaTurn
  rw [h0]
  rfl

theorem mmaTried_formed {u : State} (h : u.me.stage = .gangFormed) : mmaTried u = .ok u := by unfold mmaTried; rw [h]
theorem mmaTried_trap {u : State} {t : Trap} (h : u.me.stage = .gangTrap t) : mmaTried u = .trap u t := by unfold mmaTried; rw [h]
theorem mmaTried_waits {u : State} (h : u.me.stage = .gangOut) : mmaTried u = .wait u .gang := by unfold mmaTried; rw [h]

end Sys2Proof.Machine
end

section
/-! SUPPORT. The gang forms' obligation (R145, R154, R155, R160). -/

namespace Sys2Proof.Machine

/-! ## Cores of a gang -/

theorem loomCore_loomPos (c : CoreIx) : loomCore c (loomPos c) = c := by
  have hle : loomPos c ≤ c := (Nat.mod_le _ _).trans (Nat.mod_le _ _)
  exact Nat.sub_add_cancel hle

theorem strandAt_self (k : StrandIx) : strandAt (coreOf k) (slotOf k) = k := Nat.div_add_mod' k 8

theorem cores_alone {r : GangReq} (h : r.gw = 0) : r.cores = [coreOf r.strand] := by
  unfold GangReq.cores
  simp [h, Nat.mod_one, loomCore_loomPos]

theorem gangSlots_alone {r : GangReq} {k : StrandIx} (h : r.gw = 0) (hk : r.strand = k) : gangSlots r k = [k] := by
  rw [gangSlots, cores_alone h, hk, List.map_singleton, strandAt_self]

/-- A wider gang has a slot that is not the strand's. -/
theorem exists_other_slot {r : GangReq} (h : 1 ≤ r.gw) (k : StrandIx) : ∃ m ∈ gangSlots r k, m ≠ k := by
  have htwo : 2 ≤ 2 ^ r.gw := by simpa using Nat.pow_le_pow_right (n := 2) (by decide) h
  have hmem (i : Nat) (hi : i < 2 ^ r.gw) : strandAt (loomCore (coreOf r.strand)
      (loomPos (coreOf r.strand) - loomPos (coreOf r.strand) % 2 ^ r.gw + i)) (slotOf k) ∈ gangSlots r k :=
    List.mem_map_of_mem (List.mem_map_of_mem (List.mem_range.mpr hi))
  by_contra hall
  push Not at hall
  have hsame := (hall _ (hmem 0 (by omega))).trans (hall _ (hmem 1 (by omega))).symm
  have hdiffer (a b n : Nat) : (a + (b + 0)) * 8 + n ≠ (a + (b + 1)) * 8 + n := by omega
  exact hdiffer _ _ _ hsame

/-! ## A member beside the operations that wait -/

section
variable {s : State} {r : GangReq}

theorem State.strand_cur (s : State) : s.strand s.cur = s.me := if_pos rfl

theorem find_joins {p : GangReq → Bool} (hs : ∀ q ∈ s.gangs, p q = false) (hp : p r = true) :
    (s.joins r).gangs.find? p = some r := by
  have hnone : s.gangs.find? p = none := List.find?_eq_none.mpr fun q hq => by simp [hs q hq]
  exact (List.find?_append ..).trans (by simp [hnone, hp])

theorem gangWhole_joins (h : ∀ c ∈ r.cores, s.holds c s.me.wid = true ∧
      ((s.joins r).strand (strandAt c (slotOf s.cur))).live = true ∧
      ((s.joins r).strand (strandAt c (slotOf s.cur))).wid = s.me.wid) : (s.joins r).gangWhole r s.cur := by
  intro c hc
  obtain ⟨hholds, hlive, hwid⟩ := h c hc
  have hme : ((s.joins r).strand s.cur).wid = s.me.wid := (s.strand_wid_joined _ _ _).trans (congrArg Strand.wid s.strand_cur)
  rw [hme]
  exact ⟨(s.holds_joined ..).trans hholds, hlive, hwid⟩

/-- The strand's own core holds the weave, so a gang of that core alone is whole. -/
theorem gangWhole_alone (hr : r.strand = s.cur) (hgw : r.gw = 0) (hlive : s.me.live = true) (hholds : s.holds s.core s.me.wid = true) :
    (s.joins r).gangWhole r s.cur := by
  refine gangWhole_joins fun c hc => ?_
  rw [cores_alone hgw, List.mem_singleton, hr] at hc
  subst hc
  rw [strandAt_self]
  exact ⟨hholds, (s.strand_live_joined ..).trans (s.strand_cur ▸ hlive),
    (s.strand_wid_joined ..).trans (congrArg Strand.wid s.strand_cur)⟩

theorem State.joined_self (hs : s.gangs = []) : s.joined [] s.me.stage = s := by
  unfold State.joined
  rw [← hs]

theorem State.modStrand_other_me {u : State} {k : StrandIx} (h : k ≠ u.cur) (f : Strand → Strand) : (u.modStrand k f).me = u.me := by
  unfold State.modStrand State.setStrand
  rw [if_neg h]

/-- Another strand's member that ends its wait. -/
theorem endGang_other {u : State} (hr : r.strand ≠ u.cur) (st : Stage) : (u.endGang r st).me = u.me :=
  State.modStrand_other_me (u := { u with gangs := u.gangs.filter fun x => x.strand != r.strand }) hr _

theorem endGang_cur (u : State) (r : GangReq) (st : Stage) : (u.endGang r st).cur = u.cur := State.modStrand_cur ..

/-- The current strand's own member that ends its wait. -/
theorem endGang_own {u : State} (hr : r.strand = u.cur) (hpass : r.pass = false) (st : Stage) : (u.endGang r st).me.stage = st := by
  have hend : u.endGang r st = _ := endGang_me hr hpass u.gangs u.me.stage st
  rw [hend]
  rfl

/-- Members that end their wait, the current strand's among them. -/
theorem foldl_endGang_stage (st : Stage) (rs : List GangReq) (u : State) (hpass : ∀ q ∈ rs, q.strand = u.cur → q.pass = false)
    (h : u.me.stage = st ∨ ∃ q ∈ rs, q.strand = u.cur) : (rs.foldl (fun u q => u.endGang q st) u).me.stage = st := by
  induction rs generalizing u with
  | nil => simpa using h
  | cons q rest ih =>
    refine ih _ (fun p hp => endGang_cur u q st ▸ hpass p (List.mem_cons_of_mem _ hp)) ?_
    by_cases hq : q.strand = u.cur
    · exact .inl (endGang_own hq (hpass q List.mem_cons_self hq) st)
    · rw [endGang_other hq, endGang_cur]
      rcases h with h | ⟨p, hp, hcur⟩
      · exact .inl h
      · rcases List.mem_cons.mp hp with rfl | hp
        · exact absurd hcur hq
        · exact .inr ⟨p, hp, hcur⟩

end

/-! ## How a member's turn ends -/

section
variable {s : State} {r : GangReq} (h0 : s.me.stage = .none) (hr : r.strand = s.cur) (hpass : r.pass = false)
include h0 hr hpass

section
variable (hlive : s.me.live = true) (hholds : s.holds s.core s.me.wid = true) (hgangs : s.gangs = []) (hgw : r.gw = 0)
include hlive hholds hgangs hgw

omit h0 hpass in
theorem tryFormGang_joins_alone : (s.joins r).tryFormGang s.cur =
    (s.joins r).triesAlone r (s.memberFault r true) (s.gangReady (s.gangClaims s.fresh.1 r [r]) r [r]) := by
  have hjoin : (s.joins r).gangs = [r] := by rw [show (s.joins r).gangs = s.gangs ++ [r] from rfl, hgangs]; rfl
  have hready : (s.joins r).gangReady ((s.joins r).gangClaims (s.joins r).fresh.1 r [r]) r [r] =
      s.gangReady (s.gangClaims s.fresh.1 r [r]) r [r] := by
    unfold State.joins
    rw [State.gangReady_joined, State.gangClaims_joined]
    rfl
  rw [tryFormGang_alone hjoin hr (gangWhole_alone hr hgw hlive hholds) (gangSlots_alone hgw hr), hready,
    show (s.joins r).memberFault r true = s.memberFault r true from s.memberFault_joined ..]

theorem mmaTurn_starts (hok : s.memberFault r true = none)
    (hready : s.gangReady (s.gangClaims s.fresh.1 r [r]) r [r] = true) : mmaTurn s r = .ok (s.startGang s.cur r [r]) := by
  have hkeep : s.gangs.filter (fun x => x.strand != s.cur) = [] := by rw [hgangs]; rfl
  have hstart : s.startGang s.cur r [r] = (aloneStarts r s).joined [] .gangFormed :=
    (startGang_joined hr hpass s.gangs s.me.stage).trans (by rw [hkeep])
  have hstart' : (s.joins r).startGang s.cur r [r] = (aloneStarts r s).joined [] .gangFormed :=
    (startGang_joined hr hpass (s.gangs ++ [r]) .gangOut).trans (by simp [hkeep, hr])
  have htried := tryFormGang_joins_alone hr hlive hholds hgangs hgw
  rw [hok, hready] at htried
  have htried := htried.trans (hr ▸ hstart')
  rw [mmaTurn_issues h0, htried, hstart]
  exact mmaTried_formed rfl

theorem mmaTurn_fault {t : Trap} (hfault : s.memberFault r true = some t) :
    mmaTurn s r = .trap (s.joined [] (.gangTrap t)) t := by
  have hend : (s.joins r).endGang r (.gangTrap t) = s.joined [] (.gangTrap t) :=
    (endGang_me hr hpass (s.gangs ++ [r]) .gangOut (.gangTrap t)).trans (by simp [hgangs, hr])
  have htried := tryFormGang_joins_alone hr hlive hholds hgangs hgw
  rw [hfault] at htried
  rw [mmaTurn_issues h0, htried.trans hend]
  exact mmaTried_trap rfl

end

omit hpass in
theorem mmaTurn_waits (hgangs : s.gangs = []) (hgw : 1 ≤ r.gw) (hwhole : (s.joins r).gangWhole r s.cur) :
    mmaTurn s r = .wait (s.joins r) .gang := by
  have hfound : (s.joins r).gangs.find? (fun x => decide (x.strand = s.cur)) = some r :=
    find_joins (by simp [hgangs]) (by simp [hr])
  have hlen : ((s.joins r).gangMembers r s.cur).length < (gangSlots r s.cur).length := by
    obtain ⟨m, hm, hne⟩ := exists_other_slot hgw s.cur
    refine List.length_filterMap_lt_length_iff_exists.mpr ⟨m, hm, ?_⟩
    rw [show (s.joins r).gangs = s.gangs ++ [r] from rfl, hgangs]
    simp [hr, Ne.symm hne]
  rw [mmaTurn_issues h0, tryFormGang_waits hfound hwhole hlen]
  exact mmaTried_waits rfl

theorem mmaTurn_mismatch (hother : ∀ q ∈ s.gangs, q.strand ≠ s.cur) (hcur : s.cur ∈ gangSlots r s.cur)
    (hwhole : (s.joins r).gangWhole r s.cur) (hlen : ((s.joins r).gangMembers r s.cur).length = (gangSlots r s.cur).length)
    (hdescr : ∃ q ∈ (s.joins r).gangMembers r s.cur, q.descr ≠ r.descr) :
    mmaTurn s r = .trap (((s.joins r).gangMembers r s.cur).foldl (fun u q => u.endGang q (gangTrap 1)) (s.joins r))
      ⟨0x42, 1, 0, none, 0⟩ := by
  have hfound : (s.joins r).gangs.find? (fun x => decide (x.strand = s.cur)) = some r :=
    find_joins (fun q hq => by simp [hother q hq]) (by simp [hr])
  have hmember : r ∈ (s.joins r).gangMembers r s.cur :=
    List.mem_filterMap.mpr ⟨s.cur, hcur, find_joins (fun q hq => by simp [hother q hq]) (by simp [hr])⟩
  have hown : ∀ q ∈ (s.joins r).gangMembers r s.cur, q.strand = s.cur → q.pass = false := by
    intro q hq hstrand
    obtain ⟨m, _, hm⟩ := List.mem_filterMap.mp hq
    rcases List.mem_append.mp (List.mem_of_find?_eq_some hm) with hq | hq
    · exact absurd hstrand (hother q hq)
    · rw [List.mem_singleton.mp hq, hpass]
  rw [mmaTurn_issues h0, tryFormGang_mismatch hfound hwhole hlen hdescr]
  exact mmaTried_trap (foldl_endGang_stage _ _ (s.joins r) hown (.inr ⟨r, hmember, hr⟩))

end

/-! ## The forms -/

theorem exec_mma {s : State} (hs : s.unheld) (herr : s.me.loomErr = none) (x : MmaA) :
    exec (.mma x) s = (mmaTurn s (s.gangReq false (asSparse x))).finish s := by
  rw [show exec (.mma x) s = (runMma x s).finish s from rfl, runMma, recordable_unheld hs, mmaForm_issues hs herr]

theorem exec_mmaS {s : State} (hs : s.unheld) (herr : s.me.loomErr = none) (x : MmaSA) :
    exec (.mmaS x) s = (mmaTurn s (s.gangReq true x)).finish s := by
  rw [show exec (.mmaS x) s = (runMmaS x s).finish s from rfl, runMmaS, recordable_unheld hs, mmaForm_issues hs herr]

theorem gangFormsIssue : Statements.GangFormsIssue := by
  intro s hs herr hlive hholds req started waiting all x y p hp
  have h0 := hs.1.1
  have hexec : exec p.2 s = (mmaTurn s (req p.1.1 p.1.2)).finish s := by
    rcases List.mem_pair.mp hp with rfl | rfl
    · exact exec_mma hs herr x
    · exact exec_mmaS hs herr y
  dsimp only
  rw [hexec]
  refine ⟨fun hgangs hgw hok hready => ?_, fun hgangs hgw t hfault => ?_, fun hgangs hgw hcores => ?_, ?_⟩
  · rw [mmaTurn_starts h0 rfl rfl hlive hholds hgangs hgw hok hready, finish_ok]
  · rw [mmaTurn_fault h0 rfl rfl hlive hholds hgangs hgw hfault, finish_trap _ _ _ hs.1.2, s.takeTrap_joined [] _ s.me.stage,
      State.joined_self hgangs]
  · have hwhole := gangWhole_joins (s := s) (r := req p.1.1 p.1.2) fun c hc => by
      rw [State.joins, State.strand_live_joined, State.strand_wid_joined]
      exact hcores c hc
    rw [mmaTurn_waits h0 rfl hgangs hgw hwhole, finish_wait]
    rfl
  · intro hother hcur hgw hlen hdescr hcores
    rw [mmaTurn_mismatch h0 rfl rfl hother hcur (gangWhole_joins hcores) hlen hdescr, finish_trap _ _ _ hs.1.2]
    rfl

/-- Settles O41: the accumulator forms come to their part on a quiet owned tile; an MMA's gang is whole, so how its turn ends follows from
its members alone, and neither the stage nor its own waiting operation is read on the way. -/
theorem loomForms : Obligations.LoomForms := ⟨accumulatorForms, gangFormsIssue⟩

end Sys2Proof.Machine
end

section
/-! SUPPORT. Fields laid side by side in a word read back (R51, R57). -/

namespace Sys2Proof

/-! ## Fields laid side by side

An encoder sums its fields, each shifted to its place by `put`. The lemmas below read a field back from such a sum: they sort the summands from
the highest place down, then drop what lies below the bits that are read until the field itself is the last summand. -/

section
variable {n lo k a b i j l N : Nat} {x : BitVec j} {y : BitVec l}

theorem extractLsb'_ofNat_eq (hn : lo + k ≤ n) : (BitVec.ofNat n N).extractLsb' lo k = BitVec.ofNat k (N / 2 ^ lo) := by
  apply BitVec.eq_of_getLsbD_eq
  intro i hi
  rw [BitVec.getLsbD_extractLsb', BitVec.getLsbD_ofNat, BitVec.getLsbD_ofNat, Nat.testBit_div_two_pow, Nat.add_comm i]
  simp [hi, show lo + i < n by omega]

/-- `N` holds nothing below bit `b`. -/
def Above (b N : Nat) : Prop := 2 ^ b ∣ N

@[simp] theorem above_put (h : b ≤ a) : Above b (put a x) := (Nat.pow_dvd_pow 2 h).mul_left _

@[simp] theorem above_add_put (h : b ≤ a) : Above b (N + put a x) ↔ Above b N :=
  (Nat.dvd_add_iff_left (above_put h)).symm

/- The `+ 0` keeps `simp` from taking the two swaps for commutativity laws, which it orders by its own measure and not by `a < b`. -/
@[simp] theorem put_add_put_swap (_h : a < b) : put a x + put b y = put b y + (put a x + 0) := Nat.add_comm ..

@[simp] theorem add_put_add_put_swap (_h : a < b) : N + put a x + put b y = N + put b y + (put a x + 0) := Nat.add_right_comm ..

@[simp] theorem extractLsb'_add_put_below (hn : lo + k ≤ n) (h : a + j ≤ lo) (hN : Above (a + j) N) :
    (BitVec.ofNat n (N + put a x)).extractLsb' lo k = (BitVec.ofNat n N).extractLsb' lo k := by
  obtain ⟨c, hc⟩ := hN
  obtain ⟨d, rfl⟩ := Nat.exists_eq_add_of_le h
  have hx : put a x < 2 ^ (a + j) := by
    rw [Nat.pow_add, Nat.mul_comm]; exact Nat.mul_lt_mul_of_pos_right x.isLt (Nat.two_pow_pos a)
  rw [extractLsb'_ofNat_eq hn, extractLsb'_ofNat_eq hn, Nat.pow_add _ (a + j), hc, ← Nat.div_div_eq_div_mul, ← Nat.div_div_eq_div_mul,
    Nat.mul_add_div (Nat.two_pow_pos _), Nat.div_eq_of_lt hx, Nat.mul_div_cancel_left _ (Nat.two_pow_pos _), Nat.add_zero]

@[simp] theorem extractLsb'_put_same (hn : lo + j ≤ n) : (BitVec.ofNat n (put lo x)).extractLsb' lo j = x := by
  rw [extractLsb'_ofNat_eq hn, put, Nat.mul_div_cancel _ (Nat.two_pow_pos lo)]
  simp

@[simp] theorem extractLsb'_above (hn : lo + k ≤ n) (hN : Above (lo + k) N) : (BitVec.ofNat n N).extractLsb' lo k = 0 := by
  obtain ⟨c, rfl⟩ := hN
  rw [extractLsb'_ofNat_eq hn, Nat.pow_add, Nat.mul_assoc, Nat.mul_div_cancel_left _ (Nat.two_pow_pos lo)]
  exact BitVec.eq_of_toNat_eq (by simp)

@[simp] theorem extractLsb'_add_put_same (hn : lo + j ≤ n) (hN : Above (lo + j) N) :
    (BitVec.ofNat n (N + put lo x)).extractLsb' lo j = x := by
  have hz : BitVec.ofNat j (N / 2 ^ lo) = 0 := by rw [← extractLsb'_ofNat_eq hn, extractLsb'_above hn hN]
  have hd : 2 ^ lo ∣ N := Nat.dvd_trans (Nat.pow_dvd_pow 2 (Nat.le_add_right ..)) hN
  rw [extractLsb'_ofNat_eq hn, Nat.add_div_of_dvd_right hd, BitVec.ofNat_add, hz, put, Nat.mul_div_cancel _ (Nat.two_pow_pos lo)]
  simp

@[simp] theorem extractLsb'_put_below (hn : lo + k ≤ n) (h : a + j ≤ lo) : (BitVec.ofNat n (put a x)).extractLsb' lo k = 0 := by
  have := extractLsb'_add_put_below (N := 0) (x := x) hn h (Nat.dvd_zero _)
  simpa using this

@[simp] theorem getElem_ofNat_eq_extractLsb' (h : i < n) : (BitVec.ofNat n N)[i] = ((BitVec.ofNat n N).extractLsb' i 1 == 1#1) := by
  have h1 : (BitVec.ofNat n N).extractLsb' i 1 = BitVec.ofBool (BitVec.ofNat n N)[i] := by
    apply BitVec.eq_of_getLsbD_eq
    intro j hj
    obtain rfl : j = 0 := by omega
    simpa using BitVec.getLsbD_eq_getElem h
  rw [h1]; cases (BitVec.ofNat n N)[i] <;> rfl

@[simp] theorem ofBool_beq_one (c : Bool) : (BitVec.ofBool c == 1#1) = c := by cases c <;> rfl
end

@[simp] theorem fieldsOf_packWord (g : Guard) (f : Fields) : fieldsOf (packWord g f) = f := by
  simp [fieldsOf, packWord]

@[simp] theorem guardOf_packWord (g : Guard) (f : Fields) : guardOf (packWord g f) = g := by
  simp [guardOf, packWord]

end Sys2Proof
end

section
/-! SUPPORT. Each operand form of a single word reads back what was written (R52, R53, R57, R121, R201). -/

namespace Sys2Proof

/-! ## Codes -/

@[simp] theorem gOf_ofFin (r : GReg) : gOf (BitVec.ofFin r) = r := rfl
@[simp] theorem mOf_ofFin (r : MReg) : mOf (BitVec.ofFin r) = r := rfl

theorem regOf_ofNat {n : Nat} (hn : n ≤ 64) (r : Fin n) : regOf n (BitVec.ofNat 6 r.val) = some r := by
  have hr : r.val % 64 = r.val := Nat.mod_eq_of_lt (Nat.lt_of_lt_of_le r.isLt hn)
  simp [regOf, hr]

@[simp] theorem regOf8_ofNat (r : Fin 8) : regOf 8 (BitVec.ofNat 6 r.val) = some r := regOf_ofNat (by decide) r
@[simp] theorem regOf32_ofNat (r : VReg) : regOf 32 (BitVec.ofNat 6 r.val) = some r := regOf_ofNat (by decide) r

@[simp] theorem tyOf_code (t : Ty) : tyOf t.code = some t := by cases t <;> rfl
@[simp] theorem condOf_code (c : Cond) : condOf c.code = some c := by cases c <;> rfl
@[simp] theorem scopeOf_code (c : Scope) : scopeOf c.code = some c := by cases c <;> rfl
@[simp] theorem ordOf_code (c : Ordering) : ordOf c.code = c := by cases c <;> rfl
@[simp] theorem cregOf_code (c : CReg) : cregOf c.code = some c := by cases c <;> rfl
@[simp] theorem redOf_num_mod8 (c : RedOp) : redOf (c.num % 8) = some c := by cases c <;> rfl
@[simp] theorem redOf_num_mod256 (c : RedOp) : redOf (c.num % 256) = some c := by cases c <;> rfl
@[simp] theorem fenceOf_num_mod4 (c : FenceKind) : fenceOf (c.num % 4) = some c := by cases c <;> rfl
@[simp] theorem phModeOf_num_mod4 (c : PhMode) : phModeOf (c.num % 4) = some c := by cases c <;> rfl

@[simp] theorem rndOf_rndCode (r : Option RMode) : rndOf (rndCode r) = some r := by
  rcases r with - | m
  · rfl
  · cases m <;> rfl

@[simp] theorem carryOf_carryCode (r : Option VReg) : carryOf (carryCode r) = some r := by
  rcases r with - | m
  · rfl
  · revert m; decide

@[simp] theorem succOf_ofNat (k : Fin 64) : succOf (BitVec.ofNat 24 (k.val + 1)) = some k := by
  have hk : (k.val + 1) % 16777216 = k.val + 1 := by omega
  simp [succOf, hk]

@[simp] theorem vextOf_imm (e : VExt) : vextOf e.imm = some e := by
  simp [vextOf, VExt.imm]

@[simp] theorem mextOf_imm (e : MExt) : mextOf e.imm = some e := by
  simp [mextOf, MExt.imm]

/-! ## Operand forms

A form's reader gives back what its writer laid down, without what only prefixes can carry. -/

@[simp] theorem readAluS_writeAluS (op : BitVec 8) (x : AluS) : (writeAluS op x).readAluS = some x := by
  simp [writeAluS, Fields.readAluS]

@[simp] theorem readAlu_writeAlu (op fn : BitVec 8) (x : Alu) : (writeAlu op fn x).readAlu = some x := by
  simp [writeAlu, Fields.readAlu]

@[simp] theorem readCmpR_writeCmpR (op : BitVec 8) (x : CmpR) : (writeCmpR op x).readCmpR = some x := by
  simp [writeCmpR, Fields.readCmpR]

@[simp] theorem readAluI_writeAluI (op fn : BitVec 8) (x : AluI) : (writeAluI op fn x).readAluI = some { x with imm := ⟨none, x.imm.lo⟩ } := by
  simp [writeAluI, Fields.readAluI]

@[simp] theorem readShI_writeShI (op fn : BitVec 8) (x : ShI) : (writeShI op fn x).readShI = some x := by
  simp [writeShI, Fields.readShI]

@[simp] theorem readCmpI_writeCmpI (op : BitVec 8) (x : CmpI) : (writeCmpI op x).readCmpI = some { x with imm := ⟨none, x.imm.lo⟩ } := by
  simp [writeCmpI, Fields.readCmpI]

@[simp] theorem readMovI_writeMovI (op fn : BitVec 8) (x : MovI) : (writeMovI op fn x).readMovI = some { x with imm := ⟨none, x.imm.lo⟩ } := by
  simp [writeMovI, Fields.readMovI]

@[simp] theorem readLeaA_writeLeaA (op : BitVec 8) (x : LeaA) : (writeLeaA op x).readLeaA = some { x with imm := ⟨none, x.imm.lo⟩ } := by
  simp [writeLeaA, Fields.readLeaA]

@[simp] theorem readSelA_writeSelA (op fn : BitVec 8) (x : SelA) : (writeSelA op fn x).readSelA = some x := by
  simp [writeSelA, Fields.readSelA]

@[simp] theorem readUn_writeUn (op fn : BitVec 8) (x : Un) : (writeUn op fn x).readUn = some x := by
  simp [writeUn, Fields.readUn]

@[simp] theorem readLinkD_writeLinkD (op fn : BitVec 8) (x : LinkD) : (writeLinkD op fn x).readLinkD = some x := by
  simp [writeLinkD, Fields.readLinkD]

@[simp] theorem readDA_writeDA (op fn : BitVec 8) (x : DA) : (writeDA op fn x).readDA = some x := by
  simp [writeDA, Fields.readDA]

@[simp] theorem readDAB_writeDAB (op fn : BitVec 8) (x : DAB) : (writeDAB op fn x).readDAB = some x := by
  simp [writeDAB, Fields.readDAB]

@[simp] theorem readDABC_writeDABC (op fn : BitVec 8) (x : DABC) : (writeDABC op fn x).readDABC = some x := by
  simp [writeDABC, Fields.readDABC]

@[simp] theorem readAB_writeAB (op fn : BitVec 8) (x : AB) : (writeAB op fn x).readAB = some x := by
  simp [writeAB, Fields.readAB]

@[simp] theorem readMcrA_writeMcrA (op fn : BitVec 8) (x : McrA) : (writeMcrA op fn x).readMcrA = some x := by
  simp [writeMcrA, Fields.readMcrA]

@[simp] theorem readMtcA_writeMtcA (op fn : BitVec 8) (x : MtcA) : (writeMtcA op fn x).readMtcA = some x := by
  simp [writeMtcA, Fields.readMtcA]

@[simp] theorem readDisp_writeDisp (op fn : BitVec 8) (x : BitVec 48) : (writeDisp op fn x).readDisp = some x := by
  simp [writeDisp, Fields.readDisp]

@[simp] theorem readA1_writeA1 (op fn : BitVec 8) (x : GReg) : (writeA1 op fn x).readA1 = some x := by
  simp [writeA1, Fields.readA1]

@[simp] theorem readD1_writeD1 (op fn : BitVec 8) (x : GReg) : (writeD1 op fn x).readD1 = some x := by
  simp [writeD1, Fields.readD1]

@[simp] theorem readB1_writeB1 (op fn : BitVec 8) (x : GReg) : (writeB1 op fn x).readB1 = some x := by
  simp [writeB1, Fields.readB1]

@[simp] theorem readN8_writeN8 (op fn : BitVec 8) (x : BitVec 8) : (writeN8 op fn x).readN8 = some x := by
  simp [writeN8, Fields.readN8]

@[simp] theorem readNul_writeNul (op fn : BitVec 8) : (writeNul op fn).readNul = some () := by
  simp [writeNul, Fields.readNul]

@[simp] theorem readMemL_writeMemL (op fn : BitVec 8) (x : MemL) :
    (writeMemL op fn x).readMemL = some { x with imm := ⟨none, x.imm.lo⟩, sc := none } := by
  simp [writeMemL, Fields.readMemL]

@[simp] theorem readMemS_writeMemS (op fn : BitVec 8) (x : MemS) :
    (writeMemS op fn x).readMemS = some { x with imm := ⟨none, x.imm.lo⟩, sc := none } := by
  simp [writeMemS, Fields.readMemS]

@[simp] theorem readFenceA_writeFenceA (op fn : BitVec 8) (x : FenceA) : (writeFenceA op fn x).readFenceA = some x := by
  simp [writeFenceA, Fields.readFenceA]

@[simp] theorem readAtom_writeAtom (op fn : BitVec 8) (x : Atom) : (writeAtom op fn x).readAtom = some { x with sc := none } := by
  simp [writeAtom, Fields.readAtom]

@[simp] theorem readAtom3_writeAtom3 (op fn : BitVec 8) (x : Atom3) : (writeAtom3 op fn x).readAtom3 = some { x with sc := none } := by
  simp [writeAtom3, Fields.readAtom3]

@[simp] theorem readWaitAA_writeWaitAA (op fn : BitVec 8) (x : WaitAA) : (writeWaitAA op fn x).readWaitAA = some x := by
  simp [writeWaitAA, Fields.readWaitAA]

@[simp] theorem readAImm_writeAImm (op fn : BitVec 8) (x : AImm) : (writeAImm op fn x).readAImm = some x := by
  simp [writeAImm, Fields.readAImm]

@[simp] theorem readDAImm_writeDAImm (op fn : BitVec 8) (x : DAImm) : (writeDAImm op fn x).readDAImm = some x := by
  simp [writeDAImm, Fields.readDAImm]

@[simp] theorem readDABImm_writeDABImm (op fn : BitVec 8) (x : DABImm) : (writeDABImm op fn x).readDABImm = some x := by
  simp [writeDABImm, Fields.readDABImm]

@[simp] theorem readRedA_writeRedA (op : BitVec 8) (x : RedA) : (writeRedA op x).readRedA = some { x with sc := none } := by
  simp [writeRedA, Fields.readRedA]

@[simp] theorem readVLdA_writeVLdA (op fn : BitVec 8) (x : VLdA) :
    (writeVLdA op fn x).readVLdA = some { x with sel := { x.sel with lane := none }, sc := none } := by
  simp [writeVLdA, Fields.readVLdA]

@[simp] theorem readVStA_writeVStA (op fn : BitVec 8) (x : VStA) :
    (writeVStA op fn x).readVStA = some { x with sel := { x.sel with lane := none }, sc := none } := by
  simp [writeVStA, Fields.readVStA]

@[simp] theorem readVLdSA_writeVLdSA (op fn : BitVec 8) (x : VLdSA) :
    (writeVLdSA op fn x).readVLdSA = some { x with sel := { x.sel with lane := none }, sc := none } := by
  simp [writeVLdSA, Fields.readVLdSA]

@[simp] theorem readVStSA_writeVStSA (op fn : BitVec 8) (x : VStSA) :
    (writeVStSA op fn x).readVStSA = some { x with sel := { x.sel with lane := none }, sc := none } := by
  simp [writeVStSA, Fields.readVStSA]

@[simp] theorem readVGatA_writeVGatA (op : BitVec 8) (x : VGatA) :
    (writeVGatA op x).readVGatA = some { x with sel := { x.sel with lane := none }, sc := none } := by
  simp [writeVGatA, Fields.readVGatA]

@[simp] theorem readVScaA_writeVScaA (op : BitVec 8) (x : VScaA) :
    (writeVScaA op x).readVScaA = some { x with sel := { x.sel with lane := none }, sc := none } := by
  simp [writeVScaA, Fields.readVScaA]

@[simp] theorem readVRedA_writeVRedA (op : BitVec 8) (x : VRedA) :
    (writeVRedA op x).readVRedA = some { x with sel := { x.sel with lane := none }, sc := none } := by
  simp [writeVRedA, Fields.readVRedA]

@[simp] theorem readLdtA_writeLdtA (op : BitVec 8) (x : LdtA) : (writeLdtA op x).readLdtA = some { x with sc := none } := by
  simp [writeLdtA, Fields.readLdtA]

@[simp] theorem readVGatTA_writeVGatTA (op : BitVec 8) (x : VGatTA) : (writeVGatTA op x).readVGatTA = some { x with lane := none, sc := none } := by
  simp [writeVGatTA, Fields.readVGatTA]

@[simp] theorem readTakeA_writeTakeA (op fn : BitVec 8) (x : TakeA) : (writeTakeA op fn x).readTakeA = some x := by
  simp [writeTakeA, Fields.readTakeA]

@[simp] theorem readVTakeA_writeVTakeA (op : BitVec 8) (x : VTakeA) :
    (writeVTakeA op x).readVTakeA = some { x with sel := { x.sel with lane := none } } := by
  simp [writeVTakeA, Fields.readVTakeA]

@[simp] theorem readTagA_writeTagA (op fn : BitVec 8) (x : TagA) : (writeTagA op fn x).readTagA = some x := by
  simp [writeTagA, Fields.readTagA]

@[simp] theorem readTagFA_writeTagFA (op fn : BitVec 8) (x : TagFA) : (writeTagFA op fn x).readTagFA = some x := by
  simp [writeTagFA, Fields.readTagFA]

@[simp] theorem readPhRegA_writePhRegA (op fn : BitVec 8) (x : PhRegA) : (writePhRegA op fn x).readPhRegA = some x := by
  simp [writePhRegA, Fields.readPhRegA]

@[simp] theorem readWArrA_writeWArrA (op fn : BitVec 8) (x : WArrA) : (writeWArrA op fn x).readWArrA = some x := by
  simp [writeWArrA, Fields.readWArrA]

@[simp] theorem readWWaitA_writeWWaitA (op fn : BitVec 8) (x : WWaitA) : (writeWWaitA op fn x).readWWaitA = some x := by
  simp [writeWWaitA, Fields.readWWaitA]

@[simp] theorem readSendA_writeSendA (op fn : BitVec 8) (x : SendA) : (writeSendA op fn x).readSendA = some x := by
  simp [writeSendA, Fields.readSendA]

@[simp] theorem readSendRA_writeSendRA (op fn : BitVec 8) (x : SendRA) : (writeSendRA op fn x).readSendRA = some x := by
  simp [writeSendRA, Fields.readSendRA]

@[simp] theorem readSendTA_writeSendTA (op : BitVec 8) (x : SendTA) : (writeSendTA op x).readSendTA = some x := by
  simp [writeSendTA, Fields.readSendTA]

@[simp] theorem readHMsgA_writeHMsgA (op fn : BitVec 8) (x : HMsgA) : (writeHMsgA op fn x).readHMsgA = some x := by
  simp [writeHMsgA, Fields.readHMsgA]

@[simp] theorem readTagEA_writeTagEA (op fn : BitVec 8) (x : TagEA) : (writeTagEA op fn x).readTagEA = some x := by
  simp [writeTagEA, Fields.readTagEA]

@[simp] theorem readTagPA_writeTagPA (op fn : BitVec 8) (x : TagPA) : (writeTagPA op fn x).readTagPA = some x := by
  simp [writeTagPA, Fields.readTagPA]

@[simp] theorem readSpawnA_writeSpawnA (op fn : BitVec 8) (x : SpawnA) : (writeSpawnA op fn x).readSpawnA = some x := by
  simp [writeSpawnA, Fields.readSpawnA]

@[simp] theorem readFutRA_writeFutRA (op fn : BitVec 8) (x : FutRA) : (writeFutRA op fn x).readFutRA = some x := by
  simp [writeFutRA, Fields.readFutRA]

@[simp] theorem readFutRtA_writeFutRtA (op fn : BitVec 8) (x : FutRtA) : (writeFutRtA op fn x).readFutRtA = some x := by
  simp [writeFutRtA, Fields.readFutRtA]

@[simp] theorem readCopyA_writeCopyA (op fn : BitVec 8) (x : CopyA) : (writeCopyA op fn x).readCopyA = some { x with sc := none } := by
  simp [writeCopyA, Fields.readCopyA]

@[simp] theorem readJxD_writeJxD (op fn : BitVec 8) (x : JxD) : (writeJxD op fn x).readJxD = some { x with live := none } := by
  simp [writeJxD, Fields.readJxD]

@[simp] theorem readJxR_writeJxR (op fn : BitVec 8) (x : JxR) : (writeJxR op fn x).readJxR = some { x with live := none } := by
  simp [writeJxR, Fields.readJxR]

@[simp] theorem readCallxD_writeCallxD (op fn : BitVec 8) (x : CallxD) : (writeCallxD op fn x).readCallxD = some { x with live := none } := by
  simp [writeCallxD, Fields.readCallxD]

@[simp] theorem readCallxR_writeCallxR (op fn : BitVec 8) (x : CallxR) : (writeCallxR op fn x).readCallxR = some { x with live := none } := by
  simp [writeCallxR, Fields.readCallxR]

@[simp] theorem readSopenA_writeSopenA (op fn : BitVec 8) (x : SopenA) : (writeSopenA op fn x).readSopenA = some x := by
  simp [writeSopenA, Fields.readSopenA]

@[simp] theorem readQ1_writeQ1 (op fn : BitVec 8) (x : QReg) : (writeQ1 op fn x).readQ1 = some x := by
  simp [writeQ1, Fields.readQ1]

@[simp] theorem readQBindA_writeQBindA (op fn : BitVec 8) (x : QBindA) : (writeQBindA op fn x).readQBindA = some x := by
  simp [writeQBindA, Fields.readQBindA]

@[simp] theorem readQBindLA_writeQBindLA (op fn : BitVec 8) (x : QBindLA) : (writeQBindLA op fn x).readQBindLA = some x := by
  simp [writeQBindLA, Fields.readQBindLA]

@[simp] theorem readQDA_writeQDA (op fn : BitVec 8) (x : QDA) : (writeQDA op fn x).readQDA = some x := by
  simp [writeQDA, Fields.readQDA]

@[simp] theorem readQSendA_writeQSendA (op fn : BitVec 8) (x : QSendA) : (writeQSendA op fn x).readQSendA = some x := by
  simp [writeQSendA, Fields.readQSendA]

@[simp] theorem readQRecvA_writeQRecvA (op fn : BitVec 8) (x : QRecvA) : (writeQRecvA op fn x).readQRecvA = some x := by
  simp [writeQRecvA, Fields.readQRecvA]

@[simp] theorem readVArS_writeVArS (op : BitVec 8) (x : VArS) : (writeVArS op x).readVArS = some { x with sel := { x.sel with lane := none } } := by
  simp [writeVArS, Fields.readVArS]

@[simp] theorem readVFmaA_writeVFmaA (op : BitVec 8) (x : VFmaA) :
    (writeVFmaA op x).readVFmaA = some { x with sel := { x.sel with lane := none } } := by
  simp [writeVFmaA, Fields.readVFmaA]

@[simp] theorem readVBinR_writeVBinR (op fn : BitVec 8) (x : VBinR) :
    (writeVBinR op fn x).readVBinR = some { x with sel := { x.sel with lane := none } } := by
  simp [writeVBinR, Fields.readVBinR]

@[simp] theorem readVUnR_writeVUnR (op fn : BitVec 8) (x : VUnR) :
    (writeVUnR op fn x).readVUnR = some { x with sel := { x.sel with lane := none } } := by
  simp [writeVUnR, Fields.readVUnR]

@[simp] theorem readVBin_writeVBin (op fn : BitVec 8) (x : VBin) :
    (writeVBin op fn x).readVBin = some { x with sel := { x.sel with lane := none } } := by
  simp [writeVBin, Fields.readVBin]

@[simp] theorem readVUn_writeVUn (op fn : BitVec 8) (x : VUn) : (writeVUn op fn x).readVUn = some { x with sel := { x.sel with lane := none } } := by
  simp [writeVUn, Fields.readVUn]

@[simp] theorem readVUnS_writeVUnS (op : BitVec 8) (x : VUnS) : (writeVUnS op x).readVUnS = some { x with sel := { x.sel with lane := none } } := by
  simp [writeVUnS, Fields.readVUnS]

@[simp] theorem readVShI_writeVShI (op fn : BitVec 8) (x : VShI) :
    (writeVShI op fn x).readVShI = some { x with sel := { x.sel with lane := none } } := by
  simp [writeVShI, Fields.readVShI, -BitVec.toFin_extractLsb']

@[simp] theorem readVCmpA_writeVCmpA (op : BitVec 8) (x : VCmpA) :
    (writeVCmpA op x).readVCmpA = some { x with sel := { x.sel with lane := none } } := by
  simp [writeVCmpA, Fields.readVCmpA]

@[simp] theorem readVBcA_writeVBcA (op fn : BitVec 8) (x : VBcA) :
    (writeVBcA op fn x).readVBcA = some { x with sel := { x.sel with lane := none } } := by
  simp [writeVBcA, Fields.readVBcA]

@[simp] theorem readVBcI_writeVBcI (op fn : BitVec 8) (x : VBcI) :
    (writeVBcI op fn x).readVBcI = some { x with sel := { x.sel with lane := none } } := by
  simp [writeVBcI, Fields.readVBcI]

@[simp] theorem readVExtI_writeVExtI (op fn : BitVec 8) (x : VExtI) : (writeVExtI op fn x).readVExtI = some { x with lane := none } := by
  simp [writeVExtI, Fields.readVExtI, -BitVec.toFin_extractLsb']

@[simp] theorem readVExtR_writeVExtR (op fn : BitVec 8) (x : VExtR) : (writeVExtR op fn x).readVExtR = some { x with lane := none } := by
  simp [writeVExtR, Fields.readVExtR]

@[simp] theorem readVInsI_writeVInsI (op fn : BitVec 8) (x : VInsI) : (writeVInsI op fn x).readVInsI = some { x with lane := none } := by
  simp [writeVInsI, Fields.readVInsI, -BitVec.toFin_extractLsb']

@[simp] theorem readVInsR_writeVInsR (op fn : BitVec 8) (x : VInsR) : (writeVInsR op fn x).readVInsR = some { x with lane := none } := by
  simp [writeVInsR, Fields.readVInsR]

@[simp] theorem readVPermA_writeVPermA (op fn : BitVec 8) (x : VPermA) :
    (writeVPermA op fn x).readVPermA = some { x with sel := { x.sel with lane := none } } := by
  simp [writeVPermA, Fields.readVPermA]

@[simp] theorem readVCompA_writeVCompA (op fn : BitVec 8) (x : VCompA) : (writeVCompA op fn x).readVCompA = some { x with lane := none } := by
  simp [writeVCompA, Fields.readVCompA]

@[simp] theorem readVIotaA_writeVIotaA (op fn : BitVec 8) (x : VIotaA) :
    (writeVIotaA op fn x).readVIotaA = some { x with sel := { x.sel with lane := none } } := by
  simp [writeVIotaA, Fields.readVIotaA]

@[simp] theorem readMBin_writeMBin (op fn : BitVec 8) (x : MBin) : (writeMBin op fn x).readMBin = some x := by
  simp [writeMBin, Fields.readMBin]

@[simp] theorem readMUn_writeMUn (op fn : BitVec 8) (x : MUn) : (writeMUn op fn x).readMUn = some x := by
  simp [writeMUn, Fields.readMUn]

@[simp] theorem readMPopA_writeMPopA (op fn : BitVec 8) (x : MPopA) : (writeMPopA op fn x).readMPopA = some x := by
  simp [writeMPopA, Fields.readMPopA]

@[simp] theorem readVCvtA_writeVCvtA (op : BitVec 8) (x : VCvtA) :
    (writeVCvtA op x).readVCvtA = some { x with sel := { x.sel with lane := none } } := by
  simp [writeVCvtA, Fields.readVCvtA, -BitVec.toFin_extractLsb']

@[simp] theorem readVCvtoA_writeVCvtoA (op : BitVec 8) (x : VCvtoA) :
    (writeVCvtoA op x).readVCvtoA = some { x with sel := { x.sel with lane := none } } := by
  simp [writeVCvtoA, Fields.readVCvtoA, -BitVec.toFin_extractLsb']

@[simp] theorem readVPruneA_writeVPruneA (op fn : BitVec 8) (x : VPruneA) : (writeVPruneA op fn x).readVPruneA = some { x with lane := none } := by
  simp [writeVPruneA, Fields.readVPruneA]

@[simp] theorem readVRedSA_writeVRedSA (op fn : BitVec 8) (x : VRedSA) : (writeVRedSA op fn x).readVRedSA = some { x with lane := none } := by
  simp [writeVRedSA, Fields.readVRedSA]

@[simp] theorem readVRedMA_writeVRedMA (op fn : BitVec 8) (x : VRedMA) : (writeVRedMA op fn x).readVRedMA = some { x with lane := none } := by
  simp [writeVRedMA, Fields.readVRedMA]

@[simp] theorem readVTopA_writeVTopA (op fn : BitVec 8) (x : VTopA) : (writeVTopA op fn x).readVTopA = some { x with lane := none } := by
  simp [writeVTopA, Fields.readVTopA]

@[simp] theorem readVBskA_writeVBskA (op fn : BitVec 8) (x : VBskA) :
    (writeVBskA op fn x).readVBskA = some { x with sel := { x.sel with lane := none } } := by
  simp [writeVBskA, Fields.readVBskA, -BitVec.toFin_extractLsb']

@[simp] theorem readVDotA_writeVDotA (op fn : BitVec 8) (x : VDotA) :
    (writeVDotA op fn x).readVDotA = some { x with sel := { x.sel with lane := none } } := by
  simp [writeVDotA, Fields.readVDotA]

@[simp] theorem readMmaA_writeMmaA (op fn : BitVec 8) (x : MmaA) : (writeMmaA op fn x).readMmaA = some x := by
  simp [writeMmaA, Fields.readMmaA]

@[simp] theorem readMmaSA_writeMmaSA (op fn : BitVec 8) (x : MmaSA) : (writeMmaSA op fn x).readMmaSA = some x := by
  simp [writeMmaSA, Fields.readMmaSA]

@[simp] theorem readAcc1_writeAcc1 (op fn : BitVec 8) (x : AReg) : (writeAcc1 op fn x).readAcc1 = some x := by
  simp [writeAcc1, Fields.readAcc1]

@[simp] theorem readV1_writeV1 (op fn : BitVec 8) (x : VReg) : (writeV1 op fn x).readV1 = some x := by
  simp [writeV1, Fields.readV1]

@[simp] theorem readMldA_writeMldA (op fn : BitVec 8) (x : MldA) : (writeMldA op fn x).readMldA = some x := by
  simp [writeMldA, Fields.readMldA]

@[simp] theorem readMstA_writeMstA (op fn : BitVec 8) (x : MldA) : (writeMstA op fn x).readMstA = some x := by
  simp [writeMstA, Fields.readMstA]

@[simp] theorem readMmvV_writeMmvV (op fn : BitVec 8) (x : MmvV) : (writeMmvV op fn x).readMmvV = some x := by
  simp [writeMmvV, Fields.readMmvV]

@[simp] theorem readMmvA_writeMmvA (op fn : BitVec 8) (x : MmvA) : (writeMmvA op fn x).readMmvA = some x := by
  simp [writeMmvA, Fields.readMmvA]

@[simp] theorem readTrrecA_writeTrrecA (op fn : BitVec 8) (x : TrrecA) : (writeTrrecA op fn x).readTrrecA = some x := by
  simp [writeTrrecA, Fields.readTrrecA]

@[simp] theorem readElogA_writeElogA (op fn : BitVec 8) (x : ElogA) : (writeElogA op fn x).readElogA = some x := by
  simp [writeElogA, Fields.readElogA]

@[simp] theorem readHostsigA_writeHostsigA (op fn : BitVec 8) (x : HostsigA) : (writeHostsigA op fn x).readHostsigA = some x := by
  simp [writeHostsigA, Fields.readHostsigA]

end Sys2Proof
end

section
/-! SUPPORT. A chain of prefixes and a single word decodes to the instruction it encodes (R54, R60 to R69). -/

namespace Sys2Proof

/-! ## Payloads of prefixes -/

/-- An instruction whose prefixes have given payloads, where its form can carry them. -/
def Instr.withPfx (m : Option (BitVec 16)) (l : Option LivePfx) (c : Option ScopePfx) (n : Option LanePfx) : Instr → Instr
  | .addi x => .addi { x with imm := ⟨m, x.imm.lo⟩ }
  | .muli x => .muli { x with imm := ⟨m, x.imm.lo⟩ }
  | .andi x => .andi { x with imm := ⟨m, x.imm.lo⟩ }
  | .ori x => .ori { x with imm := ⟨m, x.imm.lo⟩ }
  | .xori x => .xori { x with imm := ⟨m, x.imm.lo⟩ }
  | .cmpi x => .cmpi { x with imm := ⟨m, x.imm.lo⟩ }
  | .movi x => .movi { x with imm := ⟨m, x.imm.lo⟩ }
  | .lea x => .lea { x with imm := ⟨m, x.imm.lo⟩ }
  | .ld x => .ld { x with imm := ⟨m, x.imm.lo⟩, sc := c }
  | .st x => .st { x with imm := ⟨m, x.imm.lo⟩, sc := c }
  | .stOf x => .stOf { x with imm := ⟨m, x.imm.lo⟩, sc := c }
  | .jx x => .jx { x with live := l }
  | .jxReg x => .jxReg { x with live := l }
  | .callx x => .callx { x with live := l }
  | .callxReg x => .callxReg { x with live := l }
  | .retx x => .retx { x with live := l }
  | .aadd x => .aadd { x with sc := c }
  | .aaddt x => .aaddt { x with sc := c }
  | .amin x => .amin { x with sc := c }
  | .amax x => .amax { x with sc := c }
  | .aand x => .aand { x with sc := c }
  | .aor x => .aor { x with sc := c }
  | .axor x => .axor { x with sc := c }
  | .aswap x => .aswap { x with sc := c }
  | .acas x => .acas { x with sc := c }
  | .red x => .red { x with sc := c }
  | .ldt x => .ldt { x with sc := c }
  | .vgatht x => .vgatht { x with sc := c, lane := n }
  | .copy x => .copy { x with sc := c }
  | .vld x => .vld { x with sc := c, sel := { x.sel with lane := n } }
  | .vst x => .vst { x with sc := c, sel := { x.sel with lane := n } }
  | .vlds x => .vlds { x with sc := c, sel := { x.sel with lane := n } }
  | .vsts x => .vsts { x with sc := c, sel := { x.sel with lane := n } }
  | .vgath x => .vgath { x with sc := c, sel := { x.sel with lane := n } }
  | .vscat x => .vscat { x with sc := c, sel := { x.sel with lane := n } }
  | .vred x => .vred { x with sc := c, sel := { x.sel with lane := n } }
  | .vtake x => .vtake { x with sel := { x.sel with lane := n } }
  | .vadd x => .vadd { x with sel := { x.sel with lane := n } }
  | .vsub x => .vsub { x with sel := { x.sel with lane := n } }
  | .vmul x => .vmul { x with sel := { x.sel with lane := n } }
  | .vfma x => .vfma { x with sel := { x.sel with lane := n } }
  | .vdiv x => .vdiv { x with sel := { x.sel with lane := n } }
  | .vsqrt x => .vsqrt { x with sel := { x.sel with lane := n } }
  | .vmin x => .vmin { x with sel := { x.sel with lane := n } }
  | .vmax x => .vmax { x with sel := { x.sel with lane := n } }
  | .vabs x => .vabs { x with sel := { x.sel with lane := n } }
  | .vneg x => .vneg { x with sel := { x.sel with lane := n } }
  | .vand x => .vand { x with sel := { x.sel with lane := n } }
  | .vor x => .vor { x with sel := { x.sel with lane := n } }
  | .vxor x => .vxor { x with sel := { x.sel with lane := n } }
  | .vshl x => .vshl { x with sel := { x.sel with lane := n } }
  | .vshlImm x => .vshlImm { x with sel := { x.sel with lane := n } }
  | .vshr x => .vshr { x with sel := { x.sel with lane := n } }
  | .vshrImm x => .vshrImm { x with sel := { x.sel with lane := n } }
  | .vsra x => .vsra { x with sel := { x.sel with lane := n } }
  | .vsraImm x => .vsraImm { x with sel := { x.sel with lane := n } }
  | .vcmp x => .vcmp { x with sel := { x.sel with lane := n } }
  | .vsel x => .vsel { x with sel := { x.sel with lane := n } }
  | .vmov x => .vmov { x with sel := { x.sel with lane := n } }
  | .vbcast x => .vbcast { x with sel := { x.sel with lane := n } }
  | .vbcastImm x => .vbcastImm { x with sel := { x.sel with lane := n } }
  | .vext x => .vext { x with lane := n }
  | .vextReg x => .vextReg { x with lane := n }
  | .vins x => .vins { x with lane := n }
  | .vinsReg x => .vinsReg { x with lane := n }
  | .vperm x => .vperm { x with sel := { x.sel with lane := n } }
  | .vrot x => .vrot { x with sel := { x.sel with lane := n } }
  | .vcompress x => .vcompress { x with lane := n }
  | .vexpand x => .vexpand { x with sel := { x.sel with lane := n } }
  | .viota x => .viota { x with sel := { x.sel with lane := n } }
  | .vrcp x => .vrcp { x with sel := { x.sel with lane := n } }
  | .vrsqrt x => .vrsqrt { x with sel := { x.sel with lane := n } }
  | .vexp2 x => .vexp2 { x with sel := { x.sel with lane := n } }
  | .vcvt x => .vcvt { x with sel := { x.sel with lane := n } }
  | .vcvto x => .vcvto { x with sel := { x.sel with lane := n } }
  | .vprune48 x => .vprune48 { x with lane := n }
  | .vredsum x => .vredsum { x with lane := n }
  | .vredmin x => .vredmin { x with lane := n }
  | .vredmax x => .vredmax { x with lane := n }
  | .vtopk x => .vtopk { x with lane := n }
  | .vbskip x => .vbskip { x with sel := { x.sel with lane := n } }
  | .vdot4 x => .vdot4 { x with sel := { x.sel with lane := n } }
  | i => i

/-- An instruction as its consumer word alone reads. -/
def Instr.bare (i : Instr) : Instr := i.withPfx none none none none

theorem Instr.withPfx_self (i : Instr) : i.withPfx i.immx i.live i.scope i.lane = i := by
  cases i <;> rfl

theorem Instr.putImmx_withPfx {i : Instr} {h : BitVec 16} (hi : i.immx = some h) (l : Option LivePfx) (c : Option ScopePfx)
    (n : Option LanePfx) : (i.withPfx none l c n).putImmx h = some (i.withPfx (some h) l c n) := by
  cases i
  any_goals rfl -- the forms that carry it
  all_goals exact nomatch hi

theorem Instr.putLive_withPfx {i : Instr} {p : LivePfx} (hi : i.live = some p) (m : Option (BitVec 16)) (c : Option ScopePfx)
    (n : Option LanePfx) : (i.withPfx m none c n).putLive p = some (i.withPfx m (some p) c n) := by
  cases i
  any_goals rfl -- the forms that carry it
  all_goals exact nomatch hi

theorem Instr.putScope_withPfx {i : Instr} {p : ScopePfx} (hi : i.scope = some p) (m : Option (BitVec 16)) (l : Option LivePfx)
    (n : Option LanePfx) : (i.withPfx m l none n).putScope p = some (i.withPfx m l (some p) n) := by
  cases i
  any_goals rfl -- the forms that carry it
  all_goals exact nomatch hi

theorem Instr.putLane_withPfx {i : Instr} {p : LanePfx} (hi : i.lane = some p) (m : Option (BitVec 16)) (l : Option LivePfx)
    (c : Option ScopePfx) : (i.withPfx m l c none).putLane p = some (i.withPfx m l c (some p)) := by
  cases i
  any_goals rfl -- the forms that carry it
  all_goals exact nomatch hi

theorem MovI.wf_bare {x : MovI} (h : x.wf = true) : MovI.wf { x with imm := ⟨none, x.imm.lo⟩ } = true := by
  simp only [MovI.wf, Bool.or_eq_true, Bool.and_eq_true] at h ⊢
  exact h.imp_right fun hf => ⟨hf.1, rfl⟩

@[simp] theorem laneOk_none (t : Ty) : laneOk t none = true := rfl
@[simp] theorem laneOkNZ_none (t : Ty) : laneOkNZ t none = true := rfl
@[simp] theorem scRead_none : scRead none = true := rfl
@[simp] theorem scWrite_none : scWrite none = true := rfl
@[simp] theorem liveOk_none : liveOk none = true := rfl

theorem Instr.wf_bare {i : Instr} (h : i.wf = true) : i.bare.wf = true := by
  cases i
  case movi x => exact MovI.wf_bare h
  any_goals exact h
  all_goals
    simp only [Instr.wf, VArS.wf, VUnS.wf, VUnR.wf, VBin.wfArith, VBin.wfBits, VBin.wfMove, VShI.wf, VCmpA.wf, VCvtA.wf, VSel.wf,
      Bool.and_eq_true] at h
    simp only [Instr.bare, Instr.withPfx, Instr.wf, VArS.wf, VUnS.wf, VUnR.wf, VBin.wfArith, VBin.wfBits, VBin.wfMove, VShI.wf,
      VCmpA.wf, VCvtA.wf, VSel.wf, laneOk_none, laneOkNZ_none, scRead_none, scWrite_none, liveOk_none, Bool.and_eq_true, h, and_self]

theorem readInstr_fields {i : Instr} {f : Fields} (h : i.fields = some f) : readInstr f = some i.bare := by
  cases i <;> cases h
  any_goals rfl -- the forms whose operands are read back by computation alone
  all_goals
    -- the operation and function codes select the form's reader
    refine Eq.trans (b := Option.map _ _) rfl ?_
    simp [Instr.bare, Instr.withPfx]

/-! ## Single words -/

theorem decodeFields_fields {i : Instr} {f : Fields} (h : i.fields = some f) (hwf : i.wf = true) : decodeFields f = some i.bare := by
  simp [decodeFields, readInstr_fields h, Instr.wf_bare hwf]

/-! ## Words of prefixes -/

@[simp] theorem readLive_word (p : LivePfx) : readLive (Pfx.live p).word = some p := by
  simp [readLive, Pfx.word]

@[simp] theorem decodePfx_word (p : Pfx) : decodePfx p.word = some p := by
  cases p with
  | immx h => simp [decodePfx, Pfx.word]
  | live p =>
    rw [decodePfx, readLive_word]
    simp [Pfx.word]
  | scope p => simp [decodePfx, Pfx.word]
  | lane p => simp [decodePfx, Pfx.word]

/-- The slots of a chain of prefixes. -/
def pfxSlots (ps : List Pfx) : List (SlotKind × SlotWord) := ps.map fun p => (SlotKind.pfx, p.word)

theorem readChain_single {f : Fields} {i : Instr} (h : decodeFields f = some i) (g : Guard) (rest : List (SlotKind × SlotWord)) :
    ∀ (ps : List Pfx) (k : Nat), readChain k (pfxSlots ps ++ (.single, packWord g f) :: rest) = .ok (ps, .single, g, i)
  | [], k => by simp only [pfxSlots, List.map_nil, List.nil_append, readChain, fieldsOf_packWord, guardOf_packWord, h]
  | p :: ps, k => by
    have ih := readChain_single h g rest ps (k + 1)
    simp only [pfxSlots, List.map_cons, List.cons_append, readChain, decodePfx_word] at ih ⊢
    rw [ih]; rfl

theorem checkPrefixes_nodup : ∀ (ps : List Pfx) (k : Nat) (seen : List Nat), (ps.map Pfx.kind ++ seen).Nodup →
    checkPrefixes false k seen ps = none
  | [], k, seen, _ => rfl
  | p :: ps, k, seen, h => by
    have hp : p.kind ∉ seen := fun hmem => (List.nodup_cons.mp h).1 (List.mem_append_right _ hmem)
    simp only [checkPrefixes, hp, if_false, Bool.and_false, Bool.false_eq_true]
    exact checkPrefixes_nodup ps (k + 1) _ (List.perm_middle.nodup_iff.mpr h)

theorem Instr.prefixes_nodup (i : Instr) : (i.prefixes.map Pfx.kind).Nodup := by
  unfold Instr.prefixes
  cases i.immx <;> cases i.live <;> cases i.scope <;> cases i.lane <;> simp [Pfx.kind]

theorem attachAll_append (ps qs : List Pfx) (i : Instr) : i.attachAll (ps ++ qs) = (i.attachAll ps).bind (Instr.attachAll qs) := by
  induction ps generalizing i with
  | nil => rfl
  | cons p ps ih =>
    simp only [List.cons_append, Instr.attachAll, ih, Option.bind_assoc]

theorem attachAll_toList {α : Type} (mk : α → Pfx) (o : Option α) (f : Option α → Instr)
    (h : ∀ a, o = some a → (f none).attach (mk a) = some (f (some a))) : (f none).attachAll (o.map mk).toList = some (f o) := by
  cases o with
  | none => rfl
  | some a => simp [Instr.attachAll, h a rfl]

theorem Instr.attachAll_bare (i : Instr) : i.bare.attachAll i.prefixes = some i := by
  have hm := attachAll_toList .immx i.immx (fun o => i.withPfx o none none none) fun _ h => putImmx_withPfx h ..
  have hl := attachAll_toList .live i.live (fun o => i.withPfx i.immx o none none) fun _ h => putLive_withPfx h ..
  have hc := attachAll_toList .scope i.scope (fun o => i.withPfx i.immx i.live o none) fun _ h => putScope_withPfx h ..
  have hn := attachAll_toList .lane i.lane (fun o => i.withPfx i.immx i.live i.scope o) fun _ h => putLane_withPfx h ..
  simp only [prefixes, attachAll_append, bare, hm, Option.bind_some, hl, hc, hn, withPfx_self]

theorem decodeSlots_single {g : Guard} {i : Instr} {f : Fields} (hf : i.fields = some f) (hwf : i.wf = true)
    (rest : List (SlotKind × SlotWord)) :
    decodeSlots (pfxSlots i.prefixes ++ (.single, packWord g f) :: rest) = .ok ⟨g, i, i.prefixes.length + 1⟩ := by
  have hcheck : checkPrefixes false 0 [] i.prefixes = none := checkPrefixes_nodup _ _ _ (by simpa using i.prefixes_nodup)
  rw [decodeSlots, readChain_single (decodeFields_fields hf hwf)]
  simp only [show (SlotKind.single == SlotKind.pair) = false from rfl, hcheck, i.attachAll_bare, hwf, if_true]

end Sys2Proof
end

section
/-! SUPPORT. The halves of a pair word decode to the forms they stand for (R57, R58), and with that every well-formed instruction reads back. -/

namespace Sys2Proof

theorem Instr.bare_eq_self {i : Instr} (h : i.prefixes = []) : i.bare = i := by
  have hi := i.attachAll_bare
  rw [h] at hi
  exact Option.some.inj hi

theorem Instr.prefixes_eq_nil {i : Instr} (hm : i.immx = none) (hl : i.live = none) (hc : i.scope = none) (hn : i.lane = none) :
    i.prefixes = [] := by
  simp [prefixes, hm, hl, hc, hn]

@[simp] theorem scalarFieldsOf_packPair (g : Guard) (sh : ScalarHalf) (vh : VectorHalf) : scalarFieldsOf (packPair g sh vh) = sh.half := by
  simp [scalarFieldsOf, packPair]

@[simp] theorem vectorFieldsOf_packPair (g : Guard) (sh : ScalarHalf) (vh : VectorHalf) : vectorFieldsOf (packPair g sh vh) = vh.half := by
  simp [vectorFieldsOf, packPair]

@[simp] theorem guardOf_packPair (g : Guard) (sh : ScalarHalf) (vh : VectorHalf) : guardOf (packPair g sh vh) = g := by
  simp [guardOf, packPair]

@[simp] theorem sop_packPair (g : Guard) (sh : ScalarHalf) (vh : VectorHalf) : (packPair g sh vh).extractLsb' 86 6 = sh.sop := by
  simp [packPair]

@[simp] theorem vop_packPair (g : Guard) (sh : ScalarHalf) (vh : VectorHalf) : (packPair g sh vh).extractLsb' 40 6 = vh.vop := by
  simp [packPair]

/-! ## Scalar halves -/

/-- A function code that a half's four bits can hold (R57). -/
def FitsHalfFn (fn : BitVec 8) : Prop := (fn.setWidth 4).setWidth 8 = fn

theorem fitsHalfFn_ofBool (b : Bool) : FitsHalfFn (BitVec.ofNat 8 (put 0 (BitVec.ofBool b))) := by cases b <;> rfl
theorem fitsHalfFn_cond (c : Cond) : FitsHalfFn c.code := by cases c <;> rfl
theorem fitsHalfFn_scale (k : Fin 4) : FitsHalfFn (BitVec.ofNat 8 (put 0 (BitVec.ofFin k : BitVec 2))) := by
  unfold FitsHalfFn; revert k; decide
theorem fitsHalfFn_ty (t : Ty) : FitsHalfFn (BitVec.ofNat 8 (put 0 t.code + put 4 (BitVec.ofBool false))) := by cases t <;> rfl

theorem sext14_shift (k : Fin 64) :
    ((BitVec.ofNat 48 (put 0 (BitVec.ofFin k : BitVec 6))).setWidth 14).signExtend 48 =
      BitVec.ofNat 48 (put 0 (BitVec.ofFin k : BitVec 6)) := by
  revert k; decide

theorem HalfFields.scalar_halfOf {f : Fields} (hsc : f.sc = 0) (hfn : FitsHalfFn f.fn) (himm : (f.imm.setWidth 14).signExtend 48 = f.imm) :
    (halfOf f (f.imm.setWidth 14)).scalar f.op = f := by
  simp only [halfOf, HalfFields.scalar, himm]
  rw [hfn, ← hsc]

section
variable {sh : ScalarHalf} {i : Instr} {f : Fields}

theorem ScalarHalf.fields_sc (hi : sh.instr = some i) (hf : i.fields = some f) : f.sc = 0 := by
  cases sh <;> cases hi <;> cases hf <;> rfl

theorem ScalarHalf.fields_fn (hi : sh.instr = some i) (hf : i.fields = some f) : FitsHalfFn f.fn := by
  cases sh <;> cases hi <;> cases hf
  case add x | sub x | mul x => exact fitsHalfFn_ofBool x.sat
  case cmp x => exact fitsHalfFn_cond x.cond
  case lea x => exact fitsHalfFn_scale x.sc
  all_goals rfl

theorem imm14_hi {m : Imm} (h : imm14 m = true) : m.hi = none := by
  simp_all [imm14]

theorem imm14_lo {m : Imm} (h : imm14 m = true) : (m.lo.setWidth 14).signExtend 48 = m.lo := by
  simp [imm14] at h; exact h.2.symm

theorem ScalarHalf.fields_imm (hwf : sh.wf = true) (hi : sh.instr = some i) (hf : i.fields = some f) :
    (f.imm.setWidth 14).signExtend 48 = f.imm := by
  cases sh <;> cases hi <;> cases hf
  case shli x | shri x | srai x => exact sext14_shift x.s
  case lea x => exact imm14_lo hwf
  case addi x | andi x | movi x => exact imm14_lo (Bool.and_eq_true_iff.mp hwf).2
  case ld x | st x =>
    obtain ⟨h, -⟩ := Bool.and_eq_true_iff.mp hwf
    exact imm14_lo (Bool.and_eq_true_iff.mp h).2
  all_goals rfl

theorem ScalarHalf.prefixes_nil (hwf : sh.wf = true) (hi : sh.instr = some i) : i.prefixes = [] := by
  cases sh <;> cases hi
  case lea x => exact Instr.prefixes_eq_nil (imm14_hi hwf) rfl rfl rfl
  case addi x | andi x | movi x =>
    obtain ⟨-, himm⟩ := Bool.and_eq_true_iff.mp hwf
    exact Instr.prefixes_eq_nil (imm14_hi himm) rfl rfl rfl
  case ld x | st x =>
    obtain ⟨h, hsc⟩ := Bool.and_eq_true_iff.mp hwf
    obtain ⟨-, himm⟩ := Bool.and_eq_true_iff.mp h
    exact Instr.prefixes_eq_nil (imm14_hi himm) rfl (Option.isNone_iff_eq_none.mp hsc) rfl
  all_goals rfl

theorem ScalarHalf.instr_wf (hwf : sh.wf = true) (hi : sh.instr = some i) : i.wf = true := by
  cases sh <;> cases hi
  case addi x | andi x | movi x => exact (Bool.and_eq_true_iff.mp hwf).1
  case ld x | st x =>
    obtain ⟨h, hsc⟩ := Bool.and_eq_true_iff.mp hwf
    obtain ⟨hty, -⟩ := Bool.and_eq_true_iff.mp h
    simp [Instr.wf, hty, Option.isNone_iff_eq_none.mp hsc]
  case lea => rfl
  all_goals exact hwf

theorem ScalarHalf.fields_op (hi : sh.instr = some i) (hf : i.fields = some f) : sopOp sh.sop.toNat = some f.op := by
  cases sh <;> cases hi <;> cases hf <;> rfl

theorem ScalarHalf.scalarHalf_instr (hi : sh.instr = some i) : i.scalarHalf = some sh := by
  cases sh <;> cases hi <;> rfl

theorem ScalarHalf.half_of_fields (hi : sh.instr = some i) (hf : i.fields = some f) : sh.half = halfOf f (f.imm.setWidth 14) := by
  simp only [ScalarHalf.half, hi, Option.bind_some, hf]

theorem ScalarHalf.fields_some (hi : sh.instr = some i) : ∃ f, i.fields = some f := by
  cases sh <;> cases hi <;> exact ⟨_, rfl⟩

/-- The word of a half decodes as the single word of its form. -/
theorem decodeFields_half {i : Instr} {f : Fields} (hf : i.fields = some f) (hwf : i.wf = true) (hp : i.prefixes = []) :
    decodeFields f = some i := by
  rw [decodeFields_fields hf hwf, Instr.bare_eq_self hp]

end

theorem decodeScalarHalf_packPair (g : Guard) {sh : ScalarHalf} (hwf : sh.wf = true) (vh : VectorHalf) :
    decodeScalarHalf (packPair g sh vh) = some sh := by
  cases hi : sh.instr with
  | none =>
    obtain rfl : sh = .none := by cases sh with
      | none => rfl
      | _ => exact nomatch hi
    simp [decodeScalarHalf, ScalarHalf.sop, ScalarHalf.half, ScalarHalf.instr, HalfFields.zero]
  | some i =>
    obtain ⟨f, hf⟩ := ScalarHalf.fields_some hi
    have hback : sh.half.scalar f.op = f := by
      rw [ScalarHalf.half_of_fields hi hf]
      exact HalfFields.scalar_halfOf (ScalarHalf.fields_sc hi hf) (ScalarHalf.fields_fn hi hf) (ScalarHalf.fields_imm hwf hi hf)
    have hop := ScalarHalf.fields_op hi hf
    have h0 : sh.sop.toNat ≠ 0 := fun h => nomatch (h ▸ hop : sopOp 0 = some f.op)
    have hdec := decodeFields_half hf (ScalarHalf.instr_wf hwf hi) (ScalarHalf.prefixes_nil hwf hi)
    simp only [decodeScalarHalf, sop_packPair, scalarFieldsOf_packPair, h0, if_false, hop, Option.bind_some,
      hback, hdec, ScalarHalf.scalarHalf_instr hi]

/-! ## Vector halves -/

theorem VExt.imm_vimm (e : VExt) : e.imm.extractLsb' 24 24 = e.vimm := by simp [VExt.imm]
@[simp] theorem VExt.imm_mkr (e : VExt) : e.imm.extractLsb' 0 3 = BitVec.ofFin e.mkr := by simp [VExt.imm]
theorem MExt.imm_ofs (e : MExt) : e.imm.extractLsb' 8 40 = e.ofs := by simp [MExt.imm]
@[simp] theorem MExt.imm_mkr (e : MExt) : e.imm.extractLsb' 0 3 = BitVec.ofFin e.mkr := by simp [MExt.imm]

@[simp] theorem VExt.imm_vim (e : VExt) : e.imm.extractLsb' 24 11 = e.vimm.setWidth 11 := by
  rw [← e.imm_vimm, BitVec.setWidth_extractLsb'_of_le (by decide)]

@[simp] theorem MExt.imm_vim (e : MExt) : e.imm.extractLsb' 8 11 = e.ofs.setWidth 11 := by
  rw [← e.imm_ofs, BitVec.setWidth_extractLsb'_of_le (by decide)]

/-- A single word's immediate that a vector half can hold, in the layout of R121 or, for VLD and VST, of R201 (R58, R122). -/
def FitsVectorHalf (f : Fields) : Prop :=
  if f.op = 0xB0 ∨ f.op = 0xB1 then ∃ ofs mk, f.imm = MExt.imm ⟨ofs, false, mk⟩ ∧ (ofs.setWidth 11).signExtend 40 = ofs
  else ∃ v mk, f.imm = VExt.imm ⟨v, none, false, mk⟩ ∧ (v.setWidth 11).signExtend 24 = v

theorem sext11_ofFin6 (k : Fin 64) : ((BitVec.ofNat 24 (put 0 (BitVec.ofFin k : BitVec 6))).setWidth 11).signExtend 24 =
    BitVec.ofNat 24 (put 0 (BitVec.ofFin k : BitVec 6)) := by
  revert k; decide

theorem sext11_ofFin3 (k : Fin 8) : ((BitVec.ofNat 24 (put 0 (BitVec.ofFin k : BitVec 3))).setWidth 11).signExtend 24 =
    BitVec.ofNat 24 (put 0 (BitVec.ofFin k : BitVec 3)) := by
  revert k; decide

theorem plain_iff {s : VSel} : plain s = true ↔ s.zm = false ∧ s.lane = none := by simp [plain]

theorem VSel.wf_of_plain {s : VSel} (h : plain s = true) (t : Ty) : s.wf t = true := by
  rw [VSel.wf, (plain_iff.mp h).2, laneOk_none]

theorem fitsVectorHalf_of_vext {f : Fields} {v : BitVec 24} {r : Option RMode} {s : VSel} (hop : decide (f.op = 0xB0 ∨ f.op = 0xB1) = false)
    (hm : f.imm = VExt.imm ⟨v, r, s.zm, s.mkr⟩) (hr : r = none) (hp : plain s = true) (hs : (v.setWidth 11).signExtend 24 = v) :
    FitsVectorHalf f := by
  rw [FitsVectorHalf, if_neg (of_decide_eq_false hop)]
  rw [hr, (plain_iff.mp hp).1] at hm
  exact ⟨v, s.mkr, hm, hs⟩

theorem fitsVectorHalf_of_mext {f : Fields} {ofs : BitVec 40} {s : VSel} (hop : decide (f.op = 0xB0 ∨ f.op = 0xB1) = true)
    (hm : f.imm = MExt.imm ⟨ofs, s.zm, s.mkr⟩) (hp : plain s = true) (hs : ofs = (ofs.setWidth 11).signExtend 40) : FitsVectorHalf f := by
  rw [FitsVectorHalf, if_pos (of_decide_eq_true hop)]
  rw [(plain_iff.mp hp).1] at hm
  exact ⟨ofs, s.mkr, hm, hs.symm⟩

section
variable {vh : VectorHalf} {i : Instr} {f : Fields}

theorem VectorHalf.half_of_fields (hi : vh.instr = some i) (hf : i.fields = some f) : vh.half =
    halfOf f (BitVec.ofNat 14 (put 11 (f.imm.extractLsb' 0 3) + put 0 (f.imm.extractLsb' (if f.op = 0xB0 ∨ f.op = 0xB1 then 8 else 24) 11))) := by
  simp only [VectorHalf.half, hi, Option.bind_some, hf]

theorem HalfFields.vector_halfOf {f : Fields} (hsc : f.sc = 0) (hfn : FitsHalfFn f.fn) (himm : FitsVectorHalf f) :
    (halfOf f (BitVec.ofNat 14 (put 11 (f.imm.extractLsb' 0 3) +
      put 0 (f.imm.extractLsb' (if f.op = 0xB0 ∨ f.op = 0xB1 then 8 else 24) 11)))).vector f.op = f := by
  obtain ⟨op, dst, sa, sb, sc, fn, ty, imm⟩ := f
  unfold FitsHalfFn at hfn
  unfold FitsVectorHalf at himm
  dsimp only at hsc hfn himm ⊢
  simp only [halfOf, HalfFields.vector, hsc]
  split at himm
  case isTrue hop =>
    obtain ⟨ofs, mk, rfl, hs⟩ := himm
    simp only [hop, if_true]
    simp [hfn, hs]
  case isFalse hop =>
    obtain ⟨v, mk, rfl, hs⟩ := himm
    simp only [hop, if_false]
    simp [hfn, hs]

theorem VectorHalf.fields_sc (hi : vh.instr = some i) (hf : i.fields = some f) : f.sc = 0 := by
  cases vh <;> cases hi <;> cases hf <;> rfl

theorem VectorHalf.fields_fn (hwf : vh.wf = true) (hi : vh.instr = some i) (hf : i.fields = some f) : FitsHalfFn f.fn := by
  cases vh <;> cases hi <;> cases hf
  case vadd x | vsub x | vmul x => exact fitsHalfFn_ofBool x.sat
  case vcmp x => exact fitsHalfFn_cond x.cond
  case vcvt x =>
    simp only [VectorHalf.wf, Bool.and_eq_true, Bool.not_eq_true'] at hwf
    obtain ⟨⟨-, hsat⟩, -⟩ := hwf
    simpa only [writeVCvtA, hsat] using fitsHalfFn_ty x.st
  all_goals rfl

theorem VectorHalf.fields_imm (hwf : vh.wf = true) (hi : vh.instr = some i) (hf : i.fields = some f) : FitsVectorHalf f := by
  cases vh <;> cases hi <;> cases hf <;> simp only [VectorHalf.wf, Bool.and_eq_true, Option.isNone_iff_eq_none, beq_iff_eq] at hwf
  case vld x | vst x =>
    obtain ⟨⟨⟨-, hp⟩, -⟩, hofs⟩ := hwf
    exact fitsVectorHalf_of_mext rfl rfl hp hofs
  case vadd x | vsub x | vmul x =>
    obtain ⟨⟨-, hr⟩, hp⟩ := hwf
    exact fitsVectorHalf_of_vext rfl rfl hr hp rfl
  case vcvt x =>
    obtain ⟨⟨⟨-, hr⟩, -⟩, hp⟩ := hwf
    exact fitsVectorHalf_of_vext rfl rfl hr hp (sext11_ofFin3 x.part)
  case vshlImm x | vshrImm x | vsraImm x => exact fitsVectorHalf_of_vext rfl rfl rfl hwf.2 (sext11_ofFin6 x.s)
  case vbcastImm x =>
    obtain ⟨⟨-, hp⟩, himm⟩ := hwf
    exact fitsVectorHalf_of_vext rfl rfl rfl hp himm.symm
  all_goals exact fitsVectorHalf_of_vext rfl rfl rfl hwf.2 rfl

theorem VectorHalf.prefixes_nil (hwf : vh.wf = true) (hi : vh.instr = some i) : i.prefixes = [] := by
  cases vh <;> cases hi <;> simp only [VectorHalf.wf, Bool.and_eq_true, plain_iff, Option.isNone_iff_eq_none] at hwf
  case vld x | vst x =>
    obtain ⟨⟨⟨-, -, hlane⟩, hsc⟩, -⟩ := hwf
    exact Instr.prefixes_eq_nil rfl rfl hsc hlane
  case vbcastImm x =>
    obtain ⟨⟨-, -, hlane⟩, -⟩ := hwf
    exact Instr.prefixes_eq_nil rfl rfl rfl hlane
  all_goals exact Instr.prefixes_eq_nil rfl rfl rfl hwf.2.2

theorem VectorHalf.instr_wf (hwf : vh.wf = true) (hi : vh.instr = some i) : i.wf = true := by
  cases vh <;> cases hi <;> simp only [VectorHalf.wf, Bool.and_eq_true, Option.isNone_iff_eq_none] at hwf
  case vld x | vst x =>
    obtain ⟨⟨⟨hty, hp⟩, hsc⟩, -⟩ := hwf
    simp [Instr.wf, hty, hsc, VSel.wf_of_plain hp, (plain_iff.mp hp).1]
  case vadd x | vsub x | vmul x => exact hwf.1.1
  case vcvt x =>
    obtain ⟨⟨⟨h, -⟩, -⟩, -⟩ := hwf
    exact h
  case vmov x | vbcast x =>
    obtain ⟨hty, hp⟩ := hwf
    exact Bool.and_eq_true_iff.mpr ⟨hty, VSel.wf_of_plain hp _⟩
  case vbcastImm x =>
    obtain ⟨⟨hty, hp⟩, -⟩ := hwf
    exact Bool.and_eq_true_iff.mpr ⟨hty, VSel.wf_of_plain hp _⟩
  all_goals exact hwf.1

theorem VectorHalf.fields_op (hi : vh.instr = some i) (hf : i.fields = some f) : vopOp vh.vop.toNat = some f.op := by
  cases vh <;> cases hi <;> cases hf <;> rfl

theorem VectorHalf.vectorHalf_instr (hi : vh.instr = some i) : i.vectorHalf = some vh := by
  cases vh <;> cases hi <;> rfl

theorem VectorHalf.fields_some (hi : vh.instr = some i) : ∃ f, i.fields = some f := by
  cases vh <;> cases hi <;> exact ⟨_, rfl⟩
end

theorem decodeVectorHalf_packPair (g : Guard) (sh : ScalarHalf) {vh : VectorHalf} (hwf : vh.wf = true) :
    decodeVectorHalf (packPair g sh vh) = some vh := by
  cases hi : vh.instr with
  | none =>
    obtain rfl : vh = .none := by cases vh with
      | none => rfl
      | _ => exact nomatch hi
    simp [decodeVectorHalf, VectorHalf.vop, VectorHalf.half, VectorHalf.instr, HalfFields.zero]
  | some i =>
    obtain ⟨f, hf⟩ := VectorHalf.fields_some hi
    have hback : vh.half.vector f.op = f := by
      rw [VectorHalf.half_of_fields hi hf]
      exact HalfFields.vector_halfOf (VectorHalf.fields_sc hi hf) (VectorHalf.fields_fn hwf hi hf) (VectorHalf.fields_imm hwf hi hf)
    have hop := VectorHalf.fields_op hi hf
    have h0 : vh.vop.toNat ≠ 0 := fun h => nomatch (h ▸ hop : vopOp 0 = some f.op)
    have hdec := decodeFields_half hf (VectorHalf.instr_wf hwf hi) (VectorHalf.prefixes_nil hwf hi)
    simp only [decodeVectorHalf, vop_packPair, vectorFieldsOf_packPair, h0, if_false, hop,
      Option.bind_some, hback, hdec, VectorHalf.vectorHalf_instr hi]

theorem decodePair_packPair (g : Guard) {sh : ScalarHalf} {vh : VectorHalf} (hwf : (Instr.pairWord sh vh).wf = true) :
    decodePair (packPair g sh vh) = some (.pairWord sh vh) := by
  obtain ⟨hs, hv⟩ := Bool.and_eq_true_iff.mp hwf
  simp only [decodePair, decodeScalarHalf_packPair g hs vh, decodeVectorHalf_packPair g sh hv, Option.bind_eq_bind, Option.bind_some, hwf,
    if_true]

theorem decodeSlots_of_pair {w : SlotWord} {i : Instr} (h : decodePair w = some i) (hwf : i.wf = true)
    (rest : List (SlotKind × SlotWord)) : decodeSlots ((.pair, w) :: rest) = .ok ⟨guardOf w, i, 1⟩ := by
  have hread : readChain 0 ((.pair, w) :: rest) = .ok ([], .pair, guardOf w, i) := by simp only [readChain, h]
  simp only [decodeSlots, hread, checkPrefixes, Instr.attachAll, hwf, if_true, List.length_nil]

theorem Instr.fields_some {i : Instr} (he : i.isEvent = false) (hp : ∀ sh vh, i ≠ .pairWord sh vh) : ∃ f, i.fields = some f := by
  cases i
  case pairWord sh vh => exact absurd rfl (hp sh vh)
  any_goals exact ⟨_, rfl⟩
  all_goals exact nomatch he

theorem encode_of_fields (g : Guard) {i : Instr} {f : Fields} (hf : i.fields = some f) :
    encode g i = some (pfxSlots i.prefixes ++ [(.single, packWord g f)]) := by
  unfold encode
  split
  · exact nomatch hf
  · rw [hf]; rfl

/-- Settles O60: a single word's fields read back as the instruction without the payloads of its prefixes, the prefixes put them back,
and a pair word's halves stand for single words that read back the same way. -/
theorem encodeDecodeRoundTrip : Obligations.EncodeDecodeRoundTrip := by
  intro g i rest hwf he
  by_cases hp : ∃ sh vh, i = .pairWord sh vh
  · obtain ⟨sh, vh, rfl⟩ := hp
    refine ⟨_, rfl, ?_⟩
    rw [List.singleton_append, decodeSlots_of_pair (decodePair_packPair g hwf) hwf, guardOf_packPair, List.length_singleton]
  · push Not at hp
    obtain ⟨f, hf⟩ := Instr.fields_some he hp
    refine ⟨_, encode_of_fields g hf, ?_⟩
    rw [List.append_assoc, List.singleton_append, decodeSlots_single hf hwf]
    simp [pfxSlots]

/-- Settles O55: each word is a closed one, so the decoder is run on it. -/
theorem decodeWords : Obligations.DecodeWords := by
  unfold Obligations.DecodeWords
  decide

end Sys2Proof
end

section
/-! SUPPORT. Transfers that land or raise their cause at the target, and TRAP with the return that goes on after it (R71 to R73, R106,
R108, R109, R114, R117, R118). -/

namespace Sys2Proof.Machine

/-! ## The transferring forms (R106) -/

theorem exec_br (d : BitVec 48) (s : State) : exec (.br d) s = (s.transfer (targetOf s.iss.own d) false).finish s := rfl

theorem exec_call (x : LinkD) (s : State) :
    exec (.call x) s = ((s.wg x.d s.iss.next).transfer (targetOf s.iss.own x.disp) false).finish s := rfl

theorem exec_callReg (x : DA) (s : State) : exec (.callReg x) s = ((s.wg x.d s.iss.next).transfer (s.rg x.a) false).finish s := rfl

theorem exec_ret (a : GReg) (s : State) : exec (.ret a) s = (s.transfer (s.rg a) false).finish s := rfl

theorem exec_jr (a : GReg) (s : State) : exec (.jr a) s = (s.transfer (s.rg a) false).finish s := rfl

theorem transfersComplete : Statements.TransfersComplete := by
  intro s t l
  refine ⟨fun d ht hl => ?_, fun x ht hl => ?_, fun x ht hl => ?_, fun a ht hl => ?_⟩
  · rw [exec_br, ht, hl.transfer]
  · rw [exec_call, ht, hl.transfer]
  · rw [exec_callReg, ht, hl.transfer]
  · rw [exec_ret, exec_jr, ht, hl.transfer]
    exact ⟨rfl, rfl⟩

/-! ## The causes of a transfer, in the order they are checked (R73, R108) -/

section
variable {s : State} {t : Word}

/-- A transfer that may not be made traps with what the state holds already. -/
theorem finish_transfer_error {e : Bool} {f : Trap} (h : s.enter t e = .error f) {s0 : State} (hrun : s0.me.tr.st ≠ .running) :
    (s.transfer t e).finish s0 = .next ((s.metFetch t).takeTrap f 0) := by
  rw [transfer_error h, finish_trap _ _ _ hrun]

theorem enter_outside (h : s.leavesSegment t = true) (e : Bool) : s.enter t e = .error ⟨0x39, 3, t, some t, 0⟩ := by
  unfold State.enter; rw [if_pos h]

variable (hseg : s.leavesSegment t = false)
include hseg

theorem enter_fetch_fault {f : Trap} (h : (s.meetFetch t).fetchLine t = .fault f) (e : Bool) : s.enter t e = .error f := by
  unfold State.enter; simp only [hseg, Bool.false_eq_true, if_false, h]

theorem enter_line {l : Line} (h : (s.meetFetch t).fetchLine t = .line l) {k : BitVec 8} (hk : lineIllegal l = some k) (e : Bool) :
    s.enter t e = .error ⟨0x02, k, lineBase t, some t, 0⟩ := by
  unfold State.enter; simp only [hseg, Bool.false_eq_true, if_false, h, illegalLine, hk, Option.map_some]

theorem enter_unmarked {l : Line} (h : (s.meetFetch t).fetchLine t = .line l) (hl : lineIllegal l = none)
    (ht : validCode t = false ∨ isTgt l (slotIx t) = false) : s.enter t false = .error ⟨0x03, 0, t, some t, 0⟩ := by
  have hmiss : (validCode t && (false || isTgt l (slotIx t))) = false := by rcases ht with ht | ht <;> simp [ht]
  unfold State.enter
  simp only [hseg, Bool.false_eq_true, if_false, h, illegalLine, hl, Option.map_none, targetMiss, hmiss]

end

theorem transferFaults : Statements.TransferFaults := by
  intro s t hrun
  refine ⟨fun f hf => ⟨fun d ht => ?_, fun a ht => ?_⟩, fun r f hf => ⟨fun d ht => ?_, fun a ht => ?_⟩,
    fun h => enter_outside h false, fun hseg => ⟨fun f h => enter_fetch_fault hseg h false, fun l k h hk => enter_line hseg h hk false,
      fun l h hl ht => enter_unmarked hseg h hl ht⟩⟩
  · rw [exec_br, ht, finish_transfer_error hf hrun]
  · rw [exec_ret, exec_jr, ht, finish_transfer_error hf hrun]
    exact ⟨rfl, rfl⟩
  · rw [exec_call, ht, finish_transfer_error hf hrun]
  · rw [exec_callReg, ht, finish_transfer_error hf hrun]

/-- Settles O5: every transferring form is one transfer, CALL's after its link write; whether it lands or which cause it raises is
settled by the checks of `State.enter`. -/
theorem transfersAndTheirFaults : Obligations.TransfersAndTheirFaults := ⟨transfersComplete, transferFaults⟩

/-! ## TRAP and TRAP.BRK (R117) -/

theorem exec_trap (n : BitVec 8) {s : State} (hrun : s.me.tr.st ≠ .running) : exec (.trap n) s = .next (s.traps 0x70 n 0) :=
  finish_trapOf hrun 0x70 n 0

theorem exec_trapBrk (n : BitVec 8) {s : State} (hrun : s.me.tr.st ≠ .running) : exec (.trapBrk n) s = .next (s.traps 0x71 n 0) :=
  finish_trapOf hrun 0x71 n 0

@[simp] theorem keepLine_me (s : State) (base : Nat) (l : Line) : (s.keepLine base l).me = s.me := by
  unfold State.keepLine; dsimp only; split <;> rfl

@[simp] theorem meetFetch_me (s : State) (a : Word) : (s.meetFetch a).me = s.me := (HomeOnly.meetFetch s a).me

section
variable {s : State} {c n : BitVec 8} {l : Line}

/-- The strand that a trap of the instruction's own leaves at the weave's level, its vector fetched. -/
theorem traps_weave_me (hsys : s.me.sys = false) (hwt : s.me.wt = false) (hvec : s.me.tvec ≠ 0) (hlevel : levelS c = false)
    (hl : State.lands { s with me := s.me.settle.trappedW s.iss.first ⟨c, n, 0, none, 0⟩ } s.me.tvec false l) :
    (s.traps c n 0).me = s.me.settle.trappedW s.iss.first ⟨c, n, 0, none, 0⟩ := by
  obtain ⟨hweave, -⟩ := trapEntryWrites s ⟨c, n, 0, none, 0⟩ l
  rw [State.traps, hweave hsys hwt hvec hlevel hl, keepLine_me, meetFetch_me]
  rfl

/-- And at the system's. -/
theorem traps_system_me (hsys : s.me.sys = false) (h : s.me.wt = true ∨ s.me.tvec = 0 ∨ levelS c = true)
    (hl : State.lands { s with me := s.me.settle.trappedS (s.partRec s.me.part).sysvec s.iss.first ⟨c, n, 0, none, 0⟩ }
      (s.partRec s.me.part).sysvec false l) :
    (s.traps c n 0).me = s.me.settle.trappedS (s.partRec s.me.part).sysvec s.iss.first ⟨c, n, 0, none, 0⟩ := by
  obtain ⟨-, hsystem, -⟩ := trapEntryWrites s ⟨c, n, 0, none, 0⟩ l
  rw [State.traps, hsystem hsys h hl, keepLine_me, meetFetch_me]
  rfl

theorem trappedS_stcause {x : Strand} (h : x.sys = false) (vec pc : Word) (t : Trap) :
    (x.trappedS vec pc t).stcause = BitVec.ofNat 64 (t.sub.toNat * 256 + t.cause.toNat) := by
  simp [Strand.trappedS, h]

end

/-! ## ERET.N after a TRAP (R118) -/

/-- With no passes suspended a return resumes none. -/
theorem resumes_false {x : Strand} (h : x.tr.st ≠ .suspended) : x.resumes = false := by
  simp [Strand.resumes, h]

theorem resumedTr_none {x : Strand} (h : x.resumes = false) : x.resumedTr = x.tr := by
  unfold Strand.resumedTr; rw [h]; rfl

section
variable {u : State} {l l' : Line} {b : Word} (hsus : u.me.tr.st ≠ .suspended) (hstage : ∀ t, u.me.stage ≠ .orphaned t)
  (hlegal : lineIllegal l' = none) (hend : chainEnd b l' = b)
include hsus hstage hlegal hend

/-- ERET.N to a slot that ends its chain goes on at the slot after it. -/
theorem exec_eretN_after {x : Strand} {e : Bool} (hin : u.me.sys = true ∨ u.me.wt = true) (hleave : u.me.leaveLevel = (b, e, x))
    (htr : x.tr = u.me.resumedTr) {v : State} (hv : State.meetFetch { u with me := x.keepParked b false } b = v)
    (hline : v.fetchLine b = .line l') (hl : v.lands (succAddr b) e l) : exec .eretN u = .next (v.jumped (succAddr b) l) := by
  have hres : (u.me.tr.st != .running && x.tr.st == .running) = false := by rw [htr, resumed_iff, resumes_false hsus]
  rw [exec_eretN_transfer hstage hin hleave hres hv hline hlegal, hend, afterResume_lands hl]

end

/-- Settles O7: the entry's registers are those of `takeTrap`, which neither the vector's fetch nor its line changes, and ERET.N finds the
TRAP's own slot at the saved address, so that its transfer goes to the next one. -/
theorem trapForms : Obligations.TrapForms := by
  intro n s hrun
  refine ⟨exec_trap n hrun, exec_trapBrk n hrun, fun c _ l => ⟨fun hsys hwt hvec hlevel hl => ?_, fun hsys hs hl => ?_⟩,
    fun u l l' hsus hstage hlegal hend => ⟨fun hsys hwt htpc hline hl => ?_, fun hsys hstpc hline hl => ?_⟩⟩
  · rw [traps_weave_me hsys hwt hvec hlevel hl]
    exact ⟨rfl, rfl⟩
  · rw [traps_system_me hsys hs hl]
    exact ⟨rfl, trappedS_stcause (x := s.me.settle) hsys _ _ _⟩
  · have htr := resumedTr_none (resumes_false hsus)
    have hleave := leaveLevel_weave hsys
    rw [htpc, Strand.leftWeave, htr] at hleave
    exact exec_eretN_after hsus hstage hlegal hend (.inr hwt) hleave htr.symm rfl hline hl
  · have htr := resumedTr_none (resumes_false hsus)
    have hleave := leaveLevel_system hsys
    rw [hstpc, Strand.leftSys, htr] at hleave
    exact exec_eretN_after hsus hstage hlegal hend (.inl hsys) hleave htr.symm rfl hline hl

end Sys2Proof.Machine
end

section
/-! SUPPORT. Rounding is exact at a finite code's own value: the unit it rounds to is the value's own (R76, R79). -/

namespace Sys2Proof.Num

theorem bitLen_of_range {m k : Nat} (hlo : 2 ^ k ≤ m) (hhi : m < 2 ^ (k + 1)) : bitLen m = k + 1 := by
  have hne : m ≠ 0 := by have := Nat.two_pow_pos k; omega
  rw [bitLen, if_neg hne, (Nat.log2_eq_iff hne).mpr ⟨hlo, hhi⟩]

theorem bitLen_le_of_lt {m k : Nat} (h : m < 2 ^ k) : bitLen m ≤ k := by
  unfold bitLen
  split
  · exact Nat.zero_le k
  case isFalse hne => exact (Nat.log2_lt hne).mpr h

/-- What is no smaller than the unit is a multiple of it, with nothing discarded. -/
theorem roundAt_exact (mode : RMode) (u : Nat) {x : Exact} {q : Int} (h : q ≤ x.e) :
    roundAt mode u x q = (x.m * 2 ^ (x.e - q).toNat, x.rest) := if_pos h

/-- A nonzero value k × 2^e whose precision's unit, or the subnormal one, is 2^e rounds to the code that counts those units, with no
flag. -/
theorem roundTo_own_unit {f : Fmt} {n : Bool} {k : Nat} {e : Int} (hk : k ≠ 0)
    (hq : max ((bitLen k : Int) + e - f.prec) f.qmin = e) (hcode : (e - f.qmin).toNat * 2 ^ f.frac + k ≤ f.maxCode)
    (mode : RMode) (u : Nat) :
    roundTo f mode u ⟨n, k, e, false⟩ = (withSign f n ((e - f.qmin).toNat * 2 ^ f.frac + k), 0) := by
  have hround : roundAt mode u ⟨n, k, e, false⟩ e = (k, false) := by
    rw [roundAt_exact mode u le_rfl]; simp
  unfold roundTo
  rw [if_neg fun h => hk h.1]
  dsimp only
  rw [hq, hround]
  dsimp only
  rw [if_neg (Nat.not_lt.mpr hcode), Bool.and_false]
  rfl

/-- The codes of a format: a magnitude under its sign bit. -/
theorem withSign_magnitude {f : Fmt} {c : Nat} (hc : c < 2 ^ f.width) :
    withSign f (decide (f.signBit ≤ c)) (c % f.signBit) = c := by
  have hwidth : 2 ^ f.width = 2 * f.signBit := by cases f <;> rfl
  unfold withSign
  by_cases h : f.signBit ≤ c
  · rw [decide_eq_true h, if_pos rfl, Nat.mod_eq_sub_mod h, Nat.mod_eq_of_lt (by omega)]
    omega
  · rw [decide_eq_false h, if_neg Bool.false_ne_true, Nat.mod_eq_of_lt (by omega)]

/-- A magnitude below infinity's code, as a significand and its unit's exponent above the subnormal one. -/
inductive FiniteParts (f : Fmt) (mag : Nat) : Nat → Int → Prop where
  | subnormal (h : mag < 2 ^ f.frac) : FiniteParts f mag mag f.qmin
  | normal (h : 2 ^ f.frac ≤ mag) :
      FiniteParts f mag (2 ^ f.frac + mag % 2 ^ f.frac) (f.qmin + (mag / 2 ^ f.frac : Nat) - 1)

theorem decode_fin {f : Fmt} {c : Nat} {n : Bool} {k : Nat} {e : Int} (hc : c < 2 ^ f.width) (h : decode f c = .fin n k e) :
    n = decide (f.signBit ≤ c) ∧ c % f.signBit < f.infCode ∧ FiniteParts f (c % f.signBit) k e := by
  unfold decode at h
  rw [Nat.mod_eq_of_lt hc] at h
  dsimp only at h
  split at h
  · exact nomatch h
  split at h
  · exact nomatch h
  case isFalse hlt =>
    split at h
    case isTrue hsub =>
      obtain ⟨rfl, rfl, rfl⟩ := Val.fin.inj h
      exact ⟨rfl, Nat.lt_of_not_le hlt, .subnormal hsub⟩
    case isFalse hsub =>
      obtain ⟨rfl, rfl, rfl⟩ := Val.fin.inj h
      exact ⟨rfl, Nat.lt_of_not_le hlt, .normal (Nat.le_of_not_lt hsub)⟩

/-- A finite magnitude's value rounds to that magnitude. -/
theorem roundTo_finiteParts {f : Fmt} {mag k : Nat} {e : Int} (hfin : mag < f.infCode) (h : FiniteParts f mag k e) (n : Bool)
    (mode : RMode) (u : Nat) : roundTo f mode u ⟨n, k, e, false⟩ = (withSign f n mag, 0) := by
  have hmax : mag ≤ f.maxCode := Nat.le_sub_one_of_lt hfin
  cases h with
  | subnormal hsub =>
    by_cases hzero : mag = 0
    · subst hzero; rfl
    · have hlen := bitLen_le_of_lt hsub
      have hprec : f.prec = f.frac + 1 := rfl
      have hcode : (f.qmin - f.qmin).toNat * 2 ^ f.frac + mag = mag := by simp
      have hround := roundTo_own_unit (f := f) (n := n) hzero (max_eq_right (by omega)) (hcode.trans_le hmax) mode u
      rwa [hcode] at hround
  | normal hnorm =>
    have hpos : 0 < 2 ^ f.frac := Nat.two_pow_pos _
    have hlow : mag % 2 ^ f.frac < 2 ^ f.frac := Nat.mod_lt _ hpos
    have hquot : 1 ≤ mag / 2 ^ f.frac := (Nat.one_le_div_iff hpos).mpr hnorm
    have hlen : bitLen (2 ^ f.frac + mag % 2 ^ f.frac) = f.prec := bitLen_of_range (by omega) (by rw [Nat.pow_succ]; omega)
    have hunits : (f.qmin + (mag / 2 ^ f.frac : Nat) - 1 - f.qmin).toNat = mag / 2 ^ f.frac - 1 := by omega
    have hcode : (f.qmin + (mag / 2 ^ f.frac : Nat) - 1 - f.qmin).toNat * 2 ^ f.frac + (2 ^ f.frac + mag % 2 ^ f.frac) = mag := by
      rw [hunits, ← Nat.add_assoc, ← Nat.succ_mul, Nat.succ_eq_add_one, Nat.sub_add_cancel hquot]
      exact Nat.div_add_mod' mag (2 ^ f.frac)
    have hround := roundTo_own_unit (f := f) (n := n) (k := 2 ^ f.frac + mag % 2 ^ f.frac) (by omega)
      (by rw [hlen, max_eq_left] <;> omega) (hcode.trans_le hmax) mode u
    rwa [hcode] at hround

end Sys2Proof.Num

namespace Sys2Proof

/-- Settles O54: a finite code's value is its magnitude's, whose unit rounding keeps, under the code's own sign. -/
theorem exactRounding : Obligations.ExactRounding := by
  intro f m u c n k e hc h
  obtain ⟨rfl, hfin, hparts⟩ := Num.decode_fin hc h
  rw [Num.roundTo_finiteParts hfin hparts, Num.withSign_magnitude hc]

end Sys2Proof
end

section
/-! SUPPORT. The scalar integer forms: which exact result each narrows, and the results that fit their type as they are (R74, R75, R99,
R102, R103). -/

namespace Sys2Proof.Machine

/-! ## Their arms -/

theorem exec_mulh (x : Alu) (s : State) : exec (.mulh x) s = (runMulh x s).finish s := rfl

theorem exec_rem (x : Alu) (s : State) : exec (.rem x) s = (runRem x s).finish s := rfl

theorem exec_cmpi (x : CmpI) (s : State) : exec (.cmpi x) s = (runCmpi x s).finish s := rfl

theorem exec_shl (x : Alu) (s : State) : exec (.shl x) s = (runShl x s).finish s := rfl

theorem exec_shli (x : ShI) (s : State) : exec (.shli x) s = (runShli x s).finish s := rfl

theorem exec_addi (x : AluI) (s : State) : exec (.addi x) s = (runAddi x s).finish s := rfl

theorem exec_muli (x : AluI) (s : State) : exec (.muli x) s = (runMuli x s).finish s := rfl

/-! ## Results that fit their type (R75, R102) -/

theorem Ty.ne_f32_of_isInt {t : Ty} (h : t.isInt = true) : t ≠ .f32 := by rintro rfl; exact absurd h (by decide)

/-- The range of a type is 2^w wide: half of it below zero for a signed type. -/
theorem intRange_cases (t : Ty) : ∃ p : Int, 1 < p ∧ (2 : Int) ^ t.width = 2 * p ∧
    (intLo t = -p ∧ intHi t = p - 1 ∨ intLo t = 0 ∧ intHi t = 2 * p - 1) := by
  refine ⟨2 ^ (t.width - 1), ?_, ?_, ?_⟩ <;> cases t <;> decide

/-- The high half of a product of two values of a type. -/
theorem mulHigh_fits (t : Ty) {a b : Int} (ha : intLo t ≤ a ∧ a ≤ intHi t) (hb : intLo t ≤ b ∧ b ≤ intHi t) :
    intLo t ≤ a * b / 2 ^ t.width ∧ a * b / 2 ^ t.width ≤ intHi t := by
  obtain ⟨p, hp, hw, ⟨hlo, hhi⟩ | ⟨hlo, hhi⟩⟩ := intRange_cases t <;> rw [hlo, hhi] at ha hb ⊢ <;> rw [hw]
  · have hab : |a * b| ≤ p * p := by
      rw [abs_mul]
      exact mul_le_mul (abs_le.mpr ⟨ha.1, by omega⟩) (abs_le.mpr ⟨hb.1, by omega⟩) (abs_nonneg b) (by omega)
    obtain ⟨hge, hle⟩ := abs_le.mp hab
    have hpos : 0 < p * p := by positivity
    exact ⟨Int.le_ediv_of_mul_le (by omega) (by linarith), Int.le_sub_one_of_lt (Int.ediv_lt_of_lt_mul (by omega) (by linarith))⟩
  · have hlt : a * b < 2 * p * (2 * p) := mul_lt_mul'' (by omega) (by omega) ha.1 hb.1
    exact ⟨Int.ediv_nonneg (mul_nonneg ha.1 hb.1) (by omega), Int.le_sub_one_of_lt (Int.ediv_lt_of_lt_mul (by omega) hlt)⟩

/-- The remainder of two values of a type, of the dividend's sign and smaller than the divisor. -/
theorem tmod_fits (t : Ty) {a b : Int} (ha : intLo t ≤ a ∧ a ≤ intHi t) (hb : intLo t ≤ b ∧ b ≤ intHi t) (h : b ≠ 0) :
    intLo t ≤ a.tmod b ∧ a.tmod b ≤ intHi t := by
  have hmod : (a.tmod b).natAbs = a.natAbs % b.natAbs := Int.natAbs_tmod a b
  have hlt : a.natAbs % b.natAbs < b.natAbs := Nat.mod_lt _ (Int.natAbs_pos.mpr h)
  have hle : a.natAbs % b.natAbs ≤ a.natAbs := Nat.mod_le ..
  obtain ⟨p, -, -, ⟨hlo, hhi⟩ | ⟨hlo, hhi⟩⟩ := intRange_cases t <;> rw [hlo, hhi] at ha hb ⊢
  · omega
  · have hnonneg : 0 ≤ a.tmod b := Int.tmod_nonneg b ha.1
    omega

/-! ## What each form narrows -/

section
variable {s : State}

theorem arith_int {x : AluS} (hty : x.ty.isInt = true) (int : Int → Int → Int)
    (flt : RMode → Nat → Num.Val → Num.Val → Nat × Num.Flags) :
    arith x s int flt = intResult s x.ty x.sat x.d (int (readTy x.ty (s.rg x.a)) (readTy x.ty (s.rg x.b))) :=
  if_neg (Ty.ne_f32_of_isInt hty)

theorem runMulh_eq (x : Alu) :
    runMulh x s = .ok (s.wg x.d (BitVec.ofInt 64 (readTy x.ty (s.rg x.a) * readTy x.ty (s.rg x.b) / 2 ^ x.ty.width))) := by
  have hfits := mulHigh_fits x.ty (readTy_fits x.ty (s.rg x.a)) (readTy_fits x.ty (s.rg x.b))
  unfold runMulh bitResult
  rw [extTy_lowBits, intWrap_of_fits _ _ hfits]

section
variable {x : Alu} (hty : x.ty.isInt = true)
include hty

theorem runDiv_nonzero (hb : readTy x.ty (s.rg x.b) ≠ 0) :
    runDiv x s = intResult s x.ty false x.d ((readTy x.ty (s.rg x.a)).tdiv (readTy x.ty (s.rg x.b))) := by
  unfold runDiv
  dsimp only
  rw [if_neg (Ty.ne_f32_of_isInt hty), Num.divInt, if_neg hb]
  rfl

theorem runDiv_zero (hb : readTy x.ty (s.rg x.b) = 0) : runDiv x s = .ok ((s.addFlags Num.dz).wg x.d 0) := by
  have hzero : extTy x.ty 0 = 0 := by cases x.ty <;> decide
  unfold runDiv
  dsimp only
  rw [if_neg (Ty.ne_f32_of_isInt hty), Num.divInt, if_pos hb, hzero]

end

/-- A remainder always fits, so that no flag is raised and it is narrowed to itself. -/
theorem runRem_nonzero {x : Alu} (hb : readTy x.ty (s.rg x.b) ≠ 0) :
    runRem x s = intResult s x.ty false x.d ((readTy x.ty (s.rg x.a)).tmod (readTy x.ty (s.rg x.b))) := by
  have hfits := tmod_fits x.ty (readTy_fits x.ty (s.rg x.a)) (readTy_fits x.ty (s.rg x.b)) hb
  have hin := (inRange_eq x.ty ((readTy x.ty (s.rg x.a)).tmod (readTy x.ty (s.rg x.b)))).trans (decide_eq_true hfits)
  unfold runRem intResult
  rw [Num.remInt, if_neg hb, Num.narrow, if_neg Bool.false_ne_true, Num.wrap, hin]
  rfl

theorem runRem_zero {x : Alu} (hb : readTy x.ty (s.rg x.b) = 0) :
    runRem x s = .ok ((s.addFlags Num.dz).wg x.d (BitVec.ofInt 64 (readTy x.ty (s.rg x.a)))) := by
  unfold runRem
  rw [Num.remInt, if_pos hb]
  dsimp only
  rw [extTy_lowBits, intWrap_of_fits _ _ (readTy_fits x.ty (s.rg x.a))]

end

theorem icmp_eq_intHolds (c : Cond) (a b : Int) : Num.icmp c a b = intHolds c a b := by
  cases c with
  | eq => rfl
  | ne => exact decide_not
  | lt => rfl
  | le => simp [Num.icmp, intHolds, ← decide_not]
  | gt => rfl
  | ge => simp [Num.icmp, intHolds, ← decide_not]
  | un => rfl

theorem compare_int {s : State} {t : Ty} (hty : t.isInt = true) (c : Cond) (p : PReg) (a : Word) (b : Int) (bf : Word) :
    compare s t c p a b bf = .ok (s.wp p (intHolds c (readTy t a) b)) := by
  unfold compare
  rw [if_neg (Ty.ne_f32_of_isInt hty), icmp_eq_intHolds]

/-! ## The statements -/

/-- Settles O1: each form narrows one exact integer, and MULH's high half needs no narrowing. -/
theorem integerArithmetic : Obligations.IntegerArithmetic := by
  intro s
  refine ⟨fun x hty => ⟨?_, ?_, ?_⟩, fun x _ => ?_, fun x _ => ?_, fun x _ => ⟨?_, ?_⟩, fun x _ => ?_⟩
  · rw [exec_add, runAdd, arith_int hty, intResult_finish]
  · rw [exec_sub, runSub, arith_int hty, intResult_finish]
  · rw [exec_mul, runMul, arith_int hty, intResult_finish]
  · rw [exec_mulh, runMulh_eq, finish_ok]
  · rw [exec_shl, runShl, shiftLeft, intResult_finish, shiftCount]
  · rw [exec_addi, runAddi, arithImm, intResult_finish, immValue]
  · rw [exec_muli, runMuli, arithImm, intResult_finish, immValue]
  · rw [exec_shli, runShli, shiftLeft, intResult_finish]

theorem integerDivision : Statements.IntegerDivision := by
  intro x s hty
  refine ⟨fun hb => ⟨?_, ?_⟩, fun hb => ⟨?_, ?_⟩⟩
  · rw [exec_div, runDiv_nonzero hty hb, intResult_finish]
  · rw [exec_rem, runRem_nonzero hb, intResult_finish]
  · rw [exec_div, runDiv_zero hty hb, finish_ok]
  · rw [exec_rem, runRem_zero hb, finish_ok]

theorem integerCompare : Statements.IntegerCompare := by
  intro s
  refine ⟨fun x hty _ => ?_, fun x hty _ => ?_⟩
  · rw [exec_cmp, runCmp, compare_int hty, finish_ok]
  · rw [exec_cmpi, runCmpi, compare_int hty, finish_ok]
    rfl

/-- Settles O2: a nonzero divisor's quotient is narrowed and its remainder fits, and the order is that of the integers. -/
theorem integerDivisionAndCompare : Obligations.IntegerDivisionAndCompare := ⟨integerDivision, integerCompare⟩

end Sys2Proof.Machine
end

section
/-! SUPPORT. The vector integer forms: each selected lane's exact result narrowed, with flags that no exception enable of R35 looks at
(R35, R75, R124, R125). -/

namespace Sys2Proof.Machine

/-! ## Flags that are no exception (R35) -/

/-- No exception of R35 is among the flags: bits 4:0 are clear. -/
def noException (f : Num.Flags) : Prop := f.extractLsb' 0 5 = 0

theorem enabledException_noException {f : Num.Flags} (h : noException f) (s : State) : enabledException s f = none := by
  have hzero : enabledOf s.me.rmode f = 0 := by
    unfold enabledOf
    rw [h]
    exact BitVec.zero_and
  unfold enabledException
  rw [hzero]
  rfl

theorem noException_foldl {f : Nat → Num.Flags} (hf : ∀ i, noException (f i)) (l : List Nat) {a : Num.Flags} (ha : noException a) :
    noException (l.foldl (fun a i => a ||| f i) a) := by
  induction l generalizing a with
  | nil => exact ha
  | cons i r ih =>
    have hor : noException (a ||| f i) := by
      unfold noException
      rw [BitVec.extractLsb'_or, ha, hf i]
      rfl
    exact ih hor

theorem noException_intLane (t : Ty) (sat : Bool) (e : Int) : noException (intLane t sat e).2 := by
  unfold intLane noException
  dsimp only
  by_cases hfits : intLo t ≤ e ∧ e ≤ intHi t
  · rw [if_pos hfits]; rfl
  · rw [if_neg hfits]; cases sat <;> rfl

theorem noException_laneFlags {s : State} {t : Ty} {sel : VSel} {f : Nat → Num.Flags} (hf : ∀ i, noException (f i)) :
    noException (laneFlags s t sel f) := noException_foldl hf _ rfl

/-! ## Their lanes -/

/-- A lanewise form on integers completes with its lanes narrowed and their flags merged. -/
theorem lanewise_narrow_finish (s s0 : State) (t : Ty) (d : VReg) (sel : VSel) (sat : Bool) (f : Nat → Int) :
    (lanewise s t d sel fun i => Num.narrow sat t.isI t.width (f i)).finish s0 =
      .next ((s.addFlags (laneFlags s t sel fun i => (intLane t sat (f i)).2)).wv d
        (laneVec s t sel d fun i => (intLane t sat (f i)).1)).goesOn := by
  simp only [intLane_eq]
  rw [lanewise_eq]
  exact orException_finish_none
    (enabledException_noException (noException_laneFlags fun i => noException_intLane t sat (f i)) s) _

theorem Ty.isFloat_of_isInt {t : Ty} (h : t.isInt = true) : t.isFloat = false := by
  revert h
  cases t <;> decide

theorem vecArith_int {x : VArS} (hty : x.ty.isInt = true) (s : State) (int : Int → Int → Int)
    (flt : Num.Fmt → RMode → Nat → Num.Val → Num.Val → Nat × Num.Flags) :
    vecArith x s int flt = lanewise s x.ty x.d x.sel fun i =>
      Num.narrow x.sat x.ty.isI x.ty.width (int (ival x.ty (s.rv x.a) i) (ival x.ty (s.rv x.b) i)) := by
  unfold vecArith
  rw [Ty.isFloat_of_isInt hty]
  rfl

theorem vecSign_int {x : VUnS} (hty : x.ty.isI = true) (s : State) (bits : Nat → Nat) (int : Int → Int) :
    vecSign x s bits int = lanewise s x.ty x.d x.sel fun i => Num.narrow x.sat x.ty.isI x.ty.width (int (ival x.ty (s.rv x.a) i)) := by
  have hint : x.ty.isInt = true := by rw [Ty.isInt, hty]; rfl
  unfold vecSign
  rw [Ty.isFloat_of_isInt hint, hty]
  rfl

/-! ## Their arms, where nothing holds them back -/

section
variable {s : State} (h : s.unheld)
include h

theorem exec_vabs_unheld (x : VUnS) :
    exec (.vabs x) s = (vecSign x s (fun y => y % 2 ^ (x.ty.width - 1)) fun y => (y.natAbs : Int)).finish s :=
  congrArg (Res.finish · s) (recordable_unheld h ..)

theorem exec_vneg_unheld (x : VUnS) :
    exec (.vneg x) s = (vecSign x s (fun y => y ^^^ 2 ^ (x.ty.width - 1)) fun y => -y).finish s :=
  congrArg (Res.finish · s) (recordable_unheld h ..)

theorem exec_vshl_unheld (x : VBin) :
    exec (.vshl x) s = (lanewise s x.ty x.d x.sel fun i => Num.narrow false x.ty.isI x.ty.width
      (ival x.ty (s.rv x.a) i * 2 ^ (elem (s.rv x.b) i x.ty.width % 64 % x.ty.width))).finish s :=
  congrArg (Res.finish · s) (recordable_unheld h ..)

theorem exec_vshlImm_unheld (x : VShI) :
    exec (.vshlImm x) s = (lanewise s x.ty x.d x.sel fun i => Num.narrow false x.ty.isI x.ty.width
      (ival x.ty (s.rv x.a) i * 2 ^ x.s.val)).finish s :=
  congrArg (Res.finish · s) (recordable_unheld h ..)

end

/-- Settles O34: each form narrows an exact integer lane by lane, and what it raises traps under no enable. -/
theorem vectorIntegerArithmetic : Obligations.VectorIntegerArithmetic := by
  intro s h
  refine ⟨fun x hty => ⟨?_, ?_, ?_⟩, fun x hty => ⟨?_, ?_⟩, fun x => ?_, fun x => ?_⟩
  · rw [exec_vadd_unheld h, vecArith_int hty, lanewise_narrow_finish]
  · rw [exec_vsub_unheld h, vecArith_int hty, lanewise_narrow_finish]
  · rw [exec_vmul_unheld h, vecArith_int hty, lanewise_narrow_finish]
  · rw [exec_vabs_unheld h, vecSign_int hty, lanewise_narrow_finish]
  · rw [exec_vneg_unheld h, vecSign_int hty, lanewise_narrow_finish]
  · rw [exec_vshl_unheld h, lanewise_narrow_finish]
  · rw [exec_vshlImm_unheld h, lanewise_narrow_finish]

end Sys2Proof.Machine
end

section
/-! SUPPORT. VCVT's part of its destination, and VCVTO's ring: what the selected elements give, where the outliers go, and which of the
checks on the way stops the form (R35, R36, R94, R95, R129, R130). -/

namespace Sys2Proof.Machine

/-! ## Lanes of which a pair of types rounds (R36, R129) -/

/-- Lanes that step the generator or not, all alike. -/
theorem runLanes_roundIf (b : Bool) (sel : Nat → Bool) (other : Nat → Nat) (m : RMode) (op : Nat → Nat → Nat × Num.Flags)
    (g : BitVec 32) (n : Nat) :
    let gen (i : Nat) : BitVec 32 := if b then gens m g (rankBelow sel i) else g
    let y (i : Nat) := op (if b then (Num.draw m (gen i)).2 else 0) i
    runLanes sel other (fun g i => let q := if b then Num.draw m g else (g, 0); (q.1, op q.2 i)) (List.range n) g =
      ((List.range n).map (fun i => if sel i then (y i).1 else other i), gen n,
        ((List.range n).filter sel).foldl (fun a i => a ||| (y i).2) 0) := by
  cases b
  case true => exact runLanes_round sel other m op g n
  case false =>
    intro gen y
    rw [foldl_or]
    exact runLanes_pure sel other (op 0) (List.range n) g

/-! ## VCVT (R129) -/

/-- Whether VCVT's part covers destination element i. -/
def cvtInside (x : VCvtA) (i : Nat) : Bool :=
  let r := cvtRange x.dt x.st x.part.val
  decide (r.1 ≤ i) && decide (i < r.1 + r.2.1)

/-- Whether VCVT converts destination element i. -/
def cvtOn (x : VCvtA) (s : State) (i : Nat) : Bool := cvtInside x i && s.vsel x.dt x.sel i

/-- Destination element i converted, u being its random number. -/
def cvtElem (x : VCvtA) (s : State) (u i : Nat) : Nat × Num.Flags :=
  let r := cvtRange x.dt x.st x.part.val
  convert x.dt x.st x.sat ((s.rg x.b).extractLsb' 0 8) (x.rnd.getD s.rmode) u (elem (s.rv x.a) (r.2.2 + i - r.1) x.st.width)

/-- What another destination element becomes. -/
def cvtOther (x : VCvtA) (s : State) (i : Nat) : Nat :=
  if cvtInside x i then keepOr (zeroing x.sel) (s.rv x.d) x.dt.width i else elem (s.rv x.d) i x.dt.width

/-- VCVT's lanes before the test for an enabled exception. -/
theorem exec_vcvt_unheld {s : State} (hs : s.unheld) {x : VCvtA}
    (hscale : (x.dt = .q4 ∨ x.st = .q4) → (s.rg x.b).extractLsb' 8 56 = 0) :
    exec (.vcvt x) s =
      (let r := runLanes (cvtOn x s) (cvtOther x s)
        (fun g i => let q := if cvtRounds x.dt x.st then Num.draw (x.rnd.getD s.rmode) g else (g, 0); (q.1, cvtElem x s q.2 i))
        (List.range x.dt.count) s.srg
       orException s r.2.2 fun u => .ok ((u.setSrg r.2.1).wv x.d (ofElems x.dt.width r.1))).finish s := by
  have hlegal : ¬((x.dt == .q4 || x.st == .q4) && (s.rg x.b).extractLsb' 8 56 != 0) = true := by
    simpa using hscale
  exact congrArg (Res.finish · s) ((recordable_unheld hs ..).trans (if_neg hlegal))

theorem conversionCompletes : Statements.ConversionCompletes := by
  intro x s hs hscale
  have hexec := exec_vcvt_unheld hs hscale
  rw [runLanes_roundIf] at hexec
  exact ⟨fun hnone => hexec.trans (orException_finish_none hnone _),
    fun sub hsome => hexec.trans (orException_finish_some hsome hs.1.2 _)⟩

end Sys2Proof.Machine

/-! ## VCVTO's ring and its outliers (R94, R95) -/

namespace Sys2Proof.VCvtoA
open Machine
variable (x : VCvtoA) (s : State)

/-- The ring's capacity, head and count, as its second register holds them. -/
def cap : Nat := ((s.rg (x.n + 1)).extractLsb' 48 16).toNat
def head : Nat := ((s.rg (x.n + 1)).extractLsb' 32 16).toNat
def cnt : Nat := ((s.rg (x.n + 1)).extractLsb' 16 16).toNat

/-- The selected elements converted, ascending, and the generator after them. -/
def lanes : List (Nat × Nat × Nat × Num.Flags × Bool) × BitVec 32 :=
  let r := cvtRange x.dt x.st x.part.val
  outLanes (fun u i => convertOut x.dt x.st ((s.rg x.b).extractLsb' 0 8) (x.rnd.getD s.rmode) u (elem (s.rv x.a) i x.st.width))
    (x.rnd.getD s.rmode) ((List.range r.2.1).filterMap fun j => if s.vsel x.dt x.sel (r.1 + j) then some (r.1 + j, j) else none) s.srg

def outliers : List (Nat × Nat × Nat × Num.Flags × Bool) := (x.lanes s).1.filter fun q => q.2.2.2.2

def laneFlags : Num.Flags := (x.lanes s).1.foldl (fun f q => f ||| q.2.2.2.1) 0

/-- The ring entry of outlier j. -/
def entry (j : Nat) : Word := s.rg x.n + BitVec.ofNat 64 (8 * ((x.head s + x.cnt s + j) % x.cap s))

/-- The entries the outliers take. -/
def entries : List Word := (List.range (x.outliers s).length).map (x.entry s)

/-- The stores of the outliers' entries to their sites. -/
def puts (ys : List (Nat × Site)) : List Put :=
  ((x.outliers s).zip ys).map fun (q, _, y) =>
    ⟨y, layBytes y.keys (widenF32 x.st (elem (s.rv x.a) q.2.1 x.st.width) * 2 ^ 32
      + (((s.rg x.b).extractLsb' 32 32).toNat + q.2.1) % 2 ^ 32), 0⟩

/-- Destination element i. -/
def code (i : Nat) : Nat :=
  let r := cvtRange x.dt x.st x.part.val
  match (x.lanes s).1.find? fun q => q.1 = i with
  | some q => q.2.2.1
  | none => if decide (r.1 ≤ i) && decide (i < r.1 + r.2.1) then keepOr (zeroing x.sel) (s.rv x.d) x.dt.width i
    else elem (s.rv x.d) i x.dt.width

/-- By R129's range, as a condition on i. -/
theorem code_eq : x.code s = fun i =>
    match (x.lanes s).1.find? fun q => q.1 = i with
    | some q => q.2.2.1
    | none =>
      let r := cvtRange x.dt x.st x.part.val
      if r.1 ≤ i ∧ i < r.1 + r.2.1 then keepOr (zeroing x.sel) (s.rv x.d) x.dt.width i else elem (s.rv x.d) i x.dt.width := by
  funext i
  unfold code
  simp only [Bool.and_eq_true, decide_eq_true_eq]

/-- The registers and flags written once the entries are stored in u. -/
def written (u : State) : State :=
  let k := (x.outliers s).length
  (((u.addFlags (x.laneFlags s ||| Num.flagIf (0 < k) Num.ola)).setSrg (x.lanes s).2).wv x.d
    (ofElems x.dt.width ((List.range x.dt.count).map (x.code s)))).wg (x.n + 1)
      (BitVec.ofNat 64 (x.cap s * 2 ^ 48 + x.head s * 2 ^ 32 + (x.cnt s + k) * 2 ^ 16))

/-- The checks of the entries' addresses, in the state w their walks leave. -/
def sites (w : State) : Except Trap (List (Nat × Site)) :=
  checkElems (fun a => (w.check w.ctx .store false 8 a a 8).bind fun y => noFormat a y 1) none
    ((List.range (x.outliers s).length).map fun j => (j, x.entry s j))

/-- VCVTO from the checks of its entries on, s being the state before its walks. -/
def walked (w : State) : Res :=
  match x.sites s w with
  | .error t => .trap w t
  | .ok ys =>
    match enabledException w (x.laneFlags s) with
    | some sub => .trap (w.addFlags (x.laneFlags s)) ⟨0x50, sub, 0, none, 0⟩
    | none => w.store {} false (x.puts s ys) fun u => .ok (x.written s u)

/-- Operands that VCVTO takes: a scale, a ring's second register, and a head inside the ring. -/
structure Legal : Prop where
  high : (s.rg x.b).extractLsb' 8 24 = 0
  scale : x.dt = .q4 ∨ ((s.rg x.b).extractLsb' 0 8).extractLsb' 6 2 = 0
  ring : (s.rg (x.n + 1)).extractLsb' 0 16 = 0
  inside : x.head s < x.cap s ∨ x.cap s = 0

end Sys2Proof.VCvtoA

namespace Sys2Proof.Machine

/-! ## VCVTO by its checks (R95, R130) -/

/-- The walks of an access leave the strand's exception enables. -/
theorem enabledException_walkedTo (s : State) (n : Nat) (as : List Word) (f : Num.Flags) :
    enabledException (s.walkedTo n as) f = enabledException s f := by
  unfold enabledException
  rw [(HomeOnly.walkedTo s n as).me]

section
variable {x : VCvtoA} {s : State} (hs : s.unheld) (hlegal : x.Legal s)
include hs hlegal

theorem exec_vcvto_legal :
    exec (.vcvto x) s =
      (if x.cap s < x.cnt s + (x.outliers s).length then trapOf s 0x50 7 (BitVec.ofNat 64 (x.outliers s).length)
       else s.walked 8 (((List.range (x.outliers s).length).map fun j => (j, x.entry s j)).map (·.2)) (x.walked s)).finish s := by
  obtain ⟨hhigh, hscale, hring, hinside⟩ := hlegal
  have hbits : ¬((s.rg x.b).extractLsb' 8 24 ≠ 0 ∨ (x.dt ≠ .q4 ∧ ((s.rg x.b).extractLsb' 0 8).extractLsb' 6 2 ≠ 0) ∨
      (s.rg (x.n + 1)).extractLsb' 0 16 ≠ 0) := by
    rintro (h | ⟨hdt, hsb⟩ | h)
    · exact h hhigh
    · exact hscale.elim hdt hsb
    · exact h hring
  have hhead : ¬(x.cap s ≤ x.head s ∧ x.cap s ≠ 0) := by omega
  have hrun : runVcvto x s = _ := (notRecordable_unheld hs _).trans ((memOp_free hs.memFree _).trans (if_neg hbits))
  exact congrArg (Res.finish · s) (hrun.trans (if_neg hhead))

theorem exec_vcvto_full (h : x.cap s < x.cnt s + (x.outliers s).length) :
    exec (.vcvto x) s = .next (s.traps 0x50 7 (BitVec.ofNat 64 (x.outliers s).length)) := by
  rw [exec_vcvto_legal hs hlegal, if_pos h]
  exact finish_trap _ _ _ hs.1.2

variable (hroom : x.cnt s + (x.outliers s).length ≤ x.cap s) (hwalk : s.walkable 8 (x.entries s))
include hroom hwalk

theorem exec_vcvto_room : exec (.vcvto x) s = (x.walked s (s.walkedTo 8 (x.entries s))).finish s := by
  rw [exec_vcvto_legal hs hlegal, if_neg (Nat.not_lt.mpr hroom), List.map_map]
  exact congrArg (Res.finish · s) (walked_ready hs.1.1 hwalk _)

variable {ys : List (Nat × Site)} (hsites : x.sites s (s.walkedTo 8 (x.entries s)) = .ok ys)
include hsites

theorem exec_vcvto_raises {sub : BitVec 8} (h : enabledException s (x.laneFlags s) = some sub) :
    exec (.vcvto x) s = .next (((s.walkedTo 8 (x.entries s)).addFlags (x.laneFlags s)).traps 0x50 sub 0) := by
  rw [exec_vcvto_room hs hlegal hroom hwalk, VCvtoA.walked, hsites]
  dsimp only
  rw [enabledException_walkedTo, h]
  exact finish_trap _ _ _ hs.1.2

theorem exec_vcvto_stores (h : enabledException s (x.laneFlags s) = none)
    (hstore : (s.walkedTo 8 (x.entries s)).storable {} false (x.puts s ys)) :
    let w := s.walkedTo 8 (x.entries s)
    let u := w.putAll (w.syncOf {} false) .fabric (x.puts s ys)
    exec (.vcvto x) s = .next (x.written s (if (x.puts s ys).isEmpty then u else u.sided)).goesOn := by
  rw [exec_vcvto_room hs hlegal hroom hwalk, VCvtoA.walked, hsites]
  dsimp only
  rw [enabledException_walkedTo, h]
  dsimp only
  rw [store_plain hstore, finish_ok]

end

theorem outlierConversion : Statements.OutlierConversion := by
  intro x s hs sb ring cap head cnt r m todo o outs k fl at' as w hhigh hscale hring hinside
  have hlegal : x.Legal s := ⟨hhigh, hscale, hring, hinside⟩
  refine ⟨exec_vcvto_full hs hlegal, fun ys hroom hwalk hsites => ⟨fun sub => exec_vcvto_raises hs hlegal hroom hwalk hsites,
    ?_⟩⟩
  intro hnone puts hstore
  have hexec := exec_vcvto_stores hs hlegal hroom hwalk hsites hnone hstore
  simp only [VCvtoA.written, VCvtoA.code_eq] at hexec
  exact hexec

/-- Settles O38: VCVT's lanes end in the test for an enabled exception, and VCVTO passes its checks in their order before it writes. -/
theorem conversions : Obligations.Conversions := ⟨conversionCompletes, outlierConversion⟩

end Sys2Proof.Machine
end

section
/-! SUPPORT. The vector memory forms whose elements pass their checks: what a load gives its lanes, and which store a VST comes to (R91,
R201 to R203). -/

namespace Sys2Proof.Machine

/-! ## Loads (R201, R202) -/

section
variable {s : State} (hs : s.unheld)
include hs

/-- A vector load of elements that pass their checks, served at once. -/
theorem vecLoad_served {t : Ty} {d : VReg} {sel : VSel} {fixed : Bool} {f : State → Nat → Word} {es : List (Nat × Word)}
    {ys : List (Nat × Site)} {w : State} (sc : Option ScopePfx) (hes : vecAddrs s t sel (f s) = es)
    (hw : s.walkedTo (t.width / 8) (es.map (·.2)) = w) (hwalk : s.walkable (t.width / 8) (es.map (·.2)))
    (hsites : checkElems (fun a => w.check w.ctx .load false (t.width / 8) ((es.map (·.2)).headD 0) a (t.width / 8))
      (if fixed then some ((es.map (·.2)).headD 0) else none) es = .ok ys)
    (hown : w.ownPosted (ys.flatMap fun p => p.2.readKeys ++ p.2.reads.flatMap fun r => keysFrom r 8) = false)
    (hbroken : w.brokenLocal (ys.flatMap fun p => p.2.readKeys ++ p.2.reads.flatMap fun r => keysFrom r 8) = false)
    (hserve : (w.serve ys).2.2.2 = none) :
    (vecLoad s t d sel sc fixed f).finish s =
      .next (loadLanes ((w.serve ys).1.noteTags (attrOf sc) (w.serve ys).2.2.1) t sel d (w.serve ys).2.1).goesOn := by
  have hhome : HomeOnly s w := hw ▸ HomeOnly.walkedTo s _ _
  have hstage : w.me.stage = .none := by rw [hhome.me]; exact hs.1.1
  have hprompt : w.prompt = true := hhome.prompt.trans hwalk.1
  unfold vecLoad
  rw [notRecordable_unheld hs, memOp_free hs.memFree]
  dsimp only
  rw [hes, walked_ready hs.1.1 hwalk, hw, hsites, load_prompt hstage hprompt hown hbroken hserve, finish_ok]

end

theorem exec_vld (x : VLdA) (s : State) :
    exec (.vld x) s = (vecLoad s x.ty x.d x.sel x.sc true fun s => seqAddr s x.a x.ofs x.ty).finish s := rfl

theorem exec_vlds (x : VLdSA) (s : State) :
    exec (.vlds x) s = (vecLoad s x.ty x.d x.sel x.sc false fun s => strideAddr s x.a x.b x.ofs).finish s := rfl

theorem exec_vgath (x : VGatA) (s : State) :
    exec (.vgath x) s = (vecLoad s x.ty x.d x.sel x.sc false fun s => indexAddr s x.a x.x x.scale.val x.ofs x.ty).finish s := rfl

theorem vectorLoadsComplete : Statements.VectorLoadsComplete := by
  intro s hs
  refine ⟨fun x ys => ?_, fun x ys => ?_, fun x ys => ?_⟩ <;> rintro es ⟨hwalk, hsites, hown, hbroken, hserve⟩
  · rw [exec_vld]
    exact vecLoad_served hs x.sc rfl rfl hwalk hsites hown hbroken hserve
  · rw [exec_vlds]
    exact vecLoad_served hs x.sc rfl rfl hwalk hsites hown hbroken hserve
  · rw [exec_vgath]
    exact vecLoad_served hs x.sc rfl rfl hwalk hsites hown hbroken hserve

theorem cleanReadsServe : Statements.CleanReadsServe := fun _ _ hupsets hexact htags => serve_clean hupsets hexact htags

/-! ## Stores at a stride or by index (R201 to R203) -/

/-- The state that a vector store of elements leaves: their bytes written or posted, and with any of them a side effect. -/
def State.storedLanes (w : State) (sc : Option ScopePfx) (puts : List Put) : State :=
  let u := (w.marked (attrOf sc).releases).putAll (w.syncOf (attrOf sc) false) (attrOf sc).scope puts
  if puts.isEmpty then u else u.sided

theorem store_lanes {w : State} {sc : Option ScopePfx} {puts : List Put} (h : w.storable (attrOf sc) false puts)
    (k : State → Res) : w.store (attrOf sc) false puts k = k (w.storedLanes sc puts) := store_ready h k

theorem vecStore_stored {s w : State} (hs : s.unheld) {t : Ty} {v : VReg} {sel : VSel} {sc : Option ScopePfx}
    {f : State → Nat → Word} {es : List (Nat × Word)} {ys : List (Nat × Site)} (hes : vecAddrs s t sel (f s) = es)
    (hw : s.walkedTo (t.width / 8) (es.map (·.2)) = w) (hwalk : s.walkable (t.width / 8) (es.map (·.2)))
    (hsites : checkElems (fun a => (w.check w.ctx .store false (t.width / 8) ((es.map (·.2)).headD 0) a (t.width / 8)).bind fun y =>
      noFormat a y (1 ||| w.laterPage w.ctx ((es.map (·.2)).headD 0) a)) none es = .ok ys)
    (hstore : w.storable (attrOf sc) false (storeLanes t (w.rv v) ys)) :
    (vecStore s t v sel sc f).finish s = .next (w.storedLanes sc (storeLanes t (w.rv v) ys)).goesOn := by
  unfold vecStore
  rw [notRecordable_unheld hs, memOp_free hs.memFree]
  dsimp only
  rw [hes, walked_ready hs.1.1 hwalk, hw, hsites]
  dsimp only
  rw [store_lanes hstore, finish_ok]

theorem exec_vsts (x : VStSA) (s : State) :
    exec (.vsts x) s = (vecStore s x.ty x.s x.sel x.sc fun s => strideAddr s x.a x.b x.ofs).finish s := rfl

theorem exec_vscat (x : VScaA) (s : State) :
    exec (.vscat x) s = (vecStore s x.ty x.s x.sel x.sc fun s => indexAddr s x.a x.x x.scale.val x.ofs x.ty).finish s := rfl

/-! ## VST (R91, R203) -/

/-- What VST comes to once its elements have passed their checks: they lie on several pages one of which is a format page, on one format
page, or on ordinary pages. -/
def vstChecked (x : VStA) (w : State) (ys : List (Nat × Site)) : Res :=
  match ys with
  | (_, y) :: _ =>
    if ys.any fun z => z.2.fmt.map (fun f => (f.1, f.2.1)) != y.fmt.map fun f => (f.1, f.2.1) then
      storeRuns w (attrOf x.sc) x.ty (w.rv x.s) ys
    else
    match y.fmt with
    | some (f, frame, off) => storeBlocks w (attrOf x.sc) y f frame off (elems 16 (w.rv x.s))
    | none => w.store (attrOf x.sc) false (storeLanes x.ty (w.rv x.s) ys) .ok
  | [] => w.store (attrOf x.sc) false [] .ok

/-- VST in the state w that its walks leave, s being the state before them. -/
def vstWalked (x : VStA) (s w : State) : Res :=
  let es := vecAddrs s x.ty x.sel (seqAddr s x.a x.ofs x.ty)
  let first := (es.map (·.2)).headD 0
  let n := x.ty.width / 8
  match checkElems (fun a => (w.check w.ctx .store false n first a n).bind
      (vstShape w (s.rg x.a + sx x.ofs) (decide (es.length = x.ty.count)) first a)) (some first) es with
  | .error t => .trap w t
  | .ok ys => vstChecked x w ys

/-- Alone, VST stands behind no store of a pair word. -/
theorem exec_vst (x : VStA) (s : State) :
    exec (.vst x) s = Res.finish (notRecordable s fun s => memOp s fun s =>
      s.walked (x.ty.width / 8) ((vecAddrs s x.ty x.sel (seqAddr s x.a x.ofs x.ty)).map (·.2)) (vstWalked x s)) s := rfl

theorem exec_vst_checked {s w : State} (hs : s.unheld) {x : VStA} {es : List (Nat × Word)} {ys : List (Nat × Site)}
    (hes : vecAddrs s x.ty x.sel (seqAddr s x.a x.ofs x.ty) = es) (hw : s.walkedTo (x.ty.width / 8) (es.map (·.2)) = w)
    (hwalk : s.walkable (x.ty.width / 8) (es.map (·.2)))
    (hsites : checkElems (fun a => (w.check w.ctx .store false (x.ty.width / 8) ((es.map (·.2)).headD 0) a (x.ty.width / 8)).bind
      (vstShape w (s.rg x.a + sx x.ofs) (decide (es.length = x.ty.count)) ((es.map (·.2)).headD 0) a))
      (some ((es.map (·.2)).headD 0)) es = .ok ys) :
    exec (.vst x) s = (vstChecked x w ys).finish s := by
  rw [exec_vst, notRecordable_unheld hs, memOp_free hs.memFree, hes, walked_ready hs.1.1 hwalk, hw, vstWalked, hes, hsites]

section
variable {x : VStA} {w : State} {ys : List (Nat × Site)}

theorem vstChecked_plain (hplain : ∀ y ∈ ys, y.2.fmt = none) :
    vstChecked x w ys = w.store (attrOf x.sc) false (storeLanes x.ty (w.rv x.s) ys) .ok := by
  match ys with
  | [] => rfl
  | (i, y) :: r =>
    have hy : y.fmt = none := hplain (i, y) List.mem_cons_self
    have hone : ¬((i, y) :: r).any (fun z => z.2.fmt.map (fun f => (f.1, f.2.1)) != y.fmt.map fun f => (f.1, f.2.1)) = true := by
      rw [Bool.not_eq_true, List.any_eq_false]
      intro z hz
      simp [hplain z hz, hy]
    rw [vstChecked, if_neg hone, hy]

theorem vstChecked_blocks {f frame off i : Nat} {y : Site} {r : List (Nat × Site)} (hys : ys = (i, y) :: r)
    (hpage : ∀ z ∈ ys, z.2.fmt.map (fun f => (f.1, f.2.1)) = some (f, frame)) (hy : y.fmt = some (f, frame, off)) :
    vstChecked x w ys = storeBlocks w (attrOf x.sc) y f frame off (elems 16 (w.rv x.s)) := by
  subst hys
  have hone : ¬((i, y) :: r).any (fun z => z.2.fmt.map (fun f => (f.1, f.2.1)) != y.fmt.map fun f => (f.1, f.2.1)) = true := by
    rw [Bool.not_eq_true, List.any_eq_false]
    intro z hz
    simp [hpage z hz, hy]
  rw [vstChecked, if_neg hone, hy]

theorem vstChecked_mixed
    (hmixed : ∃ y ∈ ys, ∃ z ∈ ys, y.2.fmt.map (fun f => (f.1, f.2.1)) ≠ z.2.fmt.map fun f => (f.1, f.2.1)) :
    vstChecked x w ys = storeRuns w (attrOf x.sc) x.ty (w.rv x.s) ys := by
  match ys with
  | [] => exact absurd hmixed (by simp)
  | (i, y) :: r =>
    have hany : ((i, y) :: r).any (fun z => z.2.fmt.map (fun f => (f.1, f.2.1)) != y.fmt.map fun f => (f.1, f.2.1)) = true := by
      by_contra hnone
      have hsame : ∀ z ∈ (i, y) :: r, z.2.fmt.map (fun f => (f.1, f.2.1)) = y.fmt.map fun f => (f.1, f.2.1) := by
        simpa only [List.any_eq_true, bne_iff_ne, not_exists, not_and, not_not] using hnone
      obtain ⟨a, ha, b, hb, hne⟩ := hmixed
      exact hne ((hsame a ha).trans (hsame b hb).symm)
    exact if_pos hany

end

theorem storeBlocks_stored {w : State} {sc : Option ScopePfx} {y : Site} {f frame off : Nat} {vals : List Nat}
    (hnone : enabledException w (encodeBlocks w f frame off vals).2.2 = none)
    (hstore : w.storable (attrOf sc) false [⟨y, (encodeBlocks w f frame off vals).1, 0⟩]) :
    storeBlocks w (attrOf sc) y f frame off vals =
      .ok (((w.storedLanes sc [⟨y, (encodeBlocks w f frame off vals).1, 0⟩]).addFlags (encodeBlocks w f frame off vals).2.2).setSrg
        (encodeBlocks w f frame off vals).2.1) := by
  have hpast : w.past (([] : List Put).flatMap (·.bytes)) = w := rfl
  have hjoin (puts : List Put) : joinPuts [] puts = puts := rfl
  rw [storeBlocks, hpast]
  dsimp only
  rw [hnone]
  dsimp only
  rw [hjoin, store_lanes hstore]

/-! ## The statements -/

theorem vectorStoresComplete : Statements.VectorStoresComplete := by
  intro s hs
  refine ⟨fun x ys => ?_, fun x ys => ?_, fun x ys => ?_⟩
  · intro es first n w hwalk hsites
    have hexec := exec_vst_checked (w := w) hs rfl rfl hwalk hsites
    refine ⟨fun hplain hstore => ?_, fun f frame off hpage hhead => ?_, fun hmixed => ?_⟩
    · rw [hexec, vstChecked_plain hplain, store_lanes hstore, finish_ok]
      rfl
    · intro e puts hnone hstore
      obtain ⟨⟨i, y⟩, hfirst, hy⟩ := Option.bind_eq_some_iff.mp hhead
      obtain ⟨r, hys⟩ := List.head?_eq_some_iff.mp hfirst
      have hputs : puts = [⟨y, e.1, 0⟩] := by
        show (ys.head?.map _).toList = _
        rw [hfirst]
        rfl
      rw [hputs] at hstore ⊢
      rw [hexec, vstChecked_blocks hys hpage hy, storeBlocks_stored hnone hstore, finish_ok]
      rfl
    · rw [hexec, vstChecked_mixed hmixed]
  · intro es first n w hwalk hsites hstore
    rw [exec_vsts]
    exact vecStore_stored (w := w) hs rfl rfl hwalk hsites hstore
  · intro es first n w hwalk hsites hstore
    rw [exec_vscat]
    exact vecStore_stored (w := w) hs rfl rfl hwalk hsites hstore

/-- Settles O19: the elements' checks are passed, and what is left is one read of their parts or one store of their bytes. -/
theorem vectorMemoryForms : Obligations.VectorMemoryForms := ⟨vectorLoadsComplete, cleanReadsServe, vectorStoresComplete⟩

end Sys2Proof.Machine
end

section
/-! SUPPORT. The loom's operations as they complete, and the sums of their elements (R97, R156, R157). -/

namespace Sys2Proof.Machine

theorem exec_loomOpComplete (c : CoreIx) (s : State) : exec (.loomOpComplete c) s = .next (s.completeLoom c) := rfl

theorem exec_gangForm (k : StrandIx) (s : State) : exec (.gangForm k) s = .next (s.tryFormGang k) := rfl

/-! ## Completion (R156) -/

theorem modOwner_resident {s : State} {k : StrandIx} {gen : BitVec 8} (hlive : (s.strand k).live = true)
    (hgen : (s.strand k).gen = gen) (f : Strand → Strand) : s.modOwner k gen f = s.modStrand k f := by
  have hown : ((s.strand k).live && (s.strand k).gen == gen) = true := by rw [hlive, hgen]; simp
  exact if_pos hown

/-- A core's oldest operation, its operands read without an error, in a strand that is still there, and with no update of its gang
left. -/
theorem completeLoom_oldest {s : State} {c : CoreIx} {o : LoomOp} {rest : List LoomOp} (hq : (s.coreRec c).loomq = o :: rest)
    (hbad : o.bad = none) (hlive : (s.strand o.strand).live = true) (hgen : (s.strand o.strand).gen = o.gen) {r : Tile × Num.Flags}
    (hr : o.update (Tab.get 0 (s.coreRec c).acc o.tile) = r) {u : State}
    (hu : ((s.modCore c fun x => { x with loomq := rest, acc := Tab.set x.acc o.tile r.1 }).modStrand o.strand fun x =>
      { mergeFlags x r.2 with loomErr := x.loomErr }) = u)
    (hlast : ∀ p, p < 8 → ∀ q ∈ (u.coreRec (loomCore c p)).loomq, q.id ≠ o.id) :
    s.completeLoom c = [tileOf (loomCore c 0), tileOf (loomCore c 4)].foldl (fun s t =>
      s.modTile t fun u => { u with claims := u.claims.filter fun cl => cl.op != o.id }) u := by
  have hdone : ¬((List.range 8).any fun p => (u.coreRec (loomCore c p)).loomq.any fun q => q.id == o.id) = true := by
    simpa using hlast
  have herr (x : Strand) : x.loomErr.or none = x.loomErr := Option.or_none
  unfold State.completeLoom
  rw [hq]
  simp only [hbad, Option.isSome_none, Bool.false_eq_true, if_false, hr, herr]
  rw [modOwner_resident (s := s.modCore c _) hlive hgen, hu, if_neg hdone]

/-! ## The elements of an update (R97, R157) -/

/-- A word of a tile that is laid out from its words in order. -/
theorem tileOfWords_word {ws : List Nat} (hlen : ws.length = 256) (n : Nat) :
    (tileOfWords ws).extractLsb' (32 * n) 32 = BitVec.ofNat 32 (ws.getD n 0) := by
  have hfit : packElems 32 ws < 2 ^ 8192 := (packElems_lt 32 ws).trans_eq (by rw [hlen])
  have hnat : (tileOfWords ws).toNat = packElems 32 ws := toNat_ofNat_of_fits hfit
  apply BitVec.eq_of_toNat_eq
  rw [BitVec.extractLsb'_toNat, hnat, Nat.shiftRight_eq_div_pow, Nat.mul_comm 32, packElems_digit, BitVec.toNat_ofNat]

/-- Element (i, j) of the updated tile. -/
theorem update_elem (o : LoomOp) (t : Tile) {i j : Nat} (hi : i < 16) (hj : j < 16) :
    (o.update t).1.extractLsb' (32 * (16 * i + j)) 32 = BitVec.ofNat 32 (o.elem (tileElem t i j) i j).1 := by
  have hn : 16 * i + j < 256 := by omega
  have hi' : (16 * i + j) / 16 = i := by omega
  have hj' : (16 * i + j) % 16 = j := by omega
  unfold LoomOp.update
  rw [tileOfWords_word (by simp)]
  simp [hn, hi', hj']

section
variable {o : LoomOp} (hdense : o.present = [])
include hdense

/-- A dense operand's products, each marked as present. -/
theorem elem_dense (x i j : Nat) :
    o.elem x i j =
      (let ps := (o.a.getD i []).zip ((o.b.getD j []).zip (List.replicate o.k true))
       if o.ty = .i8 then
         Num.wrap true 32 (ps.foldl (fun t (a, b, p) =>
           if p then t + Num.readInt true 8 a.1 * Num.readInt true 8 b.1 else t) (Num.readInt true 32 x))
       else loomSum o.ty (o.k / 4) ps (x, 0)) := by
  unfold LoomOp.elem
  rw [hdense]
  rfl

theorem elem_i8 (hty : o.ty = .i8) (x i j : Nat) :
    o.elem x i j = Num.wrap true 32 (((o.a.getD i []).zip ((o.b.getD j []).zip (List.replicate o.k true))).foldl
      (fun t (a, b, _) => t + Num.readInt true 8 a.1 * Num.readInt true 8 b.1) (Num.readInt true 32 x)) := by
  rw [elem_dense hdense]
  dsimp only
  rw [if_pos hty]
  congr 1
  refine List.foldl_ext _ _ _ fun t p hp => ?_
  have hpresent : p.2.2 = true := List.eq_of_mem_replicate (List.of_mem_zip (List.of_mem_zip hp).2).2
  exact if_pos hpresent

theorem elem_float (hty : o.ty ≠ .i8) (x i j : Nat) :
    o.elem x i j = loomSum o.ty (o.k / 4) ((o.a.getD i []).zip ((o.b.getD j []).zip (List.replicate o.k true))) (x, 0) := by
  rw [elem_dense hdense]
  exact if_neg hty

end

/-! ## Groups of four (R97, R157) -/

/-- A group with none of its products present adds nothing. -/
theorem loomSum_absent {ps : List ((Nat × Nat) × (Nat × Nat) × Bool)} (h : ∀ p ∈ ps.take 4, p.2.2 = false) (t : Ty) (m x : Nat)
    (f : Num.Flags) : loomSum t (m + 1) ps (x, f) = loomSum t m (ps.drop 4) (x, f) := by
  have hnone : (ps.take 4).filter (fun p => p.2.2) = [] := by simpa [List.filter_eq_nil_iff] using h
  rw [loomSum, hnone]
  exact congrArg (fun g => loomSum t m (ps.drop 4) (x, g)) BitVec.or_zero

theorem loomSum_present {ps : List ((Nat × Nat) × (Nat × Nat) × Bool)} (hps : ps ≠ []) (h : ∀ p ∈ ps.take 4, p.2.2 = true) (t : Ty)
    (m x : Nat) (f : Num.Flags) :
    loomSum t (m + 1) ps (x, f) =
      (let g := loomGroup ((ps.take 4).map fun p => Num.mulVal (loomVal t p.1) (loomVal t p.2.1)) x
       loomSum t m (ps.drop 4) (g.1, f ||| g.2)) := by
  have hall : (ps.take 4).filter (fun p => p.2.2) = ps.take 4 := List.filter_eq_self.mpr h
  have hsome : ¬(ps.take 4).isEmpty = true := by simpa using hps
  rw [loomSum, hall]
  dsimp only
  rw [if_neg hsome]

/-- A sum's specials: a NaN, or infinities of both signs. -/
theorem specials_iff (vs : List Num.Val) :
    (vs.any Num.Val.isNan || ((vs.any fun v => v == .inf false) && vs.any fun v => v == .inf true)) = true ↔
      (∃ v ∈ vs, v.isNan = true) ∨ (.inf false ∈ vs ∧ .inf true ∈ vs) := by
  simp only [Bool.or_eq_true, Bool.and_eq_true, List.any_eq_true, beq_iff_eq, exists_eq_right]

/-- A group with no specials among its products is one sum with the accumulator. -/
theorem loomGroup_sum {ps : List (Num.Val × Bool)} (x : Nat)
    (h : ¬((∃ v ∈ ps.map (·.1), v.isNan = true) ∨ (.inf false ∈ ps.map (·.1) ∧ .inf true ∈ ps.map (·.1)))) :
    loomGroup ps x = Num.sumVals .f32 .nearestEven 0 false (ps.map (·.1) ++ [Num.decode .f32 x]) :=
  if_neg (mt (specials_iff _).mp h)

/-- And with specials, the canonical NaN. -/
theorem loomGroup_nan {ps : List (Num.Val × Bool)} (x : Nat)
    (h : (∃ v ∈ ps.map (·.1), v.isNan = true) ∨ (.inf false ∈ ps.map (·.1) ∧ .inf true ∈ ps.map (·.1))) :
    (loomGroup ps x).1 = Num.Fmt.nan .f32 := congrArg Prod.fst (if_pos ((specials_iff _).mpr h))

/-! ## A sum's specials (R78, R80) -/

theorem any_inf_eq_false {vs : List Num.Val} {n : Bool} (h : .inf n ∉ vs) : (vs.any fun t => t == .inf n) = false :=
  List.any_eq_false.mpr fun _ hv heq => h (eq_of_beq heq ▸ hv)

section
variable {vs : List Num.Val} (f : Num.Fmt) (mode : RMode) (u : Nat) (invalid : Bool)

theorem sumVals_nan (h : (∃ v ∈ vs, v.isNan = true) ∨ (.inf false ∈ vs ∧ .inf true ∈ vs)) :
    (Num.sumVals f mode u invalid vs).1 = f.nan := congrArg Prod.fst (if_pos ((specials_iff _).mpr h))

variable (hnan : ∀ v ∈ vs, v.isNan = false)
include hnan

/-- One sign of infinity alone is the sum. -/
theorem sumVals_inf {n : Bool} (hin : .inf n ∈ vs) (hout : .inf (!n) ∉ vs) :
    Num.sumVals f mode u invalid vs = (Num.infOf f n, 0) := by
  have hno : vs.any Num.Val.isNan = false := List.any_eq_false.mpr fun v hv => by simp [hnan v hv]
  have hyes : (vs.any fun t => t == .inf n) = true := List.any_eq_true.mpr ⟨_, hin, by simp⟩
  have hother := any_inf_eq_false hout
  unfold Num.sumVals
  cases n with
  | false =>
    rw [Bool.not_false] at hother
    simp only [hno, hyes, hother]
    rfl
  | true =>
    rw [Bool.not_true] at hother
    simp only [hno, hyes, hother]
    rfl

theorem sumVals_finite (hpos : .inf false ∉ vs) (hneg : .inf true ∉ vs) :
    Num.sumVals f mode u invalid vs = Num.roundTo f mode u (Num.sumExact mode (Num.finTerms vs)) := by
  have hno : vs.any Num.Val.isNan = false := List.any_eq_false.mpr fun v hv => by simp [hnan v hv]
  unfold Num.sumVals
  simp only [hno, any_inf_eq_false hpos, any_inf_eq_false hneg]
  rfl

end

/-! ## A group with its accumulator (R157) -/

section
variable {ps : List (Num.Val × Bool)} {x : Nat}

theorem loomGroup_special
    (h : (∃ v ∈ ps.map (·.1) ++ [Num.decode .f32 x], v.isNan = true) ∨
      (.inf false ∈ ps.map (·.1) ++ [Num.decode .f32 x] ∧ .inf true ∈ ps.map (·.1) ++ [Num.decode .f32 x])) :
    (loomGroup ps x).1 = Num.Fmt.nan .f32 := by
  by_cases hproducts : (∃ v ∈ ps.map (·.1), v.isNan = true) ∨ (.inf false ∈ ps.map (·.1) ∧ .inf true ∈ ps.map (·.1))
  · exact loomGroup_nan x hproducts
  · rw [loomGroup_sum x hproducts]
    exact sumVals_nan _ _ _ _ h

/-- Without a NaN, and without one sign of infinity, the group and the accumulator are one sum. -/
theorem loomGroup_one_sum {n : Bool} (h : ∀ v ∈ ps.map (·.1) ++ [Num.decode .f32 x], v.isNan = false ∧ v ≠ .inf n) :
    loomGroup ps x = Num.sumVals .f32 .nearestEven 0 false (ps.map (·.1) ++ [Num.decode .f32 x]) := by
  have hproducts {v : Num.Val} (hv : v ∈ ps.map (·.1)) := h v (List.mem_append_left _ hv)
  refine loomGroup_sum x ?_
  rintro (⟨v, hv, hnan⟩ | ⟨hpos, hneg⟩)
  · exact Bool.false_ne_true ((hproducts hv).1.symm.trans hnan)
  · cases n
    · exact (hproducts hpos).2 rfl
    · exact (hproducts hneg).2 rfl

theorem loomGroup_inf {n : Bool} (h : ∀ v ∈ ps.map (·.1) ++ [Num.decode .f32 x], v.isNan = false ∧ v ≠ .inf !n)
    (hin : .inf n ∈ ps.map (·.1) ++ [Num.decode .f32 x]) : loomGroup ps x = (Num.infOf .f32 n, 0) := by
  rw [loomGroup_one_sum h]
  exact sumVals_inf _ _ _ _ (fun v hv => (h v hv).1) hin fun hmem => (h _ hmem).2 rfl

theorem loomGroup_finite
    (h : ∀ v ∈ ps.map (·.1) ++ [Num.decode .f32 x], v.isNan = false ∧ v ≠ .inf false ∧ v ≠ .inf true) :
    loomGroup ps x =
      Num.roundTo .f32 .nearestEven 0 (Num.sumExact .nearestEven (Num.finTerms (ps.map (·.1) ++ [Num.decode .f32 x]))) := by
  rw [loomGroup_one_sum (n := false) fun v hv => ⟨(h v hv).1, (h v hv).2.1⟩]
  exact sumVals_finite _ _ _ _ (fun v hv => (h v hv).1) (fun hmem => (h _ hmem).2.1 rfl) fun hmem => (h _ hmem).2.2 rfl

end

/-! ## Gangs that form (R154) -/

/-- A member's own operation is found with the width it has. -/
theorem find_member {gs : List GangReq} {x : GangReq} {k : StrandIx} (h : gs.find? (fun y => y.strand = x.strand) = some x)
    (hwide : 1 < x.cores.length) :
    gs.find? (fun y => y.strand == x.strand && (x.strand == k || decide (1 < y.cores.length))) = some x := by
  obtain ⟨-, before, after, hgs, hbefore⟩ := List.find?_eq_some_iff_append.mp h
  refine List.find?_eq_some_iff_append.mpr ⟨by simp [hwide], before, after, hgs, fun y hy => ?_⟩
  have hother : y.strand ≠ x.strand := by simpa using hbefore y hy
  simp [hother]

/-- A gang whose members have all arrived, with one descriptor, no operand at fault, and every comparator and place it needs. -/
theorem tryFormGang_complete {s : State} {k : StrandIx} {r low : GangReq} {rs : List GangReq}
    (hfind : s.gangs.find? (fun r => r.strand = k) = some r) (hlow : rs.head? = some low)
    (hks : rs.map (·.strand) = r.cores.map fun c => strandAt c (slotOf k))
    (hthere : ∀ c ∈ r.cores, s.holds c (s.strand k).wid = true ∧ (s.strand (strandAt c (slotOf k))).live = true ∧
      (s.strand (strandAt c (slotOf k))).wid = (s.strand k).wid)
    (hmember : ∀ x ∈ rs, s.gangs.find? (fun y => y.strand = x.strand) = some x ∧ 1 < x.cores.length ∧ x.descr = r.descr ∧
      s.memberFault x (x.strand == low.strand) = none)
    (hready : s.gangReady (s.gangClaims s.fresh.1 low rs) low rs = true) : s.tryFormGang k = s.startGang k low rs := by
  have hunbroken : ¬(r.cores.zip (r.cores.map fun c => strandAt c (slotOf k))).any (fun (c, m) =>
      !s.holds c (s.strand k).wid || !(s.strand m).live || (s.strand m).wid != (s.strand k).wid) = true := by
    have hzip : r.cores.zip (r.cores.map fun c => strandAt c (slotOf k)) = r.cores.map fun c => (c, strandAt c (slotOf k)) := by
      simpa using List.zip_map' (f := id) (g := fun c => strandAt c (slotOf k)) (l := r.cores)
    rw [hzip, List.any_map, Bool.not_eq_true, List.any_eq_false]
    intro c hc
    obtain ⟨hholds, hlive, hwid⟩ := hthere c hc
    simp [hholds, hlive, hwid]
  have hmembers : (rs.map (·.strand)).filterMap (fun m => s.gangs.find? fun x => x.strand == m && (m == k || decide (1 < x.cores.length)))
      = rs := by
    rw [List.filterMap_map]
    exact (List.filterMap_congr fun x hx => find_member (hmember x hx).1 (hmember x hx).2.1).trans List.filterMap_some
  have hall : ¬rs.length < (rs.map (·.strand)).length := by simp
  have hdescr : ¬rs.any (fun x => x.descr != r.descr) = true := by
    simpa using fun x hx => (hmember x hx).2.2.1
  have hfaults : ¬(rs.map fun x => (x, s.memberFault x (x.strand == low.strand))).any (fun f => f.2.isSome) = true := by
    simpa using fun x hx => (hmember x hx).2.2.2
  have hhead : rs.headD r = low := by rw [List.headD_eq_head?_getD, hlow]; rfl
  unfold State.tryFormGang
  rw [hfind]
  dsimp only
  rw [if_neg hunbroken, ← hks, hmembers, if_neg hall, if_neg hdescr, hhead, if_neg hfaults, hready, if_neg (by decide), List.foldl_map]
  rfl

end Sys2Proof.Machine
end

section
/-! SUPPORT. The treadle's next entry in its pass, and what a pass gives back (R140, R141). -/

namespace Sys2Proof.Machine

/-! ## The current strand's next entry (R140) -/

theorem exec_treadleEntryIssue (k : StrandIx) (s : State) : exec (.treadleEntryIssue k) s = execTreadleEntryIssue k s := rfl

theorem switchTo_self {u : State} {k : StrandIx} (h : u.cur = k) : u.switchTo k = u := if_pos h.symm

theorem exec_treadleEntryIssue_current {s : State} {e : TrEntry} (hlive : s.me.live = true) (hrun : s.me.tr.st = .running)
    (hstop : s.me.tr.stop = false ∨ s.me.tr.between = false) (hentry : s.me.tr.entries[s.me.tr.ix]? = some e)
    (hheld : s.passHeld s.me = false) (hisland : s.islandHeld s.core = false) :
    exec (.treadleEntryIssue s.cur) s = .next ((s.issueEntry e).switchTo s.cur) := by
  have hgo : (s.me.live && s.me.tr.st == .running && !(s.me.tr.stop && s.me.tr.between) && !s.passHeld s.me &&
      !s.islandHeld (coreOf s.cur)) = true := by
    have hpass : (s.me.tr.stop && s.me.tr.between) = false := by rcases hstop with h | h <;> simp [h]
    have hcore : s.islandHeld (coreOf s.cur) = false := hisland
    simp [hlive, hrun, hpass, hheld, hcore]
  rw [exec_treadleEntryIssue, execTreadleEntryIssue, State.strand_cur]
  rw [if_pos hgo, hentry, switchTo_self rfl]
  rfl

section
variable {s : State} {e : TrEntry}

/-- An entry whose guard is not met only steps the passes on. -/
theorem issueEntry_skipped (h : State.rp { s with me := s.me.passView e } e.guard.p = e.guard.neg) :
    s.issueEntry e = { s with me := { s.me with tr := s.me.tr.advance } } := by
  unfold State.issueEntry
  dsimp only
  rw [if_pos (beq_iff_eq.mpr h)]

/-- One that takes effect, in the strand as its pass sees it. -/
theorem issueEntry_done (h : State.rp { s with me := s.me.passView e } e.guard.p ≠ e.guard.neg) {u : State}
    (hu : runRecorded (s.me.tr.pass * s.me.tr.sv) (s.me.tr.pass * s.me.tr.sa) (ownedTiles s.me s.slot)
      (BitVec.ofNat 64 s.me.tr.pass * sx s.me.tr.ads) e.instr { s with me := s.me.passView e } = .ok u) :
    s.issueEntry e = { u with me := u.me.passBack s.me s.me.tr.advance } := by
  have hmet : ¬(State.rp { s with me := s.me.passView e } e.guard.p == e.guard.neg) = true := by simpa using h
  unfold State.issueEntry
  dsimp only
  rw [if_neg hmet]
  simp only [hu]

end

/-! ## What a pass gives back (R141) -/

theorem getLsbD_setBit (w : Word) (k i : Nat) (b : Bool) (hk : k < 64) (hi : i < 64) :
    (setBit w k b).getLsbD i = if k = i then b else w.getLsbD i := by
  have hbit : (1#64 <<< k).getLsbD i = decide (k = i) := by
    rw [← BitVec.twoPow_eq, BitVec.getLsbD_twoPow, decide_eq_true hk, Bool.true_and]
  unfold setBit
  cases b
  · rw [if_neg Bool.false_ne_true, BitVec.getLsbD_and, BitVec.getLsbD_not, hbit]
    by_cases h : k = i <;> simp [h, hi]
  · rw [if_pos rfl, BitVec.getLsbD_or, hbit]
    by_cases h : k = i <;> simp [h]

theorem setBit_same (w : Word) (k : Nat) (hk : k < 64) : setBit w k (w.getLsbD k) = w := by
  refine BitVec.eq_of_getLsbD_eq fun i hi => ?_
  rw [getLsbD_setBit _ _ _ _ hk hi]
  split
  case isTrue h => rw [h]
  case isFalse => rfl

theorem setSys_same (x : Strand) : x.setSys x.sys = x := by
  unfold Strand.setSys Strand.sys
  rw [setBit_same _ _ (by decide)]

theorem Treadle.advance_rmode (tr : Treadle) : tr.advance.rmode = tr.rmode := by
  unfold Treadle.advance; split <;> rfl

/-- A pass that captured no register, in the strand's own mode. -/
theorem passView_plain {x : Strand} {e : TrEntry} (hcaps : e.caps = []) (hsys : x.tr.sys = x.sys) :
    x.passView e =
      { x with stage := x.tr.stage, tr := { x.tr with st := .idle, stage := .none }, p := x.tr.p, rmode := x.tr.rmode } := by
  unfold Strand.passView
  rw [hcaps, hsys, List.foldl_nil, setSys_same]

/-- A pass in the strand's own mode that cannot step the generator. -/
theorem passBack_plain {x y : Strand} (hsys : y.sys = x.sys) (hdraw : x.tr.mayDraw = false) (tr : Treadle) :
    y.passBack x tr =
      { y with
        g := x.g, sysg := x.sysg, p := x.p, stage := x.stage, waiting := x.waiting, waitSeq := x.waitSeq, rmode := x.rmode,
        tr := { tr with rmode := y.rmode } } := by
  have hsame : y.setSys x.sys = y := hsys ▸ setSys_same y
  unfold Strand.passBack
  rw [hsame, hdraw]
  rfl

/-- A vector register that such a pass writes is the strand's, and nothing else of the pass but its treadle is. -/
theorem passBack_writeV {x : Strand} {e : TrEntry} (hcaps : e.caps = []) (hsys : x.tr.sys = x.sys) (hdraw : x.tr.mayDraw = false)
    (d : VReg) (w : VecReg) :
    ((x.passView e).writeV d w).passBack x x.tr.advance = { x.writeV d w with tr := x.tr.advance } := by
  have htr : { x.tr.advance with rmode := x.tr.rmode } = x.tr.advance := by rw [← x.tr.advance_rmode]
  have hview := passView_plain hcaps hsys
  have hmode : ((x.passView e).writeV d w).sys = x.sys := by rw [hview]; rfl
  rw [passBack_plain hmode hdraw, hview]
  exact congrArg (fun tr => { x.writeV d w with tr := tr }) htr

/-! ## Renaming (R140) -/

theorem renA_val {owned : Nat} (n : Nat) (r : AReg) (hpos : 0 < owned) (h8 : owned ≤ 8) :
    (renA n owned r).val = (r.val + n) % owned := by
  have hlt : (r.val + n) % owned < owned := Nat.mod_lt _ hpos
  unfold renA
  rw [if_neg (by omega)]
  exact Nat.mod_eq_of_lt (by omega)

/-! ## A recorded VAND (R125, R140) -/

/-- A recordable form where no pass runs and nothing is recorded. -/
theorem recordable_idle {s : State} (hrun : ¬s.me.tr.st = .running) (hrec : s.recording = false) (i : Instr) (rs : List GReg)
    (k : State → Res) : recordable i rs s k = k s := by
  unfold recordable
  rw [if_neg hrun, hrec]
  cases k s <;> rfl

theorem runVand_idle {s : State} (hrun : ¬s.me.tr.st = .running) (hrec : s.recording = false) (x : VBin) :
    runVand x s = .ok (s.wv x.d (laneVec s x.ty x.sel x.d fun i =>
      elem (s.rv x.a) i x.ty.width &&& elem (s.rv x.b) i x.ty.width)) := by
  rw [runVand, recordable_idle hrun hrec, vecBits]
  exact bitLanes_eq ..

/-- In its pass a recorded VAND names its registers by the pass, and is neither held nor recorded. -/
theorem runRecorded_vand {v : State} (hidle : v.me.tr.st = .idle) (m na owned : Nat) (off : Word) (x : VBin) :
    runRecorded m na owned off (.vand x) v = .ok (v.wv (renV m x.d) (laneVec v x.ty x.sel (renV m x.d) fun i =>
      elem (v.rv (renV m x.a)) i x.ty.width &&& elem (v.rv (renV m x.b)) i x.ty.width)) := by
  have hrec : v.recording = false := by unfold State.recording; rw [hidle]; rfl
  have hrun : ¬v.me.tr.st = .running := by rw [hidle]; decide
  exact runVand_idle hrun hrec { x with d := renV m x.d, a := renV m x.a, b := renV m x.b }

/-- A pass that captured nothing, in the strand's own mode, reads and selects what the strand would. -/
theorem runRecorded_vand_plain {s : State} {e : TrEntry} (hcaps : e.caps = []) (hsys : s.me.tr.sys = s.me.sys) (m na owned : Nat)
    (off : Word) (x : VBin) :
    runRecorded m na owned off (.vand x) { s with me := s.me.passView e } =
      .ok { s with me := (s.me.passView e).writeV (renV m x.d) (laneVec s x.ty x.sel (renV m x.d) fun i =>
        elem (s.rv (renV m x.a)) i x.ty.width &&& elem (s.rv (renV m x.b)) i x.ty.width) } := by
  rw [passView_plain hcaps hsys]
  exact runRecorded_vand rfl m na owned off x

/-! ## The statement -/

/-- Settles O48: an operation at the head of its queue, a gang that is whole, and an entry in its pass each take their one step, and an
update's elements are its groups' sums. -/
theorem loomAndTreadleSteps : Obligations.LoomAndTreadleSteps := by
  intro s c k
  refine ⟨?_, fun o t hty hdense i hi j hj => ?_, fun r low rs hfind hlow hks hthere hmember hready => ?_,
    fun o t hty hdense i hi j hj => ?_,
    fun ty m ps x f => ⟨rfl, fun h => loomSum_absent h ty m x f, fun hps h => loomSum_present hps h ty m x f⟩,
    fun ps x => ⟨fun h => loomGroup_special (.inl h), fun hpos hneg => loomGroup_special (.inr ⟨hpos, hneg⟩),
      loomGroup_inf (n := false), loomGroup_inf (n := true), loomGroup_finite⟩, ?_, ?_, ?_⟩
  · intro o rest hq hbad hlive hgen r u hlast
    rw [exec_loomOpComplete, completeLoom_oldest (u := u) hq hbad hlive hgen rfl rfl hlast]
  · rw [update_elem o t hi hj, elem_i8 hdense hty]
    rfl
  · rw [exec_gangForm, tryFormGang_complete hfind hlow hks hthere hmember hready]
  · rw [update_elem o t hi hj, elem_float hdense hty]
    rfl
  · rintro e rfl hlive hrun hstop hentry hheld hisland
    rw [exec_treadleEntryIssue_current hlive hrun hstop hentry hheld hisland]
    refine ⟨fun hguard => ?_, fun u hguard hcur hu => ?_⟩
    · rw [issueEntry_skipped hguard, switchTo_self rfl]
    · rw [issueEntry_done hguard hu]
      exact congrArg Host.Outcome.next (switchTo_self hcur)
  · intro m na owned off u
    exact ⟨fun _ => rfl, fun r => renA_val na r, fun _ => rfl, fun _ => rfl, fun _ => rfl, fun _ => rfl, fun _ => rfl, fun _ => rfl,
      fun _ => rfl, fun _ => rfl, fun _ => rfl, fun _ => rfl, fun _ => rfl⟩
  · rintro x g rfl hlive hrun hstop hix hstage hsys hentries hheld hisland hdraw hguard
    have hentry : s.me.tr.entries[s.me.tr.ix]? = some ⟨.vand x, g, []⟩ := by rw [hentries, hix]; rfl
    rw [exec_treadleEntryIssue_current hlive hrun (.inl hstop) hentry hheld hisland,
      issueEntry_done hguard (runRecorded_vand_plain rfl hsys _ _ _ _ x), switchTo_self rfl]
    exact congrArg (fun y => Host.Outcome.next { s with me := y }) (passBack_writeV (e := ⟨.vand x, g, []⟩) rfl hsys hdraw _ _)

end Sys2Proof.Machine
end

section
/-! SUPPORT. The scalar forms that set no flag, LOOP, and the pausing forms (R99, R102, R104, R107, R112). -/

namespace Sys2Proof.Machine

/-! ## Their arms -/

theorem exec_and (x : Alu) (s : State) : exec (.and x) s = (runAnd x s).finish s := rfl

theorem exec_or (x : Alu) (s : State) : exec (.or x) s = (runOr x s).finish s := rfl

theorem exec_xor (x : Alu) (s : State) : exec (.xor x) s = (runXor x s).finish s := rfl

theorem exec_shr (x : Alu) (s : State) : exec (.shr x) s = (runShr x s).finish s := rfl

theorem exec_sra (x : Alu) (s : State) : exec (.sra x) s = (runSra x s).finish s := rfl

theorem exec_andi (x : AluI) (s : State) : exec (.andi x) s = (runAndi x s).finish s := rfl

theorem exec_ori (x : AluI) (s : State) : exec (.ori x) s = (runOri x s).finish s := rfl

theorem exec_xori (x : AluI) (s : State) : exec (.xori x) s = (runXori x s).finish s := rfl

theorem exec_shri (x : ShI) (s : State) : exec (.shri x) s = (runShri x s).finish s := rfl

theorem exec_srai (x : ShI) (s : State) : exec (.srai x) s = (runSrai x s).finish s := rfl

theorem exec_clz (x : Un) (s : State) : exec (.clz x) s = (runClz x s).finish s := rfl

theorem exec_popc (x : Un) (s : State) : exec (.popc x) s = (runPopc x s).finish s := rfl

theorem exec_movi (x : MovI) (s : State) : exec (.movi x) s = (runMovi x s).finish s := rfl

theorem exec_lea (x : LeaA) (s : State) : exec (.lea x) s = (runLea x s).finish s := rfl

theorem exec_sel (x : SelA) (s : State) : exec (.sel x) s = (runSel x s).finish s := rfl

theorem exec_loop (x : LinkD) (s : State) : exec (.loop x) s = (runLoop x s).finish s := rfl

theorem exec_nop (s : State) : exec .nop s = .next s.goesOn := rfl

theorem exec_yield (s : State) : exec .yield s = .next s.goesOn := rfl

theorem exec_sleep (a : GReg) (s : State) : exec (.sleep a) s = (runSleep a s).finish s := rfl

/-! ## Extension looks at the low w bits only (R99) -/

theorem extTy_mod (t : Ty) (y : Nat) : extTy t (y % 2 ^ t.width) = extTy t y := by
  unfold extTy Num.readInt
  rw [Nat.mod_mod]

theorem extTy_patTy (t : Ty) (a : Word) : extTy t (patTy t a) = extTy t a.toNat := extTy_mod t a.toNat

/-- A register's own w-bit pattern, extended, is its value under the type. -/
theorem extTy_patTy_eq_readTy (t : Ty) (a : Word) : extTy t (patTy t a) = BitVec.ofInt 64 (readTy t a) := extTy_patTy t a

/-- An operation bit by bit may be taken on the whole registers. -/
theorem extTy_bitwise {f : Nat → Nat → Nat} {g : Word → Word → Word}
    (hlow : ∀ {a b w : Nat}, f a b % 2 ^ w = f (a % 2 ^ w) (b % 2 ^ w)) (hword : ∀ a b, (g a b).toNat = f a.toNat b.toNat)
    (t : Ty) (a b : Word) : extTy t (f (patTy t a) (patTy t b)) = extTy t (g a b).toNat := by
  rw [hword, ← extTy_mod t (f a.toNat b.toNat), hlow, patTy, patTy]

theorem extTy_and (t : Ty) (a b : Word) : extTy t (patTy t a &&& patTy t b) = extTy t (a &&& b).toNat :=
  extTy_bitwise Nat.and_mod_two_pow BitVec.toNat_and t a b

theorem extTy_or (t : Ty) (a b : Word) : extTy t (patTy t a ||| patTy t b) = extTy t (a ||| b).toNat :=
  extTy_bitwise Nat.or_mod_two_pow BitVec.toNat_or t a b

theorem extTy_xor (t : Ty) (a b : Word) : extTy t (patTy t a ^^^ patTy t b) = extTy t (a ^^^ b).toNat :=
  extTy_bitwise Nat.xor_mod_two_pow BitVec.toNat_xor t a b

/-! ## Right shifts, scaling and the .f32 immediate (R102, R104) -/

theorem shrPat_eq_shiftRight (p n : Nat) : shrPat p n = p >>> n := (Nat.shiftRight_eq_div_pow p n).symm

/-- SRA's pattern, extended: the signed value divided toward minus infinity, wrapped into the type. -/
theorem extTy_sraPat (t : Ty) (p n : Nat) :
    extTy t (sraPat t.width p n) = BitVec.ofInt 64 (intWrap t (Num.readInt true t.width p / 2 ^ n)) := extTy_lowBits t _

theorem mul_two_pow_eq_shiftLeft (a : Word) (n : Nat) : a * BitVec.ofNat 64 (2 ^ n) = a <<< n := by
  have hpow : BitVec.ofNat 64 (2 ^ n) = BitVec.twoPow 64 n := BitVec.eq_of_toNat_eq (by rw [BitVec.toNat_ofNat, BitVec.toNat_twoPow])
  rw [hpow, BitVec.shiftLeft_eq_mul_twoPow]

theorem ofNat_mod_eq_setWidth (b : BitVec 48) : BitVec.ofNat 64 (b.toNat % 2 ^ 32) = (b.setWidth 32).setWidth 64 := by
  rw [← BitVec.toNat_setWidth, BitVec.ofNat_toNat]

/-! ## What each form writes -/

section
variable {s s0 : State}

/-- The one way a form on bit patterns ends. -/
theorem bitResult_finish (t : Ty) (d : GReg) (y : Nat) : (bitResult s t d y).finish s0 = .next (s.wg d (extTy t y)).goesOn := rfl

/-- MIN and MAX keep the operand's own pattern, whose value is the lesser or the greater one. -/
theorem minMax_int {x : Alu} (hty : x.ty.isInt = true) (mx : Bool) :
    minMax x s mx = .ok (s.wg x.d (BitVec.ofInt 64
      (if mx then max (readTy x.ty (s.rg x.a)) (readTy x.ty (s.rg x.b)) else min (readTy x.ty (s.rg x.a)) (readTy x.ty (s.rg x.b))))) := by
  unfold minMax bitResult
  dsimp only
  rw [if_neg (Ty.ne_f32_of_isInt hty), extTy_patTy_eq_readTy]
  by_cases hle : readTy x.ty (s.rg x.a) ≤ readTy x.ty (s.rg x.b)
  · cases mx <;> simp [hle]
  · cases mx <;> simp [hle, le_of_not_ge hle]

theorem runMovi_int {x : MovI} (hty : x.ty.isInt = true) :
    runMovi x s = .ok (s.wg x.d (extTy x.ty (immWord x.imm).toNat)) := by
  rw [runMovi, if_neg (Ty.ne_f32_of_isInt hty), bitResult, extTy_patTy]

theorem runMovi_f32 {x : MovI} (hty : x.ty = .f32) : runMovi x s = .ok (s.wg x.d ((x.imm.lo.setWidth 32).setWidth 64)) := by
  rw [runMovi, if_pos hty, ofNat_mod_eq_setWidth]

end

/-! ## LOOP (R107) -/

section
variable {x : LinkD} {s : State}

theorem runLoop_ends (h : s.rg x.d - 1 = 0) : runLoop x s = .ok (s.wg x.d (s.rg x.d - 1)) := if_pos h

theorem runLoop_transfers (h : s.rg x.d - 1 ≠ 0) :
    runLoop x s = (s.wg x.d (s.rg x.d - 1)).transfer (targetOf s.iss.own x.disp) false := if_neg h

end

/-! ## SLEEP (R112) -/

section
variable {a : GReg} {s : State}

theorem runSleep_zero (h : s.me.stage = .none) (ha : s.rg a = 0) : runSleep a s = .ok s := by
  unfold runSleep
  rw [h, ha]
  rfl

theorem runSleep_nonzero (h : s.me.stage = .none) (ha : s.rg a ≠ 0) :
    runSleep a s =
      .wait { s with me := { s.me with stage := .sleeping (s.cycle (dieOf s.core) + (s.rg a).toNat) } } .sleep := by
  have hcount : ¬(s.rg a).toNat = 0 := fun h => ha (BitVec.eq_of_toNat_eq h)
  unfold runSleep
  rw [h]
  exact if_neg hcount

theorem runSleep_sleeping {n : Nat} (h : s.me.stage = .sleeping n) :
    runSleep a s = if n ≤ s.cycle (dieOf s.core) then .ok s else .wait s .sleep := by
  unfold runSleep
  rw [h]

end

/-! ## The statements -/

/-- Settles O3: each form writes one pattern extended under its type, and extension looks at the pattern's low bits only. -/
theorem scalarNoFlagForms : Obligations.ScalarNoFlagForms := by
  intro s
  refine ⟨fun x _ => ⟨?_, ?_, ?_, ?_, ?_⟩, fun x hty => ⟨?_, ?_⟩, fun x _ => ⟨?_, ?_, ?_⟩, fun x _ => ⟨?_, ?_⟩, fun x => ⟨?_, ?_⟩,
    fun x hty => ?_, fun x hty => ?_, fun x => ?_, fun x => ?_⟩
  · rw [exec_and, runAnd, bitwise, bitResult_finish, extTy_and]
  · rw [exec_or, runOr, bitwise, bitResult_finish, extTy_or]
  · rw [exec_xor, runXor, bitwise, bitResult_finish, extTy_xor]
  · rw [exec_shr, runShr, bitResult_finish, shrPat_eq_shiftRight, patTy, shiftCount]
  · rw [exec_sra, runSra, bitResult_finish, extTy_sraPat, patTy, shiftCount]
  · rw [exec_min, runMin, minMax_int hty, finish_ok]; rfl
  · rw [exec_max, runMax, minMax_int hty, finish_ok]; rfl
  · rw [exec_andi, runAndi, bitwiseImm, bitResult_finish, extTy_and]
  · rw [exec_ori, runOri, bitwiseImm, bitResult_finish, extTy_or]
  · rw [exec_xori, runXori, bitwiseImm, bitResult_finish, extTy_xor]
  · rw [exec_shri, runShri, bitResult_finish, shrPat_eq_shiftRight, patTy]
  · rw [exec_srai, runSrai, bitResult_finish, extTy_sraPat, patTy]
  · rw [exec_clz, runClz, finish_ok, patTy]
  · rw [exec_popc, runPopc, finish_ok, patTy]
  · rw [exec_movi, runMovi_int hty, finish_ok]
  · rw [exec_movi, runMovi_f32 hty, finish_ok]
  · rw [exec_lea, runLea, finish_ok, mul_two_pow_eq_shiftLeft]
  · rw [exec_sel, runSel, finish_ok, State.rp]

/-- Settles O6: past the decrement, LOOP is either done or one transfer, which lands or raises the cause it found. -/
theorem loopDecrementsThenTests : Obligations.LoopDecrementsThenTests := by
  intro x s
  refine ⟨fun hc => ?_, fun l hc hl => ?_, fun f hc hrun hf => ?_⟩
  · rw [exec_loop, runLoop_ends hc, finish_ok]
  · rw [exec_loop, runLoop_transfers hc, hl.transfer]
  · rw [exec_loop, runLoop_transfers hc, finish_transfer_error hf hrun]

/-- Settles O9: NOP and YIELD are done at once, and a SLEEP's turn compares either its count with zero or its end with the die's cycle. -/
theorem pausingForms : Obligations.PausingForms := by
  intro a s
  refine ⟨exec_nop s, exec_yield s, fun hst ha => ?_, fun hst ha => ?_, fun n hst hn => ?_, fun n hst hn => ?_⟩
  · rw [exec_sleep, runSleep_zero hst ha, finish_ok]
  · rw [exec_sleep, runSleep_nonzero hst ha, finish_wait]
  · rw [exec_sleep, runSleep_sleeping hst, if_pos hn, finish_ok]
  · rw [exec_sleep, runSleep_sleeping hst, if_neg (Nat.not_le.mpr hn), finish_wait]

end Sys2Proof.Machine
end

section
/-! SUPPORT. The vector forms that move bits: what each puts in a selected lane, none raising a flag (R124, R125, R127). -/

namespace Sys2Proof.Machine

/-- A form whose lanes move bits has completed. -/
theorem bitLanes_finish (s s0 : State) (t : Ty) (d : VReg) (sel : VSel) (f : Nat → Nat) :
    (bitLanes s t d sel f).finish s0 = .next (s.wv d (laneVec s t sel d f)).goesOn := by
  rw [bitLanes_eq, finish_ok]

/-- VMIN on integers keeps a lane of the first register where it is not above the second's. -/
theorem vecMin_int {x : VBin} (hty : x.ty.isInt = true) (s : State) :
    vecMinMax x s false = bitLanes s x.ty x.d x.sel fun i =>
      if ival x.ty (s.rv x.a) i ≤ ival x.ty (s.rv x.b) i then elem (s.rv x.a) i x.ty.width else elem (s.rv x.b) i x.ty.width := by
  unfold vecMinMax
  simp only [Ty.isFloat_of_isInt hty, Bool.bne_false, decide_eq_true_eq]
  rfl

/-- VMAX on integers gives the lane VMIN does not. -/
theorem vecMax_int {x : VBin} (hty : x.ty.isInt = true) (s : State) :
    vecMinMax x s true = bitLanes s x.ty x.d x.sel fun i =>
      if ival x.ty (s.rv x.a) i ≤ ival x.ty (s.rv x.b) i then elem (s.rv x.b) i x.ty.width else elem (s.rv x.a) i x.ty.width := by
  unfold vecMinMax
  simp only [Ty.isFloat_of_isInt hty, Bool.bne_true, Bool.not_eq_true', decide_eq_false_iff_not, ite_not]
  rfl

theorem vecSign_float {x : VUnS} (hty : x.ty.isFloat = true) (s : State) (bits : Nat → Nat) (int : Int → Int) :
    vecSign x s bits int = bitLanes s x.ty x.d x.sel fun i => bits (elem (s.rv x.a) i x.ty.width) := if_pos hty

/-! ## Their arms, where nothing holds them back -/

section
variable {s : State} (h : s.unheld)
include h

theorem exec_vand_unheld (x : VBin) : exec (.vand x) s = (vecBits x s (· &&& ·)).finish s :=
  congrArg (Res.finish · s) (recordable_unheld h ..)

theorem exec_vor_unheld (x : VBin) : exec (.vor x) s = (vecBits x s (· ||| ·)).finish s :=
  congrArg (Res.finish · s) (recordable_unheld h ..)

theorem exec_vxor_unheld (x : VBin) : exec (.vxor x) s = (vecBits x s (· ^^^ ·)).finish s :=
  congrArg (Res.finish · s) (recordable_unheld h ..)

theorem exec_vshr_unheld (x : VBin) : exec (.vshr x) s = (vecShr s x.ty x.d x.a x.sel (laneCount x.ty (s.rv x.b))).finish s :=
  congrArg (Res.finish · s) (recordable_unheld h ..)

theorem exec_vshrImm_unheld (x : VShI) : exec (.vshrImm x) s = (vecShr s x.ty x.d x.a x.sel fun _ => x.s.val).finish s :=
  congrArg (Res.finish · s) (recordable_unheld h ..)

theorem exec_vsra_unheld (x : VBin) : exec (.vsra x) s = (vecSra s x.ty x.d x.a x.sel (laneCount x.ty (s.rv x.b))).finish s :=
  congrArg (Res.finish · s) (recordable_unheld h ..)

theorem exec_vsraImm_unheld (x : VShI) : exec (.vsraImm x) s = (vecSra s x.ty x.d x.a x.sel fun _ => x.s.val).finish s :=
  congrArg (Res.finish · s) (recordable_unheld h ..)

theorem exec_vrot_unheld (x : VShI) : exec (.vrot x) s =
    (bitLanes s x.ty x.d x.sel fun i => elem (s.rv x.a) ((i + x.s.val) % x.ty.count) x.ty.width).finish s :=
  congrArg (Res.finish · s) (recordable_unheld h ..)

theorem exec_vmov_unheld (x : VUn) :
    exec (.vmov x) s = (bitLanes s x.ty x.d x.sel fun i => elem (s.rv x.a) i x.ty.width).finish s :=
  congrArg (Res.finish · s) (recordable_unheld h ..)

theorem exec_vexpand_unheld (x : VUn) : exec (.vexpand x) s =
    (bitLanes s x.ty x.d x.sel fun i => elem (s.rv x.a) (rankBelow (s.vsel x.ty x.sel) i) x.ty.width).finish s :=
  congrArg (Res.finish · s) (recordable_unheld h ..)

theorem exec_vbcast_unheld (x : VBcA) :
    exec (.vbcast x) s = (bitLanes s x.ty x.d x.sel fun _ => (s.rg x.a).toNat % 2 ^ x.ty.width).finish s :=
  congrArg (Res.finish · s) (recordable_unheld h ..)

theorem exec_vbcastImm_unheld (x : VBcI) :
    exec (.vbcastImm x) s = (bitLanes s x.ty x.d x.sel fun _ => (sx x.imm).toNat % 2 ^ x.ty.width).finish s :=
  congrArg (Res.finish · s) (recordable_unheld h ..)

theorem exec_vperm_unheld (x : VPermA) : exec (.vperm x) s = (bitLanes s x.ty x.d x.sel fun i =>
    let u := elem (s.rv x.b) i x.ty.width
    if u < x.ty.count then elem (s.rv x.a) u x.ty.width
    else if u < 2 * x.ty.count then elem (s.rv x.c) (u - x.ty.count) x.ty.width else 0).finish s :=
  congrArg (Res.finish · s) (recordable_unheld h ..)

theorem exec_viota_unheld (x : VIotaA) : exec (.viota x) s =
    (bitLanes s x.ty x.d x.sel fun i => rankBelow (s.vsel x.ty x.sel) i % 2 ^ x.ty.width).finish s :=
  congrArg (Res.finish · s) (recordable_unheld h ..)

end

/-- Settles O35: where nothing holds it back, each form only fills its selected lanes. -/
theorem vectorBitForms : Obligations.VectorBitForms := by
  intro s hu
  refine ⟨fun x => ⟨?_, ?_, ?_, ?_, ?_, fun hty => ⟨?_, ?_⟩⟩, fun x => ⟨?_, ?_, ?_⟩, fun x hty => ⟨?_, ?_⟩, fun x => ⟨?_, ?_⟩,
    fun x => ?_, fun x => ?_, fun x => ?_, fun x => ?_⟩
  · exact (exec_vand_unheld hu x).trans (bitLanes_finish ..)
  · exact (exec_vor_unheld hu x).trans (bitLanes_finish ..)
  · exact (exec_vxor_unheld hu x).trans (bitLanes_finish ..)
  · exact (exec_vshr_unheld hu x).trans (bitLanes_finish ..)
  · exact (exec_vsra_unheld hu x).trans (bitLanes_finish ..)
  · rw [exec_vmin_unheld hu, vecMin_int hty, bitLanes_finish]
  · rw [exec_vmax_unheld hu, vecMax_int hty, bitLanes_finish]
  · exact (exec_vshrImm_unheld hu x).trans (bitLanes_finish ..)
  · exact (exec_vsraImm_unheld hu x).trans (bitLanes_finish ..)
  · exact (exec_vrot_unheld hu x).trans (bitLanes_finish ..)
  · rw [exec_vabs_unheld hu, vecSign_float hty, bitLanes_finish]
  · rw [exec_vneg_unheld hu, vecSign_float hty, bitLanes_finish]
  · exact (exec_vmov_unheld hu x).trans (bitLanes_finish ..)
  · exact (exec_vexpand_unheld hu x).trans (bitLanes_finish ..)
  · exact (exec_vbcast_unheld hu x).trans (bitLanes_finish ..)
  · exact (exec_vbcastImm_unheld hu x).trans (bitLanes_finish ..)
  · exact (exec_vperm_unheld hu x).trans (bitLanes_finish ..)
  · exact (exec_viota_unheld hu x).trans (bitLanes_finish ..)

end Sys2Proof.Machine
end

section
/-! SUPPORT. Vector compares, selections and element moves, and the mask register forms; the bits of a mask result (R126 to R128). -/

namespace Sys2Proof.Machine

/-! ## Forms that test for an enabled exception (R35) -/

theorem State.vsel_withFlags (s : State) (w : Word) (t : Ty) (x : VSel) :
    State.vsel { s with me := { s.me with flags := w } } t x = s.vsel t x := rfl

/-- Merged flags select no other lanes. -/
theorem State.vsel_addFlags (s : State) (f : Num.Flags) (t : Ty) (x : VSel) : (s.addFlags f).vsel t x = s.vsel t x :=
  s.vsel_withFlags (s.me.flags ||| f.setWidth 64) t x

/-- What follows the test sees its flags merged, whichever they are. -/
theorem orException_congr {s : State} {k l : State → Res} (h : ∀ f, k (s.addFlags f) = l (s.addFlags f)) (fl : Num.Flags) :
    orException s fl k = orException s fl l := by
  unfold orException
  split
  · rfl
  · exact h fl

/-- A form that does nothing but test its flags and then take effect completes, or raises what it tested for. -/
theorem flagged_or_raises {s : State} {i : Instr} {fl : Num.Flags} {f : State → State} (hrun : s.me.tr.st ≠ .running)
    (h : exec i s = (orException s fl fun u => .ok (f u)).finish s) :
    (enabledException s fl = none → exec i s = .next (s.flagged fl f)) ∧ s.raises fl i :=
  ⟨fun hnone => h.trans (orException_finish_none hnone f), fun _ hsome => h.trans (orException_finish_some hsome hrun _)⟩

/-! ## The bits of a mask result (R126) -/

/-- The number whose set bits below n are those p names. -/
def bitSum (p : Nat → Bool) (n : Nat) : Nat := (List.range n).foldl (fun k i => if p i then k + 2 ^ i else k) 0

theorem bitSum_succ (p : Nat → Bool) (n : Nat) : bitSum p (n + 1) = if p n then bitSum p n + 2 ^ n else bitSum p n := by
  unfold bitSum
  rw [List.range_succ, List.foldl_append]
  rfl

theorem bitSum_lt (p : Nat → Bool) (n : Nat) : bitSum p n < 2 ^ n := by
  induction n with
  | zero => exact Nat.one_pos
  | succ n ih =>
    rw [bitSum_succ, Nat.pow_succ]
    split <;> omega

theorem testBit_bitSum (p : Nat → Bool) (n i : Nat) : (bitSum p n).testBit i = (decide (i < n) && p i) := by
  induction n with
  | zero => simp [bitSum]
  | succ n ih =>
    rw [bitSum_succ]
    rcases lt_trichotomy i n with hlt | rfl | hgt
    · have hlow : (bitSum p n + 2 ^ n).testBit i = (bitSum p n).testBit i := by
        rw [Nat.add_comm, Nat.testBit_two_pow_add_gt hlt]
      rw [apply_ite (Nat.testBit · i), hlow, ite_self, ih, decide_eq_true hlt, decide_eq_true (Nat.lt_succ_of_lt hlt)]
    · have hclear : (bitSum p i).testBit i = false := Nat.testBit_lt_two_pow (bitSum_lt p i)
      rw [decide_eq_true (Nat.lt_succ_self i), Bool.true_and]
      cases hp : p i
      · exact hclear
      · rw [if_pos rfl, Nat.add_comm, Nat.testBit_two_pow_add_eq, hclear]
        rfl
    · have hbound : bitSum p (n + 1) < 2 ^ i := (bitSum_lt p (n + 1)).trans_le (Nat.pow_le_pow_right (by decide) hgt)
      rw [bitSum_succ] at hbound
      rw [Nat.testBit_lt_two_pow hbound, decide_eq_false (by omega), Bool.false_and]

theorem maskResultBits : Statements.MaskResultBits := by
  intro n sel bit zero old i _ hi
  have hmask : maskResult n sel zero old bit = BitVec.ofNat 64 (bitSum (fun i => if sel i then bit i else !zero && old.getLsbD i) n) :=
    rfl
  rw [hmask, BitVec.getLsbD_ofNat, testBit_bitSum, decide_eq_true hi, Bool.true_and]

/-! ## Lanes compared, and elements moved -/

/-- Lane i of a compare, and the flags it raises. -/
def cmpLane (x : VCmpA) (s : State) (i : Nat) : Bool × Num.Flags :=
  if x.ty.isFloat then Num.fcmp x.cond (fval x.ty (s.rv x.a) i) (fval x.ty (s.rv x.b) i)
  else (Num.icmp x.cond (ival x.ty (s.rv x.a) i) (ival x.ty (s.rv x.b) i), 0)

/-- Flags joined as the lanes are passed are those of the selected lanes. -/
theorem foldl_ite_eq_laneFlags (s : State) (t : Ty) (sel : VSel) (f : Nat → Num.Flags) :
    (List.range t.count).foldl (fun fl i => if s.vsel t sel i then fl ||| f i else fl) 0 = laneFlags s t sel f := List.foldl_filter.symm

/-- The register with one element, where it is selected, another. -/
theorem insElem_eq (s : State) (t : Ty) (d : VReg) (a : GReg) (mkr : MReg) (lane : Option LanePfx) (i : Nat) :
    insElem s t d a mkr lane i = .ok (s.wv d (ofElems t.width ((List.range t.count).map fun j =>
      if j = i ∧ s.sel t mkr lane j = true then (s.rg a).toNat % 2 ^ t.width else elem (s.rv d) j t.width))) := by
  have hlane (j : Nat) : (decide (j = i) && s.sel t mkr lane i) = decide (j = i ∧ s.sel t mkr lane j = true) := by
    by_cases h : j = i
    · simp [h]
    · simp [h]
  unfold insElem
  simp only [hlane, decide_eq_true_eq]

/-! ## Their arms, where nothing holds them back -/

section
variable {s : State} (h : s.unheld)
include h

theorem exec_vcmp_unheld (x : VCmpA) : exec (.vcmp x) s =
    (orException s (laneFlags s x.ty x.sel fun i => (cmpLane x s i).2) fun u => .ok (u.wm x.d
      (maskResult x.ty.count (s.vsel x.ty x.sel) (zeroing x.sel) s.me.m[x.d] fun i => (cmpLane x s i).1))).finish s := by
  rw [show exec (.vcmp x) s = (runVcmp x s).finish s from rfl, runVcmp, recordable_unheld h, ← foldl_ite_eq_laneFlags]
  refine congrArg (Res.finish · s) (orException_congr (fun f => ?_) _)
  simp only [State.addFlags_me, mergeFlags_m, State.vsel_addFlags]
  rfl

theorem exec_vsel_unheld (x : VBin) : exec (.vsel x) s =
    .next (s.wv x.d (ofElems x.ty.width ((List.range x.ty.count).map fun i =>
      if laneSel (BitVec.allOnes 64) x.sel.lane (fun l => s.rm l.mask) i then
        (if (s.rm x.sel.mkr).getLsbD i then elem (s.rv x.a) i x.ty.width else elem (s.rv x.b) i x.ty.width)
      else keepOr (zeroing x.sel) (s.rv x.d) x.ty.width i))).goesOn :=
  congrArg (Res.finish · s) (recordable_unheld h ..)

theorem exec_vext_unheld (x : VExtI) :
    exec (.vext x) s = .next (s.wg x.d (extElem s x.ty x.a x.mkr x.lane x.idx.val)).goesOn :=
  congrArg (Res.finish · s) (notRecordable_unheld h _)

theorem exec_vextReg_unheld (x : VExtR) :
    exec (.vextReg x) s = .next (s.wg x.d (extElem s x.ty x.a x.mkr x.lane (s.rg x.b).toNat)).goesOn :=
  congrArg (Res.finish · s) (notRecordable_unheld h _)

theorem exec_vins_unheld (x : VInsI) : exec (.vins x) s = (insElem s x.ty x.d x.a x.mkr x.lane x.idx.val).finish s :=
  congrArg (Res.finish · s) (recordable_unheld h ..)

theorem exec_vinsReg_unheld (x : VInsR) : exec (.vinsReg x) s =
    (if (s.rg x.b).toNat < x.ty.count then insElem s x.ty x.d x.a x.mkr x.lane (s.rg x.b).toNat else .ok s).finish s :=
  congrArg (Res.finish · s) (recordable_unheld h ..)

theorem exec_vcompress_unheld (x : VCompA) : exec (.vcompress x) s = .next (s.wv x.d (ofElems x.ty.width
    (((List.range x.ty.count).filter fun i => s.sel x.ty x.mkr x.lane i).map fun i => elem (s.rv x.a) i x.ty.width))).goesOn :=
  congrArg (Res.finish · s) (recordable_unheld h ..)

theorem exec_mand_unheld (x : MBin) : exec (.mand x) s = .next (s.wm x.d (s.rm x.a &&& s.rm x.b)).goesOn :=
  congrArg (Res.finish · s) (recordable_unheld h ..)

theorem exec_mor_unheld (x : MBin) : exec (.mor x) s = .next (s.wm x.d (s.rm x.a ||| s.rm x.b)).goesOn :=
  congrArg (Res.finish · s) (recordable_unheld h ..)

theorem exec_mxor_unheld (x : MBin) : exec (.mxor x) s = .next (s.wm x.d (s.rm x.a ^^^ s.rm x.b)).goesOn :=
  congrArg (Res.finish · s) (recordable_unheld h ..)

theorem exec_mnot_unheld (x : MUn) : exec (.mnot x) s = .next (s.wm x.d (~~~s.rm x.a)).goesOn :=
  congrArg (Res.finish · s) (recordable_unheld h ..)

theorem exec_mpopc_unheld (x : MPopA) :
    exec (.mpopc x) s = .next (s.wg x.d (BitVec.ofNat 64 (Num.popc 64 (s.rm x.a).toNat))).goesOn :=
  congrArg (Res.finish · s) (notRecordable_unheld h _)

end

theorem vectorCompareAndMaskCompletes : Statements.VectorCompareAndMaskForms := by
  intro s hu
  refine ⟨fun x => flagged_or_raises hu.1.2 (exec_vcmp_unheld hu x), exec_vsel_unheld hu, exec_vext_unheld hu, exec_vextReg_unheld hu,
    fun x => ?_, fun x hin => ?_, fun x hout => ?_, exec_vcompress_unheld hu,
    fun x => ⟨exec_mand_unheld hu x, exec_mor_unheld hu x, exec_mxor_unheld hu x⟩, exec_mnot_unheld hu, exec_mpopc_unheld hu⟩
  · rw [exec_vins_unheld hu, insElem_eq, finish_ok]
  · rw [exec_vinsReg_unheld hu, if_pos hin, insElem_eq, finish_ok]
  · rw [exec_vinsReg_unheld hu, if_neg (Nat.not_lt.mpr hout), finish_ok]

/-- Settles O37: each form's one effect where nothing holds it back, and a mask result read bit by bit. -/
theorem vectorCompareAndMaskForms : Obligations.VectorCompareAndMaskForms := ⟨vectorCompareAndMaskCompletes, maskResultBits⟩

end Sys2Proof.Machine
end

section
/-! SUPPORT. Reductions over the lanes that take part, and the dot, ranking, skipping and pruning forms (R35, R36, R96, R131 to R135). -/

namespace Sys2Proof.Machine

/-! ## A tree over values that an order-blind operation combines (R96) -/

/-- The values of the lanes that take part, under a reading of their bits. -/
def activeKeys {α : Type} (key : α → Int) (xs : List (Option α)) : List Int := (xs.filterMap id).map key

section
variable {σ α : Type} {op : σ → α → α → σ × α} {pick : α → α → α} (hop : ∀ st a b, op st a b = (st, pick a b))

theorem treeLevel_length (op : σ → α → α → σ × α) (st : σ) (xs ys : List (Option α)) (h : xs.length = ys.length) :
    (Num.treeLevel op st xs ys).2.length = xs.length := by
  fun_induction Num.treeLevel op st xs ys <;> simp_all

variable {key : α → Int} {m : Int → Int → Int} [Std.Commutative m] [Std.Associative m]
  (hkey : ∀ a b, key (pick a b) = m (key a) (key b))

include hop

/-- A tree whose operation only picks leaves its running state. -/
theorem treeLevel_fst (st : σ) (xs ys : List (Option α)) : (Num.treeLevel op st xs ys).1 = st := by
  fun_induction Num.treeLevel op st xs ys <;> simp_all

theorem treeReduce_fst (k : Nat) (st : σ) (xs : List (Option α)) : (Num.treeReduce op k st xs).1 = st := by
  induction k generalizing st xs with
  | zero => rfl
  | succ k ih =>
    unfold Num.treeReduce
    dsimp only
    rw [ih, treeLevel_fst hop]

include hkey

/-- Adding the upper half onto the lower one combines the same values. -/
theorem treeLevel_foldr (e : Int) (st : σ) {xs ys : List (Option α)} (hlen : xs.length = ys.length) :
    (activeKeys key (Num.treeLevel op st xs ys).2).foldr m e = (activeKeys key (xs ++ ys)).foldr m e := by
  have hseed (a b : Int) (l : List Int) : l.foldr m (m a b) = m a (l.foldr m b) := by
    rw [Std.Commutative.comm (op := m) a b, List.foldr_assoc, Std.Commutative.comm (op := m)]
  have happ (xs ys : List (Option α)) :
      (activeKeys key (xs ++ ys)).foldr m e = (activeKeys key xs).foldr m ((activeKeys key ys).foldr m e) := by
    unfold activeKeys
    rw [List.filterMap_append, List.map_append, List.foldr_append]
  rw [happ]
  fun_induction Num.treeLevel op st xs ys with
  | case1 st x xs y ys st' z hz st'' r hr ih =>
    obtain ⟨rfl, rfl⟩ : st = st' ∧ pick x y = z := by simpa [hop] using hz
    replace ih := hr ▸ ih (Nat.succ_inj.mp hlen)
    simp only [activeKeys, List.filterMap_cons, id, List.map_cons, List.foldr_cons, hkey] at ih ⊢
    rw [ih, hseed, Std.Associative.assoc (op := m)]
  | case2 st xs y ys st' r hr ih =>
    replace ih := hr ▸ ih (Nat.succ_inj.mp hlen)
    cases y with
    | none => exact ih
    | some b =>
      simp only [activeKeys, List.filterMap_cons, id, List.map_cons, List.foldr_cons] at ih ⊢
      rw [ih, hseed]
  | case3 st x xs ys _ st' r hr ih =>
    replace ih := hr ▸ ih (Nat.succ_inj.mp hlen)
    cases x with
    | none => exact ih
    | some a =>
      simp only [activeKeys, List.filterMap_cons, id, List.map_cons, List.foldr_cons] at ih ⊢
      rw [ih]
  | case4 => rfl
  | case5 st ys hys => exact (hys (List.length_eq_zero_iff.mp hlen.symm)).elim

/-- What the tree gives is those values combined, and nothing where no lane takes part. -/
theorem treeReduce_foldr (e : Int) (k : Nat) (st : σ) (xs : List (Option α)) (hlen : xs.length = 2 ^ k) :
    (Num.treeReduce op k st xs).2.elim e (fun y => m (key y) e) = (activeKeys key xs).foldr m e := by
  induction k generalizing st xs with
  | zero =>
    obtain ⟨x, rfl⟩ := List.length_eq_one_iff.mp hlen
    cases x <;> rfl
  | succ k ih =>
    have hhalf : xs.length / 2 = 2 ^ k := by rw [hlen, Nat.pow_succ]; omega
    have hlow : (xs.take (xs.length / 2)).length = 2 ^ k := by rw [List.length_take]; omega
    have hhigh : (xs.drop (xs.length / 2)).length = 2 ^ k := by rw [List.length_drop, hhalf, hlen, Nat.pow_succ]; omega
    have hlevel := (treeLevel_length op st _ _ (hlow.trans hhigh.symm)).trans hlow
    unfold Num.treeReduce
    dsimp only
    rw [ih _ _ hlevel, treeLevel_foldr hop hkey _ _ (hlow.trans hhigh.symm), List.take_append_drop]

end

/-! ## The lanes that take part (R67, R124) -/

theorem Ty.count_eq_levels (t : Ty) : t.count = 2 ^ levels t := by cases t <;> decide

theorem activeLanes_length (s : State) (t : Ty) (a : VReg) (mkr : MReg) (lane : Option LanePfx) :
    (activeLanes s t a mkr lane).length = 2 ^ levels t := by
  unfold activeLanes
  rw [List.length_map, List.length_range, Ty.count_eq_levels]

/-- The elements of the lanes that take part, ascending. -/
theorem activeLanes_filterMap (s : State) (t : Ty) (a : VReg) (mkr : MReg) (lane : Option LanePfx) :
    (activeLanes s t a mkr lane).filterMap id =
      ((List.range t.count).filter fun i => s.sel t mkr lane i).map fun i => elem (s.rv a) i t.width := by
  unfold activeLanes
  rw [List.filterMap_map, ← List.filterMap_eq_map, List.filterMap_filter]
  congr 1

theorem activeKeys_activeLanes (s : State) (t : Ty) (a : VReg) (mkr : MReg) (lane : Option LanePfx) :
    activeKeys (Num.readInt t.isI t.width) (activeLanes s t a mkr lane) =
      ((List.range t.count).filter fun i => s.sel t mkr lane i).map fun i => ival t (s.rv a) i := by
  unfold activeKeys
  rw [activeLanes_filterMap, List.map_map]
  rfl

/-- Summing lane by lane passes over those that do not take part. -/
theorem activeLanes_sum (s : State) (t : Ty) (a : VReg) (mkr : MReg) (lane : Option LanePfx) :
    (activeLanes s t a mkr lane).foldl (fun n e => n + (e.map (Num.readInt t.isI t.width)).getD 0) 0 =
      ((List.range t.count).filter fun i => s.sel t mkr lane i).foldl (fun n i => n + ival t (s.rv a) i) 0 := by
  unfold activeLanes
  rw [List.foldl_map, List.foldl_filter]
  congr 1
  funext n i
  split
  · rfl
  · exact Int.add_zero n

/-! ## The smallest and the greatest integer (R132) -/

/-- A pattern read under a type lies in the type's range. -/
theorem readInt_fits (t : Ty) (y : Nat) : intLo t ≤ Num.readInt t.isI t.width y ∧ Num.readInt t.isI t.width y ≤ intHi t := by
  have hdvd : 2 ^ t.width ∣ 2 ^ 64 := Nat.pow_dvd_pow 2 (by cases t <;> decide)
  have hword : readTy t (BitVec.ofNat 64 y) = Num.readInt t.isI t.width y := by
    unfold readTy Num.readInt
    rw [BitVec.toNat_ofNat, Nat.mod_mod_of_dvd _ hdvd]
  exact hword ▸ readTy_fits t (BitVec.ofNat 64 y)

/-- Of two patterns the one with the smaller value, or with mx the greater. -/
def pickBits (t : Ty) (mx : Bool) (a b : Nat) : Nat :=
  if decide (Num.readInt t.isI t.width a ≤ Num.readInt t.isI t.width b) != mx then a else b

theorem readInt_pickBits_min (t : Ty) (a b : Nat) : Num.readInt t.isI t.width (pickBits t false a b) =
    min (Num.readInt t.isI t.width a) (Num.readInt t.isI t.width b) := by
  unfold pickBits
  rw [Bool.bne_false, min_def, apply_ite (Num.readInt t.isI t.width)]
  simp only [decide_eq_true_eq]

theorem readInt_pickBits_max (t : Ty) (a b : Nat) : Num.readInt t.isI t.width (pickBits t true a b) =
    max (Num.readInt t.isI t.width a) (Num.readInt t.isI t.width b) := by
  unfold pickBits
  rw [Bool.bne_true, max_def, apply_ite (Num.readInt t.isI t.width)]
  simp only [Bool.not_eq_true', decide_eq_false_iff_not, ite_not]

/-- The tree of VREDMIN and VREDMAX on integers: where no lane takes part it gives the end of the range it starts from. -/
def redTree (x : VRedMA) (s : State) (mx : Bool) : Num.Flags × Option Nat :=
  Num.treeReduce (fun fl a b => (fl, pickBits x.ty mx a b)) (levels x.ty) 0 (activeLanes s x.ty x.a x.mkr x.lane)

theorem redTree_value {x : VRedMA} {s : State} {mx : Bool} {m : Int → Int → Int} [Std.Commutative m] [Std.Associative m] {e : Int}
    (hpick : ∀ a b, Num.readInt x.ty.isI x.ty.width (pickBits x.ty mx a b) =
      m (Num.readInt x.ty.isI x.ty.width a) (Num.readInt x.ty.isI x.ty.width b))
    (hstart : ∀ y, m (Num.readInt x.ty.isI x.ty.width y) e = Num.readInt x.ty.isI x.ty.width y)
    (hempty : extTy x.ty (redEmpty x.ty mx) = BitVec.ofInt 64 e) :
    extTy x.ty ((redTree x s mx).2.getD (redEmpty x.ty mx)) = BitVec.ofInt 64
      ((((List.range x.ty.count).filter fun i => s.sel x.ty x.mkr x.lane i).map fun i => ival x.ty (s.rv x.a) i).foldl m e) := by
  have htree : (redTree x s mx).2.elim e (fun y => m (Num.readInt x.ty.isI x.ty.width y) e) = _ :=
    treeReduce_foldr (m := m) (fun _ _ _ => rfl) hpick e _ _ _ (activeLanes_length ..)
  rw [activeKeys_activeLanes, ← List.foldl_eq_foldr] at htree
  rw [← htree]
  cases (redTree x s mx).2 with
  | none => exact hempty
  | some y => exact congrArg (BitVec.ofInt 64) (hstart y).symm

theorem extTy_redEmpty {t : Ty} (hty : t.isInt = true) (mx : Bool) :
    extTy t (redEmpty t mx) = BitVec.ofInt 64 (if mx then intLo t else intHi t) := by
  have hrange : intLo t ≤ intHi t := by cases t <;> decide
  have hfits : intLo t ≤ (if mx then intLo t else intHi t) ∧ (if mx then intLo t else intHi t) ≤ intHi t := by
    cases mx
    · exact ⟨hrange, le_rfl⟩
    · exact ⟨le_rfl, hrange⟩
  have hbits : redEmpty t mx = Num.lowBits t.width (if mx then intLo t else intHi t) := by
    unfold redEmpty
    rw [Ty.isFloat_of_isInt hty]
    rfl
  rw [hbits, extTy_lowBits, intWrap_of_fits _ _ hfits]

theorem vecRedMinMax_int {x : VRedMA} (hty : x.ty.isInt = true) (s s0 : State) (mx : Bool) :
    (vecRedMinMax x s mx).finish s0 = .next (s.wg x.d (extTy x.ty ((redTree x s mx).2.getD (redEmpty x.ty mx)))).goesOn := by
  have hflags : (redTree x s mx).1 ||| Num.flagIf false Num.nv = 0 := by
    unfold redTree
    rw [treeReduce_fst fun _ _ _ => rfl]
    rfl
  have hform : vecRedMinMax x s mx = orException s ((redTree x s mx).1 ||| Num.flagIf false Num.nv) fun u =>
      .ok (u.wg x.d (extTy x.ty ((redTree x s mx).2.getD (redEmpty x.ty mx)))) := by
    unfold vecRedMinMax
    simp only [Ty.isFloat_of_isInt hty]
    rfl
  have hquiet : enabledException s 0 = none := enabledException_noException (f := 0) rfl s
  rw [hform, hflags, orException_finish_none hquiet, addFlags_zero]

/-! ## Float reductions (R96, R132) -/

theorem vecRedMinMax_float {x : VRedMA} (hty : x.ty.isFloat = true) (s : State) (mx : Bool) :
    vecRedMinMax x s mx =
      (let es := ((List.range x.ty.count).filter fun i => s.sel x.ty x.mkr x.lane i).map fun i => elem (s.rv x.a) i x.ty.width
       let sig := Num.flagIf (es.any fun e => (Num.decode (Num.fmtOf x.ty) e).isSig) Num.nv
       let tree := Num.treeReduce (fun (fl : Num.Flags) a b =>
         (fl ||| (Num.fminmax mx (Num.fmtOf x.ty) a b).2, (Num.fminmax mx (Num.fmtOf x.ty) a b).1)) (levels x.ty) 0
         (activeLanes s x.ty x.a x.mkr x.lane)
       orException s (tree.1 ||| sig) fun u => .ok (u.wg x.d (BitVec.ofNat 64 (tree.2.getD (Num.infOf (Num.fmtOf x.ty) mx))))) := by
  unfold vecRedMinMax redEmpty
  simp only [hty, if_true, Bool.true_and, activeLanes_filterMap]

/-! ## VDOT4 on integers (R131) -/

/-- The four products of a lane, added one by one to what stands there. -/
theorem foldl_four (f : Nat → Int) (j : Nat) (c : Int) :
    ((List.range 4).map (4 * j + ·)).foldl (fun t i => t + f i) c = c + (List.range 4).foldl (fun t i => t + f (4 * j + i)) 0 := by
  have hrange : List.range 4 = [0, 1, 2, 3] := rfl
  simp only [hrange, List.map_cons, List.map_nil, List.foldl_cons, List.foldl_nil]
  ring

/-- The type of a sum of four products. -/
def dotTy (t : Ty) : Ty := if t.isI then .i32 else .z32

theorem dotTy_width (t : Ty) : (dotTy t).width = 32 := by
  unfold dotTy
  split <;> rfl

theorem dotTy_isI (t : Ty) : (dotTy t).isI = t.isI := by
  unfold dotTy
  cases t.isI <;> rfl

/-! ## Their arms, where nothing holds them back -/

section
variable {s : State} (h : s.unheld)
include h

theorem exec_vdot4_int {x : VDotA} (hty : x.ty.isInt = true) : exec (.vdot4 x) s =
    (lanewise s (dotTy x.ty) x.d x.sel fun j => Num.narrow false (dotTy x.ty).isI (dotTy x.ty).width
      (ival (dotTy x.ty) (s.rv x.c) j + (List.range 4).foldl (fun t i =>
        t + ival x.ty (s.rv x.a) (4 * j + i) * ival x.ty (s.rv x.b) (4 * j + i)) 0)).finish s := by
  rw [show exec (.vdot4 x) s = (runVdot4 x s).finish s from rfl, runVdot4, recordable_unheld h, dotTy_isI, dotTy_width]
  simp only [hty, if_true, foldl_four fun i => ival x.ty (s.rv x.a) i * ival x.ty (s.rv x.b) i]
  rfl

theorem exec_vdot4_float {x : VDotA} (hty : x.ty.isInt = false) : exec (.vdot4 x) s =
    (roundLanes s .f32 x.d x.sel x.rnd fun m u j =>
      let ps := ((List.range 4).map (4 * j + ·)).map fun i => Num.mulVal (fval x.ty (s.rv x.a) i) (fval x.ty (s.rv x.b) i)
      Num.sumVals .f32 m u (ps.any (·.2)) (ps.map (·.1) ++ [fval .f32 (s.rv x.c) j])).finish s := by
  rw [show exec (.vdot4 x) s = (runVdot4 x s).finish s from rfl, runVdot4, recordable_unheld h]
  simp only [hty]
  rfl

theorem exec_vredsum_int {x : VRedSA} (hty : x.ty.isInt = true) : exec (.vredsum x) s =
    (intResult s x.ty false x.d
      (((List.range x.ty.count).filter fun i => s.sel x.ty x.mkr x.lane i).foldl (fun t i => t + ival x.ty (s.rv x.a) i) 0)).finish s := by
  rw [show exec (.vredsum x) s = (runVredsum x s).finish s from rfl, runVredsum, notRecordable_unheld h, ← activeLanes_sum]
  simp only [Ty.isFloat_of_isInt hty]
  rfl

theorem exec_vredsum_float {x : VRedSA} (hty : x.ty.isFloat = true) : exec (.vredsum x) s =
    (let f := Num.fmtOf x.ty
     let m := x.rnd.getD s.rmode
     let r := Num.treeReduce (fun ((g, fl) : BitVec 32 × Num.Flags) a b =>
       let q := Num.draw m g
       let y := Num.fadd f m q.2 (Num.decode f a) (Num.decode f b)
       ((q.1, fl ||| y.2), y.1)) (levels x.ty) (s.srg, 0) (activeLanes s x.ty x.a x.mkr x.lane)
     orException s r.1.2 fun u => .ok ((u.setSrg r.1.1).wg x.d (BitVec.ofNat 64 (r.2.getD 0)))).finish s := by
  rw [show exec (.vredsum x) s = (runVredsum x s).finish s from rfl, runVredsum, notRecordable_unheld h]
  simp only [hty]
  rfl

theorem exec_vredmin_unheld (x : VRedMA) : exec (.vredmin x) s = (vecRedMinMax x s false).finish s :=
  congrArg (Res.finish · s) (notRecordable_unheld h _)

theorem exec_vredmax_unheld (x : VRedMA) : exec (.vredmax x) s = (vecRedMinMax x s true).finish s :=
  congrArg (Res.finish · s) (notRecordable_unheld h _)

theorem exec_vtopk_unheld (x : VTopA) : exec (.vtopk x) s =
    (let w := x.ty.width
     let lanes := (List.range x.ty.count).filter fun i => s.sel x.ty x.mkr x.lane i
     let ranked := (rankLanes (fun p q : Nat × Nat => ranksAbove x.ty p.2 q.2)
       (lanes.map fun i => (i, elem (s.rv x.a) i w))).take (x.k1.val + 1)
     orException s (Num.flagIf (x.ty.isFloat && lanes.any fun i => (fval x.ty (s.rv x.a) i).isSig) Num.nv) fun u =>
       .ok ((u.wv x.d (ofElems w (ranked.map (·.2)))).wv x.x
         (ofElems w (ranked.map (·.1) ++ List.replicate (x.ty.count - ranked.length) (2 ^ w - 1))))).finish s :=
  congrArg (Res.finish · s) (recordable_unheld h ..)

theorem exec_vbskip_unheld (x : VBskA) : exec (.vbskip x) s =
    (let mg := f32Of (s.rg x.c)
     let lanes := (List.range x.ty.count).filter (s.vsel x.ty x.sel)
     let at' (i : Nat) := skipBit (fval x.ty (s.rv x.a) i) (fval x.ty (s.rv x.b) i) mg
     orException s (Num.flagIf (lanes.any fun i => (at' i).2 || (fval x.ty (s.rv x.a) i).isSig || (fval x.ty (s.rv x.b) i).isSig
         || mg.isSig) Num.nv) fun u =>
       .ok ((u.wm x.d (maskResult x.ty.count (s.vsel x.ty x.sel) (zeroing x.sel) s.me.m[x.d] fun i => (at' i).1)).wp x.p
         (!lanes.isEmpty && lanes.all fun i => (at' i).1))).finish s := by
  rw [show exec (.vbskip x) s = (runVbskip x s).finish s from rfl, runVbskip, notRecordable_unheld h]
  refine congrArg (Res.finish · s) (orException_congr (fun f => ?_) _)
  simp only [State.addFlags_me, mergeFlags_m]

theorem exec_vprune48_unheld (x : VPruneA) : exec (.vprune48 x) s =
    (let w := x.ty.width
     let sel (i : Nat) : Bool := s.sel x.ty x.mkr x.lane i
     let groups := (List.range (x.ty.count / 8)).map fun g =>
       pruneGroup x.ty ((List.range 8).map fun k => (k, sel (8 * g + k), elem (s.rv x.a) (8 * g + k) w))
     .next ((s.wv x.d (ofElems w ((groups.zip (List.range groups.length)).flatMap fun (ks, g) =>
       ks.map fun k => if sel (8 * g + k) then elem (s.rv x.a) (8 * g + k) w else 0))).wv x.m (ofElems 16 (groups.map fun ks =>
         ks.getD 0 0 + 8 * ks.getD 1 0 + 64 * ks.getD 2 0 + 512 * ks.getD 3 0))).goesOn) :=
  congrArg (Res.finish · s) (recordable_unheld h ..)

end

/-- Settles O39: on integers a tree of picks is a fold over the lanes that take part, and the float forms are each one test for an
enabled exception. -/
theorem reductionAndRankingForms : Obligations.ReductionAndRankingForms := by
  intro s hu
  have hrun := hu.1.2
  refine ⟨fun x hty => ?_, fun x hty => ?_, fun x hty => ?_, fun x hty => ⟨?_, ?_⟩, fun x hty => ?_, fun x hty => ?_, fun x => ?_,
    fun x => ?_, exec_vprune48_unheld hu⟩
  · exact (exec_vdot4_int hu hty).trans (lanewise_narrow_finish ..)
  · rw [exec_vredsum_int hu hty, intResult_finish]
  · exact flagged_or_raises hrun (exec_vredsum_float hu hty)
  · rw [exec_vredmin_unheld hu, vecRedMinMax_int hty,
      redTree_value (m := min) (readInt_pickBits_min x.ty) (fun y => min_eq_left (readInt_fits x.ty y).2) (extTy_redEmpty hty false)]
  · rw [exec_vredmax_unheld hu, vecRedMinMax_int hty,
      redTree_value (m := max) (readInt_pickBits_max x.ty) (fun y => max_eq_left (readInt_fits x.ty y).1) (extTy_redEmpty hty true)]
  · have hmin := exec_vredmin_unheld hu x
    have hmax := exec_vredmax_unheld hu x
    rw [vecRedMinMax_float hty] at hmin hmax
    obtain ⟨hmindone, hminraises⟩ := flagged_or_raises hrun hmin
    obtain ⟨hmaxdone, hmaxraises⟩ := flagged_or_raises hrun hmax
    exact ⟨hmindone, hmaxdone, hminraises, hmaxraises⟩
  · exact (roundsLanes_of_exec hrun (exec_vdot4_float hu hty) :)
  · exact flagged_or_raises hrun (exec_vtopk_unheld hu x)
  · exact flagged_or_raises hrun (exec_vbskip_unheld hu x)

end Sys2Proof.Machine
end

section
/-! SUPPORT. TRREC, TRRUN, TRSTOP and TRSTAT by the treadle's state (R137, R139, R142, R143). -/

namespace Sys2Proof.Machine

/-! ## Their arms -/

theorem exec_trrec (x : TrrecA) (s : State) : exec (.trrec x) s = (runTrrec x s).finish s := rfl

theorem exec_trrun (a : GReg) (s : State) : exec (.trrun a) s = (runTrrun a s).finish s := rfl

theorem exec_trstop (d : GReg) (s : State) : exec (.trstop d) s = (runTrstop d s).finish s := rfl

/-- TRSTAT is taken in every state of the treadle. -/
theorem exec_trstat (d : GReg) (s : State) : exec (.trstat d) s = .next (s.wg d (BitVec.ofNat 64 (s.me.tr.k * 2 ^ 48 +
    s.me.tr.done * 2 ^ 32 + s.me.tr.st.code * 2 ^ 21 + s.me.tr.entries.length * 2 ^ 6 +
    (if s.me.tr.st = .idle then 0 else s.me.tr.n)))).goesOn :=
  rfl

section
variable {s : State}

/-! ## TRREC (R137, R139, R142) -/

theorem runTrrec_running (h : s.me.tr.st = .running) (x : TrrecA) : runTrrec x s = .wait s .treadle := by
  dsimp only [runTrrec]; rw [h]

theorem runTrrec_suspended (h : s.me.tr.st = .suspended) (x : TrrecA) : runTrrec x s = trapOf s 0x48 1 0 := by
  dsimp only [runTrrec]; rw [h]

/-- A record begins, whatever record there was; K and DONE are kept (log entry 46). -/
theorem runTrrec_records (hrun : s.me.tr.st ≠ .running) (hsus : s.me.tr.st ≠ .suspended) (x : TrrecA) :
    runTrrec x s = .ok (s.withTr { Treadle.idle with
      st := .recording, n := x.n1.val + 1, sv := x.sv.val, sa := x.sa.val, ads := x.ads, k := s.me.tr.k, done := s.me.tr.done }) := by
  dsimp only [runTrrec]
  cases hst : s.me.tr.st with
  | running => exact absurd hst hrun
  | suspended => exact absurd hst hsus
  | idle | recording | ready => rfl

/-! ## TRRUN (R139, R142) -/

theorem runTrrun_running (h : s.me.tr.st = .running) (a : GReg) : runTrrun a s = .wait s .treadle := by
  dsimp only [runTrrun]; rw [h]

theorem runTrrun_suspended (h : s.me.tr.st = .suspended) (a : GReg) : runTrrun a s = trapOf s 0x48 1 0 := by
  dsimp only [runTrrun]; rw [h]

theorem runTrrun_incomplete (h : s.me.tr.st = .idle ∨ s.me.tr.st = .recording) (a : GReg) : runTrrun a s = trapOf s 0x48 3 0 := by
  dsimp only [runTrrun]
  rcases h with h | h <;> rw [h]

theorem runTrrun_many (h : s.me.tr.st = .ready) {a : GReg} (hk : 65535 < (s.rg a).toNat) : runTrrun a s = trapOf s 0x48 4 0 := by
  dsimp only [runTrrun]
  rw [h]
  exact if_pos hk

/-- The passes of a complete record start; of none, they are over. -/
theorem runTrrun_starts (h : s.me.tr.st = .ready) {a : GReg} (hk : (s.rg a).toNat ≤ 65535) :
    runTrrun a s = .ok (s.withTr { s.me.tr with
      st := if (s.rg a).toNat = 0 then .ready else .running, k := (s.rg a).toNat, done := 0, pass := 1, ix := 0, stage := .none,
      p := s.me.p, rmode := s.me.rmode, sys := s.me.sys }) := by
  dsimp only [runTrrun]
  rw [h]
  exact if_neg (Nat.not_lt.mpr hk)

/-! ## TRSTOP (R143) -/

/-- Between two passes TRSTOP gives the passes done. -/
theorem runTrstop_between (h : s.me.tr.st = .running) (hb : s.me.tr.between = true) (d : GReg) :
    runTrstop d s = .ok ((s.withTr s.me.tr.discard).wg d (BitVec.ofNat 64 s.me.tr.done)) := by
  dsimp only [runTrstop]
  rw [h]
  exact if_pos hb

/-- Within a pass it asks for the stop and waits for the pass's end (log entry 46). -/
theorem runTrstop_within (h : s.me.tr.st = .running) (hb : s.me.tr.between = false) (d : GReg) :
    runTrstop d s = .wait (s.withTr { s.me.tr with stop := true }) .treadle := by
  dsimp only [runTrstop]
  rw [h]
  exact if_neg (by rw [hb]; exact Bool.false_ne_true)

/-- With no pass running it ends the record, or the suspended passes after the last whole one. -/
theorem runTrstop_idle (h : s.me.tr.st ≠ .running) (d : GReg) :
    runTrstop d s = .ok ((s.withTr s.me.tr.discard).wg d
      (BitVec.ofNat 64 (if s.me.tr.st = .suspended then s.me.tr.pass - 1 else 0))) := by
  dsimp only [runTrstop]
  cases hst : s.me.tr.st with
  | running => exact absurd hst h
  | idle | recording | ready | suspended => rfl

end

theorem treadleControlForms : Statements.TreadleForms := by
  intro s
  refine ⟨fun hrun => ⟨fun d => ⟨fun hb => ?_, fun hb => ?_⟩, fun x => ?_, fun a => ?_⟩, fun d => exec_trstat d s,
    fun hrun => ⟨fun x hsus => ?_, fun a hst hk => ?_, fun a => ⟨fun hst => ?_, fun hst hk => ?_, fun hst => ?_⟩, fun x hst => ?_,
      fun d => ?_⟩⟩
  · rw [exec_trstop, runTrstop_between hrun hb]; rfl
  · rw [exec_trstop, runTrstop_within hrun hb]; rfl
  · rw [exec_trrec, runTrrec_running hrun, finish_wait]
  · rw [exec_trrun, runTrrun_running hrun, finish_wait]
  · rw [exec_trrec, runTrrec_records hrun hsus]; rfl
  · rw [exec_trrun, runTrrun_starts hst hk]; rfl
  · rw [exec_trrun, runTrrun_incomplete hst, finish_trapOf hrun]
  · rw [exec_trrun, runTrrun_many hst hk, finish_trapOf hrun]
  · rw [exec_trrun, runTrrun_suspended hst, finish_trapOf hrun]
  · rw [exec_trrec, runTrrec_suspended hst, finish_trapOf hrun]
  · rw [exec_trstop, runTrstop_idle hrun]; rfl

end Sys2Proof.Machine
end

section
/-! SUPPORT. What does not look at the record the current strand's treadle holds: array errors met and logged, walks, loads and stores
(R88, R138, R180 to R183, R397). -/

namespace Sys2Proof.Machine

/-! ## What does not look at the current strand's record at all -/

/-- The state with the record of the strand whose turn it is another. -/
def State.withMe (s : State) (m : Strand) : State := { s with me := m }

/-- F neither looks at nor changes the record of the strand whose turn it is. -/
structure MeBlind (F : State → State) : Prop where
  withMe : ∀ s m, F (s.withMe m) = (F s).withMe m

namespace MeBlind

/-- F in a state given otherwise. -/
theorem at_ {F : State → State} (hF : MeBlind F) {s u : State} {m : Strand} (h : u = s.withMe m) : F u = (F s).withMe m :=
  (congrArg F h).trans (hF.withMe s m)

theorem modDie (d : Nat) (f : Die → Die) : MeBlind fun s => s.modDie d f := ⟨fun _ _ => rfl⟩

theorem foldl {α : Type} {f : State → α → State} (hf : ∀ x, MeBlind fun s => f s x) (xs : List α) : MeBlind fun s => xs.foldl f s := by
  refine ⟨fun s m => ?_⟩
  induction xs generalizing s with
  | nil => rfl
  | cons x r ih => exact (congrArg (r.foldl f) ((hf x).withMe s m)).trans (ih (f s x))

theorem fold (ks : List Nat) : MeBlind fun s => s.fold ks := by
  refine ⟨fun s m => ?_⟩
  have hexact : (s.withMe m).exact = s.exact := rfl
  unfold State.fold
  rw [hexact]
  split <;> rfl

theorem perform (bs : List (Nat × Byte)) (y : Option SyncTag) : MeBlind fun s => s.perform bs y := by
  refine ⟨fun s m => ?_⟩
  unfold State.perform
  dsimp only
  rw [(fold _).withMe]
  rfl

theorem hostEvent (a b c d : Nat) (w : Word) : MeBlind fun s => (s.hostEvent a b c d w).1 := by
  refine ⟨fun s m => ?_⟩
  unfold State.hostEvent
  dsimp only [State.withMe]
  split
  · rfl
  · exact congrArg (fun u : State => { u with host := { u.host with evt := s.host.evt + 1 } }) ((perform _ none).withMe s m)

theorem logRec (d cls arr bit : Nat) (loc : Word) (wid : Nat) (pos : Word) : MeBlind fun s => s.logRec d cls arr bit loc wid pos := by
  refine ⟨fun s m => ?_⟩
  have hdie : (s.withMe m).dieRec d = s.dieRec d := rfl
  unfold State.logRec
  dsimp only
  rw [hdie]
  split
  · rfl
  · rw [(modDie d _).withMe]
    exact (hostEvent 2 _ d 0 _).withMe _ m

theorem logCorrected (d arr bit : Nat) (loc : Word) (wid : Nat) (pos : Word) :
    MeBlind fun s => s.logCorrected d arr bit loc wid pos := by
  refine ⟨fun s m => ?_⟩
  have hdie : (s.withMe m).dieRec d = s.dieRec d := rfl
  unfold State.logCorrected
  dsimp only
  rw [hdie]
  split
  · rfl
  · rw [(modDie d _).withMe]
    exact (logRec d 1 arr bit loc wid pos).withMe _ m

theorem meetUpsetAs (wid : Nat) (pos : Word) (u : Upset) : MeBlind fun s => s.meetUpsetAs wid pos u := by
  refine ⟨fun s m => ?_⟩
  have hpoison : (s.withMe m).poison = s.poison := rfl
  unfold State.meetUpsetAs
  dsimp only
  rw [hpoison]
  cases localOf (u.key / 8 * 8) <;> cases vaultOf (u.key / 8 * 8) <;> dsimp only
  all_goals
    split
    · split
      · rfl
      · exact (logRec ..).at_ rfl
    · exact (logCorrected ..).at_ rfl

theorem meetUpsetsAs (wid : Nat) (pos : Word) (ks : List Nat) : MeBlind fun s => s.meetUpsetsAs wid pos ks := by
  refine ⟨fun s m => ?_⟩
  have hupsets : (s.withMe m).upsets = s.upsets := rfl
  unfold State.meetUpsetsAs
  rw [hupsets]
  split
  · rfl
  · exact (foldl (meetUpsetAs wid pos) (s.upsetsAt ks)).withMe s m

/-- What does not look at the record keeps it. -/
theorem me_eq {F : State → State} (hF : MeBlind F) (s : State) : (F s).me = s.me := by
  have hsame : F s = (F s).withMe s.me := hF.withMe s s.me
  rw [hsame]
  rfl

end MeBlind

/-! ## What does not look at the record the treadle holds -/

/-- F neither looks at nor changes the current strand's treadle. -/
structure TrBlind (F : State → State) : Prop where
  withTr : ∀ s tr, F (s.withTr tr) = (F s).withTr tr

theorem MeBlind.tr {F : State → State} (hF : MeBlind F) : TrBlind F := by
  refine ⟨fun s tr => (hF.withMe s { s.me with tr := tr }).trans ?_⟩
  rw [← hF.me_eq s]
  rfl

/-- The same end of a turn with the current strand's treadle another. -/
def Res.withTr (r : Res) (tr : Treadle) : Res :=
  match r with
  | .ok s => .ok (s.withTr tr)
  | .trap s t => .trap (s.withTr tr) t
  | .wait s w => .wait (s.withTr tr) w
  | .gone s => .gone (s.withTr tr)

section
variable (s : State) (tr : Treadle)

theorem State.strand_wid_withTr (k : StrandIx) : ((s.withTr tr).strand k).wid = (s.strand k).wid := by
  unfold State.strand
  have hcur : (s.withTr tr).cur = s.cur := rfl
  rw [hcur]
  split <;> rfl

theorem State.check_withTr (x : Ctx) (k : AccKind) (nh : Bool) (al : Nat) (f a : Word) (n : Nat) :
    (s.withTr tr).check x k nh al f a n = s.check x k nh al f a n :=
  check_me (s := s) (m := { s.me with tr := tr }) rfl x k nh al f a n

theorem State.laterPage_withTr (x : Ctx) (f a : Word) : (s.withTr tr).laterPage x f a = s.laterPage x f a := laterPage_me ..

theorem State.walkWords_withTr (va lvl base : Nat) : (s.withTr tr).walkWords va lvl base = s.walkWords va lvl base := by
  induction lvl generalizing base with
  | zero => rfl
  | succ l ih =>
    have hword (pa : Nat) : (s.withTr tr).word pa = s.word pa := rfl
    unfold State.walkWords
    simp only [hword, ih]

theorem State.pathKeys_withTr (x : Ctx) (as : List Word) : (s.withTr tr).pathKeys x as = s.pathKeys x as := by
  unfold State.pathKeys
  simp only [State.walkWords_withTr]
  rfl

theorem State.pendingRead_withTr (ks : List Nat) : (s.withTr tr).pendingRead ks = s.pendingRead ks := by
  unfold State.pendingRead
  simp only [State.check_withTr]
  rfl

theorem State.walksPage_withTr (w : Walk) (x : Ctx) (va : Word) : (s.withTr tr).walksPage w x va = s.walksPage w x va := by
  unfold State.walksPage State.pageAt
  rw [show (s.withTr tr).walk x.root va = s.walk x.root va from walk_me ..]
  rfl

end

namespace TrBlind

theorem comp {F G : State → State} (hG : TrBlind G) (hF : TrBlind F) : TrBlind fun s => G (F s) :=
  ⟨fun s tr => (congrArg G (hF.withTr s tr)).trans (hG.withTr (F s) tr)⟩

theorem foldl {α : Type} {f : State → α → State} (hf : ∀ x, TrBlind fun s => f s x) (xs : List α) : TrBlind fun s => xs.foldl f s := by
  refine ⟨fun s tr => ?_⟩
  induction xs generalizing s with
  | nil => rfl
  | cons x r ih => exact (congrArg (r.foldl f) ((hf x).withTr s tr)).trans (ih (f s x))

theorem modNet (f : Net → Net) : TrBlind fun s => s.modNet f := ⟨fun _ _ => rfl⟩

theorem sided : TrBlind State.sided := ⟨fun _ _ => rfl⟩

theorem noteTags (a : Attr) (ts : List SyncTag) : TrBlind fun s => s.noteTags a ts := by
  refine ⟨fun s tr => ?_⟩
  have hcore : (s.withTr tr).core = s.core := rfl
  unfold State.noteTags
  rw [hcore]
  split
  · rfl
  · split
    · split <;> rfl
    · rfl

theorem meetUpsetsOf (k : StrandIx) (ks : List Nat) : TrBlind fun s => s.meetUpsetsOf k ks := by
  refine ⟨fun s tr => ?_⟩
  unfold State.meetUpsetsOf
  rw [State.strand_wid_withTr]
  exact (MeBlind.meetUpsetsAs ..).tr.withTr s tr

theorem meetUpsets (ks : List Nat) : TrBlind fun s => s.meetUpsets ks := ⟨fun s tr => (meetUpsetsOf s.cur ks).withTr s tr⟩

theorem meetWalk (x : Ctx) (a : Word) : TrBlind fun s => s.meetWalk x a := by
  refine ⟨fun s tr => ?_⟩
  unfold State.meetWalk State.meetWalkOf State.meetWalkAs
  have hcur : (s.withTr tr).cur = s.cur := rfl
  have hclean : ((s.withTr tr).upsets.isEmpty && (s.withTr tr).exact.isEmpty) = (s.upsets.isEmpty && s.exact.isEmpty) := rfl
  have hcached : (s.withTr tr).cached x a.toNat = s.cached x a.toNat := rfl
  have hgone : (s.withTr tr).wordGone = s.wordGone := rfl
  rw [hcur, hclean, hcached, hgone, State.strand_wid_withTr, State.walkWords_withTr]
  split
  · rfl
  · exact ((MeBlind.fold _).tr.comp (MeBlind.meetUpsetsAs ..).tr).withTr s tr

theorem addWalk (x : Ctx) (a : Word) : TrBlind fun s => s.addWalk x a := by
  refine ⟨fun s tr => ?_⟩
  have hwalks : (s.withTr tr).net.walks = s.net.walks := rfl
  unfold State.addWalk
  simp only [hwalks, State.walksPage_withTr]
  split <;> rfl

theorem discarded (k : StrandIx) (blk : Nat) (loc : Word) (wid : Nat) : TrBlind fun s => s.discarded k blk loc wid :=
  ⟨fun s tr => (MeBlind.logRec ..).tr.withTr (s.countBlock blk 0x14) tr⟩

end TrBlind

/-! ## Walks, loads and stores -/

/-- k neither looks at nor changes the current strand's treadle. -/
def treadleFree (k : State → Res) : Prop := ∀ s tr, k (s.withTr tr) = (k s).withTr tr

theorem State.walked_withTr {k : State → Res} (hk : treadleFree k) (s : State) (tr : Treadle) (n : Nat) (as : List Word) :
    (s.withTr tr).walked n as k = (s.walked n as k).withTr tr := by
  have hstage : (s.withTr tr).me.stage = s.me.stage := rfl
  have hposted (ks : List Nat) : (s.withTr tr).ownPosted ks = s.ownPosted ks := rfl
  have hctx : (s.withTr tr).ctx = s.ctx := rfl
  unfold State.walked
  dsimp only
  rw [hstage, hposted, hctx, State.pathKeys_withTr,
    (TrBlind.foldl (f := fun s a => s.meetWalk s.ctx a) (fun a => ⟨fun s tr => (TrBlind.meetWalk s.ctx a).withTr s tr⟩) _).withTr]
  generalize List.foldl (fun s a => s.meetWalk s.ctx a) s _ = w
  split
  · exact hk s tr
  · split
    · rfl
    · have hprompt : (w.withTr tr).prompt = w.prompt := rfl
      rw [hprompt]
      split
      · exact hk w tr
      · have hwalks : (w.withTr tr).net.walks = w.net.walks := rfl
        have hctx : (w.withTr tr).ctx = w.ctx := rfl
        have hcached (x : Ctx) (va : Nat) : (w.withTr tr).cached x va = w.cached x va := rfl
        simp only [hwalks, hctx, hcached]
        split
        · exact congrArg (Res.wait · .walk) ((TrBlind.addWalk ..).withTr w tr)
        · rw [(TrBlind.modNet _).withTr]
          exact hk _ tr

/-- One part of a read by strand k, after those before it. -/
def serveStep (k : StrandIx) (c : State × List (Nat × Nat) × List SyncTag × Option (Nat × Trap)) (p : Nat × Site) :
    State × List (Nat × Nat) × List SyncTag × Option (Nat × Trap) :=
  let u := c.1.meetUpsetsOf k p.2.readKeys
  if u.sitePoisoned p.2 then (u, c.2.1, c.2.2.1, c.2.2.2.or (some (p.1, ⟨0x60, 0, p.2.addr, none, 0⟩)))
  else (u.fold p.2.readKeys, c.2.1 ++ [(p.1, u.readSite p.2)], c.2.2.1 ++ u.tagsOf p.2.readKeys, c.2.2.2)

theorem serveStep_withTr (k : StrandIx) (c : State × List (Nat × Nat) × List SyncTag × Option (Nat × Trap)) (p : Nat × Site)
    (tr : Treadle) : serveStep k (c.1.withTr tr, c.2) p = ((serveStep k c p).1.withTr tr, (serveStep k c p).2) := by
  have hpoison (u : State) : (u.withTr tr).sitePoisoned p.2 = u.sitePoisoned p.2 := rfl
  unfold serveStep
  dsimp only
  rw [(TrBlind.meetUpsetsOf _ _).withTr, hpoison]
  split
  · rfl
  · rw [(MeBlind.fold _).tr.withTr]
    rfl

theorem State.serve_withTr (s : State) (tr : Treadle) (parts : List (Nat × Site)) :
    (s.withTr tr).serve parts = ((s.serve parts).1.withTr tr, (s.serve parts).2) :=
  List.foldl_hom (init := (s, [], [], none))
    (fun c : State × List (Nat × Nat) × List SyncTag × Option (Nat × Trap) => (c.1.withTr tr, c.2))
    fun c p => serveStep_withTr s.cur c p tr

theorem State.load_withTr {k : State → List (Nat × Nat) → Res} (hk : ∀ got, treadleFree fun s => k s got) (s : State) (tr : Treadle)
    (a : Attr) (plan : Except Trap (List (Nat × Site))) : (s.withTr tr).load a plan k = (s.load a plan k).withTr tr := by
  have hstage : (s.withTr tr).me.stage = s.me.stage := rfl
  have hposted (ks : List Nat) : (s.withTr tr).ownPosted ks = s.ownPosted ks := rfl
  have hprompt : (s.withTr tr).prompt = s.prompt := rfl
  have hbroken (ks : List Nat) : (s.withTr tr).brokenLocal ks = s.brokenLocal ks := rfl
  unfold State.load
  rw [hstage]
  split
  case h_1 got tags _ _ =>
    rw [(TrBlind.noteTags a tags).withTr]
    exact hk got _ tr
  case h_2 => rfl
  case h_3 => rfl
  case h_4 =>
    cases plan with
    | error t => rfl
    | ok parts =>
      dsimp only
      rw [hposted, hprompt, hbroken, State.serve_withTr]
      split
      · rfl
      · split
        · split
          · rfl
          · rcases s.serve parts with ⟨u, got, tags, _ | f⟩
            · dsimp only
              rw [(TrBlind.noteTags a tags).withTr]
              exact hk got _ tr
            · rfl
        · rfl

/-- One packet of a store posted toward its homes. -/
def postPacket (scope : Scope) (sync : Option SyncTag) (s : State) (w : List Nat × List Put) : State :=
  let q := s.postAll w.1 (w.2.flatMap fun p => p.bytes.map (·.1))
  (putPieces w.2).foldl (fun s bs => s.fresh.2.modNet fun n => { n with reqs := n.reqs ++
    [{ id := s.fresh.1, core := s.fresh.2.core, strand := s.fresh.2.cur, gen := s.fresh.2.me.gen, seq := q.1.headD 0, also := q.1.drop 1,
       scope := scope, kind := .store bs sync, tagged := none }] }) q.2

theorem State.putAll_eq (s : State) (sync : Option SyncTag) (scope : Scope) (puts : List Put) :
    s.putAll sync scope puts =
      (let nb := (puts.filter fun p => p.site.loc).flatMap (·.bytes)
       let u := if nb.isEmpty then s else (s.meetUpsets (nb.map (·.1))).perform nb sync
       let v := (putPackets (puts.filter fun p => p.site.away)).foldl (fun s w =>
         (w.2.take 1).foldl (fun s p => s.discarded s.cur (blockOf s.core) p.site.addr s.me.wid) s) u
       (putPackets (farPuts puts)).foldl (postPacket scope sync) v) := rfl

namespace TrBlind

theorem postAll (homes ks : List Nat) (s : State) (tr : Treadle) :
    (s.withTr tr).postAll homes ks = ((s.postAll homes ks).1, (s.postAll homes ks).2.withTr tr) :=
  List.foldl_hom (init := ([], s)) (fun c : List Nat × State => (c.1, c.2.withTr tr)) fun _ _ => rfl

theorem postPacket (scope : Scope) (sync : Option SyncTag) (w : List Nat × List Put) :
    TrBlind fun s => Machine.postPacket scope sync s w := by
  refine ⟨fun s tr => ?_⟩
  unfold Machine.postPacket
  rw [postAll]
  exact (foldl (fun bs => ⟨fun _ _ => rfl⟩) (putPieces w.2)).withTr _ tr

theorem putAll (sync : Option SyncTag) (scope : Scope) (puts : List Put) : TrBlind fun s => s.putAll sync scope puts := by
  have hdrop (p : Put) : TrBlind fun s => s.discarded s.cur (blockOf s.core) p.site.addr s.me.wid :=
    ⟨fun s tr => (discarded s.cur (blockOf s.core) p.site.addr s.me.wid).withTr s tr⟩
  have hgone (w : List Nat × List Put) :
      TrBlind fun s => (w.2.take 1).foldl (fun s p => s.discarded s.cur (blockOf s.core) p.site.addr s.me.wid) s := foldl hdrop _
  have hnear (nb : List (Nat × Byte)) :
      TrBlind fun s => if nb.isEmpty then s else (s.meetUpsets (nb.map (·.1))).perform nb sync := by
    refine ⟨fun s tr => ?_⟩
    split
    · rfl
    · exact ((MeBlind.perform nb sync).tr.comp (meetUpsets _)).withTr s tr
  simp only [State.putAll_eq]
  exact (foldl (postPacket scope sync) _).comp ((foldl hgone _).comp (hnear _))

end TrBlind

theorem State.store_withTr {k : State → Res} (hk : treadleFree k) (s : State) (tr : Treadle) (puts : List Put) :
    (s.withTr tr).store {} false puts k = (s.store {} false puts k).withTr tr := by
  have hrel : ({} : Attr).releases = false := rfl
  have hposted (ks : List Nat) : (s.withTr tr).ownPosted ks = s.ownPosted ks := rfl
  have hbroken (ks : List Nat) : (s.withTr tr).brokenLocal ks = s.brokenLocal ks := rfl
  have hroom (hs : List Nat) : (s.withTr tr).classRoom hs = s.classRoom hs := rfl
  have hclaimed (key : Nat) : (s.withTr tr).claimed key = s.claimed key := rfl
  have hsync : (s.withTr tr).syncOf {} false = s.syncOf {} false := rfl
  unfold State.store
  simp only [hrel, Bool.false_eq_true, if_false, Bool.false_and, hposted, hbroken, hroom, hclaimed, hsync, State.pendingRead_withTr,
    (TrBlind.putAll ..).withTr]
  split
  · rfl
  · split
    · rfl
    · split
      · rfl
      · split
        · rfl
        · split
          · exact hk _ tr
          · rw [TrBlind.sided.withTr]
            exact hk _ tr

end Sys2Proof.Machine
end

section
/-! SUPPORT. The recordable forms: each does in a record, as pass 0 and on its own the same thing, and looks at the treadle only to see
whether passes run (R138, R140). -/

namespace Sys2Proof.Machine

/-- k looks at the current strand's treadle only to see whether passes run, and does not change it. -/
def seesPassesOnly (k : State → Res) : Prop :=
  ∀ s tr, s.me.tr.st ≠ .running → tr.st ≠ .running → k (s.withTr tr) = (k s).withTr tr

theorem treadleFree.seesPassesOnly {k : State → Res} (h : treadleFree k) : seesPassesOnly k := fun s tr _ _ => h s tr

/-! ## Vector forms -/

section
variable (s : State) (tr : Treadle)

theorem orException_withTr {k l : State → Res} (h : ∀ f, l ((s.addFlags f).withTr tr) = (k (s.addFlags f)).withTr tr) (fl : Num.Flags) :
    orException (s.withTr tr) fl l = (orException s fl k).withTr tr := by
  have henabled : enabledException (s.withTr tr) fl = enabledException s fl := rfl
  unfold orException
  rw [henabled]
  split
  · rfl
  · exact h fl

theorem laneVec_withTr (t : Ty) (sel : VSel) (d : VReg) (f : Nat → Nat) : laneVec (s.withTr tr) t sel d f = laneVec s t sel d f := rfl

theorem laneFlags_withTr (t : Ty) (sel : VSel) (f : Nat → Num.Flags) : laneFlags (s.withTr tr) t sel f = laneFlags s t sel f := rfl

end

/-- A mask register written. -/
theorem TrBlind.wm (d : MReg) (w : Word) : TrBlind fun s => s.wm d w := by
  refine ⟨fun s tr => ?_⟩
  unfold State.wm Strand.writeM
  split <;> rfl

namespace treadleFree

/-- A form that always takes effect. -/
theorem ok {F : State → State} (h : ∀ s tr, F (s.withTr tr) = (F s).withTr tr) : treadleFree fun s => .ok (F s) :=
  fun s tr => congrArg Res.ok (h s tr)

theorem ite {c : Prop} [Decidable c] {k l : State → Res} (hk : treadleFree k) (hl : treadleFree l) :
    treadleFree fun s => if c then k s else l s := by
  split
  · exact hk
  · exact hl

theorem bits (t : Ty) (d : VReg) (sel : VSel) {f : State → Nat → Nat} (hf : ∀ s tr, f (s.withTr tr) = f s) :
    treadleFree fun s => bitLanes s t d sel (f s) := by
  intro s tr
  simp only [bitLanes_eq, hf, laneVec_withTr]
  rfl

theorem lanes (t : Ty) (d : VReg) (sel : VSel) {f : State → Nat → Nat × Num.Flags} (hf : ∀ s tr, f (s.withTr tr) = f s) :
    treadleFree fun s => lanewise s t d sel (f s) := by
  intro s tr
  simp only [lanewise_eq, hf, laneVec_withTr, laneFlags_withTr]
  exact orException_withTr s tr (fun _ => rfl) _

theorem rounds (t : Ty) (d : VReg) (sel : VSel) (rnd : Option RMode) {f : State → RMode → Nat → Nat → Nat × Num.Flags}
    (hf : ∀ s tr, f (s.withTr tr) = f s) : treadleFree fun s => roundLanes s t d sel rnd (f s) := by
  intro s tr
  have hmode : modeOf (s.withTr tr) rnd = modeOf s rnd := rfl
  have hrand (m : RMode) (i : Nat) : laneRand (s.withTr tr) t sel m i = laneRand s t sel m i := rfl
  have hsel : (s.withTr tr).vsel t sel = s.vsel t sel := rfl
  have hsrg : (s.withTr tr).srg = s.srg := rfl
  simp only [roundLanes_eq, hf, hmode, hrand, hsel, hsrg, laneVec_withTr, laneFlags_withTr]
  exact orException_withTr s tr (fun _ => rfl) _

theorem arith (x : VArS) (int : Int → Int → Int) (flt : Num.Fmt → RMode → Nat → Num.Val → Num.Val → Nat × Num.Flags) :
    treadleFree fun s => vecArith x s int flt := by
  dsimp only [vecArith]
  exact ite (rounds _ _ _ _ fun _ _ => rfl) (lanes _ _ _ fun _ _ => rfl)

theorem unary (x : VUnR) (op : Num.Fmt → RMode → Nat → Num.Val → Nat × Num.Flags) : treadleFree fun s => vecUnary x s op := by
  dsimp only [vecUnary]
  exact rounds _ _ _ _ fun _ _ => rfl

theorem minMax (x : VBin) (mx : Bool) : treadleFree fun s => vecMinMax x s mx := by
  dsimp only [vecMinMax]
  exact ite (lanes _ _ _ fun _ _ => rfl) (bits _ _ _ fun _ _ => rfl)

theorem sign (x : VUnS) (f : Nat → Nat) (int : Int → Int) : treadleFree fun s => vecSign x s f int := by
  dsimp only [vecSign]
  exact ite (bits _ _ _ fun _ _ => rfl) (lanes _ _ _ fun _ _ => rfl)

end treadleFree

/-! ## Tile forms -/

theorem loomHeld_withTr (s : State) (tr : Treadle) {r r' : Res} (h : r' = r.withTr tr) :
    loomHeld (s.withTr tr) r' = (loomHeld s r).withTr tr := by
  have herr : (s.withTr tr).me.loomErr = s.me.loomErr := rfl
  unfold loomHeld
  rw [herr, h]
  split <;> rfl

theorem tileForm_withTr (s : State) (tr : Treadle) (a : AReg) {k : State → Res} (hk : k (s.withTr tr) = (k s).withTr tr) :
    tileForm (s.withTr tr) a k = (tileForm s a k).withTr tr := by
  have howns : (s.withTr tr).ownsTile a = s.ownsTile a := rfl
  unfold tileForm
  refine loomHeld_withTr s tr ?_
  rw [howns]
  split
  · rfl
  · rw [apply_ite (Res.withTr · tr), ← hk]
    rfl

theorem memOp_withTr {s : State} {tr : Treadle} (hs : s.me.tr.st ≠ .running) (htr : tr.st ≠ .running) {k : State → Res}
    (hk : k (s.withTr tr) = (k s).withTr tr) : memOp (s.withTr tr) k = (memOp s k).withTr tr := by
  have hhold : (s.withTr tr).me.acqHold = s.me.acqHold := rfl
  have hidle : ¬((s.withTr tr).me.tr.st = .running ∧
      (s.withTr tr).me.tr.entries.any (fun e => entryTouchesMem e.instr) = true) := fun h => htr h.1
  unfold memOp
  rw [afterMemPasses_free hidle, afterMemPasses_free fun h => hs h.1, hhold, hk]
  split <;> rfl

theorem tilePieces_withTr (s : State) (tr : Treadle) (k : AccKind) (a : Word) (post : Word → Site → Except Trap Site) :
    tilePieces (s.withTr tr) k a post = tilePieces s k a post := by
  unfold tilePieces
  simp only [State.check_withTr]
  rfl

theorem vstShape_withTr (s : State) (tr : Treadle) (base : Word) (whole : Bool) (first a : Word) (y : Site) :
    vstShape (s.withTr tr) base whole first a y = vstShape s base whole first a y := by
  unfold vstShape
  simp only [State.laterPage_withTr]
  rfl

theorem encodePiece_withTr (s : State) (tr : Treadle) (vals : Nat → List Nat) :
    encodePiece (s.withTr tr) vals = encodePiece s vals := rfl

theorem storeEncoded_withTr (s : State) (tr : Treadle) (vals : Nat → List Nat) (ys : List (Nat × Site)) :
    storeEncoded (s.withTr tr) {} [] (ys.map fun (i, y) => (i, y, vals i)) =
      (storeEncoded s {} [] (ys.map fun (i, y) => (i, y, vals i))).withTr tr := by
  have hsrg : (s.withTr tr).srg = s.srg := rfl
  have henabled (fl : Num.Flags) : enabledException (s.withTr tr) fl = enabledException s fl := rfl
  rw [storeEncoded_pieces, storeEncoded_pieces, encodePiece_withTr, hsrg]
  dsimp only
  rw [henabled]
  split
  · rfl
  · exact State.store_withTr (fun _ _ => rfl) s tr _

/-- MST once its walks are over. -/
theorem mstWalked_withTr (t : Tile) (a : Word) : treadleFree fun w => mstWalked w t a := by
  intro w tr
  unfold mstWalked
  simp only [vstShape_withTr, tilePieces_withTr]
  split
  · rfl
  · rfl
  · next i y ys _ =>
    split
    · exact storeEncoded_withTr w tr (fun i => (List.range 32).map fun j => (t.extractLsb' (512 * i + 16 * j) 16).toNat) ((i, y) :: ys)
    · exact State.store_withTr (fun _ _ => rfl) w tr _

theorem mstForm_eq (s : State) (x : MldA) (off : Word) :
    mstForm s x off = tileForm s x.acc fun s => memOp s fun s =>
      s.walked 1024 [s.rg x.a + sx x.imm + off] fun w => mstWalked w (s.readTile x.acc) (s.rg x.a + sx x.imm + off) := by
  unfold mstForm
  refine congrArg (tileForm s x.acc) (funext fun u => congrArg (memOp u) (funext fun v =>
    congrArg (v.walked 1024 _) (funext fun w => ?_)))
  unfold mstWalked
  dsimp only
  cases tilePieces w .store (v.rg x.a + sx x.imm + off) fun b y => vstShape w (v.rg x.a + sx x.imm + off) true _ b y with
  | error e => rfl
  | ok ys =>
    cases ys with
    | nil => rfl
    | cons p ys => rfl

theorem mstForm_seesPassesOnly (x : MldA) (off : Word) : seesPassesOnly fun s => mstForm s x off := by
  intro s tr hs htr
  simp only [mstForm_eq]
  exact tileForm_withTr s tr x.acc (memOp_withTr hs htr (State.walked_withTr (mstWalked_withTr _ _) s tr 1024 _))

theorem mldForm_seesPassesOnly (x : MldA) (off : Word) : seesPassesOnly fun s => mldForm s x off := by
  intro s tr hs htr
  refine tileForm_withTr s tr x.acc (memOp_withTr hs htr (State.walked_withTr (fun w tr => ?_) s tr 1024 _))
  rw [tilePieces_withTr]
  exact State.load_withTr (fun got s tr => rfl) w tr {} _

end Sys2Proof.Machine
end

section
/-! SUPPORT. The forms a recording treadle takes up or refuses (R138, R139), and the treadle's obligation. -/

namespace Sys2Proof.Machine

/-! ## Recordable forms -/

theorem renV_zero (r : VReg) : renV 0 r = r := Fin.ext (Nat.mod_eq_of_lt r.isLt)

/-- A recordable form: on its own it does k, and so it does as pass 0; of the treadle it sees only whether passes run. -/
inductive takenUp (i : Instr) (gs : List GReg) : Prop where
  | by_ {k : State → Res} (exec_eq : ∀ s, exec i s = (recordable i gs s k).finish s)
      (pass_eq : ∀ v, v.me.tr.st = .idle → runRecorded 0 0 0 0 i v = k v) (sees : seesPassesOnly k)

theorem recordable_of_idle {v : State} (h : v.me.tr.st = .idle) (i : Instr) (gs : List GReg) (k : State → Res) :
    recordable i gs v k = k v :=
  recordable_idle (by rw [h]; decide) (by unfold State.recording; rw [h]; rfl) i gs k

theorem takenUp.sees {i : Instr} {gs : List GReg} {k : State → Res} (exec_eq : ∀ s, exec i s = (recordable i gs s k).finish s)
    (pass_eq : ∀ v, runRecorded 0 0 0 0 i v = recordable i gs v k) (h : seesPassesOnly k) : takenUp i gs :=
  .by_ exec_eq (fun v hv => (pass_eq v).trans (recordable_of_idle hv i gs k)) h

theorem takenUp.free {i : Instr} {gs : List GReg} {k : State → Res} (exec_eq : ∀ s, exec i s = (recordable i gs s k).finish s)
    (pass_eq : ∀ v, runRecorded 0 0 0 0 i v = recordable i gs v k) (h : treadleFree k) : takenUp i gs :=
  .sees exec_eq pass_eq h.seesPassesOnly

/-- Each form that a record takes up at once, with the g registers it reads. -/
theorem takenUp_of_recordsAtOnce {i : Instr} {gs : List GReg} (h : recordsAtOnce i = some gs) : takenUp i gs := by
  cases i with
  | vadd x | vsub x | vmul x =>
    cases h
    exact .free (fun _ => rfl) (fun _ => by simp only [runRecorded, renV_zero]; rfl) (treadleFree.arith _ _ _)
  | vfma x | vdiv x =>
    cases h
    exact .free (fun _ => rfl) (fun _ => by simp only [runRecorded, renV_zero]; rfl) (treadleFree.rounds _ _ _ _ fun _ _ => rfl)
  | vsqrt x | vrcp x | vrsqrt x | vexp2 x =>
    cases h
    exact .free (fun _ => rfl) (fun _ => by simp only [runRecorded, renV_zero]; rfl) (treadleFree.unary _ _)
  | vmin x | vmax x =>
    cases h
    exact .free (fun _ => rfl) (fun _ => by simp only [runRecorded, renV_zero]; rfl) (treadleFree.minMax _ _)
  | vabs x | vneg x =>
    cases h
    exact .free (fun _ => rfl) (fun _ => by simp only [runRecorded, renV_zero]; rfl) (treadleFree.sign _ _ _)
  | vshl x | vshlImm x =>
    cases h
    exact .free (fun _ => rfl) (fun _ => by simp only [runRecorded, renV_zero]; rfl) (treadleFree.lanes _ _ _ fun _ _ => rfl)
  | vand x | vor x | vxor x | vshr x | vshrImm x | vsra x | vsraImm x | vmov x | vbcast x | vbcastImm x | vperm x | vrot x | vexpand x
  | viota x =>
    cases h
    exact .free (fun _ => rfl) (fun _ => by simp only [runRecorded, renV_zero]; rfl) (treadleFree.bits _ _ _ fun _ _ => rfl)
  | vsel x | vcompress x | vprune48 x | vins x =>
    cases h
    exact .free (fun _ => rfl) (fun _ => by simp only [runRecorded, renV_zero]; rfl) (treadleFree.ok fun _ _ => rfl)
  | mand x | mor x | mxor x | mnot x =>
    cases h
    exact .free (fun _ => rfl) (fun _ => rfl) (treadleFree.ok fun s tr => (TrBlind.wm ..).withTr s tr)
  | vcmp x =>
    cases h
    exact .free (fun _ => rfl) (fun _ => by simp only [runRecorded, renV_zero]; rfl) fun s tr =>
      orException_withTr s tr (fun f => congrArg Res.ok ((TrBlind.wm ..).withTr (s.addFlags f) tr)) _
  | vtopk x =>
    cases h
    exact .free (fun _ => rfl) (fun _ => by simp only [runRecorded, renV_zero]; rfl) fun s tr => orException_withTr s tr (fun _ => rfl) _
  | vinsReg x =>
    cases h
    refine .free (fun _ => rfl) (fun _ => by simp only [runRecorded, renV_zero]; rfl) fun s tr => ?_
    have hb : (s.withTr tr).rg x.b = s.rg x.b := rfl
    rw [hb]
    split <;> rfl
  | vcvt x =>
    cases h
    refine .free (fun _ => rfl) (fun _ => by simp only [runRecorded, renV_zero]; rfl) fun s tr => ?_
    have hb : (s.withTr tr).rg x.b = s.rg x.b := rfl
    dsimp only
    rw [hb]
    split
    · rfl
    · exact orException_withTr s tr (fun _ => rfl) _
  | vdot4 x =>
    cases h
    refine .free (fun _ => rfl) (fun _ => by simp only [runRecorded, renV_zero]; rfl) ?_
    exact treadleFree.ite (treadleFree.lanes _ _ _ fun _ _ => rfl) (treadleFree.rounds _ _ _ _ fun _ _ => rfl)
  | mzero a =>
    cases h
    exact .sees (fun _ => rfl) (fun _ => rfl) fun s tr _ _ => tileForm_withTr s tr a rfl
  | mscaleA0 v | mscaleA1 v | mscaleB v =>
    cases h
    exact .sees (fun _ => rfl) (fun _ => by simp only [runRecorded, renV_zero]; rfl) fun s tr _ _ => loomHeld_withTr s tr rfl
  | mld x =>
    cases h
    exact .by_ (fun _ => rfl) (fun _ _ => rfl) (mldForm_seesPassesOnly x 0)
  | mst x =>
    cases h
    exact .by_ (fun _ => rfl) (fun _ _ => rfl) (mstForm_seesPassesOnly x 0)
  | _ => exact nomatch h

/-- An MMA whose gang has formed has nothing left to do. -/
theorem mmaForm_formed {s : State} (h : s.me.stage = .gangFormed) (sparse : Bool) (x : MmaSA) : mmaForm s false sparse x 0 = .ok s := by
  have hturn (r : GangReq) : mmaTurn s r = .ok s := by
    unfold mmaTurn
    rw [h]
  have hstage : (Stage.gangFormed == Stage.none) = false := rfl
  unfold mmaForm
  rw [h]
  simp only [hturn, reduceCtorEq, if_false, hstage, Bool.and_false, Bool.false_eq_true]

/-! ## Recording (R138, R139) -/

section
variable {s : State} (hrec : s.me.tr.st = .recording)
include hrec

theorem not_running_of_recording : s.me.tr.st ≠ .running := by rw [hrec]; decide

theorem State.recording_user (hsys : s.me.sys = false) (hwt : s.me.wt = false) : s.recording = true := by
  unfold State.recording
  rw [hrec, hsys, hwt]
  rfl

/-- A recordable form that takes effect is appended. -/
theorem recordable_appends (hsys : s.me.sys = false) (hwt : s.me.wt = false) {k : State → Res} {u : State}
    (hk : k s = .ok (u.withTr s.me.tr)) (i : Instr) (gs : List GReg) : recordable i gs s k = .ok (u.withTr (s.recorded i gs)) := by
  unfold recordable
  rw [if_neg (not_running_of_recording hrec), hk, State.recording_user hrec hsys hwt]
  rfl

/-- One that traps is not. -/
theorem recordable_traps {k : State → Res} {u : State} {t : Trap} (hk : k s = .trap u t) (i : Instr) (gs : List GReg) :
    recordable i gs s k = .trap u t := by
  unfold recordable
  rw [if_neg (not_running_of_recording hrec), hk]
  rfl

/-- What a form does in the recording strand is what it does alone, the record put back. -/
theorem seesPassesOnly.recording {k : State → Res} (h : seesPassesOnly k) :
    k s = (k (s.withTr { s.me.tr with st := .idle })).withTr s.me.tr :=
  h (s.withTr { s.me.tr with st := .idle }) s.me.tr (fun h => nomatch h) (not_running_of_recording hrec)

theorem takenUp.appended (hsys : s.me.sys = false) (hwt : s.me.wt = false) {i : Instr} {gs : List GReg} (h : takenUp i gs) {u : State}
    (halone : runRecorded 0 0 0 0 i (s.withTr { s.me.tr with st := .idle }) = .ok u) :
    exec i s = .next (u.withTr (s.recorded i gs)).goesOn := by
  obtain ⟨hexec, hpass, hsees⟩ := h
  have hk := hsees.recording hrec
  rw [← hpass (s.withTr { s.me.tr with st := .idle }) rfl, halone] at hk
  rw [hexec, recordable_appends hrec hsys hwt hk, finish_ok]

theorem takenUp.trapped {i : Instr} {gs : List GReg} (h : takenUp i gs) {u : State} {t : Trap}
    (halone : runRecorded 0 0 0 0 i (s.withTr { s.me.tr with st := .idle }) = .trap u t) :
    exec i s = .next ((u.withTr s.me.tr).takeTrap t 0) := by
  obtain ⟨hexec, hpass, hsees⟩ := h
  have hk := hsees.recording hrec
  rw [← hpass (s.withTr { s.me.tr with st := .idle }) rfl, halone] at hk
  rw [hexec, recordable_traps hrec hk, finish_trap _ _ _ (not_running_of_recording hrec)]

/-- A form that is not recordable raises treadle. -/
theorem notRecordable_refused (hsys : s.me.sys = false) (hwt : s.me.wt = false) {i : Instr} {k : State → Res}
    (hexec : exec i s = (notRecordable s k).finish s) : exec i s = .next (s.traps 0x48 2 0) := by
  have hrefuse : notRecordable s k = trapOf s 0x48 2 0 := by
    unfold notRecordable
    rw [if_neg (not_running_of_recording hrec), if_pos (State.recording_user hrec hsys hwt)]
  rw [hexec, hrefuse, finish_trapOf (not_running_of_recording hrec)]

theorem exec_notRecorded (hsys : s.me.sys = false) (hwt : s.me.wt = false) {i : Instr} (h : notRecorded i = true) :
    exec i s = .next (s.traps 0x48 2 0) := by
  cases i with
  | vext | vextReg | mpopc | vredsum | vredmin | vredmax | vbskip | vcvto | vred | mwait | mwaitTile | mmovv | mmova | mstat =>
    exact notRecordable_refused hrec hsys hwt rfl
  | vld x => exact notRecordable_refused hrec hsys hwt (exec_vld x s)
  | vlds x => exact notRecordable_refused hrec hsys hwt (exec_vlds x s)
  | vgath x => exact notRecordable_refused hrec hsys hwt (exec_vgath x s)
  | vst x => exact notRecordable_refused hrec hsys hwt (exec_vst x s)
  | vsts x => exact notRecordable_refused hrec hsys hwt (exec_vsts x s)
  | vscat x => exact notRecordable_refused hrec hsys hwt (exec_vscat x s)
  | _ => exact nomatch h

end

theorem recordingForms : Statements.RecordingForms := by
  intro s hrec hsys hwt
  refine ⟨fun i gs h => ?_, fun hstage => ⟨fun x => ?_, fun x => ?_⟩, fun i h => exec_notRecorded hrec hsys hwt h⟩
  · have htaken := takenUp_of_recordsAtOnce h
    exact ⟨fun u halone => htaken.appended hrec hsys hwt halone, fun u t halone => htaken.trapped hrec halone⟩
  · have hmma := recordable_appends hrec hsys hwt (u := s) (k := fun s => mmaForm s false false (asSparse x) 0)
      (mmaForm_formed hstage false (asSparse x)) (.mma x) (mmaReads (asSparse x))
    exact (congrArg (Res.finish · s) hmma :)
  · have hmma := recordable_appends hrec hsys hwt (u := s) (k := fun s => mmaForm s false true x 0)
      (mmaForm_formed hstage true x) (.mmaS x) (mmaReads x)
    exact (congrArg (Res.finish · s) hmma :)

/-- Settles O40: a form taken up does in the record what it does alone, since it sees of the treadle only whether passes run; the
treadle's own forms by its state. -/
theorem treadleForms : Obligations.TreadleForms := ⟨recordingForms, treadleControlForms⟩

end Sys2Proof.Machine
end

section
/-! SUPPORT. LD, ST and ST.OF once their checks are made: the value a load gives, the write a store comes to, and the causes that a
misaligned address and a format page raise (R178, R180, R182, R183, R186, R188, R203, R236). -/

namespace Sys2Proof.Machine

/-! ## Their arms -/

theorem exec_ld (x : MemL) (s : State) : exec (.ld x) s = (runLd x s).finish s := rfl

theorem exec_st (x : MemS) (s : State) : exec (.st x) s = (storeScalar x false s).finish s := rfl

theorem exec_stOf (x : MemS) (s : State) : exec (.stOf x) s = (storeScalar x true s).finish s := rfl

/-! ## What a home leaves of the strand's view -/

theorem HomeOnly.ctx_eq {s t : State} (h : HomeOnly s t) : t.ctx = s.ctx := by
  unfold State.ctx State.rootOf State.weaveOf State.core
  rw [h.me, h.cur, h.weaves]

theorem HomeOnly.rg_eq {s t : State} (h : HomeOnly s t) (r : GReg) : t.rg r = s.rg r := by
  rw [State.rg, h.me, State.rg]

@[simp] theorem rg_walkedTo (s : State) (n : Nat) (as : List Word) (r : GReg) : (s.walkedTo n as).rg r = s.rg r :=
  (HomeOnly.walkedTo s n as).rg_eq r

/-! ## Loads (R182, R236) -/

/-- A load that is under way is not walked again. -/
theorem walked_under_way {s : State} (h : s.me.stage ≠ .none) (n : Nat) (as : List Word) (k : State → Res) :
    s.walked n as k = k s := if_pos (bne_iff_ne.mpr h)

/-- A load of one readable site, answered at once. -/
theorem load_site {s : State} {y : Site} (hstage : s.me.stage = .none) (hprompt : s.prompt = true) (hread : s.readable y)
    (a : Attr) (k : State → List (Nat × Nat) → Res) :
    s.load a (.ok [(0, y)]) k = k ((s.readAt y).noteTags a ((s.meetUpsets y.readKeys).tagsOf y.readKeys))
      [(0, (s.meetUpsets y.readKeys).readSite y)] := by
  obtain ⟨hown, hbroken, hsound⟩ := hread
  have hserve := serve_one (i := 0) hsound
  have hkeys : ([(0, y)].flatMap fun p => p.2.readKeys ++ p.2.reads.flatMap fun r => keysFrom r 8) =
      y.readKeys ++ y.reads.flatMap fun r => keysFrom r 8 := by simp
  rw [load_prompt hstage hprompt (hkeys ▸ hown) (hkeys ▸ hbroken) (by rw [hserve]), hserve]

theorem loadCompletes : Statements.LoadCompletes := by
  intro x s a n w
  refine ⟨fun y hfree hwalk hsite hread => ?_, fun v tags fl hstage hacq hrun => ?_⟩
  · have hhome : HomeOnly s w := HomeOnly.walkedTo s n [a]
    have hstage : w.me.stage = .none := by rw [hhome.me]; exact hfree.1
    rw [exec_ld, runLd, memOp_free hfree, walked_ready hfree.1 hwalk]
    show (w.load (attrOf x.sc) ((w.check w.ctx .load false n a a n).map fun y => [(0, y)]) _).finish s = _
    rw [hsite, Except.map, load_site hstage (hhome.prompt.trans hwalk.1) hread]
    rfl
  · have hout : s.me.stage ≠ .none := by rw [hstage]; exact Stage.noConfusion
    rw [exec_ld, runLd, memOp, afterMemPasses_free fun h => hrun h.1, hacq, if_neg Bool.false_ne_true, walked_under_way hout,
      load_done hstage]
    rfl

/-! ## Stores (R183, R186, R188) -/

theorem storeCompletes : Statements.StoreCompletes := by
  intro x s y a n w puts hfree hwalk hsite hfmt
  refine ⟨fun hstore => ?_, fun hstore => ?_⟩
  · exact exec_st_ready rfl rfl rfl hfree hwalk hsite hfmt hstore
  · rw [exec_stOf, storeScalar, stChecked_ready rfl rfl rfl hfree hwalk hsite hfmt, store_ready hstore]
    rfl

/-! ## Misaligned accesses and format pages (R178, R180, R203) -/

section
variable {s : State} {n : Nat} {a : Word}

/-- An access's own first byte lies in no later page. -/
theorem laterPage_self (s : State) (x : Ctx) (a : Word) : s.laterPage x a a = 0 := if_pos (.inl (Nat.le_refl _))

theorem check_misaligned (h : a.toNat % n ≠ 0) (x : Ctx) (k : AccKind) (nh : Bool) :
    s.check x k nh n a a n = .error ⟨0x13, 0, a, none, 0⟩ := by
  unfold State.check
  dsimp only
  rw [if_pos h, laterPage_self]

/-- No walk is made for a misaligned address (R180). -/
theorem walked_misaligned (hstage : s.me.stage = .none) (hprompt : s.prompt = true) (h : a.toNat % n ≠ 0) (k : State → Res) :
    s.walked n [a] k = k s := by
  have hnone : ([a].takeWhile fun a => a.toNat % n == 0) = [] := by simp [h]
  have hwalk : s.walkable n [a] := by
    refine ⟨hprompt, ?_⟩
    rw [hnone]
    exact List.any_eq_false.mpr fun p _ => by simp [keysMeet, State.pathKeys]
  rw [walked_ready hstage hwalk, State.walkedTo, hnone, List.foldl_nil]

end

section
variable {x : MemS} {s : State} {a : Word} {n : Nat} (ha : a = s.rg x.a + immWord x.imm) (hn : n = x.ty.width / 8)
  (hfree : s.memFree)
include ha hn hfree

theorem storeScalar_misaligned (hprompt : s.prompt = true) (h : a.toNat % n ≠ 0) (of : Bool) :
    storeScalar x of s = .trap s ⟨0x13, 0, a, none, 0⟩ := by
  subst ha hn
  rw [storeScalar, stChecked, memOp_free hfree, walked_misaligned hfree.1 hprompt h, check_misaligned h]
  rfl

/-- Only whole vectors are stored to a format page (R203). -/
theorem storeScalar_format {y : Site} (hwalk : s.walkable n [a])
    (hsite : (s.walkedTo n [a]).check s.ctx .store false n a a n = .ok y) (hfmt : y.fmt.isSome = true) (of : Bool) :
    storeScalar x of s = .trap (s.walkedTo n [a]) ⟨0x17, 1, a, none, 0⟩ := by
  subst ha hn
  rw [storeScalar, stChecked, memOp_free hfree, walked_ready hfree.1 hwalk, (HomeOnly.walkedTo s _ _).ctx_eq, hsite, Except.bind,
    noFormat, if_pos hfmt]

end

theorem memoryShapeTraps : Statements.MemoryShapeTraps := by
  intro x z s hfree hprompt hrun n a b
  refine ⟨fun h => ?_, fun h => ?_, fun y hwalk hsite hfmt => ?_⟩
  · rw [exec_ld, runLd, memOp_free hfree, walked_misaligned hfree.1 hprompt h, check_misaligned h, Except.map, load_error hfree.1,
      finish_trap _ _ _ hrun]
    rfl
  · have htrap := storeScalar_misaligned (x := z) rfl rfl hfree hprompt h
    rw [exec_st, exec_stOf, htrap, htrap, finish_trap _ _ _ hrun]
    exact ⟨rfl, rfl⟩
  · have htrap := storeScalar_format (x := z) rfl rfl hfree hwalk hsite hfmt
    rw [exec_st, exec_stOf, htrap, htrap, finish_trap _ _ _ hrun]
    exact ⟨rfl, rfl⟩

/-- Settles O12: past its checks a load reads its one site and a store makes its one write; a misaligned address or a format page stops
either at those checks. -/
theorem loadsAndStores : Obligations.LoadsAndStores := ⟨loadCompletes, storeCompletes, memoryShapeTraps⟩

end Sys2Proof.Machine
end

section
/-! SUPPORT. The fences, where no pass that accesses memory runs (R185, R189, R235, R236). -/

namespace Sys2Proof.Machine

section
variable {s : State} (hfree : ¬(s.me.tr.st = .running ∧ s.me.tr.entries.any (fun e => entryTouchesMem e.instr) = true))
include hfree

theorem exec_fence_free (x : FenceA) : exec (.fence x) s = (fence x.kind x.scope s).finish s :=
  congrArg (Res.finish · s) (afterMemPasses_free hfree _)

theorem exec_fenceSt_free : exec .fenceSt s = (fenceStWait s fun s => .ok (setRelFence s .fabric)).finish s :=
  congrArg (Res.finish · s) (afterMemPasses_free hfree _)

end

theorem fence_acquire {s : State} (h : s.me.lsQuiet = true) (sc : Scope) : fence .acquire sc s = .ok (acquireTags s sc) := if_pos h

theorem fence_release {s : State} (h : s.drained) (sc : Scope) : fence .release sc s = .ok (setRelFence s.markIssue sc) :=
by
  unfold fence
  exact releaseWait_drained h _

/-- A fence that finds an earlier store unacknowledged waits for it. -/
theorem fenceStWait_open {s : State} (h : s.postedDone s.issueSeq = false) (k : State → Res) :
    fenceStWait s k = .wait s.markIssue .drain := if_neg (Bool.eq_false_iff.mp h)

/-- What an acquiring point reads of the tags does not depend on the issue's number, which the end of the instruction forgets. -/
theorem goesOn_acquireTags_markIssue (s : State) (sc sc' : Scope) :
    (setRelFence (acquireTags s.markIssue sc) sc').goesOn = (setRelFence (acquireTags s sc) sc').goesOn := by
  have hmark : s.markIssue.me.readTags.any (missed s.markIssue.core sc) = s.me.readTags.any (missed s.core sc) := rfl
  cases hmissed : s.me.readTags.any (missed s.core sc)
  all_goals
    rw [acquireTags_eq hmissed, acquireTags_eq (hmark.trans hmissed)]
    rfl

/-- Settles O14: each fence has one wait, and past it notes its scope, or reads and forgets the tags, or both. -/
theorem fencesComplete : Obligations.FencesComplete := by
  intro x s hfree met
  have hfence := exec_fence_free hfree x
  refine ⟨fun hk hquiet => ?_, fun hk hd => ?_, fun hk hd => ?_, fun hdone => ?_, fun hopen => ?_⟩
  · rw [hfence, hk, fence_acquire hquiet]
    rfl
  · rw [hfence, hk, fence_release hd]
    rfl
  · rw [hfence, hk, fence_full hd, finish_ok, goesOn_acquireTags_markIssue]
    rfl
  · rw [exec_fenceSt_free hfree, fenceStWait_done hdone]
    rfl
  · rw [exec_fenceSt_free hfree, fenceStWait_open hopen]
    rfl

end Sys2Proof.Machine
end

section
/-! SUPPORT. The atomics: how each form completes once its checks are made, and what the home's operation leaves of the word, of its
flags and of the storage around it (R190 to R192). -/

namespace Sys2Proof.Machine

/-! ## The forms (R190) -/

/-- The state a returning atomic leaves: the home has replaced the word, and the register takes the old value extended. -/
def State.atomicDone (w : State) (sc : Option ScopePfx) (op : AtomOp) (ty : Ty) (y : Site) (d : GReg) (b c : Word) : State :=
  let r := (w.marked (attrOf sc).releases).doAtom op ty y b c (w.syncOf (attrOf sc) false)
  ((sidedAtom op ty b r.2.1 (r.1.noteTags (attrOf sc) r.2.2.2.1)).addFlags r.2.2.1).wg d (extTy ty r.2.1)

theorem atomicForm_ready {s w : State} {y : Site} {sc : Option ScopePfx} {ty : Ty} {r : GReg} {imm : BitVec 48} (hfree : s.memFree)
    (hw : s.walkedTo (ty.width / 8) [s.rg r + sx imm] = w) (hwalk : s.walkable (ty.width / 8) [s.rg r + sx imm])
    (hsite : w.checkAtom w.ctx .rmw (s.rg r + sx imm) (ty.width / 8) = .ok y) (hready : w.atomReady (attrOf sc) y)
    (hsound : ((w.marked (attrOf sc).releases).meetUpsets y.keys).sitePoisoned y = false) (op : AtomOp) (d : GReg) (b c : Word) :
    (atomicForm s sc op ty d r imm b c).finish s = .next (w.atomicDone sc op ty y d b c).goesOn := by
  have hhome : HomeOnly s w := hw ▸ HomeOnly.walkedTo s _ _
  have hstage : w.me.stage = .none := by rw [hhome.me]; exact hfree.1
  rw [atomicForm, memOp_free hfree, walked_ready hfree.1 hwalk, hw,
    atomic_prompt hstage (hhome.prompt.trans hwalk.1) hsite hready hsound]
  rfl

/-- Settles O15: every form is the one atomic of its operation, performed within its step once nothing holds it back. -/
theorem atomicsComplete : Obligations.AtomicsComplete := by
  intro s y hfree at' done sound
  refine ⟨fun x h => ?_, fun x h => ?_⟩
  · obtain ⟨hwalk, hsite, hready, hsound⟩ := h
    have hform (op : AtomOp) := atomicForm_ready hfree rfl hwalk hsite hready hsound op x.d (s.rg x.b) 0
    exact ⟨hform .add, hform .min, hform .max, hform .and, hform .or, hform .xor, hform .swap⟩
  · obtain ⟨hwalk, hsite, hready, hsound⟩ := h
    have hform (op : AtomOp) := atomicForm_ready hfree rfl hwalk hsite hready hsound op x.d (s.rg x.b) (s.rg x.c)
    exact ⟨hform .addt, hform .cas⟩

end Sys2Proof.Machine
end

section
/-! SUPPORT. What an atomic leaves in storage with no array error unmet: the word of its operation, its flags, and no other byte (R190
to R192). -/

namespace Sys2Proof.Machine

/-! ## Words of a width (R3, R74) -/

theorem ofBytes_lt : ∀ bs : List Byte, ofBytes bs < 256 ^ bs.length
  | [] => Nat.one_pos
  | b :: r => by
    have hr := ofBytes_lt r
    have hb := b.isLt
    rw [ofBytes, List.length_cons, Nat.pow_succ]
    omega

theorem Memory.value_lt (m : Memory) (ks : List Nat) : m.value ks < 256 ^ ks.length := by
  rw [Memory.value]
  simpa only [List.length_map] using ofBytes_lt (ks.map m.read)

/-- An integer is read of its low w bits. -/
theorem readInt_mod (sg : Bool) (w x : Nat) : Num.readInt sg w (x % 2 ^ w) = Num.readInt sg w x := by
  unfold Num.readInt
  rw [Nat.mod_mod]

/-- The integer of a pattern is the pattern modulo its width. -/
theorem readInt_emod (sg : Bool) (w x : Nat) : Num.readInt sg w x % 2 ^ w = (x : Int) % 2 ^ w := by
  unfold Num.readInt
  dsimp only
  split
  · rw [Int.sub_emod_right]
    push_cast
    rw [Int.emod_emod]
  · push_cast
    rw [Int.emod_emod]

/-- Adding integers of either sign is adding their patterns modulo their width. -/
theorem lowBits_readInt_add (sg : Bool) (w a b : Nat) :
    Num.lowBits w (Num.readInt sg w a + Num.readInt sg w b) = (a + b) % 2 ^ w := by
  rw [Num.lowBits, Int.add_emod, readInt_emod, readInt_emod, ← Int.add_emod]
  norm_cast

theorem readTy_ofNat (ty : Ty) (x : Nat) (h : x < 2 ^ 64) : readTy ty (BitVec.ofNat 64 x) = Num.readInt ty.isI ty.width x := by
  rw [readTy, BitVec.toNat_ofNat, Nat.mod_eq_of_lt h]

/-! ## What the operations make of a word (R190, R191) -/

/-- The word and flags of a float operation: an addition in mode 0, or the minimum or maximum. -/
def floatAtom (op : AtomOp) (old b : Nat) : Nat × Num.Flags :=
  match op with
  | .min => Num.fminmax false .f32 old b
  | .max => Num.fminmax true .f32 old b
  | _ => Num.fadd .f32 .nearestEven 0 (Num.decode .f32 old) (Num.decode .f32 b)

/-- The word of any other operation, on patterns of the type's width. -/
def plainAtom (op : AtomOp) (ty : Ty) (old : Nat) (b c : Word) : Nat :=
  let bv := b.toNat % 2 ^ ty.width
  match op with
  | .add | .addt => (old + bv) % 2 ^ ty.width
  | .min => if readTy ty (BitVec.ofNat 64 old) ≤ readTy ty b then old else bv
  | .max => if readTy ty b ≤ readTy ty (BitVec.ofNat 64 old) then old else bv
  | .and => old &&& bv
  | .or => old ||| bv
  | .xor => old ^^^ bv
  | .swap => bv
  | .cas => if old = bv then c.toNat % 2 ^ ty.width else old

theorem atomNew_float {op : AtomOp} (h : op ∈ [AtomOp.add, .min, .max]) (old : Nat) (b c : Word) :
    atomNew op .f32 old b c = floatAtom op old (b.toNat % 2 ^ Ty.f32.width) := by
  simp only [List.mem_cons, List.not_mem_nil, or_false] at h
  rcases h with rfl | rfl | rfl <;> rfl

theorem atomNew_addt (ty : Ty) (old : Nat) (b c : Word) :
    (atomNew .addt ty old b c).1 = (old + b.toNat % 2 ^ ty.width) % 2 ^ ty.width := lowBits_readInt_add true _ _ _

section
variable {op : AtomOp} {ty : Ty} {old : Nat} (hplain : ¬(ty = .f32 ∧ op ∈ [AtomOp.add, .min, .max])) (hold : old < 2 ^ 64)
include hplain hold

theorem atomNew_plain_word (b c : Word) : (atomNew op ty old b c).1 = plainAtom op ty old b c := by
  have hty (h : op ∈ [AtomOp.add, .min, .max]) : ty ≠ .f32 := fun e => hplain ⟨e, h⟩
  cases op with
  | add =>
    rw [atomNew, if_neg (hty (by simp))]
    exact lowBits_readInt_add _ _ _ _
  | addt => exact atomNew_addt ty old b c
  | min | max =>
    rw [atomNew, if_neg (hty (by simp)), readInt_mod, plainAtom, readTy_ofNat ty old hold, readTy]
  | and | or | xor | swap | cas => rfl

theorem atomNew_plain_flags (b c : Word) : (atomNew op ty old b c).2 =
    if op = .add ∧ Num.inRange ty.isI ty.width (readTy ty (BitVec.ofNat 64 old) + readTy ty b) = false then Num.iv else 0 := by
  have hty (h : op ∈ [AtomOp.add, .min, .max]) : ty ≠ .f32 := fun e => hplain ⟨e, h⟩
  cases op with
  | add =>
    rw [atomNew, if_neg (hty (by simp)), readInt_mod, readTy_ofNat ty old hold, readTy, Num.wrap, Num.flagIf]
    simp
  | min | max => rw [atomNew, if_neg (hty (by simp))]; rfl
  | addt | and | or | xor | swap | cas => rfl

end

/-- A word and an operand of the type's width give a word of that width. -/
theorem plainAtom_lt (op : AtomOp) {ty : Ty} {old : Nat} (hw : old < 2 ^ ty.width) (b c : Word) :
    plainAtom op ty old b c < 2 ^ ty.width := by
  have hmod (x : Nat) : x % 2 ^ ty.width < 2 ^ ty.width := Nat.mod_lt _ (Nat.two_pow_pos _)
  cases op with
  | add | addt | swap => exact hmod _
  | min | max | cas => rw [plainAtom]; split <;> simp [hmod, hw]
  | and => exact Nat.and_lt_two_pow _ (hmod _)
  | or => exact Nat.or_lt_two_pow hw (hmod _)
  | xor => exact Nat.xor_lt_two_pow hw (hmod _)

/-! ## What a home's write leaves -/

@[simp] theorem fold_upsets (s : State) (ks : List Nat) : (s.fold ks).upsets = s.upsets := by
  unfold State.fold; split <;> rfl

section
variable (s : State) (bs : List (Nat × Byte)) (sync : Option SyncTag)

@[simp] theorem perform_upsets : (s.perform bs sync).upsets = s.upsets := fold_upsets s _

@[simp] theorem performRmw_saves : (s.performRmw bs sync).saves = s.saves := by
  unfold State.performRmw
  split
  · exact (HomeOnly.perform ..).saves
  · exact (HomeOnly.perform s bs none).saves

@[simp] theorem performRmw_upsets : (s.performRmw bs sync).upsets = s.upsets := by
  unfold State.performRmw
  split <;> exact fold_upsets s _

@[simp] theorem performRmw_mem : (s.performRmw bs sync).mem = s.mem.writeAll bs := by
  unfold State.performRmw
  split <;> rfl

end

/-! ## Wakes leave storage alone where no save area stands (R192) -/

theorem touchKeys_quiet {s : State} (hu : s.upsets = []) (k : StrandIx) (ks : List Nat) : s.touchKeys k ks = s.fold ks := by
  rw [State.touchKeys, State.meetUpsetsOf, meetUpsetsAs_none hu]

theorem wakeResident_mem {s : State} (hu : s.upsets = []) (key : Nat) : (s.wakeResident key).mem = s.mem := by
  suffices h : (s.wakeResident key).upsets = [] ∧ (s.wakeResident key).mem = s.mem from h.2
  unfold State.wakeResident
  refine List.foldlRecOn (motive := fun t : State => t.upsets = [] ∧ t.mem = s.mem) _ _ ⟨hu, rfl⟩ fun t ht k _ => ?_
  obtain ⟨htu, htm⟩ := ht
  split
  · rw [touchKeys_quiet htu]
    simp [State.modNet, htu, htm]
  · exact ⟨htu, htm⟩

theorem wakeWord_mem {s : State} (hu : s.upsets = []) (hsaves : s.saves = []) (key : Nat) : (s.wakeWord key).mem = s.mem := by
  rw [State.wakeWord, hsaves]
  exact wakeResident_mem hu key

/-! ## One atomic at its home (R190, R192) -/

section
variable {s : State} {op : AtomOp} {ty : Ty} {y : Site} {b c : Word} {sync : Option SyncTag} (hu : s.upsets = [])
  (hsound : s.sitePoisoned y = false)
include hu hsound

/-- An ACAS whose comparison fails only reads. -/
theorem doAtom_unmatched (hfail : op = .cas ∧ s.mem.value y.keys ≠ b.toNat % 2 ^ ty.width) : s.doAtom op ty y b c sync =
    (s.fold y.keys, s.mem.value y.keys, (atomNew op ty (s.mem.value y.keys) b c).2, s.tagsOf y.keys, none) := by
  have hmeet : s.meetUpsetsOf s.cur y.keys = s := meetUpsetsAs_none hu ..
  unfold State.doAtom State.doAtomOf
  simp only [hmeet, hsound, Bool.false_eq_true, ↓reduceIte, if_pos hfail]

/-- Any other atomic writes the word, and AADDT then wakes its waiters where the word goes upward across its threshold. -/
theorem doAtom_written (hdone : ¬(op = .cas ∧ s.mem.value y.keys ≠ b.toNat % 2 ^ ty.width)) :
    let old := s.mem.value y.keys
    let new := (atomNew op ty old b c).1
    let m := s.performRmw (layBytes y.keys new) sync
    let signed (n : Nat) : Int := Num.readInt true ty.width n
    s.doAtom op ty y b c sync =
      (if op = .addt ∧ signed old < signed c.toNat ∧ signed c.toNat ≤ signed new then m.wakeWord (y.keys.headD 0) else m,
        old, (atomNew op ty old b c).2, s.tagsOf y.keys, none) := by
  have hmeet : s.meetUpsetsOf s.cur y.keys = s := meetUpsetsAs_none hu ..
  unfold State.doAtom State.doAtomOf
  simp only [hmeet, hsound, Bool.false_eq_true, ↓reduceIte, if_neg hdone, Bool.and_eq_true, decide_eq_true_eq, and_assoc,
    readInt_mod]

/-- An atomic's old value and flags, and that it does not fault, whether it writes or not. -/
theorem doAtom_answer : (s.doAtom op ty y b c sync).2 =
    (s.mem.value y.keys, (atomNew op ty (s.mem.value y.keys) b c).2, s.tagsOf y.keys, none) := by
  by_cases hfail : op = .cas ∧ s.mem.value y.keys ≠ b.toNat % 2 ^ ty.width
  · rw [doAtom_unmatched hu hsound hfail]
  · rw [doAtom_written hu hsound hfail]

/-- Where AADDT wakes no saved strand, an atomic's storage is the one before it with the new word, unless an ACAS only reads. -/
theorem doAtom_mem (hwake : op ≠ .addt ∨ s.saves = []) : (s.doAtom op ty y b c sync).1.mem =
    if op = .cas ∧ s.mem.value y.keys ≠ b.toNat % 2 ^ ty.width then s.mem
    else s.mem.writeAll (layBytes y.keys (atomNew op ty (s.mem.value y.keys) b c).1) := by
  split
  · rename_i hfail
    rw [doAtom_unmatched hu hsound hfail, fold_mem]
  · rename_i hdone
    rw [doAtom_written hu hsound hdone]
    dsimp only
    split
    · rename_i hcross
      have hsaves := hwake.resolve_left (not_not.mpr hcross.1)
      rw [wakeWord_mem ((performRmw_upsets ..).trans hu) ((performRmw_saves ..).trans hsaves), performRmw_mem]
    · exact performRmw_mem ..

/-- The word an atomic leaves, and every other byte. -/
theorem doAtom_value (hwf : s.mem.wf = true) (hnodup : y.keys.Nodup) (hbits : 256 ^ y.keys.length = 2 ^ ty.width)
    (hwake : op ≠ .addt ∨ s.saves = []) :
    (s.doAtom op ty y b c sync).1.mem.value y.keys = (atomNew op ty (s.mem.value y.keys) b c).1 % 2 ^ ty.width ∧
      ∀ k, k ∉ y.keys → (s.doAtom op ty y b c sync).1.mem.read k = s.mem.read k := by
  rw [doAtom_mem hu hsound hwake]
  split
  · rename_i hfail
    have hkept : (atomNew op ty (s.mem.value y.keys) b c).1 = s.mem.value y.keys := by
      rw [hfail.1]
      exact if_neg hfail.2
    refine ⟨?_, fun _ _ => rfl⟩
    rw [hkept, ← hbits, Nat.mod_eq_of_lt (Memory.value_lt ..)]
  · rw [← hbits]
    exact ⟨Memory.value_writeAll_layBytes _ _ _ hwf hnodup, fun k => Memory.read_writeAll_layBytes_other _ _ _ k hwf⟩

end

/-! ## The statement -/

/-- The types an atomic takes are as wide as their bytes, and fit a register. -/
theorem atomTy_width {ty : Ty} (h : ty ∈ [Ty.i32, .i64, .z32, .z64, .f32]) : 8 * (ty.width / 8) = ty.width ∧ ty.width ≤ 64 := by
  simp only [List.mem_cons, List.not_mem_nil, or_false] at h
  rcases h with rfl | rfl | rfl | rfl | rfl <;> decide

/-- Settles O16: an atomic writes its operation's word once, or, an ACAS, leaves it; the operation's word and flags are a float's or an
integer's; and a wake changes no byte where no save area stands. -/
theorem atomicMemory : Obligations.AtomicMemory := by
  intro s op ty y b c sync hwf hu hsound _ hnodup hlen hty r old bv sum float next signed
  obtain ⟨hwidth, hfits⟩ := atomTy_width hty
  have hbits : 256 ^ y.keys.length = 2 ^ ty.width := by rw [hlen, ← hwidth, Nat.pow_mul, Nat.mul_div_cancel_left _ (by decide)]
  have hold : old < 2 ^ ty.width := hbits ▸ Memory.value_lt ..
  have hold64 : old < 2 ^ 64 := hold.trans_le (Nat.pow_le_pow_right (by decide) hfits)
  have hanswer : r.2 = (old, (atomNew op ty old b c).2, s.tagsOf y.keys, none) := doAtom_answer hu hsound
  have hword : (atomNew op ty old b c).1 % 2 ^ ty.width = next ∧ (atomNew op ty old b c).2 =
      if ty = .f32 ∧ op ∈ [AtomOp.add, .min, .max] then float.2
      else if op = .add ∧ Num.inRange ty.isI ty.width sum = false then Num.iv else 0 := by
    by_cases hfloat : ty = .f32 ∧ op ∈ [AtomOp.add, .min, .max]
    · have hnext : next = float.1 % 2 ^ 32 := if_pos hfloat
      rw [hnext, if_pos hfloat]
      obtain ⟨rfl, hop⟩ := hfloat
      rw [atomNew_float hop]
      exact ⟨rfl, rfl⟩
    · have hnext : next = plainAtom op ty old b c := if_neg hfloat
      rw [hnext, if_neg hfloat, atomNew_plain_word hfloat hold64, Nat.mod_eq_of_lt (plainAtom_lt op hold b c)]
      exact ⟨rfl, atomNew_plain_flags hfloat hold64 b c⟩
  refine ⟨congrArg (·.1) hanswer, congrArg (·.2.2.2) hanswer, ?_, fun hwake => ?_, ?_⟩
  · rw [hanswer]
    exact hword.2
  · rw [← hword.1]
    exact doAtom_value hu hsound hwf hnodup hbits hwake
  · rintro rfl m
    show (s.doAtom .addt ty y b c sync).1 = _
    rw [doAtom_written hu hsound (by simp), atomNew_addt]
    simp only [true_and]
    rfl

end Sys2Proof.Machine
end

section
/-! SUPPORT. WAITA and AWAKE, RED and VRED, once their checks are made (R193 to R196, R202, R228, R397). -/

namespace Sys2Proof.Machine

/-! ## Their arms -/

theorem exec_waita (x : WaitAA) (s : State) : exec (.waita x) s = (runWaita x s).finish s := rfl

theorem exec_awake (x : AImm) (s : State) : exec (.awake x) s = (runAwake x s).finish s := rfl

theorem exec_red (x : RedA) (s : State) : exec (.red x) s = (runRed x s).finish s := rfl

theorem exec_vred (x : VRedA) (s : State) : exec (.vred x) s = (runVred x s).finish s := rfl

/-! ## WAITA and AWAKE (R193, R194) -/

/-- A WAITA of a sound word, which it may read at once, returns the word where it differs from gb and waits on it otherwise. -/
theorem runWaita_read {x : WaitAA} {s w u : State} {y : Site} (hfree : s.memFree)
    (hw : s.walkedTo (x.ty.width / 8) [s.rg x.a + sx x.imm] = w) (hwalk : s.walkable (x.ty.width / 8) [s.rg x.a + sx x.imm])
    (hsite : w.checkAtom w.ctx .load (s.rg x.a + sx x.imm) (x.ty.width / 8) = .ok y) (hown : w.ownPosted y.keys = false)
    (hbroken : w.brokenLocal y.keys = false) (hu : w.meetUpsets y.keys = u) (hsound : u.sitePoisoned y = false) :
    runWaita x s =
      if u.mem.value y.keys ≠ patTy x.ty (s.rg x.b) then
        .ok (((u.fold y.keys).sided.noteTags {} (u.tagsOf y.keys)).wg x.d (extTy x.ty (u.mem.value y.keys)))
      else .wait { u.fold y.keys with me := { (u.fold y.keys).me with stage := .waiter y.keys } } .waita := by
  have hhome : HomeOnly s (u.fold y.keys) :=
    (hw ▸ HomeOnly.walkedTo s _ _).trans ((hu ▸ HomeOnly.meetUpsets w y.keys).trans (HomeOnly.fold u y.keys))
  unfold runWaita
  rw [hfree.1]
  dsimp only
  rw [memOp_free hfree, walked_ready hfree.1 hwalk, hw, hsite]
  dsimp only
  rw [hown, hbroken, hu, hsound, hhome.rg_eq]
  rfl

theorem runWaita_woken {x : WaitAA} {s : State} {v : Nat} {ts : List SyncTag} {bad : Bool} (h : s.me.stage = .woken v ts bad) :
    runWaita x s = if bad then .trap s ⟨0x60, 0, s.rg x.a + sx x.imm, none, 0⟩
      else .ok ((s.sided.noteTags {} ts).wg x.d (extTy x.ty v)) := by
  unfold runWaita
  rw [h]

theorem waitAndWake : Statements.WaitAndWake := by
  intro s
  refine ⟨?_, fun x v ts h => ?_, fun x v ts h hrun => ?_, ?_⟩
  · intro x y n a w hfree hwalk hsite hown hbroken hsound u cur
    have hread := runWaita_read hfree rfl hwalk hsite hown hbroken rfl hsound
    refine ⟨fun hdiffers => ?_, fun hequal => ?_⟩
    · rw [exec_waita, hread, if_pos hdiffers]
      rfl
    · rw [exec_waita, hread, if_neg (not_not.mpr hequal)]
      rfl
  · rw [exec_waita, runWaita_woken h]
    rfl
  · rw [exec_waita, runWaita_woken h, if_pos rfl, finish_trap _ _ _ hrun]
    rfl
  · intro x y a w hfree hstage hwalk hsite hbroken
    rw [exec_awake, runAwake, afterMemPasses_free hfree]
    dsimp only
    rw [walked_ready hstage hwalk, hsite]
    dsimp only
    rw [hbroken]
    rfl

/-! ## RED and VRED (R195, R196, R202) -/

theorem reductionsComplete : Statements.ReductionsComplete := by
  intro s tag
  refine ⟨?_, fun x ys hs => ?_⟩
  · intro x y n a w hfree hwalk hsite puts hred
    rw [exec_red, runRed, memOp_free hfree]
    dsimp only
    rw [walked_ready hfree.1 hwalk, hsite]
    dsimp only
    rw [reduce_ready hred]
    rfl
  · intro es first n w hwalk hsites puts hred u
    rw [exec_vred, runVred, notRecordable_unheld hs, memOp_free hs.memFree]
    dsimp only
    rw [walked_ready hs.1.1 hwalk, hsites]
    dsimp only
    rw [reduce_ready hred]
    rfl

/-- Settles O17: past its checks each form has one effect, a read that returns or waits, a wake, or its contributions. -/
theorem waitsAndReductions : Obligations.WaitsAndReductions := ⟨waitAndWake, reductionsComplete⟩

end Sys2Proof.Machine
end

section
/-! SUPPORT. The steps of homes and networks whose conditions hold: accesses performed and answered, replies and wakes that reach their
strand, tagged replies that land, and contributions added and merged (R47, R98, R112, R178, R182 to R184, R190, R193, R196 to R199,
R202, R208, R211, R218, R222). -/

namespace Sys2Proof.Machine

/-! ## Their arms -/

theorem exec_homeAccess (n : Nat) (s : State) : exec (.homeAccess n) s = execHomeAccess n s := rfl

theorem exec_atomicAtHome (n : Nat) (s : State) : exec (.atomicAtHome n) s = execAtomicAtHome n s := rfl

theorem exec_loadReply (n : Nat) (s : State) : exec (.loadReply n) s = execLoadReply n s := rfl

theorem exec_postedWriteAck (n : Nat) (s : State) : exec (.postedWriteAck n) s = execPostedWriteAck n s := rfl

theorem exec_waitaWake (n : Nat) (s : State) : exec (.waitaWake n) s = execWaitaWake n s := rfl

theorem exec_sleepExpiry (k : StrandIx) (s : State) : exec (.sleepExpiry k) s = execSleepExpiry k s := rfl

theorem exec_lineRefetch (k : StrandIx) (s : State) : exec (.lineRefetch k) s = execLineRefetch k s := rfl

theorem exec_taggedLoadReply (n : Nat) (s : State) : exec (.taggedLoadReply n) s = execTaggedLoadReply n s := rfl

theorem exec_taggedLoadFault (n : Nat) (s : State) : exec (.taggedLoadFault n) s = execTaggedLoadFault n s := rfl

theorem exec_redAtHome (n : Nat) (s : State) : exec (.redAtHome n) s = execRedAtHome n s := rfl

theorem exec_redMerge (n m : Nat) (s : State) : exec (.redMerge n m) s = execRedMerge n m s := rfl

theorem exec_redHoldExpiry (n : Nat) (s : State) : exec (.redHoldExpiry n) s = execRedHoldExpiry n s := rfl

/-- A test that fails of every element succeeds of none. -/
theorem any_false {α : Type} {l : List α} {p : α → Bool} (h : ∀ a ∈ l, p a = false) : l.any p = false := by simpa using h

/-! ## Accesses at their homes (R178, R182 to R184, R190, R202) -/

section
variable {s : State} {bs : List (Nat × Byte)} (h : ∀ b ∈ bs, s.deadKey b.1 = false)
include h

theorem noteDropped_alive {n : Nat} (r : NetReq) : (s.takeReq n).noteDropped r bs = s.takeReq n :=
  if_neg (Bool.eq_false_iff.mp (any_false h))

/-- A write that meets no quarantined core is performed as a whole. -/
theorem landWrite_alive (hne : bs ≠ []) (k : StrandIx) (sync : Option SyncTag) (wid : Nat) (counted : Bool) :
    s.landWrite k bs sync wid counted =
      (s.meetUpsetsAs wid (s.posOf (coreOf k) (slotOf k)) (bs.map (·.1))).perform bs sync := by
  have hall : (bs.filter fun b => !s.deadKey b.1) = bs := List.filter_eq_self.mpr fun b hb => by rw [h b hb]; rfl
  have hfind : (bs.find? fun b => s.deadKey b.1) = none := List.find?_eq_none.mpr fun b hb => Bool.eq_false_iff.mp (h b hb)
  have hdrop : s.dropDead k bs wid = s := by rw [State.dropDead, hfind]
  rw [State.landWrite, hall, hdrop, ite_self]
  exact if_neg (by simpa using hne)

end

section
variable {s : State} {n : Nat} {r : NetReq} (hr : s.net.reqs[n]? = some r)
include hr

/-- A load none of whose parts lies in a quarantined core is served as a whole, and its reply sets out. -/
theorem exec_homeAccess_load {parts : List (Nat × Site)} (hk : r.kind = .load parts) (htag : r.tagged = none)
    (hbroken : s.brokenLocal (parts.flatMap fun p => p.2.readKeys) = false)
    (halive : ∀ p ∈ parts, ∀ k ∈ p.2.readKeys, s.deadKey k = false) :
    let u := (s.takeReq n).serveOf r.strand parts
    exec (.homeAccess n) s = .next (u.1.modNet fun m => { m with
      replies := m.replies ++ [⟨r.id, r.strand, r.gen, u.2.1, 0, u.2.2.1, u.2.2.2⟩] }) := by
  have hdead (p : Nat × Site) (hp : p ∈ parts) : p.2.readKeys.any s.deadKey = false := any_false (halive p hp)
  have hall : (parts.filter fun p => !p.2.readKeys.any s.deadKey) = parts :=
    List.filter_eq_self.mpr fun p hp => by rw [hdead p hp]; rfl
  have hnone : (parts.filter fun p => p.2.readKeys.any s.deadKey) = [] :=
    List.filter_eq_nil_iff.mpr fun p hp => Bool.eq_false_iff.mp (hdead p hp)
  intro u
  rw [exec_homeAccess, execHomeAccess, hr]
  dsimp only
  rw [hk]
  dsimp only
  rw [hbroken, if_neg Bool.false_ne_true, hall, hnone]
  dsimp only [u]
  rcases (s.takeReq n).serveOf r.strand parts with ⟨v, got, tags, fault⟩
  dsimp only
  rw [htag]
  cases fault <;> rfl

/-- A write with bytes of no quarantined core and no active claim is performed, and acknowledged with the last of its elements. -/
theorem exec_homeAccess_store {bs : List (Nat × Byte)} {y : Option SyncTag} (hk : r.kind = .store bs y) (hne : bs ≠ [])
    (hbroken : s.brokenLocal (bs.map (·.1)) = false) (hfree : ∀ b ∈ bs, s.claimed b.1 = false ∧ s.deadKey b.1 = false) :
    let u := ((s.takeReq n).meetUpsetsAs (s.seqWid r.core r.seq) (s.posOf (coreOf r.strand) (slotOf r.strand))
      (bs.map (·.1))).perform bs y
    exec (.homeAccess n) s = .next (if u.morePieces r then u else u.ackReq r) := by
  have hclaim : (bs.any fun b => s.claimed b.1) = false := any_false fun b hb => (hfree b hb).1
  have hland := landWrite_alive (s := s.takeReq n) (fun b hb => (hfree b hb).2) hne r.strand y
    (s.seqWid r.core r.seq) r.dropped
  intro u
  rw [exec_homeAccess, execHomeAccess, hr]
  dsimp only
  rw [hk]
  dsimp only
  rw [hclaim, hbroken, Bool.or_self, if_neg Bool.false_ne_true, noteDropped_alive (fun b hb => (hfree b hb).2), hland]
  rfl

/-- An atomic of a word in no quarantined core and under no active claim is one step, and its reply sets out. -/
theorem exec_atomicAtHome_alive {op : AtomOp} {ty : Ty} {y : Site} {b c : Word} {sync : Option SyncTag}
    (hk : r.kind = .atom op ty y b c sync) (hbroken : s.brokenLocal y.keys = false)
    (hfree : ∀ k ∈ y.keys, s.claimed k = false ∧ s.deadKey k = false) :
    let u := (s.takeReq n).doAtomOf r.strand op ty y b c sync
    exec (.atomicAtHome n) s = .next (u.1.modNet fun m => { m with
      replies := m.replies ++ [⟨r.id, r.strand, r.gen, [(0, u.2.1)], u.2.2.1, u.2.2.2.1, u.2.2.2.2.map fun t => (0, t)⟩] }) := by
  have hclaim : y.keys.any s.claimed = false := any_false fun k hk => (hfree k hk).1
  have hdead : y.keys.any s.deadKey = false := any_false fun k hk => (hfree k hk).2
  intro u
  rw [exec_atomicAtHome, execAtomicAtHome, hr]
  dsimp only
  rw [hk]
  dsimp only
  rw [hclaim, hbroken, hdead, Bool.or_self, if_neg Bool.false_ne_true, if_neg Bool.false_ne_true]
  rfl

end

/-! ## Replies, acknowledgements, wakes and timers (R47, R112, R182, R184, R193) -/

/-- What is in flight is no part of a strand. -/
@[simp] theorem strand_modNet (s : State) (f : Net → Net) (k : StrandIx) : (s.modNet f).strand k = s.strand k := rfl

/-- Nor is it anything of a core. -/
@[simp] theorem deadKey_modNet (s : State) (f : Net → Net) : (s.modNet f).deadKey = s.deadKey := rfl

/-- A strand that waits in its own stage is changed there. -/
theorem rewait_stage {x : Strand} {f : Stage → Option Stage} {st : Stage} (h : f x.stage = some st) :
    x.rewait f = { x with stage := st } := by
  unfold Strand.rewait
  rw [h]

/-- A reply reaches the live strand whose stage waits for it. -/
theorem exec_loadReply_reaches {s : State} {n : Nat} {r : Reply} {st : Stage} (hr : s.net.replies[n]? = some r)
    (hlive : (s.strand r.strand).live = true) (hgen : (s.strand r.strand).gen = r.gen)
    (hst : stageReply (s.strand r.strand).stage r = some st) : exec (.loadReply n) s =
      .next ((s.modNet fun m => { m with replies := m.replies.eraseIdx n }).modStrand r.strand fun x => { x with stage := st }) := by
  have hmine : ¬(!(s.strand r.strand).live || (s.strand r.strand).gen != r.gen) = true := by simp [hlive, hgen]
  rw [exec_loadReply, execLoadReply, hr]
  dsimp only
  rw [strand_modNet, if_neg hmine, hst]
  rfl

/-- A wake reaches the live strand that it was sent to. -/
theorem exec_waitaWake_reaches {s : State} {n : Nat} {w : Wake} (hw : s.net.wakes[n]? = some w)
    (hlive : (s.strand w.strand).live = true) (hgen : (s.strand w.strand).gen = w.gen)
    (hsent : (s.strand w.strand).stage = .wakeSent) : exec (.waitaWake n) s =
      .next ((s.modNet fun m => { m with wakes := m.wakes.eraseIdx n }).modStrand w.strand fun x =>
        { x with stage := .woken w.val w.tags w.bad }) := by
  have hmine : ((s.strand w.strand).live && (s.strand w.strand).gen == w.gen) = true := by simp [hlive, hgen]
  rw [exec_waitaWake, execWaitaWake, hw]
  dsimp only
  rw [strand_modNet, if_pos hmine, rewait_stage (if_pos hsent)]
  rfl

/-- A refetch changes the core's store and what homes keep. -/
theorem refetchLine_cur (s : State) (t : Word) : (s.refetchLine t).1.cur = s.cur :=
  ((HomeOnly.countCore _ _ _).trans ((HomeOnly.logCorrected ..).trans (HomeOnly.meetBacking _ t))).cur

@[simp] theorem keepLine_cur (s : State) (base : Nat) (l : Line) : (s.keepLine base l).cur = s.cur := by
  unfold State.keepLine
  dsimp only
  split <;> rfl

/-- The current strand's line comes back sound and marked where it must be: the strand holds it and goes on. -/
theorem exec_lineRefetch_sound {s u : State} {t : Word} {b : Bool} {l : Line} (hwait : s.me.refetch = some (t, b))
    (hline : s.refetchLine t = (u, .ok l)) (htgt : targetMiss t (!b) l = none) : exec (.lineRefetch s.cur) s =
      .next (State.keepLine { u with me := { u.me with refetch := none } } (lineBase t).toNat l) := by
  have hcur : u.cur = s.cur := by rw [← refetchLine_cur s t, hline]
  rw [exec_lineRefetch, execLineRefetch, State.strand_cur, hwait]
  dsimp only
  rw [switchTo_self rfl, hline]
  dsimp only
  rw [htgt]
  dsimp only
  exact congrArg Host.Outcome.next (switchTo_self ((keepLine_cur ..).trans hcur))

theorem homeStepsComplete : Statements.HomeStepsComplete := by
  intro s n
  refine ⟨fun _ _ hr => exec_homeAccess_load hr, fun _ _ _ hr => exec_homeAccess_store hr,
    fun _ _ _ _ _ _ _ hr => exec_atomicAtHome_alive hr, fun _ _ => exec_loadReply_reaches, fun a ha => ?_,
    fun _ => exec_waitaWake_reaches, fun k t hstage hover => ?_, fun _ _ _ _ => exec_lineRefetch_sound⟩
  · rw [exec_postedWriteAck, execPostedWriteAck, ha]
    rfl
  · rw [exec_sleepExpiry, execSleepExpiry, hstage]
    exact if_pos hover

/-! ## Tagged loads (R208, R211, R218, R222) -/

section
variable {s : State} {r : ReplyTo}

theorem land_stale (h : s.entryFor r = none) (v : Word) (f : Option Trap) : s.land r v f = s.countCore (coreOf r.strand) 0x01 := by
  rw [State.land, h]

/-- An entry that is still the reply's takes its value, and is stamped with the die's cycle. -/
theorem land_value {e : LEntry} (h : s.entryFor r = some e) (v : Word) : s.land r v none = s.modStrand r.strand fun x =>
    x.stampEntry (s.dieRec (dieOf (coreOf r.strand))).cyc { e with st := .landed, val := v } := by
  rw [State.land, h]

/-- Or it takes the reply's fault. -/
theorem land_fault {e : LEntry} (h : s.entryFor r = some e) (v : Word) (t : Trap) :
    s.land r v (some t) = s.modStrand r.strand fun x =>
      x.stampEntry (s.dieRec (dieOf (coreOf r.strand))).cyc { e with st := .faulted, fault := some t } := by
  rw [State.land, h]

theorem landTags_none (s : State) (r : ReplyTo) : s.landTags r [] = s := by
  unfold State.landTags
  split <;> rfl

end

theorem exec_taggedLoadReply_lands {s : State} {n : Nat} {r : TagReply} (hr : s.net.tagReplies[n]? = some r)
    (hheld : s.landHeld r.ref = false) (htags : r.tags = []) : exec (.taggedLoadReply n) s =
      .next ((s.modNet fun m => { m with tagReplies := m.tagReplies.eraseIdx n }).land r.ref (BitVec.ofNat 64 r.val) r.fault) := by
  rw [exec_taggedLoadReply, execTaggedLoadReply, hr]
  dsimp only
  rw [hheld, if_neg Bool.false_ne_true, htags, landTags_none]
  rfl

/-- A check's fault lands in the entry that is still its own. -/
theorem exec_taggedLoadFault_lands {s : State} {n : Nat} {c : TagCheck} {t : Trap} (hc : s.net.checks[n]? = some c)
    (hfault : c.fault = some t) (hheld : s.landHeld c.ref.back = false) (hentry : (s.entryFor c.ref.back).isSome = true) :
    exec (.taggedLoadFault n) s =
      .next ((s.modNet fun m => { m with checks := m.checks.eraseIdx n }).land c.ref.back 0 (some t)) := by
  rw [exec_taggedLoadFault, execTaggedLoadFault, hc]
  dsimp only
  rw [hfault]
  dsimp only
  rw [hheld, if_neg Bool.false_ne_true]
  exact congrArg Host.Outcome.next (if_pos hentry)

/-! ### Stamps (R208) -/

/-- The first entry stamped in a cycle takes the next stamp. -/
theorem stampEntry_first {x : Strand} {now : Word} (h : x.stampCyc ≠ some now) (e : LEntry) : x.stampEntry now e =
    { x.setEntry { e with stamp := x.nextStamp } with nextStamp := x.nextStamp + 1, stampCyc := some now } := if_neg h

/-- A further entry stamped in the same cycle takes the same stamp. -/
theorem stampEntry_again {x : Strand} {now : Word} (h : x.stampCyc = some now) (e : LEntry) :
    x.stampEntry now e = x.setEntry { e with stamp := x.nextStamp - 1 } := if_pos h

theorem taggedRepliesLand : Statements.TaggedRepliesLand := by
  intro s n
  refine ⟨fun _ => exec_taggedLoadReply_lands, fun r hr hheld => ?_, fun _ _ => exec_taggedLoadFault_lands,
    fun _ v f h => land_stale h v f, fun _ v _ h => land_value h v, fun _ v _ t h => land_fault h v t,
    fun x now e h => ⟨stampEntry_first h e, fun e' => ?_⟩⟩
  · rw [exec_taggedLoadReply, execTaggedLoadReply, hr]
    exact if_pos hheld
  · have hcyc : (x.stampEntry now e).stampCyc = some now := by rw [stampEntry_first h]
    have hnext : (x.stampEntry now e).nextStamp - 1 = x.nextStamp := by rw [stampEntry_first h]; rfl
    rw [stampEntry_again hcyc, hnext]

/-! ## Reductions (R98, R196 to R199) -/

/-- A contribution to a word in no quarantined core and under no active claim is added, exactly where it is a float's addition to a
reduction window, and every core it stands for is acknowledged. -/
theorem exec_redAtHome_added {s : State} {n : Nat} {p : RedPkt} (hp : s.net.reds[n]? = some p) (hbroken : s.brokenLocal p.keys = false)
    (hfree : ∀ k ∈ p.keys, s.claimed k = false ∧ s.deadKey k = false) :
    let u := s.modNet fun m => { m with reds := m.reds.eraseIdx n }
    exec (.redAtHome n) s = .next (p.srcs.foldl (fun s q => s.ack ⟨q.1, q.2⟩)
      (if p.rwin && p.op == .add && Ty.isFlt p.ty then u.redExact p
        else u.redWord (u.redSource p) p.op p.ty p.keys p.val p.sync.getLast?)) := by
  have hclaim : p.keys.any s.claimed = false := any_false fun k hk => (hfree k hk).1
  have hdead : p.keys.any s.deadKey = false := any_false fun k hk => (hfree k hk).2
  intro u
  rw [exec_redAtHome, execRedAtHome, hp]
  dsimp only
  rw [hclaim, hbroken, Bool.or_self, if_neg Bool.false_ne_true, deadKey_modNet, hdead, if_neg Bool.false_ne_true]
  rfl

/-- The word an accumulator shows where no special has entered it: its sum rounded once to nearest even. -/
theorem exactAcc_value_finite {a : ExactAcc} (hnan : a.nan = false) (hpinf : a.pinf = false) (hninf : a.ninf = false) : a.value =
    (Num.roundTo (if a.ty = .bf16 then .bf16 else .f32) .nearestEven 0
      ⟨if a.sum = 0 then a.allNegZero else decide (a.sum < 0), a.sum.natAbs, -149, false⟩).1 := by
  rw [ExactAcc.value, hnan, hpinf, hninf]
  rfl

theorem reductionSteps : Statements.ReductionSteps := by
  intro s n m
  refine ⟨fun p hp hbroken hfree => ?_, fun _ _ _ => rfl, fun _ => exactAcc_value_finite, ?_, fun p t hp hheld hover => ?_⟩
  · have hadded := exec_redAtHome_added hp hbroken hfree
    intro u
    refine ⟨fun hplain => ?_, fun hwin hop hflt => ?_⟩
    · rw [hadded, hplain]
      rfl
    · rw [hadded, hwin, hop, hflt]
      rfl
  · intro p q hp hq hne hpwin hqwin hkeys hop hty now hpopen hqopen
    have hmerges : ¬(n = m ∨ !(p.rwin && q.rwin) ∨ p.keys ≠ q.keys ∨ p.op ≠ q.op ∨ p.ty ≠ q.ty ∨ !p.open now ∨ !q.open now) := by
      simp [hne, hpwin, hqwin, hkeys, hop, hty, hpopen, hqopen]
    rw [exec_redMerge, execRedMerge, hp, hq]
    exact if_neg hmerges
  · rw [exec_redHoldExpiry, execRedHoldExpiry, hp]
    dsimp only
    rw [hheld]
    exact if_neg (Nat.not_lt.mpr hover)

/-- Settles O45: where its conditions hold each step is its one change of the state, and two stamps of one cycle are equal because the
first moves the next stamp on by one. -/
theorem homeSteps : Obligations.HomeSteps := ⟨homeStepsComplete, taggedRepliesLand, reductionSteps⟩

end Sys2Proof.Machine
end

section
/-! SUPPORT. The forms of a landing set: tagged loads that come to issue, the entry each resolving form finds or does not, and the
entries taken in the taking order (R141, R207, R210, R211, R214 to R221). -/

namespace Sys2Proof.Machine

/-! ## Their arms -/

theorem exec_ldt (x : LdtA) (s : State) : exec (.ldt x) s = (runLdt x s).finish s := rfl

theorem exec_vgatht (x : VGatTA) (s : State) : exec (.vgatht x) s = (runVgatht x s).finish s := rfl

theorem exec_lscnt (d : GReg) (s : State) : exec (.lscnt d) s = (runLscnt d s).finish s := rfl

theorem exec_lreissue (x : TagA) (s : State) : exec (.lreissue x) s = (runLreissue x s).finish s := rfl

theorem exec_lfill (x : TagFA) (s : State) : exec (.lfill x) s = (runLfill x s).finish s := rfl

theorem exec_ldrop (x : TagA) (s : State) : exec (.ldrop x) s = (runLdrop x s).finish s := rfl

theorem exec_ldropAny (x : TagA) (s : State) : exec (.ldropAny x) s = (runLdropAny x s).finish s := rfl

theorem exec_take (x : TakeA) (s : State) : exec (.take x) s = (takeForm x false s).finish s := rfl

theorem exec_takeNb (x : TakeA) (s : State) : exec (.takeNb x) s = (takeForm x true s).finish s := rfl

theorem exec_vtake (x : VTakeA) (s : State) : exec (.vtake x) s = (runVtake x s).finish s := rfl

/-! ## Tagged loads (R210, R211, R307) -/

theorem afterPasses_idle {s : State} (h : s.me.tr.st ≠ .running) (r : Res) : afterPasses s r = r := if_neg h

/-- Requests that pass the checks made at issue allocate their entries and leave in order. -/
theorem issueTagged_taggable {s : State} {ty : Ty} {rs : List TagReq} (h : s.taggable ty rs) (a : Attr) (acq : Bool) :
    s.issueTagged ty a acq rs = .ok (s.tagged ty a.scope acq rs) := by
  obtain ⟨hsound, hroom, hposted⟩ := h
  unfold State.issueTagged
  simp only [hsound]
  rw [if_neg (Nat.not_lt.mpr hroom)]
  refine (if_neg ?_).trans rfl
  exact fun hown => Bool.noConfusion (hposted.symm.trans hown)

/-- With more requests than free entries the set is full, and nothing is allocated (R211). -/
theorem issueTagged_full {s : State} {ty : Ty} {rs : List TagReq}
    (hsound : s.tagIssueFault (ty.width / 8) ((rs.map (·.addr)).headD 0) rs = none) (hfull : s.me.freeEntries.length < rs.length)
    (a : Attr) (acq : Bool) : s.issueTagged ty a acq rs = trapOf s 0x21 0 0 := by
  unfold State.issueTagged
  simp only [hsound]
  exact if_pos hfull

theorem taggedLoadsIssue : Statements.TaggedLoadsIssue := by
  intro s hfree
  refine ⟨?_, ?_, fun x hrun hsound hnone => ?_⟩
  · intro x rs htag
    rw [exec_ldt, runLdt, memOp_free hfree]
    dsimp only
    rw [issueTagged_taggable htag, finish_ok]
  · intro x rs hrun htag
    rw [exec_vgatht, runVgatht, afterPasses_idle hrun, memOp_free hfree]
    dsimp only
    rw [issueTagged_taggable htag, finish_ok]
  · have hfull : s.me.freeEntries.length < 1 := by simp [hnone]
    rw [exec_ldt, runLdt, memOp_free hfree]
    dsimp only
    rw [issueTagged_full hsound hfull, trapOf, finish_trap _ _ _ hrun, State.traps]

/-! ## Counting and resolving (R219 to R221) -/

section
variable {s : State} {d : GReg} {f : State → LEntry → State}

theorem resolving_found {o : Option LEntry} {e : LEntry} (h : o = some e) : resolving s d o f = .ok ((f s e).wg d 1) := by
  rw [h, resolving]

theorem resolving_missing {o : Option LEntry} (h : o = none) : resolving s d o f = .ok (s.wg d 0) := by
  rw [h, resolving]

end

theorem entryResolution : Statements.EntryResolution := by
  intro s
  refine ⟨fun d => ?_, fun x e he => ?_, fun x e he => ?_, fun x e he => ?_, fun x e he => ?_, fun x he => ?_, fun x he => ?_,
    fun x he => ?_, fun x he => ?_⟩
  · rw [exec_lscnt, runLscnt, finish_ok]
    rfl
  · rw [exec_lreissue, runLreissue, resolving_found he, finish_ok]
  · rw [exec_lfill, runLfill, resolving_found he, finish_ok]
  · rw [exec_ldrop, runLdrop, resolving_found he, finish_ok]
  · rw [exec_ldropAny, runLdropAny, resolving_found he, finish_ok]
  · rw [exec_ldrop, runLdrop, resolving_missing he, finish_ok]
  · rw [exec_lfill, runLfill, resolving_missing he, finish_ok]
  · rw [exec_lreissue, runLreissue, resolving_missing he, finish_ok]
  · rw [exec_ldropAny, runLdropAny, resolving_missing he, finish_ok]

/-- Settles O20: past its checks a tagged load allocates and sends, and a resolving form acts on the entry its tag finds, or on none. -/
theorem taggedLoadsAndTheirEntries : Obligations.TaggedLoadsAndTheirEntries := ⟨taggedLoadsIssue, entryResolution⟩

/-! ## Taking (R214, R215, R218) -/

/-- A faulted entry that comes next raises landing fault with its own cause, and is noted as met in this cycle. -/
theorem finish_landingFault {s : State} {e : LEntry} {f : Trap} (hf : e.fault = some f) (s0 : State) (hrun : s0.me.tr.st ≠ .running) :
    (landingFault s e).finish s0 =
      .next (State.takeTrap { s with me := { s.me with took := some ((s.dieRec (dieOf s.core)).cyc, e.pos) } }
        ⟨0x20, f.cause, f.val, none, e.tag⟩ 0) := by
  unfold landingFault
  simp only [hf]
  rw [finish_trap _ _ _ hrun]

section
variable {x : TakeA} {s : State} {e : LEntry} {es : List LEntry}

theorem takeForm_taken (horder : s.me.takeOrder = e :: es) (hst : e.st ≠ .faulted) (nb : Bool) :
    takeForm x nb s =
      let t : State := { s with me := s.me.takeEntries (s.dieRec (dieOf s.core)).cyc [e] }
      .ok ((((t.wg x.d e.val).wg x.t (e.tag.setWidth 64)).wp x.p true).setNone false) := by
  unfold takeForm
  simp only [horder]
  exact if_neg hst

theorem takeForm_faulted (horder : s.me.takeOrder = e :: es) (hst : e.st = .faulted) (nb : Bool) :
    takeForm x nb s = landingFault s e := by
  unfold takeForm
  simp only [horder]
  exact if_pos hst

theorem takeForm_none (horder : s.me.takeOrder = []) {nb : Bool} (hover : ¬(0 < s.me.outstanding ∧ (!nb) = true)) :
    takeForm x nb s = .ok ((((s.wg x.d (BitVec.ofNat 64 s.me.outstanding)).wg x.t 0xFFFF).wp x.p false).setNone true) := by
  unfold takeForm
  simp only [horder]
  exact if_neg hover

theorem takeForm_waits (horder : s.me.takeOrder = []) (hout : 0 < s.me.outstanding) : takeForm x false s = .wait s .take := by
  unfold takeForm
  simp only [horder]
  exact if_pos ⟨hout, rfl⟩

end

theorem takesComplete : Statements.TakesComplete := by
  intro x s none'
  refine ⟨?_, fun horder => ⟨?_, fun hzero => ?_, fun hout => ?_⟩, ?_⟩
  · intro e es horder hst t u
    rw [exec_take, exec_takeNb, takeForm_taken horder hst, takeForm_taken horder hst]
    exact ⟨rfl, rfl⟩
  · rw [exec_takeNb, takeForm_none horder (fun h => Bool.noConfusion h.2), finish_ok]
  · rw [exec_take, takeForm_none horder (fun h => Nat.ne_of_gt h.1 hzero), finish_ok]
  · rw [exec_take, takeForm_waits horder (Nat.pos_of_ne_zero hout), finish_wait]
  · intro e es f horder hst hf hrun u
    rw [exec_take, exec_takeNb, takeForm_faulted horder hst, takeForm_faulted horder hst, finish_landingFault hf s hrun]
    exact ⟨rfl, rfl⟩

/-! ## VTAKE (R141, R215 to R217) -/

@[simp] theorem Strand.dropEntry_v (x : Strand) (i : Nat) : (x.dropEntry i).v = x.v := rfl

/-- Taking entries leaves the vector registers alone. -/
@[simp] theorem Strand.takeEntries_v (x : Strand) (now : Word) (es : List LEntry) : (x.takeEntries now es).v = x.v := by
  unfold Strand.takeEntries
  dsimp only
  induction es generalizing x with
  | nil => rfl
  | cons e r ih => exact (ih (x.dropEntry e.idx)).trans (x.dropEntry_v e.idx)

theorem rv_takeEntries (s : State) (now : Word) (es : List LEntry) (r : VReg) :
    State.rv { s with me := s.me.takeEntries now es } r = s.rv r := by
  unfold State.rv Strand.readV
  rw [Strand.takeEntries_v]

/-- VTAKE looks for a faulted entry at the front of the order only. -/
theorem find?_faulted_head (l : List LEntry) :
    (l.find? fun e => e.st == .faulted && l.head? == some e) = l.head?.filter fun e => e.st == .faulted := by
  cases l with
  | nil => rfl
  | cons y r =>
    by_cases hy : y.st = .faulted
    · simp [Option.filter, hy]
    · have hr : ∀ e ∈ r, e.st = .faulted → y ≠ e := fun e _ he hye => hy (hye ▸ he)
      simpa [Option.filter, hy] using hr

/-- The entries a VTAKE takes from s. -/
def vtakeEntries (x : VTakeA) (s : State) : List LEntry :=
  (s.me.takeOrder.takeWhile fun e => e.st == .landed).take
    (min (x.n1.val + 1) ((List.range x.ty.count).filter (s.vsel x.ty x.sel)).length)

/-- What a VTAKE of entries es writes in t, where s is the state before it. -/
def vtakeWrites (x : VTakeA) (s : State) (es : List LEntry) (t : State) : State :=
  let lanes := (List.range x.ty.count).filter (s.vsel x.ty x.sel)
  let t1 := t.wv x.d (fillLanes x.ty.width (zeroing x.sel) lanes (es.map fun e => e.val.toNat) (s.rv x.d))
  let t2 := t1.wv x.t (fillLanes x.ty.width (zeroing x.sel) lanes (es.map fun e => e.tag.toNat) (t1.rv x.t))
  (t2.wg x.c (BitVec.ofNat 64 es.length)).setNone es.isEmpty

section
variable {x : VTakeA} {s : State} (hrun : s.me.tr.st ≠ .running)
include hrun

/-- With no entry taken, VTAKE meets a faulted entry at the front, waits, or writes that it took none. -/
theorem runVtake_none (hnone : vtakeEntries x s = []) : runVtake x s =
    match s.me.takeOrder.head?.filter fun e => e.st == .faulted with
    | some e => landingFault s e
    | none => if 0 < s.me.outstanding ∧ (!x.nb) = true then .wait s .take else .ok (vtakeWrites x s [] s) := by
  unfold runVtake
  rw [afterPasses_idle hrun]
  unfold vtakeEntries at hnone
  simp only [hnone, find?_faulted_head]
  rfl

theorem runVtake_faulted (hnone : vtakeEntries x s = []) {e : LEntry} (hnext : s.me.takeOrder.head? = some e) (hst : e.st = .faulted) :
    runVtake x s = landingFault s e := by
  have hfront : (s.me.takeOrder.head?.filter fun e => e.st == .faulted) = some e := by
    simp [Option.filter, hnext, hst]
  rw [runVtake_none hrun hnone, hfront]

theorem runVtake_unfaulted (hnone : vtakeEntries x s = []) (hnext : ∀ e, s.me.takeOrder.head? = some e → e.st ≠ .faulted) :
    runVtake x s = if 0 < s.me.outstanding ∧ (!x.nb) = true then .wait s .take else .ok (vtakeWrites x s [] s) := by
  have hfront : (s.me.takeOrder.head?.filter fun e => e.st == .faulted) = none := by
    simpa [Option.filter_eq_none_iff] using hnext
  rw [runVtake_none hrun hnone, hfront]

theorem runVtake_taken (hsome : vtakeEntries x s ≠ []) : runVtake x s =
    .ok (vtakeWrites x s (vtakeEntries x s) { s with me := s.me.takeEntries (s.dieRec (dieOf s.core)).cyc (vtakeEntries x s) }) := by
  unfold runVtake
  rw [afterPasses_idle hrun]
  refine (if_neg fun h => hsome (List.isEmpty_iff.mp h)).trans ?_
  simp only [rv_takeEntries]
  rfl

end

theorem vectorTakeCompletes : Statements.VectorTakeCompletes := by
  intro x s lanes es z w next hrun
  have hes : vtakeEntries x s = es := rfl
  refine ⟨fun hnone hnext hout hnb => ?_, fun e f hnone hnext hst hf => ?_, ?_⟩
  · have hwaits : 0 < s.me.outstanding ∧ (!x.nb) = true := ⟨Nat.pos_of_ne_zero hout, by rw [hnb]; rfl⟩
    rw [exec_vtake, runVtake_unfaulted hrun hnone hnext, if_pos hwaits, finish_wait]
  · rw [exec_vtake, runVtake_faulted hrun hnone hnext hst, finish_landingFault hf s hrun]
  · intro hends t t1 t2
    change exec (.vtake x) s = .next (vtakeWrites x s es t).goesOn
    by_cases hnone : es = []
    · obtain ⟨hnext, hover⟩ := hends.resolve_left (not_not.mpr hnone)
      have hstays : ¬(0 < s.me.outstanding ∧ (!x.nb) = true) := by
        rintro ⟨hout, hnb⟩
        rcases hover with hzero | htrue
        · exact Nat.ne_of_gt hout hzero
        · simp [htrue] at hnb
      have ht : t = s := if_pos hnone
      rw [exec_vtake, runVtake_unfaulted hrun hnone hnext, if_neg hstays, finish_ok, ht, hnone]
    · have ht : t = { s with me := s.me.takeEntries (s.dieRec (dieOf s.core)).cyc es } := if_neg hnone
      rw [exec_vtake, runVtake_taken hrun hnone, finish_ok, ht, hes]

/-- Settles O21: each take is decided by what stands at the front of the taking order, and taking entries leaves the registers VTAKE fills
as they were. -/
theorem takes : Obligations.Takes := ⟨takesComplete, vectorTakeCompletes⟩

end Sys2Proof.Machine
end

section
/-! SUPPORT. The forms that make a phaser and change its members: what each leaves where its checks pass (R279 to R281). -/

namespace Sys2Proof.Machine

/-! ## Their arms -/

theorem exec_phinit (x : DA) (s : State) : exec (.phinit x) s = (runPhinit x s).finish s := rfl

theorem exec_phreg (x : PhRegA) (s : State) : exec (.phreg x) s = (runPhreg x s).finish s := rfl

theorem exec_phdrop (a : GReg) (s : State) : exec (.phdrop a) s = (runPhdrop a s).finish s := rfl

/-! ## The end of a form that is a side effect (R307) -/

theorem finish_sided_ok (u s : State) : ((Res.ok u).map State.sided).finish s = .next u.sided.goesOn := rfl

theorem finish_sided_wait (u s : State) (w : WaitKind) : ((Res.wait u w).map State.sided).finish s = .next (u.waits w) := rfl

/-! ## Making a phaser (R279, R281) -/

section
variable {s : State} {blk idx : Nat}
  (hidle : ∀ p, s.phaser s.me.wid blk idx = some p → p.poisoned = false ∧ s.membersOf p = [] ∧ p.held = [])
include hidle

theorem phaser_not_poisoned : ((s.phaser s.me.wid blk idx).map (·.poisoned)).getD false = false := by
  cases hp : s.phaser s.me.wid blk idx with
  | none => rfl
  | some p => exact (hidle p hp).1

theorem phaser_not_inUse : ((s.phaser s.me.wid blk idx).any fun p => !(s.membersOf p).isEmpty || !p.held.isEmpty) = false := by
  cases hp : s.phaser s.me.wid blk idx with
  | none => rfl
  | some p =>
    obtain ⟨-, hmembers, hheld⟩ := hidle p hp
    rw [Option.any_some, hmembers, hheld]
    rfl

theorem runPhinit_idle {x : DA} (hengine : s.engine (s.rg x.a) recPhas = .ok (blk, idx)) (hchk : hChk (s.rg x.a) = 0)
    (hm : hM (s.rg x.a) = false) (hmem : hMem (s.rg x.a) = 0) (hwaits : s.phWaits s.me.wid blk idx = false) :
    runPhinit x s = (Res.ok ((State.setPhaser { s with freeCtr := s.freeCtr + 1 }
      ⟨s.me.wid, blk, idx, Config.freeChk s.freeCtr, 0, [], false⟩).wg x.d
        (fullHandle (s.rg x.a) (Config.freeChk s.freeCtr)))).map State.sided := by
  unfold runPhinit
  simp only [hengine]
  rw [if_neg (by simp [hchk, hm, hmem]), if_neg (Bool.eq_false_iff.mp (phaser_not_poisoned hidle)),
    if_neg (by rw [phaser_not_inUse hidle, hwaits]; decide)]
  rfl

end

/-! ## Adding a member (R280, R281) -/

theorem runPhreg_admits {x : PhRegA} {s : State} {p : Phaser} {n : Nat} (hp : s.phaserOf (s.rg x.a) = .ok p)
    (hm : hM (s.rg x.a) = false) (hmem : hMem (s.rg x.a) = 0)
    (hfree : (List.range 2048).find? (fun n => !s.members.any fun m => m.blk == p.blk && m.mem == n) = some n) :
    runPhreg x s = (Res.ok (State.wg { s with members := s.members ++
      [⟨p.blk, n, p.wid, p.idx, x.mode, if (s.membersOf p).any Member.counts then .joining else .active, false⟩] } x.d
        (tokenOf (s.rg x.a) n))).map State.sided := by
  unfold runPhreg
  simp only [hp]
  rw [if_neg (by simp [hm, hmem]), hfree]

/-! ## Taking a member away (R280, R281) -/

section
variable {a : GReg} {s : State} {p : Phaser} {m : Member}
  (hfree : ¬(s.me.tr.st = .running ∧ s.me.tr.entries.any (fun e => entryTouchesMem e.instr) = true))
include hfree

theorem signalOp_free (k : State → Res) : signalOp s k = k s := afterMemPasses_free hfree _

variable (hmember : s.memberOf (s.rg a) = .ok (p, m))
include hmember

/-- A member that has not yet joined counts in no phase, and is gone at once. -/
theorem runPhdrop_joining (hstatus : m.status = .joining) :
    runPhdrop a s = (Res.ok { s with
      members := s.members.filter fun y => !(y.wid == p.wid && y.blk == p.blk && y.mem == m.mem) }).map State.sided := by
  unfold runPhdrop
  rw [signalOp_free hfree]
  simp only [hmember, hstatus]

/-- A member that owes no signal leaves at the boundary. -/
theorem runPhdrop_silent (hstatus : m.status = .active) (hsig : (signals m.mode && !m.sig) = false) :
    runPhdrop a s = (Res.ok (s.modMember p m.mem fun m => { m with status := .leaving })).map State.sided := by
  unfold runPhdrop
  rw [signalOp_free hfree]
  simp only [hmember, hstatus]
  rw [if_neg (Bool.eq_false_iff.mp hsig)]

/-- A member that owes its signal gives it in leaving, which may complete the phase. -/
theorem runPhdrop_signals (hstatus : m.status = .active) (hsig : (signals m.mode && !m.sig) = true) (hdrained : s.drained) :
    runPhdrop a s = (Res.ok ((s.markIssue.modMember p m.mem fun m => { m with status := .leaving, sig := true }).boundary
      p.wid p.blk p.idx (p.held.length + 2))).map State.sided := by
  unfold runPhdrop
  rw [signalOp_free hfree]
  simp only [hmember, hstatus]
  rw [if_pos hsig, releaseWait_drained hdrained]

end

/-- Settles O22: past its checks each form makes the one change of its rule; PHDROP by the member's status, and by whether it owes a
signal. -/
theorem phaserMembership : Obligations.PhaserMembership := by
  intro s
  refine ⟨fun x blk idx hengine hchk hm hmem hidle hwaits => ?_, fun x p n hp hm hmem hfree => ?_,
    fun a p m hfree hmember => ⟨fun hstatus => ?_, fun hstatus hsig => ?_, fun hstatus hsig hdrained => ?_⟩⟩
  · rw [exec_phinit, runPhinit_idle hidle hengine hchk hm hmem hwaits, finish_sided_ok]
  · rw [exec_phreg, runPhreg_admits hp hm hmem hfree, finish_sided_ok]
  · rw [exec_phdrop, runPhdrop_joining hfree hmember hstatus, finish_sided_ok]
  · rw [exec_phdrop, runPhdrop_silent hfree hmember hstatus hsig, finish_sided_ok]
  · rw [exec_phdrop, runPhdrop_signals hfree hmember hstatus hsig hdrained, finish_sided_ok]

end Sys2Proof.Machine
end

section
/-! SUPPORT. Signals, waits and boundaries of phasers and wired phasers: what a signal comes to, the two ways a wait looks at its phase,
and what a boundary makes of a phaser and its members (R280 to R284). -/

namespace Sys2Proof.Machine

/-! ## Their arms -/

theorem exec_phsig (x : DA) (s : State) : exec (.phsig x) s = (runPhsig x s).finish s := rfl

theorem exec_phwait (x : DAB) (s : State) : exec (.phwait x) s = (runPhwait x s).finish s := rfl

theorem exec_phsw (x : DA) (s : State) : exec (.phsw x) s = (runPhsw x s).finish s := rfl

theorem exec_warr (x : WArrA) (s : State) : exec (.warr x) s = (runWarr x s).finish s := rfl

theorem exec_wwait (x : WWaitA) (s : State) : exec (.wwait x) s = (runWwait x s).finish s := rfl

theorem finish_sided_trap {s : State} (h : s.me.tr.st ≠ .running) (u : State) (t : Trap) :
    ((Res.trap u t).map State.sided).finish s = .next (u.takeTrap t 0) := finish_trap u s t h

/-! ## Signals (R280 to R282) -/

/-- With the phase not complete there is no boundary. -/
theorem boundary_incomplete {s : State} {p : Phaser} {wid blk idx : Nat} (hp : s.phaser wid blk idx = some p)
    (h : s.phaseDone p = false) (n : Nat) : s.boundary wid blk idx n = s := by
  cases n with
  | zero => rfl
  | succ n =>
    rw [State.boundary, hp]
    simp [h]

/-- A member's first signal in a phase, with which the phase is not yet complete: it is counted, and the strand notes the phase. -/
theorem signal_counted {s : State} {p : Phaser} {m : Member} {k : StrandIx} {sw : Bool} (hstatus : m.status = .active)
    (hsig : m.sig = false) (hp : s.phaser p.wid p.blk p.idx = some p)
    (hopen : ((s.modMember p m.mem fun m => { m with sig := true }).modStrand k fun x =>
      { x with stage := signalled p.blk p.idx p.p sw }).phaseDone p = false) :
    s.signal p m k sw = (s.modMember p m.mem fun m => { m with sig := true }).modStrand k fun x =>
      { x with stage := signalled p.blk p.idx p.p sw } := by
  have hphaser : ((s.modMember p m.mem fun m => { m with sig := true }).modStrand k fun x =>
      { x with stage := signalled p.blk p.idx p.p sw }).phaser p.wid p.blk p.idx = some p := by
    rw [State.phaser, State.modStrand_phasers]
    exact hp
  rw [State.signal, if_pos ⟨hstatus, by rw [hsig]; rfl⟩]
  exact boundary_incomplete hphaser hopen _

/-- What the turn of a signal given now comes to, by the stage it leaves its strand in. -/
def signalOutcome (d : GReg) (v : State) : Res :=
  match v.me.stage with
  | .sigDone q => .ok (v.wg d (q.setWidth 64))
  | .phDone q => .ok (v.wg d (q.setWidth 64))
  | .phSw .. => .wait v .phwait
  | _ => .wait v .signal

section
variable {s : State} {h : Word} {p : Phaser} {m : Member} {ok : PhMode → Bool} {sw : Bool} {d : GReg}
  (hstage : s.me.stage = .none) (hmember : s.memberOf h = .ok (p, m))
include hstage hmember

theorem signalTurn_gives (hok : ok m.mode = true) (hdrained : s.drained) :
    signalTurn s h ok sw d = signalOutcome d (s.markIssue.signal p m s.cur sw) := by
  unfold signalTurn
  simp only [hstage, hmember]
  rw [hok, if_neg (by decide), releaseWait_drained hdrained]
  rfl

theorem signalTurn_refused (hok : ok m.mode = false) : signalTurn s h ok sw d = .trap s (rights 22 h) := by
  unfold signalTurn
  simp only [hstage, hmember]
  rw [hok, if_pos (by decide)]

end

section
variable {d : GReg} {v : State}

theorem signalOutcome_sigDone {q : BitVec 32} (h : v.me.stage = .sigDone q) :
    signalOutcome d v = .ok (v.wg d (q.setWidth 64)) := by rw [signalOutcome, h]

theorem signalOutcome_phDone {q : BitVec 32} (h : v.me.stage = .phDone q) :
    signalOutcome d v = .ok (v.wg d (q.setWidth 64)) := by rw [signalOutcome, h]

theorem signalOutcome_phSw {b i : Nat} {q : BitVec 32} (h : v.me.stage = .phSw b i q) :
    signalOutcome d v = .wait v .phwait := by rw [signalOutcome, h]

theorem signalOutcome_sigHeld {sw : Bool} (h : v.me.stage = .sigHeld sw) :
    signalOutcome d v = .wait v .signal := by rw [signalOutcome, h]

end

/-! ## Waits (R282) -/

/-- What a wait's turn comes to at a phaser as it stands. -/
theorem waitTurn_looks {s : State} {h : Word} {p : Phaser} {m : Member} {x : BitVec 32} {ok : PhMode → Bool} {d : GReg}
    (hstage : s.me.stage = .none) (hmember : s.memberOf h = .ok (p, m)) (hok : ok m.mode = true) (hsound : p.poisoned = false) :
    waitTurn s h x ok false d = if phaseOver p.p x then .ok (s.wg d (p.p.setWidth 64))
      else .wait { s with me := { s.me with stage := .phWait p.blk p.idx x } } .phwait := by
  unfold waitTurn
  simp only [hstage, hmember]
  rw [hok, if_neg (by decide), hsound]
  rfl

theorem waitTurn_ended {s : State} {p : BitVec 32} (hstage : s.me.stage = .phDone p) (h : Word) (x : BitVec 32) (ok : PhMode → Bool)
    (sw : Bool) (d : GReg) : waitTurn s h x ok sw d = .ok (s.wg d (p.setWidth 64)) := by
  unfold waitTurn
  rw [hstage]

/-! ## The phaser forms -/

section
variable {s : State}
  (hfree : ¬(s.me.tr.st = .running ∧ s.me.tr.entries.any (fun e => entryTouchesMem e.instr) = true))
include hfree

theorem runPhsig_free (x : DA) : runPhsig x s = (signalTurn s (s.rg x.a) signals false x.d).map State.sided :=
  congrArg (Res.map State.sided) (signalOp_free hfree _)

/-- PHSW that comes to issue begins as a signal does. -/
theorem runPhsw_begins (hstage : s.me.stage = .none) (x : DA) :
    runPhsw x s = (signalTurn s (s.rg x.a) (fun m => signals m && waits m) true x.d).map State.sided := by
  unfold runPhsw
  rw [signalOp_free hfree]
  simp only [hstage]

theorem runPhsw_ended {p : BitVec 32} (hstage : s.me.stage = .phDone p) (x : DA) :
    runPhsw x s = (Res.ok (s.wg x.d (p.setWidth 64))).map State.sided := by
  unfold runPhsw
  rw [signalOp_free hfree]
  simp only [hstage]
  rw [waitTurn_ended hstage]

end

/-- A signal leaves the strand that gave it in the stage it notes. -/
theorem signalled_stage (s : State) (p : Phaser) (mem : Nat) (g : Stage) :
    ((s.markIssue.modMember p mem fun m => { m with sig := true }).modStrand s.cur fun y => { y with stage := g }).me.stage = g :=
  congrArg (fun u : State => u.me.stage) (State.modStrand_me (s.markIssue.modMember p mem fun m => { m with sig := true }) _)

theorem phaserSignalsAndWaits : Statements.PhaserSignalsAndWaits := by
  intro s hstage hfree
  refine ⟨fun x p m q hmember hsignals hdrained hdone => ?_, ?_,
    fun x p m hmember hwaits hsound => ⟨fun hover => ?_, fun hover => ?_⟩,
    ?_, fun x p m hmember hmode hrun => ?_⟩
  · rw [exec_phsig, runPhsig_free hfree, signalTurn_gives hstage hmember hsignals hdrained, signalOutcome_sigDone hdone,
      finish_sided_ok]
  · intro x p m hmember hsignals hdrained hstatus hsig u hp hopen
    have hcounted : s.markIssue.signal p m s.cur false = u := signal_counted hstatus hsig hp hopen
    rw [exec_phsig, runPhsig_free hfree, signalTurn_gives hstage hmember hsignals hdrained, hcounted,
      signalOutcome_sigDone (signalled_stage ..), finish_sided_ok]
  · rw [exec_phwait, runPhwait, waitTurn_looks hstage hmember hwaits hsound, if_pos hover, finish_sided_ok]
  · rw [exec_phwait, runPhwait, waitTurn_looks hstage hmember hwaits hsound, if_neg (Bool.eq_false_iff.mp hover), finish_sided_wait]
  · intro x p m hmember hsignals hwaits hdrained v
    have hgives : exec (.phsw x) s = ((signalOutcome x.d v).map State.sided).finish s := by
      rw [exec_phsw, runPhsw_begins hfree hstage,
        signalTurn_gives hstage hmember (Bool.and_eq_true_iff.mpr ⟨hsignals, hwaits⟩) hdrained]
    refine ⟨fun q hq => ?_, fun b i q hq => ?_, fun sw hheld => ?_, ?_⟩
    · rw [hgives, signalOutcome_phDone hq, finish_sided_ok]
    · rw [hgives, signalOutcome_phSw hq, finish_sided_wait]
    · rw [hgives, signalOutcome_sigHeld hheld, finish_sided_wait]
    · intro hstatus hsig u hp hopen
      have hcounted : v = u := signal_counted hstatus hsig hp hopen
      rw [hgives, hcounted, signalOutcome_phSw (signalled_stage ..), finish_sided_wait]
  · rw [exec_phsw, runPhsw_begins hfree hstage, signalTurn_refused hstage hmember hmode, finish_sided_trap hrun]

theorem phaserWaitEnds : Statements.PhaserWaitEnds := by
  intro s p hstage
  refine ⟨fun x => ?_, fun x hfree => ?_⟩
  · rw [exec_phwait, runPhwait, waitTurn_ended hstage, finish_sided_ok]
  · rw [exec_phsw, runPhsw_ended hfree hstage, finish_sided_ok]

/-! ## Boundaries (R280) -/

/-- Waking strands leaves every phaser and every member record as it is. -/
theorem endWaits_phasers_members (s : State) (q : Phaser) :
    (s.endWaits q).phasers = s.phasers ∧ (s.endWaits q).members = s.members := by
  unfold State.endWaits
  refine List.foldlRecOn (motive := fun u : State => u.phasers = s.phasers ∧ u.members = s.members) _ _ ⟨rfl, rfl⟩ fun u hu k _ => ?_
  split
  · rw [State.modStrand_phasers, State.modStrand_members]
    exact hu
  · exact hu

theorem phaser_setPhaser (s : State) (q : Phaser) : (s.setPhaser q).phaser q.wid q.blk q.idx = some q := by
  unfold State.phaser State.setPhaser
  rw [List.find?_append, List.find?_eq_none.mpr, Option.none_or]
  · simp
  · exact fun x hx => Bool.eq_false_iff.mp ((Bool.not_eq_true' _).mp (List.mem_filter.mp hx).2)

theorem Member.cross_eq (m : Member) :
    m.cross = if m.status = .leaving then none else some { m with status := .active, sig := false } := by
  cases h : m.status <;> simp [Member.cross, h]

/-- A phaser in its next phase, with each of its members crossed. -/
def State.advanced (s : State) (p : Phaser) : State :=
  { s.setPhaser { p with p := p.p + 1 } with
    members := s.members.filterMap fun m =>
      if m.wid == p.wid && m.blk == p.blk && m.idx == p.idx then m.cross else some m }

/-- One boundary with no signal held: the phaser advances, and the waits for the phase end. -/
theorem boundary_once {s : State} {p : Phaser} (hp : s.phaser p.wid p.blk p.idx = some p) (hheld : p.held = [])
    (hdone : s.phaseDone p = true) :
    s.boundary p.wid p.blk p.idx 1 = (s.advanced p).endWaits { p with p := p.p + 1 } := by
  obtain ⟨wid, blk, idx, chk, ph, held, poisoned⟩ := p
  subst hheld
  rw [State.boundary, hp]
  simp only [hdone]
  rfl

theorem boundaryAdvances : Statements.BoundaryAdvances := by
  intro s p hp hheld hdone t
  have ht : t = (s.advanced p).endWaits { p with p := p.p + 1 } := boundary_once hp hheld hdone
  obtain ⟨hphasers, hmembers⟩ := endWaits_phasers_members (s.advanced p) { p with p := p.p + 1 }
  refine ⟨?_, ?_⟩
  · rw [ht, State.phaser, hphasers]
    exact phaser_setPhaser s { p with p := p.p + 1 }
  · rw [ht, hmembers]
    simp only [State.advanced, Member.cross_eq]

/-! ## Wired phasers (R283, R284) -/

/-- The wire w is the core's: it is configured, with the core a member of it. -/
def State.onWire (s : State) (w : Fin 16) : Prop :=
  (s.wire w).1.cfg.getLsbD 63 = true ∧ (s.wire w).1.cfg.getLsbD (s.wire w).2 = true

section
variable {s : State} {w : Fin 16} {k : Wired → Nat → Res}

theorem wired_member (h : s.onWire w) :
    wired s w k = k (s.wire w).1 (s.wire w).2 := by
  obtain ⟨hon, hin⟩ := h
  unfold wired
  simp only [hon, hin]
  rfl

theorem wired_foreign (h : ¬s.onWire w) :
    wired s w k = trapOf s 0x12 24 0 := by
  unfold wired
  refine if_pos ?_
  rw [← Bool.not_and, Bool.not_eq_true', Bool.eq_false_iff]
  exact fun hboth => h (Bool.and_eq_true_iff.mp hboth)

end

section
variable {s : State} {x : WArrA}
  (hfree : ¬(s.me.tr.st = .running ∧ s.me.tr.entries.any (fun e => entryTouchesMem e.instr) = true))
  (hstage : s.me.stage = .none)
include hfree hstage

/-- An arrival that comes to issue: in the current phase while its core's count has room, else in the wire's queue. -/
theorem runWarr_arrives (hmember : s.onWire x.w) (hdrained : s.drained) :
    runWarr x s = Res.map State.sided (if Tab.get 0 (s.wire x.w).1.counts (s.wire x.w).2 < (s.wire x.w).1.quota then
        .ok ((s.markIssue.arriveAt x.w (s.wire x.w).1 (s.wire x.w).2).wg x.d ((s.wire x.w).1.phase.setWidth 64))
      else .wait { s.markIssue.setWire x.w
          { (s.wire x.w).1 with queue := (s.wire x.w).1.queue ++ [((s.wire x.w).2, s.cur)] } with
          me := { s.markIssue.me with stage := .arrHeld } } .signal) := by
  unfold runWarr
  simp only [hstage]
  rw [signalOp_free hfree, wired_member hmember, releaseWait_drained hdrained]
  rfl

theorem runWarr_foreign (hmember : ¬s.onWire x.w) : runWarr x s = (trapOf s 0x12 24 0).map State.sided := by
  unfold runWarr
  simp only [hstage]
  rw [signalOp_free hfree, wired_foreign hmember]

end

theorem runWarr_let_in {s : State} {p : BitVec 32} (hstage : s.me.stage = .arrDone p) (x : WArrA) :
    runWarr x s = (Res.ok (s.wg x.d (p.setWidth 64))).map State.sided := by
  unfold runWarr
  rw [hstage]

theorem wiredForms : Statements.WiredForms := by
  intro s hfree member
  refine ⟨fun x hmember hdrained hstage => ⟨fun hroom => ?_, fun hfull => ?_⟩, fun x p hstage => ?_,
    fun x hmember => ⟨fun hover => ?_, fun hover => ?_⟩, fun x y hx hy hrun hstage => ⟨?_, ?_⟩⟩
  · rw [exec_warr, runWarr_arrives hfree hstage hmember hdrained, if_pos hroom, finish_sided_ok]
  · rw [exec_warr, runWarr_arrives hfree hstage hmember hdrained, if_neg (Nat.not_lt.mpr hfull), finish_sided_wait]
  · rw [exec_warr, runWarr_let_in hstage, finish_sided_ok]
  · rw [exec_wwait, runWwait, wired_member hmember, if_pos hover, finish_sided_ok]
  · rw [exec_wwait, runWwait, wired_member hmember, if_neg (Bool.eq_false_iff.mp hover), finish_sided_wait]
  · rw [exec_warr, runWarr_foreign hfree hstage hx]
    exact finish_sided_trap hrun s _
  · rw [exec_wwait, runWwait, wired_foreign hy]
    exact finish_sided_trap hrun s _

/-- Settles O23: a signal by the stage it leaves its strand in, a wait by the phase it finds, a boundary by what it makes of the phaser and
its members, and a wired form by whether the wire is its core's. -/
theorem phaserSignalsWaitsAndWires : Obligations.PhaserSignalsWaitsAndWires :=
  ⟨phaserSignalsAndWaits, phaserWaitEnds, boundaryAdvances, wiredForms⟩

end Sys2Proof.Machine
end

section
/-! SUPPORT. SEND and its forms, SENDM and the handler entries' instructions: the waits of a message, the room it needs, and what each
form queues or sets (R269 to R277, R307). -/

namespace Sys2Proof.Machine

/-! ## Their arms -/

theorem exec_send (x : SendA) (s : State) : exec (.send x) s = (runSend x s).finish s := rfl

theorem exec_sendRq (x : SendRA) (s : State) : exec (.sendRq x) s = (runSendRq x s).finish s := rfl

theorem exec_sendT (x : SendTA) (s : State) : exec (.sendT x) s = (runSendT x s).finish s := rfl

theorem exec_sendm (x : SendA) (s : State) : exec (.sendm x) s = (runSendm x s).finish s := rfl

theorem exec_hmsg (x : HMsgA) (s : State) : exec (.hmsg x) s = (runHmsg x s).finish s := rfl

theorem exec_tagen (x : TagEA) (s : State) : exec (.tagen x) s = (runTagen x s).finish s := rfl

theorem exec_tagdis (x : TagEA) (s : State) : exec (.tagdis x) s = (runTagdis x s).finish s := rfl

theorem exec_tagpend (x : TagPA) (s : State) : exec (.tagpend x) s = (runTagpend x s).finish s := rfl

/-! ## The waits of a message and the room it needs (R235, R273, R274) -/

/-- The entries whose replies are still to come. -/
def Strand.awaited (x : Strand) : List LEntry := x.ls.filter fun e => e.st == .pending || e.st == .reissued

theorem Strand.awaited_eq_nil (x : Strand) : x.awaited = [] ↔ x.lsQuiet = true := by
  simp [Strand.awaited, Strand.lsQuiet, List.filter_eq_nil_iff]

theorem sendWait_eq (s : State) (k : State → Res) :
    sendWait s k = if !s.postedDone s.issueSeq || s.me.awaited.any (fun e => !e.req.rq) then .wait s.markIssue .drain
      else if s.me.awaited.isEmpty then k s.markIssue
      else if Config.freeBit s.freeCtr then k s.markIssue.draw.2 else .wait s.markIssue.draw.2 .drain := rfl

theorem sendWait_drained {s : State} (h : s.drained) (k : State → Res) : sendWait s k = k s.markIssue := by
  obtain ⟨hposted, hquiet⟩ := h
  rw [sendWait_eq, hposted, s.me.awaited_eq_nil.mpr hquiet]
  rfl

/-- Where only the replies to the strand's own requests are outstanding, a free bit says whether the message waits for them. -/
theorem sendWait_requests {s : State} (hposted : s.postedDone s.issueSeq = true) (hquiet : s.me.lsQuiet = false)
    (hrq : ∀ e ∈ s.me.ls, e.st = .pending ∨ e.st = .reissued → e.req.rq = true) (k : State → Res) :
    sendWait s k = if Config.freeBit s.freeCtr then k s.markIssue.draw.2 else .wait s.markIssue.draw.2 .drain := by
  have hothers : (s.me.awaited.any fun e => !e.req.rq) = false := by
    refine List.any_eq_false.mpr fun e he => ?_
    obtain ⟨hin, hst⟩ := List.mem_filter.mp he
    simp [hrq e hin (by simpa using hst)]
  have hsome : s.me.awaited ≠ [] := fun hnil => Bool.eq_false_iff.mp hquiet (s.me.awaited_eq_nil.mp hnil)
  rw [sendWait_eq, hposted, hothers, if_neg (by decide), if_neg (hsome ∘ List.isEmpty_iff.mp)]

section
variable {s : State} {nowait : Bool} {k : State → Res}

theorem enqueue_room (h : s.drained) (hroom : s.me.sendq.length < 4) : enqueue s nowait k = k s.markIssue := by
  rw [enqueue, sendWait_drained h]
  exact if_neg (Nat.not_le.mpr hroom)

theorem enqueue_full (h : s.drained) (hfull : 4 ≤ s.me.sendq.length) :
    enqueue s nowait k = if nowait || s.me.origin == 1 then trapOf s.markIssue 0x28 0 0 else .wait s.markIssue .room := by
  rw [enqueue, sendWait_drained h]
  exact if_pos hfull

theorem enqueue_requests (hposted : s.postedDone s.issueSeq = true) (hquiet : s.me.lsQuiet = false)
    (hrq : ∀ e ∈ s.me.ls, e.st = .pending ∨ e.st = .reissued → e.req.rq = true) (hroom : s.me.sendq.length < 4) :
    enqueue s nowait k = if Config.freeBit s.freeCtr then k s.markIssue.draw.2 else .wait s.markIssue.draw.2 .drain := by
  rw [enqueue, sendWait_requests hposted hquiet hrq]
  exact congrArg (fun r => if Config.freeBit s.freeCtr then r else _) (if_neg (Nat.not_le.mpr hroom))

end

/-! ## SEND, SEND.RQ and SEND.T (R272 to R274) -/

/-- What a SEND form queues once it may: its message to the core of position ga, and for a request the entry the message names. -/
def queueMessage (ga : Word) (b : GReg) (n : Nat) (tag : BitVec 8) (rq : Option (BitVec 16)) (s : State) : Res :=
  let m : Msg := ⟨tag, payloadWords s b n, s.me.core, s.me.wid, [posCore ga], none, ga⟩
  match rq, s.me.freeEntries with
  | some t, i :: _ =>
    let me := s.me.allocate i t ⟨ga, .z64, .fabric, false, true⟩
    .ok (pushSend { s with me := me } { m with reply := some ⟨s.cur, me.gen, i, me.epoch i⟩ })
  | _, _ => .ok (pushSend s m)

theorem queueMessage_request {s : State} {i : Nat} {is : List Nat} (h : s.me.freeEntries = i :: is) (ga : Word) (b : GReg) (n : Nat)
    (tag : BitVec 8) (t : BitVec 16) :
    queueMessage ga b n tag (some t) s =
      let me := s.me.allocate i t ⟨ga, .z64, .fabric, false, true⟩
      .ok (pushSend { s with me := me } ⟨tag, payloadWords s b n, s.me.core, s.me.wid, [posCore ga],
        some ⟨s.cur, me.gen, i, me.epoch i⟩, ga⟩) := by
  unfold queueMessage
  simp only [h]

section
variable {s : State} {a b : GReg} {n : Nat} {tag : BitVec 8} {rq : Option (BitVec 16)} {nowait : Bool}
  (hfree : s.memFree) (hreach : s.reaches (s.rg a)) (hentry : (rq.isSome && s.me.freeEntries.isEmpty) = false)
include hfree hreach hentry

/-- A message to a core that holds the weave passes its checks. -/
theorem sendForm_reaches :
    sendForm s a b n tag rq nowait = (enqueue s nowait (queueMessage (s.rg a) b n tag rq)).map State.sided := by
  obtain ⟨hhigh, hlow, hteam, hdie, hcol, hpkg, hholds⟩ := hreach
  unfold sendForm
  rw [memOp_free hfree]
  dsimp only
  rw [hhigh, hlow, hteam, hdie, hholds, hentry, if_neg (by decide), if_neg (by decide), if_neg (Nat.not_lt.mpr hcol),
    if_neg (not_not.mpr hpkg), if_neg (by decide), if_neg (by decide)]
  rfl

theorem sendForm_full_waits (h : s.drained) (hfull : 4 ≤ s.me.sendq.length) (htry : nowait = false) (horigin : s.me.origin ≠ 1) :
    (sendForm s a b n tag rq nowait).finish s = .next (s.markIssue.waits .room) := by
  rw [sendForm_reaches hfree hreach hentry, enqueue_full h hfull, if_neg (by simp [htry, horigin]), finish_sided_wait]

theorem sendForm_full_traps (h : s.drained) (hfull : 4 ≤ s.me.sendq.length) (htry : nowait = true ∨ s.me.origin = 1)
    (hrun : s.me.tr.st ≠ .running) : (sendForm s a b n tag rq nowait).finish s = .next (s.markIssue.traps 0x28 0 0) := by
  rw [sendForm_reaches hfree hreach hentry, enqueue_full h hfull, if_pos (by simpa using htry)]
  exact finish_sided_trap hrun _ _

end

section
variable {s : State} {a b : GReg} {n : Nat} {tag : BitVec 8} {nowait : Bool} (hsend : s.sendable) (hreach : s.reaches (s.rg a))
include hsend hreach

/-- A message that asks for no reply is queued as it is. -/
theorem sendForm_message : (sendForm s a b n tag none nowait).finish s = .next ((pushSend s
    ⟨tag, payloadWords s b n, s.me.core, s.me.wid, [posCore (s.rg a)], none, s.rg a⟩).sided).goesOn := by
  obtain ⟨hfree, hdrained, hroom⟩ := hsend
  rw [sendForm_reaches hfree hreach rfl, enqueue_room hdrained hroom]
  rfl

/-- A request is queued with the lowest free landing entry allocated to its reply. -/
theorem sendForm_request {t : BitVec 16} {i : Nat} {is : List Nat} (hentry : s.me.freeEntries = i :: is) :
    (sendForm s a b n tag (some t) nowait).finish s =
      let me := s.me.allocate i t ⟨s.rg a, .z64, .fabric, false, true⟩
      .next ((pushSend { s with me := me } ⟨tag, payloadWords s b n, s.me.core, s.me.wid, [posCore (s.rg a)],
        some ⟨s.cur, me.gen, i, me.epoch i⟩, s.rg a⟩).sided).goesOn := by
  obtain ⟨hfree, hdrained, hroom⟩ := hsend
  have hmarked : s.markIssue.me.freeEntries = i :: is := hentry
  rw [sendForm_reaches hfree hreach (by rw [hentry]; rfl), enqueue_room hdrained hroom, queueMessage_request hmarked]
  rfl

end

theorem sendsComplete : Statements.SendsComplete := by
  intro s msg asks
  refine ⟨fun x hsend hreach => ?_, fun x i is hsend hreach hentry => ?_, fun x hsend hreach hrq => ?_,
    fun x i is hsend hreach hrq hentry => ?_, fun y hfree hdrained hfull hrun hrq hreach => ?_,
    fun x hfree hdrained hfull hreach => ⟨fun horigin => ?_, fun horigin hrun => ?_⟩,
    fun x hfree hposted hquiet hrq hroom hreach => ?_,
    fun x i is hfree hdrained hfull hreach hentry => ⟨fun horigin => ?_, fun horigin hrun => ?_⟩⟩
  · exact sendForm_message hsend hreach
  · exact sendForm_request hsend hreach hentry
  · rw [exec_sendT, runSendT, hrq]
    exact sendForm_message hsend hreach
  · rw [exec_sendT, runSendT, hrq]
    exact sendForm_request hsend hreach hentry
  · rw [exec_sendT, runSendT, hrq]
    exact sendForm_full_traps hfree hreach rfl hdrained hfull (.inl rfl) hrun
  · exact sendForm_full_waits hfree hreach rfl hdrained hfull rfl horigin
  · exact sendForm_full_traps hfree hreach rfl hdrained hfull (.inr horigin) hrun
  · rw [exec_send, runSend, sendForm_reaches hfree hreach rfl, enqueue_requests hposted hquiet hrq hroom]
    cases Config.freeBit s.freeCtr <;> rfl
  · exact sendForm_full_waits hfree hreach (by rw [hentry]; rfl) hdrained hfull rfl horigin
  · exact sendForm_full_traps hfree hreach (by rw [hentry]; rfl) hdrained hfull (.inr horigin) hrun

/-! ## SENDM (R276, R307) -/

/-- The cores of the rectangle that a SENDM names. -/
def rectangle (r : Word) : List CoreIx :=
  ((List.range 64).filter fun i => decide ((r.extractLsb' 34 6).toNat ≤ i) && decide (i ≤ (r.extractLsb' 40 6).toNat)).flatMap fun i =>
    ((List.range 160).filter fun j => decide ((r.extractLsb' 18 8).toNat ≤ j) && decide (j ≤ (r.extractLsb' 26 8).toNat)).map fun j =>
      coreAt (r.extractLsb' 46 2).toNat i j

section
variable {x : SendA} {s : State} (hhigh : (s.rg x.a).extractLsb' 56 8 = 0) (hlow : (s.rg x.a).extractLsb' 0 18 = 0)
include hhigh hlow

theorem runSendm_empty (h : ((s.rg x.a).extractLsb' 40 6).toNat < ((s.rg x.a).extractLsb' 34 6).toNat ∨
    ((s.rg x.a).extractLsb' 26 8).toNat < ((s.rg x.a).extractLsb' 18 8).toNat) :
    runSendm x s = .ok (s.sided.setMempty true) := by
  unfold runSendm
  dsimp only
  rw [hhigh, hlow, if_neg (by decide), if_pos (by simpa using h)]

/-- A rectangle of the strand's own package, inside a die of its partition: a message to every core of it is one queue entry. -/
theorem runSendm_queues (hrows : ((s.rg x.a).extractLsb' 34 6).toNat ≤ ((s.rg x.a).extractLsb' 40 6).toNat)
    (hcols : ((s.rg x.a).extractLsb' 18 8).toNat ≤ ((s.rg x.a).extractLsb' 26 8).toNat) (hsend : s.sendable)
    (hteam : s.inTeam s.me.wid ((s.rg x.a).extractLsb' 48 8).toNat = true)
    (hdie : s.dieIn s.me.part ((s.rg x.a).extractLsb' 46 2).toNat = true) (hcol : ((s.rg x.a).extractLsb' 26 8).toNat ≤ 159)
    (hpkg : ((s.rg x.a).extractLsb' 48 8).toNat = ownPkg s) :
    runSendm x s = .ok (pushSend (s.markIssue.sided.setMempty false)
      ⟨x.tag, payloadWords s x.b x.n.val, s.me.core, s.me.wid, rectangle (s.rg x.a), none, s.rg x.a⟩) := by
  obtain ⟨hfree, hdrained, hroom⟩ := hsend
  have hsome : ¬(((s.rg x.a).extractLsb' 40 6).toNat < ((s.rg x.a).extractLsb' 34 6).toNat ∨
      ((s.rg x.a).extractLsb' 26 8).toNat < ((s.rg x.a).extractLsb' 18 8).toNat) :=
    not_or.mpr ⟨Nat.not_lt.mpr hrows, Nat.not_lt.mpr hcols⟩
  have hown : ((s.rg x.a).extractLsb' 48 8).toNat = ownPkg s.markIssue := hpkg
  unfold runSendm
  dsimp only
  rw [hhigh, hlow, if_neg (by decide), if_neg (by simpa using hsome), memOp_free hfree, hteam, hdie, if_neg (by decide),
    if_neg (Nat.not_lt.mpr hcol), enqueue_room hdrained hroom, if_pos hown]
  rfl

end

theorem sendmCompletes : Statements.SendmCompletes := by
  intro x s r f hhigh hlow
  refine ⟨fun hempty => ?_, ?_⟩
  · rw [exec_sendm, runSendm_empty hhigh hlow hempty, finish_ok]
  · intro hrows hcols hsend hteam hdie hcol hpkg cores
    rw [exec_sendm, runSendm_queues hhigh hlow hrows hcols hsend hteam hdie hcol hpkg]
    rfl

/-! ## Handler entries (R269, R271, R277) -/

/-- The address field of a handler entry, taken by a mask. -/
theorem entAddr_eq_and (e : Word) : entAddr e = e &&& 0x00FFFFFFFFFFFFFF := by
  refine BitVec.eq_of_toNat_eq ?_
  have hmask : (0x00FFFFFFFFFFFFFF : Word).toNat = 2 ^ 56 - 1 := rfl
  rw [BitVec.toNat_and, hmask, Nat.and_two_pow_sub_one_eq_mod, entAddr]
  have hlt : e.toNat % 2 ^ 56 < 2 ^ 64 := by omega
  rw [BitVec.toNat_setWidth, BitVec.extractLsb'_toNat, Nat.shiftRight_zero, Nat.mod_eq_of_lt hlt]

theorem handlerForms : Statements.HandlerForms := by
  refine fun s => ⟨fun x => ?_, fun x => ⟨rfl, rfl⟩, fun x => rfl⟩
  intro tag old u
  rw [exec_hmsg, runHmsg, entAddr_eq_and]
  rfl

/-- Settles O24: a message is queued once its waits are over and the queue has room; SENDM by whether its rectangle is empty; the handler
forms write or read one entry. -/
theorem messagesAndHandlers : Obligations.MessagesAndHandlers := ⟨sendsComplete, sendmCompletes, handlerForms⟩

end Sys2Proof.Machine
end

section
/-! SUPPORT. The steps of the send queues, the inboxes, the ready rings and the copy engine, and how the dispatcher starts a handler and a
codelet (R268, R270, R271, R297, R301 to R303, R313, R314, R316). -/

namespace Sys2Proof.Machine

/-! ## Their arms -/

theorem exec_sendQueueDrain (k : StrandIx) (s : State) : exec (.sendQueueDrain k) s = execSendQueueDrain k s := rfl

theorem exec_messageArrival (n : Nat) (s : State) : exec (.messageArrival n) s = execMessageArrival n s := rfl

theorem exec_codeletPush (n : Nat) (s : State) : exec (.codeletPush n) s = execCodeletPush n s := rfl

theorem exec_copyCommand (t : Nat) (s : State) : exec (.copyCommand t) s = execCopyCommand t s := rfl

theorem exec_taskPromotion (c : CoreIx) (s : State) : exec (.taskPromotion c) s = .next (s.promoteTasks c) := rfl

theorem exec_dispatch (c : CoreIx) (s : State) : exec (.dispatch c) s = execDispatch c s := rfl

/-! ## Messages and pushes (R268, R270, R297) -/

theorem execSendQueueDrain_oldest {s : State} {k : StrandIx} {m : Msg} {r : List Msg} (h : (s.strand k).sendq = m :: r) :
    execSendQueueDrain k s = .next ((s.modStrand k fun x => { x with sendq := r }).modNet fun y =>
      { y with msgs := y.msgs ++ m.cores.map fun c => { m with cores := [c] } }) := by
  rw [execSendQueueDrain, h]
  rfl

/-- A message whose core holds its weave, and whose handler is not an enabled one without an address, waits in the inbox. -/
theorem takeMsg_waits {s : State} {c : CoreIx} {m : Msg} (hholds : s.holds c m.wid = true) (hlinger : (s.coreRec c).linger = false)
    (hhandler : (entEn ((s.coreRec c).handler m.tag) && entAddr ((s.coreRec c).handler m.tag) == 0) = false) :
    s.takeMsg c m = (s.modCore c fun x => { x with inbox := x.inbox ++ [⟨m, none, prioClass ((s.coreRec c).handler m.tag), none,
      prioClass ((s.coreRec c).handler m.tag)⟩] }).refresh c := by
  unfold State.takeMsg
  dsimp only
  rw [hholds, hlinger, if_neg (by decide), if_neg (Bool.eq_false_iff.mp hhandler)]

theorem execMessageArrival_room {s : State} {n : Nat} {m : Msg} {c : CoreIx} (hm : s.net.msgs[n]? = some m) (hc : m.cores = [c])
    (hroom : (s.coreRec c).inbox.length < 24) :
    execMessageArrival n s = .next ((s.modNet fun x => { x with msgs := x.msgs.eraseIdx n }).takeMsg c m) := by
  unfold execMessageArrival
  simp only [hm, hc]
  exact if_neg (Nat.not_le.mpr hroom)

theorem execCodeletPush_room {s : State} {n : Nat} {p : Push} (hp : s.net.pushes[n]? = some p)
    (hroom : (s.coreRec p.core).ready.length < 256) :
    execCodeletPush n s = .next ((s.modNet fun x => { x with pushes := x.pushes.eraseIdx n }).push p) := by
  unfold execCodeletPush
  simp only [hp]
  exact if_neg (Nat.not_le.mpr hroom)

/-! ## The copy engine (R313, R314, R316, R317) -/

/-- A command of a tile's engine gets the slot it has asked for: the ring with one more slot reserved, and the tile's requests gone. -/
def Ring.granted (r : Ring) (t : Nat) : Ring := { r with res := r.res + 1, asks := r.asks.filter (· != t) }

/-- The command at the head of a tile's queue notes the slot that is reserved for it. -/
def State.granted (s : State) (t : Nat) (c : CopyCmd) (r : Ring) : State :=
  (s.setRing (r.granted t)).modTile t fun u => { u with copyq := { c with reserved := true } :: u.copyq.drop 1 }

section
variable {s : State} {t : Nat} {c : CopyCmd} {r : Ring}

/-- An engine that alone asks a ring with room is granted its slot, and performs the command if nothing holds it back. -/
theorem copyTurn_granted (hreserved : c.reserved = false) (hasks : ∀ a ∈ r.asks, a = t) (hroom : (r.wp - r.rp).toNat + r.res < r.size)
    (hacquired : (s.granted t c r).copyAcquired c = true) (hheld : (s.granted t c r).copyHeld c = false) :
    s.copyTurn t c r = (s.granted t c r).runCopy t c (r.granted t) := by
  have hfirst : r.asks.all (· == t) = true := List.all_eq_true.mpr fun a ha => beq_iff_eq.mpr (hasks a ha)
  have hgo : (!(s.granted t c r).copyAcquired c || (s.granted t c r).copyHeld c) = false := by rw [hacquired, hheld]; rfl
  unfold State.copyTurn
  dsimp only
  rw [hreserved, hfirst, decide_eq_true hroom, if_neg (by simp), if_neg Bool.false_ne_true]
  exact if_neg (Bool.eq_false_iff.mp hgo)

/-- With the release flag the writes come before the fill, which is their release. -/
theorem runCopy_released (h : (copyDesc c.words).rel = true) :
    s.runCopy t c r = (((s.readCopy c).2.2.copyWrite c ((s.readCopy c).2.1.length + 1) ((s.readCopy c).2.1.map (·.2))).fillRing r
      (s.readCopy c).1 (some ⟨.engine t, copyScope (copyDesc c.words)⟩)).popCopy t := by
  unfold State.runCopy
  dsimp only
  rw [h]
  rfl

/-- Without it a free bit says whether they come before the fill or are left for after it. -/
theorem runCopy_unordered (h : (copyDesc c.words).rel = false) :
    s.runCopy t c r = if Config.freeBit (s.readCopy c).2.2.draw.1 || (s.readCopy c).2.1.isEmpty then
        (((s.readCopy c).2.2.draw.2.copyWrite c ((s.readCopy c).2.1.length + 1) ((s.readCopy c).2.1.map (·.2))).fillRing r
          (s.readCopy c).1 none).popCopy t
      else ((s.readCopy c).2.2.draw.2.fillRing r (s.readCopy c).1 none).modTile t fun u =>
        { u with copyq := { c with late := some ((s.readCopy c).2.1.map (·.2)) } :: u.copyq.drop 1 } := by
  unfold State.runCopy
  dsimp only
  rw [h]
  rfl

variable {rest : List CopyCmd} (hq : (s.tileRec t).copyq = c :: rest)
include hq

theorem execCopyCommand_turn (hlate : c.late = none)
    (hring : s.ring c.wid (hDie c.ring * 160 + hBlk c.ring) (hIdx c.ring) = some r) :
    execCopyCommand t s = .next (s.copyTurn t c r) := by
  unfold execCopyCommand
  simp only [hq, hlate, hring]
  rfl

/-- The writes that a command has left for after its fill are made once no claim holds one of their words. -/
theorem execCopyCommand_late {ws : List (Site × Nat)} (hlate : c.late = some ws)
    (hclaims : ∀ w ∈ ws, ∀ k ∈ w.1.writeKeys, s.claimed k = false) : execCopyCommand t s = .next (s.copyLate t c ws) := by
  have hfree : (ws.flatMap fun w => w.1.writeKeys).any s.claimed = false := by
    refine List.any_eq_false.mpr fun k hk => ?_
    obtain ⟨w, hw, hkw⟩ := List.mem_flatMap.mp hk
    exact Bool.eq_false_iff.mp (hclaims w hw k hkw)
  unfold execCopyCommand
  simp only [hq, hlate]
  exact if_neg (Bool.eq_false_iff.mp hfree)

end

theorem queueSteps : Statements.QueueSteps := by
  intro s n
  refine ⟨fun k m r hq => ?_, fun m c hm hc hroom hholds hlinger hhandler => ?_, fun p hp hroom => ?_, ?_, ?_⟩
  · rw [exec_sendQueueDrain, execSendQueueDrain_oldest hq]
  · rw [exec_messageArrival, execMessageArrival_room hm hc hroom]
    exact congrArg _ (takeMsg_waits (s := s.modNet _) hholds hlinger hhandler)
  · rw [exec_codeletPush, execCodeletPush_room hp hroom]
  · intro c rest r hq hlate hring hreserved hasks hroom r' u d w hacquired hheld
    have hrun : exec (.copyCommand n) s = .next (u.runCopy n c r') := by
      rw [exec_copyCommand, execCopyCommand_turn hq hlate hring]
      exact congrArg _ (copyTurn_granted hreserved hasks hroom hacquired hheld)
    refine ⟨fun hrel => ?_, fun hrel => ?_⟩
    · rw [hrun, runCopy_released hrel]
    · rw [hrun, runCopy_unordered hrel]
  · intro c rest ws hq hlate hclaims u
    rw [exec_copyCommand, execCopyCommand_late hq hlate hclaims]
    rfl

/-! ## Starting tasks (R271, R301 to R303) -/

theorem coreOf_strandAt (c : CoreIx) {k : Nat} (h : k < 8) : coreOf (strandAt c k) = c := by
  show (c * 8 + k) / 8 = c
  rw [Nat.mul_comm, Nat.mul_add_div (by decide), Nat.div_eq_of_lt h, Nat.add_zero]

theorem execDispatch_starts {s : State} {c : CoreIx} {k : Nat} {t : Task} (hstarts : s.starts c = true)
    (hnext : (s.promoteTasks c).nextTask c = some (k, t)) : execDispatch c s = .next ((s.promoteTasks c).startTask c k t) := by
  unfold execDispatch
  rw [hstarts, if_neg (by decide)]
  simp only [hnext]
  rfl

/-- A waiting message starts its handler: the message is out of the inbox, and its entry is BUSY. -/
theorem startTask_msg {s : State} {c : CoreIx} {k i : Nat} {m : InMsg} {w : Weave} (hm : (s.coreRec c).inbox[i]? = some m)
    (hw : s.weaveOf m.msg.wid = some w) (hk : k < 8) :
    s.startTask c k (.msg i) =
      let e := (s.coreRec c).handler m.msg.tag
      let u := (s.modCore c fun y => { y with inbox := y.inbox.eraseIdx i,
                                              handlers := Tab.set y.handlers m.msg.tag.toNat (setBit e 61 true) }).refresh c
      u.startStrand (strandAt c k)
        { (((u.freshStrand (strandAt c k) w 1 (entAddr e)).withArgs m.msg.payload).writeG 7 m.msg.sender).writeG 8
            (BitVec.ofNat 64 (m.msg.tag.toNat + m.msg.payload.length * 2 ^ 8 + (if m.msg.reply.isSome then 2 ^ 16 else 0))) with
          owed := m.msg.reply, htag := some m.msg.tag } := by
  rw [State.startTask, State.startMsg, coreOf_strandAt c hk]
  simp only [hm, hw]

/-! ### Codelets -/

/-- A push changes cores and the network only. -/
theorem push_eq (s : State) (p : Push) : ∃ cs n, s.push p = { s with cores := cs, net := n } := by
  unfold State.push
  dsimp only
  split
  · exact ⟨_, _, rfl⟩
  · split
    · exact ⟨_, _, rfl⟩
    · exact ⟨_, _, rfl⟩

theorem refillRing_eq (s : State) (c : CoreIx) : ∃ cs n, s.refillRing c = { s with cores := cs, net := n } := by
  unfold State.refillRing
  split
  · exact ⟨_, _, rfl⟩
  · split
    · exact ⟨_, _, rfl⟩
    · exact push_eq (s.modNet _) _

/-- Entry i of core v's ring is out of it, and the oldest push that waits has entered. -/
def State.entryTaken (s : State) (v : CoreIx) (i : Nat) : State :=
  (s.modCore v fun y => { y with ready := y.ready.eraseIdx i }).refillRing v

section
variable (s : State) (v : CoreIx) (i : Nat)

theorem entryTaken_eq : ∃ cs n, s.entryTaken v i = { s with cores := cs, net := n } :=
  refillRing_eq (s.modCore v fun y => { y with ready := y.ready.eraseIdx i }) v

theorem upsets_entryTaken : (s.entryTaken v i).upsets = s.upsets := by
  obtain ⟨cs, n, h⟩ := entryTaken_eq s v i
  rw [h]

theorem weaveOf_entryTaken_fold (ks : List Nat) (wid : Nat) : ((s.entryTaken v i).fold ks).weaveOf wid = s.weaveOf wid := by
  obtain ⟨cs, n, h⟩ := entryTaken_eq s v i
  rw [State.weaveOf, (HomeOnly.fold _ ks).weaves, h]
  rfl

theorem coreWindow_entryTaken_fold (ks : List Nat) (c : CoreIx) (off : Nat) :
    ((s.entryTaken v i).fold ks).coreWindow c off = s.coreWindow c off := by
  obtain ⟨cs, n, h⟩ := entryTaken_eq s v i
  obtain ⟨e, hfold⟩ := fold_eq_exact (s.entryTaken v i) ks
  rw [hfold, h]
  rfl

end

/-- A codelet whose descriptor is well formed starts at its entry address, with its inputs and its descriptor's address. -/
theorem startCodelet_starts {s : State} {v : CoreIx} {i : Nat} {e : RingEntry} {w : Weave} (he : (s.coreRec v).ready[i]? = some e)
    (hw : s.weaveOf e.wid = some w) (hbroken : s.brokenLocal (keysFrom (localKey v e.off) 64) = false) (hupsets : s.upsets = [])
    (hbad : descBad (((s.entryTaken v i).fold (keysFrom (localKey v e.off) 64)).word (localKey v (e.off + 8))) = false)
    (k : StrandIx) :
    s.startCodelet k v i =
      let u := (s.entryTaken v i).fold (keysFrom (localKey v e.off) 64)
      let w1 := u.word (localKey v (e.off + 8))
      let args := (List.range (w1.extractLsb' 60 4).toNat).map fun j => u.word (localKey v (e.off + 8 * (2 + j)))
      (u.startStrand k
        { ((u.freshStrand k w 3 ((w1.extractLsb' 0 56).setWidth 64)).withArgs args).writeG 8 (s.coreWindow v e.off) with
          desc := s.coreWindow v e.off }).coreIdle v := by
  have hmet (pos : Word) (ks : List Nat) : (s.entryTaken v i).meetUpsetsAs e.wid pos ks = s.entryTaken v i :=
    meetUpsetsAs_none ((upsets_entryTaken s v i).trans hupsets) ..
  unfold State.startCodelet
  simp only [he]
  rw [if_neg (Bool.eq_false_iff.mp hbroken), ← State.entryTaken, hmet, weaveOf_entryTaken_fold, hw, coreWindow_entryTaken_fold]
  exact if_neg (Bool.eq_false_iff.mp hbad)

theorem dispatcherStarts : Statements.DispatcherStarts := by
  intro s c
  refine ⟨exec_taskPromotion c s, fun cls since now => rfl, fun k t hstarts hnext => ?_,
    fun k i m w hm hw hk => startTask_msg hm hw hk, ?_⟩
  · rw [exec_dispatch, execDispatch_starts hstarts hnext]
  · intro k i e w he hw _ ks hbroken hupsets u w1 hbad args
    exact startCodelet_starts he hw hbroken hupsets hbad (strandAt c k)

/-- Settles O47: each step by the one condition that lets it act, the engine's head command by its flag and what a free bit says of its
writes; a task starts from the state that has taken it. -/
theorem queueAndDispatcherSteps : Obligations.QueueAndDispatcherSteps := ⟨queueSteps, dispatcherStarts⟩

end Sys2Proof.Machine
end

section
/-! SUPPORT. SPAWN and DEC once their checks are made: where a descriptor's words go, and what a decrement leaves of the counter, of the
owner's ready ring and of the storage around them (R183, R297 to R300). -/

namespace Sys2Proof.Machine

/-! ## Their arms -/

theorem exec_spawn (x : SpawnA) (s : State) : exec (.spawn x) s = (spawnForm x false s).finish s := rfl

theorem exec_spawnPin (x : SpawnA) (s : State) : exec (.spawnPin x) s = (spawnForm x true s).finish s := rfl

theorem exec_dec (x : DAImm) (s : State) : exec (.dec x) s = (runDec x s).finish s := rfl

/-- Keys of which no claim holds one do not hold an access back (R160). -/
theorem any_claimed_false {s : State} {ks : List Nat} (h : ∀ k ∈ ks, s.claimed k = false) : ks.any s.claimed = false :=
  List.any_eq_false.mpr fun k hk => Bool.eq_false_iff.mp (h k hk)

/-- An address of the two classes that a descriptor may have passes the test for them (R299). -/
theorem not_other_class {a : Word} (h : classAddr a = .own ∨ classAddr a = .core) : ¬(classAddr a ≠ .own ∧ classAddr a ≠ .core) :=
  fun hne => h.elim hne.1 hne.2

/-! ## SPAWN (R183, R298, R299) -/

/-- The bytes of a descriptor: its counter, its entry word and its inputs, laid on a site's keys. -/
def spawnBytes (x : SpawnA) (pin : Bool) (s : State) (y : Site) : List (Nat × Byte) :=
  let n := x.n.val
  let entry : Word := BitVec.ofNat 64 (n * 2 ^ 60 + (if pin then 2 ^ 59 else 0)) + ((s.rg x.b).extractLsb' 0 56).setWidth 64
  layBytes y.keys (packElems 64 (([x.count.setWidth 64, entry] ++ payloadWords s x.c n).map BitVec.toNat))

/-- A descriptor written on the core's own memory: performed where it issues, then pushed at a counter of 0, or acknowledged. -/
def State.spawnHere (s : State) (x : SpawnA) (pin : Bool) (y : Site) : State :=
  let u := s.markIssue.postOne y.home y.keys
  let v := (u.2.meetUpsets y.keys).perform (spawnBytes x pin s y) (some ⟨.core s.core, .fabric⟩)
  (if x.count = 0 then v.push ⟨v.core, winOff (s.rg x.a), v.me.wid, pin, some ⟨v.core, u.1⟩⟩
    else v.modNet fun m => { m with acks := m.acks ++ [⟨v.core, u.1⟩] }).sided

/-- A descriptor posted toward another core. -/
def State.spawnThere (s : State) (x : SpawnA) (pin : Bool) (y : Site) : State :=
  let a := s.rg x.a
  let u := s.markIssue.postOne y.home y.keys
  let v := u.2.fresh
  (v.2.modNet fun (m : Net) => { m with reqs := m.reqs ++
    [{ id := v.1, core := s.core, strand := s.cur, gen := s.me.gen, seq := u.1, scope := .fabric,
       kind := .spawn (spawnBytes x pin s y) (coreAt (winDie a) (winRow a) (winCol a)) (winOff a) (x.count == 0) pin,
       tagged := none }] }).sided

/-- A descriptor toward a package without a path: the write is counted and logged, and gone. -/
def State.spawnLost (s : State) (x : SpawnA) : State :=
  (s.markIssue.discarded s.cur (blockOf s.core) (s.rg x.a) s.me.wid).sided

/-- SPAWN past its checks and waits, by where its site lies. -/
theorem spawnForm_ready {x : SpawnA} {s : State} {y : Site} (hfree : s.memFree) (hdrained : s.drained)
    (hclass : classAddr (s.rg x.a) = .own ∨ classAddr (s.rg x.a) = .core)
    (hsite : s.check s.ctx .store true 64 (s.rg x.a) (s.rg x.a) 64 = .ok y)
    (hposted : s.ownPosted y.keys = false) (hpending : s.pendingRead y.keys = false)
    (hfar : y.loc = false → s.classRoom [y.home] = true)
    (hnear : y.loc = true → y.keys.any s.claimed = false ∧ s.brokenLocal y.keys = false) (pin : Bool) :
    spawnForm x pin s = .ok (if y.away then s.spawnLost x else if y.loc then s.spawnHere x pin y else s.spawnThere x pin y) := by
  have hread : (s.markIssue.ownPosted y.keys || s.markIssue.pendingRead y.keys) = false := by
    rw [pendingRead_markIssue, hpending, Bool.or_false]
    exact hposted
  have hroom : (!y.loc && !s.markIssue.classRoom [y.home]) = false := by
    cases hloc : y.loc
    · exact congrArg not (hfar hloc)
    · rfl
  have hclaims : (y.loc && y.keys.any s.markIssue.claimed) = false := by
    cases hloc : y.loc
    · rfl
    · exact (hnear hloc).1
  have hbroken : (y.loc && s.markIssue.brokenLocal y.keys) = false := by
    cases hloc : y.loc
    · rfl
    · exact (hnear hloc).2
  unfold spawnForm
  rw [memOp_free hfree]
  dsimp only
  rw [if_neg (not_other_class hclass), hsite]
  dsimp only
  rw [releaseWait_drained hdrained, hread, hroom, hclaims, hbroken]
  cases y.away
  · cases y.loc
    · rfl
    · exact congrArg (fun v => Res.ok (State.sided v)) (if_congr beq_iff_eq rfl rfl)
  · rfl

theorem spawnCompletes : Statements.SpawnCompletes := by
  intro x s y hfree hdrained a n entry bytes sync here there hclass hsite hposted hpending hfar
  have hready := spawnForm_ready hfree hdrained hclass hsite hposted hpending hfar
  refine ⟨fun haway hloc => ?_, fun haway hloc hclaims hbroken => ?_, fun haway hloc => ?_⟩
  · have hlost := hready fun h => nomatch hloc.symm.trans h
    rw [exec_spawn, exec_spawnPin, hlost, hlost, haway]
    exact ⟨rfl, rfl⟩
  · have hhere := hready fun _ => ⟨any_claimed_false hclaims, hbroken⟩
    rw [exec_spawn, exec_spawnPin, hhere, hhere, haway, hloc]
    exact ⟨rfl, rfl⟩
  · have hthere := hready fun h => nomatch hloc.symm.trans h
    rw [exec_spawn, exec_spawnPin, hthere, hthere, haway, hloc]
    exact ⟨rfl, rfl⟩

/-! ## DEC (R300) -/

/-- DEC past its checks and waits is the decrement at its owner, with the old counter for its register. -/
theorem runDec_ready {x : DAImm} {s u : State} {y : Site} {a : Word} {c : CoreIx} (ha : s.rg x.a + sx x.imm = a)
    (hc : s.localCore a = c) (hu : s.markIssue.meetUpsets y.keys = u) (hfree : s.memFree) (hdrained : s.drained)
    (hclass : classAddr a = .own ∨ classAddr a = .core) (hsite : s.check s.ctx .rmw true 64 a a 8 = .ok y)
    (hposted : s.ownPosted y.keys = false) (hpending : s.pendingRead y.keys = false) (hclaims : y.keys.any s.claimed = false)
    (hbroken : s.brokenLocal (s.decKeys c (winOff a)) = false) (hsound : u.sitePoisoned y = false)
    (hroom : ¬(s.mem.value y.keys = 1 ∧ 256 ≤ (s.coreRec c).ready.length)) :
    runDec x s =
      .ok ((u.decAt c (winOff a) u.me.wid).2.sided.wg x.d (BitVec.ofNat 64 (u.decAt c (winOff a) u.me.wid).1)) := by
  have hread : (s.markIssue.ownPosted y.keys || s.markIssue.pendingRead y.keys) = false := by
    rw [pendingRead_markIssue, hpending, Bool.or_false]
    exact hposted
  have hcore : s.markIssue.localCore a = c := hc
  have hwid : s.markIssue.me.wid = u.me.wid := by rw [← hu, (HomeOnly.meetUpsets ..).me]
  have hfits : ¬(s.markIssue.mem.value y.keys = 1 ∧ 256 ≤ (s.markIssue.coreRec c).ready.length) := hroom
  unfold runDec
  rw [memOp_free hfree]
  dsimp only
  rw [ha, if_neg (not_other_class hclass), hsite]
  dsimp only
  rw [releaseWait_drained hdrained, hread, hcore, hu, hwid, if_neg Bool.false_ne_true,
    if_neg (Bool.eq_false_iff.mp (show y.keys.any s.markIssue.claimed = false from hclaims)),
    if_neg (Bool.eq_false_iff.mp (show s.markIssue.brokenLocal (s.markIssue.decKeys c (winOff a)) = false from hbroken)),
    if_neg hfits, hsound, if_neg Bool.false_ne_true]

theorem decCompletes : Statements.DecCompletes := by
  intro x s y hfree hdrained a u hclass hsite hposted hpending hclaims hbroken hsound hroom r
  rw [exec_dec, runDec_ready (a := a) rfl rfl rfl hfree hdrained hclass hsite hposted hpending (any_claimed_false hclaims) hbroken
    hsound hroom, finish_ok]

/-! ## A decrement at its owner (R297, R300) -/

theorem keysFrom_nodup (k n : Nat) : (keysFrom k n).Nodup := List.nodup_range.map (add_right_injective k)

@[simp] theorem length_keysFrom (k n : Nat) : (keysFrom k n).length = n := by simp [keysFrom]

@[simp] theorem fold_cores (s : State) (ks : List Nat) : (s.fold ks).cores = s.cores := by
  obtain ⟨e, h⟩ := fold_eq_exact s ks
  rw [h]

@[simp] theorem fold_dies (s : State) (ks : List Nat) : (s.fold ks).dies = s.dies := by
  obtain ⟨e, h⟩ := fold_eq_exact s ks
  rw [h]

section
variable (s : State) (bs : List (Nat × Byte)) (sync : Option SyncTag)

@[simp] theorem performRmw_cores : (s.performRmw bs sync).cores = s.cores := by
  unfold State.performRmw
  split <;> exact fold_cores s _

@[simp] theorem performRmw_dies : (s.performRmw bs sync).dies = s.dies := by
  unfold State.performRmw
  split <;> exact fold_dies s _

@[simp] theorem performRmw_net : (s.performRmw bs sync).net = s.net := by
  unfold State.performRmw
  split
  · exact (HomeOnly.perform ..).net
  · exact (HomeOnly.perform s bs none).net

theorem now_performRmw (c : CoreIx) : (s.performRmw bs sync).now c = s.now c :=
  congrArg (fun d => (Tab.get Die.zero d (dieOf c)).cyc.toNat) (performRmw_dies s bs sync)

theorem coreRec_performRmw (c : CoreIx) : (s.performRmw bs sync).coreRec c = s.coreRec c :=
  congrArg (Tab.get Core.empty · c) (performRmw_cores s bs sync)

end

@[simp] theorem push_mem (s : State) (p : Push) : (s.push p).mem = s.mem := by
  obtain ⟨cs, n, h⟩ := push_eq s p
  rw [h]

section
variable {s : State} {p : Push} (hwid : (s.coreRec p.core).wid = some p.wid) (hstays : (s.coreRec p.core).linger = false)
include hwid hstays

/-- A descriptor goes on its owner's ring while the ring has room. -/
theorem push_room (hroom : (s.coreRec p.core).ready.length < 256) : ((s.push p).coreRec p.core).ready =
    (s.coreRec p.core).ready ++ [⟨p.off, p.wid, p.pin, 5, s.now p.core, s.now p.core⟩] := by
  rw [State.push]
  dsimp only
  rw [if_neg (by simp [hwid, hstays]), if_pos hroom, State.coreRec, State.modNet_cores, State.modCore_cores, Tab.get_set, if_pos rfl]

/-- And waits at the owner while the ring is full. -/
theorem push_waits (hfull : 256 ≤ (s.coreRec p.core).ready.length) : (s.push p).net.pushes = s.net.pushes ++ [p] := by
  rw [State.push]
  dsimp only
  rw [if_neg (by simp [hwid, hstays]), if_neg (Nat.not_lt.mpr hfull)]
  rfl

end

section
variable {s t : State} {c : CoreIx} {off wid : Nat} {ks : List Nat} {r : Nat × State}
  (hks : keysFrom (localKey c off) 8 = ks) (hr : s.decAt c off wid = r) (ht : s.touchKeys s.cur (s.decKeys c off) = t)
include hks hr ht

/-- A decrement by the counter it finds once the errors of the words it reads are met. -/
theorem decAt_touched : r =
    if t.mem.value ks = 0 then (0, t.countCore c 0x03)
    else
      let u := t.performRmw (layBytes ks (t.mem.value ks - 1)) none
      (t.mem.value ks, if t.mem.value ks = 1 then u.push ⟨c, off, wid, u.descPin c off, none⟩ else u) := by
  subst hks hr ht
  rfl

theorem decAt_old : r.1 = t.mem.value ks := by
  rw [decAt_touched hks hr ht]
  split
  · rename_i h; exact h.symm
  · rfl

theorem decAt_refused (h : t.mem.value ks = 0) : r.2 = t.countCore c 0x03 := by
  rw [decAt_touched hks hr ht, if_pos h]

theorem decAt_lowered (h : 1 < t.mem.value ks) : r.2 = t.performRmw (layBytes ks (t.mem.value ks - 1)) none := by
  rw [decAt_touched hks hr ht, if_neg (Nat.ne_of_gt (Nat.lt_trans Nat.one_pos h))]
  exact if_neg (Nat.ne_of_gt h)

theorem decAt_pushed (h : t.mem.value ks = 1) : r.2 = (t.performRmw (layBytes ks 0) none).push
    ⟨c, off, wid, (t.performRmw (layBytes ks 0) none).descPin c off, none⟩ := by
  rw [decAt_touched hks hr ht, h, if_neg Nat.one_ne_zero]
  rfl

/-- A decrement's storage: the counter one less, and at 0 as it was. -/
theorem decAt_mem : r.2.mem = if t.mem.value ks = 0 then t.mem else t.mem.writeAll (layBytes ks (t.mem.value ks - 1)) := by
  rw [decAt_touched hks hr ht]
  split
  · rfl
  · dsimp only
    split <;> simp

/-- The counter's word after a decrement that is not refused. -/
theorem decAt_word (hwf : t.mem.wf = true) (h : t.mem.value ks ≠ 0) : r.2.mem.value ks = t.mem.value ks - 1 := by
  have hnodup : ks.Nodup := by
    rw [← hks]
    exact keysFrom_nodup ..
  rw [decAt_mem hks hr ht, if_neg h, Memory.value_writeAll_layBytes _ _ _ hwf hnodup]
  exact Nat.mod_eq_of_lt (Nat.lt_of_le_of_lt (Nat.sub_le ..) (Memory.value_lt ..))

/-- Every other byte after a decrement. -/
theorem decAt_otherByte (hwf : t.mem.wf = true) {k : Nat} (hk : k ∉ ks) : r.2.mem.read k = t.mem.read k := by
  rw [decAt_mem hks hr ht]
  split
  · rfl
  · exact Memory.read_writeAll_layBytes_other _ _ _ k hwf hk

end

theorem decrementLowersTheCounter : Statements.DecrementLowersTheCounter := by
  intro s c off wid hok ks r t old
  have hks : keysFrom (localKey c off) 8 = ks := rfl
  have hr : s.decAt c off wid = r := rfl
  have ht : s.touchKeys s.cur (s.decKeys c off) = t := rfl
  clear_value ks r t
  have hwf : t.mem.wf = true := by
    rw [← ht]
    exact (HomeOnly.touchKeys s s.cur _).wf hok
  refine ⟨decAt_old hks hr ht, fun hu => ?_, decAt_refused hks hr ht, fun hmore => ⟨?_, ?_⟩, fun hlast => ?_, fun k hk => ?_⟩
  · rw [← ht, touchKeys_quiet hu, fold_mem]
  · exact decAt_word hks hr ht hwf (Nat.ne_of_gt (Nat.lt_trans Nat.one_pos hmore))
  · rw [decAt_lowered hks hr ht hmore, performRmw_cores]
  · intro u x
    have hpush : r.2 = u.push ⟨c, off, wid, u.descPin c off, none⟩ := decAt_pushed hks hr ht hlast
    have hcore : u.coreRec c = x := coreRec_performRmw ..
    have hnow : u.now c = t.now c := now_performRmw ..
    have hnet : u.net = t.net := performRmw_net ..
    refine ⟨?_, fun hwid hstays hroom => ?_, fun hwid hstays hfull => ?_⟩
    · have hone : t.mem.value ks = 1 := hlast
      rw [decAt_word hks hr ht hwf (hone ▸ Nat.one_ne_zero), hone]
    · rw [hpush, ← hcore, ← hnow]
      rw [← hcore] at hwid hstays hroom
      exact push_room hwid hstays hroom
    · rw [hpush, ← hnet]
      rw [← hcore] at hwid hstays hfull
      exact push_waits hwid hstays hfull
  · exact decAt_otherByte hks hr ht hwf hk

/-- Settles O26: SPAWN by where its site lies, DEC by the one decrement at its owner, and that decrement by the counter it finds. -/
theorem codelets : Obligations.Codelets := ⟨spawnCompletes, decCompletes, decrementLowersTheCounter⟩

end Sys2Proof.Machine
end

section
/-! SUPPORT. The future forms on a cell that has passed its checks: a reader of a full cell, the two steps of the squash of an empty one's,
and a writer with the waiter it may find (R305 to R309). -/

namespace Sys2Proof.Machine

/-! ## Their arms -/

theorem exec_futr (x : FutRA) (s : State) : exec (.futr x) s = (runFutr x s).finish s := rfl

theorem exec_futrT (x : FutRtA) (s : State) : exec (.futrT x) s = (runFutrT x s).finish s := rfl

theorem exec_futw (x : DABImm) (s : State) : exec (.futw x) s = (runFutw x s).finish s := rfl

/-! ## Cells (R305, R306) -/

/-- A FUTR that begins reads its cell. -/
theorem runFutr_begins {x : FutRA} {s : State} {a : Word} (ha : s.rg x.a + sx x.ofs = a) (h : s.me.stage = .none) :
    runFutr x s = withCell s a fun s y v st =>
      if st.getLsbD 63 then .ok ((s.noteTags fabricAcq (s.tagsOf y.keys)).wg x.d v) else squash s a st := by
  unfold runFutr
  rw [ha, h]

theorem runFutr_cntUp {x : FutRA} {s : State} {a : Word} (ha : s.rg x.a + sx x.ofs = a) (h : s.me.stage = .cntUp) :
    runFutr x s = registerWaiter s a := by
  unfold runFutr
  rw [ha, h]

section
variable {s w u : State} {a : Word} {y : Site} (hw : s.walkedTo 16 [a] = w) (hu : (w.meetUpsets y.keys).fold y.keys = u)
  (hwalk : s.walkable 16 [a]) (hready : w.cellReady a y)
include hw hready

/-- Walks leave the strand's record alone, so an operation that may issue after them may issue before. -/
theorem cellReady_memFree : s.memFree := by
  have hme : w.me = s.me := hw ▸ (HomeOnly.walkedTo s 16 [a]).me
  obtain ⟨hfree, -⟩ := hready
  unfold State.memFree at hfree ⊢
  rwa [hme] at hfree

include hu hwalk

/-- The continuation of a future operation gets the cell's value and state word as its home reads them. -/
theorem withCell_ready (k : State → Site → Word → Word → Res) : withCell s a k = k u y (w.cellVal y) (w.cellState y) := by
  have hfree := cellReady_memFree hw hready
  obtain ⟨-, hsite, hfmt, haway, hposted, hpending, hclaims, hbroken, hsound, hgood⟩ := hready
  unfold withCell
  rw [memOp_free hfree, walked_ready hfree.1 hwalk, hw, hsite, Except.bind, noFormat_ok hfmt]
  dsimp only
  rw [haway, hposted, hpending, any_claimed_false hclaims, hbroken, hsound, ← hu]
  exact if_neg (Bool.eq_false_iff.mp hgood)

theorem runFutr_full {x : FutRA} (ha : s.rg x.a + sx x.ofs = a) (h : (w.cellState y).getLsbD 63 = true) :
    runFutr x s = .ok ((u.noteTags fabricAcq (u.tagsOf y.keys)).wg x.d (w.cellVal y)) := by
  rw [runFutr_begins ha (cellReady_memFree hw hready).1, withCell_ready hw hu hwalk hready, if_pos h]

/-- A FUTR of an empty cell is a squash on the state its read leaves. -/
theorem runFutr_empty {x : FutRA} (ha : s.rg x.a + sx x.ofs = a) (h : (w.cellState y).getLsbD 63 = false) :
    runFutr x s = squash u a (w.cellState y) := by
  rw [runFutr_begins ha (cellReady_memFree hw hready).1, withCell_ready hw hu hwalk hready, if_neg (Bool.eq_false_iff.mp h)]

theorem runFutrT_full {x : FutRtA} (ha : s.rg x.a + sx x.ofs = a) (h : (w.cellState y).getLsbD 63 = true) :
    runFutrT x s = .ok (((u.noteTags fabricAcq (u.tagsOf y.keys)).wg x.d (w.cellVal y)).wp x.p true) := by
  rw [runFutrT, ha, withCell_ready hw hu hwalk hready, if_pos h]

theorem runFutrT_empty {x : FutRtA} (ha : s.rg x.a + sx x.ofs = a) (h : (w.cellState y).getLsbD 63 = false) :
    runFutrT x s = .ok ((u.wg x.d 0).wp x.p false) := by
  rw [runFutrT, ha, withCell_ready hw hu hwalk hready, if_neg (Bool.eq_false_iff.mp h)]

end

/-! ## The squash (R307, R308) -/

section
variable {s : State} {a st : Word}

theorem squash_noCodelet (h : s.me.origin ≠ 3) : squash s a st = trapOf s 0x32 1 a := if_pos h

variable (horigin : s.me.origin = 3)
include horigin

theorem squash_sided (h : s.me.side = true) : squash s a st = trapOf s 0x32 0 a := by
  rw [squash, if_neg (not_not.mpr horigin), if_pos h]

variable (hside : s.me.side = false)
include hside

theorem squash_awaited (h : st.getLsbD 62 = true) : squash s a st = trapOf s 0x31 0 a := by
  rw [squash, if_neg (not_not.mpr horigin), hside, if_neg Bool.false_ne_true, if_pos h]

/-- The squash's first step: the counter of the strand's own descriptor rises. -/
theorem squash_raisesCount (h : st.getLsbD 62 = false)
    (hholds : s.holds (coreAt (winDie s.me.desc) (winRow s.me.desc) (winCol s.me.desc)) s.me.wid = true)
    (hclaims : s.ownCount.any s.claimed = false) (hbroken : s.brokenLocal s.ownCount = false) :
    squash s a st =
      let v := (s.meetUpsets s.ownCount).performRmw (layBytes s.ownCount (s.mem.value s.ownCount + 1)) none
      .wait { v with me := { v.me with stage := .cntUp } } .load := by
  rw [squash, if_neg (not_not.mpr horigin), hside, if_neg Bool.false_ne_true, h, if_neg Bool.false_ne_true]
  dsimp only
  rw [hholds, if_neg (by decide), hclaims, hbroken]
  rfl

end

/-- The squash's second step at a cell that passes its checks, by the state word it finds. -/
theorem registerWaiter_ready {s t : State} {a : Word} {y : Site} (ht : (s.meetUpsets y.keys).fold y.keys = t)
    (hsite : s.check s.ctx .rmw true 16 a a 16 = .ok y) (hfmt : y.fmt = none)
    (hclaims : ∀ k ∈ s.ownCount ++ y.keys, s.claimed k = false) (hbroken : s.brokenLocal (y.keys ++ s.ownDec) = false)
    (hsound : (s.meetUpsets y.keys).sitePoisoned y = false) (hgood : cellBad (s.cellState y) = false) :
    registerWaiter s a =
      let d := t.me.desc
      if (s.cellState y).getLsbD 63 then
        (t.decAt (coreAt (winDie d) (winRow d) (winCol d)) (winOff d) t.me.wid).2.endSquash
      else if (s.cellState y).getLsbD 62 then
        if t.me.tr.st = .running then heldTrap t.lowerCount ⟨0x31, 0, a, none, 0⟩ else .trap t.lowerCount ⟨0x31, 0, a, none, 0⟩
      else (t.performRmw (layBytes (y.keys.drop 8) (2 ^ 62 + d.toNat % 2 ^ 56)) none).endSquash := by
  have hcell : BitVec.ofNat 64 (t.mem.value (y.keys.drop 8)) = s.cellState y := by
    rw [← ht, fold_mem]
    rfl
  unfold registerWaiter
  dsimp only
  rw [any_claimed_false fun k hk => hclaims k (List.mem_append_left _ hk), hsite, Except.bind, noFormat_ok hfmt]
  dsimp only
  rw [any_claimed_false fun k hk => hclaims k (List.mem_append_right _ hk), hbroken, hsound, ht, hcell, hgood]
  rfl

theorem finish_endSquash (u s : State) : u.endSquash.finish s = .next ((u.dropStrand u.cur 0).coreLeft u.core 0) := rfl

theorem futureReads : Statements.FutureReads := by
  intro s a y w u got
  refine ⟨fun x ha hwalk hready hfull => ?_, fun x ha hwalk hready => ⟨fun hfull => ?_, fun hempty => ?_⟩,
    fun x ha hwalk hready hempty hrun => ?_, fun x ha hstage hsite hfmt hclaims hbroken hsound hgood => ?_⟩
  · rw [exec_futr, runFutr_full rfl rfl hwalk hready ha hfull, finish_ok]
  · rw [exec_futrT, runFutrT_full rfl rfl hwalk hready ha hfull, finish_ok]
  · rw [exec_futrT, runFutrT_empty rfl rfl hwalk hready ha hempty, finish_ok]
  · rw [exec_futr, runFutr_empty rfl rfl hwalk hready ha hempty]
    refine ⟨fun horigin => ?_, fun horigin hside => ?_, fun horigin hside hwaits => ?_,
      fun horigin hside hwaits hholds hclaims hbroken => ?_⟩
    · rw [squash_noCodelet horigin, trapOf, finish_trap _ _ _ hrun, State.traps]
    · rw [squash_sided horigin hside, trapOf, finish_trap _ _ _ hrun, State.traps]
    · rw [squash_awaited horigin hside hwaits, trapOf, finish_trap _ _ _ hrun, State.traps]
    · rw [squash_raisesCount horigin hside hwaits hholds (any_claimed_false hclaims) hbroken]
      exact finish_wait _ _ _
  · intro t d ends
    have ht : (s.meetUpsets y.keys).fold y.keys = t := rfl
    have hme : t.me = s.me := ((HomeOnly.meetUpsets s y.keys).trans (HomeOnly.fold _ y.keys)).me
    clear_value t
    rw [exec_futr, runFutr_cntUp ha hstage, registerWaiter_ready ht hsite hfmt hclaims hbroken hsound hgood]
    dsimp only
    refine ⟨fun hfull => ?_, fun hempty hwaits hrun => ?_, fun hempty hwaits => ?_⟩
    · rw [if_pos hfull, finish_endSquash]
    · have hpass : t.me.tr.st ≠ .running := by
        rw [hme]
        exact hrun
      rw [if_neg (Bool.eq_false_iff.mp hempty), if_pos hwaits, if_neg hpass, finish_trap _ _ _ hrun, State.traps]
    · rw [if_neg (Bool.eq_false_iff.mp hempty), if_neg (Bool.eq_false_iff.mp hwaits), finish_endSquash]

/-! ## FUTW (R309) -/

section
variable {x : DABImm} {s w t : State} {y : Site} {a : Word} (ha : s.rg x.a + sx x.imm = a) (hw : s.walkedTo 16 [a] = w)
  (ht : (w.meetUpsets y.keys).fold y.keys = t) (hwalk : s.walkable 16 [a]) (hready : w.cellReady a y) (hdrained : t.drained)
include ha hw ht hwalk hready hdrained

theorem runFutw_full (h : (w.cellState y).getLsbD 63 = true) : runFutw x s = .ok (t.markIssue.sided.wg x.d 0) := by
  rw [runFutw, ha, withCell_ready hw ht hwalk hready, releaseWait_drained hdrained, if_pos h]

theorem runFutw_empty (h : (w.cellState y).getLsbD 63 = false)
    (hfree : ((w.cellState y).getLsbD 62 && t.markIssue.waiterClaimed (waiterAddr (w.cellState y))) = false) :
    runFutw x s =
      let u := t.markIssue
      let v := u.perform (layBytes (y.keys.take 8) (u.rg x.b).toNat ++ layBytes (y.keys.drop 8) (2 ^ 63))
        (some ⟨.core u.core, .fabric⟩)
      .ok ((if (w.cellState y).getLsbD 62 then v.decWaiter (waiterAddr (w.cellState y)) else v).sided.wg x.d 1) := by
  rw [runFutw, ha, withCell_ready hw ht hwalk hready, releaseWait_drained hdrained, h, hfree]
  rfl

end

theorem futureWrites : Statements.FutureWrites := by
  intro x s y a w t u st bytes hwalk hready hdrained
  refine ⟨fun hfull => ?_, fun hempty hwaits => ?_, fun hempty hwaits hclaims => ?_⟩
  · rw [exec_futw, runFutw_full rfl rfl rfl hwalk hready hdrained hfull, finish_ok]
  · rw [exec_futw, runFutw_empty rfl rfl rfl hwalk hready hdrained hempty (by rw [hwaits]; rfl), hwaits]
    rfl
  · rw [exec_futw, runFutw_empty rfl rfl rfl hwalk hready hdrained hempty (by rw [hwaits]; exact hclaims), hwaits]
    rfl

/-- Settles O27: a future operation past its checks by the state word of its cell; an empty cell's reader by its origin and what it has
done, and in its second step by what the cell then holds. -/
theorem futures : Obligations.Futures := ⟨futureReads, futureWrites⟩

end Sys2Proof.Machine
end

section
/-! SUPPORT. COPY as it queues its command, and the slot ring forms on a ring that their handle names (R313, R315 to R318). -/

namespace Sys2Proof.Machine

/-! ## Their arms -/

theorem exec_copy (x : CopyA) (s : State) : exec (.copy x) s = (runCopy x s).finish s := rfl

theorem exec_ringinit (x : DAB) (s : State) : exec (.ringinit x) s = (runRinginit x s).finish s := rfl

theorem exec_awaitf (x : DAB) (s : State) : exec (.awaitf x) s = (runAwaitf x s).finish s := rfl

theorem exec_relslot (x : AB) (s : State) : exec (.relslot x) s = (runRelslot x s).finish s := rfl

theorem exec_ringstat (x : DA) (s : State) : exec (.ringstat x) s = (runRingstat x s).finish s := rfl

theorem exec_ringstatCfg (x : DA) (s : State) : exec (.ringstatCfg x) s = (runRingstatCfg x s).finish s := rfl

/-! ## COPY (R313) -/

/-- The command that a COPY of the current strand queues. -/
def State.copyCmd (s : State) (x : CopyA) : CopyCmd where
  words := scopedCopy ((elems 64 (s.rv x.v)).map (BitVec.ofNat 64)) x.sc
  ring := s.rg x.b
  core := s.core
  strand := s.cur
  wid := s.me.wid
  part := s.me.part
  sys := s.me.sys
  seq := (s.coreRec s.core).nextSeq
  ld := (s.me.ls.filter LEntry.waiting).map fun e => (e.idx, s.me.epoch e.idx)
  gen := s.me.gen
  reserved := false
  bad := false
  late := none

theorem runCopy_queues {x : CopyA} {s : State} {r : Ring} (hfree : s.memFree)
    (hgood : copyBad ((elems 64 (s.rv x.v)).map (BitVec.ofNat 64)) = false) (hring : s.ringOf (s.rg x.b) = .ok r)
    (hroom : (s.tileRec (tileOf s.core)).copyq.length < 16) :
    runCopy x s = (Res.ok (s.modTile (tileOf s.core) fun u => { u with copyq := u.copyq ++ [s.copyCmd x] })).map State.sided := by
  unfold runCopy
  rw [memOp_free hfree]
  dsimp only
  rw [hgood, if_neg Bool.false_ne_true, hring]
  dsimp only
  rw [if_neg (Nat.not_le.mpr hroom)]
  rfl

/-! ## RINGINIT (R315) -/

section
variable {s : State} {blk idx : Nat}
  (hidle : ∀ r, s.ring s.me.wid blk idx = some r → r.poisoned = false ∧ r.res = 0 ∧ s.ringSleepers r = 0)
include hidle

theorem ring_not_poisoned : ((s.ring s.me.wid blk idx).map (·.poisoned)).getD false = false := by
  cases hr : s.ring s.me.wid blk idx with
  | none => rfl
  | some r => exact (hidle r hr).1

theorem ring_not_inUse : ((s.ring s.me.wid blk idx).any fun r => r.res != 0 || s.ringSleepers r != 0) = false := by
  cases hr : s.ring s.me.wid blk idx with
  | none => rfl
  | some r =>
    obtain ⟨-, hres, hsleepers⟩ := hidle r hr
    rw [Option.any_some, hres, hsleepers]
    rfl

theorem runRinginit_idle {x : DAB} (hengine : s.engine (s.rg x.a) recRing = .ok (blk, idx)) (hchk : hChk (s.rg x.a) = 0)
    (hm : hM (s.rg x.a) = false) (hmem : hMem (s.rg x.a) = 0) (hsome : 1 ≤ ((s.rg x.b).extractLsb' 0 9).toNat)
    (hfits : ((s.rg x.b).extractLsb' 0 9).toNat ≤ 256) :
    runRinginit x s = (Res.ok ((State.setRing { s with freeCtr := s.freeCtr + 1 }
      ⟨s.me.wid, blk, idx, Config.freeChk s.freeCtr, ((s.rg x.b).extractLsb' 0 9).toNat, 0, 0, 0, [],
        ((s.ring s.me.wid blk idx).map (·.asks)).getD [], false⟩).wg x.d
          (fullHandle (s.rg x.a) (Config.freeChk s.freeCtr)))).map State.sided := by
  unfold runRinginit
  simp only [hengine]
  rw [if_neg (by simp [hchk, hm, hmem]), if_neg (Bool.eq_false_iff.mp (ring_not_poisoned hidle)), if_neg (by omega),
    if_neg (Bool.eq_false_iff.mp (ring_not_inUse hidle))]
  rfl

end

/-! ## AWAITF (R317) -/

theorem runAwaitf_woken {s : State} {w : Word} {ts : List SyncTag} (h : s.me.stage = .ringDone w ts) (x : DAB) :
    runAwaitf x s = (Res.ok ((s.noteTags fabricAcq ts).wg x.d w)).map State.sided := by
  unfold runAwaitf
  simp only [h]

section
variable {x : DAB} {s : State} {r : Ring} (hstage : s.me.stage = .none) (hring : s.ringOf (s.rg x.a) = .ok r)
include hstage hring

theorem runAwaitf_filled {y : RingSlot} (hslot : r.slot ((s.rg x.b).setWidth 32) = some y)
    (hfilled : r.filled ((s.rg x.b).setWidth 32) = true) (hheld : r.held ((s.rg x.b).setWidth 32) = true)
    (hkept : y.released = false) :
    runAwaitf x s = (Res.ok ((s.noteTags fabricAcq y.sync.toList).wg x.d y.status)).map State.sided := by
  unfold runAwaitf
  simp only [hstage, hring, hfilled, hslot, hheld, hkept, Bool.not_true, Bool.or_self, Bool.false_eq_true, ↓reduceIte]

/-- A slot that is not yet filled puts the strand to sleep on it. -/
theorem runAwaitf_sleeps (hempty : r.filled ((s.rg x.b).setWidth 32) = false) : runAwaitf x s =
    (Res.wait { s with me := { s.me with stage := .onRing r.blk r.idx ((s.rg x.b).setWidth 32) } } .awaitf).map State.sided := by
  unfold runAwaitf
  simp only [hstage, hring, hempty, Bool.not_false, ↓reduceIte]

end

/-! ## RELSLOT (R318) -/

/-- A RELSLOT's own waits do not change which ring its handle names. -/
theorem runRelslot_releases {x : AB} {s : State} {r : Ring} {y : RingSlot}
    (hfree : ¬(s.me.tr.st = .running ∧ s.me.tr.entries.any (fun e => entryTouchesMem e.instr) = true)) (hdrained : s.drained)
    (hring : s.ringOf (s.rg x.a) = .ok r) (hslot : r.slot ((s.rg x.b).setWidth 32) = some y)
    (hheld : r.held ((s.rg x.b).setWidth 32) = true) (hkept : y.released = false) :
    runRelslot x s =
      (Res.ok (s.markIssue.setRing ((r.setSlot { y with released := true }).advance 257))).map State.sided := by
  have hagain : s.markIssue.ringOf (s.rg x.a) = .ok r := hring
  unfold runRelslot
  rw [signalOp_free hfree]
  simp only [hring]
  rw [releaseWait_drained hdrained]
  simp only [hagain, hslot, hheld, hkept, Bool.not_true, Bool.or_self, Bool.false_eq_true, ↓reduceIte]

/-- The number an issue noted is forgotten as the instruction completes. -/
theorem goesOn_setRing_markIssue (s : State) (r : Ring) : (s.markIssue.setRing r).sided.goesOn = (s.setRing r).sided.goesOn := rfl

/-! ## RINGSTAT (R316) -/

section
variable {x : DA} {s : State} {r : Ring} (hring : s.ringOf (s.rg x.a) = .ok r)
include hring

theorem runRingstat_ring : runRingstat x s = .ok (s.wg x.d (r.wp ++ r.rp)) := by
  unfold runRingstat
  rw [hring]

theorem runRingstatCfg_ring :
    runRingstatCfg x s = .ok (s.wg x.d (BitVec.ofNat 64 (r.size + r.res * 2 ^ 16 + s.ringSleepers r * 2 ^ 32))) := by
  unfold runRingstatCfg
  rw [hring]

end

/-- Settles O28: past its checks each form makes the one change of its rule; AWAITF by whether its slot's fill has come. -/
theorem copyAndRings : Obligations.CopyAndRings := by
  intro s
  refine ⟨fun x r hfree => ?_, fun x blk idx hengine hchk hm hmem hsome hfits hidle => ?_, fun x w ts hstage => ?_,
    fun x r y hstage hring hslot hfilled hheld hkept => ?_, fun x r hstage hring hempty => ?_,
    fun x r y hfree hdrained hring hslot hheld hkept => ?_, fun x r hring => ⟨?_, ?_⟩⟩
  · intro ws hgood hring hroom c
    rw [exec_copy, runCopy_queues hfree hgood hring hroom, finish_sided_ok]
    rfl
  · intro c u
    rw [exec_ringinit, runRinginit_idle hidle hengine hchk hm hmem hsome hfits, finish_sided_ok]
  · rw [exec_awaitf, runAwaitf_woken hstage, finish_sided_ok]
  · rw [exec_awaitf, runAwaitf_filled hstage hring hslot hfilled hheld hkept, finish_sided_ok]
  · rw [exec_awaitf, runAwaitf_sleeps hstage hring hempty, finish_sided_wait]
  · rw [exec_relslot, runRelslot_releases hfree hdrained hring hslot hheld hkept, finish_sided_ok, goesOn_setRing_markIssue]
  · rw [exec_ringstat, runRingstat_ring hring, finish_ok]
  · rw [exec_ringstatCfg, runRingstatCfg_ring hring, finish_ok]

end Sys2Proof.Machine
end

section
/-! SUPPORT. The safe state that device reset leaves (R415). -/

namespace Sys2Proof.Machine

/-- Settles O57: reset lists no byte and no turn. -/
theorem resetIsSafe : Obligations.ResetIsSafe := State.inv_iff.mpr ⟨reset_wf, rfl⟩

end Sys2Proof.Machine
end

section
/-! SUPPORT. The segment instructions: a segment's replica codes and heat, and the replicas that system software adds and takes away
(R332 to R334). -/

namespace Sys2Proof.Machine

/-! ## Their arms -/

theorem exec_segmap (x : DA) (s : State) : exec (.segmap x) s = (runSegmap x s).finish s := rfl

theorem exec_segmapHi (x : DA) (s : State) : exec (.segmapHi x) s = (runSegmapHi x s).finish s := rfl

theorem exec_segheat (x : DA) (s : State) : exec (.segheat x) s = (runSegheat x s).finish s := rfl

theorem exec_segheatClr (x : DA) (s : State) : exec (.segheatClr x) s = (runSegheatClr x s).finish s := rfl

theorem exec_segrep (x : AB) (s : State) : exec (.segrep x) s = (runSegrep x s).finish s := rfl

theorem exec_segrepDel (x : AB) (s : State) : exec (.segrepDel x) s = (runSegrepDel x s).finish s := rfl

/-! ## The words of an entry (R333) -/

/-- A word of an entry holds four replica codes, an absent one as 0x00FF. -/
theorem codeWord_code (g : Segment) (k : Nat) {i : Nat} (hi : i < 4) :
    (codeWord g k).extractLsb' (16 * i) 16 = g.codes.getD (4 * k + i) 0xFF := by
  let xs := ((List.range 4).map fun i => g.codes.getD (4 * k + i) 0xFF).map BitVec.toNat
  have hfit : packElems 16 xs < 2 ^ 64 := packElems_lt 16 xs
  have hcode : xs.getD i 0 = (g.codes.getD (4 * k + i) 0xFF).toNat := by
    simp [xs, List.getD, hi]
  apply BitVec.eq_of_toNat_eq
  calc ((codeWord g k).extractLsb' (16 * i) 16).toNat
      = packElems 16 xs / 2 ^ (i * 16) % 2 ^ 16 := by
        rw [BitVec.extractLsb'_toNat, Nat.shiftRight_eq_div_pow, codeWord, toNat_ofNat_of_fits hfit, Nat.mul_comm 16 i]
    _ = (g.codes.getD (4 * k + i) 0xFF).toNat := by
        rw [packElems_digit, hcode, Nat.mod_eq_of_lt (BitVec.isLt _)]

/-! ## The segment an operand names (R332, R333) -/

/-- The segment that bits 11:0 of a word name in the strand's own weave. -/
def State.ownSegment (s : State) (ga : Word) : Option Segment :=
  (s.weaveOf s.me.wid).bind fun w => w.segment (ga.extractLsb' 0 12).toNat

theorem segment_inside {w : Weave} {k : Nat} (hk : 1 ≤ k) : w.segment k = w.heddle[k - 1]? := if_neg (by omega)

theorem segment_outside {w : Weave} {k : Nat} (hk : k = 0 ∨ w.heddle.length < k) : w.segment k = none := by
  unfold Weave.segment
  split
  · rfl
  · exact List.getElem?_eq_none (by omega)

theorem ownSegment_weave {s : State} {ga : Word} {w : Weave} (hw : s.weaveOf s.me.wid = some w) :
    s.ownSegment ga = w.segment (ga.extractLsb' 0 12).toNat := by
  unfold State.ownSegment
  rw [hw]
  rfl

theorem ownSegment_no_weave {s : State} {ga : Word} (hw : s.weaveOf s.me.wid = none) : s.ownSegment ga = none := by
  unfold State.ownSegment
  rw [hw]
  rfl

section
variable {s : State} {ga : Word} (k : Segment → Res)

theorem withSegment_mapped {g : Segment} (hg : s.ownSegment ga = some g) : withSegment s ga k = k g := by
  unfold State.ownSegment at hg
  unfold withSegment
  rw [hg]

theorem withSegment_unmapped (hg : s.ownSegment ga = none) : withSegment s ga k = trapOf s 0x39 1 ga := by
  unfold State.ownSegment at hg
  unfold withSegment
  rw [hg]

end

section
variable {x : DA} {s : State}

theorem exec_segmap_mapped {g : Segment} (hg : s.ownSegment (s.rg x.a) = some g) :
    exec (.segmap x) s = .next (s.wg x.d (codeWord g 0)).goesOn := by
  rw [exec_segmap, runSegmap, withSegment_mapped _ hg, finish_ok]

theorem exec_segmapHi_mapped {g : Segment} (hg : s.ownSegment (s.rg x.a) = some g) :
    exec (.segmapHi x) s = .next (s.wg x.d (codeWord g 1)).goesOn := by
  rw [exec_segmapHi, runSegmapHi, withSegment_mapped _ hg, finish_ok]

variable (hg : s.ownSegment (s.rg x.a) = none) (hrun : s.me.tr.st ≠ .running)
include hg hrun

theorem exec_segmap_unmapped : exec (.segmap x) s = .next (s.traps 0x39 1 (s.rg x.a)) := by
  rw [exec_segmap, runSegmap, withSegment_unmapped _ hg, finish_trapOf hrun]

theorem exec_segmapHi_unmapped : exec (.segmapHi x) s = .next (s.traps 0x39 1 (s.rg x.a)) := by
  rw [exec_segmapHi, runSegmapHi, withSegment_unmapped _ hg, finish_trapOf hrun]

theorem exec_segheat_unmapped : exec (.segheat x) s = .next (s.traps 0x39 1 (s.rg x.a)) := by
  rw [exec_segheat, runSegheat, segHeat, withSegment_unmapped _ hg, finish_trapOf hrun]

end

/-- Settles O31: a segment inside the heddle copy gives its entry's word, whose four fields are the packed codes; outside it, or
without a weave, no segment is named. -/
theorem segmapReads : Obligations.SegmapReads := by
  intro x s
  refine ⟨fun w hw => ⟨fun g hk hg => ?_, fun hk hrun => ?_⟩, fun hw hrun => ?_⟩
  · have hseg : s.ownSegment (s.rg x.a) = some g := by rw [ownSegment_weave hw, segment_inside hk, hg]
    refine ⟨fun i hi => ⟨?_, codeWord_code g 1 hi⟩, exec_segmap_mapped hseg, exec_segmapHi_mapped hseg⟩
    simpa using codeWord_code g 0 hi
  · have hseg : s.ownSegment (s.rg x.a) = none := by rw [ownSegment_weave hw, segment_outside hk]
    exact ⟨exec_segmap_unmapped hseg hrun, exec_segmapHi_unmapped hseg hrun⟩
  · have hseg : s.ownSegment (s.rg x.a) = none := ownSegment_no_weave hw
    exact ⟨exec_segmap_unmapped hseg hrun, exec_segmapHi_unmapped hseg hrun⟩

/-! ## Heat (R332) -/

/-- What SEGHEAT reads of a segment for the strand's own weave. -/
def State.heatWord (s : State) (g : Segment) : Nat :=
  let cs := g.replicas.filter (s.pinsFor s.me.wid)
  let sum (f : Core → Nat) (cap : Nat) : Nat := min cap ((cs.map fun c => f (s.coreRec c)).foldl (· + ·) 0)
  g.replicas.length * 2 ^ 56 + (cs.map fun c => (s.coreRec c).heatQmax).foldl max 0 * 2 ^ 48
    + sum (·.heatShed) 65535 * 2 ^ 32 + sum (·.heatArr) (2 ^ 32 - 1)

theorem exec_segheat_mapped {x : DA} {s : State} {g : Segment} (hg : s.ownSegment (s.rg x.a) = some g) :
    exec (.segheat x) s = .next (s.wg x.d (BitVec.ofNat 64 (s.heatWord g))).goesOn := by
  rw [exec_segheat, runSegheat, segHeat, withSegment_mapped _ hg]
  exact finish_ok _ s

theorem exec_segheatClr_mapped {x : DA} {s : State} {g : Segment} (hg : s.ownSegment (s.rg x.a) = some g) :
    exec (.segheatClr x) s = .next (State.wg ((g.replicas.filter (s.pinsFor s.me.wid)).foldl (fun s c => s.modCore c fun y =>
      { y with heatArr := 0, heatShed := 0, heatQmax := 0 }) s) x.d (BitVec.ofNat 64 (s.heatWord g))).goesOn := by
  rw [exec_segheatClr, runSegheatClr, segHeat, withSegment_mapped _ hg]
  exact finish_ok _ s

/-! ## SEGREP and SEGREP.DEL (R334) -/

/-- A delete leaves no area of the weave with the core. -/
theorem detachSaved_forgets (s : State) {w : Weave} {c : CoreIx} {v : Save} (hv : v ∈ (s.detachSaved w c).saves)
    (hwid : v.wid = w.wid) : ∀ y ∈ v.cores, y.1 ≠ c := by
  obtain ⟨v', -, rfl⟩ := List.mem_map.mp hv
  intro y hy
  by_cases h : v'.wid = w.wid
  · rw [if_pos h] at hy
    simpa using (List.mem_filter.mp hy).2
  · rw [if_neg h] at hwid
    exact absurd hwid h

section
variable {x : AB} {s : State} {w : Weave} {g : Segment} {c : CoreIx} (hsys : s.me.sys = true)
  (hw : s.weaveOf ((s.rg x.a).extractLsb' 32 32).toNat = some w) (hquiet : s.weaveQuiet w = true) (hpart : w.part = s.me.part)
  (hg : w.segment ((s.rg x.a).extractLsb' 0 12).toNat = some g) (hc : codeCore ((s.rg x.b).setWidth 16) = some c)
include hsys hw hquiet hpart hg hc

theorem exec_segrep_adds (hcol : (((s.rg x.b).setWidth 16 : BitVec 16).extractLsb' 0 8).toNat ≤ 159)
    (hdie : s.dieIn s.me.part (dieOf c) = true) (hwid : (s.coreRec c).wid = none) (hpin : (s.coreRec c).pinSeg = none)
    (hkey : (s.coreRec c).key = none) (hquar : (s.coreRec c).quar = false) (hlisted : w.cores.contains c = false)
    (hvault : (s.vaultUses (blockOf c)).foldl (fun t u => max t u.2) 0 + (s.pinsIn (blockOf c) + 1) * shedBytes ≤ vaultSize)
    (hused : (g.codes.filter fun c => (codeCore c).isSome).length < 8) :
    exec (.segrep x) s = .next ((((s.touchImage w c ((s.rg x.a).extractLsb' 0 12).toNat).takeCore w c
      (some ((s.rg x.a).extractLsb' 0 12).toNat)).wireCore w c).setWeave { w with
        heddle := w.heddle.set (((s.rg x.a).extractLsb' 0 12).toNat - 1) { g with codes :=
          (((g.codes.filter fun c => (codeCore c).isSome) ++ [(s.rg x.b).setWidth 16]) ++ List.replicate 8 0xFF).take 8 },
        cores := w.cores ++ [c] }).goesOn := by
  rw [exec_segrep, runSegrep, segRep, requireSys_sys hsys]
  simp only [hw, hquiet, hpart, hg, hc, hdie, hwid, hpin, hkey, hquar, hlisted, Bool.not_true, Bool.or_false, Bool.false_eq_true,
    ne_eq, not_true_eq_false, decide_false, ↓reduceIte, Option.isSome_none, decide_eq_true_eq]
  rw [if_neg (by omega), if_neg (by omega), if_neg (by omega), finish_ok]

theorem exec_segrepDel_drops (hused : (g.codes.filter fun c => (codeCore c).isSome).contains ((s.rg x.b).setWidth 16) = true)
    (hmore : 1 < (g.codes.filter fun c => (codeCore c).isSome).length) :
    exec (.segrepDel x) s = .next (((s.detach w c).detachSaved w c).setWeave { w with
      heddle := w.heddle.set (((s.rg x.a).extractLsb' 0 12).toNat - 1) { g with codes :=
        (((g.codes.filter fun c => (codeCore c).isSome).filter (· != (s.rg x.b).setWidth 16)) ++ List.replicate 8 0xFF).take 8 },
      cores := w.cores.filter (· != c) }).goesOn := by
  rw [exec_segrepDel, runSegrepDel, segRep, requireSys_sys hsys]
  simp only [hw, hquiet, hpart, hg, hc, hused, Bool.not_true, Bool.or_false, Bool.false_eq_true, ne_eq, not_true_eq_false,
    decide_false, ↓reduceIte]
  rw [if_neg (by omega), finish_ok]

end

/-- Settles O32: each form by the segment it names; SEGREP and SEGREP.DEL pass their checks in the order of R334. -/
theorem segmentForms : Obligations.SegmentForms := by
  intro s
  refine ⟨fun x g hg => ?_, fun x hg hrun => ?_, fun x w g c hsys hw hquiet hpart hg hc => ?_, fun x hsys hrun => ?_⟩
  · exact ⟨exec_segheat_mapped hg, exec_segheatClr_mapped hg, exec_segmap_mapped hg, exec_segmapHi_mapped hg⟩
  · exact ⟨exec_segmap_unmapped hg hrun, exec_segheat_unmapped hg hrun⟩
  · refine ⟨exec_segrep_adds hsys hw hquiet hpart hg hc, fun hused hmore => ⟨?_, fun v hv hwid => detachSaved_forgets _ hv hwid⟩⟩
    exact exec_segrepDel_drops hsys hw hquiet hpart hg hc hused hmore
  · constructor
    · rw [exec_segrep, runSegrep, segRep, requireSys_user hsys, finish_trapOf hrun]
    · rw [exec_segrepDel, runSegrepDel, segRep, requireSys_user hsys, finish_trapOf hrun]

end Sys2Proof.Machine
end

section
/-! SUPPORT. JX, CALLX and RETX: the transfer they are outside shuttle mode, the checks of a departure in it, and what a departing strand
leaves and carries (R222, R229, R323 to R325). -/

namespace Sys2Proof.Machine

/-! ## Their arms -/

theorem exec_jx (x : JxD) (s : State) : exec (.jx x) s = (travel s (targetOf s.iss.own x.disp) none x.live).finish s := rfl

theorem exec_jxReg (x : JxR) (s : State) : exec (.jxReg x) s = (travel s (s.rg x.a) none x.live).finish s := rfl

theorem exec_retx (x : JxR) (s : State) : exec (.retx x) s = (travel s (s.rg x.a) none x.live).finish s := rfl

theorem exec_callx (x : CallxD) (s : State) :
    exec (.callx x) s = (travel s (targetOf s.iss.own x.disp) (some x.d) x.live).finish s := rfl

theorem exec_callxReg (x : CallxR) (s : State) : exec (.callxReg x) s = (travel s (s.rg x.a) (some x.d) x.live).finish s := rfl

/-! ## Outside shuttle mode (R323) -/

section
variable {s : State} (hshm : s.me.shm = false) (t : Word) (live : Option LivePfx)
include hshm

theorem travel_transfer : travel s t none live = s.transfer t false := by
  unfold travel
  rw [hshm]
  rfl

theorem travel_transfer_link (d : GReg) : travel s t (some d) live = (s.wg d s.iss.next).transfer t false := by
  unfold travel
  rw [hshm]
  rfl

end

theorem travelFormsOutsideShuttleMode : Statements.TravelFormsOutsideShuttleMode := by
  intro s t l hshm
  refine ⟨fun x ht hl => ?_, fun x ht hl => ⟨?_, ?_⟩, fun x ht hl => ?_, fun x ht hl => ?_⟩
  · rw [exec_jx, ht, travel_transfer hshm, hl.transfer]
  · rw [exec_jxReg, ht, travel_transfer hshm, hl.transfer]
  · rw [exec_retx, ht, travel_transfer hshm, hl.transfer]
  · rw [exec_callx, ht, travel_transfer_link hshm, hl.transfer]
  · rw [exec_callxReg, ht, travel_transfer_link hshm, hl.transfer]

/-! ## Departures (R324, R325) -/

/-- A strand in shuttle mode that no cause of R324 and no wait of R325 keeps from departing. -/
structure State.MayDepart (s : State) : Prop where
  shm : s.me.shm = true
  stage : s.me.stage = .none
  wt : s.me.wt = false
  sys : s.me.sys = false
  origin : s.me.origin ≠ 1
  landing : s.me.ls = []
  treadle : s.me.tr.st = .idle ∨ s.me.tr.st = .ready
  loom : s.loomBusy = false
  queues : s.me.q.toList.any isLocal = false
  sends : s.me.sendq = []
  posted : s.postedDone s.issueSeq = true
  pointers : s.ptrsFree = true

theorem travel_departs {s : State} {t : Word} {k : Nat} {g : Segment} {c : CoreIx} {p : LivePfx} {live : Option LivePfx}
    {link : Option GReg} (h : s.MayDepart) (hseg : segmentOf (s.weaveWords s.me.wid) t = some k)
    (hg : ((s.weaveOf s.me.wid).bind fun w => w.segment k) = some g) (hc : s.replica s.me.wid g = some c)
    (hp : live.or (carrySet g.carry) = some p) (hfew : (carriedG p link).length ≤ 32) :
    travel s t link live = .gone (s.markIssue.depart t k c p link) := by
  have hrun : s.me.tr.st ≠ .running := by rcases h.treadle with e | e <;> simp [e]
  have hrec : ¬(s.me.tr.st = .recording ∨ s.me.tr.st = .suspended) := by rcases h.treadle with e | e <;> simp [e]
  have hptrs : s.markIssue.ptrsFree = true := h.pointers
  unfold travel
  simp only [h.shm, h.stage, h.wt, h.sys, h.landing, h.loom, h.queues, h.sends, hseg, hg, hc, hp, beq_iff_eq, Bool.not_true,
    Bool.or_self, Bool.false_eq_true, List.isEmpty_nil, Option.some_or, Option.getD_some, ↓reduceIte]
  rw [if_neg h.origin, if_neg hrun, if_neg hrec, if_neg (by omega), fenceStWait_done h.posted, hptrs]
  rfl

theorem departuresComplete : Statements.DeparturesComplete := by
  intro s t k g c p hshm hstage hwt hsys horigin hls htr hloom hq hseg hg hc hsendq hposted hptrs
  have h : s.MayDepart := ⟨hshm, hstage, hwt, hsys, horigin, hls, htr, hloom, hq, hsendq, hposted, hptrs⟩
  refine ⟨fun x ht ⟨hp, hfew⟩ => ?_, fun x ht ⟨hp, hfew⟩ => ⟨?_, ?_⟩, fun x ht ⟨hp, hfew⟩ => ?_, fun x ht ⟨hp, hfew⟩ => ?_⟩
  · rw [exec_jx, ht, travel_departs h hseg hg hc hp hfew, finish_gone]
  · rw [exec_jxReg, ht, travel_departs h hseg hg hc hp hfew, finish_gone]
  · rw [exec_retx, ht, travel_departs h hseg hg hc hp hfew, finish_gone]
  · rw [exec_callx, ht, travel_departs h hseg hg hc hp hfew, finish_gone]
  · rw [exec_callxReg, ht, travel_departs h hseg hg hc hp hfew, finish_gone]

/-! ## What a departing strand leaves and carries (R222, R229, R324, R325) -/

/-- The shuttle that a strand without a link register to write becomes as it departs. -/
def State.shuttleOut (s : State) (t : Word) (k : Nat) (c : CoreIx) (p : LivePfx) : Shuttle :=
  { wid := s.me.wid, target := t, seg := k, core := c, g := (carriedG p none).map fun r => (r, s.me.readG r),
    v := (carriedV p).map fun r => (r, s.me.readV r), flags := s.me.flags, rmode := s.me.rmode, lsctl := s.me.lsctl, q := s.me.q,
    side := s.me.side, since := none, first := 0, cls := 1, order := s.order, poison := none, relFence := s.me.relFence,
    readTags := s.me.readTags }

/-- Queue registers that hold nothing take no stream end along. -/
theorem departEnds_unbound (s : State) (target : CoreIx) :
    (Vector.replicate 8 QBind.unbound).toList.foldl (fun s b => s.departEnd b s.core target) s = s := rfl

theorem depart_eq {s : State} (hq : s.me.q = Vector.replicate 8 .unbound) {c : CoreIx} (hpin : s.pinsFor s.me.wid c = true) (t : Word)
    (k : Nat) (p : LivePfx) :
    s.depart t k c p none =
      ((State.launchShuttle { s with order := s.order + 1 } (s.shuttleOut t k c p)).freeSlot s.cur).refresh s.core := by
  have hpin' : State.pinsFor { s with order := s.order + 1 } s.me.wid c = true := hpin
  unfold State.depart
  simp only [hq, departEnds_unbound, hpin', ↓reduceIte]
  rw [State.shuttleOut, hq]
  rfl

/-- With no gang waiting, a slot that frees leaves the network as it was. -/
theorem freeSlot_net {s : State} (h : s.gangs = []) : (s.freeSlot s.cur).net = s.net := by
  unfold State.freeSlot State.modStrand State.setStrand State.breakGangs
  simp only [if_true, h, List.filter_nil, List.foldl_nil]

theorem departureCarriesTheSet : Statements.DepartureCarriesTheSet := by
  intro s t k c p hgangs hq hpin u
  have hu : u = _ := depart_eq hq hpin t k p
  have hg : (State.launchShuttle { s with order := s.order + 1 } (s.shuttleOut t k c p)).gangs = [] := hgangs
  rw [hu]
  refine ⟨freeSlot_me hg, s.shuttleOut t k c p, ?_, rfl, rfl, rfl, rfl, rfl, rfl, rfl, rfl, rfl⟩
  exact (congrArg Net.shuttles (freeSlot_net hg) :)

/-- Settles O30: outside shuttle mode each form is one transfer; in it each departs once no cause and no wait is left, with the
shuttle of its carry set. -/
theorem travelBranchesOrDeparts : Obligations.Travel :=
  ⟨travelFormsOutsideShuttleMode, departuresComplete, departureCarriesTheSet⟩

end Sys2Proof.Machine
end

section
/-! SUPPORT. The stream forms that open, bind, release, read and close: what each leaves where its checks pass (R337 to R339, R344 to
R346). -/

namespace Sys2Proof.Machine

/-! ## Their arms -/

theorem exec_sopen (x : SopenA) (s : State) : exec (.sopen x) s = (runSopen x s).finish s := rfl

theorem exec_qbind (x : QBindA) (s : State) : exec (.qbind x) s = (runQbind x s).finish s := rfl

theorem exec_qbindLoc (x : QBindLA) (s : State) : exec (.qbindLoc x) s = (runQbindLoc x s).finish s := rfl

theorem exec_qunbind (x : QDA) (s : State) : exec (.qunbind x) s = (runQunbind x s).finish s := rfl

theorem exec_qstat (x : QDA) (s : State) : exec (.qstat x) s = (runQstat x s).finish s := rfl

theorem exec_sclose (q : QReg) (s : State) : exec (.sclose q) s = (runSclose q s).finish s := rfl

theorem exec_scloseU (a : GReg) (s : State) : exec (.scloseU a) s = (runScloseU a s).finish s := rfl

/-! ## SOPEN (R337, R338) -/

theorem streamOpens : Statements.StreamOpens := by
  intro x s k h blk hbits hteam hdie hcol hpkg hholds hfree y u
  rw [exec_sopen, runSopen]
  simp only [show (s.rg x.a &&& 0xFFFF003F00FFFFFF) = 0 from hbits, show s.inTeam s.me.wid (hPkg (s.rg x.a)) = true from hteam,
    show s.dieIn s.me.part (hDie (s.rg x.a)) = true from hdie, bne_self_eq_false, Bool.false_eq_true, Bool.not_true, Bool.or_self,
    ↓reduceIte]
  rw [if_neg (Nat.not_lt.mpr hcol), if_neg (not_not.mpr hpkg), show s.blockHolds s.me.wid _ = true from hholds, if_pos rfl, hfree]
  rfl

/-! ## QBIND (R339, R340) -/

section
variable {x : QBindA} {s : State} {y : Stream} (hq : s.qreg x.q = .unbound) (hend : s.freeEnd (s.rg x.a) = .ok y)
include hq hend

theorem runQbind_receive (hrecv : strEnd (s.rg x.a) = true) : runQbind x s =
    (Res.ok ((s.setQ x.q (.stream y.blk y.str (strEnd (s.rg x.a)) (s.rg x.a))).placeRecv y s.cur)).map State.sided := by
  unfold runQbind
  simp only [hq, hend, hrecv, ne_eq, not_true_eq_false, ↓reduceIte]
  rfl

theorem runQbind_send (hsend : strEnd (s.rg x.a) = false) : runQbind x s =
    (Res.ok ((s.setQ x.q (.stream y.blk y.str (strEnd (s.rg x.a)) (s.rg x.a))).setStream
      { y with snd := { y.snd with st := .bound, place := some s.cur } })).map State.sided := by
  unfold runQbind
  simp only [hq, hend, hsend, ne_eq, not_true_eq_false, Bool.false_eq_true, ↓reduceIte]
  rfl

end

theorem runQbindLoc_binds {x : QBindLA} {s : State} (hq : s.qreg x.q = .unbound) :
    runQbindLoc x s = (Res.ok (s.setQ x.q (.loc x.lq.val x.recv))).map State.sided := by
  rw [runQbindLoc, if_neg (not_not.mpr hq)]

theorem runQbindLoc_bound {x : QBindLA} {s : State} (hq : s.qreg x.q ≠ .unbound) :
    runQbindLoc x s = (unbound s x.q 1).map State.sided := by
  rw [runQbindLoc, if_pos hq]

/-! ## QUNBIND (R339, R342) -/

theorem runQunbind_local {x : QDA} {s : State} {n : Nat} {recv : Bool} (hq : s.qreg x.q = .loc n recv) :
    runQunbind x s = (Res.ok ((s.setQ x.q .unbound).wg x.d 0)).map State.sided := by
  rw [runQunbind, hq]

section
variable {x : QDA} {s h : State} {blk str : Nat} {bh : Word} {y : Stream}

theorem runQunbind_send (hq : s.qreg x.q = .stream blk str false bh) (hh : s.atHome blk str = h) (hy : h.bound blk str = some y)
    (hsound : y.poisoned = false) :
    let y' := { y with snd := { y.snd with st := if y.snd.st = .orphaned then .orphaned else .unbound, gen := y.snd.gen + 1,
                                           chk := Config.freeChk h.freeCtr, place := none } }
    runQunbind x s = (Res.ok (State.wg ((State.setQ { h with freeCtr := h.freeCtr + 1 } x.q .unbound).setStream y') x.d
      (streamHandle (ownPkg h) y' false))).map State.sided := by
  intro y'
  rw [runQunbind, hq]
  simp only [hh, hy, hsound, Bool.false_and, Bool.false_eq_true, ↓reduceIte]
  rfl

theorem runQunbind_receive (hq : s.qreg x.q = .stream blk str true bh) (hh : s.atHome blk str = h) (hy : h.bound blk str = some y)
    (hsound : y.poisoned = false) (hroom : h.ptrRoom h.core y = true) :
    let y' := { y with rcv := { y.rcv with st := if y.rcv.st = .orphaned then .orphaned else .unbound, gen := y.rcv.gen + 1,
                                           chk := Config.freeChk h.freeCtr, place := none },
                       toward := none, home := y.home ++ y.held, held := [] }
    let u : State := State.setQ { h with freeCtr := h.freeCtr + 1 } x.q .unbound
    runQunbind x s = (Res.ok (State.wg ((u.leavePtr u.core { y with held := [] } (some y.ns)).setStream y') x.d
      (streamHandle (ownPkg h) y' true))).map State.sided := by
  intro y' u
  rw [runQunbind, hq]
  simp only [hh, hy, hsound, hroom, Bool.not_true, Bool.and_false, Bool.false_eq_true, ↓reduceIte]
  rfl

end

/-! ## QSTAT (R345) -/

section
variable {x : QDA} {s : State} {blk str : Nat} {bh : Word}

theorem runQstat_unbound (hq : s.qreg x.q = .unbound) : runQstat x s = .ok (s.sided.wg x.d 0) := by
  rw [runQstat, hq]
  rfl

theorem runQstat_local {n : Nat} {recv : Bool} (hq : s.qreg x.q = .loc n recv) :
    let l := Tab.get [] (s.coreRec s.core).lq n
    runQstat x s = .ok (s.sided.wg x.d (BitVec.ofNat 64 (2 * 2 ^ 62 + (if recv then 2 ^ 61 else 0)
      + (if (l.head?.map (·.2)).getD false then 2 ^ 58 else 0) + (16 - l.length) * 2 ^ 8 + l.length))) := by
  rw [runQstat, hq]

theorem runQstat_send {y : Stream} (hq : s.qreg x.q = .stream blk str false bh) (hy : s.bound blk str = some y) :
    runQstat x s = .ok (s.sided.wg x.d (BitVec.ofNat 64 (2 ^ 62 + peerCode y.rcv * 2 ^ 59 + (32 - y.out) * 2 ^ 8))) := by
  rw [runQstat, hq]
  simp only [hy]
  rfl

theorem runQstat_receive {y : Stream} (hq : s.qreg x.q = .stream blk str true bh) (hy : s.bound blk str = some y) :
    runQstat x s = .ok (s.sided.wg x.d (BitVec.ofNat 64 (2 ^ 62 + 2 ^ 61 + peerCode y.snd * 2 ^ 59
      + (if (y.held.find? fun i => i.seq == y.nr).any (·.handle) then 2 ^ 58 else 0) + inOrder y.held y.nr 32))) := by
  rw [runQstat, hq]
  simp only [hy]
  rfl

end

/-! ## SCLOSE and SCLOSE.U (R344, R346) -/

theorem runSclose_local {q : QReg} {s : State} {n : Nat} {recv : Bool} (hq : s.qreg q = .loc n recv) :
    runSclose q s = (Res.ok (s.setQ q .unbound)).map State.sided := by
  rw [runSclose, hq]

section
variable {s : State} (hfree : ¬(s.me.tr.st = .running ∧ s.me.tr.entries.any (fun e => entryTouchesMem e.instr) = true))
include hfree

section
variable {q : QReg} {h : State} {blk str : Nat} {bh : Word} {y : Stream} (hh : s.atHome blk str = h)
  (hy : h.bound blk str = some y) (hsound : y.poisoned = false)
include hh hy hsound

theorem runSclose_send (hq : s.qreg q = .stream blk str false bh) (hdrained : h.drained) :
    runSclose q s = (Res.ok ((h.markIssue.setQ q .unbound).closeEnd y false)).map State.sided := by
  rw [runSclose, hq]
  simp only [signalOp_free hfree, hh, hy, hsound, closing, releaseWait_drained hdrained, Bool.false_eq_true, ↓reduceIte]

theorem runSclose_receive (hq : s.qreg q = .stream blk str true bh) :
    runSclose q s = (Res.ok ((h.setQ q .unbound).closeEnd y true)).map State.sided := by
  rw [runSclose, hq]
  simp only [signalOp_free hfree, hh, hy, hsound, closing, Bool.false_eq_true, ↓reduceIte]

end

section
variable {a : GReg} {y : Stream} (hend : s.freeEnd (s.rg a) = .ok y)
include hend

theorem runScloseU_send (hsend : strEnd (s.rg a) = false) (hdrained : s.drained) :
    runScloseU a s = (Res.ok (s.markIssue.closeEnd y false)).map State.sided := by
  rw [runScloseU, signalOp_free hfree]
  simp only [hend, hsend, closing, releaseWait_drained hdrained, Bool.false_eq_true, ↓reduceIte]

theorem runScloseU_receive (hrecv : strEnd (s.rg a) = true) :
    runScloseU a s = (Res.ok (s.closeEnd y true)).map State.sided := by
  rw [runScloseU, signalOp_free hfree]
  simp only [hend, hrecv, closing, ↓reduceIte]

end
end

theorem streamBinding : Statements.StreamBinding := by
  intro s
  refine ⟨fun x y hq hend => ⟨fun hrecv => ?_, fun hsend => ?_⟩, fun x hq => ?_, fun x hq hrun => ?_, fun x n recv hq => ?_,
    fun x blk str bh y hq hy hsound => ?_, fun x hq => ?_, fun x n recv hq => ?_, fun x blk str bh y hq hy => ?_,
    fun x blk str bh y hq hy => ?_, fun x blk str bh y hq hy hsound hroom => ?_, fun q n recv hq => ?_,
    fun hfree => ⟨fun q blk str bh y hq hy hsound hdrained => ?_, fun q blk str bh y hq hy hsound => ?_,
      fun a y hend => ⟨fun hsend hdrained => ?_, fun hrecv => ?_⟩⟩⟩
  · rw [exec_qbind, runQbind_receive hq hend hrecv, finish_sided_ok]
  · rw [exec_qbind, runQbind_send hq hend hsend, finish_sided_ok]
  · rw [exec_qbindLoc, runQbindLoc_binds hq, finish_sided_ok]
  · rw [exec_qbindLoc, runQbindLoc_bound hq]
    exact finish_sided_trap hrun s _
  · rw [exec_qunbind, runQunbind_local hq, finish_sided_ok]
  · rw [exec_qunbind, runQunbind_send hq rfl hy hsound, finish_sided_ok]
  · rw [exec_qstat, runQstat_unbound hq, finish_ok]
  · rw [exec_qstat, runQstat_local hq, finish_ok]
  · rw [exec_qstat, runQstat_send hq hy, finish_ok]
  · rw [exec_qstat, runQstat_receive hq hy, finish_ok]
  · rw [exec_qunbind, runQunbind_receive hq rfl hy hsound hroom, finish_sided_ok]
  · rw [exec_sclose, runSclose_local hq, finish_sided_ok]
  · rw [exec_sclose, runSclose_send hfree rfl hy hsound hq hdrained, finish_sided_ok]
  · rw [exec_sclose, runSclose_receive hfree rfl hy hsound hq, finish_sided_ok]
  · rw [exec_scloseU, runScloseU_send hfree hend hsend hdrained, finish_sided_ok]
  · rw [exec_scloseU, runScloseU_receive hfree hend hrecv, finish_sided_ok]

end Sys2Proof.Machine
end

section
/-! SUPPORT. Items: a local queue's turns, and what QSEND and QRECV leave of a local queue and of a stream (R340, R341, R346). -/

namespace Sys2Proof.Machine

/-! ## Their arms -/

theorem exec_qsend (x : QSendA) (s : State) : exec (.qsend x) s = (qsendForm x false s).finish s := rfl

theorem exec_qsendH (x : QSendA) (s : State) : exec (.qsendH x) s = (qsendForm x true s).finish s := rfl

theorem exec_qrecv (x : QRecvA) (s : State) : exec (.qrecv x) s = (runQrecv x s).finish s := rfl

/-! ## The turns of a local queue (R340) -/

/-- The number an issue noted does not change who waits at a local queue. -/
theorem lqWaiters_markIssue (s : State) : s.markIssue.lqWaiters = s.lqWaiters := by
  have h (k : StrandIx) : (s.markIssue.strand k).live = (s.strand k).live ∧ (s.markIssue.strand k).waiting = (s.strand k).waiting ∧
      (s.markIssue.strand k).pc = (s.strand k).pc := by
    by_cases hk : k = s.cur
    · subst hk
      simp only [State.strand, State.markIssue, if_true, and_self]
    · have hcur : k ≠ s.markIssue.cur := hk
      rw [State.strand, State.strand, if_neg hk, if_neg hcur]
      exact ⟨rfl, rfl, rfl⟩
  unfold State.lqWaiters
  simp only [h]
  rfl

theorem lqFirst_markIssue {s : State} {n : Nat} {recv : Bool} (h : s.lqFirst n recv) : s.markIssue.lqFirst n recv := by
  unfold State.lqFirst
  rw [lqWaiters_markIssue]
  exact h

theorem lqServed_markIssue (s : State) : s.markIssue.lqServed = { s.lqServed with me := s.markIssue.me } := by
  unfold State.lqServed
  rw [lqWaiters_markIssue]
  rfl

/-- An element that is the only one to meet a condition is the one found. -/
theorem find?_eq_of_only {α : Type} {p : α → Bool} {xs : List α} {a : α} (hmem : a ∈ xs) (hp : p a = true)
    (honly : ∀ b ∈ xs, p b = true → b = a) : xs.find? p = some a := by
  obtain ⟨b, hb⟩ := Option.isSome_iff_exists.mp (List.find?_isSome.mpr ⟨a, hmem, hp⟩)
  rw [hb, honly b (List.mem_of_find?_eq_some hb) (List.find?_some hb)]

/-- A strand before which no other waits on its end of a local queue is served at once, if the queue can serve it. -/
theorem lqTurn_first {s : State} {n : Nat} {recv : Bool} (h : s.lqFirst n recv) {ready : Bool} (hready : ready = true)
    (k : State → Res) : lqTurn s n recv ready k = k s.lqServed := by
  let me := (n, recv, s.cur, s.me.pc)
  let others := s.lqWaiters.filter fun e => e.2.2.1 != s.cur
  let q := if s.lqWaiters.contains me then s.lqWaiters.filter fun e => e.2.2.1 != s.cur || e == me else others ++ [me]
  have hmem : me ∈ q := by
    by_cases hc : s.lqWaiters.contains me = true
    · simp only [q, if_pos hc, List.mem_filter, beq_self_eq_true, Bool.or_true, and_true]
      exact List.contains_iff_mem.mp hc
    · simp only [q, if_neg hc, List.mem_append, List.mem_singleton, or_true]
  have honly : ∀ e ∈ q, (e.1 == n && e.2.1 == recv) = true → e = me := by
    intro e he hend
    have hnone (hw : e ∈ s.lqWaiters) : e.2.2.1 = s.cur := (h e hw).resolve_right (not_not.mpr (by simpa using hend))
    by_cases hc : s.lqWaiters.contains me = true
    · simp only [q, if_pos hc, List.mem_filter] at he
      simpa [hnone he.1] using he.2
    · simp only [q, if_neg hc, List.mem_append, List.mem_singleton] at he
      refine he.resolve_left fun ho => ?_
      obtain ⟨hw, hother⟩ := List.mem_filter.mp ho
      simp [hnone hw] at hother
  have hfirst : (q.find? fun e => e.1 == n && e.2.1 == recv) = some me := find?_eq_of_only hmem (by simp [me]) honly
  unfold lqTurn
  rw [if_pos]
  · rfl
  · rw [hready, Bool.true_and, beq_iff_eq]
    exact hfirst

/-! ## QSEND and QSEND.H (R341, R346) -/

theorem handleMark_passes {s : State} {mark : Bool} {h : Word} (hmark : mark = true → ∃ y, s.freeEnd h = .ok y) (k : State → Res) :
    handleMark s mark h k = k s := by
  unfold handleMark
  split
  · rfl
  · rename_i hc
    obtain ⟨y, hy⟩ := hmark (by cases mark <;> simp at hc ⊢)
    rw [hy]

section
variable {x : QSendA} {s : State} {mark : Bool}
  (hfree : ¬(s.me.tr.st = .running ∧ s.me.tr.entries.any (fun e => entryTouchesMem e.instr) = true))
  (hdrained : s.drained) (hmark : mark = true → ∃ y, s.freeEnd (s.rg x.b) = .ok y)
include hfree hdrained hmark

theorem qsendForm_local {n : Nat} (hq : s.qreg x.q = .loc n false) (hfirst : s.lqFirst n false)
    (hroom : (Tab.get [] (s.coreRec s.core).lq n).length < 16) :
    qsendForm x mark s = (Res.ok (State.modCore { s.lqServed with me := s.markIssue.me } s.core fun c =>
      { c with lq := Tab.set c.lq n (Tab.get [] (s.coreRec s.core).lq n ++ [(s.rg x.b, mark)]) })).map State.sided := by
  rw [qsendForm, hq]
  simp only [signalOp_free hfree, handleMark_passes hmark, releaseWait_drained hdrained, Bool.false_eq_true, ↓reduceIte]
  have hready : decide ((Tab.get [] (s.markIssue.coreRec s.markIssue.core).lq n).length < 16) = true := decide_eq_true hroom
  rw [lqTurn_first (lqFirst_markIssue hfirst) hready, lqServed_markIssue]
  rfl

theorem qsendForm_stream {blk str : Nat} {bh : Word} {y : Stream} (hq : s.qreg x.q = .stream blk str false bh)
    (hy : s.bound blk str = some y) (hsound : y.poisoned = false) (hclosed : y.rcv.st ≠ .closed) (horphan : y.rcv.st ≠ .orphaned)
    (hcredit : y.out < 32) :
    qsendForm x mark s = (Res.ok ((s.markIssue.setStream { y with ns := y.ns + 1, out := y.out + 1 }).sendItems y y.toward
      [⟨y.ns, s.rg x.b, mark, s.core⟩])).map State.sided := by
  rw [qsendForm, hq]
  simp only [signalOp_free hfree, hy, hsound, handleMark_passes hmark, hclosed, horphan, releaseWait_drained hdrained,
    Bool.false_eq_true, ↓reduceIte]
  rw [if_neg (Nat.not_le.mpr hcredit)]
  rfl

end

/-! ## QRECV (R340, R341, R346) -/

section
variable {x : QRecvA} {s : State}

theorem runQrecv_local {n : Nat} {v : Word} {b : Bool} {r : List (Word × Bool)} (hq : s.qreg x.q = .loc n true)
    (hfirst : s.lqFirst n true) (hitem : Tab.get [] (s.coreRec s.core).lq n = (v, b) :: r) :
    runQrecv x s = (Res.ok (((s.lqServed.modCore s.core fun c => { c with lq := Tab.set c.lq n r }).wg x.d v).wp x.p true)).map
      State.sided := by
  rw [runQrecv, hq]
  simp only [hitem, Bool.not_true, Bool.false_eq_true, ↓reduceIte]
  rw [lqTurn_first hfirst (ready := !((v, b) :: r).isEmpty) rfl]
  rfl

section
variable {blk str : Nat} {bh : Word} {y : Stream} (hq : s.qreg x.q = .stream blk str true bh) (hy : s.bound blk str = some y)
  (hsound : y.poisoned = false)
include hq hy hsound

theorem runQrecv_next {i : Item} (hitem : y.held.find? (fun i => i.seq == y.nr) = some i) :
    let u := (s.setStream { y with nr := y.nr + 1, held := y.held.filter fun j => j.seq != y.nr }).modNet fun n =>
      { n with credits := n.credits ++ [(y.wid, y.blk, y.str)] }
    runQrecv x s = (Res.ok (((u.noteTags ⟨.acq, y.scope⟩ [⟨.core i.core, y.scope⟩]).wg x.d i.val).wp x.p true)).map State.sided := by
  rw [runQrecv, hq]
  simp only [hy, hsound, hitem, Bool.not_true, Bool.false_eq_true, ↓reduceIte]

theorem runQrecv_end (hnone : y.held.find? (fun i => i.seq == y.nr) = none) (hclosed : y.snd.st = .closed)
    (hfin : y.fin = some y.nr) :
    let u : State := match y.snd.closer with
      | some c => s.noteTags ⟨.acq, y.scope⟩ [⟨.core c, y.scope⟩]
      | none => s
    runQrecv x s = (Res.ok ((u.wg x.d 0).wp x.p false)).map State.sided := by
  rw [runQrecv, hq]
  simp only [hy, hsound, hnone, hclosed, hfin, and_self, Bool.not_true, Bool.false_eq_true, ↓reduceIte] <;> rfl

end
end

/-- The number an issue noted is forgotten as the instruction completes. -/
theorem goesOn_lqServed_markIssue (s : State) (c : CoreIx) (f : Core → Core) :
    (State.modCore { s.lqServed with me := s.markIssue.me } c f).sided.goesOn = (s.lqServed.modCore c f).sided.goesOn := rfl

theorem streamItems : Statements.StreamItems := by
  intro s hfree
  refine ⟨fun x n hq hdrained hfirst hroom => ⟨?_, fun y hend => ?_⟩,
    fun x blk str bh y hq hy hsound hclosed horphan hdrained hcredit => ⟨?_, fun z hend => ?_⟩,
    fun x n v b r hq hfirst hitem => ?_, fun x blk str bh y i hq hy hsound hitem => ?_,
    fun x blk str bh y hq hy hsound hnone hclosed hfin => ?_, fun x z hx hz hrun => ⟨?_, ?_⟩⟩
  · rw [exec_qsend, qsendForm_local hfree hdrained (absurd · Bool.false_ne_true) hq hfirst hroom, finish_sided_ok, goesOn_lqServed_markIssue]
  · rw [exec_qsendH, qsendForm_local hfree hdrained (fun _ => ⟨y, hend⟩) hq hfirst hroom, finish_sided_ok, goesOn_lqServed_markIssue]
  · rw [exec_qsend, qsendForm_stream hfree hdrained (absurd · Bool.false_ne_true) hq hy hsound hclosed horphan hcredit, finish_sided_ok]
  · rw [exec_qsendH, qsendForm_stream hfree hdrained (fun _ => ⟨z, hend⟩) hq hy hsound hclosed horphan hcredit, finish_sided_ok]
  · rw [exec_qrecv, runQrecv_local hq hfirst hitem, finish_sided_ok]
  · rw [exec_qrecv, runQrecv_next hq hy hsound hitem, finish_sided_ok]
  · rw [exec_qrecv, runQrecv_end hq hy hsound hnone hclosed hfin]
    exact finish_sided_ok _ s
  · rw [exec_qrecv, runQrecv, hx]
    exact finish_sided_trap hrun s _
  · rw [exec_qsend, qsendForm, hz]
    exact finish_sided_trap hrun s _

/-- Settles O33: each form passes its checks to the one change of its rule; a local queue serves the strand that is first at its end. -/
theorem streams : Obligations.Streams := ⟨streamOpens, streamBinding, streamItems⟩

end Sys2Proof.Machine
end

section
/-! SUPPORT. The steps that move shuttles between the network, a core's arrival queue and its shed ring (R326, R329, R330, R397,
R398). -/

namespace Sys2Proof.Machine

/-! ## Their arms -/

theorem exec_shuttleArrival (n : Nat) (s : State) : exec (.shuttleArrival n) s = execShuttleArrival n s := rfl

theorem exec_shuttleShed (n : Nat) (s : State) : exec (.shuttleShed n) s = execShuttleShed n s := rfl

theorem exec_shedRefill (c : CoreIx) (s : State) : exec (.shedRefill c) s = execShedRefill c s := rfl

theorem exec_occupancyReport (c : CoreIx) (s : State) : exec (.occupancyReport c) s = execOccupancyReport c s := rfl

/-! ## Arrival and shedding (R329, R330, R398) -/

section
variable {s : State} {n : Nat} {h : Shuttle} (hn : s.net.shuttles[n]? = some h)
include hn

theorem execShuttleArrival_enters (hroom : (s.coreRec h.core).arrivals.length < 16) (hshed : (s.coreRec h.core).shed = [])
    (hpin : s.pinsFor h.wid h.core = true) : execShuttleArrival n s =
      .next ((s.modNet fun m => { m with shuttles := m.shuttles.eraseIdx n }).modCore h.core fun x =>
        { x with arrivals := x.arrivals ++ [{ h with since := some (s.now h.core), first := s.now h.core, cls := 1 }],
                 heatQmax := max x.heatQmax (x.arrivals.length + 1) }) := by
  unfold execShuttleArrival
  simp only [hn]
  rw [if_pos (by simp [hroom, hshed, hpin])]
  rfl

theorem execShuttleArrival_waits
    (hwait : 16 ≤ (s.coreRec h.core).arrivals.length ∨ s.pinsFor h.wid h.core = false) : execShuttleArrival n s =
      .next (s.modNet fun m => { m with shuttles := m.shuttles.set n { h with since := h.since.or (some (s.now h.core)) } }) := by
  unfold execShuttleArrival
  simp only [hn]
  rw [if_neg (by rcases hwait with hfull | hpin <;> simp [*])]
  rfl

theorem execShuttleShed_sheds {t : Nat} (hsince : h.since = some t) (hlong : t + 2048 ≤ s.now h.core)
    (hroom : (s.coreRec h.core).shed.length < 1024) (hpin : s.pinsFor h.wid h.core = true) : execShuttleShed n s =
      .next (((s.modNet fun m => { m with shuttles := m.shuttles.eraseIdx n }).writeShed (s.shedKey h.core h)).modCore h.core
        fun x => { x with shed := x.shed ++ [h], heatShed := if x.heatShed < 65535 then x.heatShed + 1 else x.heatShed }) := by
  unfold execShuttleShed
  simp only [hn, hsince]
  rw [if_neg (Nat.not_lt.mpr hlong), if_pos (by simp [hroom, hpin])]
  rfl

end

/-! ## Refill and reports (R326, R330, R397) -/

theorem execShedRefill_oldest {s : State} {c : CoreIx} {h : Shuttle} {r : List Shuttle} (hshed : (s.coreRec c).shed = h :: r)
    (hroom : (s.coreRec c).arrivals.length < 16) :
    let lo := s.shedKey c h
    let u := s.meetRangeAs h.wid (s.posOf c 0) lo 576
    let bad := if u.rangePoisoned lo 576 then some (u.keyLoc lo) else h.poison
    execShedRefill c s = .next (u.modCore c fun x =>
      { x with shed := r, heatQmax := max x.heatQmax (x.arrivals.length + 1),
               arrivals := x.arrivals ++ [{ h with since := some (s.now c), first := s.now c, cls := 1, poison := bad }] }) := by
  unfold execShedRefill
  simp only [hshed]
  rw [if_neg (Nat.not_le.mpr hroom)]
  rfl

theorem execOccupancyReport_due {s : State} {c : CoreIx} (hdue : (s.coreRec c).report + 32 ≤ s.now c) :
    execOccupancyReport c s = .next (s.modCore c fun x =>
      { x with report := s.now c, reported := x.arrivals.length + x.shed.length }) :=
  if_neg (Nat.not_lt.mpr hdue)

theorem shuttleSteps : Statements.ShuttleSteps := by
  intro s n
  refine ⟨fun h hn => ⟨fun hroom hshed hpin => ?_, fun hwait => ?_, fun t hsince hlong hroom hpin => ?_⟩,
    fun c h r hshed hroom => ?_, fun c hdue => ?_⟩
  · rw [exec_shuttleArrival, execShuttleArrival_enters hn hroom hshed hpin]
  · rw [exec_shuttleArrival, execShuttleArrival_waits hn hwait]
  · rw [exec_shuttleShed, execShuttleShed_sheds hn hsince hlong hroom hpin]
  · rw [exec_shedRefill, execShedRefill_oldest hshed hroom]
  · rw [exec_occupancyReport, execOccupancyReport_due hdue]

end Sys2Proof.Machine
end

section
/-! SUPPORT. The steps of streams: items and credits that arrive, the home's moves, pointers that retire and ends that are orphaned
(R341 to R344, R423). -/

namespace Sys2Proof.Machine

/-! ## Their arms -/

theorem exec_streamItemArrival (n : Nat) (s : State) : exec (.streamItemArrival n) s = execStreamItemArrival n s := rfl

theorem exec_streamCreditArrival (n : Nat) (s : State) : exec (.streamCreditArrival n) s = execStreamCreditArrival n s := rfl

theorem exec_streamMove (n : Nat) (s : State) : exec (.streamMove n) s = execStreamMove n s := rfl

theorem exec_pointerRetire (c : CoreIx) (n : Nat) (s : State) : exec (.pointerRetire c n) s = execPointerRetire c n s := rfl

theorem exec_streamOrphan (n : Nat) (s : State) : exec (.streamOrphan n) s = execStreamOrphan n s := rfl

/-! ## Items (R341, R342) -/

theorem execStreamItemArrival_takes {s : State} {n : Nat} {k : ItemPkt} (hn : s.net.items[n]? = some k) :
    execStreamItemArrival n s = .next ((s.modNet fun x => { x with items := x.items.eraseIdx n }).itemAt k) := by
  unfold execStreamItemArrival
  simp only [hn]
  rfl

section
variable {s : State} {k : ItemPkt} {y : Stream} (hy : s.stream k.wid k.blk k.str = some y)
  (hopen : ¬(y.rcv.st = .closed ∨ y.rcv.st = .orphaned ∨ y.lost = true))
include hy hopen

theorem itemAt_core {p q : Nat} (hdest : k.dest = some p) (hplace : y.rcv.place = some q) (hsame : coreOf q = coreOf p)
    (hquar : (s.coreRec (coreOf p)).quar = false) : s.itemAt k = s.setStream { y with held := y.held ++ [k.item] } := by
  unfold State.itemAt
  simp only [hy, if_neg hopen, hdest, hplace, hquar, hsame, Option.any_some, beq_self_eq_true, Bool.false_eq_true, ↓reduceIte]

theorem itemAt_home (hdest : k.dest = none) (hplace : y.rcv.place = none) :
    s.itemAt k = s.setStream { y with home := y.home ++ [k.item] } := by
  unfold State.itemAt
  simp only [hy, if_neg hopen, hdest, hplace]

end

/-! ## Credits (R341, R423) -/

section
variable {s : State} {n w blk str : Nat} {y : Stream} (hn : s.net.credits[n]? = some (w, blk, str))
  (hy : s.stream w blk str = some y)
include hn hy

theorem execStreamCreditArrival_takes : execStreamCreditArrival n s =
    (let u := (s.modNet fun x => { x with credits := x.credits.eraseIdx n }).setStream { y with out := y.out - 1 }
     .next (if 10000 ≤ blk then u.flushPair ((blk - 10000) / 2) str else u)) := by
  have hy' : (s.modNet fun x => { x with credits := x.credits.eraseIdx n }).stream w blk str = some y := hy
  unfold execStreamCreditArrival
  simp only [hn, hy']
  rfl

end

theorem portBlk_receive (p : Nat) : 10000 ≤ portBlk p true ∧ (portBlk p true - 10000) / 2 = p := by
  unfold portBlk
  exact ⟨by omega, by simp only [↓reduceIte]; omega⟩

/-! ## Moves (R343) -/

theorem execStreamMove_home {s : State} {n : Nat} {y : Stream} (hn : s.streams[n]? = some y) :
    execStreamMove n s = .next (s.homeMoves y) := by
  unfold execStreamMove
  rw [hn]
  rfl

section
variable {s : State} {y : Stream} {p : Nat}

theorem homeMoves_send (hsend : y.moveS = some p) (hrecv : y.moveR = none) : s.homeMoves y = s.setStream
    { y with snd := { y.snd with st := if y.snd.st = .moving ∧ y.snd.away = false then .bound else y.snd.st, place := some p },
             moveS := none } := by
  unfold State.homeMoves
  simp only [hsend, hrecv]

variable (hsend : y.moveS = none) (hrecv : y.moveR = some p)
include hsend hrecv

theorem homeMoves_receive (hst : y.rcv.st = .moving) : s.homeMoves y = (s.setStream y).placeRecv y p := by
  unfold State.homeMoves
  simp only [hsend, hrecv, hst, ↓reduceIte]

theorem homeMoves_receive_ended (hst : y.rcv.st ≠ .moving) :
    s.homeMoves y = s.setStream { y with moveR := none, rcv := { y.rcv with place := some p } } := by
  unfold State.homeMoves
  simp only [hsend, hrecv, if_neg hst]

end

/-! ## Pointers (R342, R343) -/

theorem execPointerRetire_last {s : State} {c : CoreIx} {n l d : Nat} {p : FwdPtr} {y : Stream}
    (hn : (s.coreRec c).fwd[n]? = some p) (hdest : p.dest = some d) (hcut : p.cut = some l) (hempty : p.items = [])
    (hbusy : s.ptrBusy c p l = false) (hy : s.stream p.wid p.blk p.str = some y)
    (hlast : (s.modCore c fun x => { x with fwd := x.fwd.eraseIdx n }).ptrCores y = []) (hmoving : y.rcv.st = .moving)
    (hplace : y.rcv.place.isSome = true) (hmove : y.moveR = none) (haway : y.rcv.away = false) : execPointerRetire c n s =
      .next ((s.modCore c fun x => { x with fwd := x.fwd.eraseIdx n }).setStream { y with rcv := { y.rcv with st := .bound } }) := by
  have hy' : (s.modCore c fun x => { x with fwd := x.fwd.eraseIdx n }).stream p.wid p.blk p.str = some y := hy
  unfold execPointerRetire
  simp only [hn, hdest, hcut, hempty, hbusy, hy', hlast, hmoving, hplace, hmove, haway, List.isEmpty_nil, Bool.not_true, Bool.or_self,
    Bool.false_eq_true, ↓reduceIte, beq_self_eq_true, Option.isNone_none, Bool.not_false, Bool.and_self]
  rfl

/-! ## Orphaned ends (R344) -/

theorem execStreamOrphan_takes {s : State} {n : Nat} {o : Orphan} (hn : s.net.orphans[n]? = some o) :
    execStreamOrphan n s = .next ((s.modNet fun x => { x with orphans := x.orphans.eraseIdx n }).orphan o) := by
  unfold execStreamOrphan
  rw [hn]
  rfl

/-- The send end's holder is gone: what it had sent is known, or is not. -/
theorem orphan_send {s : State} {o : Orphan} {y : Stream} (hy : s.stream o.wid o.blk o.str = some y) (hptr : o.pointer = false)
    (hrecv : o.recv = false) (hopen : y.snd.st ≠ .closed) (hsub : o.sub ≠ 3) :
    let y' := { y with snd := { y.snd with st := .orphaned, sub := o.sub, place := none, away := false },
                       fin := if y.lost || o.fin.isNone then none else o.fin, lost := y.lost || o.fin.isNone, moveS := none }
    s.orphan o = (s.setStream y').freeStream y' := by
  have hnamed : (o.sub == 3) = false := beq_eq_false_iff_ne.mpr hsub
  unfold State.orphan
  simp only [hy, hptr, hrecv, hopen, hnamed, Bool.false_eq_true, ↓reduceIte, Bool.not_true, Bool.and_false]

theorem streamSteps : Statements.StreamSteps := by
  intro s n
  refine ⟨fun k y hn hy hclosed horphan hlost => ⟨fun p q hdest hplace hsame hquar => ?_, fun hdest hplace => ?_⟩,
    fun w blk str y hn hy hblk => ?_, fun w p str y hn hy => ?_, fun y p hn hsend hrecv => ?_,
    fun y p hn hsend hrecv => ⟨fun hst => ?_, fun hst => ?_⟩,
    fun c p d l y hn hdest hcut hempty hbusy => ?_, fun o y hn hy hptr hrecv hopen hsub => ?_⟩
  · have hkept : ¬(y.rcv.st = .closed ∨ y.rcv.st = .orphaned ∨ y.lost = true) := by simp [hclosed, horphan, hlost]
    rw [exec_streamItemArrival, execStreamItemArrival_takes hn]
    exact congrArg _ (itemAt_core hy hkept hdest hplace hsame hquar)
  · have hkept : ¬(y.rcv.st = .closed ∨ y.rcv.st = .orphaned ∨ y.lost = true) := by simp [hclosed, horphan, hlost]
    rw [exec_streamItemArrival, execStreamItemArrival_takes hn]
    exact congrArg _ (itemAt_home hy hkept hdest hplace)
  · rw [exec_streamCreditArrival, execStreamCreditArrival_takes hn hy]
    exact congrArg _ (if_neg (Nat.not_le.mpr hblk))
  · obtain ⟨hport, hp⟩ := portBlk_receive p
    rw [exec_streamCreditArrival, execStreamCreditArrival_takes hn hy, hp]
    exact congrArg _ (if_pos hport)
  · rw [exec_streamMove, execStreamMove_home hn, homeMoves_send hsend hrecv]
  · rw [exec_streamMove, execStreamMove_home hn, homeMoves_receive hsend hrecv hst]
  · rw [exec_streamMove, execStreamMove_home hn, homeMoves_receive_ended hsend hrecv hst]
  · intro u hy hlast hmoving hplace hmove haway
    rw [exec_pointerRetire, execPointerRetire_last hn hdest hcut hempty hbusy hy hlast hmoving hplace hmove haway]
  · rw [exec_streamOrphan, execStreamOrphan_takes hn]
    exact congrArg _ (orphan_send hy hptr hrecv hopen hsub)

/-- Settles O49: each step by the condition that lets it act. -/
theorem shuttleAndStreamSteps : Obligations.ShuttleAndStreamSteps := ⟨shuttleSteps, streamSteps⟩

end Sys2Proof.Machine
end

section
/-! SUPPORT. LAUNCH, LAUNCH.W and EXIT once their waits are over: a record that is accepted, one that is rejected, and the end of a weave
(R355, R360, R365, R366). -/

namespace Sys2Proof.Machine

/-! ## Their arms -/

theorem exec_launch (x : DA) (s : State) : exec (.launch x) s = (launchForm x false s).finish s := rfl

theorem exec_launchW (x : DA) (s : State) : exec (.launchW x) s = (launchForm x true s).finish s := rfl

theorem exec_exit (code : BitVec 8) (s : State) : exec (.exit code) s = (runExit code s).finish s := rfl

/-! ## LAUNCH and LAUNCH.W (R355, R360, R365) -/

theorem launchForm_childEnded {x : DA} {s : State} {w : Word} (h : s.me.stage = .childDone w) (wait : Bool) :
    launchForm x wait s = .ok (s.wg x.d w) := by
  unfold launchForm
  rw [h]

theorem launchForm_misaligned {x : DA} {s : State} (hfree : s.memFree) (hodd : (s.rg x.a).toNat % 64 ≠ 0) (wait : Bool) :
    launchForm x wait s = trapOf s 0x13 0 (s.rg x.a) := by
  unfold launchForm
  rw [hfree.1, memOp_free hfree]
  exact if_pos hodd

/-- A pool with a free entry needs no entry of the weave's own. -/
theorem launchEntry_free {s : State} (h : 0 < s.poolFree) : s.launchEntry = some (false, s) := if_pos h

section
variable {x : DA} {s w u v : State} {ws : List Word} (hfree : s.memFree) (hdrained : s.drained)
  (hwalk : s.markIssue.walkable 1 [s.rg x.a, s.rg x.a + 64]) (halign : (s.rg x.a).toNat % 64 = 0)
  (hw : s.markIssue.walkedTo 1 [s.rg x.a, s.rg x.a + 64] = w) (hu : w.touch w.ctx (w.posOf w.core w.slot) (s.rg x.a) 16 = u)
  (hv : u.touchExtras (u.launchCtx u.me.part (u.rootOf u.me.wid) u.me.wid) (w.posOf w.core w.slot) ws = v)
  (hread : u.readRecord (s.rg x.a) = .ok (some ws))
include hfree hdrained hwalk halign hw hu hv hread

theorem launchForm_rejects {k : Nat} (hcode : v.launchCode u.me.part ws
      (v.readExtras (u.launchCtx u.me.part (u.rootOf u.me.wid) u.me.wid) ws) true false false = some k) (wait : Bool) :
    launchForm x wait s = .ok (v.sided.wg x.d (BitVec.ofNat 64 (2 ^ 63 + k))) := by
  have hstage : s.markIssue.me.stage = .none := hfree.1
  unfold launchForm
  rw [hfree.1, memOp_free hfree]
  dsimp only
  rw [if_neg (not_not.mpr halign), releaseWait_drained hdrained, walked_ready hstage hwalk]
  simp only [hw, hu, hread, hv, hcode]

theorem launchForm_accepts (hcode : v.launchCode u.me.part ws
      (v.readExtras (u.launchCtx u.me.part (u.rootOf u.me.wid) u.me.wid) ws) true false false = none) (hroom : 0 < v.poolFree)
    (wait : Bool) :
    let e := v.enterPool u.me.part (u.rootOf u.me.wid) ws (some v.me.wid) false 0
    let t := e.2.sided.wg x.d (BitVec.ofNat 64 e.1)
    launchForm x wait s = if wait then .wait { t with me := { t.me with stage := .childOut e.1 } } .launchW else .ok t := by
  have hstage : s.markIssue.me.stage = .none := hfree.1
  intro e t
  unfold launchForm
  rw [hfree.1, memOp_free hfree]
  dsimp only
  rw [if_neg (not_not.mpr halign), releaseWait_drained hdrained, walked_ready hstage hwalk]
  simp only [hw, hu, hread, hv, hcode, launchEntry_free hroom, e, t]

end

theorem launchCompletes : Statements.LaunchCompletes := by
  intro x s
  refine ⟨fun ws hfree hdrained hwalk halign => ?_, fun w hstage => ?_, fun hfree hodd hrun => ⟨?_, ?_⟩⟩
  · intro w pos u c v hread code e
    refine ⟨fun hcode hroom => ⟨?_, ?_⟩, fun k hcode => ⟨?_, ?_⟩⟩
    · rw [exec_launch, launchForm_accepts hfree hdrained hwalk halign rfl rfl rfl hread hcode hroom]
      exact finish_ok _ s
    · rw [exec_launchW, launchForm_accepts hfree hdrained hwalk halign rfl rfl rfl hread hcode hroom]
      exact finish_wait _ s _
    · rw [exec_launch, launchForm_rejects hfree hdrained hwalk halign rfl rfl rfl hread hcode]
      exact finish_ok _ s
    · rw [exec_launchW, launchForm_rejects hfree hdrained hwalk halign rfl rfl rfl hread hcode]
      exact finish_ok _ s
  · rw [exec_launchW, launchForm_childEnded hstage, finish_ok]
  · rw [exec_launch, launchForm_misaligned hfree hodd, finish_trapOf hrun]
  · rw [exec_launchW, launchForm_misaligned hfree hodd, finish_trapOf hrun]

/-! ## EXIT (R366) -/

/-- A handler that exits owes its sender the reply 0, which sets out with the exit. -/
def State.exitReplied (s : State) : State :=
  match s.me.owed with
  | some r => { s.reply r 0 none with me := { s.me with owed := none } }
  | none => s

theorem exitReplied_weaves (s : State) : s.exitReplied.me.wid = s.me.wid ∧ s.exitReplied.weaveOf = s.weaveOf := by
  unfold State.exitReplied
  cases s.me.owed <;> exact ⟨rfl, rfl⟩

/-- The end of a weave by a strand whose reply has set out; without a weave the strand alone ends. -/
def State.exitOf (s : State) (code : BitVec 8) : Option Weave → State
  | some w => State.stopWeave (s.setWeave { w with exiting := true, how := 2, code := code })
      { w with exiting := true, how := 2, code := code }
  | none => s.haltStrand 0 0

theorem runExit_ends {s : State} (hfree : ¬(s.me.tr.st = .running ∧ s.me.tr.entries.any (fun e => entryTouchesMem e.instr) = true))
    (hdrained : s.drained) (code : BitVec 8) :
    runExit code s = .gone (s.markIssue.exitReplied.exitOf code (s.weaveOf s.me.wid)) := by
  obtain ⟨hwid, hof⟩ := exitReplied_weaves s.markIssue
  have hw : s.weaveOf s.me.wid = s.markIssue.exitReplied.weaveOf s.markIssue.exitReplied.me.wid := by
    rw [hwid, hof]
    rfl
  have hready : runExit code s = (afterMemPasses s (releaseWait s fun s =>
      match s.exitReplied.weaveOf s.exitReplied.me.wid with
      | none => .gone (s.exitReplied.exitOf code none)
      | some w => .gone (s.exitReplied.exitOf code (some w)))) := rfl
  rw [hready, afterMemPasses_free hfree, releaseWait_drained hdrained, hw]
  cases s.markIssue.exitReplied.weaveOf s.markIssue.exitReplied.me.wid <;> rfl

theorem exitCompletes : Statements.ExitCompletes := by
  intro code s hfree hdrained
  refine ⟨fun w hw => ?_, fun hw => ?_⟩
  · rw [exec_exit, runExit_ends hfree hdrained, hw]
    exact finish_gone _ s
  · rw [exec_exit, runExit_ends hfree hdrained, hw]
    exact finish_gone _ s

/-- Settles O29: a LAUNCH whose waits are over follows its record's code; EXIT sends the owed reply, if any, and stops the weave. -/
theorem launchAndExit : Obligations.LaunchAndExit := ⟨launchCompletes, exitCompletes⟩

end Sys2Proof.Machine
end

section
/-! SUPPORT. SAVECTX and its forms, and LOADCTX, in system mode: the checks of an area, the save of another weave of the partition, and
the restore by what its area holds (R368 to R371, R397). -/

namespace Sys2Proof.Machine

/-! ## Their arms -/

theorem exec_savectx (x : DAB) (s : State) : exec (.savectx x) s = (saveForm x false s).finish s := rfl

theorem exec_savectxSwap (x : DAB) (s : State) : exec (.savectxSwap x) s = (saveForm x true s).finish s := rfl

theorem exec_savectxDrain (x : DAB) (s : State) : exec (.savectxDrain x) s = (runSavectxDrain x s).finish s := rfl

theorem exec_savectxSize (x : DAB) (s : State) : exec (.savectxSize x) s = (runSavectxSize x s).finish s := rfl

theorem exec_loadctx (x : DAB) (s : State) : exec (.loadctx x) s = (runLoadctx x s).finish s := rfl

section
variable {x : DAB} {s : State} (hsys : s.me.sys = true)
include hsys

/-! ## SAVECTX and its forms (R368, R369) -/

theorem saveForm_no_target (hw : s.saveTarget (s.rg x.a) = none) (swap : Bool) :
    saveForm x swap s = .trap s (rights 36 (s.rg x.a)) := by
  unfold saveForm
  rw [requireSys_sys hsys, hw]

theorem runSavectxSize_no_target (hw : s.saveTarget (s.rg x.a) = none) : runSavectxSize x s = .trap s (rights 36 (s.rg x.a)) := by
  unfold runSavectxSize
  rw [requireSys_sys hsys, hw]

theorem runSavectxDrain_counts (ha : s.rg x.a = 0) (hb : s.rg x.b = 0) :
    runSavectxDrain x s = .ok ((s.modPart s.me.part fun p => { p with
      draining := p.draining.or (some (s.cycle ((s.partDies s.me.part).headD 0))) }).wg x.d
        (BitVec.ofNat 64 (s.resident s.me.part).length)) := by
  unfold runSavectxDrain
  rw [requireSys_sys hsys, if_neg (by simp [ha, hb])]

theorem runSavectxDrain_illegal (h : s.rg x.a ≠ 0 ∨ s.rg x.b ≠ 0) : runSavectxDrain x s = illegalHere s := by
  unfold runSavectxDrain
  rw [requireSys_sys hsys, if_pos h]

section
variable {w : Weave} (hw : s.saveTarget (s.rg x.a) = some w)
include hw

theorem runSavectxSize_target : runSavectxSize x s = .ok (s.wg x.d (BitVec.ofNat 64 (saveLen s w))) := by
  unfold runSavectxSize
  rw [requireSys_sys hsys, hw]

variable (harea : s.areaOk s.me.part (s.rg x.b).toNat (saveLen s w) = true)
  (hwindow : s.inWindow (s.rg x.b).toNat (saveLen s w) = true)
include harea hwindow

theorem saveForm_saves (hother : w.wid ≠ s.me.wid)
    (hready : (s.setWeave { w with stopping := true }).saveReady { w with stopping := true } none = true) {swap : Bool}
    (hasleep : swap = true → s.asleep w = true) :
    saveForm x swap s = .ok (((s.setWeave { w with stopping := true }).performSave { w with stopping := true }
      (s.rg x.b).toNat swap).wg x.d (BitVec.ofNat 64 (saveLen s w))) := by
  have hown : (s.me.wid == w.wid) = false := beq_eq_false_iff_ne.mpr hother.symm
  have hgoes : (swap && !(w.stopping && s.me.waiting == some .save) && !s.asleep w) = false := by
    cases swap
    · rfl
    · rw [hasleep rfl, Bool.not_true, Bool.and_false]
  unfold saveForm
  rw [requireSys_sys hsys, hw]
  simp only [harea, hwindow, hgoes, hown, hready, Bool.not_true, Bool.false_eq_true, ↓reduceIte]

theorem saveForm_awake (hawake : s.asleep w = false) (hwait : s.me.waiting ≠ some .save) : saveForm x true s = .ok (s.wg x.d 0) := by
  have hmine : (s.me.waiting == some .save) = false := beq_eq_false_iff_ne.mpr hwait
  unfold saveForm
  rw [requireSys_sys hsys, hw]
  simp only [harea, hwindow, hmine, hawake, Bool.and_false, Bool.not_true, Bool.not_false, Bool.and_self, Bool.false_eq_true,
    ↓reduceIte]

end

/-! ## LOADCTX (R369, R370, R397) -/

section
variable {found : Option Save} {len : Nat} (hfound : (s.saves.find? fun v => v.addr == (s.rg x.b).toNat) = found)
  (hlen : (found.map (·.len)).getD 32 = len)
include hfound hlen

theorem runLoadctx_outside_region (harea : s.areaOk s.me.part (s.rg x.b).toNat len = false) :
    runLoadctx x s = .trap s (rights 37 (s.rg x.b)) := by
  unfold runLoadctx
  rw [requireSys_sys hsys]
  simp only [hfound, hlen, harea, Bool.not_false, ↓reduceIte]

variable (harea : s.areaOk s.me.part (s.rg x.b).toNat len = true)
include harea

theorem runLoadctx_outside_window (hwindow : s.inWindow (s.rg x.b).toNat len = false) :
    runLoadctx x s = .trap s (rights 17 (s.rg x.b)) := by
  unfold runLoadctx
  rw [requireSys_sys hsys]
  simp only [hfound, hlen, harea, hwindow, Bool.not_true, Bool.not_false, Bool.false_eq_true, ↓reduceIte]

variable (hwindow : s.inWindow (s.rg x.b).toNat len = true) {r : State}
  (hr : (s.meetRange (s.rg x.b).toNat len).foldRange (s.rg x.b).toNat len = r)
include hwindow hr

theorem runLoadctx_poisoned (hpoison : r.rangePoisoned (s.rg x.b).toNat len = true) :
    runLoadctx x s = .trap r ⟨0x60, 0, s.rg x.b, none, 0⟩ := by
  unfold runLoadctx
  rw [requireSys_sys hsys]
  simp only [hfound, hlen, harea, hwindow, hr, hpoison, Bool.not_true, Bool.false_eq_true, ↓reduceIte]

variable (hsound : r.rangePoisoned (s.rg x.b).toNat len = false)
include hsound

theorem runLoadctx_unknown (hnone : found = none) :
    runLoadctx x s = .ok (State.wg { r with freeCtr := r.freeCtr + 1 } x.d (Config.freeWord r.freeCtr)) := by
  subst hnone
  unfold runLoadctx
  rw [requireSys_sys hsys]
  simp only [hfound, hlen, harea, hwindow, hr, hsound, Bool.not_true, Bool.false_eq_true, ↓reduceIte]
  rfl

/-- Reading an area leaves the weaves as they are. -/
theorem runLoadctx_saved {sv : Save} {w : Weave} (hsave : found = some sv) (hw : s.weaveOf sv.wid = some w) :
    runLoadctx x s =
      if r.areaFree w sv then .ok ((r.performLoad w sv).wg x.d (BitVec.ofNat 64 sv.wid)) else .ok (r.wg x.d 0) := by
  have hread : HomeOnly s r := hr ▸ (HomeOnly.meetRange s _ len).trans (HomeOnly.foldRange _ _ len)
  have hw' : r.weaveOf sv.wid = some w := by
    unfold State.weaveOf at hw ⊢
    rw [hread.weaves, hw]
  subst hsave
  unfold runLoadctx
  rw [requireSys_sys hsys]
  simp only [hfound, hlen, harea, hwindow, hr, hsound, hw', Bool.not_true, Bool.false_eq_true, ↓reduceIte]

end
end

/-- Settles O42: past the check for system mode, each form by the weave or the area it finds, in the order of its checks. -/
theorem contextForms : Obligations.ContextForms := by
  intro s hsys x
  refine ⟨fun w hw => ?_, fun hw hrun => ⟨?_, ?_⟩, fun ha hb => ?_, ?_, fun h hrun => ?_, ?_⟩
  · refine ⟨?_, fun harea hwindow hother hready => ⟨?_, fun hasleep => ?_⟩, fun harea hwindow hawake hwait => ?_⟩
    · rw [exec_savectxSize, runSavectxSize_target hsys hw]
      exact finish_ok _ s
    · rw [exec_savectx, saveForm_saves hsys hw harea hwindow hother hready (absurd · Bool.false_ne_true)]
      exact finish_ok _ s
    · rw [exec_savectxSwap, saveForm_saves hsys hw harea hwindow hother hready fun _ => hasleep]
      exact finish_ok _ s
    · rw [exec_savectxSwap, saveForm_awake hsys hw harea hwindow hawake hwait, finish_ok]
  · rw [exec_savectx, saveForm_no_target hsys hw, finish_trap _ _ _ hrun]
  · rw [exec_savectxSize, runSavectxSize_no_target hsys hw, finish_trap _ _ _ hrun]
  · rw [exec_savectxDrain, runSavectxDrain_counts hsys ha hb, finish_ok]
  · intro found len r harea hwindow
    refine ⟨fun hsound => ⟨fun sv w hsave hw => ⟨fun hfree => ?_, fun hheld => ?_⟩, fun hnone => ?_⟩, fun hpoison hrun => ?_⟩
    · rw [exec_loadctx, runLoadctx_saved hsys rfl rfl harea hwindow rfl hsound hsave hw, if_pos hfree, finish_ok]
    · rw [exec_loadctx, runLoadctx_saved hsys rfl rfl harea hwindow rfl hsound hsave hw, if_neg (Bool.eq_false_iff.mp hheld), finish_ok]
    · rw [exec_loadctx, runLoadctx_unknown hsys rfl rfl harea hwindow rfl hsound hnone, finish_ok]
    · rw [exec_loadctx, runLoadctx_poisoned hsys rfl rfl harea hwindow rfl hpoison]
      exact finish_trap _ _ _ hrun
  · rw [exec_savectxDrain, runSavectxDrain_illegal hsys h, finish_illegalHere hrun]
  · intro len hrun
    refine ⟨fun harea => ?_, fun harea hwindow => ?_⟩
    · rw [exec_loadctx, runLoadctx_outside_region hsys rfl rfl harea, finish_trap _ _ _ hrun]
    · rw [exec_loadctx, runLoadctx_outside_window hsys rfl rfl harea hwindow, finish_trap _ _ _ hrun]

end Sys2Proof.Machine
end

section
/-! SUPPORT. The steps of translation that end: walks, invalidations, page-ins and copies to flash, with no array error unmet (R375, R381
to R384, R387, R390 to R393). -/

namespace Sys2Proof.Machine

/-! ## Their arms -/

theorem exec_pageWalkComplete (n : Nat) (s : State) : exec (.pageWalkComplete n) s = execPageWalkComplete n s := rfl

theorem exec_tlbInvalidateApply (n : Nat) (s : State) : exec (.tlbInvalidateApply n) s = execTlbInvalidateApply n s := rfl

theorem exec_pageInComplete (n : Nat) (s : State) : exec (.pageInComplete n) s = execPageInComplete n s := rfl

theorem exec_flashCopyComplete (n : Nat) (s : State) : exec (.flashCopyComplete n) s = execFlashCopyComplete n s := rfl

/-! ## Reads that meet nothing (R396) -/

theorem fold_none {s : State} (h : s.exact = []) (ks : List Nat) : s.fold ks = s := by
  unfold State.fold
  rw [h]
  rfl

theorem touchWalk_none {s : State} (hups : s.upsets = []) (hexact : s.exact = []) (wid : Nat) (pos : Word) (ws : List Nat) :
    s.touchWalk wid pos ws = s := by
  unfold State.touchWalk
  rw [meetUpsetsAs_none hups, fold_none hexact]

theorem meetRangeAs_none {s : State} (h : s.upsets = []) (wid : Nat) (pos : Word) (lo n : Nat) : s.meetRangeAs wid pos lo n = s := by
  unfold State.meetRangeAs
  rw [h]
  rfl

theorem deadWords_none {s : State} (h : s.upsets = []) (lo n : Nat) : s.deadWords lo n = [] := by
  unfold State.deadWords
  rw [h]
  rfl

theorem meetFlash_none {s : State} (h : s.upsets = []) (src die : Nat) (loc : Word) (wid : Nat) (pos : Word) :
    s.meetFlash src die loc wid pos = s := by
  unfold State.meetFlash
  simp only [h, List.filter_nil, List.foldl_nil]
  rw [← h]

/-! ## Walks (R375, R382, R383) -/

section
variable {s : State} {n : Nat} {w : Walk} (hn : s.net.walks[n]? = some w) (hopen : w.failed = false)
  (hruns : s.walkRuns w = true) (hups : s.upsets = []) (hexact : s.exact = [])
include hn hopen hruns hups hexact

theorem execPageWalkComplete_fails {e : WalkFail} (hwalk : s.walkWith (blockOf w.core) w = .error e) :
    execPageWalkComplete n s = .next ((s.failWalk n w).resumeChecks w none) := by
  unfold execPageWalkComplete
  simp only [hn, hopen, hruns, touchWalk_none hups hexact, hwalk, Bool.not_true, Bool.or_self, Bool.false_eq_true, ↓reduceIte]
  rfl

theorem execPageWalkComplete_leaf {l : Leaf} (hwalk : s.walkWith (blockOf w.core) w = .ok l) (hst : pteST l.pte = 0) :
    let e : TlbEntry := ⟨w.part, w.root, l.base, l.size, l.pte⟩
    let ts := s.tablesRead w l
    execPageWalkComplete n s = .next (State.resumeChecks
      ((((s.modNet fun m => { m with
          walks := m.walks.filter fun v => !w.inPage l v.tile v.part v.root v.va.toNat }).modCore w.core fun x =>
        { x with mtlb := lastOf 32 (x.mtlb ++ [e]) }).modTile w.tile fun x => { x with tlb := lastOf 1024 (x.tlb ++ [e]) }).modBlock
        (blockOf w.core) fun x => { x with
          walkc := lastOf 512 ((x.walkc.filter fun y => !ts.any fun t => t.pa == y.pa && t.root == y.root) ++ ts) }) w (some l)) := by
  unfold execPageWalkComplete
  simp only [hn, hopen, hruns, touchWalk_none hups hexact, hwalk, hst, Bool.not_true, Bool.or_self, Bool.false_eq_true, ↓reduceIte]
  rfl

end

/-! ## Invalidations (R390, R391) -/

/-- What an invalidation takes from the cache it reaches. -/
def State.invalidated (s : State) (v : Inval) : State :=
  match v.target with
  | .core c => s.modCore c fun x => { x with mtlb := x.mtlb.filter fun e => !v.hitsLeaf e }
  | .tile t => s.modTile t fun x => { x with tlb := x.tlb.filter fun e => !v.hitsLeaf e }
  | .block b => s.modBlock b fun x => { x with walkc := x.walkc.filter fun e => !v.hitsTable e }

theorem execTlbInvalidateApply_reaches {s : State} {n : Nat} {v : Inval} (hn : s.net.invals[n]? = some v) :
    execTlbInvalidateApply n s = .next ((s.modNet fun m => { m with invals := m.invals.eraseIdx n }).invalidated v) := by
  unfold execTlbInvalidateApply
  rw [hn]
  rfl

theorem walkAndInvalidateSteps : Statements.WalkAndInvalidateSteps := by
  intro s n
  refine ⟨fun w l hn hopen hruns hups hexact hwalk hst => ?_, fun w e hn hopen hruns hups hexact hwalk => ?_, fun v hn => ?_⟩
  · rw [exec_pageWalkComplete, execPageWalkComplete_leaf hn hopen hruns hups hexact hwalk hst]
  · rw [exec_pageWalkComplete, execPageWalkComplete_fails hn hopen hruns hups hexact hwalk]
  · rw [exec_tlbInvalidateApply, execTlbInvalidateApply_reaches hn]
    rfl

/-! ## What a sound memory keeps (R397) -/

/-- No array error is unmet and no word is past correction. -/
def State.sound (s : State) : Prop := s.upsets = [] ∧ s.poison = []

namespace State.sound
variable {s : State} (h : s.sound)
include h

theorem fold (ks : List Nat) : (s.fold ks).sound := by
  unfold State.fold
  split <;> exact h

theorem perform (bs : List (Nat × Byte)) (y : Option SyncTag) : (s.perform bs y).sound := by
  obtain ⟨hups, -⟩ := h.fold (bs.map (·.1))
  refine ⟨hups, ?_⟩
  show clearPoison s.poison bs = []
  rw [h.2]
  rfl

theorem performRmw (bs : List (Nat × Byte)) : (s.performRmw bs none).sound := h.perform bs none

theorem zeroRange (lo n : Nat) : (s.zeroRange lo n).sound := by
  obtain ⟨hups, hpoison⟩ := h
  unfold State.zeroRange
  rw [State.sound, hups, hpoison]
  exact ⟨rfl, rfl⟩

theorem copyStorage (src dst n : Nat) : (s.copyStorage src dst n).sound := by
  obtain ⟨hups, hpoison⟩ := (h.fold (keysFrom dst n ++ keysFrom src n)).zeroRange dst n
  unfold State.copyStorage
  exact ⟨hups, by simp only [h.2, hpoison]; rfl⟩

theorem poisoned (k : Nat) : s.poisoned k = false := by
  unfold State.poisoned
  rw [h.2]
  rfl

theorem rangePoisoned (lo n : Nat) : s.rangePoisoned lo n = false := by
  unfold State.rangePoisoned
  rw [h.2]
  rfl

end State.sound

/-! ## Page-ins (R381, R384) -/

/-- An entry of a page's group becomes resident if it still reads as the agent read it. -/
def State.residentAt (p : PageIn) (s : State) (g : Nat) : State :=
  let s := s.fold (keysFrom g 8)
  if s.word g = p.pte then s.performRmw (layBytes (keysFrom g 8) (pagedIn p.pte p.frame).toNat) none else s

theorem sound_residentAt {s : State} (h : s.sound) (p : PageIn) (g : Nat) : (s.residentAt p g).sound := by
  unfold State.residentAt
  dsimp only
  split
  · exact (h.fold _).performRmw _
  · exact h.fold _

/-- With no array error unmet, the model's step at an entry of a page's group is residentAt. -/
theorem meet_residentAt {s : State} (h : s.sound) (p : PageIn) (pos : Word) (g : Nat) :
    (let s := (s.meetUpsetsAs p.wid pos (keysFrom g 8)).fold (keysFrom g 8)
     if !s.poisoned g && s.word g == p.pte then s.performRmw (layBytes (keysFrom g 8) (pagedIn p.pte p.frame).toNat) none else s)
      = s.residentAt p g := by
  unfold State.residentAt
  simp only [meetUpsetsAs_none h.1, (h.fold _).poisoned, Bool.not_false, Bool.true_and, beq_iff_eq]

/-- Two steps that agree on sound states, which they keep, fold alike. -/
theorem foldl_eq_of_sound {f g : State → Nat → State} (hfg : ∀ s : State, s.sound → ∀ a, f s a = g s a)
    (hg : ∀ s : State, s.sound → ∀ a, (g s a).sound) (l : List Nat) {s : State} (h : s.sound) :
    l.foldl f s = l.foldl g s := by
  induction l generalizing s with
  | nil => rfl
  | cons a l ih => rw [List.foldl_cons, List.foldl_cons, hfg s h a, ih (hg s h a)]

theorem foldl_residentAt_sound (p : PageIn) (gs : List Nat) {s : State} (h : s.sound) : (gs.foldl (State.residentAt p) s).sound := by
  induction gs generalizing s with
  | nil => exact h
  | cons g gs ih =>
    rw [List.foldl_cons]
    exact ih (sound_residentAt h p g)

theorem execPageInComplete_sound {s : State} {n : Nat} {p : PageIn} (hn : s.net.pageins[n]? = some p) (h : s.sound) :
    let u := s.modNet fun m => { m with pageins := m.pageins.eraseIdx n }
    let v := p.group.foldl (State.residentAt p) (u.copyStorage (flashKey (pteFrame p.pte % 2 ^ 32) 0) (p.frame * 8192) 8192)
    let w := v.perform (layBytes (keysFrom p.word 8) 1) (some ⟨.pageIn, .fabric⟩)
    execPageInComplete n s = .next (State.wakeWord { w with
      slots := (w.slots.filter fun (x : Nat × Nat × Nat) => !(x.1 == p.root && x.2.1 == p.slot)) ++ [(p.root, p.slot, w.order + 1)],
      order := w.order + 1 } p.word) := by
  intro u v w
  have hu : u.sound := h
  have hread : { u with poison := u.deadWords (flashKey (pteFrame p.pte % 2 ^ 32) 0) 8192 ++ u.poison } = u := by
    rw [deadWords_none hu.1]; rfl
  have hcopied := hu.copyStorage (flashKey (pteFrame p.pte % 2 ^ 32) 0) (p.frame * 8192) 8192
  have hv : v.sound := foldl_residentAt_sound p p.group hcopied
  unfold execPageInComplete
  simp only [hn]
  rw [hread, meetFlash_none hu.1]
  simp only [hu.2, List.filter_nil, List.eraseDups_nil, List.isEmpty_nil, Bool.not_true, Bool.false_eq_true, ↓reduceIte, List.foldl_nil]
  rw [foldl_eq_of_sound (fun s h g => meet_residentAt h p _ g) (fun s h g => sound_residentAt h p g) p.group hcopied, meetUpsetsAs_none hv.1]
  rfl

/-! ## Copies to flash (R387, R393) -/

theorem copyStorage_strand (s : State) (src dst n k : Nat) : (s.copyStorage src dst n).strand k = s.strand k := by
  unfold State.copyStorage State.zeroRange State.fold
  split <;> rfl

theorem execFlashCopyComplete_sound {s : State} {n id frame page k : Nat} (hn : s.net.flash[n]? = some (id, frame, page, k)) (h : s.sound)
    (hk : (s.strand k).stage = .flashOut id) :
    execFlashCopyComplete n s = .next (((s.modNet fun m => { m with flash := m.flash.eraseIdx n }).copyStorage (frame * 8192)
      (flashKey page 0) 8192).modStrand k fun x => { x with stage := .flashDone 1 }) := by
  let u := s.modNet fun m => { m with flash := m.flash.eraseIdx n }
  have hu : u.sound := h
  have hstrand : (u.copyStorage (frame * 8192) (flashKey page 0) 8192).strand k = s.strand k := copyStorage_strand ..
  unfold execFlashCopyComplete
  simp only [hn]
  rw [meetRangeAs_none hu.1, hu.rangePoisoned, deadWords_none hu.1]
  simp only [List.isEmpty_nil, Bool.not_true, Bool.or_self, Bool.false_eq_true, ↓reduceIte, List.nil_append]
  split
  · rfl
  · next hne => exact absurd (hstrand ▸ hk) hne

theorem pageMoveSteps : Statements.PageMoveSteps := by
  intro s n
  refine ⟨fun p hn hups hpoison => ?_, fun id frame page k hn hups hpoison hk => ?_⟩
  · rw [exec_pageInComplete, execPageInComplete_sound hn ⟨hups, hpoison⟩]
    rfl
  · rw [exec_flashCopyComplete, execFlashCopyComplete_sound hn ⟨hups, hpoison⟩ hk]

/-- Settles O46: with no array error unmet the reads of a walk, a page-in and a flash copy meet nothing, so each step is its write. -/
theorem pagingSteps : Obligations.PagingSteps := ⟨walkAndInvalidateSteps, pageMoveSteps⟩

end Sys2Proof.Machine
end

section
/-! SUPPORT. The steps of weaves and of repair: doorbells, placement, the end of a weave, a drain that expires, a core lost and a link
failed (R356 to R366, R398 to R401, R411). -/

namespace Sys2Proof.Machine

/-! ## Their arms -/

theorem exec_dbq (v : BitVec 6) (s : State) : exec (.dbq v) s = execDbq v s := rfl

theorem exec_launchPlacement (choice : List DieChoice) (vb : Nat) (s : State) :
    exec (.launchPlacement choice vb) s = execLaunchPlacement choice vb s := rfl

theorem exec_weaveEnd (wid : Nat) (s : State) : exec (.weaveEnd wid) s = execWeaveEnd wid s := rfl

theorem exec_drainExpiry (part : Nat) (s : State) : exec (.drainExpiry part) s = execDrainExpiry part s := rfl

theorem exec_coreQuarantine (c : CoreIx) (array : BitVec 8) (s : State) :
    exec (.coreQuarantine c array) s = execCoreQuarantine c array s := rfl

theorem exec_linkFail (die block port : Nat) (s : State) : exec (.linkFail die block port) s = execLinkFail die block port s := rfl

/-! ## Doorbells (R357, R412) -/

theorem execDbq_rings {s : State} {v : BitVec 6} (hpart : v.toNat / 16 < s.nparts) (hon : (s.partRec (v.toNat / 16)).on = true)
    (hq : v.toNat % 16 < (s.partRec (v.toNat / 16)).nq) :
    let part := v.toNat / 16
    let d := queueDesc (s.partRec part) (v.toNat % 16)
    let r := s.touchAs 0 (s.partPos part) (keysFrom d 32)
    r.deviceReads d 32 = true →
    let u := r.modPart part fun p => { p with rung := Tab.set p.rung (v.toNat % 16) ((r.word (d + 24)).toNat % 2 ^ 32) }
    execDbq v s = .next (u.takeEntries part (u.entriesLeft part)) := by
  intro part d r hreads u
  unfold execDbq
  rw [if_neg (not_not_intro ⟨hpart, hon, hq⟩)]
  exact if_pos hreads

/-! ## Placement (R354, R361 to R364) -/

section
variable {s : State} {w : Weave} (hnext : s.nextLaunch = some w)

/-- The state in which a launch's structures have been read. -/
def State.launchTouched (s : State) (w : Weave) : State :=
  s.touchExtras (s.launchCtx w.part w.root w.wid) (s.posOf (s.launchCtx w.part w.root w.wid).core 0) w.words

/-- A launch's structures, as its placement reads them. -/
def State.launchExtras (s : State) (w : Weave) : Extras :=
  (s.launchTouched w).readExtras (s.launchCtx w.part w.root w.wid) w.words

/-- The heddle map of a launch's structures. -/
def Extras.segs (e : Extras) : List Segment := (e.map.getD []).map (·.2)

/-- A launch with its structures. -/
def Weave.extended (w : Weave) (e : Extras) : Weave := { w with ext := e.ext.getD [], heddle := e.segs }

/-- The state in which a launch's segment images have been read too. -/
def State.launchRead (s : State) (w : Weave) : State :=
  (s.launchTouched w).touchImages (w.extended (s.launchExtras w)) (s.launchExtras w).segs

/-- The code with which a launch is rejected at its placement, if any. -/
def State.placementCode (s : State) (w : Weave) : Option Nat :=
  let e := s.launchExtras w
  let v := s.launchRead w
  v.launchCode w.part w.words e w.parent.isSome true (recShm w.words && v.imagesBad (w.extended e) e.segs)

include hnext

theorem execLaunchPlacement_rejects {c : Nat} (choice : List DieChoice) (vb : Nat) (hcode : s.placementCode w = some c) :
    execLaunchPlacement choice vb s = .next ((s.launchRead w).rejectLaunch w c).takeQueues := by
  unfold State.placementCode State.launchRead State.launchExtras State.launchTouched Weave.extended Extras.segs at *
  dsimp only at hcode ⊢
  unfold execLaunchPlacement
  rw [hnext]
  dsimp only
  rw [hcode]
  rfl

theorem execLaunchPlacement_places {choice : List DieChoice} {vb : Nat} (hcode : s.placementCode w = none) :
    let v := s.launchRead w
    let segs := (s.launchExtras w).segs
    let cores := if recShm w.words then segs.flatMap Segment.replicas else choiceCores (shapeOf w.words).cpt choice
    let vb' := if recVault w.words = 0 then 0 else vb
    v.inTeam w.wid (ownPkg v) = true → recShm w.words = true ∨ v.choiceFits w.part (shapeOf w.words) choice = true →
    (recWord w.words 10 = 0 ∨ sameCores cores (v.retaining w.part (recWord w.words 10)) = true) →
    v.fits w.words cores vb' = true → execLaunchPlacement choice vb s =
      .next (v.placeWeave { w.extended (s.launchExtras w) with placed := true, cores := cores, vb := vb' }).takeQueues := by
  intro v segs cores vb' hteam hchoice hkeyed hfits
  have hall : (v.inTeam w.wid (ownPkg v) && (recShm w.words || v.choiceFits w.part (shapeOf w.words) choice)
      && (recWord w.words 10 == 0 || sameCores cores (v.retaining w.part (recWord w.words 10))) && v.fits w.words cores vb') = true := by
    simp only [Bool.and_eq_true, Bool.or_eq_true, beq_iff_eq]
    exact ⟨⟨⟨hteam, hchoice⟩, hkeyed⟩, hfits⟩
  unfold execLaunchPlacement
  rw [hnext]
  dsimp only
  unfold State.placementCode at hcode
  dsimp only [State.launchRead, State.launchExtras, State.launchTouched, Weave.extended, Extras.segs] at hcode
  rw [hcode]
  exact if_pos hall

end

/-! ## The end of a weave (R356) -/

theorem execWeaveEnd_ends {s : State} {wid : Nat} {w : Weave} (hw : s.weaveOf wid = some w) (hover : s.weaveOver w = true) :
    execWeaveEnd wid s = .next (s.endWeave w (if w.exiting then 2 else 1) (if w.exiting then w.code else 0)).takeQueues := by
  unfold execWeaveEnd
  rw [hw]
  exact if_pos hover

/-! ## A drain that expires (R367 to R369) -/

/-- The lower of a weave and the lowest so far. -/
def lowerWid (b : Option Weave) (w : Weave) : Option Weave :=
  match b with
  | some y => if w.wid < y.wid then some w else some y
  | none => some w

theorem foldl_lowerWid (w : Weave) (rest : List Weave) (h : ∀ y ∈ rest, w.wid < y.wid) : rest.foldl lowerWid (some w) = some w := by
  induction rest with
  | nil => rfl
  | cons y rest ih =>
    have hy : ¬ y.wid < w.wid := Nat.not_lt.mpr (Nat.le_of_lt (h y (List.mem_cons_self ..)))
    rw [List.foldl_cons, lowerWid, if_neg hy]
    exact ih fun z hz => h z (List.mem_cons_of_mem _ hz)

section
variable {s : State} {part t : Nat} {w : Weave} {rest : List Weave} (hdrain : (s.partRec part).draining = some t)
  (hres : s.resident part = w :: rest) (hlow : ∀ y ∈ rest, w.wid < y.wid)
  (hlate : t + (s.partRec part).drain.toNat < s.cycle ((s.partDies part).headD 0))
include hdrain hres hlow hlate

theorem execDrainExpiry_eq :
    let w1 := { w with stopping := true }
    let u := s.setWeave w1
    let area := u.takeArea part (saveLen u w1)
    execDrainExpiry part s = .next (if !u.saveReady w1 none then u
      else if !u.inWindow area.1 (saveLen u w1) then u else area.2.performSave w1 area.1 false) := by
  intro w1 u area
  have hfold : (s.resident part).foldl lowerWid none = some w := by
    rw [hres]
    exact foldl_lowerWid w rest hlow
  unfold execDrainExpiry
  rw [hdrain]
  dsimp only
  rw [if_neg (Nat.not_le.mpr hlate)]
  have hmatch : ∀ o, o = some w → ∀ (f : Weave → Out), (match o with | none => eventStep s | some w => f w) = f w := by
    rintro _ rfl f
    rfl
  refine (hmatch _ hfold _).trans ?_
  rw [apply_ite Host.Outcome.next, apply_ite Host.Outcome.next]
  rfl

end

/-! ## Lost cores and failed links (R398 to R401) -/

theorem execCoreQuarantine_loses {s : State} {c : CoreIx} {a : BitVec 8} (ha : a.toNat ∈ privateArrays)
    (hq : (s.coreRec c).quar = false) : execCoreQuarantine c a s = .next (s.quarantine c a) := by
  unfold execCoreQuarantine
  rw [hq, List.contains_iff_mem.mpr ha]
  rfl

theorem quarantine_idle {s : State} {c : CoreIx} {a : BitVec 8} (hwid : (s.coreRec c).wid = none) :
    s.quarantine c a = (s.loseCore c).logRec (dieOf c) 3 a.toNat 0xFF (s.failedAt c a) 0 (s.posOf c 0) := by
  unfold State.quarantine
  rw [hwid]
  exact if_pos rfl

theorem quarantine_held {s : State} {c : CoreIx} {a : BitVec 8} {w : Nat} (hwid : (s.coreRec c).wid = some w) (hw : w ≠ 0) :
    let u := (s.loseCore c).logRec (dieOf c) 3 a.toNat 0xFF (s.failedAt c a) w (s.posOf c 0)
    let t : Trap := ⟨0x61, a, BitVec.ofNat 64 (s.partOfDie (dieOf c) * 2 ^ 32) + s.posOf c 0, none, 0⟩
    s.quarantine c a = (u.notified w c).foldl (fun (v : State) k => v.modStrand k fun x => { x with pend := x.pend ++ [t] }) u := by
  intro u t
  unfold State.quarantine
  rw [hwid]
  exact if_neg hw

section
variable {s : State} {die b p : Nat} (hopen : s.linkFailed die b p = false)
include hopen

theorem execLinkFail_worholt (hport : worholtPort die b p = true) : execLinkFail die b p s =
    .next (State.logRec { s with failed := s.failed ++ [(die, b, p)] } die 5 0x0B 0xFF (BitVec.ofNat 64 (b * 256 + p)) 0
      (s.posOf (coreAt die 0 0) 0)) := by
  unfold execLinkFail
  rw [hopen, hport]
  rfl

theorem execLinkFail_router {q : Nat × Nat} (hport : worholtPort die b p = false) (hpeer : linkPeer die b p = some q) :
    let u := (List.range 8).foldl (fun s _ => s.countBlock (die * 160 + b) 0x12) s
    let v := u.countBlock (die * 160 + b) 0x13
    execLinkFail die b p s = .next (State.logRec { v with failed := v.failed ++ [(die, b, p)] } die 5 0x0B 0xFF
      (BitVec.ofNat 64 (b * 256 + p)) 0 (v.posOf (blockCore (die * 160 + b)) 0)) := by
  unfold execLinkFail
  rw [hopen, hport, hpeer]
  rfl

end

theorem weaveSteps : Statements.WeaveSteps := by
  intro s
  refine ⟨fun v hpart hon hq => ?_, fun w choice vb hnext => ⟨fun c hcode => ?_, fun hcode => ?_⟩, fun wid w hw hover => ?_,
    fun part t w rest hdrain hres hlow hlate => ⟨fun hready => ?_, fun hready => ?_⟩, fun c a ha hq hwid => ?_,
    fun c a w ha hq hwid hw => ?_, fun die b p hopen hport => ?_, fun die b p q hopen hport hpeer => ?_⟩
  · exact execDbq_rings hpart hon hq
  · exact execLaunchPlacement_rejects hnext choice vb hcode
  · exact execLaunchPlacement_places hnext hcode
  · exact execWeaveEnd_ends hw hover
  · rw [exec_drainExpiry, execDrainExpiry_eq hdrain hres hlow hlate, hready]
    rfl
  · rw [exec_drainExpiry, execDrainExpiry_eq hdrain hres hlow hlate, hready]
    simp only [Bool.not_true, Bool.false_eq_true, ↓reduceIte, Bool.not_eq_true', ← Bool.not_eq_true, ite_not]
  · rw [exec_coreQuarantine, execCoreQuarantine_loses ha hq, quarantine_idle hwid]
  · rw [exec_coreQuarantine, execCoreQuarantine_loses ha hq, quarantine_held hwid hw]
  · exact execLinkFail_worholt hopen hport
  · exact execLinkFail_router hopen hport hpeer

end Sys2Proof.Machine
end

section
/-! SUPPORT. Bring-up: reset, link training, verification and the firmware's end (R415, R416). -/

namespace Sys2Proof.Machine

/-! ## Their arms -/

theorem exec_deviceReset (s : State) : exec .deviceReset s = execDeviceReset s := rfl

theorem exec_linkTrain (s : State) : exec .linkTrain s = execLinkTrain s := rfl

theorem exec_go (s : State) : exec .go s = execGo s := rfl

theorem exec_imageVerify (s : State) : exec .imageVerify s = execImageVerify s := rfl

theorem exec_bringupComplete (f : BringupFacts) (s : State) : exec (.bringupComplete f) s = execBringupComplete f s := rfl

/-! ## Reset (R415) -/

theorem Tab.get_of_not_mem {α : Type} {d : α} {t : Tab α} {k : Nat} (h : k ∉ t.map (·.1)) : Tab.get d t k = d := by
  induction t with
  | nil => rfl
  | cons e r ih =>
    obtain ⟨hne, hr⟩ := not_or.mp (mt List.mem_cons.mpr h)
    exact (if_neg (Ne.symm hne)).trans (ih hr)

/-- The cores that a reset keeps on record: the quarantined ones, emptied. -/
def quarOnly (t : Tab Core) : Tab Core :=
  t.filterMap fun (c, x) => if x.quar then some (c, { Core.empty with quar := true }) else none

theorem quarOnly_cons (c : CoreIx) (x : Core) (t : Tab Core) :
    quarOnly ((c, x) :: t) = if x.quar then (c, { Core.empty with quar := true }) :: quarOnly t else quarOnly t := by
  unfold quarOnly
  rw [List.filterMap_cons]
  by_cases hq : x.quar = true
  · simp only [if_pos hq]
  · simp only [if_neg hq]

theorem keys_quarOnly_subset {t : Tab Core} {c : CoreIx} (h : c ∈ (quarOnly t).map (·.1)) : c ∈ t.map (·.1) := by
  obtain ⟨e, he, rfl⟩ := List.mem_map.mp h
  obtain ⟨⟨c, x⟩, hx, hsome⟩ := List.mem_filterMap.mp he
  obtain ⟨-, hentry⟩ := Option.ite_none_right_eq_some.mp hsome
  rw [← Option.some.inj hentry]
  exact List.mem_map.mpr ⟨(c, x), hx, rfl⟩

theorem get_quarOnly {t : Tab Core} (hnodup : (t.map (·.1)).Nodup) (c : CoreIx) : Tab.get Core.empty (quarOnly t) c =
    if (Tab.get Core.empty t c).quar then { Core.empty with quar := true } else Core.empty := by
  induction t with
  | nil => rfl
  | cons e r ih =>
    obtain ⟨d, x⟩ := e
    obtain ⟨hd, hr⟩ := List.nodup_cons.mp hnodup
    rw [quarOnly_cons]
    by_cases hdc : d = c
    · subst hdc
      have habsent : Tab.get Core.empty (quarOnly r) d = Core.empty := Tab.get_of_not_mem (mt keys_quarOnly_subset hd)
      by_cases hq : x.quar = true
      · simp only [Tab.get, if_pos, hq]
      · simp only [Tab.get, ↓reduceIte, hq, habsent, Bool.false_eq_true]
    · have hskip : ∀ y, Tab.get Core.empty ((d, y) :: quarOnly r) c = Tab.get Core.empty (quarOnly r) c := fun y => if_neg hdc
      rw [Tab.get, if_neg hdc, ← ih hr]
      split
      · exact hskip _
      · rfl

/-- Whether a reset keeps a byte of storage: one of host memory, main memory or flash, the reduction descriptors apart. -/
def keptByReset (k : Nat) : Bool := (localOf k).isNone && (vaultOf k).isNone && !rdescByte k

/-- What a reset leaves of a state. -/
def State.afterReset (s : State) : State := { State.reset with
  agenda := s.agenda
  prompt := s.prompt
  freeCtr := s.freeCtr
  mem := s.mem.filter fun b => keptByReset b.1
  poison := s.poison.filter keptByReset
  upsets := s.upsets.filter fun u => keptByReset u.key
  sent := s.sent
  cores := quarOnly s.cores
  host := { HostPage.reset with form := s.host.form, plim := if s.host.form = 1 then 3760 else 4000 } }

theorem execDeviceReset_eq (s : State) : execDeviceReset s = .next s.afterReset := rfl

theorem afterReset_coreRec {s : State} (h : (s.cores.map (·.1)).Nodup) (c : CoreIx) :
    s.afterReset.coreRec c = if (s.coreRec c).quar then { Core.empty with quar := true } else Core.empty := get_quarOnly h c

theorem afterReset_read {s : State} (h : s.memoryOk = true) {k : Nat} (hlocal : localOf k = none) (hvault : vaultOf k = none)
    (hdesc : rdescByte k = false) : s.afterReset.mem.read k = s.mem.read k := by
  have hkept : keptByReset k = true := by
    unfold keptByReset
    rw [hlocal, hvault, hdesc]
    rfl
  exact (Memory.read_filter keptByReset s.mem k h).trans (if_pos hkept)

/-! ## Stages (R415, R416) -/

section
variable {s : State} (hstage : s.host.stage = 2)
include hstage

theorem execImageVerify_misplaced (h : s.host.fwb.toNat % 4096 ≠ 0 ∨ s.host.fwl.toNat < 17408 ∨ 2 ^ 24 < s.host.fwl.toNat) :
    execImageVerify s = .next (s.setStage 0x81) := by
  unfold execImageVerify
  rw [if_neg (not_not_intro hstage)]
  exact if_pos h

variable (hups : s.upsets = []) (hexact : s.exact = [])
  (hplaced : ¬ (s.host.fwb.toNat % 4096 ≠ 0 ∨ s.host.fwl.toNat < 17408 ∨ 2 ^ 24 < s.host.fwl.toNat))
  (hclean : s.rangePoisoned (hostBase + s.host.fwb.toNat) s.host.fwl.toNat = false)
include hups hexact hplaced hclean

theorem execImageVerify_reads : execImageVerify s =
    match imageFault (s.hostBytes s.host.fwb.toNat s.host.fwl.toNat) with
    | some f => .next (s.setStage f)
    | none => .next (State.setStage
        { s with host := { s.host with image := beNat (sha384 (s.hostBytes s.host.fwb.toNat s.host.fwl.toNat)) } } 3) := by
  have hmeet (wid : Nat) (pos : Word) (lo n : Nat) : (s.meetRangeAs wid pos lo n).foldRange lo n = s := by
    unfold State.meetRangeAs State.foldRange
    rw [hups]
    exact if_pos (List.isEmpty_iff.mpr hexact)
  unfold execImageVerify
  rw [if_neg (not_not_intro hstage)]
  dsimp only
  rw [if_neg hplaced, hmeet, if_neg (Bool.eq_false_iff.mp hclean)]
  rfl

end

theorem execBringupComplete_ready {s : State} (hstage : s.host.stage = 3) {f : BringupFacts} (hpeer : f.peerClash = false)
    (hstack : f.stackFails = false) :
    execBringupComplete f s = .next (((List.range 4).foldl State.readRdesc (f.badCores.foldl State.failTest s)).setStage 4) := by
  unfold execBringupComplete
  rw [if_neg (not_not_intro hstage), hpeer, hstack]
  rfl

theorem execBringupComplete_clash {s : State} (hstage : s.host.stage = 3) {f : BringupFacts} (hpeer : f.peerClash = true) :
    execBringupComplete f s = .next (s.setStage 0x87) := by
  unfold execBringupComplete
  rw [if_neg (not_not_intro hstage), hpeer]
  rfl

theorem execBringupComplete_stack {s : State} (hstage : s.host.stage = 3) {f : BringupFacts} (hpeer : f.peerClash = false)
    (hstack : f.stackFails = true) : execBringupComplete f s = .next (s.setStage 0x88) := by
  unfold execBringupComplete
  rw [if_neg (not_not_intro hstage), hpeer, hstack]
  rfl

theorem bringUpSteps : Statements.BringUpSteps := by
  intro s
  refine ⟨fun hmem hnodup => ⟨s.afterReset, execDeviceReset_eq s, rfl, rfl, rfl, rfl, rfl, rfl, fun c => ?_, fun k => afterReset_read hmem⟩,
    fun hstage => if_pos hstage, fun hstage => if_pos hstage, fun hstage => ⟨execImageVerify_misplaced hstage, fun hpage hlong hshort hups hexact hclean => ?_⟩,
    fun hstage f hpeer hstack => execBringupComplete_ready hstage hpeer hstack,
    fun hstage f => ⟨execBringupComplete_clash hstage, execBringupComplete_stack hstage⟩⟩
  · rw [afterReset_coreRec hnodup]
    cases (s.coreRec c).quar <;> exact ⟨rfl, rfl⟩
  · have hplaced : ¬ (s.host.fwb.toNat % 4096 ≠ 0 ∨ s.host.fwl.toNat < 17408 ∨ 2 ^ 24 < s.host.fwl.toNat) := by omega
    rw [exec_imageVerify, execImageVerify_reads hstage hups hexact hplaced hclean]
    refine ⟨fun f hf => ?_, fun hok => ?_⟩
    · rw [hf]
    · rw [hok]

end Sys2Proof.Machine
end

section
/-! SUPPORT. The host's page and the platform's own steps: register writes, doorbells, attestation, power and the Ethernet ports (R7,
R357, R372, R410, R415, R417 to R419, R422 to R424). -/

namespace Sys2Proof.Machine

/-! ## Their arms -/

theorem exec_hostRegisterWrite (word : Nat) (value : BitVec 64) (s : State) :
    exec (.hostRegisterWrite word value) s = execHostRegisterWrite word value s := rfl

theorem exec_dbr (p : BitVec 2) (s : State) : exec (.dbr p) s = execDbr p s := rfl

theorem exec_att (s : State) : exec .att s = execAtt s := rfl

theorem exec_powerThrottle (island : Nat) (s : State) : exec (.powerThrottle island) s = execPowerThrottle island s := rfl

theorem exec_thermalTrip (die : Nat) (s : State) : exec (.thermalTrip die) s = execThermalTrip die s := rfl

theorem exec_pointChangeComplete (island : Nat) (s : State) :
    exec (.pointChangeComplete island) s = .next { s with pointMoves := s.pointMoves.filter fun m => m.1 != island } := rfl

theorem exec_ethFrameReceive (port queue : Nat) (frame : List Byte) (good : Bool) (s : State) :
    exec (.ethFrameReceive port queue frame good) s = execEthFrameReceive port queue frame good s := rfl

theorem exec_ethTransmit (n : Nat) (s : State) : exec (.ethTransmit n) s = execEthTransmit n s := rfl

/-! ## The register page (R372, R410) -/

theorem execHostRegisterWrite_refused {s : State} (h : s.host.trained = false ∨ 0x80 ≤ s.host.stage) (word : Nat) (value : BitVec 64) :
    execHostRegisterWrite word value s = .next s := by
  have hclosed : (!s.host.trained || decide (0x80 ≤ s.host.stage)) = true := by
    rw [Bool.or_eq_true, Bool.not_eq_true', decide_eq_true_iff]
    exact h
  exact if_pos hclosed

section
variable {s : State} (htrained : s.host.trained = true) (hstage : s.host.stage < 0x80)
include htrained hstage

theorem hostPage_open : ¬ (!s.host.trained || decide (0x80 ≤ s.host.stage)) = true := by
  rw [htrained, decide_eq_false (BitVec.not_le.mpr hstage)]
  exact Bool.false_ne_true

theorem execHostRegisterWrite_fwb (v : BitVec 64) :
    execHostRegisterWrite 2 v s = .next { s with host := { s.host with fwb := v } } := by
  unfold execHostRegisterWrite
  exact if_neg (hostPage_open htrained hstage)

theorem execHostRegisterWrite_evh (v : BitVec 64) :
    execHostRegisterWrite 18 v s = .next { s with host := { s.host with evh := v.setWidth 32 } } := by
  unfold execHostRegisterWrite
  exact if_neg (hostPage_open htrained hstage)

end

/-! ## The run doorbell (R357) -/

section
variable {s : State} {p : BitVec 2} (hstage : s.host.stage = 4) (hpart : p.toNat < s.nparts)

/-- Where a partition's control block lies. -/
def State.ctlBlock (s : State) (part : Nat) : Nat := (Tab.get 0 s.host.pcb part).toNat

/-- A partition started from its control block. -/
def State.startPart (s : State) (part a : Nat) : State :=
  let w (k : Nat) : Word := s.word (a + 8 * k)
  s.modPart part fun x => { x with
    on := true, sysvec := w 0, drain := w 1, qtab := w 2 &&& ~~~15#64, nq := (w 2).toNat % 16 + 1, ctxr := w 3, ctxs := w 4,
    ovb := w 5, ovs := (w 6).toNat, draining := none }

include hstage hpart

theorem execDbr_eq :
    let a := s.ctlBlock p.toNat
    let r := s.touchAs 0 (s.partPos p.toNat) (keysFrom a 56)
    let u := r.startPart p.toNat a
    execDbr p s = if r.deviceReads a 56 ∧ (r.word (a + 48)).toNat < 2 ^ 16 then .next ((u.partDies p.toNat).foldl State.readRdesc u)
      else .next r := by
  intro a r u
  unfold execDbr
  exact if_neg (not_not_intro ⟨hstage, hpart⟩)

end

/-! ## Attestation (R417) -/

theorem perform_host (s : State) (bs : List (Nat × Byte)) (y : Option SyncTag) : (s.perform bs y).host = s.host := by
  obtain ⟨e, he⟩ := fold_eq_exact s (bs.map (·.1))
  unfold State.perform
  rw [he]

theorem execAtt_reports {s : State} (hstage : s.host.stage = 3 ∨ s.host.stage = 4) (hups : s.upsets = []) (hexact : s.exact = []) :
    execAtt s = .next (State.setStage (s.perform
      ((keysFrom (hostBase + s.host.attb.toNat + 64) s.attReport.length).zip s.attReport) none) s.host.stage) := by
  have htouch (wid : Nat) (pos : Word) (ks : List Nat) : s.touchAs wid pos ks = s := by
    unfold State.touchAs
    rw [meetUpsetsAs_none hups, fold_none hexact]
  unfold execAtt
  rw [if_pos hstage]
  dsimp only
  rw [htouch, perform_host]
  rfl

/-! ## Ethernet ports (R422 to R424) -/

theorem flushFrames_none {p q : Nat} {l : List (Nat × Nat × List Byte)} (h : l.any (fun g => g.1 == p && g.2.1 == q) = false) (s : State) :
    State.flushFrames p q l s = s := by
  induction l with
  | nil => rfl
  | cons f r ih =>
    rw [List.any_cons, Bool.or_eq_false_iff] at h
    obtain ⟨hf, hr⟩ := h
    have hother : f.1 ≠ p ∨ f.2.1 ≠ q := by
      rw [Bool.and_eq_false_iff] at hf
      exact hf.imp beq_eq_false_iff_ne.mp beq_eq_false_iff_ne.mp
    exact (if_pos hother).trans (ih hr)

theorem flushPair_takes {s : State} {p q : Nat} {f : List Byte} {r : List (Nat × Nat × List Byte)} {y : Stream}
    (hwait : s.framesIn = (p, q, f) :: r) (hy : s.pairTakes p q f.length = some y) :
    s.flushPair p q = State.flushFrames p q r (State.frameTo { s with framesIn := r } p q f y) := by
  have herase : s.framesIn.erase (p, q, f) = r := by
    rw [hwait, List.erase_cons_head]
  have hmine : ¬ (p ≠ p ∨ q ≠ q) := fun h => h.elim (· rfl) (· rfl)
  unfold State.flushPair
  rw [hwait, State.flushFrames, if_neg hmine, hy, ← herase]

section
variable {s : State} {p q : Nat} (hstage : s.host.stage = 4) (hp : p < 6) (hq : q < 16)
include hstage hp hq

theorem portTakes_frames : ¬ (6 ≤ p ∨ 16 ≤ q ∨ s.host.stage ≠ 4) := by
  rintro (h | h | h)
  · exact absurd hp (Nat.not_lt.mpr h)
  · exact absurd hq (Nat.not_lt.mpr h)
  · exact h hstage

theorem execEthFrameReceive_badFcs (f : List Byte) : execEthFrameReceive p q f false s = .next (s.countEth p 4 1) :=
  if_neg (portTakes_frames hstage hp hq)

/-- A good frame of n bytes counted, with its FCS, as it arrives at port p. -/
def State.frameCounted (s : State) (p n : Nat) : State := (s.countEth p 1 1).countEth p 3 (n + 4)

theorem execEthFrameReceive_badLength {f : List Byte} (hlen : frameLen f.length = false) :
    execEthFrameReceive p q f true s = .next ((s.frameCounted p f.length).countEth p 5 1) := by
  unfold execEthFrameReceive
  rw [if_neg (portTakes_frames hstage hp hq), hlen]
  rfl

variable {f : List Byte} (hlen : frameLen f.length = true)
include hlen

theorem execEthFrameReceive_eq :
    let c := (s.frameCounted p f.length).flushPair p q
    execEthFrameReceive p q f true s =
      match if c.framesIn.any (fun f => f.1 == p && f.2.1 == q) then none else c.pairTakes p q f.length with
      | some y => .next (c.frameTo p q f y)
      | none => .next (if Config.freeBit c.draw.1 then c.draw.2.countEth p 6 1
          else { c.draw.2 with framesIn := c.draw.2.framesIn ++ [(p, q, f)] }) := by
  intro c
  unfold execEthFrameReceive
  rw [if_neg (portTakes_frames hstage hp hq), hlen]
  rfl

theorem execEthFrameReceive_goes {y : Stream} :
    let c := (s.frameCounted p f.length).flushPair p q
    c.framesIn.any (fun f => f.1 == p && f.2.1 == q) = false → c.pairTakes p q f.length = some y →
    execEthFrameReceive p q f true s = .next (c.frameTo p q f y) := by
  intro c hfirst hy
  rw [execEthFrameReceive_eq hstage hp hq hlen]
  dsimp only
  rw [hfirst, if_neg Bool.false_ne_true, hy]

theorem execEthFrameReceive_stays :
    let c := (s.frameCounted p f.length).flushPair p q
    c.framesIn.any (fun f => f.1 == p && f.2.1 == q) = true ∨ c.pairTakes p q f.length = none →
    execEthFrameReceive p q f true s = .next (if Config.freeBit c.draw.1 then c.draw.2.countEth p 6 1
      else { c.draw.2 with framesIn := c.draw.2.framesIn ++ [(p, q, f)] }) := by
  intro c hstays
  have hnone : (if c.framesIn.any (fun f => f.1 == p && f.2.1 == q) then none else c.pairTakes p q f.length) = none :=
    ite_eq_left_iff.mpr fun hfirst => hstays.resolve_left hfirst
  rw [execEthFrameReceive_eq hstage hp hq hlen]
  dsimp only
  rw [hnone]

end

theorem execEthFrameReceive_idle {s : State} (h : s.host.stage ≠ 4) (p q : Nat) (f : List Byte) (good : Bool) :
    execEthFrameReceive p q f good s = .next s := if_pos (.inr (.inr h))

theorem pairTakes_free {s : State} {p q n : Nat} {y : Stream} (hy : s.stream 0 (portBlk p true) q = some y) (hon : s.pairOn p q = true)
    (hended : y.rcv.ended = false) (hout : y.out < 32) (hclean : y.poisoned = false) (hin : s.inWindow (s.rxSlot p q y) n = true) :
    s.pairTakes p q n = some y := by
  unfold State.pairTakes
  simp only [hy, hon, hended, hout, hclean, hin, decide_true, Bool.not_false, Bool.and_self, ↓reduceIte]

theorem frameLen_iff {n : Nat} : frameLen n = true ↔ 64 ≤ n + 4 ∧ n + 4 ≤ 9216 := by
  rw [frameLen, Bool.and_eq_true, decide_eq_true_iff, decide_eq_true_iff]

theorem execEthTransmit_idle {s : State} (h : s.host.stage ≠ 4) (n : Nat) : execEthTransmit n s = .next s := if_pos h

section
variable {s : State} {n : Nat} {y : Stream} {i : Item} (hstage : s.host.stage = 4)
  (hy : s.stream 0 (portBlk (n / 16) false) (n % 16) = some y) (hi : y.held.find? (fun i => i.seq == y.nr) = some i)
  (hval : i.val &&& 0xFFFFFFFFC000FFC0 = 0) (hlen : frameLen (i.val.extractLsb' 16 14).toNat = true)
include hstage hy hi hval hlen

theorem execEthTransmit_eq :
    let u := (s.setStream { y with nr := y.nr + 1, held := y.held.filter fun j => j.seq != y.nr }).modNet fun m =>
      { m with credits := m.credits ++ [(y.wid, y.blk, y.str)] }
    let len := (i.val.extractLsb' 16 14).toNat
    let a := u.ethArea (n / 16) (n % 16) + 16384 * (64 + (i.val.extractLsb' 0 6).toNat)
    let f := u.frameAt (n / 16) a len
    execEthTransmit n s = if !u.inWindow a len then .next u else .next
      ((State.countEth { f.2 with sent := f.2.sent ++ [(n / 16, f.1)] } (n / 16) 0 1).countEth (n / 16) 2 (len + 4)) := by
  intro u len a f
  have hgood : ¬ (i.val &&& 0xFFFFFFFFC000FFC0 != 0 || !frameLen len) = true := by
    rw [hval, hlen]
    decide
  unfold execEthTransmit
  dsimp only
  rw [if_neg (not_not_intro hstage), hy]
  dsimp only
  rw [hi]
  exact if_neg hgood

end

theorem platformSteps : Statements.PlatformSteps := by
  intro s
  refine ⟨fun v htrained hstage => ⟨execHostRegisterWrite_fwb htrained hstage v, execHostRegisterWrite_evh htrained hstage v⟩,
    fun w v h => execHostRegisterWrite_refused h w v, fun p hstage hpart hreads => ⟨fun hok => ?_, fun hbad => ?_⟩,
    execAtt_reports, fun i hi hpoint => if_pos ⟨hi, hpoint⟩, fun d hd => if_pos hd, fun i => exec_pointChangeComplete i s,
    fun p q f hstage hp hq => execEthFrameReceive_badFcs hstage hp hq f, fun p q f good h => execEthFrameReceive_idle h p q f good,
    fun n h => execEthTransmit_idle h n,
    fun p q f hstage hp hq hmin hmax => ⟨fun y hfirst hy hon hended hout hclean hin => ?_, fun hstays => ?_⟩,
    fun p q h => flushFrames_none h s, fun p q f r y hwait hy => flushPair_takes hwait hy, fun p q f hstage hp hq hbad => ?_,
    fun n y i hstage hy hi hval hmin hmax => ⟨fun hin => ?_, fun hout => ?_⟩⟩
  · rw [exec_dbr, execDbr_eq hstage hpart]
    exact if_pos ⟨hreads, hok⟩
  · rw [exec_dbr, execDbr_eq hstage hpart]
    exact if_neg fun h => absurd h.2 (Nat.not_lt.mpr hbad)
  · exact execEthFrameReceive_goes hstage hp hq (frameLen_iff.mpr ⟨hmin, hmax⟩) hfirst (pairTakes_free hy hon hended hout hclean hin)
  · exact execEthFrameReceive_stays hstage hp hq (frameLen_iff.mpr ⟨hmin, hmax⟩) hstays
  · exact execEthFrameReceive_badLength hstage hp hq (Bool.eq_false_iff.mpr (mt frameLen_iff.mp hbad))
  · rw [exec_ethTransmit, execEthTransmit_eq hstage hy hi hval (frameLen_iff.mpr ⟨hmin, hmax⟩), hin]
    rfl
  · rw [exec_ethTransmit, execEthTransmit_eq hstage hy hi hval (frameLen_iff.mpr ⟨hmin, hmax⟩), hout]
    rfl

/-- Settles O50: each step in the state its clause gives, by the branch of its definition that the state takes. -/
theorem weaveAndPlatformSteps : Obligations.WeaveAndPlatformSteps := ⟨weaveSteps, bringUpSteps, platformSteps⟩

end Sys2Proof.Machine
end
